-- ==== Sys2Proof/Word.lean ====
section
/-! DEFINITION. The word types of the Xojor Q9 and the one shape in which the state keeps sparse data. -/

namespace Sys2Proof

/-- One byte of storage. -/
abbrev Byte := BitVec 8

/-- A 32-bit register or memory word (R34). -/
abbrev Word := BitVec 32

/-- A 64-bit word: an instruction word, a program counter, a register pair (R35). -/
abbrev DWord := BitVec 64

/-- A sparse table: pairs of a key and a value, keys strictly rising (`Tab.wf`).
An absent key stands for the default value its reader names. -/
abbrev Tab (β : Type) := List (Nat × β)

end Sys2Proof
end

