-- ==== Sys2Proof/Syntax.lean ====
section
/-! DEFINITION. The instruction words of R130 to R140 as syntax, and the part's events as operations: one constructor per row of the opcode table. -/

namespace Sys2Proof

/-! ### Operand fields -/

/-- An operand code of R34: v0–v127, k0–k63 or a special register 0xC0 + n. Codes 0xD9–0xFF name nothing. -/
inductive Reg where
  | v (n : Fin 128)
  | k (n : Fin 64)
  | sp (n : Fin 25)
deriving DecidableEq, Repr, Inhabited

/-- A source operand with its crossbar pattern, parameter (R46) and policy bit (R43). -/
structure Src where
  reg : Reg
  pat : Fin 4
  par : Fin 32
  pol : Bool
deriving DecidableEq, Repr, Inhabited

/-- The type codes of R136, in code order. -/
inductive Ty where
  | b32 | s32 | n32 | s64 | n64 | f32 | f16 | bf16 | s16 | n16 | s8 | n8 | e4m3 | e5m2 | e2m1 | b64
deriving DecidableEq, Repr, Inhabited

/-- The engine-type codes of R138, in code order. -/
inductive ETy where
  | bf16 | f16 | e4m3 | e5m2 | t2 | t5 | s8 | f32 | e2m1 | s32
deriving DecidableEq, Repr, Inhabited

/-! ### Format A (R130) -/

/-- Guard, type, destination, one source and the rm bit. -/
structure A1 where
  g : Fin 8
  ty : Ty
  d : Reg
  a : Src
  rm : Bool
deriving DecidableEq, Repr, Inhabited

/-- Two sources. -/
structure A2 where
  g : Fin 8
  ty : Ty
  d : Reg
  a : Src
  b : Src
  rm : Bool
deriving DecidableEq, Repr, Inhabited

/-- Three sources; c has no crossbar. -/
structure A3 where
  g : Fin 8
  ty : Ty
  d : Reg
  a : Src
  b : Src
  c : Reg
  cPol : Bool
  rm : Bool
deriving DecidableEq, Repr, Inhabited

/-- SEL (R157): two sources and a predicate. -/
structure ASel where
  g : Fin 8
  ty : Ty
  d : Reg
  a : Src
  b : Src
  p : Fin 8
deriving DecidableEq, Repr, Inhabited

/-- ICMP and FCMP (R155, R161): a predicate destination and a condition code. -/
structure ACmp where
  g : Fin 8
  ty : Ty
  p : Fin 8
  a : Src
  b : Src
  cc : Fin 8
deriving DecidableEq, Repr, Inhabited

/-- PLOP (R156): three predicates and a truth table. -/
structure APlop where
  g : Fin 8
  d : Fin 8
  a : Fin 8
  b : Fin 8
  tbl : Fin 16
deriving DecidableEq, Repr, Inhabited

/-- CVT (R162): destination type, source type. -/
structure ACvt where
  g : Fin 8
  ty : Ty
  sty : Ty
  d : Reg
  a : Src
  rm : Bool
deriving DecidableEq, Repr, Inhabited

/-- CVTB (R163, R164): b is the scale of the decode form. -/
structure ACvtb where
  g : Fin 8
  ty : Ty
  sty : Ty
  d : Reg
  a : Src
  b : Src
deriving DecidableEq, Repr, Inhabited

/-- MOVS (R168): form 0 reads the predicate word into d, form 1 writes it from a. -/
structure AMovs where
  g : Fin 8
  toPreds : Bool
  d : Reg
  a : Src
deriving DecidableEq, Repr, Inhabited

/-- VOTE (R170). -/
structure AVote where
  g : Fin 8
  d : Reg
  p : Fin 8
  mode : Fin 8
deriving DecidableEq, Repr, Inhabited

/-! ### Format I (R131) -/

/-- MOVI (R166): a 26-bit immediate. -/
structure IMovi where
  g : Fin 8
  ty : Ty
  d : Reg
  imm : BitVec 26
deriving DecidableEq, Repr, Inhabited

/-- MOVK (R167): half-word index and value. -/
structure IMovk where
  g : Fin 8
  ty : Ty
  d : Reg
  h : Fin 4
  imm : BitVec 16
deriving DecidableEq, Repr, Inhabited

/-- A guard alone. -/
structure G0 where
  g : Fin 8
deriving DecidableEq, Repr, Inhabited

/-- RET and ASSERT (R196, R211): a register pair with its policy bit. -/
structure GA where
  g : Fin 8
  a : Reg
  pol : Bool
deriving DecidableEq, Repr, Inhabited

/-- ELECT (R199). -/
structure IElect where
  g : Fin 8
  p : Fin 8
  hi : Bool
deriving DecidableEq, Repr, Inhabited

/-- BAR (R202): the forms arrive and sync name a barrier; wait and test also a phase; test a predicate. -/
structure IBar where
  g : Fin 8
  p : Fin 8
  b : Fin 16
  ph : Bool
deriving DecidableEq, Repr, Inhabited

/-- BARX (R203). -/
structure IBarx where
  g : Fin 8
  b : Fin 16
  c : Fin 65536
deriving DecidableEq, Repr, Inhabited

/-- SEMP and SEMW (R206). -/
structure ISem where
  g : Fin 8
  a : Reg
  pol : Bool
  n : Fin 65536
  scope : Fin 8
deriving DecidableEq, Repr, Inhabited

/-- XACQ (R210). -/
structure IXacq where
  g : Fin 8
  p : Fin 8
  tryIt : Bool
deriving DecidableEq, Repr, Inhabited

/-- RGNK (R216): registers, or a scratchpad range. -/
structure IRgnk where
  g : Fin 8
  scr : Bool
  a : Reg
  n : Fin 262144
deriving DecidableEq, Repr, Inhabited

/-- TRAP (R306). -/
structure ITrap where
  g : Fin 8
  code : Fin 65536
deriving DecidableEq, Repr, Inhabited

/-- SRET (R306). -/
structure ISret where
  g : Fin 8
  d : Reg
  a : Reg
  pol : Bool
  mode : Fin 4
deriving DecidableEq, Repr, Inhabited

/-- MFSR and MTSR (R305): word number and selector register; wide for the 64-bit form. -/
structure ISr where
  g : Fin 8
  wide : Bool
  d : Reg
  a : Reg
  pol : Bool
  word : Fin 4096
deriving DecidableEq, Repr, Inhabited

/-- PGRET (R307). -/
structure IPgret where
  g : Fin 8
  d : Reg
  a : Reg
  pol : Bool
deriving DecidableEq, Repr, Inhabited

/-! ### Format M (R132) -/

/-- A memory access: data, base, index, scale, scope, ord and offset. -/
structure M where
  g : Fin 8
  ty : Ty
  d : Reg
  a : Reg
  aPol : Bool
  b : Reg
  bPol : Bool
  sh : Fin 4
  scope : Fin 8
  ord : Fin 8
  off : BitVec 16
deriving DecidableEq, Repr, Inhabited

/-- FENCE (R184): ordering and scope. -/
structure MFence where
  g : Fin 8
  order : Fin 4
  scope : Fin 8
deriving DecidableEq, Repr, Inhabited

/-! ### Format X (R133) -/

/-- An engine issue. -/
structure X where
  g : Fin 8
  ety : ETy
  shape : Fin 32
  bar : Fin 16
  pb : Reg
  aux : Reg
  flags : Fin 512
  imm : BitVec 16
deriving DecidableEq, Repr, Inhabited

/-! ### Format B (R134) -/

/-- BRA: a target in 8-byte units. -/
structure BBra where
  g : Fin 8
  target : BitVec 32
deriving DecidableEq, Repr, Inhabited

/-- BRX (R194): an index register, or a 64-bit address pair. -/
structure BBrx where
  g : Fin 8
  wide : Bool
  a : Reg
  pol : Bool
  target : BitVec 32
deriving DecidableEq, Repr, Inhabited

/-- CALL (R195): the window shift. -/
structure BCall where
  g : Fin 8
  s : Fin 256
  target : BitVec 32
deriving DecidableEq, Repr, Inhabited

/-- FORK (R197). -/
structure BFork where
  g : Fin 8
  p : Fin 8
  a : Reg
  pol : Bool
  target : BitVec 32
deriving DecidableEq, Repr, Inhabited

/-- RGNB (R215): the retry limit. -/
structure BRgnb where
  g : Fin 8
  lim : Fin 16
  target : BitVec 32
deriving DecidableEq, Repr, Inhabited

/-! ### Host packets (R365 to R367) -/

/-- A memory packet of a host: the port it enters, its virtual function, its kind (0 read, 1 write by byte mask, 2 atomic), the physical
address and the number of bytes. `data` holds a write's bytes, little-endian, of which `mask` names those written, or an atomic's value. -/
structure HostAccess where
  host : Nat
  port : Nat
  vf : Nat
  kind : Nat
  addr : Nat
  size : Nat
  mask : Nat
  data : Nat
  op : Nat             -- an atomic's operation, in ATOM's codes (R181)
  ty : Ty
  compare : Nat
deriving DecidableEq, Repr, Inhabited

/-! ### The operations -/

/-- One constructor per row of the opcode table: the 118 instruction forms, then the part's own events.
A cluster is 0–191, a warp is cluster × 32 + slot, a die 0–3, `id` names a record of the state. -/
inductive Instr where
  -- integer, logic, predicates (R150 to R157)
  | iadd (o : A2) | iaddc (o : A3) | isub (o : A2) | isubb (o : A3) | imul (o : A2) | imulh (o : A2) | imad (o : A3)
  | imin (o : A2) | imax (o : A2) | iabs (o : A1)
  | and (o : A2) | or (o : A2) | xor (o : A2) | not (o : A1) | shl (o : A2) | shr (o : A2) | rotl (o : A2)
  | bfx (o : A2) | bfi (o : A3) | popc (o : A1) | clz (o : A1) | brev (o : A1) | sel (o : ASel) | prmt (o : A3)
  | icmp (o : ACmp) | plop (o : APlop)
  -- floating point and conversion (R158 to R164)
  | fadd (o : A2) | fsub (o : A2) | fmul (o : A2) | ffma (o : A3) | fmin (o : A2) | fmax (o : A2) | fabs (o : A1)
  | fneg (o : A1) | frcp (o : A1) | frsq (o : A1) | fsqrt (o : A1) | fexp2 (o : A1) | flog2 (o : A1) | ftanh (o : A1)
  | fcmp (o : ACmp) | cvt (o : ACvt) | cvtb (o : ACvtb)
  -- moves and cross-lane (R165 to R173)
  | mov (o : A1) | movi (o : IMovi) | movk (o : IMovk) | movs (o : AMovs) | shfl (o : A2) | vote (o : AVote) | rngx (o : A3)
  | launch (o : X) | pgret (o : IPgret)
  -- memory (R174 to R190)
  | ld (o : M) | st (o : M) | stSpw (o : M) | ldk (o : M) | lds (o : M) | sts (o : M) | atom (o : M) | atoms (o : M)
  | red (o : M) | fence (o : MFence) | pref (o : M) | smap (o : M) | sflush (o : G0) | pgal (o : X) | pgfr (o : X) | seqf (o : X)
  -- engines (R222 to R248)
  | mma (o : X) | mmt (o : X) | accmv (o : X) | accz (o : X) | sopen (o : X) | ssub (o : X) | sclose (o : X) | vnld (o : X)
  | lrdef (o : X) | cpy (o : X) | cpyw (o : X) | cpywExp (o : X) | cpyz (o : X) | cpym (o : X) | cpyg (o : X)
  -- control (R191 to R221)
  | bra (o : BBra) | brx (o : BBrx) | call (o : BCall) | ret (o : GA) | fork (o : BFork) | quit (o : G0) | elect (o : IElect)
  | barArrive (o : IBar) | barWait (o : IBar) | barSync (o : IBar) | barTest (o : IBar) | barx (o : IBarx)
  | semp (o : ISem) | semw (o : ISem) | yieldW (o : G0) | nop (o : G0) | xacq (o : IXacq) | xrel (o : G0) | assert (o : GA)
  | rgnb (o : BRgnb) | rgnk (o : IRgnk) | rgne (o : G0)
  -- sequences (R250 to R270)
  | spwo (o : X) | spwc (o : X) | seqw (o : X) | seqv (o : X) | bfqj (o : X) | sampArm (o : X) | sampRead (o : X) | acpt (o : X)
  -- system (R304 to R308)
  | trap (o : ITrap) | sret (o : ISret) | mfsr (o : ISr) | mtsr (o : ISr) | tlbi (o : M)
  -- selection and clauses (R17, R19)
  | batchSelect (warp : Nat) | clauseStart (warp : Nat)
  -- memory system (R42, R65, R76, R82, R87, R92, R93)
  | loadFill (id lane : Nat) | storeAck (id : Nat) | readRenew (id lane : Nat) | writeMerge (id : Nat) | atomicAtHome (id : Nat)
  | reductionContribution (id : Nat) | reductionMerge (line : Nat) | ptsTick (cluster : Nat) | l1Evict (cluster line : Nat)
  | aliasEvict (die line : Nat) | commitPublish (version : Nat) | rollback (region : Nat)
  -- engines and sequences
  | engineArrival (id part : Nat) | engineFaultResume (id : Nat) | engineFaultStop (id : Nat) | streamWindowDeliver (die stream : Nat)
  | batchDeadline (die job : Nat) | scatterArrival (id row : Nat) | logitLand (id : Nat) | seqwPublish (seq : Nat)
  | migrationPageCopy (seq page : Nat) | migrationSwitch (seq : Nat) | cowResolve (warp : Nat)
  -- translation
  | pageWalk (id : Nat) | faultEntryWrite (vf : Nat) | pagerResponse (vf entry : Nat)
  -- launch and scheduling
  | launchAccept (die vf queue : Nat) | workgroupPlace (die vf queue : Nat) | workgroupRetire (wg : Nat)
  | priorityAge (die vf queue : Nat) | localityDecay (cluster : Nat) | throttleExempt (warp : Nat) | timeSliceExpiry (cluster : Nat)
  | preempt (wg : Nat) | restore (wg cluster : Nat) | checkpointCompare (id : Nat) | workgroupRelaunch (wg : Nat)
  -- the debugger, on the command that XS_DBG of the cluster holds
  | dbgHalt (cluster : Nat) | dbgResume (cluster : Nat) | dbgStep (cluster : Nat) | dbgReadRegister (cluster : Nat)
  | dbgWriteRegister (cluster : Nat) | dbgResumeWarp (cluster : Nat)
  -- the system-register write at the head of the register queue
  | traprecClear | acclogClear | fmtwinEnable | fmtwinDisable | errinjArm | sysregWrite
  -- the host
  | managementRead (host port space word sel : Nat) | managementWrite (host port space word sel wide data : Nat)
  | hostMemoryAccess (o : HostAccess) | hostLaunchEnqueue (host port die vf queue : Nat) (record : List Nat)
  -- the fabric
  | expertClaim (id : Nat) | grant (id : Nat) | overflowReply (id : Nat) | filledAdvance (id row : Nat) | packetDrop (port kind : Nat)
  | linkDead (port : Nat) | linkStateUpdate (port pkg link number : Nat) | drainRound | undelivered (id : Nat)
  -- bring-up and power
  | powerGood | bootStage1 (die : Nat) | bootStage2 (die : Nat) | bootStage3 (die : Nat) | bootStage4 (die : Nat)
  | bootStage5 (die : Nat) | bootStage6 | attestSign | governorSample (die : Nat) | thermalStep (die : Nat) (lower : Bool)
  | thermalShutdown (die : Nat)
  -- reserved opcodes and errors that arise of themselves
  | reservedOpcode (w : DWord) | storageError (unit loc bit : Nat) (double : Bool) | linkBeatError (port : Nat)
  | dieToDieLaneLoss (d e : Nat)
deriving DecidableEq, Repr

/-- An event of the part, not an instruction of a warp. -/
def Instr.isEvent : Instr → Bool
  | .iadd _ | .iaddc _ | .isub _ | .isubb _ | .imul _ | .imulh _ | .imad _ | .imin _ | .imax _ | .iabs _ | .and _ | .or _ | .xor _
  | .not _ | .shl _ | .shr _ | .rotl _ | .bfx _ | .bfi _ | .popc _ | .clz _ | .brev _ | .sel _ | .prmt _ | .icmp _ | .plop _
  | .fadd _ | .fsub _ | .fmul _ | .ffma _ | .fmin _ | .fmax _ | .fabs _ | .fneg _ | .frcp _ | .frsq _ | .fsqrt _ | .fexp2 _
  | .flog2 _ | .ftanh _ | .fcmp _ | .cvt _ | .cvtb _ | .mov _ | .movi _ | .movk _ | .movs _ | .shfl _ | .vote _ | .rngx _
  | .launch _ | .pgret _ | .ld _ | .st _ | .stSpw _ | .ldk _ | .lds _ | .sts _ | .atom _ | .atoms _ | .red _ | .fence _ | .pref _
  | .smap _ | .sflush _ | .pgal _ | .pgfr _ | .seqf _ | .mma _ | .mmt _ | .accmv _ | .accz _ | .sopen _ | .ssub _ | .sclose _
  | .vnld _ | .lrdef _ | .cpy _ | .cpyw _ | .cpywExp _ | .cpyz _ | .cpym _ | .cpyg _ | .bra _ | .brx _ | .call _ | .ret _ | .fork _
  | .quit _ | .elect _ | .barArrive _ | .barWait _ | .barSync _ | .barTest _ | .barx _ | .semp _ | .semw _ | .yieldW _ | .nop _
  | .xacq _ | .xrel _ | .assert _ | .rgnb _ | .rgnk _ | .rgne _ | .spwo _ | .spwc _ | .seqw _ | .seqv _ | .bfqj _ | .sampArm _
  | .sampRead _ | .acpt _ | .trap _ | .sret _ | .mfsr _ | .mtsr _ | .tlbi _ | .reservedOpcode _ => false
  | .batchSelect _ | .clauseStart _ | .loadFill _ _ | .storeAck _ | .readRenew _ _ | .writeMerge _ | .atomicAtHome _
  | .reductionContribution _ | .reductionMerge _ | .ptsTick _ | .l1Evict _ _ | .aliasEvict _ _ | .commitPublish _ | .rollback _
  | .engineArrival _ _ | .engineFaultResume _ | .engineFaultStop _ | .streamWindowDeliver _ _ | .batchDeadline _ _
  | .scatterArrival _ _ | .logitLand _ | .seqwPublish _ | .migrationPageCopy _ _ | .migrationSwitch _ | .cowResolve _ | .pageWalk _
  | .faultEntryWrite _ | .pagerResponse _ _ | .launchAccept _ _ _ | .workgroupPlace _ _ _ | .workgroupRetire _ | .priorityAge _ _ _
  | .localityDecay _ | .throttleExempt _ | .timeSliceExpiry _ | .preempt _ | .restore _ _ | .checkpointCompare _
  | .workgroupRelaunch _ | .dbgHalt _ | .dbgResume _ | .dbgStep _ | .dbgReadRegister _ | .dbgWriteRegister _ | .dbgResumeWarp _
  | .traprecClear | .acclogClear | .fmtwinEnable | .fmtwinDisable | .errinjArm | .sysregWrite | .managementRead _ _ _ _ _
  | .managementWrite _ _ _ _ _ _ _ | .hostMemoryAccess _ | .hostLaunchEnqueue _ _ _ _ _ _ | .expertClaim _ | .grant _
  | .overflowReply _ | .filledAdvance _ _ | .packetDrop _ _ | .linkDead _ | .linkStateUpdate _ _ _ _ | .drainRound | .undelivered _
  | .powerGood | .bootStage1 _ | .bootStage2 _ | .bootStage3 _ | .bootStage4 _ | .bootStage5 _ | .bootStage6 | .attestSign
  | .governorSample _ | .thermalStep _ _ | .thermalShutdown _ | .storageError _ _ _ _ | .linkBeatError _ | .dieToDieLaneLoss _ _ => true

end Sys2Proof
end

