-- ==== Sys2Proof/Config.lean ====
section
/-! DEFINITION. What one package or one run fixes and the spec leaves open: constants without a body, of which nothing can be proved. -/

namespace Sys2Proof

/-- What the part does next, where no rule orders its units (R7, log 1): an issue, an event, or the passing of clock cycles. -/
inductive Choice where
  | issue (warp : Nat)                -- the warp issues the next instruction of the clause it runs
  | act (event : Instr)               -- one event of the opcode table
  | elapse (cluster n : Nat)          -- n cycles of a cluster's arithmetic clock (R38)
  | fabric (n : Nat)                  -- n cycles of the fabric clock (R358)
  | queueClock (die n : Nat)          -- n cycles of a die's queue clock (R237)
  | retire (cluster : Nat)            -- the oldest unretired renewal reply of a cluster retires (R108)
  | tlbDrop (unit n : Nat)            -- capacity evicts a cached translation (R327)
  | l2Evict (die line : Nat)          -- an L2 line leaves the cache (R381)
deriving DecidableEq, Repr, Inhabited

/-- The schedule (log 1). -/
opaque Config.choice : Nat → Choice

/-- Free values: bits the spec leaves open, taken with the state's counter (log 2). -/
opaque Config.free : Nat → Nat

/-- Which of the values that the spec lets a read see it sees, by moment and address: a fetch, a byte of the veneer slice, the order in which partials meet (R68, R129, R232, logs 9 and 10). -/
opaque Config.seen : Nat → Nat → Nat

/-- Which resident line a full set evicts and which way a line takes (R381). -/
opaque Config.victim : Nat → Nat

/-- Whether a boot image verifies: die, firmware (0 die, 1 memory training, 2 fabric), image (R374, R375). -/
opaque Config.imageOk : Nat → Nat → Nat → Bool

/-- The 512-bit digest measured of a die at a stage, from the image that ran (R374, R376). -/
opaque Config.digest : Nat → Nat → Nat → Nat

/-- The digest of the package's public key (R376). -/
opaque Config.identity : Nat

/-- The length and the bytes of the n-th signature over a report (R376). -/
opaque Config.signature : Nat → List Nat → Nat × List Nat

/-- The core power in watts at a governor sample of a die (R378). -/
opaque Config.corePower : Nat → Nat → Nat

/-- Whether a die stayed above 110 °C for 1 ms at 0.8 GHz by a moment (R379). -/
opaque Config.overheated : Nat → Nat → Bool

end Sys2Proof
end

