-- ==== Sys2Proof/Machine/Num.lean ====
section
/-! DEFINITION. Number formats and exact arithmetic (R49 to R61, R160): values are formed exactly and rounded once. -/

namespace Sys2Proof.Num

/-! ### Bit fields, byte order and sign extension -/

/-- Bits `hi` to `lo` of a number. -/
def bits (x hi lo : Nat) : Nat := x / 2 ^ lo % 2 ^ (hi + 1 - lo)

/-- Bit `i` of a number. -/
def bit (x i : Nat) : Bool := x / 2 ^ i % 2 = 1

/-- The number that `n` little-endian bytes stand for (R5). -/
def ofBytes : List Byte → Nat
  | [] => 0
  | b :: bs => b.toNat + 256 * ofBytes bs

/-- The first `n` little-endian bytes of a number (R5). -/
def toBytes : Nat → Nat → List Byte
  | 0, _ => []
  | n + 1, x => BitVec.ofNat 8 x :: toBytes n (x / 256)

/-- The signed value of the low `w` bits of a number. -/
def sgn (w x : Nat) : Int :=
  let y := x % 2 ^ w
  if 2 ^ w ≤ 2 * y then (y : Int) - (2 ^ w : Nat) else (y : Int)

/-- The low `w` bits of an integer in two's complement. -/
def wrap (w : Nat) (x : Int) : Nat := (x % ((2 ^ w : Nat) : Int)).toNat

/-- The integer square root, by bits from `b` downward. -/
def isqrtFrom (n : Nat) : Nat → Nat → Nat
  | 0, r => r
  | b + 1, r => let r' := r + 2 ^ b; if r' * r' ≤ n then isqrtFrom n b r' else isqrtFrom n b r

/-- The integer square root. -/
def isqrt (n : Nat) : Nat := isqrtFrom n (Nat.log2 n / 2 + 1) 0

/-! ### Formats (R49) -/

/-- How a format treats its top exponent code. -/
inductive Top where
  | ieee      -- infinities and NaN
  | nanOnly   -- E4M3: one NaN magnitude, no infinity
  | finite    -- E2M1: no infinity and no NaN
deriving DecidableEq, Repr

/-- A floating-point element format. -/
structure Fmt where
  ebits : Nat
  mbits : Nat
  bias  : Nat
  top   : Top
  nan   : Nat     -- the NaN the part writes (R56)
deriving DecidableEq, Repr

def f32  : Fmt := ⟨8, 23, 127, .ieee, 0x7FC00000⟩
def f16  : Fmt := ⟨5, 10, 15, .ieee, 0x7E00⟩
def bf16 : Fmt := ⟨8, 7, 127, .ieee, 0x7FC0⟩
def e4m3 : Fmt := ⟨4, 3, 7, .nanOnly, 0x7F⟩
def e5m2 : Fmt := ⟨5, 2, 15, .ieee, 0x7E⟩
def e2m1 : Fmt := ⟨2, 1, 1, .finite, 0⟩

/-- A decoded value: NaN (signalling or quiet), infinity, or (−1)^neg × mant × 2^exp. -/
inductive Val where
  | nan (signalling : Bool)
  | inf (neg : Bool)
  | fin (neg : Bool) (mant : Nat) (exp : Int)
deriving DecidableEq, Repr

/-- The width of a format in bits. -/
def Fmt.width (f : Fmt) : Nat := 1 + f.ebits + f.mbits

/-- Only the three 16- and 32-bit formats have a signalling NaN (R56). -/
def Fmt.hasSignalling (f : Fmt) : Bool := f.width ≥ 16

/-- The value an encoding stands for (R49). -/
def decode (f : Fmt) (x : Nat) : Val :=
  let m := x % 2 ^ f.mbits
  let e := x / 2 ^ f.mbits % 2 ^ f.ebits
  let s := bit x (f.ebits + f.mbits)
  let topCode := e = 2 ^ f.ebits - 1
  if f.top = .ieee ∧ topCode then
    if m = 0 then .inf s else .nan (f.hasSignalling && m / 2 ^ (f.mbits - 1) = 0)
  else if f.top = .nanOnly ∧ topCode ∧ m = 2 ^ f.mbits - 1 then .nan false
  else if e = 0 then .fin s m (1 - (f.bias : Int) - f.mbits)
  else .fin s (2 ^ f.mbits + m) ((e : Int) - f.bias - f.mbits)

/-- Rounding modes, in the order of %fpc bits 1–0 (R39). -/
inductive Rm where
  | rne | zero | down | up
deriving DecidableEq, Repr

def Rm.ofBits (n : Nat) : Rm :=
  match n % 4 with
  | 0 => .rne
  | 1 => .zero
  | 2 => .down
  | _ => .up

/-- The sticky flags of R39 that one operation raises. -/
structure Flags where
  inexact : Bool := false
  underflow : Bool := false
  overflow : Bool := false
  divZero : Bool := false
  invalid : Bool := false
deriving DecidableEq, Repr

def Flags.none : Flags := {}
def Flags.inv : Flags := { invalid := true }

def Flags.or (a b : Flags) : Flags :=
  ⟨a.inexact || b.inexact, a.underflow || b.underflow, a.overflow || b.overflow, a.divZero || b.divZero,
   a.invalid || b.invalid⟩

/-- The flags in their places in %fpc (R39): bit 8 inexact to bit 4 invalid. -/
def Flags.mask (f : Flags) : Nat :=
  (if f.inexact then 256 else 0) + (if f.underflow then 128 else 0) + (if f.overflow then 64 else 0)
    + (if f.divZero then 32 else 0) + (if f.invalid then 16 else 0)

/-! ### Rounding (R58) -/

/-- Whether an inexact magnitude with integer part `i` rounds up: `twice` compares twice the remainder with the divisor. -/
def roundsUp (rm : Rm) (neg : Bool) (i : Nat) (twice : Ordering) : Bool :=
  match rm with
  | .rne => twice = .gt || (twice = .eq && i % 2 = 1)
  | .zero => false
  | .down => neg
  | .up => !neg

/-- N / D × 2^(−q) rounded to an integer, and whether that was inexact. -/
def roundAt (rm : Rm) (neg : Bool) (N D : Nat) (q : Int) : Nat × Bool :=
  let n := if q < 0 then N * 2 ^ (-q).toNat else N
  let d := if q < 0 then D else D * 2 ^ q.toNat
  let i := n / d
  let r := n % d
  if r = 0 then (i, false)
  else (if roundsUp rm neg i (compare (2 * r) d) then i + 1 else i, true)

/-- floor(log2(N / D)) of a positive rational. -/
def ilog2 (N D : Nat) : Int :=
  let e := (Nat.log2 N : Int) - Nat.log2 D
  let below := if e < 0 then N * 2 ^ (-e).toNat < D else N < D * 2 ^ e.toNat
  if below then e - 1 else e

/-- The largest finite code of a format, without its sign. -/
def Fmt.maxCode (f : Fmt) : Nat :=
  match f.top with
  | .ieee => (2 ^ f.ebits - 1) * 2 ^ f.mbits - 1
  | .nanOnly => 2 ^ (f.ebits + f.mbits) - 2
  | .finite => 2 ^ (f.ebits + f.mbits) - 1

/-- Puts the sign before a magnitude code. -/
def Fmt.signed (f : Fmt) (neg : Bool) (code : Nat) : Nat :=
  if neg then code + 2 ^ (f.ebits + f.mbits) else code

/-- The infinity of a format that has one, else its largest finite value. -/
def Fmt.infCode (f : Fmt) (neg : Bool) : Nat :=
  match f.top with
  | .ieee => f.signed neg ((2 ^ f.ebits - 1) * 2 ^ f.mbits)
  | _ => f.signed neg f.maxCode

/-- The overflowed result of a format (R60). -/
def Fmt.overflowCode (f : Fmt) (rm : Rm) (neg : Bool) : Nat :=
  match f.top with
  | .ieee =>
    if rm = .rne ∨ (rm = .up ∧ !neg) ∨ (rm = .down ∧ neg) then f.infCode neg else f.signed neg f.maxCode
  | _ => f.signed neg f.maxCode

/-- A nonzero magnitude N / D rounded once to a format, with the overflow rule and the flags of R59. -/
def roundMag (f : Fmt) (rm : Rm) (neg : Bool) (N D : Nat) : Nat × Flags :=
  let e := ilog2 N D
  let emin : Int := 1 - (f.bias : Int)
  let e' := if e < emin then emin else e
  let r := roundAt rm neg N D (e' - f.mbits)
  let code := ((e' + f.bias - 1).toNat) * 2 ^ f.mbits + r.1
  let u := roundAt rm neg N D (e - f.mbits)
  let tiny := e < emin && (e < emin - 1 || u.1 < 2 ^ (f.mbits + 1))
  if code > f.maxCode then (f.overflowCode rm neg, { overflow := true, inexact := true })
  else (f.signed neg code, { inexact := r.2, underflow := tiny && r.2 })

/-- The zero of a sign. -/
def Fmt.zero (f : Fmt) (neg : Bool) : Nat := f.signed neg 0

/-- (−1)^neg × N / D rounded to a format; an exact zero keeps the sign given. -/
def roundQ (f : Fmt) (rm : Rm) (neg : Bool) (N D : Nat) : Nat × Flags :=
  if N = 0 then (f.zero neg, .none) else roundMag f rm neg N D

/-- (−1)^neg × mant × 2^exp rounded to a format. -/
def roundDy (f : Fmt) (rm : Rm) (neg : Bool) (mant : Nat) (exp : Int) : Nat × Flags :=
  if exp < 0 then roundQ f rm neg mant (2 ^ (-exp).toNat) else roundQ f rm neg (mant * 2 ^ exp.toNat) 1

/-! ### Exact sums and products -/

/-- The signed integer that a finite value is at the scale 2^e, for e at most its exponent. -/
def atScale (neg : Bool) (mant : Nat) (exp e : Int) : Int :=
  let m : Int := (mant * 2 ^ (exp - e).toNat : Nat)
  if neg then -m else m

/-- The sign of an exact zero sum (R57). -/
def zeroSign (rm : Rm) (na nb : Bool) : Bool := if na = nb then na else rm = .down

/-- The exact sum of two finite values: sign, mantissa, exponent. -/
def addFin (rm : Rm) (na : Bool) (ma : Nat) (ea : Int) (nb : Bool) (mb : Nat) (eb : Int) : Bool × Nat × Int :=
  let e := min ea eb
  let x := atScale na ma ea e + atScale nb mb eb e
  if x = 0 then (if ma = 0 ∧ mb = 0 then zeroSign rm na nb else rm = .down, 0, e)
  else (x < 0, x.natAbs, e)

/-- The invalid flag of a signalling operand (R56). -/
def sigFlag : Val → Flags
  | .nan true => .inv
  | _ => .none

def Val.isNan : Val → Bool
  | .nan _ => true
  | _ => false

/-- a + b, rounded once (R158). -/
def addV (f : Fmt) (rm : Rm) (a b : Val) : Nat × Flags :=
  match a, b with
  | .nan _, _ | _, .nan _ => (f.nan, (sigFlag a).or (sigFlag b))
  | .inf na, .inf nb => if na = nb then (f.infCode na, .none) else (f.nan, .inv)
  | .inf na, _ => (f.infCode na, .none)
  | _, .inf nb => (f.infCode nb, .none)
  | .fin na ma ea, .fin nb mb eb =>
    let s := addFin rm na ma ea nb mb eb
    roundDy f rm s.1 s.2.1 s.2.2

/-- The value with its sign inverted. -/
def negV : Val → Val
  | .nan s => .nan s
  | .inf n => .inf (!n)
  | .fin n m e => .fin (!n) m e

/-- The exact product of two values that are neither NaN; `none` for 0 × ∞. -/
def mulV? : Val → Val → Option Val
  | .inf na, .inf nb => some (.inf (na != nb))
  | .inf na, .fin nb mb _ => if mb = 0 then none else some (.inf (na != nb))
  | .fin na ma _, .inf nb => if ma = 0 then none else some (.inf (na != nb))
  | .fin na ma ea, .fin nb mb eb => some (.fin (na != nb) (ma * mb) (ea + eb))
  | _, _ => none

/-- A value rounded to a format. -/
def roundV (f : Fmt) (rm : Rm) : Val → Nat × Flags
  | .nan s => (f.nan, if s then .inv else .none)
  | .inf n => (f.infCode n, .none)
  | .fin n m e => roundDy f rm n m e

/-- a × b, rounded once (R158). -/
def mulV (f : Fmt) (rm : Rm) (a b : Val) : Nat × Flags :=
  if a.isNan || b.isNan then (f.nan, (sigFlag a).or (sigFlag b))
  else match mulV? a b with
    | none => (f.nan, .inv)
    | some p => roundV f rm p

/-- a × b + c with one rounding (R158). -/
def fmaV (f : Fmt) (rm : Rm) (a b c : Val) : Nat × Flags :=
  let sf := (sigFlag a).or ((sigFlag b).or (sigFlag c))
  if a.isNan || b.isNan then (f.nan, sf)
  else match mulV? a b with
    | none => (f.nan, sf.or .inv)
    | some p => if c.isNan then (f.nan, sf) else addV f rm p c

/-- Negative, equal, greater order of two values that are not NaN; the zeros are equal. -/
def cmpV : Val → Val → Ordering
  | .inf a, .inf b => compare (if a then (-1 : Int) else 1) (if b then (-1) else 1)
  | .inf a, _ => if a then .lt else .gt
  | _, .inf b => if b then .gt else .lt
  | .fin na ma ea, .fin nb mb eb => let e := min ea eb; compare (atScale na ma ea e) (atScale nb mb eb e)
  | _, _ => .eq

def Val.neg : Val → Bool
  | .nan _ => false
  | .inf n => n
  | .fin n _ _ => n

/-- Whether a comes before b in the order with −0 below +0 (R159). -/
def beforeV (a b : Val) : Bool :=
  match cmpV a b with
  | .lt => true
  | .gt => false
  | .eq => a.neg && !b.neg

/-! ### Quotients and square roots -/

/-- 1 / a (R160). -/
def rcpV (f : Fmt) (rm : Rm) : Val → Nat × Flags
  | .nan s => (f.nan, if s then .inv else .none)
  | .inf n => (f.zero n, .none)
  | .fin n m e =>
    if m = 0 then (f.infCode n, { divZero := true })
    else if e < 0 then roundQ f rm n (2 ^ (-e).toNat) m else roundQ f rm n 1 (m * 2 ^ e.toNat)

/-- a / b of two finite values, b nonzero, rounded once. -/
def divFin (f : Fmt) (rm : Rm) (n : Bool) (ma : Nat) (ea : Int) (mb : Nat) (eb : Int) : Nat × Flags :=
  let e := ea - eb
  if e < 0 then roundQ f rm n ma (mb * 2 ^ (-e).toNat) else roundQ f rm n (ma * 2 ^ e.toNat) mb

/-- A positive real whose square is N / D, rounded once: the root to 2^−k with a sticky half-unit below. -/
def rootQ (f : Fmt) (rm : Rm) (N D : Nat) : Nat × Flags :=
  let k := 200
  let n := N * 4 ^ k
  let s := isqrt (n / D)
  let exact := s * s * D = n
  if exact then roundQ f rm false s (2 ^ k) else roundQ f rm false (2 * s + 1) (2 ^ (k + 1))

/-- √a (R160). -/
def sqrtV (f : Fmt) (rm : Rm) : Val → Nat × Flags
  | .nan s => (f.nan, if s then .inv else .none)
  | .inf n => if n then (f.nan, .inv) else (f.infCode false, .none)
  | .fin n m e =>
    if m = 0 then (f.zero n, .none)
    else if n then (f.nan, .inv)
    else if e < 0 then rootQ f rm m (2 ^ (-e).toNat) else rootQ f rm (m * 2 ^ e.toNat) 1

/-- 1 / √a (R160). -/
def rsqV (f : Fmt) (rm : Rm) : Val → Nat × Flags
  | .nan s => (f.nan, if s then .inv else .none)
  | .inf n => if n then (f.nan, .inv) else (f.zero false, .none)
  | .fin n m e =>
    if m = 0 then (f.infCode n, { divZero := true })
    else if n then (f.nan, .inv)
    else if e < 0 then rootQ f rm (2 ^ (-e).toNat) m else rootQ f rm 1 (m * 2 ^ e.toNat)

/-! ### Exponentials, logarithms and tanh, by enclosure

Each function's value lies strictly above a rational that agrees with it to far more bits than a format holds. The rational, with a half
unit of its last place, is rounded. -/

/-- The number of fraction bits of the fixed-point series. -/
def P : Nat := 400

/-- Rounds a positive irrational just above lo / D: it lies so much closer to lo than two values of a format lie to each other that lo decides. -/
def roundEnc (f : Fmt) (rm : Rm) (neg : Bool) (lo D : Nat) : Nat × Flags :=
  let a := roundQ f rm neg (2 * lo + 1) (2 * D)
  (a.1, { a.2 with inexact := true })

/-- Σ z^(2i+1) / (2i+1) in fixed point, the powers of z held in `zp`. -/
def atanhSum (z2 : Nat) : Nat → Nat → Nat → Nat → Nat
  | 0, _, _, acc => acc
  | n + 1, i, zp, acc => atanhSum z2 n (i + 1) (zp * z2 / 2 ^ P) (acc + zp / (2 * i + 1))

/-- ln((1 + z)/(1 − z)) = 2 atanh z in fixed point. -/
def lnOf (num den : Nat) : Nat :=
  let z := (num - den) * 2 ^ P / (num + den)
  2 * atanhSum (z * z / 2 ^ P) 140 0 z 0

/-- ln 2 in fixed point. -/
def ln2 : Nat := lnOf 2 1

/-- Σ y^i / i! in fixed point. -/
def expSum (y : Nat) : Nat → Nat → Nat → Nat → Nat
  | 0, _, _, acc => acc
  | n + 1, i, t, acc => expSum y n (i + 1) (t * y / ((i + 1) * 2 ^ P)) (acc + t)

/-- 2^f in fixed point, f in [0, 1) in fixed point. -/
def exp2Frac (f : Nat) : Nat := expSum (f * ln2 / 2 ^ P) 120 0 (2 ^ P) 0

/-- The error bound of the fixed-point series, in units of the last place. -/
def slackUlp : Nat := 2 ^ 12

/-- 2^x for x = N / 2^k exactly held: rounds 2^(n) × 2^f. -/
def exp2Q (f : Fmt) (rm : Rm) (neg : Bool) (N k : Nat) : Nat × Flags :=
  let x : Int := if neg then -(N : Int) else N
  let n : Int := x / (2 ^ k : Nat)
  let fr : Nat := (x % (2 ^ k : Nat)).toNat
  if fr = 0 then
    (if n < 0 then roundQ f rm false 1 (2 ^ (-n).toNat) else roundQ f rm false (2 ^ n.toNat) 1)
  else
    let y := exp2Frac (if k ≤ P then fr * 2 ^ (P - k) else fr / 2 ^ (k - P))
    let lo := y - slackUlp
    if n < 0 then roundEnc f rm false lo (2 ^ (P + (-n).toNat)) else roundEnc f rm false (lo * 2 ^ n.toNat) (2 ^ P)

/-- 2^a (R160). An argument of magnitude 2^20 or more rounds as ±2^20 does, beyond every format's range. -/
def exp2V (f : Fmt) (rm : Rm) : Val → Nat × Flags
  | .nan s => (f.nan, if s then .inv else .none)
  | .inf n => if n then (f.zero false, .none) else (f.infCode false, .none)
  | .fin n m e =>
    if m = 0 then roundQ f rm false 1 1
    else if ilog2 m 1 + e ≥ 12 then
      (if n then roundMag f rm false 1 (2 ^ 4096) else roundMag f rm false (2 ^ 4096) 1)
    else if e < 0 then exp2Q f rm n m (-e).toNat else exp2Q f rm n (m * 2 ^ e.toNat) 0

/-- log2 a (R160). -/
def log2V (f : Fmt) (rm : Rm) : Val → Nat × Flags
  | .nan s => (f.nan, if s then .inv else .none)
  | .inf n => if n then (f.nan, .inv) else (f.infCode false, .none)
  | .fin n m e =>
    if m = 0 then (f.infCode true, { divZero := true })
    else if n then (f.nan, .inv)
    else
      let k := Nat.log2 m
      let ex : Int := k + e
      if m = 2 ^ k then roundQ f rm (ex < 0) ex.natAbs 1
      else
        let fr := lnOf m (2 ^ k) * 2 ^ P / ln2
        let x : Int := ex * (2 ^ P : Nat) + fr
        let neg := x < 0
        let mag := x.natAbs
        roundEnc f rm neg (mag - slackUlp) (2 ^ P)

/-- tanh a (R160). -/
def tanhV (f : Fmt) (rm : Rm) : Val → Nat × Flags
  | .nan s => (f.nan, if s then .inv else .none)
  | .inf n => roundQ f rm n 1 1
  | .fin n m e =>
    if m = 0 then (f.zero n, .none)
    else
      let lg := ilog2 m 1 + e
      let N := if e < 0 then m else m * 2 ^ e.toNat
      let D := if e < 0 then 2 ^ (-e).toNat else 1
      if lg ≥ 7 then roundEnc f rm n (2 ^ 300 - 2 ^ 200) (2 ^ 300)
      else if lg < -40 then
        roundEnc f rm n (N * (2 ^ 302 - 2 ^ 224)) (D * 2 ^ 302)
      else
        -- E = e^(2a) = 2^t × 2^f with 2a / ln 2 = t + f
        let y := 2 * N * 2 ^ (2 * P) / (D * ln2)
        let t := y / 2 ^ P
        let E := exp2Frac (y % 2 ^ P) * 2 ^ t
        let one := 2 ^ P
        let err := 2 ^ (t + 24)
        let lo := (E - err - one) * 2 ^ P / (E + one)
        roundEnc f rm n lo (2 ^ P)

/-! ### Conversions (R60, R61) -/

/-- A value converted to a floating-point format (R60). -/
def toFmt (f : Fmt) (rm : Rm) : Val → Nat × Flags
  | .nan s =>
    match f.top with
    | .finite => (0, .inv)
    | _ => (f.nan, if s then .inv else .none)
  | .inf n =>
    match f.top with
    | .ieee => (f.infCode n, .none)
    | _ => (f.signed n f.maxCode, .inv)
  | .fin n m e => roundDy f rm n m e

/-- A value converted to an integer type of `w` bits (R61). -/
def toInt (signed : Bool) (w : Nat) (rm : Rm) : Val → Nat × Flags
  | .nan _ => (0, .inv)
  | .inf n => (if signed then (if n then 2 ^ (w - 1) else 2 ^ (w - 1) - 1) else if n then 0 else 2 ^ w - 1, .inv)
  | .fin n m e =>
    let r := if e < 0 then roundAt rm n m (2 ^ (-e).toNat) 0 else (m * 2 ^ e.toNat, false)
    let x : Int := if n then -(r.1 : Int) else r.1
    let lo : Int := if signed then -((2 ^ (w - 1) : Nat) : Int) else 0
    let hi : Int := if signed then (2 ^ (w - 1) : Nat) - 1 else (2 ^ w : Nat) - 1
    if x < lo then (wrap w lo, .inv) else if x > hi then (wrap w hi, .inv)
    else (wrap w x, { inexact := r.2 })

/-- An integer as an exact value. -/
def ofInt (x : Int) : Val := .fin (x < 0) x.natAbs 0

/-- An integer saturated to an integer type of `w` bits (R61). -/
def satInt (signed : Bool) (w : Nat) (x : Int) : Nat :=
  let lo : Int := if signed then -((2 ^ (w - 1) : Nat) : Int) else 0
  let hi : Int := if signed then (2 ^ (w - 1) : Nat) - 1 else (2 ^ w : Nat) - 1
  wrap w (if x < lo then lo else if x > hi then hi else x)

/-! ### FP32 helpers for the engines, always RNE (R58) -/

def addF (a b : Nat) : Nat := (addV f32 .rne (decode f32 a) (decode f32 b)).1
def subF (a b : Nat) : Nat := (addV f32 .rne (decode f32 a) (negV (decode f32 b))).1
def mulF (a b : Nat) : Nat := (mulV f32 .rne (decode f32 a) (decode f32 b)).1
def exp2F (a : Nat) : Nat := (exp2V f32 .rne (decode f32 a)).1
def addB (a b : Nat) : Nat := (addV bf16 .rne (decode bf16 a) (decode bf16 b)).1

/-- a > b of two FP32 codes, false with a NaN. -/
def gtF (a b : Nat) : Bool :=
  let x := decode f32 a; let y := decode f32 b
  !x.isNan && !y.isNan && cmpV x y = .gt

/-- max.f32 and min.f32 of a reduction page or atomic (R68): a NaN operand gives NaN. -/
def maxF (a b : Nat) : Nat :=
  let x := decode f32 a; let y := decode f32 b
  if x.isNan || y.isNan then f32.nan else if beforeV x y then b else a
def minF (a b : Nat) : Nat :=
  let x := decode f32 a; let y := decode f32 b
  if x.isNan || y.isNan then f32.nan else if beforeV y x then b else a

/-- One value of a sum that is exact until its one rounding (R62). -/
inductive Sum where
  | nan
  | inf (neg : Bool)
  | fin (v : Int) (allNegZero : Bool)     -- v × 2^scale, and whether every term was −0
deriving DecidableEq, Repr

/-- The scale of exact FP32 step sums: below every product of two elements and every FP32 value. -/
def sumScale : Int := -400

/-- Adds a term to an exact sum (R62). -/
def Sum.add (s : Sum) (v : Option Val) : Sum :=
  match s, v with
  | .nan, _ | _, none | _, some (.nan _) => .nan
  | .inf a, some (.inf b) => if a = b then .inf a else .nan
  | .inf a, _ => .inf a
  | .fin _ _, some (.inf b) => .inf b
  | .fin x z, some (.fin n m e) => .fin (x + atScale n m e sumScale) (z && m = 0 && n)

/-- The exact sum rounded once to FP32 by RNE. -/
def Sum.round : Sum → Nat
  | .nan => f32.nan
  | .inf n => f32.infCode n
  | .fin x z => if x = 0 then f32.zero z else (roundDy f32 .rne (x < 0) x.natAbs sumScale).1

/-- The exact product of two element values, `none` where it is a NaN. -/
def prod (a b : Val) : Option Val := if a.isNan || b.isNan then none else mulV? a b

/-! ### Microscaling blocks (R50, R52, R65, R66) -/

/-- The element formats of MX data. -/
inductive Mx where
  | e4m3 | e5m2 | e2m1 | int8
deriving DecidableEq, Repr

def Mx.emax : Mx → Nat
  | .e4m3 => 8
  | .e5m2 => 15
  | .e2m1 => 2
  | .int8 => 0

/-- The value of an MX element code. -/
def Mx.value (k : Mx) (x : Nat) : Val :=
  match k with
  | .e4m3 => decode Num.e4m3 x
  | .e5m2 => decode Num.e5m2 x
  | .e2m1 => decode Num.e2m1 x
  | .int8 => let v := sgn 8 x; .fin (v < 0) v.natAbs (-6)

/-- An MX element with its E8M0 scale rounded to a format (R65, R164). -/
def mxDecode (f : Fmt) (k : Mx) (x scale : Nat) : Nat × Flags :=
  if scale % 256 = 255 then (f.nan, .none)
  else match k.value x with
    | .nan _ => (f.nan, .none)
    | .inf n => (f.infCode n, .none)
    | .fin n m e => roundDy f .rne n m (e + (scale % 256 : Nat) - 127)

/-- floor(log2) of the largest finite magnitude of a block; `none` when every element is zero or infinite. -/
def blockLog (vs : List Val) : Option Int :=
  vs.foldl (fun acc v =>
    match v with
    | .fin _ m e => if m = 0 then acc else
        let l := ilog2 m 1 + e
        match acc with
        | none => some l
        | some a => some (max a l)
    | _ => acc) none

/-- The E8M0 scale of a block (R66). -/
def mxScale (k : Mx) (vs : List Val) : Nat :=
  match blockLog vs with
  | none => 127
  | some l => (min 254 (max 0 (l - (k.emax : Int) + 127))).toNat

/-- One element of a block encoded under scale X (R66), with the flags R163 gives CVTB. -/
def mxElem (k : Mx) (X : Nat) (v : Val) : Nat × Flags :=
  let q : Val := match v with
    | .fin n m e => .fin n m (e - (X : Int) + 127)
    | w => w
  match k with
  | .e4m3 => toFmt Num.e4m3 .rne q
  | .e5m2 => toFmt Num.e5m2 .rne q
  | .e2m1 => toFmt Num.e2m1 .rne q
  | .int8 =>
    match q with
    | .nan _ => (0, .none)
    | .inf n => (wrap 8 (if n then -127 else 127), { overflow := true, inexact := true })
    | .fin n m e =>
      let e' := e + 6
      let r := if e' < 0 then roundAt .rne n m (2 ^ (-e').toNat) 0 else (m * 2 ^ e'.toNat, false)
      if r.1 > 127 then (wrap 8 (if n then -127 else 127), { overflow := true, inexact := true })
      else (wrap 8 (if n then -(r.1 : Int) else r.1), { inexact := r.2 })

/-- A whole block encoded: the scale, the elements and the flags (R66, R163). -/
def mxEncode (k : Mx) (vs : List Val) : Nat × List Nat × Flags :=
  if vs.any Val.isNan then (255, vs.map (fun _ => 0), .inv)
  else
    let X := mxScale k vs
    let es := vs.map (mxElem k X)
    (X, es.map Prod.fst, es.foldl (fun a e => a.or e.2) .none)

/-! ### Ternary weights (R54, R55) -/

/-- The trit that two bits hold. -/
def tritT2 (b : Nat) : Int :=
  match b % 4 with
  | 1 => 1
  | 3 => -1
  | _ => 0

/-- Trit i of a T5 byte. -/
def tritT5 (b i : Nat) : Int := if b ≥ 243 then 0 else ((b / 3 ^ i % 3 : Nat) : Int) - 1

/-! ### Philox 4×32-10 (R173) -/

/-- The rounds of Philox. -/
def philoxRounds : Nat → Bool → Nat × Nat × Nat × Nat → Nat → Nat → Nat × Nat × Nat × Nat
  | 0, _, c, _, _ => c
  | n + 1, firstRound, (c0, c1, c2, c3), k0, k1 =>
    let k0 := if firstRound then k0 else (k0 + 0x9E3779B9) % 2 ^ 32
    let k1 := if firstRound then k1 else (k1 + 0xBB67AE85) % 2 ^ 32
    let p := 0xD2511F53 * c0
    let q := 0xCD9E8D57 * c2
    philoxRounds n false
      ((q / 2 ^ 32) ^^^ c1 ^^^ k0, q % 2 ^ 32, (p / 2 ^ 32) ^^^ c3 ^^^ k1, p % 2 ^ 32) k0 k1

/-- Words 0 and 1 of a draw at position a, index b, under a 64-bit key. -/
def philox (a b key : Nat) : Nat × Nat :=
  let r := philoxRounds 10 true (a % 2 ^ 32, b % 2 ^ 32, 0, 0) (key % 2 ^ 32) (key / 2 ^ 32 % 2 ^ 32)
  (r.1, r.2.1)

end Sys2Proof.Num
end

