-- ==== Sys2Proof/WellFormed.lean ====
section
/-! DEFINITION. The field values that raise ILLEGAL_ENCODING at step 5 of R142: a well-formed instruction has none of them. -/

namespace Sys2Proof

/-! ### Operand classes (R34, R35, R37, R46) -/

/-- The 8-bit code of an operand (R34). -/
def Reg.code : Reg → Nat
  | .v n => n.val
  | .k n => 128 + n.val
  | .sp n => 192 + n.val

/-- v0, which is also what an unused register field must hold (R135). -/
def Reg.zero : Reg := .v 0

/-- An unused source field (R135). -/
def Src.zero : Src := ⟨.v 0, 0, 0, false⟩

def Reg.isV : Reg → Bool
  | .v _ => true
  | _ => false

def Reg.isK : Reg → Bool
  | .k _ => true
  | _ => false

def Reg.isVK (r : Reg) : Bool := r.isV || r.isK

/-- k1–k63. -/
def Reg.isK1 : Reg → Bool
  | .k n => n.val ≠ 0
  | _ => false

/-- The specials a program may write: %iter and %fpc (R37). -/
def Reg.writable : Reg → Bool
  | .sp n => n.val = 17 || n.val = 21
  | _ => true

/-- The lane-held specials %lane, %fib, %rgn and %wb (R46). -/
def Reg.laneHeld : Reg → Bool
  | .v _ => true
  | .k _ => false
  | .sp n => n.val = 0 || n.val = 9 || n.val = 20 || n.val = 22

/-- An even v or k register. -/
def Reg.evenVK (r : Reg) : Bool := r.isVK && r.code % 2 = 0

/-- A register read as a source: a 64-bit one is an even v or k register or %cyc (R35, R38). -/
def Reg.srcOk (wide : Bool) (r : Reg) : Bool := !wide || r.evenVK || r = .sp 10

/-- A register written as a destination (R35, R37). -/
def Reg.dstOk (wide : Bool) (r : Reg) : Bool := if wide then r.evenVK else r.writable

/-- A crossbar source (R46): identity has parameter 0, the other patterns a v register or a lane-held special. -/
def Src.ok (wide : Bool) (x : Src) : Bool :=
  x.reg.srcOk wide && (if x.pat = 0 then x.par = 0 else x.reg.laneHeld)

/-- A source that must use the identity pattern. -/
def Src.plain (x : Src) : Bool := x.pat = 0 && x.par = 0

/-! ### Types (R136, R138) -/

def Ty.wide (t : Ty) : Bool := t = .s64 || t = .n64 || t = .b64

def Ty.isFloat (t : Ty) : Bool := [Ty.f32, .f16, .bf16, .e4m3, .e5m2, .e2m1].contains t

/-- The integer types of R150. -/
def Ty.isInt (t : Ty) : Bool := [Ty.s32, .n32, .s64, .n64, .s16, .n16, .s8, .n8].contains t

/-- The arithmetic floating types of R158. -/
def Ty.isFp (t : Ty) : Bool := [Ty.f32, .f16, .bf16].contains t

/-- The access types of memory instructions (R174). -/
def Ty.isMem (t : Ty) : Bool := !([Ty.e4m3, .e5m2, .e2m1].contains t)

/-- The element types of CVTB (R163). -/
def Ty.isMx (t : Ty) : Bool := [Ty.e4m3, .e5m2, .e2m1, .s8].contains t

def Ty.isBits (t : Ty) : Bool := t = .b32 || t = .b64

def Ty.isFull (t : Ty) : Bool := [Ty.s32, .n32, .s64, .n64].contains t

/-! ### The shapes -/

def A1.ok (o : A1) (types : List Ty) (dWide : Bool) (rmOk : Bool) : Bool :=
  types.contains o.ty && o.d.dstOk dWide && o.a.ok o.ty.wide && (rmOk || !o.rm)

def A2.ok (o : A2) (types : List Ty) (bWide : Bool) (rmOk : Bool) : Bool :=
  types.contains o.ty && o.d.dstOk o.ty.wide && o.a.ok o.ty.wide && o.b.ok bWide && (rmOk || !o.rm)

def A3.ok (o : A3) (types : List Ty) (cWide : Bool) (rmOk : Bool) : Bool :=
  types.contains o.ty && o.d.dstOk o.ty.wide && o.a.ok o.ty.wide && o.b.ok o.ty.wide && o.c.srcOk cWide && (rmOk || !o.rm)

def intTypes : List Ty := [.s32, .n32, .s64, .n64, .s16, .n16, .s8, .n8]
def fpTypes : List Ty := [.f32, .f16, .bf16]
def bitTypes : List Ty := [.b32, .b64]

/-- ICMP (R155): b32 and b64 compare only for equality. -/
def ACmp.okInt (o : ACmp) : Bool :=
  (o.ty.isInt || o.ty.isBits) && (if o.ty.isBits then o.cc.val ≤ 1 else o.cc.val ≤ 5) && o.a.ok o.ty.wide && o.b.ok o.ty.wide

/-- FCMP (R161). -/
def ACmp.okFp (o : ACmp) : Bool := o.ty = .f32 && o.a.ok false && o.b.ok false

/-- CVT (R162, R147). -/
def ACvt.ok (o : ACvt) : Bool :=
  !o.ty.isBits && !o.sty.isBits && o.ty ≠ o.sty && o.d.dstOk o.ty.wide && o.a.ok o.sty.wide
    && (!o.rm || o.ty.isFloat || o.sty.isFloat)

/-- CVTB (R163, R164): the encode form leaves b unused. -/
def ACvtb.ok (o : ACvtb) : Bool :=
  o.d.dstOk false && o.a.ok false && o.b.ok false
    && ((o.ty.isMx && o.sty = .f32 && o.b = .zero) || (o.ty = .f32 && o.sty.isMx))

/-- MOVS (R168). -/
def AMovs.ok (o : AMovs) : Bool :=
  if o.toPreds then o.d = .zero && o.a.ok false else o.a = .zero && o.d.dstOk false

/-- RNGX (R172): the sequence-key forms leave c unused. -/
def A3.okRngx (o : A3) : Bool :=
  !o.rm && o.d.dstOk o.ty.wide && o.a.ok false && o.b.ok false
    && (if o.ty = .n32 || o.ty = .n64 then o.c = .zero && !o.cPol else o.ty.isBits && o.c.srcOk true)

/-! ### Format M (R132, R137, R174) -/

/-- Scope 0–5, and 0 where the ordering carries none (R137). -/
def M.scopeOk (o : M) (ordered : Bool) : Bool := if ordered then o.scope.val ≤ 5 else o.scope = 0

/-- A load or store with the ord codes its entry lists. -/
def M.okAccess (o : M) (isGlobal : Bool) (ords : List Nat) (ordered : Nat) : Bool :=
  o.ty.isMem && o.a.srcOk isGlobal && o.b.srcOk false && ords.contains o.ord.val && o.scopeOk (o.ord.val = ordered)

/-- The types of an atomic operation (R180). -/
def atomTypes (op : Nat) : List Ty :=
  match op with
  | 0 => [.s32, .n32, .s64, .n64, .f32, .bf16]
  | 1 | 2 => [.s32, .n32, .s64, .n64, .f32]
  | 3 | 4 | 5 => [.b32, .b64]
  | _ => []

/-- The value register of an atomic: CAS takes a compare value from the registers after it (R181). -/
def M.valueOk (o : M) : Bool :=
  if o.ord.val = 5 then o.b.isVK && (if o.ty = .b64 then o.b.code % 4 = 0 else o.b.code % 2 = 0) else o.b.srcOk o.ty.wide

/-- ATOM and ATOMS (R180 to R182). -/
def M.okAtom (o : M) (isGlobal : Bool) : Bool :=
  (atomTypes o.ord.val).contains o.ty && o.valueOk && o.a.srcOk isGlobal && o.scope.val ≤ 5
    && o.d.isVK && (!o.ty.wide || o.d.evenVK)

/-- RED (R183). -/
def M.okRed (o : M) : Bool :=
  o.ord.val ≤ 3 && (atomTypes o.ord.val).contains o.ty && o.valueOk && o.a.srcOk true && o.scope.val ≤ 5
    && (o.sh.val = 0 || o.sh.val = 2) && o.d = .zero

/-- TLBI (R304, R308). -/
def M.okTlbi (o : M) : Bool :=
  o.ty = .b32 && o.d = .zero && o.sh = 0 && o.scope = 0 &&
    (match o.ord.val with
     | 0 => o.a = .zero && !o.aPol && o.off = 0
     | 1 => o.a.srcOk true
     | 2 => o.a = .zero && !o.aPol && o.b = .zero && !o.bPol && o.off = 0
     | _ => false)

/-! ### Format X (R133, R222, R254) -/

/-- Flag bit i of an X-format word. -/
def X.flag (o : X) (i : Nat) : Bool := o.flags.val / 2 ^ i % 2 = 1

/-- pb names a v or k register (R11). -/
def X.okBase (o : X) (types : List ETy) (shapes : Nat) (flags : Nat) : Bool :=
  types.contains o.ety && o.shape.val < shapes && o.flags.val < flags && o.pb.isVK

/-- Engine type, shape, aux and flags unused; the barrier used. -/
def X.okPlain (o : X) : Bool := o.okBase [.bf16] 1 1 && o.aux = .zero

/-- A register destination in aux: v, or k1–k63. -/
def X.auxDst (o : X) : Bool := o.aux.isV || o.aux.isK1

def X.okAccmv (o : X) : Bool :=
  o.okBase [.bf16, .f16, .e4m3, .e5m2, .s8, .f32, .s32] 1 8 && !(o.flag 0 && o.flag 1)
    && (if o.flag 0 then o.auxDst && o.bar = 0 else o.aux = .zero)

def X.okSeqv (o : X) : Bool :=
  o.okBase [.bf16] 1 8 && !(o.flag 1 && o.flag 2) && o.auxDst && o.bar = 0 && o.imm = 0
    && (o.flag 1 || o.flag 2 || o.pb = .zero)

/-! ### System registers (R290) -/

/-- The first word and the number of words of the register a word number lies in; `none` when unassigned. -/
def sysRegOf (n : Nat) : Option (Nat × Nat) :=
  if n ≤ 0x001 then some (0x000, 2)
  else if n = 0x004 then some (0x004, 1)
  else if n = 0x005 then some (0x005, 1)
  else if n = 0x006 ∨ n = 0x007 then some (0x006, 2)
  else if 0x008 ≤ n ∧ n ≤ 0x00B then some (0x008, 4)
  else if 0x010 ≤ n ∧ n ≤ 0x01F then some (0x010, 16)
  else if n = 0x020 ∨ n = 0x021 then some (0x020, 2)
  else if 0x030 ≤ n ∧ n ≤ 0x033 then some (0x030, 4)
  else if 0x038 ≤ n ∧ n ≤ 0x03B then some (0x038, 4)
  else if 0x040 ≤ n ∧ n ≤ 0x05F then some (n / 2 * 2, 2)
  else if 0x060 ≤ n ∧ n ≤ 0x07F then some (n / 4 * 4, 4)
  else if 0x100 ≤ n ∧ n ≤ 0x17F then some (n / 8 * 8, 8)
  else if 0x800 ≤ n ∧ n ≤ 0xFFF then some (n / 4 * 4, 4)
  else none

/-- A word number that an access of its width may name: a 64-bit access names an even word of a register that holds both words. -/
def sysWordOk (wide : Bool) (n : Nat) : Bool :=
  match sysRegOf n with
  | none => false
  | some (_, len) => !wide || (n % 2 = 0 && len ≥ 2)

/-- MTSR may not name XS_STATUS or a read-only word of XS_TRAPREC (R304, R340). -/
def sysWordWritable (n : Nat) : Bool := n > 0x001 && !(0x011 ≤ n && n ≤ 0x01F)

/-! ### Well-formed instructions -/

/-- No field of the word raises ILLEGAL_ENCODING (step 5 of R142). An event is not a word. -/
def Instr.wellFormed : Instr → Bool
  | .iadd o | .isub o | .imul o | .imin o | .imax o => o.ok intTypes o.ty.wide false
  | .iaddc o | .isubb o => o.ok [.n32, .n64] o.ty.wide false
  | .imulh o => o.ok [.s32, .n32, .s64, .n64] o.ty.wide false
  | .imad o => o.ok intTypes o.ty.wide false
  | .iabs o => o.ok [.s32, .s64, .s16, .s8] o.ty.wide false
  | .and o | .or o | .xor o => o.ok bitTypes o.ty.wide false
  | .not o | .brev o => o.ok bitTypes o.ty.wide false
  | .shl o | .rotl o => o.ok bitTypes false false
  | .shr o => o.ok [.s32, .n32, .s64, .n64] false false
  | .bfx o => o.ok [.s32, .n32] false false
  | .bfi o | .prmt o => o.ok [.b32] false false
  | .popc o | .clz o => o.ok bitTypes false false
  | .sel o => o.ty.isBits && o.d.dstOk o.ty.wide && o.a.ok o.ty.wide && o.b.ok o.ty.wide
  | .icmp o => o.okInt
  | .plop _ => true
  | .fadd o | .fsub o | .fmul o => o.ok fpTypes false true
  | .ffma o => o.ok fpTypes false true
  | .fmin o | .fmax o => o.ok fpTypes false false
  | .fabs o | .fneg o => o.ok fpTypes false false
  | .frcp o | .frsq o | .fsqrt o | .fexp2 o | .flog2 o | .ftanh o => o.ok fpTypes false true
  | .fcmp o => o.okFp
  | .cvt o => o.ok
  | .cvtb o => o.ok
  | .mov o => o.ok bitTypes o.ty.wide false
  | .movi o => [Ty.b32, .s32, .n32, .b64, .s64, .n64].contains o.ty && o.d.dstOk o.ty.wide
  | .movk o => o.ty.isBits && o.d.dstOk o.ty.wide && (o.ty.wide || o.h.val ≤ 1)
  | .movs o => o.ok
  | .shfl o => o.ok bitTypes false false && o.a.plain
  | .vote o => o.d.dstOk false && o.mode.val ≤ 5
  | .rngx o => o.okRngx
  | .launch o => o.okBase [.bf16] 1 2 && o.auxDst && (o.flag 0 || o.bar = 0)
  | .pgret o => o.d.isVK && o.a.srcOk true
  | .ld o => o.okAccess true [0, 1, 3, 5] 1 && o.d.isV && o.d.dstOk o.ty.wide
  | .st o => o.okAccess true [0, 2, 3, 5] 2 && o.d.srcOk o.ty.wide
  | .stSpw o => o.okAccess true [4] 8 && o.d.srcOk o.ty.wide && o.sh = 0
  | .ldk o => o.okAccess true [0, 1, 3, 5] 1 && o.d.isK1 && o.d.dstOk o.ty.wide
  | .lds o => o.okAccess false [0, 1] 1 && o.d.isV && o.d.dstOk o.ty.wide
  | .sts o => o.okAccess false [0, 2] 2 && o.d.srcOk o.ty.wide
  | .atom o => o.okAtom true
  | .atoms o => o.okAtom false
  | .red o => o.okRed
  | .fence o => o.order ≠ 0 && o.scope.val ≤ 5
  | .pref o => o.okAccess true [0, 5] 8 && o.ty = .b32 && o.d = .zero
  | .smap o => o.ty = .b32 && o.d.srcOk false && o.a.srcOk true && o.b.srcOk false && o.sh = 0 && o.scope = 0 && o.ord = 0
  | .sflush _ => true
  | .pgal o | .pgfr o | .seqf o => o.okBase [.bf16] 1 1
  | .mma o => o.okBase [.bf16, .f16, .e4m3, .e5m2, .e2m1] 8 8 && o.aux = .zero
  | .mmt o => o.okBase [.t2, .t5] 24 4 && o.aux = .zero
  | .accmv o => o.okAccmv
  | .accz o => o.okBase [.bf16] 1 1 && o.pb = .zero && o.imm = 0
  | .sopen o => o.okBase [.s8, .bf16, .f16, .e4m3, .e5m2, .e2m1] 1 2 && o.aux = .zero && o.bar = 0
  | .ssub o | .sclose o => o.okPlain
  | .vnld o => o.okBase [.t2, .t5] 1 2 && o.aux = .zero
  | .lrdef o => o.okBase [.bf16] 1 1 && o.bar = 0
  | .cpy o | .cpyw o | .cpyz o | .cpyg o => o.okPlain
  | .cpywExp o => o.okBase [.bf16] 1 2 && o.aux = .zero && o.flag 0
  | .cpym o => o.okBase [.bf16] 1 1
  | .bra _ => true
  | .brx o => o.a.srcOk o.wide && (!o.wide || o.target = 0)
  | .call o => o.s.val ≤ 126
  | .ret o => o.a.srcOk true
  | .fork o => o.a.isVK
  | .quit _ | .elect _ => true
  | .barArrive o | .barSync o => o.p = 0 && !o.ph
  | .barWait o => o.p = 0
  | .barTest _ => true
  | .barx o => o.c ≠ 0
  | .semp o | .semw o => o.a.isVK && o.n ≠ 0 && o.scope.val ≤ 5
  | .yieldW _ | .nop _ | .xrel _ | .rgne _ => true
  | .xacq o => o.tryIt || o.p = 0
  | .assert o => o.a.srcOk true
  | .rgnb _ => true
  | .rgnk o =>
    if o.scr then o.n.val % 4 = 0 && 4 ≤ o.n.val && o.n.val ≤ 65536
    else 1 ≤ o.n.val && o.n.val ≤ 64 &&
      (match o.a with
       | .v r => r.val + o.n.val ≤ 128
       | .k r => r.val ≠ 0 && r.val + o.n.val ≤ 64
       | .sp _ => false)
  | .spwo o | .seqw o | .bfqj o | .sampArm o => o.okPlain
  | .sampRead o => o.okBase [.bf16] 1 2 && o.aux = .zero && o.flag 0
  | .spwc o => o.okBase [.bf16] 1 1
  | .seqv o => o.okSeqv
  | .acpt o => o.okBase [.bf16] 1 1 && o.auxDst && o.bar = 0
  | .trap _ => true
  | .sret o => o.d.isVK && o.mode.val ≤ 2
  | .mfsr o => o.d.isVK && o.d.dstOk o.wide && sysWordOk o.wide o.word.val
  | .mtsr o => o.d.srcOk o.wide && sysWordOk o.wide o.word.val && sysWordWritable o.word.val
  | .tlbi o => o.okTlbi
  | .reservedOpcode w =>
    [0x00, 0x0B, 0x1C, 0x1D, 0x1E, 0x1F, 0x3A, 0x3B, 0x3C, 0x3D, 0x3E, 0x3F, 0x4F, 0x5E, 0x5F, 0x7F].contains (w.toNat / 2 ^ 57)
  | .batchSelect _ | .clauseStart _ | .loadFill _ _ | .storeAck _ | .readRenew _ _ | .writeMerge _ | .atomicAtHome _
  | .reductionContribution _ | .reductionMerge _ | .ptsTick _ | .l1Evict _ _ | .aliasEvict _ _ | .commitPublish _ | .rollback _
  | .engineArrival _ _ | .engineFaultResume _ | .engineFaultStop _ | .streamWindowDeliver _ _ | .batchDeadline _ _
  | .scatterArrival _ _ | .logitLand _ | .seqwPublish _ | .migrationPageCopy _ _ | .migrationSwitch _ | .cowResolve _
  | .pageWalk _ | .faultEntryWrite _ | .pagerResponse _ _ | .launchAccept _ _ _ | .workgroupPlace _ _ _ | .workgroupRetire _
  | .priorityAge _ _ _ | .localityDecay _ | .throttleExempt _ | .timeSliceExpiry _ | .preempt _ | .restore _ _
  | .checkpointCompare _ | .workgroupRelaunch _ | .dbgHalt _ | .dbgResume _ | .dbgStep _ | .dbgReadRegister _
  | .dbgWriteRegister _ | .dbgResumeWarp _ | .traprecClear | .acclogClear | .fmtwinEnable | .fmtwinDisable | .errinjArm
  | .sysregWrite | .managementRead _ _ _ _ _ | .managementWrite _ _ _ _ _ _ _ | .hostMemoryAccess _
  | .hostLaunchEnqueue _ _ _ _ _ _ | .expertClaim _ | .grant _ | .overflowReply _ | .filledAdvance _ _ | .packetDrop _ _
  | .linkDead _ | .linkStateUpdate _ _ _ _ | .drainRound | .undelivered _ | .powerGood | .bootStage1 _ | .bootStage2 _
  | .bootStage3 _ | .bootStage4 _ | .bootStage5 _ | .bootStage6 | .attestSign | .governorSample _ | .thermalStep _ _
  | .thermalShutdown _ | .storageError _ _ _ _ | .linkBeatError _ | .dieToDieLaneLoss _ _ => false

end Sys2Proof
end

