-- ==== Sys2Proof/Decode.lean ====
section
/-! DEFINITION. The decoder, total on any bytes, and the encoder, both from the field tables R130 to R140. -/

namespace Sys2Proof

/-! ### Field packing -/

/-- The number whose fields, from bit 0 upward, have the widths and values listed. -/
def pack : List (Nat × Nat) → Nat
  | [] => 0
  | (k, x) :: t => x + 2 ^ k * pack t

/-- The fields of a number, from bit 0 upward. -/
def unpack : List Nat → Nat → List Nat
  | [], _ => []
  | k :: t, w => w % 2 ^ k :: unpack t (w / 2 ^ k)

/-- The opcode of an instruction word (R130 to R134). -/
def opcodeOf (w : Nat) : Nat := w / 2 ^ 57 % 2 ^ 7

/-- The guard of an instruction word. -/
def guardOf (w : Nat) : Nat := w / 2 ^ 54 % 2 ^ 3

def widthsA : List Nat := [1, 1, 8, 1, 5, 2, 8, 1, 5, 2, 8, 8, 4, 3, 7]
def widthsI : List Nat := [26, 1, 5, 2, 8, 8, 4, 3, 7]
def widthsM : List Nat := [16, 3, 3, 2, 1, 8, 1, 8, 8, 4, 3, 7]
def widthsX : List Nat := [16, 9, 8, 8, 4, 5, 4, 3, 7]
def widthsB : List Nat := [32, 1, 1, 8, 8, 4, 3, 7]

def b01 (b : Bool) : Nat := if b then 1 else 0

/-- Format A (R130). -/
def packA (op g ty d a aPat aPar : Nat) (aPol : Bool) (b bPat bPar : Nat) (bPol : Bool) (c : Nat) (cPol rm : Bool) : Nat :=
  pack [(1, b01 rm), (1, b01 cPol), (8, c), (1, b01 bPol), (5, bPar), (2, bPat), (8, b), (1, b01 aPol), (5, aPar), (2, aPat),
    (8, a), (8, d), (4, ty), (3, g), (7, op)]

/-- Format I (R131), with the identity pattern on a. -/
def packI (op g ty d a : Nat) (aPol : Bool) (imm : Nat) : Nat :=
  pack [(26, imm), (1, b01 aPol), (5, 0), (2, 0), (8, a), (8, d), (4, ty), (3, g), (7, op)]

/-- Format M (R132). -/
def packM (op g ty d a : Nat) (aPol : Bool) (b : Nat) (bPol : Bool) (sh scope ord off : Nat) : Nat :=
  pack [(16, off), (3, ord), (3, scope), (2, sh), (1, b01 bPol), (8, b), (1, b01 aPol), (8, a), (8, d), (4, ty), (3, g), (7, op)]

/-- Format X (R133). -/
def packX (op g ety shape bar pb aux flags imm : Nat) : Nat :=
  pack [(16, imm), (9, flags), (8, aux), (8, pb), (4, bar), (5, shape), (4, ety), (3, g), (7, op)]

/-- Format B (R134). -/
def packB (op g ty d a : Nat) (aPol : Bool) (target : Nat) : Nat :=
  pack [(32, target), (1, 0), (1, b01 aPol), (8, a), (8, d), (4, ty), (3, g), (7, op)]

/-! ### Codes -/

/-- The register an operand code names (R34). -/
def Reg.read (c : Nat) : Option Reg :=
  if h : c < 128 then some (.v ⟨c, h⟩)
  else if h : c - 128 < 64 then some (.k ⟨c - 128, h⟩)
  else if h : c - 192 < 25 then some (.sp ⟨c - 192, h⟩)
  else none

/-- The type codes in order (R136). -/
def tyList : List Ty := [.b32, .s32, .n32, .s64, .n64, .f32, .f16, .bf16, .s16, .n16, .s8, .n8, .e4m3, .e5m2, .e2m1, .b64]

def Ty.code : Ty → Nat
  | .b32 => 0 | .s32 => 1 | .n32 => 2 | .s64 => 3 | .n64 => 4 | .f32 => 5 | .f16 => 6 | .bf16 => 7
  | .s16 => 8 | .n16 => 9 | .s8 => 10 | .n8 => 11 | .e4m3 => 12 | .e5m2 => 13 | .e2m1 => 14 | .b64 => 15

def Ty.read (c : Nat) : Option Ty := tyList[c]?

/-- The engine-type codes in order (R138). -/
def etyList : List ETy := [.bf16, .f16, .e4m3, .e5m2, .t2, .t5, .s8, .f32, .e2m1, .s32]

def ETy.code : ETy → Nat
  | .bf16 => 0 | .f16 => 1 | .e4m3 => 2 | .e5m2 => 3 | .t2 => 4 | .t5 => 5 | .s8 => 6 | .f32 => 7 | .e2m1 => 8 | .s32 => 9

def ETy.read (c : Nat) : Option ETy := etyList[c]?

/-- A number below n as a Fin. -/
def toFin (n : Nat) [NeZero n] (x : Nat) : Fin n := Fin.ofNat n x

/-- A small code field: `none` beyond its range. -/
def small (n : Nat) [NeZero n] (x : Nat) : Option (Fin n) := if x < n then some (toFin n x) else none

def Src.read (c pat par pol : Nat) : Option Src := (Reg.read c).map fun r => ⟨r, toFin 4 pat, toFin 32 par, pol = 1⟩

/-! ### The encoder -/

def encA (op : Nat) (g : Fin 8) (ty d : Nat) (a b : Src) (c : Nat) (cPol rm : Bool) : Nat :=
  packA op g ty d a.reg.code a.pat a.par a.pol b.reg.code b.pat b.par b.pol c cPol rm

def encA1 (op : Nat) (o : A1) : Nat := encA op o.g o.ty.code o.d.code o.a .zero 0 false o.rm
def encA2 (op : Nat) (o : A2) : Nat := encA op o.g o.ty.code o.d.code o.a o.b 0 false o.rm
def encA3 (op : Nat) (o : A3) : Nat := encA op o.g o.ty.code o.d.code o.a o.b o.c.code o.cPol o.rm
def encM (op : Nat) (o : M) : Nat :=
  packM op o.g o.ty.code o.d.code o.a.code o.aPol o.b.code o.bPol o.sh o.scope o.ord o.off.toNat
def encX (op : Nat) (o : X) : Nat := packX op o.g o.ety.code o.shape o.bar o.pb.code o.aux.code o.flags o.imm.toNat
def encBar (form : Nat) (o : IBar) : Nat := packI 0x67 o.g 0 o.p 0 false (o.b + 16 * form + 64 * b01 o.ph)

/-- The word of an instruction as a number (R139 gives the opcodes); 0 for an event, which has no word. -/
def encodeNat : Instr → Nat
  | .iabs o => encA1 0x0A o
  | .not o => encA1 0x0F o
  | .popc o => encA1 0x15 o
  | .clz o => encA1 0x16 o
  | .brev o => encA1 0x17 o
  | .fabs o => encA1 0x26 o
  | .fneg o => encA1 0x27 o
  | .frcp o => encA1 0x28 o
  | .frsq o => encA1 0x29 o
  | .fsqrt o => encA1 0x2A o
  | .fexp2 o => encA1 0x2B o
  | .flog2 o => encA1 0x2C o
  | .ftanh o => encA1 0x2D o
  | .mov o => encA1 0x31 o
  | .iadd o => encA2 0x01 o
  | .isub o => encA2 0x03 o
  | .imul o => encA2 0x05 o
  | .imulh o => encA2 0x06 o
  | .imin o => encA2 0x08 o
  | .imax o => encA2 0x09 o
  | .and o => encA2 0x0C o
  | .or o => encA2 0x0D o
  | .xor o => encA2 0x0E o
  | .shl o => encA2 0x10 o
  | .shr o => encA2 0x11 o
  | .rotl o => encA2 0x12 o
  | .bfx o => encA2 0x13 o
  | .fadd o => encA2 0x20 o
  | .fsub o => encA2 0x21 o
  | .fmul o => encA2 0x22 o
  | .fmin o => encA2 0x24 o
  | .fmax o => encA2 0x25 o
  | .shfl o => encA2 0x35 o
  | .iaddc o => encA3 0x02 o
  | .isubb o => encA3 0x04 o
  | .imad o => encA3 0x07 o
  | .bfi o => encA3 0x14 o
  | .prmt o => encA3 0x19 o
  | .ffma o => encA3 0x23 o
  | .rngx o => encA3 0x37 o
  | .ld o => encM 0x40 o
  | .st o => encM 0x41 o
  | .stSpw o => encM 0x41 o
  | .ldk o => encM 0x42 o
  | .lds o => encM 0x43 o
  | .sts o => encM 0x44 o
  | .atom o => encM 0x45 o
  | .atoms o => encM 0x46 o
  | .red o => encM 0x47 o
  | .pref o => encM 0x49 o
  | .smap o => encM 0x4A o
  | .tlbi o => encM 0x7E o
  | .pgal o => encX 0x4C o
  | .pgfr o => encX 0x4D o
  | .seqf o => encX 0x4E o
  | .mma o => encX 0x50 o
  | .mmt o => encX 0x51 o
  | .accmv o => encX 0x52 o
  | .accz o => encX 0x53 o
  | .sopen o => encX 0x54 o
  | .ssub o => encX 0x55 o
  | .sclose o => encX 0x56 o
  | .vnld o => encX 0x57 o
  | .lrdef o => encX 0x58 o
  | .cpy o => encX 0x59 o
  | .cpyw o => encX 0x5A o
  | .cpywExp o => encX 0x5A o
  | .cpyz o => encX 0x5B o
  | .cpym o => encX 0x5C o
  | .cpyg o => encX 0x5D o
  | .launch o => encX 0x38 o
  | .spwo o => encX 0x73 o
  | .spwc o => encX 0x74 o
  | .seqw o => encX 0x75 o
  | .seqv o => encX 0x76 o
  | .bfqj o => encX 0x77 o
  | .sampArm o => encX 0x78 o
  | .sampRead o => encX 0x78 o
  | .acpt o => encX 0x79 o
  | .sel o => encA 0x18 o.g o.ty.code o.d.code o.a o.b o.p false false
  | .icmp o => encA 0x1A o.g o.ty.code o.p o.a o.b o.cc false false
  | .fcmp o => encA 0x2E o.g o.ty.code o.p o.a o.b o.cc false false
  | .plop o => packA 0x1B o.g 0 o.d o.a 0 0 false o.b 0 0 false o.tbl false false
  | .cvt o => encA 0x2F o.g o.ty.code o.d.code o.a .zero o.sty.code false o.rm
  | .cvtb o => encA 0x30 o.g o.ty.code o.d.code o.a o.b o.sty.code false false
  | .movs o => encA 0x34 o.g 0 o.d.code o.a .zero (if o.toPreds then 1 else 0) false false
  | .vote o => packA 0x36 o.g 0 o.d.code o.p 0 0 false 0 0 0 false o.mode false false
  | .movi o => packI 0x32 o.g o.ty.code o.d.code 0 false o.imm.toNat
  | .movk o => packI 0x33 o.g o.ty.code o.d.code 0 false (o.imm.toNat + 65536 * o.h)
  | .fence o => packM 0x48 o.g 0 0 0 false 0 false o.order o.scope 0 0
  | .sflush o => packM 0x4B o.g 0 0 0 false 0 false 0 0 0 0
  | .bra o => packB 0x60 o.g 0 0 0 false o.target.toNat
  | .brx o => packB 0x61 o.g (if o.wide then 15 else 0) 0 o.a.code o.pol o.target.toNat
  | .call o => packB 0x62 o.g 0 0 o.s false o.target.toNat
  | .fork o => packB 0x64 o.g 0 o.p o.a.code o.pol o.target.toNat
  | .rgnb o => packB 0x70 o.g o.lim 0 0 false o.target.toNat
  | .ret o => packI 0x63 o.g 0 0 o.a.code o.pol 0
  | .assert o => packI 0x6F o.g 0 0 o.a.code o.pol 0
  | .elect o => packI 0x66 o.g 0 o.p 0 false (if o.hi then 1 else 0)
  | .barArrive o => encBar 0 o
  | .barWait o => encBar 1 o
  | .barSync o => encBar 2 o
  | .barTest o => encBar 3 o
  | .barx o => packI 0x68 o.g 0 0 0 false (o.b + 16 * o.c)
  | .semp o => packI 0x69 o.g 0 0 o.a.code o.pol (o.n + 65536 * o.scope)
  | .semw o => packI 0x6A o.g 0 0 o.a.code o.pol (o.n + 65536 * o.scope)
  | .xacq o => packI 0x6D o.g 0 o.p 0 false (if o.tryIt then 1 else 0)
  | .rgnk o => packI 0x71 o.g 0 0 o.a.code false (o.n + 16777216 * (if o.scr then 1 else 0))
  | .trap o => packI 0x7A o.g 0 0 0 false o.code
  | .sret o => packI 0x7B o.g 0 o.d.code o.a.code o.pol o.mode
  | .mfsr o => packI 0x7C o.g (if o.wide then 15 else 0) o.d.code o.a.code o.pol o.word
  | .mtsr o => packI 0x7D o.g (if o.wide then 15 else 0) o.d.code o.a.code o.pol o.word
  | .pgret o => packI 0x39 o.g 0 o.d.code o.a.code o.pol 0
  | .quit o => packI 0x65 o.g 0 0 0 false 0
  | .yieldW o => packI 0x6B o.g 0 0 0 false 0
  | .nop o => packI 0x6C o.g 0 0 0 false 0
  | .xrel o => packI 0x6E o.g 0 0 0 false 0
  | .rgne o => packI 0x72 o.g 0 0 0 false 0
  | .reservedOpcode w => w.toNat
  | .batchSelect _ | .clauseStart _ | .loadFill _ _ | .storeAck _ | .readRenew _ _ | .writeMerge _ | .atomicAtHome _
  | .reductionContribution _ | .reductionMerge _ | .ptsTick _ | .l1Evict _ _ | .aliasEvict _ _ | .commitPublish _ | .rollback _
  | .engineArrival _ _ | .engineFaultResume _ | .engineFaultStop _ | .streamWindowDeliver _ _ | .batchDeadline _ _
  | .scatterArrival _ _ | .logitLand _ | .seqwPublish _ | .migrationPageCopy _ _ | .migrationSwitch _ | .cowResolve _
  | .pageWalk _ | .faultEntryWrite _ | .pagerResponse _ _ | .launchAccept _ _ _ | .workgroupPlace _ _ _ | .workgroupRetire _
  | .priorityAge _ _ _ | .localityDecay _ | .throttleExempt _ | .timeSliceExpiry _ | .preempt _ | .restore _ _
  | .checkpointCompare _ | .workgroupRelaunch _ | .dbgHalt _ | .dbgResume _ | .dbgStep _ | .dbgReadRegister _
  | .dbgWriteRegister _ | .dbgResumeWarp _ | .traprecClear | .acclogClear | .fmtwinEnable | .fmtwinDisable | .errinjArm
  | .sysregWrite | .managementRead _ _ _ _ _ | .managementWrite _ _ _ _ _ _ _ | .hostMemoryAccess _
  | .hostLaunchEnqueue _ _ _ _ _ _ | .expertClaim _ | .grant _ | .overflowReply _ | .filledAdvance _ _ | .packetDrop _ _
  | .linkDead _ | .linkStateUpdate _ _ _ _ | .drainRound | .undelivered _ | .powerGood | .bootStage1 _ | .bootStage2 _
  | .bootStage3 _ | .bootStage4 _ | .bootStage5 _ | .bootStage6 | .attestSign | .governorSample _ | .thermalStep _ _
  | .thermalShutdown _ | .storageError _ _ _ _ | .linkBeatError _ | .dieToDieLaneLoss _ _ => 0

/-- The word of a well-formed instruction. -/
def encode (i : Instr) : DWord := BitVec.ofNat 64 (encodeNat i)

/-! ### The decoder -/

def fA1 (w : Nat) : Option A1 :=
  match unpack widthsA w with
  | [rm, _, _, _, _, _, _, aPol, aPar, aPat, a, d, ty, g, _] => do
    let ty ← Ty.read ty
    let d ← Reg.read d
    let a ← Src.read a aPat aPar aPol
    some ⟨toFin 8 g, ty, d, a, rm = 1⟩
  | _ => none

def fA2 (w : Nat) : Option A2 :=
  match unpack widthsA w with
  | [rm, _, _, bPol, bPar, bPat, b, aPol, aPar, aPat, a, d, ty, g, _] => do
    let ty ← Ty.read ty
    let d ← Reg.read d
    let a ← Src.read a aPat aPar aPol
    let b ← Src.read b bPat bPar bPol
    some ⟨toFin 8 g, ty, d, a, b, rm = 1⟩
  | _ => none

def fA3 (w : Nat) : Option A3 :=
  match unpack widthsA w with
  | [rm, cPol, c, bPol, bPar, bPat, b, aPol, aPar, aPat, a, d, ty, g, _] => do
    let ty ← Ty.read ty
    let d ← Reg.read d
    let a ← Src.read a aPat aPar aPol
    let b ← Src.read b bPat bPar bPol
    let c ← Reg.read c
    some ⟨toFin 8 g, ty, d, a, b, c, cPol = 1, rm = 1⟩
  | _ => none

def fSel (w : Nat) : Option ASel :=
  match unpack widthsA w with
  | [_, _, c, bPol, bPar, bPat, b, aPol, aPar, aPat, a, d, ty, g, _] => do
    let ty ← Ty.read ty
    let d ← Reg.read d
    let a ← Src.read a aPat aPar aPol
    let b ← Src.read b bPat bPar bPol
    let p ← small 8 c
    some ⟨toFin 8 g, ty, d, a, b, p⟩
  | _ => none

def fCmp (w : Nat) : Option ACmp :=
  match unpack widthsA w with
  | [_, _, c, bPol, bPar, bPat, b, aPol, aPar, aPat, a, d, ty, g, _] => do
    let ty ← Ty.read ty
    let p ← small 8 d
    let a ← Src.read a aPat aPar aPol
    let b ← Src.read b bPat bPar bPol
    let cc ← small 8 c
    some ⟨toFin 8 g, ty, p, a, b, cc⟩
  | _ => none

def fPlop (w : Nat) : Option APlop :=
  match unpack widthsA w with
  | [_, _, c, _, _, _, b, _, _, _, a, d, _, g, _] => do
    let d ← small 8 d
    let a ← small 8 a
    let b ← small 8 b
    let t ← small 16 c
    some ⟨toFin 8 g, d, a, b, t⟩
  | _ => none

def fCvt (w : Nat) : Option ACvt :=
  match unpack widthsA w with
  | [rm, _, c, _, _, _, _, aPol, aPar, aPat, a, d, ty, g, _] => do
    let ty ← Ty.read ty
    let sty ← Ty.read c
    let d ← Reg.read d
    let a ← Src.read a aPat aPar aPol
    some ⟨toFin 8 g, ty, sty, d, a, rm = 1⟩
  | _ => none

def fCvtb (w : Nat) : Option ACvtb :=
  match unpack widthsA w with
  | [_, _, c, bPol, bPar, bPat, b, aPol, aPar, aPat, a, d, ty, g, _] => do
    let ty ← Ty.read ty
    let sty ← Ty.read c
    let d ← Reg.read d
    let a ← Src.read a aPat aPar aPol
    let b ← Src.read b bPat bPar bPol
    some ⟨toFin 8 g, ty, sty, d, a, b⟩
  | _ => none

def fMovs (w : Nat) : Option AMovs :=
  match unpack widthsA w with
  | [_, _, c, _, _, _, _, aPol, aPar, aPat, a, d, _, g, _] => do
    let d ← Reg.read d
    let a ← Src.read a aPat aPar aPol
    let c ← small 2 c
    some ⟨toFin 8 g, c = 1, d, a⟩
  | _ => none

def fVote (w : Nat) : Option AVote :=
  match unpack widthsA w with
  | [_, _, c, _, _, _, _, _, _, _, a, d, _, g, _] => do
    let d ← Reg.read d
    let p ← small 8 a
    let m ← small 8 c
    some ⟨toFin 8 g, d, p, m⟩
  | _ => none

def fMovi (w : Nat) : Option IMovi :=
  match unpack widthsI w with
  | [imm, _, _, _, _, d, ty, g, _] => do
    let ty ← Ty.read ty
    let d ← Reg.read d
    some ⟨toFin 8 g, ty, d, BitVec.ofNat 26 imm⟩
  | _ => none

def fMovk (w : Nat) : Option IMovk :=
  match unpack widthsI w with
  | [imm, _, _, _, _, d, ty, g, _] => do
    let ty ← Ty.read ty
    let d ← Reg.read d
    let h ← small 4 (imm / 65536)
    some ⟨toFin 8 g, ty, d, h, BitVec.ofNat 16 imm⟩
  | _ => none

/-- The guard alone. -/
def fG0 (w : Nat) : G0 := ⟨toFin 8 (guardOf w)⟩

def fGA (w : Nat) : Option GA :=
  match unpack widthsI w with
  | [_, pol, _, _, a, _, _, g, _] => (Reg.read a).map fun a => ⟨toFin 8 g, a, pol = 1⟩
  | _ => none

def fElect (w : Nat) : Option IElect :=
  match unpack widthsI w with
  | [imm, _, _, _, _, d, _, g, _] => (small 8 d).map fun p => ⟨toFin 8 g, p, imm = 1⟩
  | _ => none

def fBar (w : Nat) : Option Instr :=
  match unpack widthsI w with
  | [imm, _, _, _, _, d, _, g, _] =>
    (small 8 d).map fun p =>
      let o : IBar := ⟨toFin 8 g, p, toFin 16 imm, imm / 64 % 2 = 1⟩
      match imm / 16 % 4 with
      | 0 => .barArrive o
      | 1 => .barWait o
      | 2 => .barSync o
      | _ => .barTest o
  | _ => none

def fBarx (w : Nat) : Option IBarx :=
  match unpack widthsI w with
  | [imm, _, _, _, _, _, _, g, _] => some ⟨toFin 8 g, toFin 16 imm, toFin 65536 (imm / 16)⟩
  | _ => none

def fSem (w : Nat) : Option ISem :=
  match unpack widthsI w with
  | [imm, pol, _, _, a, _, _, g, _] => (Reg.read a).map fun a => ⟨toFin 8 g, a, pol = 1, toFin 65536 imm, toFin 8 (imm / 65536)⟩
  | _ => none

def fXacq (w : Nat) : Option IXacq :=
  match unpack widthsI w with
  | [imm, _, _, _, _, d, _, g, _] => (small 8 d).map fun p => ⟨toFin 8 g, p, imm = 1⟩
  | _ => none

def fRgnk (w : Nat) : Option IRgnk :=
  match unpack widthsI w with
  | [imm, _, _, _, a, _, _, g, _] => (Reg.read a).map fun a => ⟨toFin 8 g, imm / 16777216 = 1, a, toFin 262144 imm⟩
  | _ => none

def fTrap (w : Nat) : Option ITrap :=
  match unpack widthsI w with
  | [imm, _, _, _, _, _, _, g, _] => some ⟨toFin 8 g, toFin 65536 imm⟩
  | _ => none

def fSret (w : Nat) : Option ISret :=
  match unpack widthsI w with
  | [imm, pol, _, _, a, d, _, g, _] => do
    let d ← Reg.read d
    let a ← Reg.read a
    some ⟨toFin 8 g, d, a, pol = 1, toFin 4 imm⟩
  | _ => none

def fSr (w : Nat) : Option ISr :=
  match unpack widthsI w with
  | [imm, pol, _, _, a, d, ty, g, _] => do
    let d ← Reg.read d
    let a ← Reg.read a
    some ⟨toFin 8 g, ty = 15, d, a, pol = 1, toFin 4096 imm⟩
  | _ => none

def fPgret (w : Nat) : Option IPgret :=
  match unpack widthsI w with
  | [_, pol, _, _, a, d, _, g, _] => do
    let d ← Reg.read d
    let a ← Reg.read a
    some ⟨toFin 8 g, d, a, pol = 1⟩
  | _ => none

def fM (w : Nat) : Option M :=
  match unpack widthsM w with
  | [off, ord, scope, sh, bPol, b, aPol, a, d, ty, g, _] => do
    let ty ← Ty.read ty
    let d ← Reg.read d
    let a ← Reg.read a
    let b ← Reg.read b
    some ⟨toFin 8 g, ty, d, a, aPol = 1, b, bPol = 1, toFin 4 sh, toFin 8 scope, toFin 8 ord, BitVec.ofNat 16 off⟩
  | _ => none

def fFence (w : Nat) : Option MFence :=
  match unpack widthsM w with
  | [_, _, scope, sh, _, _, _, _, _, _, g, _] => some ⟨toFin 8 g, toFin 4 sh, toFin 8 scope⟩
  | _ => none

def fX (w : Nat) : Option X :=
  match unpack widthsX w with
  | [imm, flags, aux, pb, bar, shape, ety, g, _] => do
    let ety ← ETy.read ety
    let pb ← Reg.read pb
    let aux ← Reg.read aux
    some ⟨toFin 8 g, ety, toFin 32 shape, toFin 16 bar, pb, aux, toFin 512 flags, BitVec.ofNat 16 imm⟩
  | _ => none

def fBra (w : Nat) : Option BBra :=
  match unpack widthsB w with
  | [t, _, _, _, _, _, g, _] => some ⟨toFin 8 g, BitVec.ofNat 32 t⟩
  | _ => none

def fBrx (w : Nat) : Option BBrx :=
  match unpack widthsB w with
  | [t, _, pol, a, _, ty, g, _] => (Reg.read a).map fun a => ⟨toFin 8 g, ty = 15, a, pol = 1, BitVec.ofNat 32 t⟩
  | _ => none

def fCall (w : Nat) : Option BCall :=
  match unpack widthsB w with
  | [t, _, _, a, _, _, g, _] => some ⟨toFin 8 g, toFin 256 a, BitVec.ofNat 32 t⟩
  | _ => none

def fFork (w : Nat) : Option BFork :=
  match unpack widthsB w with
  | [t, _, pol, a, d, _, g, _] => do
    let p ← small 8 d
    let a ← Reg.read a
    some ⟨toFin 8 g, p, a, pol = 1, BitVec.ofNat 32 t⟩
  | _ => none

def fRgnb (w : Nat) : Option BRgnb :=
  match unpack widthsB w with
  | [t, _, _, _, _, ty, g, _] => some ⟨toFin 8 g, toFin 16 ty, BitVec.ofNat 32 t⟩
  | _ => none

/-- The fields of a word read by its opcode (R139), before any check of their values. -/
def parse (w : Nat) : Option Instr :=
  match opcodeOf w with
  | 0x01 => (fA2 w).map .iadd
  | 0x02 => (fA3 w).map .iaddc
  | 0x03 => (fA2 w).map .isub
  | 0x04 => (fA3 w).map .isubb
  | 0x05 => (fA2 w).map .imul
  | 0x06 => (fA2 w).map .imulh
  | 0x07 => (fA3 w).map .imad
  | 0x08 => (fA2 w).map .imin
  | 0x09 => (fA2 w).map .imax
  | 0x0A => (fA1 w).map .iabs
  | 0x0C => (fA2 w).map .and
  | 0x0D => (fA2 w).map .or
  | 0x0E => (fA2 w).map .xor
  | 0x0F => (fA1 w).map .not
  | 0x10 => (fA2 w).map .shl
  | 0x11 => (fA2 w).map .shr
  | 0x12 => (fA2 w).map .rotl
  | 0x13 => (fA2 w).map .bfx
  | 0x14 => (fA3 w).map .bfi
  | 0x15 => (fA1 w).map .popc
  | 0x16 => (fA1 w).map .clz
  | 0x17 => (fA1 w).map .brev
  | 0x18 => (fSel w).map .sel
  | 0x19 => (fA3 w).map .prmt
  | 0x1A => (fCmp w).map .icmp
  | 0x1B => (fPlop w).map .plop
  | 0x20 => (fA2 w).map .fadd
  | 0x21 => (fA2 w).map .fsub
  | 0x22 => (fA2 w).map .fmul
  | 0x23 => (fA3 w).map .ffma
  | 0x24 => (fA2 w).map .fmin
  | 0x25 => (fA2 w).map .fmax
  | 0x26 => (fA1 w).map .fabs
  | 0x27 => (fA1 w).map .fneg
  | 0x28 => (fA1 w).map .frcp
  | 0x29 => (fA1 w).map .frsq
  | 0x2A => (fA1 w).map .fsqrt
  | 0x2B => (fA1 w).map .fexp2
  | 0x2C => (fA1 w).map .flog2
  | 0x2D => (fA1 w).map .ftanh
  | 0x2E => (fCmp w).map .fcmp
  | 0x2F => (fCvt w).map .cvt
  | 0x30 => (fCvtb w).map .cvtb
  | 0x31 => (fA1 w).map .mov
  | 0x32 => (fMovi w).map .movi
  | 0x33 => (fMovk w).map .movk
  | 0x34 => (fMovs w).map .movs
  | 0x35 => (fA2 w).map .shfl
  | 0x36 => (fVote w).map .vote
  | 0x37 => (fA3 w).map .rngx
  | 0x38 => (fX w).map .launch
  | 0x39 => (fPgret w).map .pgret
  | 0x40 => (fM w).map .ld
  | 0x41 => (fM w).map fun o => if o.ord = 4 then .stSpw o else .st o
  | 0x42 => (fM w).map .ldk
  | 0x43 => (fM w).map .lds
  | 0x44 => (fM w).map .sts
  | 0x45 => (fM w).map .atom
  | 0x46 => (fM w).map .atoms
  | 0x47 => (fM w).map .red
  | 0x48 => (fFence w).map .fence
  | 0x49 => (fM w).map .pref
  | 0x4A => (fM w).map .smap
  | 0x4B => some (.sflush (fG0 w))
  | 0x4C => (fX w).map .pgal
  | 0x4D => (fX w).map .pgfr
  | 0x4E => (fX w).map .seqf
  | 0x50 => (fX w).map .mma
  | 0x51 => (fX w).map .mmt
  | 0x52 => (fX w).map .accmv
  | 0x53 => (fX w).map .accz
  | 0x54 => (fX w).map .sopen
  | 0x55 => (fX w).map .ssub
  | 0x56 => (fX w).map .sclose
  | 0x57 => (fX w).map .vnld
  | 0x58 => (fX w).map .lrdef
  | 0x59 => (fX w).map .cpy
  | 0x5A => (fX w).map fun o => if o.flag 0 then .cpywExp o else .cpyw o
  | 0x5B => (fX w).map .cpyz
  | 0x5C => (fX w).map .cpym
  | 0x5D => (fX w).map .cpyg
  | 0x60 => (fBra w).map .bra
  | 0x61 => (fBrx w).map .brx
  | 0x62 => (fCall w).map .call
  | 0x63 => (fGA w).map .ret
  | 0x64 => (fFork w).map .fork
  | 0x65 => some (.quit (fG0 w))
  | 0x66 => (fElect w).map .elect
  | 0x67 => fBar w
  | 0x68 => (fBarx w).map .barx
  | 0x69 => (fSem w).map .semp
  | 0x6A => (fSem w).map .semw
  | 0x6B => some (.yieldW (fG0 w))
  | 0x6C => some (.nop (fG0 w))
  | 0x6D => (fXacq w).map .xacq
  | 0x6E => some (.xrel (fG0 w))
  | 0x6F => (fGA w).map .assert
  | 0x70 => (fRgnb w).map .rgnb
  | 0x71 => (fRgnk w).map .rgnk
  | 0x72 => some (.rgne (fG0 w))
  | 0x73 => (fX w).map .spwo
  | 0x74 => (fX w).map .spwc
  | 0x75 => (fX w).map .seqw
  | 0x76 => (fX w).map .seqv
  | 0x77 => (fX w).map .bfqj
  | 0x78 => (fX w).map fun o => if o.flag 0 then .sampRead o else .sampArm o
  | 0x79 => (fX w).map .acpt
  | 0x7A => (fTrap w).map .trap
  | 0x7B => (fSret w).map .sret
  | 0x7C => (fSr w).map .mfsr
  | 0x7D => (fSr w).map .mtsr
  | 0x7E => (fM w).map .tlbi
  | _ => some (.reservedOpcode (BitVec.ofNat 64 w))

/-- The instruction a word holds. A word with a reserved opcode is the operation that raises ILLEGAL_OPCODE (R141).
Every other word is accepted only when its fields are well-formed and every field the instruction does not use is zero (R135):
then, and only then, it is the encoding of the instruction its used fields name. -/
def decodeWord (w : DWord) : Option Instr :=
  match parse w.toNat with
  | none => none
  | some i => if i.wellFormed && encode i = w then some i else none

/-- The instruction that eight bytes of memory hold, the first at the lowest address (R5). -/
def decodeBytes (bs : List Byte) : Option Instr :=
  if bs.length = 8 then decodeWord (BitVec.ofNat 64 (Num.ofBytes bs)) else none

/-- The instruction of a word numbered as the opcode table numbers it; bits from `nbits` upward are zero. -/
def decodeTableWord (nbits w : Nat) : Option Instr := decodeBytes (Num.toBytes 8 (w % 2 ^ nbits))

/-! ### What an opcode alone decides (R29, R140) -/

/-- The clause classes of R123. -/
inductive Cls where
  | vec | mem | mtx | cpy | ctl | sys
deriving DecidableEq, Repr

/-- The code of a class in a clause header. -/
def Cls.code : Cls → Nat
  | .vec => 0 | .mem => 1 | .mtx => 2 | .cpy => 3 | .ctl => 4 | .sys => 5

/-- The 16 reserved opcodes (R141). -/
def opReserved (op : Nat) : Bool :=
  [0x00, 0x0B, 0x1C, 0x1D, 0x1E, 0x1F, 0x3A, 0x3B, 0x3C, 0x3D, 0x3E, 0x3F, 0x4F, 0x5E, 0x5F, 0x7F].contains op

/-- The class of an assigned opcode (R140). -/
def opClass (op : Nat) : Cls :=
  if op = 0x38 then .ctl
  else if op = 0x39 then .sys
  else if op < 0x40 then .vec
  else if op < 0x50 then .mem
  else if op < 0x58 then .mtx
  else if op < 0x60 then .cpy
  else if op < 0x7A then .ctl
  else .sys

/-- The bit of the role set that an opcode needs (R29): 2 matrix, 3 copy, 4 control. -/
def opRole (op : Nat) : Option Nat :=
  match opClass op with
  | .mtx => some 2
  | .cpy => some 3
  | _ => if op = 0x38 ∨ op = 0x4E ∨ op = 0x73 ∨ op = 0x74 ∨ op = 0x75 then some 4 else none

/-- SYS-class opcodes other than TRAP need system privilege (R4). -/
def opPrivileged (op : Nat) : Bool := opClass op = .sys && op ≠ 0x7A

/-- The opcodes that issue work to an engine (R30). -/
def opEngine (op : Nat) : Bool :=
  (0x50 ≤ op && op ≤ 0x5D) || [0x38, 0x4C, 0x4D, 0x4E, 0x73, 0x74, 0x75, 0x76, 0x77, 0x78, 0x79].contains op

end Sys2Proof
end

