-- ==== Sys2Proof/Machine/State.lean ====
section
/-! DEFINITION. The machine's state as plain data: everything the spec gives one Xojor Q9 package, and its state after reset.

Sparse tables are keyed by numbers: a warp is cluster × 32 + slot, a fibre is warp × 32 + lane, a v register is
fibre × 128 + physical number, a k register is warp × 64 + number. A key that a table does not list has the value
after reset that the table's field names. -/

namespace Sys2Proof.Machine

/-! ### Registers, fibres and warps (R12 to R48) -/

/-- The three states of a v or k register (R42); a poisoned one keeps its 2-bit origin (R339). -/
inductive RegSt where
  | full
  | empty
  | poisoned (origin : Nat)
deriving DecidableEq, Repr, Inhabited

/-- One v or k register: state, value, and the floor a renewal reply left on it (R108). -/
structure Cell where
  st : RegSt
  val : Word
  floor : Option Nat
deriving DecidableEq, Repr, Inhabited

/-- Full and zero, as at launch (R12). -/
def Cell.zero : Cell := ⟨.full, 0, none⟩

/-- What a fibre that is not runnable waits for (R13, R192). -/
inductive Wait where
  | none
  | regs (v k : List Nat)                -- registers it found empty, by key (R43, R44)
  | bar (b : Nat) (ph : Bool)            -- a named barrier's phase (R202)
  | barFault (b : Nat)                   -- its wait has returned on a poisoned phase; COPY_FAULT is raised once the warp runs (R204)
  | sem (key : Nat)                      -- a semaphore, by its table key (R208)
  | xacq                                 -- the cluster's pool of extended blocks (R210)
  | xrel                                 -- the producers of XREL (R41)
  | fpc                                  -- the CVTB and VNLD flags of R39
  | rgne (region : Nat)                  -- the other members of a region (R217)
  | rollback (region : Nat)              -- a rollback under way (R218)
  | snapshot (keys : List Nat) (ks : List Nat) -- empty registers of a reopened region's preserved set (R219)
  | check (id : Nat)                     -- a checkpoint of a redundant pair (R354)
  | forwarded (pair fibre : Nat)         -- a value the leading copy forwards (R355)
  | doubled (pair fibre : Nat)           -- the leading copy's issue of an instruction that it alone performs (R355)
deriving DecidableEq, Repr, Inhabited

/-- One fibre (R12). -/
structure Fibre where
  pc : DWord
  hdr : DWord          -- address of the header of the clause it stands in; equal to pc at a clause start (R128, R340)
  hword : DWord        -- that header's word, whose class and count go on to bind it (R128)
  preds : BitVec 7     -- p0–p6
  wb : BitVec 7        -- window base
  deferred : Bool      -- deferral flag (R18)
  passed : Nat         -- passed-over count (R17)
  wait : Wait
  regions : List Nat   -- open recovery regions, innermost first (R214)
  quitting : Bool      -- it performs QUIT inside open regions (R198)
  sigCount : Word      -- stores since its last checkpoint (R353)
  sigPart : DWord      -- partial signature (R353)
  opens : Nat          -- regions it has opened: the model's name of a region's instance (R354)
deriving DecidableEq, Repr, Inhabited

/-- The state field of XS_STATUS (R292). -/
inductive WState where
  | ready | parked | stopped | halted | ended
deriving DecidableEq, Repr, Inhabited

/-- A selected batch (R17): its lanes, and the issue port it holds once its clause runs (R126). -/
structure Batch where
  lanes : List Nat
  port : Option Nat
deriving DecidableEq, Repr, Inhabited

/-- An instruction that waits holding its issue port: the step it has reached, the requests it waits for, a value it carries, its word. -/
structure Hold where
  phase : Nat
  ids : List Nat
  arg : Nat
  word : DWord
deriving DecidableEq, Repr, Inhabited

/-- Why a warp is parked (R13, R328): the virtual page, and the load that waits for it, if one does. -/
structure Park where
  page : Nat
  load : Option (Nat × Nat)   -- the load record and lane, for a parked load
deriving DecidableEq, Repr, Inhabited

/-- Where and why a warp trapped: what a return from the trap needs, which a cleared record does not lose (R306, R340). -/
structure StopAt where
  cause : Nat
  origin : Nat
  lane : Nat
  pc : DWord
  word : DWord
  lanes : List Nat            -- the batch that trapped
deriving DecidableEq, Repr, Inhabited

def StopAt.none : StopAt := ⟨0, 0, 0, 0, 0, []⟩

/-- One warp (R14, R37, R124, R292, R317). -/
structure Warp where
  wg : Nat                    -- workgroup record
  num : Nat                   -- %warp
  vf : Nat                    -- %vf
  launch : Nat                -- %launch
  priv : Bool
  temporal : Bool
  state : WState
  lanes : Nat                 -- %nlanes
  ext : Bool                  -- holds an extended block
  extOwn : Bool               -- that block is of the workgroup's reserve
  fpc : Word
  iter : Word
  seq : Word
  view : Word
  width : Word
  rank : Word
  tag : Nat                   -- current draft tag, path × 16 + token (R179)
  batch : Option Batch
  hold : Option Hold
  loads : Nat                 -- the three counters of R124
  stores : Nat
  engines : Nat
  flagsDue : List Nat         -- CVTB and VNLD records whose flags are still to come (R39)
  yields : Bool               -- YIELD executed in this clause (R209)
  last : Option Nat           -- the port at whose next selection it is placed last (R125)
  lastIssue : Nat             -- order stamp of its last port grant (R317)
  lastCycle : Nat             -- cluster cycle of its last issue (R317)
  exempt : Bool               -- exempt from the throttle (R317)
  victims : List Nat          -- victim tags, newest first (R317)
  score : Nat                 -- lost-locality score (R317)
  parks : List Park
  fatal : List (Nat × Nat)    -- pages whose translation was fatal or declined, with the detail (R328)
  needs : List Nat            -- pages its next issue waits to have walked
  stop : StopAt               -- its last trap
deriving DecidableEq, Repr, Inhabited

/-- The trap record (R340). -/
structure TrapRec where
  cause : Nat
  flags : Nat
  lane : Nat
  detail : Nat
  launch : Nat
  origin : Nat
  pc : DWord
  header : DWord
  address : DWord
  workgroup : Nat
  region : Nat
  word : DWord
  cycles : DWord
deriving DecidableEq, Repr, Inhabited

def TrapRec.zero : TrapRec := ⟨0, 0, 0, 0, 0, 0, 0, 0, 0, 0, 0, 0, 0⟩

/-! ### Clusters and workgroups (R23 to R28, R41, R71, R89, R94, R200) -/

/-- A cached translation (R326): a leaf with its attributes. -/
structure Tlb where
  vf : Nat
  page : Nat           -- virtual address of the leaf div 4096
  span : Nat           -- 4 KiB pages that the leaf maps
  frame : Nat          -- physical address of the leaf
  write : Bool
  cow : Bool
  kind : Nat
  lease : Nat
deriving DecidableEq, Repr, Inhabited

/-- One cluster. -/
structure Cluster where
  cyc : DWord                  -- cycle counter (R38)
  ticked : DWord               -- the count at its last 1,024-cycle tick (R82)
  decayed : DWord              -- the count at its last locality decay (R317)
  sliceFrom : DWord            -- the count at which its time slice began (R318)
  pts : BitVec 16
  port0 : Option Nat           -- the slot that holds each issue port (R126)
  port1 : Option Nat
  stamp : Nat                  -- source of order stamps for R317
  pool : Nat                   -- free extended blocks (R41)
  xqueue : List (Nat × List Nat) -- warps waiting for a block, in arrival order (R210)
  unretired : List (Nat × Nat) -- renewal replies not yet retired: warp, wts (R108)
  saving : Bool                -- a save of a pre-emption waits for the pager (R319)
  sliceLen : Nat               -- the length of the slice that runs, in units of 1,024 cycles (R293)
deriving DecidableEq, Repr, Inhabited

/-- A group-table entry (R27). -/
structure Group where
  wg : Nat
  num : Nat
  count : Nat
  role : Nat
  mask : Word
deriving DecidableEq, Repr, Inhabited

/-- A range-lock entry (R89), with the operation that holds it. -/
structure Lock where
  isGlobal : Bool
  dest : Bool
  idx : Nat            -- placement index of the workgroup
  bar : Nat
  first : Nat
  last : Nat
  wg : Nat
  op : Nat
deriving DecidableEq, Repr, Inhabited

/-- A named barrier (R200). -/
structure Barrier where
  configured : Bool
  poisoned : Bool
  phase : Bool
  arrivals : Nat
  expected : Nat
  extra : Nat
  faulted : Bool       -- a faulted arrival came in this phase (R204)
deriving DecidableEq, Repr, Inhabited

def Barrier.zero : Barrier := ⟨false, false, false, 0, 0, 0, false⟩

/-- A stash window (R74): its sectors' timestamps, its filled and dirty bytes with the regions that wrote them (R187). -/
structure StashByte where
  dirty : Bool
  region : Option Nat
deriving DecidableEq, Repr, Inhabited

structure Stash where
  scr : Nat
  va : Nat
  len : Nat
  pins : List Tlb                  -- pinned translations (R186)
  sectors : List (Nat × Nat × Nat) -- sector, wts, rts
  bytes : Tab StashByte            -- by byte offset in the window
deriving DecidableEq, Repr, Inhabited

/-- Where a placed workgroup stands. -/
inductive WgPhase where
  | resident
  | stopping       -- its pre-emption is under way: no warp of it issues (R319)
  | committing     -- its version is being published at exit (R87)
  | saved          -- pre-empted: its state stands in its frame, the virtual cluster 192 + its number (R319)
  | failed         -- ended by an error; WORKGROUP_RELAUNCH decides (R351)
deriving DecidableEq, Repr, Inhabited

/-- One workgroup: its launch, its share of a cluster, and the marks of R351 and R352. -/
structure Wg where
  launch : Nat
  lin : Nat                    -- linear index (R309)
  x : Nat
  y : Nat
  z : Nat
  copy : Nat                   -- 0 plain, 1 leading, 2 trailing (R352)
  pair : Nat                   -- pair record of a redundant copy
  cluster : Nat                -- 192 + its number while it is pre-empted
  left : Nat                   -- the cluster it was last placed on (R320)
  idx : Nat                    -- placement index (R89)
  warps : List Nat             -- physical slots, in warp-number order (R24)
  rail : Nat                   -- first scratchpad rail
  rails : Nat
  accRow : Nat
  accRows : Nat
  slots : Nat                  -- layout-record slots granted (R25)
  reserve : Nat                -- reserved extended blocks not taken (R210)
  alloc : Nat                  -- scratchpad bytes
  stash : List Stash
  version : Option Nat
  outside : Bool               -- it has made an outside effect (R176)
  failedOn : List Nat          -- clusters it failed on (R351)
  relaunches : Nat
  phase : WgPhase
  cause : Nat                  -- the trap cause that ended it, else 0
  origin : Nat
  lane : Nat
  sigs : List (Nat × Nat × Nat) -- counts and partials of fibres that have ended: fibre number, count, partial (R354)
deriving DecidableEq, Repr, Inhabited

/-! ### Versions, regions and redundant pairs (R85 to R88, R214 to R221, R352 to R355) -/

/-- Whom a version belongs to (R85). -/
inductive VOwner where
  | region (id : Nat)
  | window (seq number : Nat)
  | workgroup (wg : Nat)
deriving DecidableEq, Repr, Inhabited

inductive VState where
  | isOpen | committing | aborting
deriving DecidableEq, Repr, Inhabited

/-- A tagged shadow byte of a speculative window (R179): tag, address, byte. -/
structure Tagged where
  tag : Nat
  addr : Nat
  byte : Byte
deriving DecidableEq, Repr, Inhabited

/-- A reduction contribution or a sample store held until publication (R176). -/
structure Held where
  addr : Nat           -- physical address
  va : Nat
  kind : Nat           -- page kind of R323
  word : Word
deriving DecidableEq, Repr, Inhabited

/-- An open version (R85). -/
structure Version where
  die : Nat
  parent : Option Nat
  owner : VOwner
  state : VState
  pts : Nat                -- pts of the committer
  cluster : Nat            -- cluster of the committer
  vf : Nat
  launch : Nat
  shadow : Tab Byte        -- by physical address
  tagged : List Tagged
  held : List Held
  bad : List Nat           -- 64-bit words found uncorrectable (R350)
  spilled : Nat            -- lines in the spill area (R88)
  after : Nat              -- what its publication completes: 0 a region's RGNE, 1 SPWC, 2 exit
deriving DecidableEq, Repr, Inhabited

/-- What a rollback restores of one member (R214, R360). -/
structure Undo where
  fibre : Nat
  preds : BitVec 7
  wb : BitVec 7
  sigCount : Word
  sigPart : DWord
deriving DecidableEq, Repr, Inhabited

/-- A recovery region (R214). -/
structure Region where
  warp : Nat
  wg : Nat
  members : List Nat           -- fibres
  target : DWord
  limit : Nat
  retry : Nat
  version : Nat
  parent : Option Nat
  undo : List Undo
  vRegs : Tab Cell             -- preserved v registers by key (R216)
  kRegs : Tab Cell             -- preserved k registers by key
  ranges : List (Nat × Nat)    -- preserved scratchpad ranges: offset, length
  bytes : Tab Byte             -- their bytes, by scratchpad offset
  arrived : List Nat           -- members that have reached RGNE (R217)
  error : Option Nat           -- the fibre of a detected error that waits for its rollback (R218)
  cause : Nat                  -- 0 poison or shadow error, 1 redundancy mismatch
  opened : Nat                 -- the record number at its opening: engine operations from here on are of its time (R218)
  inst : Nat                   -- its instance, the same in both copies of a pair (R354)
deriving DecidableEq, Repr, Inhabited

/-- One forwarded result (R355). -/
structure Fwd where
  fibre : Nat          -- warp number × 32 + lane
  vals : List Nat
  ready : Bool
  opId : Nat           -- the leading copy's operation, for its arrival
deriving DecidableEq, Repr, Inhabited

/-- A redundant pair (R352). -/
structure Pair where
  lead : Nat
  trail : Nat
  slack : Nat
  buffer : List Fwd
  mismatches : List (Nat × Nat × Nat) -- checkpoint pc, region instance, count (R354)
deriving DecidableEq, Repr, Inhabited

/-- A checkpoint that waits for both copies (R354). -/
structure Check where
  pair : Nat
  kind : Nat           -- 0 RGNE, 1 atomic, 2 exit, 3 slack
  pc : Nat
  region : Nat         -- the instance of the innermost region, 0 for none
  fibres : List Nat    -- warp number × 32 + lane, the same in both copies
  lead : List Nat      -- those of the leading copy that stand at it
  trail : List Nat
  done : Bool          -- compared, and matched
deriving DecidableEq, Repr, Inhabited

/-! ### Requests in flight -/

/-- A register destination: a v register by key or a k register by key, one word or a pair. -/
structure Dst where
  isK : Bool
  key : Nat
  wide : Bool
deriving DecidableEq, Repr, Inhabited

/-- How far one lane of a load has come. -/
inductive LPhase where
  | wait                                   -- not yet translated or not yet renewed
  | parked                                 -- its page faulted
  | bound (data : Nat) (poison : Option Nat) (wts : Option Nat) -- data bound, not yet in the register
  | refused (origin : Nat)                 -- fatal, declined or refused: the destination is to be poisoned
  | done
deriving DecidableEq, Repr, Inhabited

/-- One lane's access of a long-latency producer. -/
structure Acc where
  lane : Nat
  dst : Option Dst
  va : Nat             -- virtual address, or scratchpad offset
  size : Nat
  ty : Nat             -- type code, for the extension of the value
  phase : LPhase
deriving DecidableEq, Repr, Inhabited

/-- What a long-latency producer reads (R42). -/
inductive LKind where
  | mem | scratch | value | atomic
deriving DecidableEq, Repr, Inhabited

/-- A long-latency producer in flight. -/
structure Load where
  warp : Nat
  kind : LKind
  accs : List Acc
  ord : Nat
  acquire : Bool
  counted : Nat        -- 1 load counter, 2 engine counter, 0 neither (R124)
  flags : Nat          -- %fpc bits to OR at completion (R163)
  vecResult : Bool     -- counted by unit 9 of XS_ERRINJ (R356)
  tag : Nat            -- the draft tag at issue (R179)
deriving DecidableEq, Repr, Inhabited

/-- A request travelling to a line's home. -/
inductive FKind where
  | write
  | contribution (kind : Nat) (whole : Bool)   -- page kind; whether it goes past the die L2 to the home
  | sample
  | atomic (op ty : Nat) (value compare : Nat) (load : Option Nat) (lane : Nat)
deriving DecidableEq, Repr, Inhabited

structure Flight where
  kind : FKind
  warp : Nat           -- issuing warp
  wg : Nat
  cluster : Nat
  master : Nat
  vf : Nat
  context : Nat        -- launch identifier, or 0xFFFFFE for a die unit or the host (R347)
  addr : Nat           -- physical address of the first byte, all bytes in one line
  va : Nat
  bytes : List (Nat × Byte)
  pts : Nat
  lease : Nat
  view : Nat
  window : Option (Nat × Nat × Nat) -- sequence, window number and tag of a .spw store (R262)
  after : List Nat     -- requests that must be acknowledged before it leaves (R83, R103)
  merged : Bool
  wts : Nat
  store : Option Nat   -- the store record it belongs to (R124)
  bad : List Nat       -- 64-bit words that arrive marked poisoned (R345)
deriving DecidableEq, Repr, Inhabited

/-- An entry of a warp's store counter (R124). -/
structure StoreRec where
  warp : Nat
  left : List Nat      -- requests not yet acknowledged
deriving DecidableEq, Repr, Inhabited

/-! ### Engine operations and streams (R222 to R249) -/

inductive EPhase where
  | running
  | suspended (page : Nat)      -- on a page fault (R225)
  | stopping (cause access page : Nat) -- a fatal, declined or refused access: the next event is its faulted arrival
  | claiming                    -- cpyw.exp: a claim is at a home (R372)
  | granted (first : Nat)
  | overflowed
  | sending
  | mirror (lead : Nat)         -- a trailing copy's operation: the leading copy's completes it (R355)
  | done
deriving DecidableEq, Repr, Inhabited

/-- One receiver of a CPYM (R248). -/
structure Part where
  wg : Nat
  state : Nat          -- 0 in flight, 1 completed, 2 faulted, 3 sent nothing
deriving DecidableEq, Repr, Inhabited

/-- An engine operation in flight. -/
structure EngOp where
  opcode : Nat
  ety : Nat
  shape : Nat
  flags : Nat
  aux : Nat
  warp : Nat
  lane : Nat
  wg : Nat
  cluster : Nat
  vf : Nat
  launch : Nat
  bar : Option Nat
  blk : Nat            -- scratchpad offset of its block
  block : List Byte    -- the block as copied at issue (R223)
  layout : List Byte   -- the slot's record as copied at issue
  dst : Option Dst
  chain : List Nat
  order : Nat          -- issue order
  phase : EPhase
  progress : Nat       -- elements already moved
  seq : Nat            -- the bound sequence, for the sequence engine
  view : Nat
  window : Nat         -- claimed stream window
  tried : List Nat     -- destinations a claim has tried (R372)
  target : Nat         -- the destination being claimed
  parts : List Part
  note : List Nat      -- what the operation settled at issue
  fibre : Nat
deriving DecidableEq, Repr, Inhabited

/-- A subscriber of a stream (R238). -/
structure Sub where
  cluster : Nat
  wg : Nat
  replay : Nat
  land : Nat
  op : Nat
  claimed : Nat        -- consumptions claimed
  consumed : Nat       -- consumptions completed
deriving DecidableEq, Repr, Inhabited

/-- A row in a batch-forming queue (R264). -/
structure Row where
  op : Nat
  wg : Nat
  offset : Nat         -- of the row in its contributor's scratchpad
  result : Nat
  bar : Nat
  entered : Nat        -- queue-clock cycle
  scattered : Bool
deriving DecidableEq, Repr, Inhabited

/-- An open stream (R237). -/
structure Stream where
  ety : Nat
  job : Option Nat
  subs : Nat
  h : Nat
  len : Nat
  origin : Nat
  pitch : Nat
  windows : Nat
  deadline : Nat
  cluster : Nat        -- of the opener
  wg : Nat
  vf : Nat
  members : List Sub
  delivered : Nat      -- windows written into the landing slots
  closing : Option Nat -- the SCLOSE operation
  batches : List (List Row) -- the windows a job has formed, oldest first
  pending : List Row   -- rows not yet in a closed batch
deriving DecidableEq, Repr, Inhabited

/-! ### Semaphores, sequences, the logit filter -/

/-- A semaphore-table entry (R205), with its waits in order (R208). -/
structure SemWait where
  warp : Nat
  lanes : List Nat
  n : Nat
deriving DecidableEq, Repr, Inhabited

structure Sem where
  viewValid : Bool
  vf : Nat
  posterPkg : Nat
  posterCluster : Nat
  waiterPkg : Nat
  waiterCluster : Nat
  view : Word
  count : Nat
  ts : Nat              -- logical time of the latest post, to which a consuming wait raises its cluster (R101)
  queue : List SemWait
  launch : Nat
deriving DecidableEq, Repr, Inhabited

/-- One page of a migration (R258). -/
structure Move where
  page : Nat
  old : Nat
  new : Option Nat
  copied : Bool
  waiting : Bool       -- declined: it waits for a page to return to the pool
deriving DecidableEq, Repr, Inhabited

structure Migration where
  op : Nat             -- the SEQW operation
  moves : List Move
deriving DecidableEq, Repr, Inhabited

/-- One stack's filter of an arming (R266). -/
structure Filter where
  m2 : Word
  s : Word
  count : Nat
  short : List (Nat × Nat)    -- token and y, best first
deriving DecidableEq, Repr, Inhabited

/-- An arming of the logit filter (R265). -/
structure Arm where
  vf : Nat
  topk : Nat
  vocab : Nat
  logits : Nat
  invt : Word
  penalty : Nat
  invalid : Bool
  poisoned : Bool
  filters : List Filter
deriving DecidableEq, Repr, Inhabited

/-! ### Translation and faults (R322 to R332) -/

/-- Who asks for a walk. -/
inductive Asker where
  | warp (w access : Nat)          -- an instruction or fetch at issue, with its access byte
  | load (id lane : Nat)
  | engine (id : Nat)
  | save (wg : Nat)
  | record (die vf queue : Nat)    -- a launch-unit read
  | migration (seq page : Nat)
  | cow (w : Nat)
deriving DecidableEq, Repr, Inhabited

/-- A cached table pointer of a die's walker (R326): the table reached below `level` for the addresses `base`. -/
structure WalkPtr where
  die : Nat
  vf : Nat
  level : Nat
  base : Nat
  table : Nat
deriving DecidableEq, Repr, Inhabited

/-- A requested walk. -/
structure Walk where
  who : Asker
  die : Nat
  cluster : Nat        -- whose TLB the translation fills; engine TLBs are 192 + cluster
  vf : Nat
  page : Nat           -- virtual address div 4096
  access : Nat         -- bits of R330
deriving DecidableEq, Repr, Inhabited

/-- A fault entry: waiting to be written, or pending in the queue (R329 to R332). -/
structure PageFault where
  vf : Nat
  page : Nat
  master : Nat
  access : Nat
  cause : Nat
  detail : Nat
  level : Nat
  warp : Nat           -- handle, or 0xFFFFFFFF
  launch : Nat
  die : Nat
  number : Option Nat  -- its entry number once written
  askers : List Asker
deriving DecidableEq, Repr, Inhabited

/-! ### Caches (R76 to R84) -/

/-- An L1 line's lease copy, its placement in the set and its reader mask (R76). -/
structure L1Line where
  wts : Nat
  rts : Nat
  leased : Bool        -- it holds a copy from L2; else only masked bytes
  way : Nat
  used : Nat
  readers : Nat        -- reader mask
  vf : Nat
  lease : Nat
  kind : Nat
  filler : Option Nat  -- the warp whose fill brought it in (R317)
deriving DecidableEq, Repr, Inhabited

/-- A byte held in L1: dirty ones name the workgroup that wrote them (R76). -/
structure L1Byte where
  val : Byte
  writer : Option Nat
deriving DecidableEq, Repr, Inhabited

/-- An L2 line (R80, R347, R381). -/
structure L2Line where
  wts : Nat
  rts : Nat
  resident : Bool
  filled : Bool        -- it holds all its bytes, not the written ones alone
  way : Nat
  used : Nat
  tagged : Bool        -- dirty, with an owner tag
  vf : Nat
  context : Nat
  fmt : Option Nat     -- the format window it was read through
  partials : List Nat  -- holders of partials: cluster, or 192 + die (R92)
  pending : Bool       -- held for an outermost commit (R87)
deriving DecidableEq, Repr, Inhabited

/-- A byte held in L2. -/
structure L2Byte where
  val : Byte
  dirty : Bool
deriving DecidableEq, Repr, Inhabited

/-- A remote line's copy in the requesting die's L2 (R79). -/
structure Remote where
  wts : Nat
  rts : Nat
deriving DecidableEq, Repr, Inhabited

/-- A partial of a reduction word (R92). -/
structure Partial where
  kind : Nat
  word : Word
  vf : Nat
deriving DecidableEq, Repr, Inhabited

/-- A planted or arisen error (R345, R356). -/
structure Plant where
  unit : Nat
  loc : Nat
  bit : Nat
  double : Bool
  die : Nat
  present : Bool       -- planted; else it waits for the next write (R356)
  count : Nat          -- unit 9: results still to count
deriving DecidableEq, Repr, Inhabited

/-! ### Launches (R309 to R321) -/

/-- A record in a launch queue (R311). -/
structure QRec where
  bytes : List Byte
  vf : Nat
  host : Nat                 -- endpoint of the launch's root
  warp : Option Nat          -- the issuing warp of a LAUNCH
  op : Option Nat            -- its engine operation
  fromHost : Bool
  accepted : Option Nat      -- the launch identifier once accepted
  waited : Nat               -- cycle at which it reached the head, or of the last placement
  age : Nat                  -- priority steps gained (R312)
  blocked : Option Nat       -- the page its check waits for
  lost : Bool                -- a page of it was fatal or declined
deriving DecidableEq, Repr, Inhabited

/-- A group descriptor and a semaphore request as read at acceptance (R310). -/
structure SemReq where
  poster : Nat
  waiter : Nat
  offset : Nat
deriving DecidableEq, Repr, Inhabited

/-- An accepted launch. -/
structure Launch where
  bytes : List Byte
  vf : Nat
  die : Nat
  queue : Nat
  host : Nat
  op : Option Nat            -- the LAUNCH operation that arrives at its end (R213)
  groups : List (Nat × Nat × Nat) -- member mask, number, role
  sems : List SemReq
  image : List Byte
  pool : List Nat            -- the dies of a sequence's pool at acceptance (R253)
  placed : List Nat          -- linear indexes placed
  retired : List Nat
  ends : List (Nat × Nat × Nat) -- linear index, end code, cause of workgroups that failed
  ended : Nat                -- workgroups that have ended in any way
  suspended : Bool           -- placement suspended by a halt (R343)
  terminated : Bool          -- ended by R348
  complete : Bool            -- its completion record is written
  bound : List Nat           -- semaphore keys bound
deriving DecidableEq, Repr, Inhabited

/-! ### The fabric, bring-up and the host (R357, R358, R364 to R380) -/

/-- A port's link (R357). -/
structure Port where
  stopped : Bool       -- beats stopped by unit 10 of XS_ERRINJ
  dead : Bool
  trained : Bool
  resent : Nat         -- beats resent by the link
deriving DecidableEq, Repr, Inhabited

def Port.down : Port := ⟨false, false, false, 0⟩

/-- A packet to another package, kept until it is acknowledged; its number is that of the request it carries (R358, R365). -/
structure Packet where
  dest : Nat           -- global die number
  kind : Nat           -- 1 write, 2 atomic (R366)
  port : Nat           -- its next hop
  since : Nat          -- fabric cycle from which it waits here
  queued : Bool        -- false once it has been dropped and its undelivered reply is under way
deriving DecidableEq, Repr, Inhabited

/-- What the part sends to a host: a notice or a response (R367, R368). -/
structure Out where
  host : Nat
  kind : Nat           -- 1–4 the notices of R368; 12 a link-state update, sent on the port that `host` names;
                       -- 16 register read, 17 register write, 18 memory, 19 launch, 20 refused
  data : List Nat
deriving DecidableEq, Repr, Inhabited

/-- A register write on its way from the host (R305, R367). -/
structure RegWrite where
  host : Nat
  word : Nat
  sel : Nat
  wide : Nat           -- bytes written: 4, 8, 16 or 32
  data : Nat
deriving DecidableEq, Repr, Inhabited

/-- An expert-table entry (R370). -/
structure Expert where
  control : Nat
  vf : Nat
  replicas : List Nat
  overflow : Nat
deriving DecidableEq, Repr, Inhabited

def Expert.zero : Expert := ⟨0, 0, [0, 0, 0, 0], 0⟩

/-- One die's own state (R84, R374, R378, R379). -/
structure Die where
  maxTs : Nat          -- D of R84
  stage : Nat          -- boot stages completed, 0 before stage 0
  failed : Bool        -- both images of a stage failed (R375)
  clock : Nat          -- arithmetic clock in 100 MHz
  governed : Bool      -- the governor delays matrix issue (R378)
  queueClock : Nat     -- cycles of the batch-forming queues' clock
  sampled : Nat        -- governor samples taken
  orders : Nat         -- placements served in the current round of R312
  lastVf : Nat
deriving DecidableEq, Repr, Inhabited

def Die.off : Die := ⟨0, 0, false, 15, false, 0, 0, 0, 0⟩

/-! ### The whole machine -/

/-- Whose turn it is: the schedule chooses, or a named warp issues. -/
inductive Turn where
  | choose
  | issue (warp : Nat)
deriving DecidableEq, Repr, Inhabited

/-- The state of one package. -/
structure State where
  -- the model's own: schedule, free values, the acting warp
  tick : Nat
  freeCount : Nat
  turn : Turn
  actor : Nat
  word : DWord                      -- the word at issue
  nextId : Nat
  -- the package
  package : Nat
  powered : Bool
  failed : Bool                     -- a die-to-die link has lost more lanes than its spares: the package has stopped (R357)
  measured : Tab Nat                -- digests measured at boot, by die × 4 + stage (R374)
  dies : Tab Die
  fabricClock : Nat
  -- warps and their registers
  warps : Tab Warp
  fibres : Tab Fibre
  vRegs : Tab Cell
  kRegs : Tab Cell
  traps : Tab TrapRec
  -- clusters
  clusters : Tab Cluster
  groups : Tab Group                -- cluster × 256 + entry
  locks : Tab Lock                  -- cluster × 64 + entry
  scratch : Tab Byte                -- cluster × 2^21 + byte of the rails
  scratchBad : Tab Bool             -- poisoned 64-bit words, by that key div 8
  acc : Tab Word                    -- cluster × 65536 + row × 64 + column
  accBad : Tab Bool                 -- poisoned 64-bit words, by that key div 2
  veneer : Tab Byte                 -- cluster × 2^24 + row × 256 + column
  veneerBad : Tab Bool              -- by that key div 8
  oldVeneer : Tab (List (Nat × Byte)) -- bytes overwritten while an MMT is in flight, by that key: its number and the byte (R232)
  tlbs : Tab (List Tlb)             -- 0–191 clusters, 192 + cluster × 4 + engine
  -- workgroups
  wgs : Tab Wg
  barriers : Tab Barrier            -- workgroup × 16 + barrier
  layouts : Tab (List Byte)         -- workgroup × 64 + slot
  versions : Tab Version
  regions : Tab Region
  pairs : Tab Pair
  checks : Tab Check
  shadowCap : Nat                   -- shadow lines a version may hold in L2 (R88)
  -- requests in flight
  loads : Tab Load
  flights : Tab Flight
  stores : Tab StoreRec
  engines : Tab EngOp
  walks : Tab Walk
  walkCache : List WalkPtr
  -- memory
  hbm : Tab Byte                    -- by physical address
  oldWords : Tab (List (Nat × Nat)) -- words overwritten while a launch runs, by address div 8: its number and the word (R129)
  memBad : Tab Bool                 -- poisoned 64-bit words of L2 and HBM, by address div 8 (R346)
  l2 : Tab L2Line                   -- by address div 256
  l2Bytes : Tab L2Byte              -- by physical address
  remotes : Tab Remote              -- die × 2^44 + line
  remoteBytes : Tab Byte            -- die × 2^52 + address
  l1 : Tab L1Line                   -- cluster × 2^44 + line
  l1Bytes : Tab L1Byte              -- cluster × 2^52 + address
  l1Parts : Tab Partial             -- cluster × 2^50 + address div 4
  l2Parts : Tab Partial             -- die × 2^50 + address div 4
  sliceTs : Tab Nat                 -- largest timestamp issued by slice die × 48 + slice (R84)
  retired : Tab (List Nat)          -- retired 64 KiB pages of a die (R307)
  quarantine : Tab (List (Nat × Nat)) -- (set, way) by die × 48 + slice (R349)
  plants : List Plant
  -- semaphores, streams, sequences
  sems : Tab Sem                    -- die × 4096 + index
  streams : Tab Stream              -- die × 64 + stream
  seqBase : Nat                     -- physical address of the sequence table (R250)
  countBase : Nat                   -- physical address of the page-count table (R252)
  migrations : Tab Migration
  arms : Tab Arm
  lostWindows : Tab Bool            -- sequences whose open window is marked lost (R350)
  -- translation faults
  faults : Tab PageFault
  -- system registers (R290)
  vfsel : Tab Word
  slice : Tab Word
  ptroot : Tab DWord
  vfcfg : Tab (BitVec 128)
  vfmem : Tab (BitVec 128)          -- virtual function × 8 + n
  fmtwin : Tab (BitVec 256)
  errinj : Tab (BitVec 128)
  acctab : Tab (BitVec 128)         -- target × 512 + master: write mask above read mask
  acclog : Tab (BitVec 128)
  brkpt : Tab DWord                 -- cluster × 16 + n
  dbg : Tab DWord
  vfHost : Tab Nat                  -- endpoint that last wrote XS_VFCFG (R368)
  regQueue : List RegWrite
  -- launch
  queues : Tab (List QRec)          -- (die × 64 + vf) × 16 + queue
  lastQueues : Tab Nat              -- queue last served, by die × 64 + vf (R312)
  launches : Tab Launch
  nextLaunch : Nat
  issuedLaunches : List (Nat × Nat) -- identifier and virtual function of every launch issued
  -- the fabric and the host
  ports : Tab Port                  -- 0–17 Dzitex, 18–49 Ethernet
  linkSeen : Tab Nat                -- package × 64 + port: highest update number held
  linkNumber : Nat                  -- this package's update number
  drain : Option (Nat × Nat)        -- round and the fabric cycle it began
  packets : Tab Packet
  experts : Tab Expert
  loadCounters : Tab Nat            -- (die × 65536 + expert) × 4 + replica
  rowsWritten : Tab (List Nat)      -- rows of a row buffer written, by descriptor address
  dropped : Nat                     -- packets dropped and logged as refused (R366)
  out : List Out
  halts : List Nat                  -- launches that a debugger halt holds stopped (R285)
  stopDue : List (Nat × Bool)       -- warps that a halt stops once they finish the instruction they hold a port for; by ASSERT
  stepping : Option Nat             -- the cluster whose step command runs
  signing : Nat                     -- reports signed
deriving DecidableEq, Repr

/-- Faults: the model has none of its own. Every behaviour the spec describes, traps included, is a next state. -/
inductive Fault where
  /-- Raised by nothing: the spec names no access that stops the whole package. Safe. -/
  | none
deriving DecidableEq, Repr

/-- Refusals. -/
inductive Refusal where
  /-- Raised by the dispatcher's arm of an operation that has no meaning yet. Safe: it proves nothing. -/
  | notModelled (mnemonic : String)
deriving DecidableEq, Repr

/-- A cluster after reset. -/
def Cluster.reset : Cluster := ⟨0, 0, 0, 0, 0, none, none, 0, 32, [], [], false, 0⟩

/-- An access-table entry after reset (R302): master 406 has every right, no other master any. -/
def acctabReset (master : Nat) : BitVec 128 := if master = 406 then BitVec.allOnes 128 else 0

/-- The package right after reset: unpowered, nothing listed anywhere, the registers at their reset values. -/
def State.reset : State where
  tick := 0
  freeCount := 0
  turn := .choose
  actor := 0
  word := 0
  nextId := 1
  package := 0
  powered := false
  failed := false
  measured := []
  dies := []
  fabricClock := 0
  warps := []
  fibres := []
  vRegs := []
  kRegs := []
  traps := []
  clusters := []
  groups := []
  locks := []
  scratch := []
  scratchBad := []
  acc := []
  accBad := []
  veneer := []
  veneerBad := []
  oldVeneer := []
  tlbs := []
  wgs := []
  barriers := []
  layouts := []
  versions := []
  regions := []
  pairs := []
  checks := []
  shadowCap := 4096
  loads := []
  flights := []
  stores := []
  engines := []
  walks := []
  walkCache := []
  hbm := []
  oldWords := []
  memBad := []
  l2 := []
  l2Bytes := []
  remotes := []
  remoteBytes := []
  l1 := []
  l1Bytes := []
  l1Parts := []
  l2Parts := []
  sliceTs := []
  retired := []
  quarantine := []
  plants := []
  sems := []
  streams := []
  seqBase := 0x40000000
  countBase := 0x41000000
  migrations := []
  arms := []
  lostWindows := []
  faults := []
  vfsel := []
  slice := []
  ptroot := []
  vfcfg := []
  vfmem := []
  fmtwin := []
  errinj := []
  acctab := []
  acclog := []
  brkpt := []
  dbg := []
  vfHost := []
  regQueue := []
  queues := []
  lastQueues := []
  launches := []
  nextLaunch := 1
  issuedLaunches := []
  ports := []
  linkSeen := []
  linkNumber := 0
  drain := none
  packets := []
  experts := []
  loadCounters := []
  rowsWritten := []
  dropped := 0
  out := []
  halts := []
  stopDue := []
  stepping := none
  signing := 0

end Sys2Proof.Machine
end

