-- ==== Sys2Proof/Machine/Tab.lean ====
section
/-! DEFINITION. The operations of the sparse tables in which every large piece of state is kept. -/

namespace Sys2Proof

/-- The value stored under a key, if the table lists it. -/
def Tab.look {β : Type} : Tab β → Nat → Option β
  | [], _ => none
  | (k', v) :: t, k => if k = k' then some v else Tab.look t k

/-- The value under a key, or the default when the table does not list it. -/
def Tab.get {β : Type} (t : Tab β) (d : β) (k : Nat) : β := (Tab.look t k).getD d

/-- Stores a value under a key, keeping the keys rising. -/
def Tab.put {β : Type} : Tab β → Nat → β → Tab β
  | [], k, v => [(k, v)]
  | (k', v') :: t, k, v =>
    if k < k' then (k, v) :: (k', v') :: t
    else if k = k' then (k, v) :: t
    else (k', v') :: Tab.put t k v

/-- Removes a key. -/
def Tab.del {β : Type} : Tab β → Nat → Tab β
  | [], _ => []
  | (k', v') :: t, k => if k = k' then Tab.del t k else (k', v') :: Tab.del t k

/-- Stores a value; the default value is stored by removing the key. -/
def Tab.set {β : Type} [DecidableEq β] (t : Tab β) (d : β) (k : Nat) (v : β) : Tab β :=
  if v = d then Tab.del t k else Tab.put t k v

/-- Changes the value under a listed key; an absent key stays absent. -/
def Tab.modify {β : Type} : Tab β → Nat → (β → β) → Tab β
  | [], _, _ => []
  | (k', v') :: t, k, f => if k = k' then (k', f v') :: t else (k', v') :: Tab.modify t k f

/-- Applies a function to every listed value. -/
def Tab.mapv {β : Type} (t : Tab β) (f : Nat → β → β) : Tab β := t.map fun p => (p.1, f p.1 p.2)

/-- Keeps the entries a test accepts. -/
def Tab.keep {β : Type} (t : Tab β) (f : Nat → β → Bool) : Tab β := t.filter fun p => f p.1 p.2

/-- The first entry a test accepts. -/
def Tab.first {β : Type} (t : Tab β) (f : Nat → β → Bool) : Option (Nat × β) :=
  t.find? fun p => f p.1 p.2

/-- The least key from `lo` that the table does not list, among the next `fuel` keys. -/
def Tab.fresh {β : Type} (t : Tab β) (lo : Nat) : Nat → Option Nat
  | 0 => none
  | fuel + 1 => if (Tab.look t lo).isNone then some lo else Tab.fresh t (lo + 1) fuel

/-- A key above every listed one. -/
def Tab.next {β : Type} (t : Tab β) : Nat := t.foldl (fun m p => max m (p.1 + 1)) 0

/-- Every listed key is above the bound and the keys rise strictly. -/
def Tab.above {β : Type} : Nat → Tab β → Bool
  | _, [] => true
  | lo, (k, _) :: t => decide (lo ≤ k) && Tab.above (k + 1) t

/-- The canonical form: keys strictly rising. -/
def Tab.wf {β : Type} (t : Tab β) : Bool := Tab.above 0 t

/-- The canonical form of a table with a default: keys strictly rising and no entry equal to the default. -/
def Tab.canon {β : Type} [DecidableEq β] (t : Tab β) (d : β) : Bool :=
  Tab.wf t && t.all fun p => decide (p.2 ≠ d)

end Sys2Proof
end

