-- ==== Sys2Proof/Machine/Ops.lean ====
section
/-! DEFINITION. The named operations over fibres, warps, clauses, barriers and workgroups, and the taking of a trap with the return from one. -/

namespace Sys2Proof.Machine

open Sys2Proof.Num (bits bit)

/-- What one step answers. -/
abbrev Result := Host.Outcome State Fault Refusal

/-! ### Access to the records -/

def clusterOf (sel : Nat) : Nat := sel / 32
def slotOf (sel : Nat) : Nat := sel % 32
def fibreKey (sel lane : Nat) : Nat := sel * 32 + lane
def vKey (fib phys : Nat) : Nat := fib * 128 + phys
def kKey (sel n : Nat) : Nat := sel * 64 + n
def barKey (wg b : Nat) : Nat := wg * 16 + b

/-- The die of a cluster within the package (R1). -/
def dieOf (cluster : Nat) : Nat := cluster / 48

def State.cluster (s : State) (c : Nat) : Cluster := s.clusters.get Cluster.reset c
def State.modCluster (s : State) (c : Nat) (f : Cluster → Cluster) : State :=
  { s with clusters := s.clusters.set Cluster.reset c (f (s.cluster c)) }
def State.die (s : State) (d : Nat) : Die := s.dies.get Die.off d
def State.modDie (s : State) (d : Nat) (f : Die → Die) : State := { s with dies := s.dies.set Die.off d (f (s.die d)) }
def State.modWarp (s : State) (sel : Nat) (f : Warp → Warp) : State := { s with warps := s.warps.modify sel f }
def State.modFibre (s : State) (fib : Nat) (f : Fibre → Fibre) : State := { s with fibres := s.fibres.modify fib f }
def State.modWg (s : State) (g : Nat) (f : Wg → Wg) : State := { s with wgs := s.wgs.modify g f }
def State.vCell (s : State) (key : Nat) : Cell := s.vRegs.get Cell.zero key
def State.setV (s : State) (key : Nat) (c : Cell) : State := { s with vRegs := s.vRegs.set Cell.zero key c }
def State.kCell (s : State) (key : Nat) : Cell := s.kRegs.get Cell.zero key
def State.setK (s : State) (key : Nat) (c : Cell) : State := { s with kRegs := s.kRegs.set Cell.zero key c }
def State.trapRec (s : State) (sel : Nat) : TrapRec := s.traps.get TrapRec.zero sel
def State.setTrap (s : State) (sel : Nat) (r : TrapRec) : State := { s with traps := s.traps.set TrapRec.zero sel r }
def State.barrier (s : State) (wg b : Nat) : Barrier := s.barriers.get Barrier.zero (barKey wg b)
def State.setBarrier (s : State) (wg b : Nat) (x : Barrier) : State :=
  { s with barriers := s.barriers.set Barrier.zero (barKey wg b) x }
def State.emit (s : State) (o : Out) : State := { s with out := s.out ++ [o] }

/-- A fresh record number. -/
def State.fresh (s : State) : Nat × State := (s.nextId, { s with nextId := s.nextId + 1 })

/-- A free value and the state that has used it (log 2). -/
def State.freeValue (s : State) : Nat × State := (Config.free s.freeCount, { s with freeCount := s.freeCount + 1 })

/-- The fibres of a warp with their lanes, ascending. -/
def State.fibresOf (s : State) (sel : Nat) : List (Nat × Fibre) :=
  (List.range 32).filterMap fun l => (s.fibres.look (fibreKey sel l)).map fun f => (l, f)

/-- The warps of a workgroup that stand on its cluster. -/
def State.warpsOf (s : State) (g : Nat) : List Nat := (s.warps.filter fun p => p.2.wg = g).map Prod.fst

/-- The launch record of a warp's launch. -/
def State.hostOf (s : State) (launch : Nat) : Nat := ((s.launches.look launch).map Launch.host).getD 0

/-- The sequence a warp is bound to. -/
def Warp.bound (w : Warp) : Option Nat := if w.seq = 0xFFFFFFFF then none else some (w.seq.toNat % 65536)

/-! ### Guards and predicates (R12) -/

/-- The value of a predicate in a fibre; p7 reads 1. -/
def Fibre.pred (f : Fibre) (p : Nat) : Bool := p = 7 || f.preds.toNat / 2 ^ p % 2 = 1

/-- Writes a predicate; a write naming p7 is discarded. -/
def Fibre.setPred (f : Fibre) (p : Nat) (v : Bool) : Fibre :=
  if p ≥ 7 then f
  else { f with preds := BitVec.ofNat 7 (f.preds.toNat - f.preds.toNat / 2 ^ p % 2 * 2 ^ p + (if v then 2 ^ p else 0)) }

/-- The lanes of a list whose guard is true. -/
def State.guarded (s : State) (sel : Nat) (lanes : List Nat) (g : Fin 8) : List Nat :=
  lanes.filter fun l => ((s.fibres.look (fibreKey sel l)).map fun f => f.pred g.val).getD false

/-- The lanes of the batch that a warp runs. -/
def State.batchLanes (s : State) (sel : Nat) : List Nat :=
  (((s.warps.look sel).bind Warp.batch).map Batch.lanes).getD []

/-! ### Timestamps (R80) -/

/-- a < b by signed difference. -/
def tsLt (a b : Nat) : Bool := let d := (b + 65536 - a % 65536) % 65536; 1 ≤ d && d ≤ 32767

def tsMax (a b : Nat) : Nat := if tsLt a b then b else a
def tsAdd (a n : Nat) : Nat := (a + n) % 65536

/-- Raises a cluster's pts to a timestamp (R82, R83). -/
def State.raisePts (s : State) (c t : Nat) : State :=
  s.modCluster c fun k => { k with pts := BitVec.ofNat 16 (tsMax k.pts.toNat t) }

/-! ### Runnable fibres and the selection of a batch (R13, R17) -/

def State.cellsFilled (s : State) (v k : List Nat) : Bool :=
  v.all (fun x => (s.vCell x).st ≠ .empty) && k.all (fun x => (s.kCell x).st ≠ .empty)

/-- No long-latency producer of the warp is outstanding into physical registers 64–127 (R41). -/
def State.extQuiet (s : State) (sel : Nat) : Bool :=
  s.loads.all fun p => p.2.warp ≠ sel || p.2.accs.all fun a =>
    a.phase = .done || (match a.dst with
      | some d => d.isK || d.key % 128 < 64
      | none => true)

/-- Whether what a fibre waits for has come. -/
def State.waitOver (s : State) (sel : Nat) (f : Fibre) : Bool :=
  match f.wait with
  | .none => true
  | .regs v k => s.cellsFilled v k
  | .xrel => s.extQuiet sel
  | .fpc => ((s.warps.look sel).map fun w => w.flagsDue.isEmpty).getD true
  | .snapshot v k => s.cellsFilled v k
  | .check id => ((s.checks.look id).map Check.done).getD true
  | .forwarded p i => ((s.pairs.look p).map fun q => q.buffer.any fun x => x.fibre = i && x.ready).getD true
  | .doubled p i => ((s.pairs.look p).map fun q => q.buffer.any fun x => x.fibre = i).getD true
  | .bar _ _ | .barFault _ | .sem _ | .xacq | .rgne _ | .rollback _ => false

/-- The runnable fibres of a warp; its own state does not count when the debugger steps it (R343). -/
def State.runnable (s : State) (sel : Nat) (stepped : Bool) : List (Nat × Fibre) :=
  match s.warps.look sel with
  | none => []
  | some w => if w.state = .ready || stepped then (s.fibresOf sel).filter fun p => s.waitOver sel p.2 else []

/-- The least of a list of numbers. -/
def minOf : List Nat → Option Nat
  | [] => none
  | x :: xs => match minOf xs with
    | none => some x
    | some y => some (min x y)

/-- One selection (R17): the lanes of the batch, and the warp's fibres with their selection state renewed. What a runnable fibre waited for is over. -/
def State.selectBatch (s : State) (sel : Nat) (stepped : Bool) : List Nat × State :=
  let cand := s.runnable sel stepped
  let fresh := cand.filter fun p => !p.2.deferred
  let pool := if fresh.isEmpty then cand else fresh
  let hi := pool.foldl (fun m p => max m p.2.passed) 0
  let pcs := (if hi ≥ 2 then pool.filter fun p => p.2.passed = hi else pool).map fun p => p.2.pc.toNat
  match minOf pcs with
  | none => ([], s)
  | some pc =>
    let lanes := (pool.filter fun p => p.2.pc.toNat = pc).map Prod.fst
    let inCand := cand.map Prod.fst
    (lanes, (s.fibresOf sel).foldl (fun s p => s.modFibre (fibreKey sel p.1) fun f =>
      { f with
        deferred := false
        passed := if inCand.contains p.1 && !lanes.contains p.1 then f.passed + 1 else 0
        wait := if inCand.contains p.1 then .none else f.wait }) s)

/-! ### Clauses (R123, R126, R18, R125) -/

/-- A header is valid when its magic is 0b1101, its class 0–5 and bits 39–0 zero (R123). -/
def headerOk (w : Nat) : Bool := bits w 63 60 = 13 && bits w 59 57 ≤ 5 && bits w 39 0 = 0

def headerClass (w : Nat) : Nat := bits w 59 57
def headerCount (w : Nat) : Nat := bits w 56 53

/-- The fibre stands at the last instruction of its clause. -/
def Fibre.atLast (f : Fibre) : Bool := (f.pc - f.hdr).toNat = 8 * (headerCount f.hword.toNat + 1)

/-- The fibre moves to the next word: the next instruction, or after the last one the next header (R126). -/
def Fibre.next (f : Fibre) : Fibre :=
  if f.atLast then { f with pc := f.pc + 8, hdr := f.pc + 8, hword := 0 } else { f with pc := f.pc + 8 }

/-- The fibre goes to a header. -/
def Fibre.goto (f : Fibre) (pc : DWord) : Fibre := { f with pc := pc, hdr := pc, hword := 0 }

/-- Frees the issue port that a warp holds. -/
def State.freePort (s : State) (sel : Nat) : State :=
  let slot := slotOf sel
  s.modCluster (clusterOf sel) fun k =>
    { k with
      port0 := if k.port0 = some slot then none else k.port0
      port1 := if k.port1 = some slot then none else k.port1 }

/-- Ends the clause that a warp runs (R126): the port is freed, a yield places the warp last (R125), and the lanes that took
a backward branch are deferred when a runnable fibre of the warp stands elsewhere (R18). -/
def State.endClause (s : State) (sel : Nat) (back : List Nat) : State :=
  let s := (s.freePort sel).modWarp sel fun w => { w with batch := none, hold := none, last := if w.yields then w.batch.bind Batch.port else none, yields := false }
  let others := s.runnable sel false
  back.foldl (fun s l => s.modFibre (fibreKey sel l) fun f =>
    if others.any fun p => p.2.pc ≠ f.pc then { f with deferred := true } else f) s

/-- The lanes listed move to the next word and stay the batch; the clause ends after its last instruction, when no lane is left, or when
one of them has to wait (R219). -/
def State.advance (s : State) (sel : Nat) (lanes : List Nat) : State :=
  let last := lanes.all fun l => ((s.fibres.look (fibreKey sel l)).map Fibre.atLast).getD true
  let waits := lanes.any fun l => ((s.fibres.look (fibreKey sel l)).map fun f => decide (f.wait ≠ .none)).getD false
  let s := lanes.foldl (fun s l => s.modFibre (fibreKey sel l) Fibre.next) s
  if last || waits then s.endClause sel []
  else s.modWarp sel fun w => { w with hold := none, batch := w.batch.map fun b => { b with lanes := lanes } }

/-- The lanes listed move to the next word, and the clause ends for every lane of the batch (a part of it waits, or has left). -/
def State.advanceEnd (s : State) (sel : Nat) (lanes : List Nat) : State :=
  (lanes.foldl (fun s l => s.modFibre (fibreKey sel l) Fibre.next) s).endClause sel []

/-- Ends the clause before the instruction; the lanes listed wait (R20). -/
def State.blockLanes (s : State) (sel : Nat) (bs : List (Nat × Wait)) : State :=
  (bs.foldl (fun s b => s.modFibre (fibreKey sel b.1) fun f => { f with wait := b.2 }) s).endClause sel []

/-! ### Roles and groups (R27 to R29) -/

/-- The group entries that name a warp, in table order. -/
def State.groupsOf (s : State) (sel : Nat) : List Group :=
  let c := clusterOf sel
  match s.warps.look sel with
  | none => []
  | some w => (s.groups.filter fun p => p.1 / 256 = c && p.2.wg = w.wg && bit p.2.mask.toNat (slotOf sel)).map Prod.snd

/-- The role set: bit 0 none, 1 vector, 2 matrix, 3 copy, 4 control. -/
def State.roleSet (s : State) (sel : Nat) : Nat :=
  let gs := s.groupsOf sel
  if gs.isEmpty then 1 else (List.range 5).foldl (fun m r => if gs.any fun g => g.role = r then m + 2 ^ r else m) 0

/-! ### Regions as seen by a fibre (R37, R214) -/

/-- %rgn: depth in bits 3–0, the innermost region's retry count in bits 7–4. -/
def State.rgnOf (s : State) (f : Fibre) : Nat :=
  f.regions.length + 16 * (match f.regions with
    | [] => 0
    | r :: _ => ((s.regions.look r).map fun g => g.retry % 16).getD 0)

/-- The chain of open versions of a fibre, innermost first: its regions' versions, then its workgroup's (R86, R176). -/
def State.chainOf (s : State) (sel : Nat) (f : Fibre) : List Nat :=
  f.regions.filterMap (fun r => (s.regions.look r).map Region.version) ++
    ((((s.warps.look sel).bind fun w => s.wgs.look w.wg).bind Wg.version).map fun v => [v]).getD []

/-! ### Long-latency producers and their cancellation (R42, R45, R124) -/

/-- Takes a finished load out of the warp's counters. -/
def State.settleLoad (s : State) (id : Nat) : State :=
  match s.loads.look id with
  | none => s
  | some ld =>
    if ld.accs.all fun a => a.phase = .done then
      ({ s with loads := s.loads.del id }).modWarp ld.warp fun w =>
        { w with
          loads := if ld.counted = 1 then w.loads - 1 else w.loads
          engines := if ld.counted = 2 then w.engines - 1 else w.engines
          flagsDue := w.flagsDue.filter fun x => x ≠ id }
    else s

/-- Cancels the accesses of a load that a test picks out. -/
def State.cancelAccs (s : State) (id : Nat) (f : Acc → Bool) : State :=
  ({ s with loads := s.loads.modify id fun ld =>
      { ld with accs := ld.accs.map fun a => if f a then { a with phase := .done } else a } }).settleLoad id

/-- Cancels what a warp's loads still owe its lanes: every access with `f`. -/
def State.cancelLoads (s : State) (sel : Nat) (f : Acc → Bool) : State :=
  ((s.loads.filter fun p => p.2.warp = sel).map Prod.fst).foldl (fun s id => s.cancelAccs id f) s

/-- The warp leaves its parked state when nothing is left that parked it (R13). -/
def State.unparkIfFree (s : State) (sel : Nat) : State :=
  s.modWarp sel fun w => if w.parks.isEmpty && w.state = .parked then { w with state := .ready } else w

/-! ### Ends of fibres, warps and workgroups (R16, R41, R306) -/

/-- Grants extended blocks to waiting warps in arrival order: a block that the warp's workgroup has in reserve, or one of the pool; the
fibres that waited go on after their XACQ (R210). No wait of a halted context returns (R287). -/
def State.grantBlocks (s : State) (c : Nat) : Nat → State
  | 0 => s
  | fuel + 1 =>
    let held (q : Nat × List Nat) : Bool := ((s.warps.look q.1).map fun w => decide (w.state = .halted)).getD false
    let able (q : Nat × List Nat) : Bool := match s.warps.look q.1 with
      | some w => (w.ext || ((s.wgs.look w.wg).map fun g => decide (g.reserve > 0)).getD false) && !held q
      | none => true
    let queue := (s.cluster c).xqueue
    let pick := match queue.find? able with
      | some q => some q
      | none => if (s.cluster c).pool > 0 then queue.head?.filter fun q => !held q else none
    match pick with
    | none => s
    | some q =>
      let w := (s.warps.look q.1).getD default
      let own := !w.ext && ((s.wgs.look w.wg).map fun g => decide (g.reserve > 0)).getD false
      let take := !w.ext && !own && (s.warps.look q.1).isSome
      let s := s.modCluster c fun k => { k with xqueue := k.xqueue.erase q, pool := if take then k.pool - 1 else k.pool }
      let s := if own then s.modWg w.wg fun g => { g with reserve := g.reserve - 1 } else s
      let s := if w.ext then s else s.modWarp q.1 fun w => { w with ext := true, extOwn := own }
      let s := q.2.foldl (fun s l => s.modFibre (fibreKey q.1 l) fun f => { f.next with wait := .none }) s
      s.grantBlocks c fuel

/-- The warp's extended block returns to the reserve or to the pool (R41, R210), where waiting warps take it. -/
def State.dropExt (s : State) (sel : Nat) : State :=
  match s.warps.look sel with
  | none => s
  | some w =>
    if !w.ext then s
    else
      let s := s.modWarp sel fun w => { w with ext := false, extOwn := false }
      let keys := (List.range 32).flatMap fun l => (List.range 64).map fun n => vKey (fibreKey sel l) (64 + n)
      let s := { s with vRegs := s.vRegs.filter fun p => !(p.1 / 4096 = sel && p.1 % 128 ≥ 64 && keys.contains p.1) }
      let s := if w.extOwn then s.modWg w.wg fun g => { g with reserve := g.reserve + 1 }
        else s.modCluster (clusterOf sel) fun k => { k with pool := k.pool + 1 }
      s.grantBlocks (clusterOf sel) 64

/-- The warp ends when its last fibre has gone. -/
def State.endWarpIfEmpty (s : State) (sel : Nat) : State :=
  if (s.fibresOf sel).isEmpty then
    let s := (s.cancelLoads sel fun _ => true).dropExt sel
    ((s.freePort sel).modWarp sel fun w => { w with state := .ended, batch := none, hold := none, parks := [], needs := [] })
  else s

/-- A fibre ends: its slot becomes empty, its loads are cancelled, its registers will start full and zero (R12, R16, R45); the exit
checkpoint of a redundant copy keeps its count and partial (R354). -/
def State.endFibre (s : State) (sel lane : Nat) : State :=
  let fib := fibreKey sel lane
  let s := s.cancelLoads sel fun a => a.lane = lane && (match a.dst with
    | some d => !d.isK
    | none => true)
  let s := match s.fibres.look fib, s.warps.look sel with
    | some f, some w =>
      if f.sigCount = 0 then s
      else s.modWg w.wg fun g => { g with sigs := (w.num * 32 + lane, f.sigCount.toNat, f.sigPart.toNat) :: g.sigs }
    | _, _ => s
  { s with
    fibres := s.fibres.del fib
    vRegs := s.vRegs.filter fun p => p.1 / 128 ≠ fib }

/-- Removes a fibre from every queue it waits in (R218). -/
def State.withdraw (s : State) (sel lane : Nat) : State :=
  let drop (ls : List Nat) := ls.filter fun l => l ≠ lane
  let s := { s with
    sems := s.sems.mapv fun _ x => { x with
      queue := (x.queue.map fun (q : SemWait) => if q.warp = sel then { q with lanes := drop q.lanes } else q).filter fun (q : SemWait) => !q.lanes.isEmpty } }
  s.modCluster (clusterOf sel) fun k => { k with
    xqueue := (k.xqueue.map fun (q : Nat × List Nat) => if q.1 = sel then (q.1, drop q.2) else q).filter fun (q : Nat × List Nat) => !q.2.isEmpty }

/-- Every fibre of one copy of a workgroup ends, its open regions close and its versions abort, with the stash bytes that were to go under
them. Its engine operations run on. -/
def State.endCopy (s : State) (g cause origin lane : Nat) (failed : Bool) : State :=
  let sels := s.warpsOf g
  let s := sels.foldl (fun s sel =>
    let s := (s.fibresOf sel).foldl (fun s p => (s.withdraw sel p.1).endFibre sel p.1) s
    s.endWarpIfEmpty sel) s
  let mine (v : Version) : Bool := match v.owner with
    | .region r => ((s.regions.look r).map fun x => decide (x.wg = g)).getD false
    | .workgroup h => h = g
    | .window _ _ => false
  let s := { s with
    versions := s.versions.keep fun _ v => !mine v
    regions := s.regions.keep fun _ r => r.wg ≠ g }
  s.modWg g fun x => { x with
    stash := x.stash.map fun w => { w with bytes := w.bytes.filter fun b => x.version.isNone && b.2.region.isNone }
    version := none, cause := cause, origin := origin, lane := lane, phase := if failed then .failed else x.phase }

/-- The other copy of a redundant workgroup (R352). -/
def State.partner (s : State) (g : Nat) : Option Nat :=
  (s.wgs.look g).bind fun x => if x.copy = 0 then none else (s.pairs.look x.pair).map fun p => if p.lead = g then p.trail else p.lead

/-- A workgroup ends, both copies of a redundant one (R306 mode 2, R338). The checkpoints of a pair go with it. -/
def State.endWg (s : State) (g cause origin lane : Nat) (failed : Bool) : State :=
  match s.partner g with
  | none => s.endCopy g cause origin lane failed
  | some o =>
    let pair := ((s.wgs.look g).map Wg.pair).getD 0
    ({ s with checks := s.checks.keep fun _ x => x.pair ≠ pair }.endCopy g cause origin lane failed).endCopy o cause origin lane failed

/-! ### Named barriers (R201, R204) -/

/-- What a trap says of itself (R339, R340). -/
structure Trap where
  cause : Nat
  lane : Nat
  detail : Nat
  address : Nat
  origin : Nat
deriving DecidableEq, Repr, Inhabited

/-- The address of the kernel word a warp's batch stands at, and its header: those of the trapping lane. -/
def State.position (s : State) (sel lane : Nat) : DWord × DWord :=
  match s.fibres.look (fibreKey sel lane) with
  | some f => (f.pc, f.hdr)
  | none => (0, 0)

/-- TAKING A TRAP (R337, R338, R340): the clause ends before the instruction, the trap record is written, the warp enters state 2 and a
notice goes to the host. In a versioned or redundant workgroup a trap other than ASSERT or BREAKPOINT ends the workgroup instead,
with its version discarded. -/
def State.takeTrap (s : State) (sel : Nat) (t : Trap) : State :=
  match s.warps.look sel with
  | none => s
  | some w =>
    let pos := s.position sel t.lane
    let wg := s.wgs.look w.wg
    let versioned := (wg.map fun g => g.version.isSome).getD false
    let dies := versioned && t.cause ≠ 0x13 && t.cause ≠ 0x14
    let region := ((s.fibres.look (fibreKey sel t.lane)).map fun f => s.rgnOf f).getD 0
    let r : TrapRec := {
      cause := t.cause
      flags := 1 + (if t.cause = 0x13 then 2 else 0) + (if dies then 4 else 0) + (if w.parks.isEmpty then 0 else 8)
      lane := t.lane
      detail := t.detail % 256
      launch := w.launch
      origin := t.origin
      pc := pos.1
      header := pos.2
      address := BitVec.ofNat 64 t.address
      workgroup := (wg.map Wg.lin).getD 0
      region := region
      word := s.word
      cycles := (s.cluster (clusterOf sel)).cyc }
    let at' : StopAt := ⟨t.cause, t.origin, t.lane, pos.1, s.word, s.batchLanes sel⟩
    let s := (s.endClause sel []).setTrap sel r
    let s := s.modWarp sel fun w => { w with state := .stopped, stop := at' }
    let s := s.emit ⟨s.hostOf w.launch, 1, [s.package, clusterOf sel, slotOf sel, t.cause]⟩
    if dies then s.endWg w.wg t.cause t.origin t.lane true else s

/-- A fibre that waited on a barrier returns: it goes on at the instruction after its wait, or, on a poisoned phase, raises COPY_FAULT. -/
def State.barrierReturn (s : State) (sel lane b : Nat) (poisoned : Bool) : State :=
  if poisoned then s.modFibre (fibreKey sel lane) fun f => { f with wait := .barFault b }
  else s.modFibre (fibreKey sel lane) fun f => { f.next with wait := .none }

/-- The barrier waits of a warp whose phase has completed return; of a halted warp only those of the batch that a step runs do (R287). -/
def State.returnWaits (s : State) (sel : Nat) : State :=
  match s.warps.look sel with
  | none => s
  | some w =>
    let stepped := if s.stepping.isSome && s.actor = sel then s.batchLanes sel else []
    (s.fibresOf sel).foldl (fun s p => match p.2.wait with
      | .bar b ph => if (w.state ≠ .halted || stepped.contains p.1) && (s.barrier w.wg b).phase ≠ ph then s.barrierReturn sel p.1 b (s.barrier w.wg b).poisoned else s
      | _ => s) s

/-- One arrival at a named barrier; the arrival that reaches expected + extra completes the phase and wakes the waiters (R201). -/
def State.arrive (s : State) (wg b : Nat) (faulted : Bool) : State :=
  let x := s.barrier wg b
  let n := x.arrivals + 1
  let f := x.faulted || faulted
  if n ≠ x.expected + x.extra then s.setBarrier wg b { x with arrivals := n, faulted := f }
  else
    let s := s.setBarrier wg b { x with phase := !x.phase, arrivals := 0, extra := 0, poisoned := f, faulted := false }
    (s.warpsOf wg).foldl State.returnWaits s

/-! ### Return from a trap (R306, R340, R342) -/

/-- Arms or clears the breakpoint skip of a warp's record (R342). -/
def State.setSkip (s : State) (sel : Nat) (on : Bool) : State :=
  let r := s.trapRec sel
  let base := r.flags - r.flags / 16 % 2 * 16
  s.setTrap sel { r with flags := if on then base + 16 else base }

/-- RETURN FROM A TRAP (R306): mode 0 re-executes the trapping instruction, mode 1 resumes after it, mode 2 ends the workgroup.
The record's valid bit is cleared; mode 0 arms the breakpoint skip of R342. -/
def State.resumeStopped (s : State) (sel mode : Nat) : State :=
  match s.warps.look sel with
  | none => s
  | some w =>
    let r := s.trapRec sel
    let s := s.setTrap sel { r with flags := r.flags - r.flags % 2 }
    let r := w.stop
    let back (s : State) : State := s.modWarp sel fun w =>
      { w with state := if w.parks.isEmpty then .ready else .parked, batch := none, hold := none }
    match mode with
    | 0 => back (s.setSkip sel (r.cause = 0x14))
    | 1 => back (r.lanes.foldl (fun s l => s.modFibre (fibreKey sel l) fun f =>
        if f.pc ≠ r.pc then f else if f.pc = f.hdr then { f with pc := f.pc + 8, hword := r.word } else f.next) s)
    | _ => s.endWg w.wg r.cause r.origin r.lane false

/-! ### Detected errors (R218) -/

/-- The open regions that lie inside a region, itself included. -/
def State.regionsInside (s : State) (r : Nat) : List Nat :=
  let step (acc : List Nat) : List Nat :=
    acc ++ (s.regions.filterMap fun p => match p.2.parent with
      | some q => if acc.contains q && !acc.contains p.1 then some p.1 else none
      | none => none)
  (List.range 8).foldl (fun acc _ => step acc) [r]

/-- A detected error in a fibre with an open region: its innermost region's members stop and wait for the rollback; their waits are
withdrawn; an instruction that holds its port is finished first. One rollback serves several errors, and an error in an enclosing region covers the inner ones (R221). -/
def State.detect (s : State) (region fib cause : Nat) : State :=
  match s.regions.look region with
  | none => s
  | some r =>
    let s := { s with regions := s.regions.modify region fun x => { x with error := some (x.error.getD fib), cause := max x.cause cause } }
    let held := ((s.warps.look r.warp).bind Warp.hold).isSome
    let s := if !held && (s.batchLanes r.warp).any fun l => r.members.contains (fibreKey r.warp l) then s.endClause r.warp [] else s
    r.members.foldl (fun s m => ((s.withdraw r.warp (m % 32)).modFibre m fun f => { f with wait := .rollback region, quitting := false })) s

end Sys2Proof.Machine
end

