-- ==== Sys2Proof/Machine/Mem.lean ====
section
/-! DEFINITION. The memory system: homes, access checks, the two cache levels under leases, shadows, partials, poison and the scratchpad. -/

namespace Sys2Proof.Machine

open Sys2Proof.Num (bits bit ofBytes toBytes)

/-! ### Geometry (R77) -/

def lineOf (pa : Nat) : Nat := pa / 256
/-- The global number of the die that homes an address. -/
def homeOf (pa : Nat) : Nat := pa / 2 ^ 38
def dieOffset (pa : Nat) : Nat := pa % 2 ^ 38
def populated (pa : Nat) : Bool := dieOffset pa < 144000000000
def homeSlice (pa : Nat) : Nat := dieOffset pa / 256 % 48
def homeSet (pa : Nat) : Nat := dieOffset pa / 256 / 48 % 512
/-- The stack of the die's three, as a package-wide number 0–11. -/
def stackOf (pa : Nat) : Nat := homeOf pa % 4 * 3 + dieOffset pa / 4096 % 3
/-- The die of this package that homes an address; `none` for another package's memory. -/
def State.ownDie (s : State) (pa : Nat) : Option Nat := if pa / 2 ^ 40 = s.package then some (homeOf pa % 4) else none
/-- The global die number of a cluster's die (%die, R37). -/
def State.dieNumber (s : State) (c : Nat) : Nat := s.package * 4 + dieOf c
/-- The slice target of an address on its die (R301). -/
def sliceTarget (die pa : Nat) : Nat := die * 64 + homeSlice pa

/-! ### Access tables (R296, R298 to R303) -/

def hostMaster : Nat := 406
def unitMaster (die : Nat) : Nat := 384 + die
def engineMaster (cluster : Nat) : Nat := 192 + cluster

def State.accEntry (s : State) (target master : Nat) : BitVec 128 := s.acctab.get (acctabReset master) (target * 512 + master)

/-- The target's table grants the kinds of access asked for (R302). -/
def State.tableAllows (s : State) (target master vf : Nat) (rd wr : Bool) : Bool :=
  let e := (s.accEntry target master).toNat
  (!rd || bit e vf) && (!wr || bit e (64 + vf))

/-- Some enabled XS_VFMEM of the virtual function covers the address (R296). -/
def State.vfmemAllows (s : State) (vf pa : Nat) : Bool :=
  (List.range 8).any fun n =>
    let x := (s.vfmem.get 0 (vf * 8 + n)).toNat
    bit x 0 && bits x 51 16 * 65536 ≤ pa && pa ≤ bits x 115 80 * 65536 + 65535

def State.isRetired (s : State) (pa : Nat) : Bool := (s.retired.get [] (homeOf pa % 4)).contains (pa / 65536)

/-- Of the attestation page only the state and the nonce take a write; the other bytes ignore it (R376). -/
def State.attestWritable (s : State) (pa : Nat) : Bool :=
  let o := pa - s.package * 2 ^ 40
  pa < s.package * 2 ^ 40 || o ≥ 4096 || (4 ≤ o && o < 40)

/-- The die that a master stands on; that of a Dzitex or an Ethernet port, too (R299, R364). -/
def masterDie (m : Nat) : Nat :=
  if m < 192 then m / 48
  else if m < 384 then (m - 192) / 48
  else if m < 388 then m - 384
  else if m < 393 then 0
  else if m < 397 then 1
  else if m < 401 then 2
  else if m < 406 then 3
  else (m - 407) / 8

/-- The port egress of a die (R301). -/
def egressTarget (die : Nat) : Nat := die * 64 + 55

/-- A memory request is served at its home (R302, then R296, R307). One that leaves the package is checked as traffic that its die's port
egress sends (R300); the tables of other packages are not modelled (log 5). -/
def State.memAllows (s : State) (master vf pa : Nat) (rd wr : Bool) : Bool :=
  match s.ownDie pa with
  | none => s.tableAllows (egressTarget (masterDie master)) master vf false true
  | some d =>
    s.tableAllows (sliceTarget d pa) master vf rd wr && (master = hostMaster || s.vfmemAllows vf pa) && !s.isRetired pa

/-- Logs a refusal at a target (R303): the first unread one is kept, later ones raise the count. -/
def State.logRefusal (s : State) (target master vf pa : Nat) (rd wr : Bool) : State :=
  let x := (s.acclog.get 0 target).toNat
  let y := if bit x 31 then
      (if bits x 63 32 = 2 ^ 32 - 1 then x else x + 2 ^ 32)
    else pa * 2 ^ 64 + 2 ^ 32 + 2 ^ 31 + (if wr then 2 ^ 25 else 0) + (if rd then 2 ^ 24 else 0) + vf * 2 ^ 16 + master
  { s with acclog := s.acclog.set 0 target (BitVec.ofNat 128 y) }

def State.logMem (s : State) (master vf pa : Nat) (rd wr : Bool) : State :=
  match s.ownDie pa with
  | none => s.logRefusal (egressTarget (masterDie master)) master vf pa false true
  | some d => s.logRefusal (sliceTarget d pa) master vf pa rd wr

/-! ### Errors (R345, R356) -/

/-- Clears the armed bit of a die's XS_ERRINJ: its injection has been found. -/
def State.disarm (s : State) (die : Nat) : State :=
  { s with errinj := s.errinj.set 0 die (BitVec.ofNat 128 ((s.errinj.get 0 die).toNat % 2 ^ 127)) }

/-- The planted errors of a unit at a place are found: taken out, and the injections that planted them disarmed. -/
def State.findPlants (s : State) (unit : Nat) (at' : Nat → Bool) : State :=
  if s.plants.isEmpty then s
  else
    let hit := s.plants.filter fun p => p.unit = unit && p.present && at' p.loc
    let s := { s with plants := s.plants.filter fun p => !(p.unit = unit && p.present && at' p.loc) }
    hit.foldl (fun s p => if p.die < 4 then s.disarm p.die else s) s

/-- An uncorrectable error stands in a register, a shadow, a scratchpad, accumulator or veneer word: the word is marked (R345). -/
def State.spoil (s : State) (p : Plant) : State :=
  if !p.double then s
  else match p.unit with
    | 2 => { s with versions := s.versions.mapv fun _ v =>
        if v.shadow.any fun b => b.1 / 8 = p.loc / 8 then { v with bad := p.loc / 8 :: v.bad } else v }
    | 4 => { s with vRegs := s.vRegs.set Cell.zero p.loc { s.vRegs.get Cell.zero p.loc with st := .poisoned 0 } }
    | 5 => { s with scratchBad := s.scratchBad.put (p.loc / 8) true }
    | 6 => { s with accBad := s.accBad.put (p.loc / 2) true }
    | 7 => { s with veneerBad := s.veneerBad.put (p.loc / 8) true }
    | _ => s

/-- Sets the fired bit of the die that planted an error (R356). -/
def State.noteFired (s : State) (p : Plant) : State :=
  let x := (s.errinj.get 0 p.die).toNat
  if p.die < 4 && !bit x 0 then { s with errinj := s.errinj.set 0 p.die (BitVec.ofNat 128 (x + 1)) } else s

/-- A unit's places are written. Errors that stood in a place written whole go with the old value; those that waited for the write
are planted in the new one, which sets the fired bit (R356). -/
def State.firePlants (s : State) (unit : Nat) (at' whole : Nat → Bool) : State :=
  if s.plants.isEmpty then s
  else
    let hit := s.plants.filter fun p => p.unit = unit && !p.present && at' p.loc
    let s := { s with plants := (s.plants.filter fun p => !(p.unit = unit && p.present && whole p.loc)).map fun p =>
      if p.unit = unit && !p.present && at' p.loc then { p with present := true } else p }
    hit.foldl (fun s p => (s.spoil p).noteFired p) s

/-- The bytes listed lie in the word of a place, and cover it whole. -/
def touches (bs : List (Nat × Byte)) (loc : Nat) : Bool := bs.any fun b => b.1 / 8 = loc / 8
def covers (bs : List (Nat × Byte)) (loc : Nat) : Bool := (List.range 8).all fun i => bs.any fun b => b.1 = loc / 8 * 8 + i

/-! ### Bytes at the home -/

def L2Line.zero : L2Line := ⟨0, 0, false, false, 0, 0, false, 0, 0, none, [], false⟩
def State.l2Line (s : State) (line : Nat) : L2Line := s.l2.get L2Line.zero line
def State.modL2 (s : State) (line : Nat) (f : L2Line → L2Line) : State :=
  { s with l2 := s.l2.set L2Line.zero line (f (s.l2Line line)) }

/-- What a byte of HBM reads as when nothing has written it: boot clears HBM to zero (R374, log 4). -/
def hbmFresh : Byte := 0

/-- The byte the home serves: the one L2 holds, else HBM's. -/
def State.homeByte (s : State) (pa : Nat) : Byte :=
  match s.l2Bytes.look pa with
  | some b => b.val
  | none => s.hbm.get hbmFresh pa

def State.homeBytes (s : State) (pa n : Nat) : List Byte := (List.range n).map fun i => s.homeByte (pa + i)
def State.homeNat (s : State) (pa n : Nat) : Nat := ofBytes (s.homeBytes pa n)
def State.badWord (s : State) (pa : Nat) : Bool := (s.memBad.look (pa / 8)).isSome
def State.anyBad (s : State) (pa n : Nat) : Bool := (List.range n).any fun i => s.badWord (pa + i)

/-- Removes the poison of the words that a set of bytes covers whole; a partial write keeps the mark (R346). -/
def State.cleanWords (s : State) (bs : List (Nat × Byte)) : State :=
  if s.memBad.isEmpty then s
  else { s with memBad := s.memBad.keep fun w _ => !covers bs (w * 8) }

/-- Words that begin in a range and that an operation writes whole lose their marks (R346). -/
def State.memFresh (s : State) (pa va n : Nat) (cov : Nat → Bool) : State :=
  if s.memBad.isEmpty then s
  else
    let ws := (List.range n).filterMap fun i =>
      if (pa + i) % 8 = 0 && (List.range 8).all (fun k => cov (va + i + k)) then some ((pa + i) / 8) else none
    { s with memBad := s.memBad.keep fun w _ => !ws.contains w }

def State.markBad (s : State) (pa : Nat) : State := { s with memBad := s.memBad.put (pa / 8) true }

/-- The launches that run may still fetch the words that are about to be overwritten with their old values (R129). -/
def State.noteOld (s : State) (bs : List (Nat × Byte)) : State :=
  let running := (s.launches.filter fun p => !p.2.complete).map Prod.fst
  if running.isEmpty then s
  else { s with oldWords := (bs.map fun b => b.1 / 8).eraseDups.foldl (fun (t : Tab (List (Nat × Nat))) k =>
    t.set [] k ((running.map fun l => (l, s.homeNat (8 * k) 8)) ++ t.get [] k).eraseDups) s.oldWords }

/-- Nothing is old for a launch that has ended. -/
def State.dropOld (s : State) (launch : Nat) : State :=
  { s with oldWords := (s.oldWords.mapv fun _ x => x.filter fun p => p.1 ≠ launch).keep fun _ x => !x.isEmpty }

/-- The words that a fetch of a launch may see: the one that stands there, and those overwritten since the launch was accepted (R129). -/
def State.wordsAt (s : State) (launch pa : Nat) : List Nat :=
  s.homeNat pa 8 :: ((s.oldWords.get [] (pa / 8)).filter fun p => p.1 = launch).map Prod.snd

/-- The word that a fetch sees (log 9). -/
def State.wordSeen (s : State) (launch pa : Nat) : Nat :=
  match s.wordsAt launch pa with
  | [x] => x
  | xs => xs.getD (Config.seen s.tick pa % xs.length) 0

/-- Puts bytes into L2 as dirty ones. -/
def State.putL2 (s : State) (bs : List (Nat × Byte)) : State :=
  ({ ((s.noteOld bs).cleanWords bs) with l2Bytes := bs.foldl (fun (t : Tab L2Byte) (b : Nat × Byte) => t.put b.1 ⟨b.2, true⟩) s.l2Bytes }).firePlants 1 (touches bs) (covers bs)

/-- Records a timestamp issued by a line's slice, and raises the die's D (R84). -/
def State.noteTs (s : State) (pa t : Nat) : State :=
  match s.ownDie pa with
  | none => s
  | some d =>
    let k := d * 48 + homeSlice pa
    ({ s with sliceTs := s.sliceTs.set 0 k (tsMax (s.sliceTs.get 0 k) t) }).modDie d fun x => { x with maxTs := tsMax x.maxTs t }

/-- A response from one die to another carries its sender's D (R84). -/
def State.shareTs (s : State) (pa cluster : Nat) : State :=
  match s.ownDie pa with
  | none => s
  | some d => s.modDie (dieOf cluster) fun x => { x with maxTs := tsMax x.maxTs (s.die d).maxTs }

/-- The owner tag after a store of a virtual function's launch (R347). -/
def L2Line.tag (l : L2Line) (vf context : Nat) : L2Line :=
  if l.tagged then { l with context := if l.context = context then context else 0xFFFFFF }
  else { l with tagged := true, vf := vf, context := context }

/-- The way a line takes when it enters L2: the first way of its set that no resident line of the set holds and that is not
quarantined; when none is free, the way a free choice names among those not quarantined (R381). -/
def State.allocWay (s : State) (line : Nat) : Nat × State :=
  let pa := line * 256
  let quarantined := (s.quarantine.get [] (homeOf pa % 4 * 48 + homeSlice pa)).filterMap fun q => if q.1 = homeSet pa then some q.2 else none
  let open' := (List.range 16).filter fun w => !quarantined.contains w
  let usedWays := s.l2.filterMap fun p =>
    if p.2.resident && homeOf (p.1 * 256) = homeOf pa && homeSlice (p.1 * 256) = homeSlice pa && homeSet (p.1 * 256) = homeSet pa
    then some p.2.way else none
  match open'.find? fun w => !usedWays.contains w with
  | some w => (w, s)
  | none => (open'.getD (Config.victim s.freeCount % max open'.length 1) 0, { s with freeCount := s.freeCount + 1 })

/-- Writes a line's dirty bytes back to HBM and takes the line out of L2; its timestamps are kept (log 17). -/
def State.dropL2 (s : State) (line : Nat) (writeBack : Bool) : State :=
  let mine := s.l2Bytes.filter fun p => p.1 / 256 = line
  let out := mine.filterMap fun p => if p.2.dirty then some (p.1, p.2.val) else none
  let s := if writeBack then
      ({ s with hbm := out.foldl (fun (t : Tab Byte) (p : Nat × Byte) => t.set hbmFresh p.1 p.2) s.hbm }).firePlants 3 (touches out) (covers out)
    else s
  ({ s with l2Bytes := s.l2Bytes.filter fun p => p.1 / 256 ≠ line }).modL2 line fun l =>
    { l with resident := false, filled := false, tagged := false, vf := 0, context := 0, fmt := none }

/-- Makes a line resident. A full set first gives up the line that holds the chosen way, unless that line is an alias line with dirty
bytes, which leaves by ALIAS_EVICT alone. -/
def State.enterL2 (s : State) (line : Nat) (streaming : Bool) : State :=
  if (s.l2Line line).resident then s
  else
    let (w, s) := s.allocWay line
    let pa := line * 256
    let old := s.l2.find? fun p => p.2.resident && p.2.way = w && p.1 ≠ line && homeOf (p.1 * 256) = homeOf pa
      && homeSlice (p.1 * 256) = homeSlice pa && homeSet (p.1 * 256) = homeSet pa && p.2.fmt.isNone
    let s := match old with
      | some p => s.dropL2 p.1 true
      | none => s
    s.modL2 line fun l => { l with resident := true, way := w, used := if streaming then 0 else s.tick }

/-- Raises a line whose rts lies below D − 2^14 to D − 2^14 (R84). -/
def State.sweepLine (s : State) (line : Nat) : State :=
  match s.ownDie (line * 256) with
  | none => s
  | some d =>
    let lo := (s.die d).maxTs + 65536 - 16384
    s.modL2 line fun l => if tsLt l.rts (lo % 65536) then { l with wts := lo % 65536, rts := lo % 65536 } else l

/-- The write rule of R82 at a home: wts := max(sent, rts + 1), rts := wts, bytes merged by mask; the merge sets the owner tag.
A die unit or the host sends no logical time. Answers the new wts. -/
def State.writeHome (s : State) (bs : List (Nat × Byte)) (sent : Option Nat) (vf context : Nat) : Nat × State :=
  match bs with
  | [] => (0, s)
  | b :: _ =>
    let line := lineOf b.1
    let s := (s.sweepLine line).enterL2 line false
    let l := s.l2Line line
    let up := tsAdd l.rts 1
    let wts := match sent with
      | some t => tsMax t up
      | none => up
    let s := (s.putL2 bs).modL2 line fun l => { (l.tag vf context) with wts := wts, rts := wts }
    (wts, s.noteTs b.1 wts)

/-- The read rule of R82 at a home: rts := max(rts, pts + lease). Answers the line's wts and rts. -/
def State.renewHome (s : State) (pa pts lease : Nat) (streaming : Bool) : (Nat × Nat) × State :=
  let line := lineOf pa
  let s := (s.sweepLine line).enterL2 line streaming
  let l := s.l2Line line
  let rts := tsMax l.rts (tsAdd pts lease)
  ((l.wts, rts), (s.modL2 line fun l => { l with rts := rts }).noteTs pa rts)

/-- Splits bytes by the line they lie in. -/
def byLine (bs : List (Nat × Byte)) : List (List (Nat × Byte)) :=
  let lines := (bs.map fun b => lineOf b.1).eraseDups
  lines.map fun l => bs.filter fun b => lineOf b.1 = l

/-- Little-endian bytes of a number at an address. -/
def bytesAt (pa n x : Nat) : List (Nat × Byte) := (List.range n).zip (toBytes n x) |>.map fun p => (pa + p.1, p.2)

/-! ### L1 (R76, R82) -/

def l1Key (c line : Nat) : Nat := c * 2 ^ 44 + line
def l1ByteKey (c pa : Nat) : Nat := c * 2 ^ 52 + pa

/-- The L1 copy serves a byte: it is dirty there, or filled under a lease that the cluster's pts has not passed (R82). -/
def State.l1Serves (s : State) (c pa : Nat) : Option L1Byte :=
  match s.l1Bytes.look (l1ByteKey c pa) with
  | none => none
  | some b =>
    if b.writer.isSome then some b
    else match s.l1.look (l1Key c (lineOf pa)) with
      | some l => if l.leased && !tsLt l.rts (s.cluster c).pts.toNat then some b else none
      | none => none

/-- Drops the clean bytes of an L1 line. -/
def State.dropClean (s : State) (c line : Nat) : State :=
  { s with l1Bytes := s.l1Bytes.filter fun p => !(p.1 / 2 ^ 52 = c && lineOf (p.1 % 2 ^ 52) = line && p.2.writer.isNone) }

/-- Records that a workgroup has read dirty bytes of a line (R76). -/
def State.noteReader (s : State) (c line idx : Nat) : State :=
  { s with l1 := s.l1.modify (l1Key c line) fun l => if bit l.readers idx then l else { l with readers := l.readers + 2 ^ idx } }

/-- Writes bytes into an L1 line as dirty bytes of a workgroup. -/
def State.l1Store (s : State) (c : Nat) (bs : List (Nat × Byte)) (idx vf lease kind : Nat) : State :=
  let keyed := bs.map fun b => (l1ByteKey c b.1, b.2)
  let s := s.firePlants 8 (touches keyed) (covers keyed)
  bs.foldl (fun s b =>
    let k := l1Key c (lineOf b.1)
    let s := match s.l1.look k with
      | some _ => s
      | none => { s with l1 := s.l1.put k ⟨0, 0, false, 0, s.tick, 0, vf, lease, kind, none⟩ }
    { s with l1Bytes := s.l1Bytes.put (l1ByteKey c b.1) ⟨b.2, some idx⟩ }) s

/-- The dirty bytes of an L1 line, by physical address. -/
def State.l1Dirty (s : State) (c line : Nat) : List (Nat × Byte) :=
  s.l1Bytes.filterMap fun p =>
    if p.1 / 2 ^ 52 = c && lineOf (p.1 % 2 ^ 52) = line && p.2.writer.isSome then some (p.1 % 2 ^ 52, p.2.val) else none

/-- The lines of a cluster's L1 whose dirty bytes a workgroup's release covers: those it wrote, and those of lines whose reader mask
names it (R76, R83). -/
def State.releaseLines (s : State) (c idx : Nat) : List (Nat × List (Nat × Byte)) :=
  (s.l1.filterMap fun p => if p.1 / 2 ^ 44 = c then some (p.1 % 2 ^ 44, p.2) else none).filterMap fun p =>
    let mine := s.l1Bytes.filterMap fun b =>
      if b.1 / 2 ^ 52 = c && lineOf (b.1 % 2 ^ 52) = p.1 then
        match b.2.writer with
        | some w => if w = idx || bit p.2.readers idx then some (b.1 % 2 ^ 52, b.2.val) else none
        | none => none
      else none
    if mine.isEmpty then none else some (p.1, mine)

/-- Takes bytes out of an L1 line; a line left without bytes is dropped, and the reader mask clears once no dirty byte is left. -/
def State.l1Take (s : State) (c line : Nat) (bs : List (Nat × Byte)) : State :=
  let s := { s with l1Bytes := s.l1Bytes.filter fun p => !(p.1 / 2 ^ 52 = c && bs.any fun b => b.1 = p.1 % 2 ^ 52) }
  let left := s.l1Bytes.filter fun p => p.1 / 2 ^ 52 = c && lineOf (p.1 % 2 ^ 52) = line
  if left.isEmpty then { s with l1 := s.l1.del (l1Key c line) }
  else if left.any fun p => p.2.writer.isSome then s
  else { s with l1 := s.l1.modify (l1Key c line) fun l => { l with readers := 0 } }

/-! ### Requests to a home -/

/-- The launch a warp's stores belong to, for the owner tag. -/
def State.contextOf (s : State) (sel : Nat) : Nat := ((s.warps.look sel).map Warp.launch).getD 0xFFFFFE

/-- The port by which packets leave: the lowest whose link is up (log 18). -/
def State.route (s : State) : Nat := ((s.ports.first fun _ p => p.trained && !p.dead).map Prod.fst).getD 0

/-- Sends a request. One whose home is in another package travels as a packet (R365). -/
def State.send (s : State) (f : Flight) : Nat × State :=
  let (id, s) := s.fresh
  let s := { s with flights := s.flights.put id f }
  (id, if (s.ownDie f.addr).isSome then s
    else { s with packets := s.packets.put id ⟨homeOf f.addr, match f.kind with
      | .atomic _ _ _ _ _ _ => 2
      | _ => 1, s.route, s.fabricClock, true⟩ })

/-- Sends the dirty bytes of an L1 line to L2 and takes them out of L1. -/
def State.sendLine (s : State) (sel wg c line : Nat) (bs : List (Nat × Byte)) : Nat × State :=
  let l := (s.l1.look (l1Key c line)).getD ⟨0, 0, false, 0, 0, 0, 0, 10, 0, none⟩
  let context := ((s.wgs.look wg).map Wg.launch).getD (s.contextOf sel)
  let s := s.l1Take c line bs
  s.send { kind := .write, warp := sel, wg := wg, cluster := c, master := c, vf := l.vf, context := context,
           addr := (bs.head?.map Prod.fst).getD (line * 256), va := 0, bytes := bs, pts := (s.cluster c).pts.toNat, lease := l.lease,
           view := 0, window := none, after := [], merged := false, wts := 0, store := none, bad := [] }

/-- Writes back the dirty L1 bytes that a release by a workgroup covers. Answers the requests. -/
def State.sendRelease (s : State) (sel wg : Nat) : List Nat × State :=
  match s.wgs.look wg with
  | none => ([], s)
  | some g => (s.releaseLines g.cluster g.idx).foldl (fun (ids, s) p =>
      let (id, s) := s.sendLine sel wg g.cluster p.1 p.2
      (id :: ids, s)) ([], s)

/-- Requests of a cluster that are not yet acknowledged and touch a range: a read of those bytes waits for them (R103, R106). -/
def State.overtakes (s : State) (c pa n : Nat) : Bool :=
  s.flights.any fun p => p.2.cluster = c && p.2.bytes.any fun b => pa ≤ b.1 && b.1 < pa + n

/-! ### Shadows (R85, R86, R179, R262) -/

/-- The innermost shadow byte along a chain of versions. -/
def State.shadowByte (s : State) (chain : List Nat) (pa : Nat) : Option Byte :=
  chain.findSome? fun v => (s.versions.look v).bind fun x => x.shadow.look pa

/-- The planted errors of a chain's shadow words in a range are found (R356). -/
def State.findShadow (s : State) (chain : List Nat) (pa n : Nat) : State :=
  if s.plants.isEmpty then s
  else s.findPlants 2 fun loc => decide (pa / 8 ≤ loc / 8 ∧ loc / 8 ≤ (pa + n - 1) / 8) &&
    chain.any fun v => ((s.versions.look v).map fun x => x.shadow.any fun b => b.1 / 8 = loc / 8).getD false

/-- The planted errors of every shadow word of a version are found. -/
def State.findVersion (s : State) (v : Nat) : State :=
  if s.plants.isEmpty then s
  else s.findPlants 2 fun loc => ((s.versions.look v).map fun x => x.shadow.any fun b => b.1 / 8 = loc / 8).getD false

/-- A detected uncorrectable word of a version of the chain, at an address. -/
def State.shadowBad (s : State) (chain : List Nat) (pa : Nat) : Option Nat :=
  chain.find? fun v => ((s.versions.look v).map fun x => x.bad.contains (pa / 8) && (x.shadow.look pa).isSome).getD false

/-- Writes shadow bytes under a version (R176). -/
def State.shadowStore (s : State) (v : Nat) (bs : List (Nat × Byte)) : State :=
  ({ s with versions := s.versions.modify v fun x => { x with
      shadow := bs.foldl (fun (t : Tab Byte) (b : Nat × Byte) => t.put b.1 b.2) x.shadow
      bad := x.bad.filter fun w => !covers bs (w * 8) } }).firePlants 2 (touches bs) (covers bs)

/-- The versions of a sequence's open window. -/
def State.windowVersions (s : State) (seq : Nat) : List Nat :=
  (s.versions.filter fun p => match p.2.owner with
    | .window q _ => q = seq && p.2.state = .isOpen
    | _ => false).map Prod.fst

/-- The tagged byte a gang warp reads: among the open window's versions and those of the fibre's chain, its current path at the highest
token (R262), or at no token above its tag's in the recurrent-state region (R179). -/
def State.windowByte (s : State) (seq : Nat) (chain : List Nat) (tag pa : Nat) (recurrent : Bool) : Option Byte :=
  let all := (s.windowVersions seq ++ chain.reverse).flatMap fun v => ((s.versions.look v).map Version.tagged).getD []
  let mine := all.filter fun t => t.addr = pa && t.tag / 16 = tag / 16 && (!recurrent || t.tag % 16 ≤ tag % 16)
  (mine.foldl (fun best t => match best with
    | none => some t
    | some b => if b.tag % 16 ≤ t.tag % 16 then some t else some b) none).map Tagged.byte

/-- Distinct lines a version shadows (R88). -/
def Version.lines (v : Version) : Nat := ((v.shadow.map fun p => lineOf p.1).eraseDups).length

/-! ### Retired pages and quarantine (R307, R348, R349) -/

/-- Every L2 of the package drops the lines of a 64 KiB page, without write-back. -/
def State.dropPage (s : State) (page : Nat) : State :=
  let lines := (s.l2.filter fun p => p.1 / 256 = page && p.2.resident).map Prod.fst
  let s := lines.foldl (fun s l => s.dropL2 l false) s
  { s with
    l2Bytes := s.l2Bytes.filter fun p => p.1 / 65536 ≠ page
    remotes := s.remotes.filter fun p => p.1 % 2 ^ 44 / 256 ≠ page
    remoteBytes := s.remoteBytes.filter fun p => p.1 % 2 ^ 52 / 65536 ≠ page }

/-- Retires a page: its lines are dropped and its die's table takes it; 0 retired, 1 already retired, 2 unpopulated, 3 table full. -/
def State.retirePage (s : State) (pa : Nat) : Nat × State :=
  if !populated pa || (s.ownDie pa).isNone then (2, s)
  else if s.isRetired pa then (1, s)
  else
    let d := homeOf pa % 4
    let t := s.retired.get [] d
    if t.length ≥ 256 then (3, s)
    else (0, { (s.dropPage (pa / 65536)) with retired := s.retired.set [] d (pa / 65536 :: t) })

/-- Quarantines a way; answers whether it was (R349). -/
def State.quarantineWay (s : State) (die slice set way : Nat) : Bool × State :=
  let k := die * 48 + slice
  let t := s.quarantine.get [] k
  if t.length ≥ 32 || (t.filter fun q => q.1 = set).length ≥ 12 || t.contains (set, way) then (false, s)
  else (true, { s with quarantine := s.quarantine.set [] k ((set, way) :: t) })

/-! ### Uncorrectable errors (R345, R348, R350) -/

/-- THE OWNER-TAG PROCEDURE (R348): an uncorrectable error in a dirty base line drops the line, ends the work the tag names, retires the
page, quarantines the way and sends a machine-error notice. -/
def State.endLaunch (s : State) (launch : Nat) : State :=
  let mine := (s.wgs.filter fun p => p.2.launch = launch).map Prod.fst
  let s := mine.foldl (fun s g =>
    match s.wgs.look g with
    | none => s
    | some w =>
      -- R362: outstanding loads are cancelled, dirty L1 and stash bytes dropped
      let lines := (s.releaseLines w.cluster w.idx)
      let s := if w.phase = .saved then s else lines.foldl (fun s p =>
        s.l1Take w.cluster p.1 (p.2.filter fun b => ((s.l1Bytes.look (l1ByteKey w.cluster b.1)).bind L1Byte.writer) = some w.idx)) s
      let s := s.modWg g fun x => { x with stash := [] }
      let s := if w.cause = 0 then s.endWg g 0x08 0 0 false else s
      let gone := (s.flights.filter fun p => p.2.wg = g && !p.2.merged).map Prod.fst
      { s with
        flights := s.flights.filter fun p => p.2.wg ≠ g || p.2.merged
        packets := s.packets.filter fun p => !gone.contains p.1 }) s
  { s with launches := s.launches.modify launch fun l => { l with terminated := true } }

def State.dirtyError (s : State) (pa : Nat) : State :=
  match s.ownDie pa with
  | none => s
  | some d =>
    let line := lineOf pa
    let l := s.l2Line line
    let tag := l.vf * 2 ^ 24 + l.context
    let way := l.way
    let s := s.dropL2 line false
    let ended := if l.context = 0xFFFFFE then []
      else if l.context = 0xFFFFFF then
        ((s.wgs.filter fun p => dieOf p.2.cluster = d && p.2.phase ≠ .saved &&
          ((s.launches.look p.2.launch).map fun x => decide (x.vf = l.vf)).getD false).map fun p => p.2.launch).eraseDups
      else [l.context]
    let s := ended.foldl (fun s x => s.endLaunch x) s
    let s := (s.retirePage pa).2
    let (ok, s) := s.quarantineWay d (homeSlice pa) (homeSet pa) way
    s.emit ⟨s.vfHost.get 0 l.vf, 2, [s.package, d, homeSlice pa, homeSet pa, way, pa, tag, if ok then 1 else 0]⟩

/-- The word of a planted error lies in a range of bytes. -/
def Plant.meets (p : Plant) (unit pa n : Nat) : Bool :=
  p.unit = unit && p.present && decide (pa / 8 ≤ p.loc / 8 ∧ p.loc / 8 ≤ (pa + n - 1) / 8)

/-- The errors of HBM words are found by the controller: their 32 bytes are returned marked poisoned (R345). -/
def State.checkHbm (s : State) (at' : Nat → Bool) : State :=
  if s.plants.isEmpty then s
  else
    let hbm := s.plants.filter fun p => p.unit = 3 && p.present && p.double && at' p.loc
    hbm.foldl (fun s p => (List.range 4).foldl (fun s i => s.markBad (p.loc / 32 * 32 + 8 * i)) s) (s.findPlants 3 at')

/-- A read fills its line from HBM: the errors of the HBM words that the line takes are found, and those that waited for the fill are planted
in L2 (R345, R356). -/
def State.fillL2 (s : State) (line : Nat) : State :=
  if (s.l2Line line).filled then s
  else
    let taken (loc : Nat) : Bool := lineOf loc = line && (s.l2Bytes.look (loc / 8 * 8)).isNone
    let s := (s.enterL2 line false).checkHbm taken
    (s.modL2 line fun l => { l with filled := true }).firePlants 1 taken fun _ => false

/-- The errors of the L2 and HBM words of a range are found at a read (R345, R356): a clean L2 line is dropped, to be filled again,
and a dirty one goes through R348. A single-bit error is corrected. -/
def State.checkMem (s : State) (pa n : Nat) : State :=
  if s.plants.isEmpty then s
  else
    let inside (loc : Nat) : Bool := decide (pa / 8 ≤ loc / 8 ∧ loc / 8 ≤ (pa + n - 1) / 8)
    let inL2 := s.plants.filter fun p => p.meets 1 pa n && p.double
    let s := s.findPlants 1 inside
    inL2.foldl (fun s p => if (s.l2Line (lineOf p.loc)).tagged then s.dirtyError p.loc else s.dropL2 (lineOf p.loc) false) s

/-- A read of bytes of one line at its home: the line is filled, and errors in the bytes are found; a line dropped for an error is filled
again. -/
def State.checkRead (s : State) (pa n : Nat) : State :=
  (((s.fillL2 (lineOf pa)).checkMem pa n).fillL2 (lineOf pa))

/-- A merge of bytes of one line at its home. A double-bit error in a dirty line met by the merge drops the line with the merging
bytes, after the store has been folded into the owner tag (R348): there is then no acknowledgement time. -/
def State.mergeOne (s : State) (bs : List (Nat × Byte)) (sent : Option Nat) (vf context : Nat) : Option Nat × State :=
  let bs := bs.filter fun b => s.attestWritable b.1
  match bs with
  | [] => (some 0, s)
  | b :: _ =>
    let line := lineOf b.1
    let met := s.plants.find? fun p => p.unit = 1 && p.present && p.double && bs.any fun b => b.1 / 8 = p.loc / 8
    match met with
    | some p =>
      if (s.l2Line line).tagged then
        (none, ((s.modL2 line fun l => l.tag vf context).findPlants 1 fun loc => loc / 8 = p.loc / 8).dirtyError p.loc)
      else
        let (t, s) := (s.checkMem b.1 bs.length).writeHome bs sent vf context
        (some t, s)
    | none =>
      let (t, s) := (s.checkMem b.1 bs.length).writeHome bs sent vf context
      (some t, s)

/-- The page to which a migration forwards the writes of a page that it has copied (R258). -/
def State.moveOf (s : State) (page : Nat) : Option Nat :=
  s.migrations.findSome? fun p => p.2.moves.findSome? fun (m : Move) => if m.copied && m.old / 65536 = page then m.new else none

/-- A merge of bytes of one line at its home, forwarded to the new page while a migration moves the page. -/
def State.mergeHome (s : State) (bs : List (Nat × Byte)) (sent : Option Nat) (vf context : Nat) : Option Nat × State :=
  let (t, s) := s.mergeOne bs sent vf context
  if s.migrations.isEmpty then (t, s)
  else match (bs.head?).bind fun b => s.moveOf (b.1 / 65536) with
    | some new => (t, (s.mergeOne (bs.map fun b => (new + b.1 % 65536, b.2)) sent vf context).2)
    | none => (t, s)

/-- A write by a die unit of this package (R298): checked as master 384 + d, refused and logged when a table lacks the bit. -/
def State.unitWrite (s : State) (die vf : Nat) (bs : List (Nat × Byte)) : State :=
  (byLine bs).foldl (fun s g =>
    match g with
    | [] => s
    | b :: _ =>
      if s.memAllows (unitMaster die) vf b.1 false true then (s.mergeHome g none vf 0xFFFFFE).2
      else s.logMem (unitMaster die) vf b.1 false true) s

/-- A write of the sequence engine into its own tables, which only it, system software and the host reach (R250, R252). -/
def State.seqWrite (s : State) (vf : Nat) (bs : List (Nat × Byte)) : State :=
  (byLine bs).foldl (fun s g => (s.mergeHome g none vf 0xFFFFFE).2) s

/-! ### Partials of reduction pages (R68, R92) -/

/-- The identity of a page's operation (R68): kinds 3 add.f32, 4 add.bf16, 5 add.s32, 6 max.f32, 7 min.f32. -/
def redIdentity (kind : Nat) : Nat :=
  match kind with
  | 3 => 0x80000000
  | 4 => 0x80008000
  | 5 => 0
  | 6 => 0xFF800000
  | _ => 0x7F800000

/-- One merge of two values (R68). -/
def redMerge (kind x y : Nat) : Nat :=
  match kind with
  | 3 => Num.addF x y
  | 4 => Num.addB (x % 65536) (y % 65536) + 65536 * Num.addB (x / 65536) (y / 65536)
  | 5 => (x + y) % 2 ^ 32
  | 6 => Num.maxF x y
  | _ => Num.minF x y

def l1PartKey (c pa : Nat) : Nat := c * 2 ^ 50 + pa / 4
def l2PartKey (die pa : Nat) : Nat := die * 2 ^ 50 + pa / 4

/-- Adds a holder to the home's bitmap. -/
def State.noteHolder (s : State) (pa holder : Nat) : State :=
  s.modL2 (lineOf pa) fun l => if l.partials.contains holder then l else { l with partials := holder :: l.partials }

/-- Merges a word into an L1 partial, starting from the identity. -/
def State.mergeL1Part (s : State) (c pa kind word vf : Nat) : State :=
  let k := l1PartKey c pa
  let old := ((s.l1Parts.look k).map fun p => p.word.toNat).getD (redIdentity kind)
  ({ s with l1Parts := s.l1Parts.put k ⟨kind, BitVec.ofNat 32 (redMerge kind old word), vf⟩ }).noteHolder pa c

/-- Merges a word into a die L2's partial. -/
def State.mergeL2Part (s : State) (die pa kind word vf : Nat) : State :=
  let k := l2PartKey die pa
  let old := ((s.l2Parts.look k).map fun p => p.word.toNat).getD (redIdentity kind)
  ({ s with l2Parts := s.l2Parts.put k ⟨kind, BitVec.ofNat 32 (redMerge kind old word), vf⟩ }).noteHolder pa (192 + die)

/-- A list in an order of which nothing is known: the order in which partials meet (R68, log 10). -/
def shuffle {β : Type} (moment salt : Nat) : Nat → List β → List β
  | _, [] => []
  | _, [x] => [x]
  | 0, xs => xs
  | n + 1, xs =>
    let i := Config.seen moment (salt + n) % xs.length
    match xs[i]? with
    | some x => x :: shuffle moment salt n (xs.eraseIdx i)
    | none => xs

/-- Sends the partials of a cluster's L1 to its die's L2, and, from .gang outward, the die's partials to their homes (R92, R184). -/
def State.sendPartials (s : State) (c : Nat) (toHome : Bool) : State :=
  let mine := s.l1Parts.filter fun p => p.1 / 2 ^ 50 = c
  let s := (shuffle s.tick (2 ^ 60) mine.length mine).foldl (fun s p => s.mergeL2Part (dieOf c) (p.1 % 2 ^ 50 * 4) p.2.kind p.2.word.toNat p.2.vf) s
  let s := { s with l1Parts := s.l1Parts.filter fun p => p.1 / 2 ^ 50 ≠ c }
  if !toHome then s
  else
    let d := dieOf c
    let die := s.l2Parts.filter fun p => p.1 / 2 ^ 50 = d
    let s := (shuffle s.tick (2 ^ 61) die.length die).foldl (fun s p =>
      let pa := p.1 % 2 ^ 50 * 4
      let x := redMerge p.2.kind (s.homeNat pa 4) p.2.word.toNat
      (s.mergeHome (bytesAt pa 4 x) none p.2.vf 0xFFFFFE).2) s
    { s with l2Parts := s.l2Parts.filter fun p => p.1 / 2 ^ 50 ≠ d }

/-- The home recalls and merges every partial of a line (R93). -/
def State.mergePartials (s : State) (line : Nat) : State :=
  let here (k : Nat) : Bool := lineOf (k % 2 ^ 50 * 4) = line
  let all := (s.l1Parts.filter fun p => here p.1) ++ (s.l2Parts.filter fun p => here p.1)
  let s := (shuffle s.tick (2 ^ 62 + line) all.length all).foldl (fun s p =>
    let pa := p.1 % 2 ^ 50 * 4
    let x := redMerge p.2.kind (s.homeNat pa 4) p.2.word.toNat
    (s.mergeHome (bytesAt pa 4 x) none p.2.vf 0xFFFFFE).2) s
  ({ s with
    l1Parts := s.l1Parts.filter fun p => !here p.1
    l2Parts := s.l2Parts.filter fun p => !here p.1 }).modL2 line fun l => { l with partials := [] }

def State.hasPartials (s : State) (line : Nat) : Bool :=
  (s.l1Parts.any fun p => lineOf (p.1 % 2 ^ 50 * 4) = line) || (s.l2Parts.any fun p => lineOf (p.1 % 2 ^ 50 * 4) = line)

/-! ### The scratchpad (R71) -/

def scrKey (c off : Nat) : Nat := c * 2 ^ 21 + off

/-- The key of a byte of a workgroup's allocation. -/
def Wg.scrByte (g : Wg) (off : Nat) : Nat := scrKey g.cluster (g.rail * 148 + off)

def State.scrGet (s : State) (g : Wg) (off : Nat) : Byte := s.scratch.get 0 (g.scrByte off)
def State.scrBytes (s : State) (g : Wg) (off n : Nat) : List Byte := (List.range n).map fun i => s.scrGet g (off + i)
def State.scrNat (s : State) (g : Wg) (off n : Nat) : Nat := ofBytes (s.scrBytes g off n)
def State.scrBad (s : State) (g : Wg) (off n : Nat) : Bool :=
  (List.range n).any fun i => (s.scratchBad.look (g.scrByte (off + i) / 8)).isSome

/-- A read of scratchpad bytes finds the errors that stand in their words (R356). -/
def State.noteScr (s : State) (g : Wg) (off n : Nat) : State :=
  if s.plants.isEmpty then s else s.findPlants 5 fun k => decide (g.scrByte off / 8 ≤ k / 8 ∧ k / 8 ≤ g.scrByte (off + n - 1) / 8)

/-- Writes scratchpad bytes; a word written whole becomes clean (R346). -/
def State.scrPut (s : State) (g : Wg) (off : Nat) (bs : List Byte) : State :=
  let keyed : List (Nat × Byte) := ((List.range bs.length).zip bs).map fun p => (g.scrByte (off + p.1), p.2)
  let s := { s with scratch := keyed.foldl (fun (t : Tab Byte) (p : Nat × Byte) => t.set 0 p.1 p.2) s.scratch }
  let s := if s.scratchBad.isEmpty then s
    else { s with scratchBad := s.scratchBad.keep fun w _ => !covers keyed (w * 8) }
  s.firePlants 5 (touches keyed) (covers keyed)

/-- Words that begin in a range and that an operation writes whole lose their marks (R346). -/
def State.scrFresh (s : State) (g : Wg) (off n : Nat) (cov : Nat → Bool) : State :=
  if s.scratchBad.isEmpty then s
  else
    let ws := (List.range n).filterMap fun i =>
      if g.scrByte (off + i) % 8 = 0 && (List.range 8).all (fun k => cov (off + i + k)) then some (g.scrByte (off + i) / 8) else none
    { s with scratchBad := s.scratchBad.keep fun w _ => !ws.contains w }

def State.scrPutNat (s : State) (g : Wg) (off n x : Nat) : State := s.scrPut g off (toBytes n x)

def State.scrMark (s : State) (g : Wg) (off n : Nat) : State :=
  (List.range n).foldl (fun s i => { s with scratchBad := s.scratchBad.put (g.scrByte (off + i) / 8) true }) s

/-- The stash window that a scratchpad byte lies in. -/
def Wg.stashAt (g : Wg) (off : Nat) : Option Stash := g.stash.find? fun w => w.scr ≤ off && off < w.scr + w.len

/-- Some byte of a range lies in a stash window. -/
def Wg.stashHits (g : Wg) (off n : Nat) : Bool := g.stash.any fun w => decide (off < w.scr + w.len ∧ w.scr < off + n)

/-- The leaf maps a virtual page of a virtual function. -/
def Tlb.maps (t : Tlb) (vf page : Nat) : Bool := t.vf = vf && decide (t.page ≤ page ∧ page < t.page + t.span)

/-- The physical address of a virtual address that a leaf maps. -/
def Tlb.phys (t : Tlb) (va : Nat) : Nat := t.frame + (va - t.page * 4096)

/-- The pinned leaf of a byte of a window. -/
def Stash.pin (w : Stash) (off : Nat) : Option Tlb :=
  let page := (w.va + (off - w.scr)) / 4096
  w.pins.find? fun t => t.page ≤ page && page < t.page + t.span

/-- The physical address of a byte of a window, through its pinned translations. -/
def Stash.phys (w : Stash) (off : Nat) : Nat := ((w.pin off).map fun t => t.phys (w.va + (off - w.scr))).getD 0

def Stash.leaseAt (w : Stash) (off : Nat) : Nat := ((w.pin off).map Tlb.lease).getD 10

/-! ### Range locks (R89 to R91) -/

def State.locksOf (s : State) (c : Nat) : List (Nat × Lock) := s.locks.filter fun p => p.1 / 64 = c

/-- The lowest entry of a cluster's table that a fibre access of bytes first..last meets: a read meets destinations, a write both.
Scratchpad ranges are held as bytes of the cluster's rails, global ones as virtual addresses. -/
def State.lockHit (s : State) (c : Nat) (isGlobal : Bool) (first last : Nat) (wr : Bool) : Option Nat :=
  ((s.locksOf c).find? fun (p : Nat × Lock) =>
    decide (p.2.isGlobal = isGlobal ∧ (wr = true ∨ p.2.dest = true) ∧ first ≤ p.2.last ∧ p.2.first ≤ last)).map fun p => p.1 % 64

/-- Free entries of a cluster's table. -/
def State.locksFree (s : State) (c : Nat) : Nat := 64 - (s.locksOf c).length

/-- Takes lock entries in a cluster's table, at its lowest free places. -/
def State.takeLocks (s : State) (c : Nat) (ls : List Lock) : State :=
  ls.foldl (fun s l =>
    match (List.range 64).find? fun i => (s.locks.look (c * 64 + i)).isNone with
    | some i => { s with locks := s.locks.put (c * 64 + i) l }
    | none => s) s

/-- Releases the entries that an operation holds (R90). -/
def State.dropLocks (s : State) (op : Nat) : State := { s with locks := s.locks.keep fun _ l => l.op ≠ op }

end Sys2Proof.Machine
end

