-- ==== Sys2Proof/Machine/Trans.lean ====
section
/-! DEFINITION. Address translation: the table walk, the translation caches, and what a fault does to its requester (R322 to R332). -/

namespace Sys2Proof.Machine

open Sys2Proof.Num (bits bit)

/-! ### The table (R322 to R325) -/

/-- Access bits of a fault entry (R330). -/
def accRead : Nat := 1
def accWrite : Nat := 2
def accFetch : Nat := 4
def accEngine : Nat := 8

/-- Where a walk ends. -/
inductive WalkOut where
  | found (t : Tlb)
  | absent (level : Nat)
  | protect (level : Nat) (cow : Bool) (t : Tlb)
  | fatal (detail level : Nat)
  | refused (pa level : Nat)
deriving DecidableEq, Repr, Inhabited

/-- One level of a walk: on to the next table, or the end. -/
inductive WalkStep where
  | down (table : Nat)
  | stop (o : WalkOut)
deriving DecidableEq, Repr, Inhabited

/-- An alias page lies in the alias range of an enabled window (R297): its number. -/
def State.windowAt (s : State) (pa : Nat) : Option Nat :=
  (List.range 16).find? fun n =>
    let x := (s.fmtwin.get 0 n).toNat
    let lo := bits x 51 12 * 4096
    bit x 0 && decide (lo ≤ pa ∧ pa < lo + (2 * bits x 231 192 + 4095) / 4096 * 4096)

/-- The fields of a contiguous group's entries that must agree: all but the address. -/
def entryRest (e : Nat) : Nat := e % 4096 + bits e 63 52 * 4096

/-- The 16 entries of a group all have contig, agree, and map a 64 KiB page in order (R324). -/
def State.groupOk (s : State) (table index : Nat) : Bool :=
  let first := index / 16 * 16
  let e0 := s.homeNat (table + 8 * first) 8
  let base := bits e0 51 12 * 4096
  base % 65536 = 0 && (List.range 16).all fun i =>
    let e := s.homeNat (table + 8 * (first + i)) 8
    bit e 2 && entryRest e = entryRest e0 && bits e 51 12 * 4096 = base + 4096 * i

/-- The lease that an entry holds; 0 selects 10 (R81, R323). -/
def entryLease (e : Nat) : Nat :=
  let l := bits e 54 52 * 32 + bits e 11 7
  if l = 0 then 10 else l

/-- The outcome at one level, by the conditions of R325 in their order. -/
def State.walkLevel (s : State) (die vf va : Nat) (wr : Bool) (level table : Nat) : WalkStep :=
  let index := va / 2 ^ (12 + 9 * level) % 512
  let pa := table + 8 * index
  if !s.memAllows (unitMaster die) vf pa true false then .stop (.refused pa level)
  else
    let e := s.homeNat pa 8
    let ty := e % 4
    let bytes := 2 ^ (12 + 9 * level)
    let contig := bit e 2
    let addr := bits e 51 12 * 4096
    if bits e 57 55 ≠ 0 || (bit e 3 && ty ≠ 2) || (contig && level ≠ 0) then .stop (.fatal 2 level)
    else if ty = 0 then .stop (.absent level)
    else if (ty = 1 && level = 0) || (ty ≥ 2 && level = 3) then .stop (.fatal 3 level)
    else if ty ≥ 2 && !contig && addr % bytes ≠ 0 then .stop (.fatal 4 level)
    else if contig && !s.groupOk table index then .stop (.fatal 5 level)
    else if bits e 63 58 ≠ vf then .stop (.fatal 6 level)
    else if ty = 1 then .down addr
    else
      let size := if contig then 65536 else bytes
      let frame := if contig then addr / 65536 * 65536 else addr
      let t : Tlb := ⟨vf, va / size * size / 4096, size / 4096, frame, ty = 3, bit e 3, bits e 6 4, entryLease e⟩
      let target := t.phys va
      if !populated target then .stop (.fatal 7 level)
      else if t.kind = 2 && (s.windowAt target).isNone then .stop (.fatal 8 level)
      else if wr && ty = 2 then .stop (.protect level t.cow t)
      else .stop (.found t)

/-- A walk from a table at a level downward: the pointers it met, and where it ends. -/
def State.walkFrom (s : State) (die vf va : Nat) (wr : Bool) : Nat → Nat → List WalkPtr × WalkOut
  | 0, table =>
    match s.walkLevel die vf va wr 0 table with
    | .stop o => ([], o)
    | .down _ => ([], .fatal 3 0)
  | level + 1, table =>
    match s.walkLevel die vf va wr (level + 1) table with
    | .stop o => ([], o)
    | .down t =>
      let r := s.walkFrom die vf va wr level t
      (⟨die, vf, level + 1, va / 2 ^ (12 + 9 * (level + 1)), t⟩ :: r.1, r.2)

/-- The cached pointer a walk of a die starts from: the deepest that covers the address (R326). -/
def State.cachedPtr (s : State) (die vf va : Nat) : Option WalkPtr :=
  [1, 2, 3].findSome? fun level => s.walkCache.find? fun p =>
    p.die = die && p.vf = vf && p.level = level && p.base = va / 2 ^ (12 + 9 * level)

/-- One walk (R325). -/
def State.walk (s : State) (die vf va : Nat) (wr : Bool) : List WalkPtr × WalkOut :=
  let root := (s.ptroot.get 0 vf).toNat
  if !bit root 0 then ([], .fatal 1 3)
  else match s.cachedPtr die vf va with
    | some p => s.walkFrom die vf va wr (p.level - 1) p.table
    | none => s.walkFrom die vf va wr 3 (bits root 51 12 * 4096)

/-- A walk caches the pointers it met, at most 128 of a die; the entry that gives way is a free choice (R326). -/
def State.cachePtrs (s : State) (die : Nat) (ps : List WalkPtr) : State :=
  ps.foldl (fun s p =>
    let mine := s.walkCache.filter fun q => q.die = die
    let (keep, s) := if mine.length < 128 then (s.walkCache, s)
      else
        let out := mine[Config.victim s.freeCount % 128]?
        (s.walkCache.filter fun q => some q ≠ out, { s with freeCount := s.freeCount + 1 })
    { s with walkCache := p :: keep.filter fun q => q ≠ p }) s

/-! ### Translation caches (R326, R327) -/

/-- The TLB of a cluster's fibres and fetches, and of one of its engines: 0 tensor core and mover, 1 ternary array, 2 copy engine, 3 streams. -/
def fibreTlb (c : Nat) : Nat := c
def engineTlb (c e : Nat) : Nat := 192 + c * 4 + e

/-- A cached translation. -/
def State.tlbLook (s : State) (unit vf page : Nat) : Option Tlb := (s.tlbs.get [] unit).find? fun t => t.maps vf page

/-- The unit number of a requester without a TLB: the die's shared units. -/
def noTlb : Nat := 960

/-- Fills a TLB; a full one first gives up an entry of free choice. -/
def State.tlbFill (s : State) (unit : Nat) (t : Tlb) : State :=
  if unit ≥ noTlb then s else
  let cap := if unit < 192 then 256 else 64
  let old := (s.tlbs.get [] unit).filter fun q =>
    !(q.vf = t.vf && decide (q.page < t.page + t.span ∧ t.page < q.page + q.span))
  let (old, s) := if old.length < cap then (old, s)
    else (old.eraseIdx (Config.victim s.freeCount % cap), { s with freeCount := s.freeCount + 1 })
  { s with tlbs := s.tlbs.set [] unit (t :: old) }

/-- Drops the translations that a test picks out, from every TLB and walk cache (R308, R327). -/
def State.tlbDrop (s : State) (f : Tlb → Bool) (g : WalkPtr → Bool) : State :=
  { s with
    tlbs := s.tlbs.mapv fun _ ts => ts.filter fun t => !f t
    walkCache := s.walkCache.filter fun p => !g p }

/-- Drops the translations of a virtual function that cover an address, of any page size. -/
def State.tlbDropVa (s : State) (vf va : Nat) : State :=
  s.tlbDrop (fun t => t.maps vf (va / 4096)) fun p => p.vf = vf && p.base = va / 2 ^ (12 + 9 * p.level)

/-! ### Asking for a walk -/

/-- Asks the die's walker for a translation; the same request is not made twice. -/
def State.askWalk (s : State) (w : Walk) : State :=
  if s.walks.any fun p => p.2 = w then s
  else
    let (id, s) := s.fresh
    { s with walks := s.walks.put id w }

/-- A warp's instruction or fetch waits for the walks of the pages listed: it keeps its issue port and issues again (R326). -/
def State.needPages (s : State) (sel access : Nat) (pages : List Nat) : State :=
  match s.warps.look sel with
  | none => s
  | some w =>
    let c := clusterOf sel
    let s := pages.foldl (fun s p => s.askWalk ⟨.warp sel access, dieOf c, fibreTlb c, w.vf, p, access⟩) s
    s.modWarp sel fun w => { w with needs := pages }

/-- The mark, in place of a detail of R325, of a page whose walk a target refused (R298, R302). -/
def walkRefused : Nat := 256

/-- A page whose last walk for this warp was fatal or declined, with its detail. -/
def Warp.fatalOf (w : Warp) (pages : List Nat) : Option (Nat × Nat) :=
  pages.findSome? fun p => w.fatal.find? fun f => f.1 = p

/-! ### The fault queue (R329 to R332) -/

/-- The fault area of a virtual function: 0 where it has none. -/
def State.faultArea (s : State) (vf : Nat) : Nat := bits (s.vfcfg.get 0 vf).toNat 127 64

/-- Writes an informational entry (cause 3 to 5): it waits for room in the queue like any other. Nothing waits for its answer. -/
def State.informFault (s : State) (vf page master access cause detail level warp launch die : Nat) : State :=
  if s.faultArea vf = 0 then s
  else
    let (id, s) := s.fresh
    { s with faults := s.faults.put id ⟨vf, page, master, access, cause, detail, level, warp, launch, die, none, []⟩ }

/-- The entry that is pending for a page, into which further faults merge (R332). -/
def State.pendingFault (s : State) (vf page : Nat) : Option (Nat × PageFault) :=
  s.faults.first fun _ f => f.vf = vf && f.page = page && decide (f.cause ≤ 2) && !f.askers.isEmpty

/-- A recoverable fault joins the pending entry of its page or makes a new one. An entry already written has its access byte rewritten. -/
def State.raiseFault (s : State) (f : PageFault) : State :=
  match s.pendingFault f.vf f.page with
  | some (id, old) =>
    let s := match old.number with
      | some n => if old.access ||| f.access = old.access then s
        else s.unitWrite old.die old.vf (bytesAt (s.faultArea old.vf + 32 * (n % 4096) + 10) 1 (old.access ||| f.access))
      | none => s
    { s with faults := s.faults.put id { old with
        access := old.access ||| f.access
        askers := old.askers ++ f.askers.filter fun a => !old.askers.contains a } }
  | none =>
    let (id, s) := s.fresh
    { s with faults := s.faults.put id f }

/-- Parks a warp on a page (R13, R328): its clause ends at the instruction, after one for which it holds its port. -/
def State.parkWarp (s : State) (sel : Nat) (p : Park) : State :=
  let s := if ((s.warps.look sel).bind Warp.batch).isSome && ((s.warps.look sel).bind Warp.hold).isNone then s.endClause sel [] else s
  s.modWarp sel fun w => { w with
    state := if w.state = .ready then .parked else w.state
    needs := []
    parks := if w.parks.contains p then w.parks else p :: w.parks }

/-- One park of a warp is over. -/
def State.unpark (s : State) (sel : Nat) (p : Park) : State :=
  (s.modWarp sel fun w => { w with parks := w.parks.filter fun q => q ≠ p }).unparkIfFree sel

/-- Marks one lane of a load that is not yet bound or cancelled. -/
def State.setAcc (s : State) (id lane : Nat) (ph : LPhase) : State :=
  { s with loads := s.loads.modify id fun ld =>
      { ld with accs := ld.accs.map fun a => if a.lane = lane && (a.phase = .wait || a.phase = .parked) then { a with phase := ph } else a } }

/-- A load without a destination that counts in no threshold: a prefetch (R185). -/
def Load.isPref (ld : Load) : Bool := ld.kind = .mem && ld.counted = 0

/-- A prefetch's lane is dropped; any other lane's access is refused, and its destination is to be poisoned with an origin (R175, R339). -/
def State.refuseAcc (s : State) (id lane origin : Nat) : State :=
  if ((s.loads.look id).map Load.isPref).getD false then s.cancelAccs id fun a => a.lane = lane
  else s.setAcc id lane (.refused origin)

/-- The handle of a warp, as for SRET (R306); a pre-empted warp has none. -/
def handleOf (sel : Nat) : Nat := if sel ≥ 6144 then 0xFFFFFFFF else clusterOf sel * 32 + slotOf sel

/-- The warp, master, virtual function and launch an asker stands for: handle, master, launch. -/
def State.askerInfo (s : State) (a : Asker) (die : Nat) : Nat × Nat × Nat :=
  let ofWarp (sel : Nat) : Nat × Nat × Nat := (handleOf sel, clusterOf sel, ((s.warps.look sel).map Warp.launch).getD 0)
  match a with
  | .warp w _ | .cow w => ofWarp w
  | .load id _ => ofWarp (((s.loads.look id).map Load.warp).getD 0)
  | .engine id => match s.engines.look id with
    | some e => (0xFFFFFFFF, engineMaster e.cluster, e.launch)
    | none => (0xFFFFFFFF, unitMaster die, 0)
  | .save g => (0xFFFFFFFF, unitMaster die, ((s.wgs.look g).map Wg.launch).getD 0)
  | .record _ _ _ | .migration _ _ => (0xFFFFFFFF, unitMaster die, 0)

/-- A fatal or declined outcome for one requester (the last column of R328), or a walk that a target refused, of detail `walkRefused`
(R175, R302). -/
def State.failAsker (s : State) (a : Asker) (vf page access die detail level : Nat) : State :=
  let refused := detail = walkRefused
  match a with
  | .warp w _ | .cow w =>
    (s.unpark w ⟨page, none⟩).modWarp w fun w =>
      { w with needs := w.needs.filter fun p => p ≠ page, fatal := (page, detail) :: w.fatal }
  | .load id lane =>
    let info := s.askerInfo a die
    let s := match s.loads.look id with
      | some ld => s.unpark ld.warp ⟨page, some (id, lane)⟩
      | none => s
    if ((s.loads.look id).map Load.isPref).getD false then s.refuseAcc id lane 1
    else if refused then (s.refuseAcc id lane 2).informFault vf page info.2.1 access 4 0 level info.1 info.2.2 die
    else (s.refuseAcc id lane 1).informFault vf page info.2.1 access 3 detail level info.1 info.2.2 die
  | .engine id =>
    let info := s.askerInfo a die
    let s := { s with engines := s.engines.modify id fun e => { e with phase := .stopping (if refused then 0x0A else 0x0B) access page } }
    if refused then s else s.informFault vf page info.2.1 access 3 detail level info.1 info.2.2 die
  | .save g =>
    -- the save is given up: the workgroup ends as by SRET mode 2, with cause PAGE_FATAL
    let s := match s.wgs.look g with
      | some w => s.modCluster w.cluster fun k => { k with saving := false }
      | none => s
    s.endWg g 0x0B 0 0 false
  | .record d v q =>
    { s with queues := s.queues.modify ((d * 64 + v) * 16 + q) fun l => l.map fun (r : QRec) =>
      if r.accepted.isNone && r.blocked.isSome then { r with blocked := none, lost := true } else r }
  | .migration q i =>
    { s with migrations := s.migrations.modify q fun m => { m with
        moves := m.moves.map fun (x : Move) => if x.page = i then { x with waiting := true } else x } }

/-- A recoverable fault of one requester: without a fault area it is taken as declined at once (R329), else the requester parks or is
suspended and the fault joins its page's entry. -/
def State.faultAsker (s : State) (w : Walk) (cause level : Nat) : State :=
  let dropped : Bool := match w.who with
    | .load id _ => ((s.loads.look id).map Load.isPref).getD false
    | _ => false
  if dropped || s.faultArea w.vf = 0 then s.failAsker w.who w.vf w.page w.access w.die 0 level
  else
    let info := s.askerInfo w.who w.die
    let s := match w.who with
      | .warp sel _ | .cow sel => s.parkWarp sel ⟨w.page, none⟩
      | .load id lane =>
        match s.loads.look id with
        | some ld => (s.setAcc id lane .parked).parkWarp ld.warp ⟨w.page, some (id, lane)⟩
        | none => s
      | .engine id => { s with engines := s.engines.modify id fun e => { e with phase := .suspended w.page } }
      | .save _ | .record _ _ _ | .migration _ _ => s
    s.raiseFault ⟨w.vf, w.page, info.2.1, w.access, cause, 0, level, info.1, info.2.2, w.die, none, [w.who]⟩

/-- A found translation reaches its requester: the TLB is filled, and what waited for it goes on. -/
def State.foundAsker (s : State) (w : Walk) (t : Tlb) : State :=
  let s := s.tlbFill w.cluster t
  match w.who with
  | .warp sel _ | .cow sel =>
    (s.unpark sel ⟨w.page, none⟩).modWarp sel fun x => { x with needs := x.needs.filter fun p => p ≠ w.page }
  | .load id lane =>
    match s.loads.look id with
    | some ld => (s.setAcc id lane .wait).unpark ld.warp ⟨w.page, some (id, lane)⟩
    | none => s
  | .engine _ | .save _ | .record _ _ _ | .migration _ _ => s

end Sys2Proof.Machine
end

