-- ==== Sys2Proof/Machine/Home.lean ====
section
/-! DEFINITION. Lines as they enter and leave the caches: format windows, reads at a home with remote copies, L1 fills and evictions (R65 to R67, R76 to R84). -/

namespace Sys2Proof.Machine

open Sys2Proof.Num (bits bit ofBytes toBytes Mx)

/-! ### Format windows (R65 to R67, R297) -/

/-- A format window's register, by field. -/
structure Win where
  mx : Mx
  base : Nat
  elems : Nat
  scales : Nat
  count : Nat
deriving DecidableEq, Repr

def State.win (s : State) (n : Nat) : Win :=
  let x := (s.fmtwin.get 0 n).toNat
  let mx := match bits x 3 1 with
    | 0 => Mx.e4m3
    | 1 => Mx.e5m2
    | 2 => Mx.e2m1
    | _ => Mx.int8
  ⟨mx, bits x 51 12 * 4096, bits x 115 72 * 256, bits x 179 128, bits x 231 192⟩

/-- The element bytes of a block of 32. -/
def Win.blockLen (w : Win) : Nat := if w.mx = .e2m1 then 16 else 32

/-- The physical address of a block's first element byte. -/
def Win.blockAt (w : Win) (j : Nat) : Nat := w.elems + w.blockLen * j

def State.hbmByte (s : State) (pa : Nat) : Byte := s.hbm.get hbmFresh pa

/-- Element code i of a block as the stack holds it; E2M1 packs two to a byte, the even one low (R51). -/
def State.mxCode (s : State) (w : Win) (j i : Nat) : Nat :=
  if w.mx = .e2m1 then (s.hbmByte (w.blockAt j + i / 2)).toNat / 16 ^ (i % 2) % 16
  else (s.hbmByte (w.blockAt j + i)).toNat

/-- A block decoded to BF16 (R65). -/
def State.mxBlock (s : State) (w : Win) (j : Nat) : List Nat :=
  (List.range 32).map fun i => (Num.mxDecode Num.bf16 w.mx (s.mxCode w j i) (s.hbmByte (w.scales + j)).toNat).1

/-- Some word that a block is read from is marked poisoned. -/
def State.mxBad (s : State) (w : Win) (j : Nat) : Bool := s.anyBad (w.blockAt j) w.blockLen || s.badWord (w.scales + j)

/-- The controller reads a block: errors of its words are found (R345). -/
def State.mxCheck (s : State) (w : Win) (j : Nat) : State :=
  s.checkHbm fun loc => decide (w.blockAt j / 8 ≤ loc / 8 ∧ loc / 8 ≤ (w.blockAt j + w.blockLen - 1) / 8) || loc / 8 = (w.scales + j) / 8

/-- The 64 bytes that a sector of an alias line shows: its block's, or free ones past the window's last block (log 14). -/
def State.aliasBytes (s : State) (w : Win) (j : Nat) : List Byte :=
  if j * 32 < w.count then (s.mxBlock w j).flatMap (toBytes 2)
  else (List.range 64).map fun i => BitVec.ofNat 8 (Config.free (s.freeCount + i))

/-- Fills the sector of an alias line: its bytes are decoded before they enter L2, and bytes already there stay (R65). -/
def State.fillAlias (s : State) (n pa : Nat) : State :=
  let at' := pa / 64 * 64
  let w := s.win n
  let j := (at' - w.base) / 64
  let s := s.mxCheck w j
  let fill := ((List.range 64).zip (s.aliasBytes w j)).filter fun p => (s.l2Bytes.look (at' + p.1)).isNone
  if fill.isEmpty then s
  else
    let bad := j * 32 < w.count && s.mxBad w j
    let s := { s with
      l2Bytes := fill.foldl (fun (t : Tab L2Byte) (p : Nat × Byte) => t.put (at' + p.1) ⟨p.2, false⟩) s.l2Bytes
      freeCount := s.freeCount + 64 }
    let s := if bad then fill.foldl (fun s p => s.markBad (at' + p.1)) s else s
    s.modL2 (lineOf pa) fun l => { l with fmt := some n }

/-- The stack's bytes after one block is encoded: elements and scale together (R66). -/
def State.writeBlock (s : State) (w : Win) (j : Nat) (codes : List Nat) : State :=
  let e := Num.mxEncode w.mx (codes.map (Num.decode Num.bf16))
  let es := e.2.1
  let bs : List Byte := if w.mx = .e2m1 then
      (List.range 16).map fun i => BitVec.ofNat 8 (es.getD (2 * i) 0 + 16 * es.getD (2 * i + 1) 0)
    else es.map (BitVec.ofNat 8)
  let out : List (Nat × Byte) := ((List.range bs.length).zip bs).map (fun p => (w.blockAt j + p.1, p.2)) ++ [(w.scales + j, BitVec.ofNat 8 e.1)]
  ({ ((s.noteOld out).cleanWords out) with hbm := out.foldl (fun (t : Tab Byte) (p : Nat × Byte) => t.set hbmFresh p.1 p.2) s.hbm }).firePlants 3 (touches out) (covers out)

/-- Re-encodes one sector of a dirty alias line: the block is read and decoded, the masked bytes merged, and the block written back whole (R66, R67). -/
def State.encodeSector (s : State) (w : Win) (at' : Nat) : State :=
  let j := (at' - w.base) / 64
  let mine := s.l2Bytes.filter fun p => p.1 / 64 = at' / 64 && p.2.dirty
  if mine.isEmpty || j * 32 ≥ w.count then s
  else
    let bad := mine.any (fun p => s.badWord p.1)
    let s := s.mxCheck w j
    let bytes := (List.range 64).zip (s.aliasBytes w j) |>.map (fun (p : Nat × Byte) => match Tab.look mine (at' + p.1) with
      | some b => b.val
      | none => p.2)
    let codes := (List.range 32).map fun i => ofBytes [bytes.getD (2 * i) 0, bytes.getD (2 * i + 1) 0]
    let s := s.writeBlock w j codes
    if bad then (List.range w.blockLen).foldl (fun s i => s.markBad (w.blockAt j + i)) s else s

/-- An alias line leaves L2: its dirty blocks are re-encoded, and the line is dropped. -/
def State.evictAlias (s : State) (line : Nat) : State :=
  match (s.l2Line line).fmt with
  | none => s
  | some n =>
    let w := s.win n
    ((List.range 4).foldl (fun s i => s.encodeSector w (line * 256 + 64 * i)) s).dropL2 line false

/-! ### Reads at a home (R79, R82, R93) -/

def remoteKey (die line : Nat) : Nat := die * 2 ^ 44 + line
def remoteByteKey (die pa : Nat) : Nat := die * 2 ^ 52 + pa

/-- What a read of a sector gives: its bytes, and the line's timestamps. -/
structure Read where
  bytes : List Byte
  wts : Nat
  rts : Nat
  lost : Bool          -- the read found an uncorrectable error in a dirty line: its data are poisoned (R363)
deriving DecidableEq, Repr, Inhabited

/-- The die of a cluster keeps a copy of a remote line that serves a read at the cluster's pts (R79). -/
def State.remoteHit (s : State) (c at' : Nat) : Option Read :=
  let d := dieOf c
  match s.remotes.look (remoteKey d (lineOf at')) with
  | none => none
  | some r =>
    if tsLt r.rts (s.cluster c).pts.toNat then none
    else
      let bs := (List.range 64).map fun i => s.remoteBytes.look (remoteByteKey d (at' + i))
      if bs.all Option.isSome then some ⟨bs.map fun b => b.getD 0, r.wts, r.rts, false⟩ else none

/-- Keeps a copy of a remote line's sector in the requesting die's L2; a copy of an older write is dropped first. -/
def State.keepRemote (s : State) (c at' : Nat) (r : Read) : State :=
  let d := dieOf c
  let k := remoteKey d (lineOf at')
  let old := s.remotes.look k
  let s := if (old.map Remote.wts).getD r.wts = r.wts then s
    else { s with remoteBytes := s.remoteBytes.filter fun p => !(p.1 / 2 ^ 52 = d && lineOf (p.1 % 2 ^ 52) = lineOf at') }
  { s with
    remotes := s.remotes.put k ⟨r.wts, r.rts⟩
    remoteBytes := ((List.range 64).zip r.bytes).foldl (fun (t : Tab Byte) (p : Nat × Byte) => t.put (remoteByteKey d (at' + p.1)) p.2) s.remoteBytes }

/-- A cluster reads the sector at `at'` past its L1 (R82): through a remote copy whose lease still runs, else at the home, which extends
the lease. A reduction page's line is always read at the home, its partials merged first (R93); an alias line is decoded as it enters
L2 (R65). -/
def State.readSector (s : State) (c at' lease kind : Nat) (streaming : Bool) : Read × State :=
  let line := lineOf at'
  match (if kind ≥ 3 || s.hasPartials line || s.anyBad at' 64 then none else s.remoteHit c at') with
  | some r => (r, s)
  | none =>
    let s := if s.hasPartials line then s.mergePartials line else s
    let before := s.isRetired at'
    let s := (s.enterL2 line streaming).checkRead at' 64
    let lost := s.isRetired at' && !before
    let s := match (if kind = 2 then s.windowAt at' else none) with
      | some n => s.fillAlias n at'
      | none => s
    let (ts, s) := s.renewHome at' (s.cluster c).pts.toNat lease streaming
    let r : Read := ⟨s.homeBytes at' 64, ts.1, ts.2, lost⟩
    let s := s.shareTs at' c
    (r, if lost || s.ownDie at' = some (dieOf c) then s else s.keepRemote c at' r)

/-! ### L1 fills and evictions (R76, R317, R345, R381) -/

/-- The workgroup with a placement index on a cluster. -/
def State.wgAt (s : State) (c idx : Nat) : Option Nat :=
  (s.wgs.find? fun p => p.2.cluster = c && p.2.idx = idx && p.2.phase ≠ .saved).map Prod.fst

/-- The victim tags of a warp, newest first, 16 of them. -/
def State.noteVictim (s : State) (sel line : Nat) : State :=
  s.modWarp sel fun w => { w with victims := (line :: w.victims.filter fun t => t ≠ line).take 16 }

/-- The words of an L1 line in which an uncorrectable error stands, by physical address div 8. -/
def State.l1Errors (s : State) (c line : Nat) : List Nat :=
  (s.plants.filter fun p => p.unit = 8 && p.present && p.double && p.loc / 2 ^ 52 = c && lineOf (p.loc % 2 ^ 52) = line).map fun p => p.loc % 2 ^ 52 / 8

/-- A line leaves L1: each workgroup's dirty bytes are sent to L2, those of words with an uncorrectable error marked poisoned, and its
clean bytes are dropped. -/
def State.l1Out (s : State) (c line : Nat) : State :=
  match s.l1.look (l1Key c line) with
  | none => s
  | some l =>
    let bad := s.l1Errors c line
    let s := s.findPlants 8 fun loc => loc / 2 ^ 52 = c && lineOf (loc % 2 ^ 52) = line
    let writer (pa : Nat) : Option Nat := (s.l1Bytes.look (l1ByteKey c pa)).bind L1Byte.writer
    let dirty := s.l1Dirty c line
    let owners := (dirty.filterMap fun b => writer b.1).eraseDups
    let s := owners.foldl (fun s' i =>
      let bs := dirty.filter fun b => writer b.1 = some i
      let (id, s') := s'.sendLine (l.filler.getD (c * 32)) ((s.wgAt c i).getD 0) c line bs
      { s' with flights := s'.flights.modify id fun f => { f with bad := bad.filter fun w => touches bs (w * 8) } }) s
    let s := s.dropClean c line
    let s := { s with l1 := s.l1.del (l1Key c line) }
    match l.filler with
    | some sel => if l.leased then s.noteVictim sel line else s
    | none => s

/-- Makes room in the L1 set of a line: one of 8 ways (R381). -/
def State.l1Room (s : State) (c line : Nat) : State :=
  if (s.l1.look (l1Key c line)).isSome then s
  else
    let mine := (s.l1.filter fun p => p.1 / 2 ^ 44 = c && p.1 % 2 ^ 44 % 128 = line % 128).map fun p => p.1 % 2 ^ 44
    if mine.length < 8 then s
    else ({ s with freeCount := s.freeCount + 1 }).l1Out c (mine.getD (Config.victim s.freeCount % mine.length) line)

/-- The lowest way of the set that no line of the cluster's L1 holds. -/
def State.l1Way (s : State) (c line : Nat) : Nat :=
  let used := s.l1.filterMap fun p => if p.1 / 2 ^ 44 = c && p.1 % 2 ^ 44 % 128 = line % 128 then some p.2.way else none
  ((List.range 8).find? fun w => !used.contains w).getD 0

/-- Bytes enter an L1 line as clean ones, never over dirty ones and never from a poisoned word. Bytes of another write of the line are
dropped, since the line keeps one copy of the timestamps. -/
def State.l1Fill (s : State) (sel c at' : Nat) (r : Read) (vf lease kind : Nat) : State :=
  let line := lineOf at'
  let k := l1Key c line
  let s := s.l1Room c line
  let same := ((s.l1.look k).map fun l => l.leased && l.wts = r.wts).getD false
  let s := if same then s else s.dropClean c line
  let fill := ((List.range 64).zip r.bytes).filter fun p =>
    !s.badWord (at' + p.1) && ((s.l1Bytes.look (l1ByteKey c (at' + p.1))).bind L1Byte.writer).isNone
  let old := s.l1.look k
  let l : L1Line := match old with
    | some l => { l with wts := r.wts, rts := r.rts, leased := true, used := s.tick, filler := some (l.filler.getD sel) }
    | none => ⟨r.wts, r.rts, true, s.l1Way c line, s.tick, 0, vf, lease, kind, some sel⟩
  let keyed := fill.map fun p => (l1ByteKey c (at' + p.1), p.2)
  ({ s with
    l1 := s.l1.put k l
    l1Bytes := keyed.foldl (fun (t : Tab L1Byte) (p : Nat × Byte) => t.put p.1 ⟨p.2, none⟩) s.l1Bytes }).firePlants 8 (touches keyed) (covers keyed)

/-- The L1 copy serves every byte of an access, and no error stands in it. -/
def State.l1Hit (s : State) (c pa n : Nat) : Bool :=
  ((List.range n).all fun i => (s.l1Serves c (pa + i)).isSome) && !((s.l1Errors c (lineOf pa)).any fun w => decide (pa / 8 ≤ w ∧ w ≤ (pa + n - 1) / 8))

/-- The sweep of R84 over an L1: lines whose rts lies below pts − 2^14 are invalidated, their dirty bytes written back first. -/
def State.sweepL1 (s : State) (c : Nat) : State :=
  let lo := ((s.cluster c).pts.toNat + 65536 - 16384) % 65536
  let old := (s.l1.filter fun p => p.1 / 2 ^ 44 = c && p.2.leased && tsLt p.2.rts lo).map fun p => p.1 % 2 ^ 44
  old.foldl (fun s l => s.l1Out c l) s

/-- A miss of a warp on one of its victim tags raises its lost-locality score (R317). -/
def State.noteMiss (s : State) (sel line : Nat) : State :=
  s.modWarp sel fun w => if w.victims.contains line then { w with score := min 255 (w.score + 1) } else w

/-! ### Writes by mask at L2 -/

/-- A merge of a request's bytes at their home, with its poison marks; an alias line's window is noted, so that the line leaves by
re-encoding (R66). -/
def State.mergeFlight (s : State) (f : Flight) : Option Nat × State :=
  let (t, s) := s.mergeHome f.bytes (if f.context = 0xFFFFFE then none else some f.pts) f.vf f.context
  let s := f.bad.foldl (fun s w => s.markBad (w * 8)) s
  match (if t.isSome then s.windowAt f.addr else none) with
  | some n => (t, s.modL2 (lineOf f.addr) fun l => { l with fmt := some n })
  | none => (t, s)

end Sys2Proof.Machine
end

