-- ==== Sys2Proof/Machine/Operands.lean ====
section
/-! DEFINITION. Register operands: the crossbar, the checks of steps 7 and 8 of R142, special registers, and the writing of results. -/

namespace Sys2Proof.Machine

open Sys2Proof.Num (bits bit)

/-! ### Operands -/

/-- One register operand of an instruction, as steps 7 and 8 of R142 see it. -/
structure Opnd where
  reg : Reg
  pat : Nat
  par : Nat
  pol : Bool
  wide : Bool
  dst : Bool
deriving DecidableEq, Repr, Inhabited

/-- A crossbar source. -/
def srcOpnd (x : Src) (wide : Bool) : Opnd := ⟨x.reg, x.pat, x.par, x.pol, wide, false⟩

/-- A source read with the identity pattern. -/
def regOpnd (r : Reg) (pol wide : Bool) : Opnd := ⟨r, 0, 0, pol, wide, false⟩

/-- A destination. -/
def dstOpnd (r : Reg) (wide : Bool) : Opnd := ⟨r, 0, 0, false, wide, true⟩

/-- The source lane of a pattern (R46). -/
def Opnd.lane (o : Opnd) (l : Nat) : Nat :=
  match o.pat with
  | 0 => l
  | 1 => (l + o.par) % 32
  | 2 => o.par
  | _ => l ^^^ o.par

/-- The number of registers an operand names. -/
def Opnd.words (o : Opnd) : Nat := if o.wide then 2 else 1

/-! ### Special registers (R37, R38) -/

/-- The value of special n as a lane of a warp reads it. -/
def State.special (s : State) (sel lane n : Nat) : Nat :=
  match s.warps.look sel with
  | none => 0
  | some w =>
    let c := clusterOf sel
    let f := s.fibres.look (fibreKey sel lane)
    let wg := s.wgs.look w.wg
    let gs := s.groupsOf sel
    match n with
    | 0 => lane
    | 1 => w.num
    | 2 => (wg.map Wg.lin).getD 0
    | 3 => (wg.map Wg.x).getD 0
    | 4 => (wg.map Wg.y).getD 0
    | 5 => (wg.map Wg.z).getD 0
    | 6 => c
    | 7 => s.dieNumber c
    | 8 => w.lanes
    | 9 => slotOf sel * 32 + lane
    | 10 => (s.cluster c).cyc.toNat % 2 ^ 32
    | 11 => (s.cluster c).cyc.toNat / 2 ^ 32
    | 12 => (s.cluster c).pts.toNat
    | 13 => w.seq.toNat
    | 14 => w.view.toNat
    | 15 => w.width.toNat
    | 16 => w.rank.toNat
    | 17 => w.iter.toNat
    | 18 => (gs.map Group.num).reverse.foldl (fun x g => x * 256 + g) 0 % 2 ^ 32
    | 19 => s.roleSet sel + 256 * gs.length
    | 20 => (f.map s.rgnOf).getD 0
    | 21 => w.fpc.toNat
    | 22 => (f.map fun f => f.wb.toNat).getD 0
    | 23 => w.launch
    | _ => w.vf

/-! ### What a read finds (R35, R43, R47) -/

/-- The value of an operand, the keys of its empty registers, or its poison. -/
inductive Peek where
  | full (x : Nat)
  | empty (v k : List Nat)
  | poisoned (origin : Nat)
deriving DecidableEq, Repr, Inhabited

/-- The value that was read. -/
def Peek.val : Peek → Nat
  | .full x => x
  | _ => 0

/-- One register or a pair: empty if a half is, else poisoned if a half is (R35). -/
def peekCells (isK : Bool) (cs : List (Nat × Cell)) : Peek :=
  let es := (cs.filter fun p => p.2.st = .empty).map Prod.fst
  if !es.isEmpty then (if isK then .empty [] es else .empty es [])
  else match cs.findSome? fun p => match p.2.st with
      | .poisoned o => some o
      | _ => none with
    | some o => .poisoned o
    | none => .full (cs.reverse.foldl (fun x p => x * 2 ^ 32 + p.2.val.toNat) 0)

/-- A k register; k0 reads zero and is always full (R36). -/
def State.kRead (s : State) (sel n : Nat) : Cell := if n = 0 then Cell.zero else s.kCell (kKey sel n)

/-- The registers an operand names, by key, as a lane reads them; none of an empty lane slot. -/
def State.cells (s : State) (sel lane : Nat) (o : Opnd) : List (Nat × Cell) :=
  match o.reg with
  | .k n => (List.range o.words).map fun i => (kKey sel (n + i), s.kRead sel (n + i))
  | .v n =>
    match s.fibres.look (fibreKey sel (o.lane lane)) with
    | none => []
    | some f => (List.range o.words).map fun i =>
        let key := vKey (fibreKey sel (o.lane lane)) (f.wb.toNat + n + i)
        (key, s.vCell key)
  | .sp _ => []

/-- What a lane's read of an operand finds (R47). An empty slot reads zero. -/
def State.peek (s : State) (sel lane : Nat) (o : Opnd) : Peek :=
  match o.reg with
  | .sp n =>
    if o.wide then .full (s.cluster (clusterOf sel)).cyc.toNat
    else if o.pat = 0 then .full (s.special sel lane n % 2 ^ 32)
    else if (s.fibres.look (fibreKey sel (o.lane lane))).isSome then .full (s.special sel (o.lane lane) n % 2 ^ 32)
    else .full 0
  | .k _ => peekCells true (s.cells sel lane o)
  | .v _ => peekCells false (s.cells sel lane o)

/-- The floor that an operand read with the identity pattern passes on (R108). -/
def State.floorOf (s : State) (sel lane : Nat) (ops : List Opnd) : Option Nat :=
  (ops.flatMap fun o => if o.pat = 0 && !o.dst then (s.cells sel lane o).filterMap fun p => p.2.floor else []).foldl
    (fun m t => match m with
      | none => some t
      | some a => some (tsMax a t)) none

/-! ### Steps 7 and 8 of R142 -/

/-- Why an instruction does not take effect now. -/
inductive Stop where
  | trap (t : Trap)
  | block (bs : List (Nat × Wait))
  | rollback (region fib : Nat)
  | done (s : State)                 -- it waits, in the state given
deriving Repr

/-- The window check of one operand (R40), lane by lane and register by register. -/
def State.windowTrap (s : State) (sel lane : Nat) (o : Opnd) : Option Trap :=
  match o.reg with
  | .v n =>
    match s.fibres.look (fibreKey sel (o.lane lane)) with
    | none => none
    | some f =>
      let ext := ((s.warps.look sel).map Warp.ext).getD false
      (List.range o.words).findSome? fun i =>
        let p := f.wb.toNat + n + i
        if p ≥ 128 then some ⟨0x0F, lane, o.reg.code, 0, 0⟩
        else if p ≥ 64 && !ext then some ⟨0x10, lane, o.reg.code, 0, 0⟩
        else none
  | _ => none

/-- The operand names %fpc. -/
def Opnd.isFpc (o : Opnd) : Bool := o.reg = .sp 21

/-- The empty registers for which a lane must wait (R43, R44). -/
def State.lacks (s : State) (sel lane : Nat) (ops : List Opnd) : List Nat × List Nat :=
  ops.foldl (fun acc o => match s.peek sel lane o with
    | .empty v k => if o.dst || !o.pol then (acc.1 ++ v, acc.2 ++ k) else acc
    | _ => acc) ([], [])

/-- The lanes that step 8 blocks, each with what it waits for. -/
def State.blocks (s : State) (sel : Nat) (items : List (Nat × List Opnd)) : List (Nat × Wait) :=
  let due := ((s.warps.look sel).map fun w => !w.flagsDue.isEmpty).getD false
  items.filterMap fun p =>
    let e := s.lacks sel p.1 p.2
    if !e.1.isEmpty || !e.2.isEmpty then some (p.1, .regs e.1 e.2)
    else if due && p.2.any Opnd.isFpc then some (p.1, .fpc)
    else none

/-- The record's origin for a register's origin (R339). -/
def originCode (o : Nat) : Nat :=
  match o with
  | 0 => 0
  | 1 => 0x0B
  | _ => 0x0A

/-- Consumed poison: the innermost open region rolls back, or DATA_POISON is raised (R43). -/
def State.poisonStop (s : State) (sel lane code origin : Nat) : Stop :=
  match (s.fibres.look (fibreKey sel lane)).bind fun f => f.regions.head? with
  | some r => .rollback r (fibreKey sel lane)
  | none => .trap ⟨0x08, lane, code, 0, originCode origin⟩

/-- The trap or rollback that a lane's read of one operand causes. -/
def State.stateStop (s : State) (sel lane : Nat) (o : Opnd) : Option Stop :=
  if o.dst then none
  else match s.peek sel lane o with
    | .full _ => none
    | .empty _ _ => if o.pol then some (.trap ⟨0x07, lane, o.reg.code, 0, 0⟩) else none
    | .poisoned x => some (s.poisonStop sel lane o.reg.code x)

/-- Steps 7 and 8 over the lanes listed, each with its operands: windows first, then blocks, then the states of sources; lanes ascend,
and in a lane the operands go in the order listed (log 12). -/
def State.regGateBy (s : State) (sel : Nat) (items : List (Nat × List Opnd)) : Option Stop :=
  match items.findSome? fun p => p.2.findSome? fun o => s.windowTrap sel p.1 o with
  | some t => some (.trap t)
  | none =>
    match s.blocks sel items with
    | b :: bs => some (.block (b :: bs))
    | [] => items.findSome? fun p => p.2.findSome? fun o => s.stateStop sel p.1 o

/-- Steps 7 and 8 with the same operands in every lane. -/
def State.regGate (s : State) (sel : Nat) (lanes : List Nat) (ops : List Opnd) : Option Stop :=
  s.regGateBy sel (lanes.map fun l => (l, ops))

/-- What a stop does to the warp. -/
def State.halt (s : State) (sel : Nat) : Stop → State
  | .trap t => s.takeTrap sel t
  | .block bs => s.blockLanes sel bs
  | .rollback r f => s.detect r f 0
  | .done s' => s'

/-- The reads of registers find the errors that stand in them (R356). -/
def State.noteReads (s : State) (sel : Nat) (lanes : List Nat) (ops : List Opnd) : State :=
  if s.plants.isEmpty then s
  else
    let keys := lanes.flatMap fun l => ops.flatMap fun o =>
      if o.reg.isV && !o.dst then (s.cells sel l o).map Prod.fst else []
    s.findPlants 4 fun k => keys.contains k

/-! ### Writing results -/

/-- Stores a v register, with the errors that wait for its next write (R356). -/
def State.storeV (s : State) (key : Nat) (c : Cell) : State :=
  let s := s.setV key c
  if c.st = .empty then s else s.firePlants 4 (fun k => k = key) (fun k => k = key)

/-- Writes one 32-bit register of a lane, or of the warp, with a state (R36, R39, R40). -/
def State.writeWord (s : State) (sel lane : Nat) (r : Reg) (i : Nat) (c : Cell) : State :=
  match r with
  | .v n =>
    match s.fibres.look (fibreKey sel lane) with
    | none => s
    | some f => s.storeV (vKey (fibreKey sel lane) (f.wb.toNat + n + i)) c
  | .k n => if n.val + i = 0 then s else s.setK (kKey sel (n + i)) c
  | .sp n =>
    if n.val = 17 then s.modWarp sel fun w => { w with iter := c.val }
    else if n.val = 21 then s.modWarp sel fun w => { w with fpc := c.val &&& 0x1F3 }
    else s

/-- Writes a register or a pair full. -/
def State.writeReg (s : State) (sel lane : Nat) (r : Reg) (wide : Bool) (x : Nat) (floor : Option Nat) : State :=
  let s := s.writeWord sel lane r 0 ⟨.full, BitVec.ofNat 32 x, floor⟩
  if wide then s.writeWord sel lane r 1 ⟨.full, BitVec.ofNat 32 (x / 2 ^ 32), floor⟩ else s

/-- Marks a destination of a long-latency producer empty (R42). -/
def State.markEmpty (s : State) (sel lane : Nat) (r : Reg) (wide : Bool) : State :=
  let s := s.writeWord sel lane r 0 ⟨.empty, 0, none⟩
  if wide then s.writeWord sel lane r 1 ⟨.empty, 0, none⟩ else s

/-- The destination of a producer by key; none of k0 and of a special. -/
def State.dstOf (s : State) (sel lane : Nat) (r : Reg) (wide : Bool) : Option Dst :=
  match r with
  | .v n => (s.fibres.look (fibreKey sel lane)).map fun f => ⟨false, vKey (fibreKey sel lane) (f.wb.toNat + n), wide⟩
  | .k n => if n.val = 0 && !wide then none else some ⟨true, kKey sel n, wide⟩
  | .sp _ => none

/-- Stores one register of a destination. -/
def State.storeDst (s : State) (d : Dst) (i : Nat) (c : Cell) : State :=
  if d.isK then (if (d.key + i) % 64 = 0 then s else s.setK (d.key + i) c) else s.storeV (d.key + i) c

/-- Fills a destination with a value or with poison. -/
def State.fillDst (s : State) (d : Dst) (x : Nat) (poison : Option Nat) (floor : Option Nat) : State :=
  let st : RegSt := match poison with
    | some o => .poisoned o
    | none => .full
  let s := s.storeDst d 0 ⟨st, BitVec.ofNat 32 x, floor⟩
  if d.wide then s.storeDst d 1 ⟨st, BitVec.ofNat 32 (x / 2 ^ 32), floor⟩ else s

/-- The injection of unit 9 counts a VEC result of a lane and flips its bit when the count is reached (R356). -/
def State.inject (s : State) (fib x : Nat) : Nat × State :=
  match s.plants.find? fun p => p.unit = 9 && p.loc = fib with
  | none => (x, s)
  | some p =>
    let rest := s.plants.filter fun q => q ≠ p
    if p.count ≤ 1 then (x ^^^ 2 ^ p.bit, (({ s with plants := rest }).noteFired p).disarm p.die)
    else (x, { s with plants := { p with count := p.count - 1 } :: rest })

/-- Writes a VEC result of a lane. -/
def State.writeVec (s : State) (sel lane : Nat) (r : Reg) (wide : Bool) (x : Nat) (floor : Option Nat) : State :=
  let (y, s) := s.inject (fibreKey sel lane) x
  s.writeReg sel lane r wide y floor

/-- Writes the results of the lanes: each its own v register, the lowest the k register or special (R36). -/
def State.writeLanes (s : State) (sel : Nat) (r : Reg) (wide : Bool) (rs : List (Nat × Nat × Option Nat)) : State :=
  match r with
  | .v _ => rs.foldl (fun s p => s.writeVec sel p.1 r wide p.2.1 p.2.2) s
  | _ => match rs with
    | p :: _ => s.writeVec sel p.1 r wide p.2.1 p.2.2
    | [] => s

/-! ### Steps 2 to 4 of R142 -/

/-- The lowest lane of the batch that a warp runs. -/
def State.lowest (s : State) (sel : Nat) : Nat := (s.batchLanes sel).headD 0

/-- The header word whose class and count bind the batch: that of its lowest lane (R128, log 13). -/
def State.headerWord (s : State) (sel : Nat) : Nat :=
  ((s.fibres.look (fibreKey sel (s.lowest sel))).map fun f => f.hword.toNat).getD 0

/-- The class, role and privilege checks of an opcode, whatever the guards. -/
def State.early (s : State) (sel op : Nat) : Option Trap :=
  let l := s.lowest sel
  let cls := headerClass (s.headerWord sel)
  if (opClass op).code ≠ cls then some ⟨0x04, l, cls, 0, 0⟩
  else if (match opRole op with
      | some r => !bit (s.roleSet sel) r
      | none => false) then some ⟨0x05, l, s.roleSet sel % 32, 0, 0⟩
  else if opPrivileged op && !((s.warps.look sel).map Warp.priv).getD false then some ⟨0x06, l, 0, 0, 0⟩
  else none

/-! ### The effect that vector instructions share (R144) -/

/-- The values of the sources in a lane. -/
def State.vals (s : State) (sel lane : Nat) (ops : List Opnd) : List Nat := ops.map fun o => (s.peek sel lane o).val

/-- Runs an instruction of opcode `op` that takes effect at once in every lane whose guard is true: the checks of R142 up to step 8,
then the effect over those lanes, and the batch goes on. -/
def State.vec (s : State) (op : Nat) (g : Fin 8) (ops : List Opnd) (eff : List Nat → State → State) : State :=
  let sel := s.actor
  match s.early sel op with
  | some t => s.takeTrap sel t
  | none =>
    let lanes := s.guarded sel (s.batchLanes sel) g
    let s := s.noteReads sel lanes ops
    match s.regGate sel lanes ops with
    | some st => s.halt sel st
    | none => (eff lanes s).advance sel (s.batchLanes sel)

end Sys2Proof.Machine
end

