-- ==== Sys2Proof/Machine/Issue.lean ====
section
/-! DEFINITION. Fetching an instruction word and the checks before it executes (R129, R142 steps 1 to 5, R342), and what follows an issue. -/

namespace Sys2Proof.Machine

open Sys2Proof.Num (bits bit)

/-! ### Fetch (R129, R328) -/

/-- What a fetch gives. -/
inductive Fetch where
  | word (w : Nat)
  | miss
  | fatal (detail : Nat)
  | denied
deriving DecidableEq, Repr, Inhabited

/-- The physical address of a word that a warp fetches, where its cluster's TLB holds the translation. -/
def State.fetchPhys (s : State) (sel va : Nat) : Option Nat :=
  let vf := ((s.warps.look sel).map Warp.vf).getD 0
  (s.tlbLook (fibreTlb (clusterOf sel)) vf (va / 4096)).map fun t => t.phys va

/-- The fetch of a word (R129). -/
def State.fetch (s : State) (sel va : Nat) : Fetch :=
  match s.warps.look sel with
  | none => .miss
  | some w =>
    match w.fatalOf [va / 4096] with
    | some f => .fatal f.2
    | none =>
      if va ≥ 2 ^ 48 then .denied
      else match s.fetchPhys sel va with
        | none => .miss
        | some pa =>
          if s.memAllows (clusterOf sel) w.vf pa true false then .word (s.wordSeen w.launch pa) else .denied

/-- The word at an address as a trap record shows it (R340): 0 where no translation leads to one. -/
def State.wordAt (s : State) (sel va : Nat) : DWord :=
  let vf := ((s.warps.look sel).map Warp.vf).getD 0
  match s.fetchPhys sel va with
  | some pa => BitVec.ofNat 64 (s.homeNat pa 8)
  | none => match (s.walk (dieOf (clusterOf sel)) vf va false).2 with
    | .found t => BitVec.ofNat 64 (s.homeNat (t.phys va) 8)
    | _ => 0

/-- A trap of a lane that no issue raises: its record holds the word at the lane's pc. -/
def State.lateTrap (s : State) (sel : Nat) (t : Trap) : State :=
  { s with word := s.wordAt sel (s.position sel t.lane).1.toNat }.takeTrap sel t

/-- A fetch finds the errors that stand where it reads (R345). -/
def State.noteFetch (s : State) (sel va : Nat) : State :=
  if s.plants.isEmpty then s
  else match s.fetchPhys sel va with
    | some pa => s.checkRead pa 8
    | none => s

/-- The trap of a fetch that gives no word. -/
def State.fetchTrap (s : State) (sel va : Nat) (f : Fetch) : State :=
  let lane := s.lowest sel
  match f with
  | .fatal d => (s.modWarp sel fun w => { w with fatal := [] }).takeTrap sel
      (if d = walkRefused then ⟨0x0A, lane, 0, va, 0⟩ else ⟨0x0B, lane, d, va / 4096 * 4096, 0⟩)
  | .denied =>
    let s := match s.warps.look sel, s.fetchPhys sel va with
      | some w, some pa => s.logMem (clusterOf sel) w.vf pa true false
      | _, _ => s
    s.takeTrap sel ⟨0x0A, lane, 0, va, 0⟩
  | _ => s.needPages sel accFetch [va / 4096]

/-! ### Breakpoints (R342) -/

/-- The lowest enabled breakpoint of a cluster at a pc. -/
def State.breakAt (s : State) (c pc : Nat) : Option Nat :=
  (List.range 16).find? fun n =>
    let x := (s.brkpt.get 0 (c * 16 + n)).toNat
    bit x 0 && bits x 47 3 = bits pc 47 3

/-- The breakpoint that an issue at a pc takes: none at the pc of the stop while the warp's skip flag is armed. -/
def State.breakHit (s : State) (sel pc : Nat) : Option Nat :=
  if bit (s.trapRec sel).flags 4 && ((s.warps.look sel).map fun w => decide (w.stop.pc.toNat = pc)).getD false then none else s.breakAt (clusterOf sel) pc

/-! ### Up to the instruction -/

/-- What the front of an issue gives: a state in which no instruction has executed, or the instruction to execute. -/
inductive Front where
  | stop (s : State)
  | run (i : Instr) (s : State)
deriving Repr

/-- The warp may issue the next instruction of the clause it runs; one that holds its port finishes even when its warp has parked. -/
def Warp.mayIssue (w : Warp) (stepping : Bool) : Bool :=
  (w.state = .ready || stepping || (w.hold.isSome && w.state = .parked)) && w.needs.isEmpty &&
    (match w.batch with
     | some b => !b.lanes.isEmpty && b.port.isSome
     | none => false)

/-- Steps 1 to 5 for a word that no instruction of this part has: the opcode's class, roles and privilege are checked before the
encoding (R142). -/
def State.illegal (s : State) (sel w : Nat) : State :=
  match s.early sel (opcodeOf w) with
  | some t => s.takeTrap sel t
  | none => s.takeTrap sel ⟨0x02, s.lowest sel, 0, 0, 0⟩

/-- The warp's workgroup is being pre-empted (R319). -/
def State.stopsFor (s : State) (sel : Nat) : Bool :=
  (((s.warps.look sel).bind fun w => s.wgs.look w.wg).map fun g => decide (g.phase = .stopping)).getD false

/-- A fetched word is decoded: a word of no instruction traps. -/
def State.decoded (s : State) (sel : Nat) (x : DWord) : Front :=
  let s := { s with actor := sel, word := x }
  match decodeWord x with
  | some i => .run i s
  | none => .stop (s.illegal sel x.toNat)

/-- The front of an issue: breakpoint, fetch, decoding. An instruction that waits holding its port is not fetched again. -/
def State.front (s : State) (sel : Nat) (stepping : Bool) : Front :=
  match s.warps.look sel with
  | none => .stop s
  | some w =>
    if !w.mayIssue stepping || (s.stopsFor sel && w.hold.isNone) then .stop s
    else match w.hold with
      | some h => s.decoded sel h.word
      | none =>
        let pc := (s.position sel (s.lowest sel)).1.toNat
        match s.breakHit sel pc with
        | some n =>
          let x := match s.fetch sel pc with
            | .word x => x
            | _ => 0
          .stop ({ s with word := BitVec.ofNat 64 x }.takeTrap sel ⟨0x14, s.lowest sel, n, 0, 0⟩)
        | none =>
          let s := s.noteFetch sel pc
          match s.fetch sel pc with
          | .word x => s.decoded sel (BitVec.ofNat 64 x)
          | f => .stop ({ s with word := 0 }.fetchTrap sel pc f)

/-! ### Stops between instructions (R204, R341, R343) -/

/-- Raises the COPY_FAULT of a warp whose returned waits met a poisoned phase, once the warp is ready (R204) and holds no port for an
instruction. -/
def State.raiseBarFault (s : State) (sel : Nat) : State :=
  match s.warps.look sel with
  | none => s
  | some w =>
    if w.state ≠ .ready || w.hold.isSome || sel ≥ 6144 then s
    else match (s.fibresOf sel).find? fun p => match p.2.wait with
        | .barFault _ => true
        | _ => false with
      | some (l, f) =>
        match f.wait with
        | .barFault b =>
          let hit := (s.fibresOf sel).filter fun p => p.2.wait = .barFault b
          let s := hit.foldl (fun s p => s.modFibre (fibreKey sel p.1) fun f => { f with wait := .none }) s
          let s := s.lateTrap sel ⟨0x0E, l, b, 0, 0⟩
          s.modWarp sel fun w => { w with stop := { w.stop with lanes := hit.map Prod.fst } }
        | _ => s
      | none => s

/-- The halt record of R343: cause 0 unless a valid record stands. -/
def State.haltRecord (s : State) (sel : Nat) (assertStop : Bool) : State :=
  match s.warps.look sel with
  | none => s
  | some w =>
    if (s.trapRec sel).flags % 2 = 1 then s
    else
      let lane := match s.batchLanes sel with
        | l :: _ => l
        | [] => ((s.fibresOf sel).head?.map Prod.fst).getD 0
      let pos := s.position sel lane
      s.setTrap sel { TrapRec.zero with
        flags := 1 + (if assertStop then 2 else 0) + (if w.parks.isEmpty then 0 else 8) + (s.trapRec sel).flags / 16 % 2 * 16
        lane := lane
        launch := w.launch
        pc := pos.1
        header := pos.2
        workgroup := ((s.wgs.look w.wg).map Wg.lin).getD 0
        region := ((s.fibres.look (fibreKey sel lane)).map fun f => s.rgnOf f).getD 0
        word := s.wordAt sel pos.1.toNat
        cycles := (s.cluster (clusterOf sel)).cyc }

/-- Halts a warp (R343): it stops at its instruction boundary and takes state 3, unless a trap has stopped it. An instruction that it
holds its port for is finished first. -/
def State.haltWarp (s : State) (sel : Nat) (assertStop : Bool) : State :=
  match s.warps.look sel with
  | none => s
  | some w =>
    if w.state = .stopped || w.state = .ended || w.state = .halted then s
    else if w.hold.isSome then { s with stopDue := (sel, assertStop) :: s.stopDue.filter fun p => p.1 ≠ sel }
    else
      let s := s.haltRecord sel assertStop
      let s := if w.batch.isSome then s.endClause sel [] else s
      s.modWarp sel fun w => { w with state := .halted }

/-- Halts every warp of a launch (R341, R343) and suspends its placement. -/
def State.haltLaunch (s : State) (launch : Nat) (assertStop : Bool) : State :=
  let s := ((s.warps.filter fun p => p.2.launch = launch).map Prod.fst).foldl (fun s sel => s.haltWarp sel assertStop) s
  { s with
    launches := s.launches.modify launch fun l => { l with suspended := true }
    halts := if s.halts.contains launch then s.halts else launch :: s.halts }

/-- A warp that a halt waits for stops once its instruction is done (R343). -/
def State.stopIfDue (s : State) (sel : Nat) : State :=
  match s.stopDue.find? fun p => p.1 = sel with
  | none => s
  | some p =>
    if ((s.warps.look sel).bind Warp.hold).isSome then s
    else { s with stopDue := s.stopDue.filter fun q => q.1 ≠ sel }.haltWarp sel p.2

/-- Whether an issue has left the warp where it was: it waits for a translation, or stalls at its instruction. -/
def State.unmoved (t s : State) (sel : Nat) : Bool :=
  match s.warps.look sel, t.warps.look sel with
  | some v, some w =>
    !w.needs.isEmpty || (w.batch.isSome && w.hold = v.hold && w.state = v.state &&
      (t.position sel (t.lowest sel)).1 = (s.position sel (s.lowest sel)).1)
  | _, _ => true

/-- A clause ends at the instruction after which its warp is parked or its workgroup stops. -/
def State.endIfStopped (s : State) (sel : Nat) : State :=
  match s.warps.look sel with
  | none => s
  | some w => if w.batch.isSome && w.hold.isNone && (w.state = .parked || s.stopsFor sel) then s.endClause sel [] else s

/-- After an issue, of which `s` stood before and `t` after: unless nothing was executed, the breakpoint skip is spent and the issue is
stamped (R317); a warp of a halted launch stops once its instruction is done. -/
def State.afterIssue (t s : State) (sel : Nat) : State :=
  let u := if t.unmoved s sel then t
    else
      let c := clusterOf sel
      let t := if bit (s.trapRec sel).flags 4 && bit (t.trapRec sel).flags 4 then t.setSkip sel false else t
      let t := t.modCluster c fun k => { k with stamp := k.stamp + 1 }
      let t := t.modWarp sel fun w => { w with lastCycle := (t.cluster c).cyc.toNat, lastIssue := (t.cluster c).stamp, exempt := false }
      t.stopIfDue sel
  { ((u.endIfStopped sel).raiseBarFault sel) with turn := .choose, tick := s.tick + 1 }

end Sys2Proof.Machine
end

