-- ==== Sys2Proof/Machine/Desc.lean ====
section
/-! DEFINITION. The sequence descriptor and the KV page list, which stand in memory (R250 to R252). -/

namespace Sys2Proof.Machine

open Sys2Proof.Num (bits bit)

/-! ### Descriptors (R250) -/

/-- The physical address of a sequence's descriptor. -/
def State.seqAt (s : State) (q : Nat) : Nat := s.seqBase + 256 * q

/-- A field of a descriptor: n bytes from an offset. -/
def State.seqNat (s : State) (q off n : Nat) : Nat := s.homeNat (s.seqAt q + off) n

def State.seqState (s : State) (q : Nat) : Nat := s.seqNat q 0 1
def State.seqFlags (s : State) (q : Nat) : Nat := s.seqNat q 1 1
def State.seqFlag (s : State) (q i : Nat) : Bool := bit (s.seqFlags q) i
def State.seqWidth (s : State) (q : Nat) : Nat := s.seqNat q 2 1
def State.seqPrevWidth (s : State) (q : Nat) : Nat := s.seqNat q 4 1
def State.seqWindow (s : State) (q : Nat) : Nat := s.seqNat q 5 1
def State.seqPaths (s : State) (q : Nat) : Nat := s.seqNat q 6 1
def State.seqTokens (s : State) (q : Nat) : Nat := s.seqNat q 7 1
def State.seqView (s : State) (q : Nat) : Nat := s.seqNat q 8 4
def State.seqCommitted (s : State) (q : Nat) : Nat := s.seqNat q 16 4
def State.seqWindowBase (s : State) (q : Nat) : Nat := s.seqNat q 20 4
def State.seqKey (s : State) (q : Nat) : Nat := s.seqNat q 24 8
def State.seqKvBase (s : State) (q : Nat) : Nat := s.seqNat q 32 8
def State.seqTokenBytes (s : State) (q : Nat) : Nat := s.seqNat q 40 4
def State.seqKvLimit (s : State) (q : Nat) : Nat := s.seqNat q 44 4
def State.seqStateBase (s : State) (q : Nat) : Nat := s.seqNat q 48 8
def State.seqStateLen (s : State) (q : Nat) : Nat := s.seqNat q 56 4
def State.seqPoolCount (s : State) (q : Nat) : Nat := s.seqNat q 60 1
def State.seqVf (s : State) (q : Nat) : Nat := s.seqNat q 61 1 % 64
def State.seqLease (s : State) (q : Nat) : Nat := let l := s.seqNat q 63 1; if l = 0 then 10 else l
def State.seqMember (s : State) (q i : Nat) : Nat := s.seqNat q (64 + 2 * i) 2
def State.seqPool (s : State) (q i : Nat) : Nat := s.seqNat q (128 + 2 * i) 2
def State.seqKvRoot (s : State) (q : Nat) : Nat := s.seqNat q 248 8

/-- Writes a field of a descriptor. -/
def State.seqSet (s : State) (q off n x : Nat) : State := s.seqWrite (s.seqVf q) (bytesAt (s.seqAt q + off) n x)

/-- Sets or clears a bit of the flags byte. -/
def State.seqSetFlag (s : State) (q i : Nat) (v : Bool) : State :=
  let f := s.seqFlags q
  s.seqSet q 1 1 (f - f / 2 ^ i % 2 * 2 ^ i + (if v then 2 ^ i else 0))

/-- The members of the current view, and after them the departing deputies of a deputy step or a migration (R250). -/
def State.seqMembers (s : State) (q : Nat) : List Nat := (List.range (s.seqWidth q)).map fun i => s.seqMember q i

/-- The listed dies: members, then previous members that are still listed. -/
def State.seqListed (s : State) (q : Nat) : List Nat :=
  ((List.range 32).map fun i => s.seqMember q i).takeWhile fun d => d ≠ 0xFFFF

/-- The rank of a global die: its index in the member list. -/
def State.seqRank (s : State) (q die : Nat) : Option Nat := (s.seqListed q).findIdx? fun d => d = die

/-- Token positions of a KV page (R251). -/
def State.seqPerPage (s : State) (q : Nat) : Nat := 65536 / max 1 (s.seqTokenBytes q)

/-- The owner's rank of a position at a width (R251). -/
def State.ownerRank (s : State) (q pos width : Nat) : Nat := pos / 2 ^ s.seqNat q 3 1 % max 1 width

/-! ### The KV page list (R252) -/

def State.kvEntry (s : State) (q i : Nat) : Nat := s.homeNat (s.seqKvRoot q + 8 * i) 8
def kvState (e : Nat) : Nat := bits e 55 52
def kvPage (e : Nat) : Nat := bits e 51 16 * 65536
def kvWindow (e : Nat) : Nat := bits e 63 56
def kvShared (e : Nat) : Bool := bit e 1
def kvMoving (e : Nat) : Bool := bit e 0
def kvMake (window state page : Nat) (shared moving : Bool) : Nat :=
  window % 256 * 2 ^ 56 + state % 16 * 2 ^ 52 + page / 65536 % 2 ^ 36 * 65536 + (if shared then 2 else 0) + (if moving then 1 else 0)

def State.setKv (s : State) (q i e : Nat) : State := s.seqWrite (s.seqVf q) (bytesAt (s.seqKvRoot q + 8 * i) 8 e)

/-- The sharers of a page, from the page-count table (R252). -/
def State.pageCount (s : State) (page : Nat) : Nat := s.homeNat (s.countBase + 2 * (page / 65536)) 2
def State.setPageCount (s : State) (vf page n : Nat) : State := s.seqWrite vf (bytesAt (s.countBase + 2 * (page / 65536)) 2 n)

/-- A virtual address lies in the KV range, and in the recurrent-state region. -/
def State.inKv (s : State) (q va n : Nat) : Bool :=
  let b := s.seqKvBase q
  decide (b ≤ va ∧ va + n ≤ b + s.seqKvLimit q * 65536)
def State.inRecurrent (s : State) (q va n : Nat) : Bool :=
  let b := s.seqStateBase q
  b ≠ 0 && decide (b ≤ va ∧ va + n ≤ b + s.seqStateLen q)

end Sys2Proof.Machine
end

