-- ==== Sys2Proof/Machine/Regions.lean ====
section
/-! DEFINITION. Versions and recovery regions: opening, commit, publication, abort, points of no return, and the arrival at checkpoints
(R85 to R88, R176, R214 to R221, R354). -/

namespace Sys2Proof.Machine

open Sys2Proof.Num (bits bit)

/-! ### Versions (R85 to R88) -/

/-- Free version identifiers of a die. -/
def State.versionsFree (s : State) (die : Nat) : Nat := 4096 - (s.versions.filter fun p => p.2.die = die).length

def Version.fresh (die : Nat) (parent : Option Nat) (owner : VOwner) (cluster vf launch : Nat) : Version :=
  ⟨die, parent, owner, .isOpen, 0, cluster, vf, launch, [], [], [], [], 0, 0⟩

/-- Opens a version. -/
def State.openVersion (s : State) (v : Version) : Nat × State :=
  let (id, s) := s.fresh
  (id, { s with versions := s.versions.put id v })

/-- The version that a region's version commits into: its parent region's, else its workgroup's. -/
def State.parentVersion (s : State) (r : Region) : Option Nat :=
  match r.parent with
  | some p => (s.regions.look p).map Region.version
  | none => (s.wgs.look r.wg).bind Wg.version

/-- Puts tagged bytes over others of the same tag and address. -/
def Tagged.merge (new old : List Tagged) : List Tagged :=
  new ++ old.filter fun t => !new.any fun n => decide (n.tag = t.tag ∧ n.addr = t.addr)

/-- A version commits into its parent: its shadows are renamed, over the parent's by mask, and its identifier is freed (R85). -/
def State.commitInto (s : State) (v p : Nat) : State :=
  match s.versions.look v with
  | none => s
  | some x =>
    { s with versions := (s.versions.del v).modify p fun y => { y with
        shadow := x.shadow.foldl (fun (t : Tab Byte) (b : Nat × Byte) => t.put b.1 b.2) y.shadow
        tagged := Tagged.merge x.tagged y.tagged
        held := y.held ++ x.held
        bad := x.bad ++ y.bad.filter fun w => !covers x.shadow (w * 8)
        spilled := y.spilled + x.spilled } }

/-- Tagged bytes of a region move into the open window's version of their die (R179). -/
def State.moveTagged (s : State) (v seq : Nat) : State :=
  match s.versions.look v with
  | none => s
  | some x =>
    match (s.windowVersions seq).find? fun w => ((s.versions.look w).map fun y => decide (y.die = x.die)).getD false with
    | some w => { s with versions := (s.versions.modify w fun y => { y with tagged := Tagged.merge x.tagged y.tagged }).modify v fun y => { y with tagged := [] } }
    | none => { s with versions := s.versions.modify v fun y => { y with tagged := [] } }

/-- Lines that a version shadows. -/
def Version.lineList (v : Version) : List Nat := (v.shadow.map fun p => lineOf p.1).eraseDups

/-- Step 1 of R87: the shadow lines are at their homes and held pending; `after` says what the publication completes. -/
def State.beginCommit (s : State) (v after : Nat) : State :=
  match s.versions.look v with
  | none => s
  | some x =>
    let s := { s with versions := s.versions.modify v fun y => { y with state := .committing, after := after, pts := (s.cluster x.cluster).pts.toNat } }
    x.lineList.foldl (fun s l => s.modL2 l fun y => { y with pending := true }) s

/-- Sends the held contributions and sample stores of versions to the page and to the filters (R176). -/
def State.sendHeld (s : State) (x : Version) : State :=
  x.held.foldl (fun s h =>
    if h.kind = 1 then
      (s.send { kind := .sample, warp := x.cluster * 32, wg := 0, cluster := x.cluster, master := x.cluster, vf := x.vf, context := x.launch,
                addr := h.addr, va := h.va, bytes := bytesAt h.addr 4 h.word.toNat, pts := x.pts, lease := 10, view := 0, window := none,
                after := [], merged := true, wts := 0, store := none, bad := [] }).2
    else s.mergeL2Part x.die h.addr h.kind h.word.toNat x.vf) s

/-- Steps 2 and 3 of R87 over a set of versions that commit together: one timestamp T above every lease of every pending line, then
every line merges its shadow bytes and takes wts = rts = T, and the committer's pts becomes T. -/
def State.publish (s : State) (vs : List Nat) (c : Nat) : State :=
  let xs := vs.filterMap fun v => s.versions.look v
  let s := vs.foldl State.findVersion s
  let lines := (xs.flatMap Version.lineList).eraseDups
  let s := lines.foldl (fun s l => s.sweepLine l) s
  let t := lines.foldl (fun t l => tsMax t (tsAdd (s.l2Line l).rts 1)) (s.cluster c).pts.toNat
  let s := xs.foldl (fun s x =>
    let s := (byLine x.shadow).foldl (fun s g => (s.mergeHome g (some t) x.vf x.launch).2) s
    s.sendHeld x) s
  let s := lines.foldl (fun s l => s.modL2 l fun y => { y with pending := false }) s
  let s := s.raisePts c t
  { s with versions := s.versions.keep fun v _ => !vs.contains v }

/-- An abort drops a version with everything under it (R85). -/
def State.abortVersion (s : State) (v : Nat) : State :=
  match s.versions.look v with
  | none => s
  | some x =>
    let s := if x.state = .committing then x.lineList.foldl (fun s l => s.modL2 l fun y => { y with pending := false }) s else s
    { s with versions := s.versions.del v }

/-- An uncorrectable error stands in a version's shadows (R350). -/
def State.versionBad (s : State) (v : Nat) : Bool := ((s.versions.look v).map fun x => !x.bad.isEmpty).getD false

/-! ### Snapshots (R214, R216, R219, R360) -/

def State.undoOf (s : State) (fib : Nat) : Undo :=
  match s.fibres.look fib with
  | some f => ⟨fib, f.preds, f.wb, f.sigCount, f.sigPart⟩
  | none => ⟨fib, 0, 0, 0, 0⟩

/-- Takes a fresh snapshot of a region's members and preserved set, as they stand. A register that is empty is snapshotted when it fills. -/
def State.snapshot (s : State) (r : Nat) : State :=
  { s with regions := s.regions.modify r fun x =>
      let g := (s.wgs.look x.wg).getD default
      { x with
        undo := x.members.map s.undoOf
        vRegs := x.vRegs.mapv fun k _ => s.vCell k
        kRegs := x.kRegs.mapv fun k _ => s.kCell k
        bytes := x.bytes.mapv fun o _ => s.scrGet g o } }

/-- Registers of a region's preserved set that have not filled. -/
def State.unsnapped (s : State) (r : Nat) : List Nat × List Nat :=
  match s.regions.look r with
  | none => ([], [])
  | some x =>
    ((x.vRegs.filter fun p => p.2.st = .empty).map Prod.fst, (x.kRegs.filter fun p => p.2.st = .empty).map Prod.fst)

/-- A register has filled or been poisoned: the regions that still owe its snapshot take it now (R219). -/
def State.noteFilled (s : State) (d : Dst) : State :=
  let keys := if d.wide then [d.key, d.key + 1] else [d.key]
  { s with regions := s.regions.mapv fun _ x =>
      let take (t : Tab Cell) (cell : Nat → Cell) : Tab Cell := t.mapv fun k c => if c.st = .empty && keys.contains k then cell k else c
      if d.isK then { x with kRegs := take x.kRegs s.kCell } else { x with vRegs := take x.vRegs s.vCell } }

/-! ### Points of no return (R176, R219) -/

/-- The open regions of some lanes, deepest first. -/
def State.regionsOf (s : State) (sel : Nat) (lanes : List Nat) : List Nat :=
  let chains := lanes.filterMap fun l => (s.fibres.look (fibreKey sel l)).map fun f => f.regions.reverse
  ((List.range 8).reverse.flatMap fun d => chains.filterMap fun c => (c.drop d).head?).eraseDups

/-- A region whose shadows cannot be committed: its error is taken instead (R350). -/
def State.commitStop (s : State) (sel : Nat) (lanes : List Nat) : Option Stop :=
  ((s.regionsOf sel lanes).find? fun r => ((s.regions.look r).map fun x => s.versionBad x.version).getD false).map fun r =>
    .rollback r (((s.regions.look r).map fun x => x.members.headD 0).getD 0)

/-- Commits a region's version at once: into its parent, or as an outermost commit. -/
def State.commitNow (s : State) (r : Nat) : State :=
  match s.regions.look r with
  | none => s
  | some x =>
    let seq := ((s.warps.look x.warp).bind Warp.bound).getD 65536
    let s := if x.parent.isNone then s.moveTagged x.version seq else s
    match s.parentVersion x with
    | some p => s.commitInto x.version p
    | none => s.publish [x.version] (clusterOf x.warp)

/-- Reopens a region after a point of no return with a fresh identifier and a fresh snapshot; the versions that lay under the old one
lie under the new one. -/
def State.reopen (s : State) (r : Nat) : State :=
  match s.regions.look r with
  | none => s
  | some x =>
    let w := (s.warps.look x.warp).getD default
    let (id, s) := s.openVersion (Version.fresh (dieOf (clusterOf x.warp)) (s.parentVersion x) (.region r) (clusterOf x.warp) w.vf w.launch)
    let s := { s with
      versions := s.versions.mapv fun _ v => if v.parent = some x.version then { v with parent := some id } else v
      regions := s.regions.modify r fun y => { y with version := id } }
    s.snapshot r

/-- A point of no return (R219): every region of the chains commits, innermost first, the effect is performed, the regions reopen. The
lanes wait for the registers of a preserved set that are still to fill. A versioned or redundant workgroup has made an outside effect (R351). -/
def State.noReturn (s : State) (sel : Nat) (lanes : List Nat) (eff : State → State) : State :=
  let s := match s.warps.look sel with
    | some w => s.modWg w.wg fun g => { g with outside := g.outside || g.version.isSome }
    | none => s
  let rs := s.regionsOf sel lanes
  let s := eff (rs.foldl State.commitNow s)
  let s := rs.reverse.foldl State.reopen s
  let owed := rs.map s.unsnapped
  let v := owed.flatMap Prod.fst
  let k := owed.flatMap Prod.snd
  if v.isEmpty && k.isEmpty then s
  else lanes.foldl (fun s l => s.modFibre (fibreKey sel l) fun f => if f.regions.isEmpty then f else { f with wait := .snapshot v k }) s

/-! ### Checkpoints of a redundant pair (R354) -/

/-- Some of a copy's fibres stand at a checkpoint. A checkpoint that the other copy has reached with them is joined; the others make a new
one. Answers the record of each fibre. -/
def State.checkArrive (s : State) (wg kind pc inst : Nat) (fibres : List Nat) : List (Nat × Nat) × State :=
  match s.wgs.look wg with
  | none => ([], s)
  | some g =>
    let mine (x : Check) : List Nat := if g.copy = 1 then x.lead else x.trail
    let open' (f : Nat) : Option Nat := (s.checks.find? fun (p : Nat × Check) =>
      decide (p.2.pair = g.pair ∧ p.2.kind = kind ∧ p.2.pc = pc ∧ p.2.region = inst) && !p.2.done && p.2.fibres.contains f).map Prod.fst
    let add (x : Check) (f : Nat) : Check :=
      if (mine x).contains f then x
      else if g.copy = 1 then { x with lead := f :: x.lead }
      else { x with trail := f :: x.trail }
    let stand (s : State) (id f : Nat) : State := { s with checks := s.checks.modify id fun x => add x f }
    let old := fibres.filterMap fun f => (open' f).map fun id => (f, id)
    let new := fibres.filter fun f => (open' f).isNone
    let s := old.foldl (fun s p => stand s p.2 p.1) s
    if new.isEmpty then (old, s)
    else
      let (id, s) := s.fresh
      let s := { s with checks := s.checks.put id ⟨g.pair, kind, pc, inst, new, [], [], false⟩ }
      (old ++ new.map fun f => (f, id), new.foldl (fun s f => stand s id f) s)

/-- A fibre's number within its workgroup: warp number × 32 + lane (R352). -/
def State.fibreNo (s : State) (fib : Nat) : Nat := ((s.warps.look (fib / 32)).map Warp.num).getD 0 * 32 + fib % 32

/-! ### RGNE and QUIT (R198, R217) -/

/-- Closes a region without commit in every member. -/
def State.dropRegion (s : State) (r : Nat) : State :=
  match s.regions.look r with
  | none => s
  | some x =>
    let s := x.members.foldl (fun s m => s.modFibre m fun f => { f with regions := f.regions.filter fun q => q ≠ r }) s
    { s with regions := s.regions.del r }

/-- Every member of a region has reached its RGNE. A detected error is taken first (R221); an error in the shadows abandons the commit
(R350); a redundant workgroup compares first (R354); then the version commits into its parent or is sent home for publication. The answer
says whether the region is committed now. -/
def State.regionReady (s : State) (r : Nat) (checked : Bool) : Bool × State :=
  match s.regions.look r with
  | none => (false, s)
  | some x =>
    if x.error.isSome then (false, s)
    else if s.versionBad x.version then (false, s.detect r (x.members.headD 0) 0)
    else
      let copy := ((s.wgs.look x.wg).map Wg.copy).getD 0
      if copy ≠ 0 && !checked then
        let pc := (x.members.head?.bind fun m => (s.fibres.look m).map fun f => f.pc.toNat).getD 0
        (false, (s.checkArrive x.wg 0 pc x.inst (x.members.map s.fibreNo)).2)
      else
        let seq := ((s.warps.look x.warp).bind Warp.bound).getD 65536
        let s := if x.parent.isNone then s.moveTagged x.version seq else s
        match s.parentVersion x with
        | some p => (true, s.commitInto x.version p)
        | none => (false, s.beginCommit x.version 0)

/-- A fibre reaches RGNE of its innermost region and waits there. -/
def State.standAtEnd (s : State) (fib : Nat) : Option Nat × State :=
  match (s.fibres.look fib).bind fun f => f.regions.head? with
  | none => (none, s)
  | some r =>
    (some r, { (s.modFibre fib fun f => { f with wait := .rgne r }) with
      regions := s.regions.modify r fun x => { x with arrived := if x.arrived.contains fib then x.arrived else fib :: x.arrived } })

/-- The members of a region that have not reached its RGNE. -/
def Region.missing (x : Region) : List Nat := x.members.filter fun m => !x.arrived.contains m

/-- A committed region closes: every member goes on after its RGNE; one that is quitting performs the RGNE of the next region, or ends.
Answers the outer regions that members have reached so. -/
def State.closeCommitted (s : State) (r : Nat) : List Nat × State :=
  match s.regions.look r with
  | none => ([], s)
  | some x =>
    let s := s.dropRegion r
    let (outer, s) := x.members.foldl (fun (a : List Nat × State) m =>
      match a.2.fibres.look m with
      | none => a
      | some f =>
        if !f.quitting then (a.1, a.2.modFibre m fun f => { f.next with wait := .none })
        else if f.regions.isEmpty then (a.1, (a.2.endFibre (m / 32) (m % 32)).endWarpIfEmpty (m / 32))
        else
          let q := a.2.standAtEnd m
          (q.1.toList ++ a.1, q.2)) ([], s)
    (outer.eraseDups, s)

/-- Settles regions whose members have all arrived, outward, as commits bring quitting members to their outer regions. -/
def State.settleRegions (s : State) (checked : Bool) : Nat → List Nat → State
  | 0, _ => s
  | _, [] => s
  | fuel + 1, r :: rs =>
    if ((s.regions.look r).map fun x => x.missing.isEmpty).getD false then
      let (now, s) := s.regionReady r checked
      if now then
        let (outer, s) := s.closeCommitted r
        s.settleRegions false fuel (rs ++ outer)
      else s.settleRegions false fuel rs
    else s.settleRegions false fuel rs

/-- Fibres reach RGNE of their innermost regions. -/
def State.arriveEnd (s : State) (fibs : List Nat) : State :=
  let (rs, s) := fibs.foldl (fun (a : List Nat × State) m =>
    let q := a.2.standAtEnd m
    (a.1 ++ q.1.toList, q.2)) ([], s)
  s.settleRegions false 300 rs.eraseDups

/-- An outermost region's publication is complete: its members go on. -/
def State.regionPublished (s : State) (r : Nat) : State :=
  let (outer, s) := s.closeCommitted r
  s.settleRegions false 300 outer

end Sys2Proof.Machine
end

