-- ==== Sys2Proof/Machine/Dual.lean ====
section
/-! DEFINITION. Redundant pairs: signature terms, the slack, the checkpoint of an atomic and the values forwarded to the trailing copy
(R352 to R355). -/

namespace Sys2Proof.Machine

/-! ### Terms (R353) -/

/-- One term of a signature: the address rotated by 24, with the bytes. -/
def sigTerm (va x : Nat) : Nat := (va * 2 ^ 24 % 2 ^ 64 + va / 2 ^ 40 % 2 ^ 24) ^^^ (x % 2 ^ 64)

/-- The redundant copy that a warp's workgroup is. -/
def State.copyOf (s : State) (sel : Nat) : Option Wg :=
  ((s.warps.look sel).bind fun w => s.wgs.look w.wg).bind fun g => if g.copy = 0 then none else some g

/-- Adds terms to a fibre of a redundant copy. -/
def State.addTerms (s : State) (fib : Nat) (ts : List (Nat × Nat)) : State :=
  if (s.copyOf (fib / 32)).isNone then s
  else s.modFibre fib fun f => { f with
    sigCount := f.sigCount + BitVec.ofNat 32 ts.length
    sigPart := ts.foldl (fun p t => p + BitVec.ofNat 64 (sigTerm t.1 t.2)) f.sigPart }

/-! ### A fibre and its double -/

/-- The other copy of a pair. -/
def State.other (s : State) (g : Wg) : Option (Nat × Wg) :=
  (s.pairs.look g.pair).bind fun p =>
    let o := if g.copy = 1 then p.trail else p.lead
    (s.wgs.look o).map fun x => (o, x)

/-- The fibre key of a fibre number in a workgroup. -/
def Wg.fibre (g : Wg) (no : Nat) : Nat := fibreKey (g.cluster * 32 + (g.warps[no / 32]?).getD 0) (no % 32)

/-- The count of a fibre number in a copy, ended fibres included. -/
def State.countOf (s : State) (g : Wg) (no : Nat) : Nat :=
  ((s.fibres.look (g.fibre no)).map fun f => f.sigCount.toNat).getD 0 +
    (g.sigs.filter fun x => x.1 = no).foldl (fun n x => n + x.2.1) 0

/-- The partial of a fibre number in a copy. -/
def State.partialOf (s : State) (g : Wg) (no : Nat) : Nat :=
  (((s.fibres.look (g.fibre no)).map fun f => f.sigPart.toNat).getD 0 +
    (g.sigs.filter fun x => x.1 = no).foldl (fun n x => n + x.2.2) 0) % 2 ^ 64

/-- The covered partials and counts reset. -/
def State.clearSigs (s : State) (wg : Nat) (nos : List Nat) : State :=
  match s.wgs.look wg with
  | none => s
  | some g =>
    let s := nos.foldl (fun s n => s.modFibre (g.fibre n) fun f => { f with sigCount := 0, sigPart := 0 }) s
    s.modWg wg fun g => { g with sigs := g.sigs.filter fun x => !nos.contains x.1 }

/-- The instance of a fibre's innermost region, 0 for none. -/
def State.instOf (s : State) (fib : Nat) : Nat :=
  (((s.fibres.look fib).bind fun f => f.regions.head?).bind fun r => (s.regions.look r).map Region.inst).getD 0

/-! ### The slack (R354) -/

/-- The slack checkpoint that a fibre must stand at before it makes `n` terms: one that its double already stands at, once the counts
have met, or a new one when its own count would be more than the slack ahead. -/
def State.slackOf (s : State) (sel lane n : Nat) : Option Nat × State :=
  match s.copyOf sel with
  | none => (none, s)
  | some g =>
    let fib := fibreKey sel lane
    let no := s.fibreNo fib
    let wg := ((s.warps.look sel).map Warp.wg).getD 0
    match s.other g with
    | none => (none, s)
    | some (_, o) =>
      let own := s.countOf g no
      let its := s.countOf o no
      let slack := ((s.pairs.look g.pair).map Pair.slack).getD 0
      let held := s.checks.find? fun (p : Nat × Check) => decide (p.2.pair = g.pair ∧ p.2.kind = 3 ∧ p.2.fibres = [no]) && !p.2.done
      match held with
      | some (id, x) =>
        let stands := if g.copy = 1 then x.lead else x.trail
        if stands.contains no then (some id, s)
        else if own ≥ its then
          (some id, { s with checks := s.checks.modify id fun x => if g.copy = 1 then { x with lead := [no] } else { x with trail := [no] } })
        else (none, s)
      | none =>
        if own + n > its + slack then
          let pc := ((s.fibres.look fib).map fun f => f.pc.toNat).getD 0
          let r := s.checkArrive wg 3 pc (s.instOf fib) [no]
          (r.1.head?.map Prod.snd, r.2)
        else (none, s)

/-- The lanes that the slack holds back, with the state in which they stand there. -/
def State.slackGate (s : State) (sel : Nat) (lanes : List (Nat × Nat)) : Option Stop :=
  if (s.copyOf sel).isNone then none
  else
    let r := lanes.foldl (fun (a : List (Nat × Wait) × State) p =>
      let q := a.2.slackOf sel p.1 p.2
      match q.1 with
      | some id => (a.1 ++ [(p.1, .check id)], q.2)
      | none => (a.1, q.2)) ([], s)
    if r.1.isEmpty then none else some (.done (r.2.blockLanes sel r.1))

/-! ### The atomic checkpoint (R354, R355) -/

/-- A fibre has passed the atomic checkpoint at its pc. -/
def State.passed (s : State) (g : Wg) (pc no : Nat) : Option Nat :=
  (s.checks.find? fun (p : Nat × Check) => decide (p.2.pair = g.pair ∧ p.2.kind = 1 ∧ p.2.pc = pc) && p.2.done &&
    (if g.copy = 1 then p.2.lead else p.2.trail).contains no).map Prod.fst

/-- A copy's fibre goes on from a passed checkpoint; the record goes when both copies have. -/
def State.leave (s : State) (copy id no : Nat) : State :=
  let s := { s with checks := s.checks.modify id fun x =>
    if copy = 1 then { x with lead := x.lead.filter fun n => n ≠ no } else { x with trail := x.trail.filter fun n => n ≠ no } }
  { s with checks := s.checks.keep fun i x => i ≠ id || !x.lead.isEmpty || !x.trail.isEmpty }

/-- Free entries of a pair's compare buffer. -/
def Pair.room (p : Pair) : Nat := 64 - p.buffer.length

/-- The checkpoint before an atomic of a redundant copy, with the terms of each lane. A leading copy without room in the compare buffer
stalls before it. The answer holds the stop, or nothing once every lane has passed. -/
def State.atomicGate (s : State) (sel : Nat) (lanes : List (Nat × List (Nat × Nat))) : Option Stop :=
  match s.copyOf sel with
  | none => none
  | some g =>
    let wg := ((s.warps.look sel).map Warp.wg).getD 0
    let no (l : Nat) : Nat := s.fibreNo (fibreKey sel l)
    let pc (l : Nat) : Nat := ((s.fibres.look (fibreKey sel l)).map fun f => f.pc.toNat).getD 0
    let new := lanes.filter fun p => (s.passed g (pc p.1) (no p.1)).isNone
    if new.isEmpty then none
    else if g.copy = 1 && ((s.pairs.look g.pair).map Pair.room).getD 64 < lanes.length then some (.done s)
    else
      let s := new.foldl (fun s p => s.addTerms (fibreKey sel p.1) p.2) s
      match new with
      | [] => none
      | p :: _ =>
        let r := s.checkArrive wg 1 (pc p.1) (s.instOf (fibreKey sel p.1)) (new.map fun q => no q.1)
        some (.done (r.2.blockLanes sel (new.map fun q =>
          (q.1, .check (((r.1.find? fun x => x.1 = no q.1).map Prod.snd).getD 0)))))

/-- The lanes go on from their atomic checkpoints. -/
def State.leaveAtomic (s : State) (sel : Nat) (lanes : List Nat) : State :=
  match s.copyOf sel with
  | none => s
  | some g =>
    lanes.foldl (fun s l =>
      let no := s.fibreNo (fibreKey sel l)
      let pc := ((s.fibres.look (fibreKey sel l)).map fun f => f.pc.toNat).getD 0
      match s.passed g pc no with
      | some id => s.leave g.copy id no
      | none => s) s

/-! ### Forwarded results (R355) -/

/-- The leading copy takes an entry of the compare buffer for a fibre. -/
def State.forward (s : State) (sel lane : Nat) (vals : List Nat) (ready : Bool) (op : Nat) : State :=
  match s.copyOf sel with
  | none => s
  | some g =>
    if g.copy ≠ 1 then s
    else
      let no := s.fibreNo (fibreKey sel lane)
      { s with pairs := s.pairs.modify g.pair fun p => { p with buffer := p.buffer ++ [⟨no, vals, ready, op⟩] } }

/-- Results of a leading copy's operation or load come back. -/
def State.forwarded (s : State) (pair : Nat) (pick : Fwd → Bool) (vals : List Nat) : State :=
  { s with pairs := s.pairs.modify pair fun p => { p with
      buffer := p.buffer.map fun x => if pick x && !x.ready then { x with vals := vals, ready := true } else x } }

/-- The oldest entry of a fibre. -/
def State.nextForward (s : State) (g : Wg) (no : Nat) : Option Fwd :=
  (s.pairs.look g.pair).bind fun p => p.buffer.find? fun x => x.fibre = no

/-- The trailing copy takes the oldest entry of a fibre. -/
def State.takeForward (s : State) (g : Wg) (no : Nat) : State :=
  { s with pairs := s.pairs.modify g.pair fun p =>
      { p with buffer := match p.buffer.findIdx? fun x => x.fibre = no with
        | some i => p.buffer.eraseIdx i
        | none => p.buffer } }

/-- The warp is of a trailing copy. -/
def State.trailing (s : State) (sel : Nat) : Bool := ((s.copyOf sel).map fun g => decide (g.copy = 2)).getD false

/-- A trailing copy's fibres wait for their oldest forwarded entries; `some` names the stop. -/
def State.forwardGate (s : State) (sel : Nat) (lanes : List Nat) : Option Stop :=
  match s.copyOf sel with
  | none => none
  | some g =>
    let late := lanes.filter fun l => !((s.nextForward g (s.fibreNo (fibreKey sel l))).map Fwd.ready).getD false
    if late.isEmpty then none
    else some (.block (late.map fun l => (l, .forwarded g.pair (s.fibreNo (fibreKey sel l)))))

/-- A leading copy stalls at an instruction whose results are forwarded while the compare buffer has no room for them. -/
def State.roomGate (s : State) (sel n : Nat) : Option Stop :=
  match s.copyOf sel with
  | none => none
  | some g => if g.copy = 1 && ((s.pairs.look g.pair).map Pair.room).getD 64 < n then some (.done s) else none

end Sys2Proof.Machine
end

