-- ==== Sys2Proof/Machine/Access.lean ====
section
/-! DEFINITION. What the memory instructions share: address formation, the checks of R175, stores into the caches, stash windows, atomics. -/

namespace Sys2Proof.Machine

open Sys2Proof.Num (bits bit sgn wrap ofBytes toBytes)

/-! ### Before the effect -/

/-- Steps 2 to 8 of R142: the machine after a stop, or the lanes that go on. With `once`, only the lowest true lane acts. -/
def State.begin (s : State) (op : Nat) (g : Fin 8) (once : Bool) (ops : List Opnd) : State ⊕ (List Nat × State) :=
  let sel := s.actor
  match s.early sel op with
  | some t => .inl (s.takeTrap sel t)
  | none =>
    let all := s.guarded sel (s.batchLanes sel) g
    let lanes := if once then all.take 1 else all
    if lanes.isEmpty then .inl (s.advance sel (s.batchLanes sel))
    else
      let s := s.noteReads sel lanes ops
      match s.regGate sel lanes ops with
      | some st => .inl (s.halt sel st)
      | none => .inr (lanes, s)

/-- Goes on after the effect. -/
def State.go (s : State) : State := s.advance s.actor (s.batchLanes s.actor)

/-- The first stop of a list of checks, each made only when those before it pass. -/
def firstStop : List (Unit → Option Stop) → Option Stop
  | [] => none
  | c :: cs => match c () with
    | some st => some st
    | none => firstStop cs

/-! ### Addresses (R70, R132) -/

/-- A lane and its effective address. -/
abbrev Ea := Nat × Int

def tyOf (code : Nat) : Ty := tyList.getD code .b32

/-- The access size of a type (R136). -/
def memSize (t : Ty) : Nat :=
  match t with
  | .s8 | .n8 => 1
  | .s16 | .n16 => 2
  | .b64 | .s64 | .n64 => 8
  | _ => 4

/-- A loaded value as its type extends it (R136). -/
def extendLoad (t : Ty) (x : Nat) : Nat :=
  match t with
  | .s8 => wrap 32 (sgn 8 x)
  | .s16 => wrap 32 (sgn 16 x)
  | _ => x

/-- The operands of an address: the base, and the index register. -/
def mBase (o : M) (isGlobal : Bool) : Opnd := regOpnd o.a o.aPol isGlobal
def mSecond (o : M) (wide : Bool) : Opnd := regOpnd o.b o.bPol wide

/-- The effective address of a lane, exactly. -/
def State.eaOf (s : State) (sel lane : Nat) (o : M) (isGlobal indexed : Bool) : Int :=
  let a := (s.peek sel lane (mBase o isGlobal)).val
  let idx := if indexed then sgn 32 (s.peek sel lane (mSecond o false)).val * 2 ^ o.sh.val else 0
  (a : Int) + idx + sgn 16 o.off.toNat

def eaNat (e : Int) : Nat := wrap 64 e

/-- The address check: every byte below the bound. -/
def eaDenied (eas : List Ea) (n limit : Nat) : Option Stop :=
  (eas.find? fun (p : Nat × Int) => decide (p.2 < 0 ∨ p.2 + n > limit)).map fun p => .trap ⟨0x0A, p.1, 0, eaNat p.2, 0⟩

/-- The alignment check (R70). -/
def eaMisaligned (eas : List Ea) (n : Nat) : Option Stop :=
  (eas.find? fun (p : Nat × Int) => decide (p.2 % (n : Int) ≠ 0)).map fun p => .trap ⟨0x09, p.1, 0, eaNat p.2, 0⟩

/-- The range-lock check (R91). Scratchpad offsets count from the allocation's first byte. -/
def State.eaLocked (s : State) (sel : Nat) (eas : List Ea) (n : Nat) (isGlobal wr : Bool) : Option Stop :=
  let g := ((s.warps.look sel).bind fun w => s.wgs.look w.wg).getD default
  eas.findSome? fun p =>
    let first := eaNat p.2 + (if isGlobal then 0 else g.rail * 148)
    (s.lockHit (clusterOf sel) isGlobal first (first + n - 1) wr).map fun i => .trap ⟨0x0C, p.1, i, eaNat p.2, 0⟩

/-! ### Translation at issue (R175, R328) -/

/-- The pages that a range of bytes touches. -/
def pagesOf (va n : Nat) : List Nat := (List.range ((va + n - 1) / 4096 - va / 4096 + 1)).map fun i => va / 4096 + i

/-- Translates the pages of every lane's n bytes: a fatal or declined page, or one whose walk was refused, traps in the lowest lane that has
one; a page that no usable TLB entry maps is asked for and the instruction waits. -/
def State.needAll (s : State) (sel access : Nat) (eas : List Ea) (n : Nat) (wr : Bool) : Option Stop :=
  match s.warps.look sel with
  | none => none
  | some w =>
    let lanes : List (Nat × List Nat) := eas.map fun (p : Nat × Int) => (eaNat p.2, pagesOf (eaNat p.2) n)
    match eas.findSome? fun (p : Nat × Int) => (w.fatalOf (pagesOf (eaNat p.2) n)).map fun f => (p, f) with
    | some (p, f) =>
      let t : Trap := if f.2 = walkRefused then ⟨0x0A, p.1, 0, eaNat p.2, 0⟩ else ⟨0x0B, p.1, f.2, f.1 * 4096, 0⟩
      some (.done ((s.modWarp sel fun w => { w with fatal := [] }).takeTrap sel t))
    | none =>
      let usable (p : Nat) : Bool := match s.tlbLook (fibreTlb (clusterOf sel)) w.vf p with
        | some t => !wr || t.write
        | none => false
      let missing := ((lanes.flatMap Prod.snd).eraseDups).filter fun p => !usable p
      if missing.isEmpty then none else some (.done (s.needPages sel access missing))

/-- The leaf of a virtual address that a warp's TLB holds. -/
def State.leafOf (s : State) (sel va : Nat) : Tlb :=
  let vf := ((s.warps.look sel).map Warp.vf).getD 0
  (s.tlbLook (fibreTlb (clusterOf sel)) vf (va / 4096)).getD ⟨vf, va / 4096, 1, 0, false, false, 0, 10⟩

/-- The physical address of a virtual address, once translated. -/
def State.physOf (s : State) (sel va : Nat) : Nat := (s.leafOf sel va).phys va

/-- The access tables of a lane's bytes: a refusal is logged and raises ACCESS_DENIED (R302). -/
def State.tableStop (s : State) (sel : Nat) (eas : List Ea) (rd wr : Bool) : Option Stop :=
  let vf := ((s.warps.look sel).map Warp.vf).getD 0
  let c := clusterOf sel
  (eas.find? fun p => !s.memAllows c vf (s.physOf sel (eaNat p.2)) rd wr).map fun p =>
    .done ((s.logMem c vf (s.physOf sel (eaNat p.2)) rd wr).takeTrap sel ⟨0x0A, p.1, 0, eaNat p.2, 0⟩)

/-- The access table of a die's shared unit that an instruction asks (R300 to R302): 51 semaphores, 52 launch unit, 53 sequence engine,
54 streams and queues. A refusal is logged there and raises ACCESS_DENIED. -/
def State.unitStop (s : State) (sel lane die unit : Nat) (rd wr : Bool) : Option Stop :=
  let vf := ((s.warps.look sel).map Warp.vf).getD 0
  let c := clusterOf sel
  if s.tableAllows (die * 64 + unit) c vf rd wr then none
  else some (.done ((s.logRefusal (die * 64 + unit) c vf 0 rd wr).takeTrap sel ⟨0x0A, lane, 0, 0, 0⟩))

/-- ACCESS_DENIED in the lowest lane whose page has one of the kinds listed. -/
def State.kindStop (s : State) (sel : Nat) (eas : List Ea) (bad : Nat → Bool) (cause : Nat) : Option Stop :=
  (eas.find? fun p => bad (s.leafOf sel (eaNat p.2)).kind).map fun p => .trap ⟨cause, p.1, 0, eaNat p.2, 0⟩

/-! ### What holds an instruction at issue -/

/-- An acquire of the warp has not returned: its later accesses wait (R101). -/
def State.acquiring (s : State) (sel : Nat) : Bool :=
  s.loads.any fun p => p.2.warp = sel && p.2.acquire && p.2.accs.any fun a => a.phase = .wait || a.phase = .parked

/-- An access of an outstanding load overlaps a range of bytes (R105). -/
def Load.overlaps (ld : Load) (isGlobal : Bool) (va n : Nat) : Bool :=
  (if isGlobal then ld.kind = .mem || ld.kind = .atomic else ld.kind = .scratch) &&
    ld.accs.any fun a => (a.phase = .wait || a.phase = .parked) && decide (a.va < va + n ∧ va < a.va + a.size)

def State.loadHolds (s : State) (sel : Nat) (isGlobal : Bool) (eas : List Ea) (n : Nat) : Bool :=
  s.loads.any fun p => p.2.warp = sel && eas.any fun e => p.2.overlaps isGlobal (eaNat e.2) n

/-- Stalls at issue: the instruction keeps its port and issues again. -/
def State.stallIf (s : State) (b : Bool) : Option Stop := if b then some (.done s) else none

def State.loadsFull (s : State) (sel : Nat) : Bool := ((s.warps.look sel).map fun w => decide (w.loads ≥ 255)).getD false
def State.storesFull (s : State) (sel : Nat) : Bool := ((s.warps.look sel).map fun w => decide (w.stores ≥ 255)).getD false
def State.enginesFull (s : State) (sel : Nat) : Bool := ((s.warps.look sel).map fun w => decide (w.engines ≥ 255)).getD false

/-- An access whose address or data comes from a register with a floor is performed with pts raised to it (R108). -/
def State.raiseFloors (s : State) (sel : Nat) (lanes : List Nat) (ops : List Opnd) : State :=
  lanes.foldl (fun s l => match s.floorOf sel l ops with
    | some t => s.raisePts (clusterOf sel) t
    | none => s) s

/-! ### Issuing a load -/

/-- Records a long-latency producer: its destinations go empty, and it counts in the loads. -/
def State.issueLoad (s : State) (sel : Nat) (kind : LKind) (accs : List Acc) (ord : Nat) (acquire : Bool) : Nat × State :=
  let (id, s) := s.fresh
  let tag := ((s.warps.look sel).map Warp.tag).getD 0
  (id, ({ s with loads := s.loads.put id ⟨sel, kind, accs, ord, acquire, 1, 0, false, tag⟩ }).modWarp sel fun w => { w with loads := w.loads + 1 })

/-! ### Stores past L1 (R78, R103) -/

/-- Sends the dirty L1 bytes of a cluster that overlap a set of bytes; the requests must be acknowledged first. -/
def State.sendOverlap (s : State) (sel c : Nat) (bs : List (Nat × Byte)) : List Nat × State :=
  let lines := (bs.map fun b => lineOf b.1).eraseDups
  lines.foldl (fun (a : List Nat × State) line =>
    let s := a.2
    let hit := (s.l1Dirty c line).filter fun d => bs.any fun b => b.1 = d.1
    let writer (pa : Nat) : Option Nat := (s.l1Bytes.look (l1ByteKey c pa)).bind L1Byte.writer
    let owners := (hit.filterMap fun b => writer b.1).eraseDups
    owners.foldl (fun (a : List Nat × State) i =>
      let (id, s') := a.2.sendLine sel ((s.wgAt c i).getD 0) c line (hit.filter fun b => writer b.1 = some i)
      (id :: a.1, s')) a) ([], s)

/-- A store record: the store counter falls when all its requests are acknowledged. With none, the store is complete at once. -/
def State.openStore (s : State) (sel : Nat) (ids : List Nat) : State :=
  if ids.isEmpty then s
  else
    let (id, s) := s.fresh
    let s := { s with stores := s.stores.put id ⟨sel, ids⟩ }
    (ids.foldl (fun s f => { s with flights := s.flights.modify f fun x => { x with store := some id } }) s).modWarp sel fun w =>
      { w with stores := w.stores + 1 }

/-- A request of a warp's own. -/
def State.flightOf (s : State) (sel : Nat) (kind : FKind) (pa va : Nat) (bs : List (Nat × Byte)) (lease : Nat) (after : List Nat) : Flight :=
  let w := (s.warps.look sel).getD default
  let c := clusterOf sel
  { kind := kind, warp := sel, wg := w.wg, cluster := c, master := c, vf := w.vf, context := w.launch, addr := pa, va := va, bytes := bs,
    pts := (s.cluster c).pts.toNat, lease := lease, view := w.view.toNat, window := none, after := after, merged := false, wts := 0,
    store := none, bad := [] }

/-- Sends bytes to L2, a request per line. -/
def State.sendBytes (s : State) (sel : Nat) (bs : List (Nat × Byte)) (lease : Nat) (after : List Nat) : List Nat × State :=
  (byLine bs).foldl (fun (a : List Nat × State) g =>
    let (id, s) := a.2.send (a.2.flightOf sel .write ((g.head?.map Prod.fst).getD 0) 0 g lease after)
    (id :: a.1, s)) ([], s)

/-- Stores bytes as a table by address, the later of two winning (R70). -/
def mergeBytes (bs : List (Nat × Byte)) : List (Nat × Byte) := bs.foldl (fun (t : Tab Byte) (b : Nat × Byte) => t.put b.1 b.2) []

/-! ### Stores under a version (R88, R176) -/

/-- The innermost version of a lane's chain. -/
def State.innermost (s : State) (sel lane : Nat) : Option Nat :=
  (s.fibres.look (fibreKey sel lane)).bind fun f => (s.chainOf sel f).head?

/-- A versioned or redundant workgroup stalls its store while its version is at capacity. -/
def State.versionFull (s : State) (v : Nat) (bs : List (Nat × Byte)) : Bool :=
  match s.versions.look v with
  | none => false
  | some x => match x.owner with
    | .workgroup _ => ((x.lineList ++ bs.map fun b => lineOf b.1).eraseDups).length > s.shadowCap
    | _ => false

/-- Notes the lines that a region's or a window's version keeps in the spill area. -/
def State.noteSpill (s : State) (v : Nat) : State :=
  { s with versions := s.versions.modify v fun x => { x with spilled := x.lines - s.shadowCap } }

/-- Writes shadow bytes under a version, spilling beyond its capacity. -/
def State.storeUnder (s : State) (v : Nat) (bs : List (Nat × Byte)) : State := (s.shadowStore v bs).noteSpill v

/-! ### Stash windows (R75, R186, R187) -/

/-- The workgroup of a warp. -/
def State.wgOf (s : State) (sel : Nat) : Wg := ((s.warps.look sel).bind fun w => s.wgs.look w.wg).getD default
def State.wgNo (s : State) (sel : Nat) : Nat := ((s.warps.look sel).map Warp.wg).getD 0

def State.modStash (s : State) (wg scr : Nat) (f : Stash → Stash) : State :=
  s.modWg wg fun g => { g with stash := g.stash.map fun w => if w.scr = scr then f w else w }

/-- Poisoned scratchpad words under a set of window bytes, as words of their physical addresses. -/
def State.stashBad (s : State) (g : Wg) (w : Stash) (offs : List Nat) : List Nat :=
  ((offs.filter fun o => s.scrBad g (w.scr + o) 1).map fun o => w.phys (w.scr + o) / 8).eraseDups

/-- Writes back a window's dirty bytes: those of a region as shadows of its version, the others under the workgroup's own version, or to
L2. Answers the requests. -/
def State.flushWindow (s : State) (sel wg : Nat) (g : Wg) (w : Stash) : List Nat × State :=
  let dirty := w.bytes.filter fun p => p.2.dirty
  if dirty.isEmpty then ([], s)
  else
    let byte (o : Nat) : Nat × Byte := (w.phys (w.scr + o), s.scrGet g (w.scr + o))
    let regions := (dirty.filterMap fun p => p.2.region).eraseDups
    let under (s : State) (v : Nat) (ps : List (Nat × StashByte)) : State := s.storeUnder v (ps.map fun p => byte p.1)
    let s' := regions.foldl (fun s r => match s.regions.look r with
      | some x => under s x.version (dirty.filter fun p => p.2.region = some r)
      | none => s) s
    let plain := dirty.filter fun p => match p.2.region with
      | some r => (s.regions.look r).isNone
      | none => true
    let (ids, s') := match g.version with
      | some v => ([], under s' v plain)
      | none =>
        let bad := s.stashBad g w (plain.map Prod.fst)
        (byLine (mergeBytes (plain.map fun (p : Nat × StashByte) => byte p.1))).foldl (fun (a : List Nat × State) (grp : List (Nat × Byte)) =>
          let lease := (plain.head?.map fun (p : Nat × StashByte) => w.leaseAt (w.scr + p.1)).getD 10
          let f := a.2.flightOf sel .write ((grp.head?.map Prod.fst).getD 0) 0 grp lease []
          let (id, t) := a.2.send { f with wg := wg, cluster := g.cluster, master := g.cluster, bad := bad.filter fun b => touches grp (b * 8) }
          (id :: a.1, t)) ([], s')
    (ids, s'.modStash wg w.scr fun x => { x with bytes := x.bytes.mapv fun o b => if b.dirty && (w.bytes.look o).isSome then ⟨false, b.region⟩ else b })

/-- Writes back every window of a workgroup. -/
def State.flushStash (s : State) (sel wg : Nat) : List Nat × State :=
  match s.wgs.look wg with
  | none => ([], s)
  | some g => g.stash.foldl (fun (a : List Nat × State) w =>
      let (ids, s) := a.2.flushWindow sel wg g w
      (ids ++ a.1, s)) ([], s)

/-- The work of a release at .die scope or wider: the L1 and stash bytes that it covers leave for L2 (R83). -/
def State.releaseAll (s : State) (sel wg : Nat) : List Nat × State :=
  let (a, s) := s.sendRelease sel wg
  let (b, s) := s.flushStash sel wg
  (a ++ b, s)

/-- A filled or dirty byte of a window serves a fibre: it is dirty, or its sector's lease still runs; and it holds no shadow of a region
that the fibre is not in (R75, R86). -/
def State.stashServes (s : State) (c : Nat) (regions : List Nat) (w : Stash) (o : Nat) : Bool :=
  match w.bytes.look o with
  | none => false
  | some b =>
    (match b.region with
      | some r => b.dirty || regions.contains r
      | none => true) &&
    (b.dirty || (match w.sectors.find? fun x => x.1 = o / 64 with
      | some x => !tsLt x.2.2 (s.cluster c).pts.toNat
      | none => false))

/-- The sectors of windows that an access of scratchpad bytes needs filled: the window's offset and the sector. -/
def State.stashNeeds (s : State) (g : Wg) (regions : List Nat) (off n : Nat) : List (Nat × Nat) :=
  ((List.range n).filterMap fun i => (g.stashAt (off + i)).bind fun w =>
    if s.stashServes g.cluster regions w (off + i - w.scr) then none else some (w.scr, (off + i - w.scr) / 64)).eraseDups

/-- Fills a sector of a window from L2, under the fibre's chain; dirty bytes stay. -/
def State.fillStash (s : State) (wg : Nat) (chain : List (Nat × Option Nat)) (scr sector : Nat) : State :=
  match s.wgs.look wg with
  | none => s
  | some g =>
    match g.stash.find? fun w => w.scr = scr with
    | none => s
    | some w =>
      let first := w.scr + 64 * sector
      let pa := w.phys first
      let kind := ((w.pin first).map Tlb.kind).getD 0
      let (r, s) := s.readSector g.cluster pa (w.leaseAt first) kind false
      let clean (i : Nat) : Bool := ((w.bytes.look (64 * sector + i)).map fun b => !b.dirty).getD true
      let from' (i : Nat) : Option (Byte × Option Nat) := chain.findSome? fun v => (s.shadowByte [v.1] (pa + i)).map fun b => (b, v.2)
      let new := ((List.range 64).filter clean).map fun i => (i, (from' i).getD (r.bytes.getD i 0, none))
      let s := new.foldl (fun s p => s.scrPut g (first + p.1) [p.2.1]) s
      let s := new.foldl (fun s p => if s.badWord (pa + p.1) then s.scrMark g (first + p.1) 1 else s) s
      let s := s.raisePts g.cluster r.wts
      s.modStash wg scr fun x => { x with
        sectors := (sector, r.wts, r.rts) :: x.sectors.filter fun y => y.1 ≠ sector
        bytes := new.foldl (fun (t : Tab StashByte) p => t.put (64 * sector + p.1) ⟨false, p.2.2⟩) x.bytes }

/-- A fibre's chain as versions with the region each belongs to. -/
def State.chainTags (s : State) (sel lane : Nat) : List (Nat × Option Nat) :=
  match s.fibres.look (fibreKey sel lane) with
  | none => []
  | some f => f.regions.filterMap (fun r => (s.regions.look r).map fun x => (x.version, some r)) ++
      ((s.wgOf sel).version.map fun v => [(v, none)]).getD []

/-- Marks scratchpad bytes that lie in windows dirty, tagged with a region. -/
def State.dirtyStash (s : State) (wg off n : Nat) (region : Option Nat) : State :=
  match s.wgs.look wg with
  | none => s
  | some g =>
    if !g.stashHits off n then s
    else g.stash.foldl (fun s w => s.modStash wg w.scr fun x =>
      { x with bytes := (List.range n).foldl (fun (t : Tab StashByte) i =>
          if w.scr ≤ off + i && off + i < w.scr + w.len then t.put (off + i - w.scr) ⟨true, region⟩ else t) x.bytes }) s

/-- Removes a window after its write-back; bytes of sectors never filled become zero (R186). -/
def State.unmapWindow (s : State) (wg scr : Nat) : State :=
  match s.wgs.look wg with
  | none => s
  | some g =>
    match g.stash.find? fun w => w.scr = scr with
    | none => s
    | some w =>
      let empty := (List.range (w.len / 64)).filter fun j => (List.range 64).all fun i => (w.bytes.look (64 * j + i)).isNone
      let s := empty.foldl (fun s j => s.scrPut g (w.scr + 64 * j) (List.replicate 64 0)) s
      s.modWg wg fun g => { g with stash := g.stash.filter fun x => x.scr ≠ scr }

/-! ### Atomics (R180) -/

/-- Whether an atomic type is signed. -/
def signedAtom (t : Ty) : Bool := t = .s32 || t = .s64

/-- The new value of an atomic operation. -/
def atomNew (op : Nat) (t : Ty) (old v compare : Nat) : Nat :=
  let w := 8 * memSize t
  let less : Bool := if signedAtom t then decide (sgn w v < sgn w old) else decide (v < old)
  match op with
  | 0 => match t with
    | .f32 => Num.addF old v
    | .bf16 => Num.addB (old % 65536) (v % 65536) + 65536 * Num.addB (old / 65536) (v / 65536)
    | _ => (old + v) % 2 ^ w
  | 1 => if t = .f32 then Num.minF old v else if less then v else old
  | 2 => if t = .f32 then Num.maxF old v else if less then old else v
  | 3 => old ||| v
  | 4 => v
  | _ => if old = compare then v else old

/-- The operation writes nothing: a CAS whose compare fails. -/
def atomFails (op old compare : Nat) : Bool := op = 5 && old ≠ compare

/-- The value operand of an atomic, which for CAS names a register or pair of its own. -/
def mAtomOps (o : M) : List Opnd :=
  if o.ord.val = 5 then
    let step := if o.ty.wide then 2 else 1
    let next : Reg := match o.b with
      | .v n => .v (Fin.ofNat 128 (n.val + step))
      | .k n => .k (Fin.ofNat 64 (n.val + step))
      | r => r
    [mSecond o o.ty.wide, regOpnd next o.bPol o.ty.wide]
  else [mSecond o o.ty.wide]

/-- The value and the compare value of a lane. -/
def State.atomVals (s : State) (sel lane : Nat) (o : M) : Nat × Nat :=
  let xs := s.vals sel lane (mAtomOps o)
  (xs.getD 0 0, xs.getD 1 0)

/-- The terms of an atomic (R353). -/
def mAtomTerms (o : M) (ea v compare : Nat) : List (Nat × Nat) :=
  if o.ord.val = 5 then [(ea, v), (ea + 8, compare)] else [(ea, v)]

end Sys2Proof.Machine
end

