-- ==== Sys2Proof/Machine/Memory.lean ====
section
/-! DEFINITION. Loads, stores, atomics, fences, prefetch and stash windows (R174 to R187). -/

namespace Sys2Proof.Machine

open Sys2Proof.Num (bits bit sgn wrap ofBytes toBytes)

/-- The effective addresses of the lanes. -/
def State.easOf (s : State) (sel : Nat) (lanes : List Nat) (o : M) (isGlobal indexed : Bool) : List Ea :=
  lanes.map fun l => (l, s.eaOf sel l o isGlobal indexed)

/-- The end of the global address space (R69). -/
def globalEnd : Nat := 2 ^ 48

/-- Address, alignment and lock checks, in the order of R175. -/
def State.addressStop (s : State) (sel : Nat) (eas : List Ea) (n : Nat) (isGlobal wr : Bool) : Option Stop :=
  firstStop [
    fun _ => eaDenied eas n (if isGlobal then globalEnd else (s.wgOf sel).alloc),
    fun _ => eaMisaligned eas n,
    fun _ => s.eaLocked sel eas n isGlobal wr]

/-! ### LD and LDK (R177) -/

/-- Issues a global load: its destinations go empty, and each lane is translated and served by READ_RENEW or LOAD_FILL. -/
def State.loadGlobal (s : State) (lanes : List Nat) (o : M) : State :=
  let sel := s.actor
  let n := memSize o.ty
  let eas := s.easOf sel lanes o true true
  match firstStop [fun _ => s.addressStop sel eas n true false, fun _ => s.stallIf (s.acquiring sel || s.loadsFull sel)] with
  | some st => s.halt sel st
  | none =>
    let s := s.raiseFloors sel lanes [mBase o true, mSecond o false]
    let accs := eas.map fun (p : Nat × Int) => (⟨p.1, s.dstOf sel p.1 o.d o.ty.wide, eaNat p.2, n, o.ty.code, .wait⟩ : Acc)
    let s := lanes.foldl (fun s l => s.markEmpty sel l o.d o.ty.wide) s
    (s.issueLoad sel .mem accs o.ord.val (o.ord.val = 1)).2.go

/-- LD (R177). -/
def execLd (o : M) (s : State) : Result :=
  .next (match s.begin 0x40 o.g false [mBase o true, mSecond o false, dstOpnd o.d o.ty.wide] with
    | .inl t => t
    | .inr (lanes, t) => t.loadGlobal lanes o)

/-- LDK (R177): one access, of the lowest lane whose guard is true. -/
def execLdk (o : M) (s : State) : Result :=
  .next (match s.begin 0x42 o.g true [mBase o true, mSecond o false, dstOpnd o.d o.ty.wide] with
    | .inl t => t
    | .inr (lanes, t) => t.loadGlobal lanes o)

/-! ### Scratchpad loads and stores (R71, R177, R178) -/

/-- What a scratchpad load finds: its value, with the poison of its words (R346). -/
def State.scrLoad (s : State) (g : Wg) (off n : Nat) : LPhase :=
  .bound (s.scrNat g off n) (if s.scrBad g off n then some 0 else none) none

/-- LDS (R75, R177): the value is taken at issue, but that a stash sector that must be filled first. -/
def execLds (o : M) (s : State) : Result :=
  .next (match s.begin 0x43 o.g false [mBase o false, mSecond o false, dstOpnd o.d o.ty.wide] with
    | .inl t => t
    | .inr (lanes, s) =>
      let sel := s.actor
      let n := memSize o.ty
      let eas := s.easOf sel lanes o false true
      match firstStop [fun _ => s.addressStop sel eas n false false, fun _ => s.stallIf (s.acquiring sel || s.loadsFull sel)] with
      | some st => s.halt sel st
      | none =>
        let g := s.wgOf sel
        let s := s.raiseFloors sel lanes [mBase o false, mSecond o false]
        let accs := eas.map fun (p : Nat × Int) =>
          let off := eaNat p.2
          let regions := ((s.fibres.look (fibreKey sel p.1)).map Fibre.regions).getD []
          let served := (s.stashNeeds g regions off n).isEmpty
          (⟨p.1, s.dstOf sel p.1 o.d o.ty.wide, off, n, o.ty.code, if served then s.scrLoad g off n else .wait⟩ : Acc)
        let s := eas.foldl (fun (s : State) (p : Nat × Int) => s.noteScr g (eaNat p.2) n) s
        let s := lanes.foldl (fun s l => s.markEmpty sel l o.d o.ty.wide) s
        (s.issueLoad sel .scratch accs o.ord.val (o.ord.val = 1)).2.go)

/-- The term of a scratchpad store into a stash window (R353). -/
def scrTerm (g : Wg) (off x : Nat) : List (Nat × Nat) :=
  match g.stashAt off with
  | some w => [(w.va + (off - w.scr), x)]
  | none => []

/-- STS (R75, R178). -/
def execSts (o : M) (s : State) : Result :=
  let ops := [mBase o false, mSecond o false, regOpnd o.d false o.ty.wide]
  .next (match s.begin 0x44 o.g false ops with
    | .inl t => t
    | .inr (lanes, s) =>
      let sel := s.actor
      let n := memSize o.ty
      let eas := s.easOf sel lanes o false true
      let g := s.wgOf sel
      let terms := eas.map fun (p : Nat × Int) => (p.1, (scrTerm g (eaNat p.2) 0).length)
      match firstStop [fun _ => s.addressStop sel eas n false true,
          fun _ => s.stallIf (s.acquiring sel || s.storesFull sel || s.loadHolds sel false eas n),
          fun _ => s.slackGate sel terms] with
      | some st => s.halt sel st
      | none =>
        let s := s.raiseFloors sel lanes ops
        (eas.foldl (fun (t : State) (p : Nat × Int) =>
          let off := eaNat p.2
          let x := (s.peek sel p.1 (regOpnd o.d false o.ty.wide)).val % 2 ^ (8 * n)
          let region := (s.fibres.look (fibreKey sel p.1)).bind fun f => f.regions.head?
          ((t.scrPutNat g off n x).dirtyStash (s.wgNo sel) off n region).addTerms (fibreKey sel p.1) (scrTerm g off x)) s).go)

/-! ### ST (R76, R92, R97, R176, R178) -/

/-- One lane's store: lane, virtual and physical address, its bytes, the page's kind, and the version it goes under. -/
structure LaneStore where
  lane : Nat
  va : Nat
  leaf : Tlb
  bytes : List (Nat × Byte)
  under : Option Nat
deriving DecidableEq, Repr, Inhabited

def LaneStore.kind (p : LaneStore) : Nat := p.leaf.kind
def LaneStore.pa (p : LaneStore) : Nat := p.leaf.phys p.va

/-- The lanes' stores, ascending. -/
def State.laneStores (s : State) (sel : Nat) (eas : List Ea) (d : Opnd) (n : Nat) : List LaneStore :=
  eas.map fun (p : Nat × Int) =>
    let va := eaNat p.2
    let leaf := s.leafOf sel va
    ⟨p.1, va, leaf, bytesAt (leaf.phys va) n (s.peek sel p.1 d).val, s.innermost sel p.1⟩

/-- A page of this kind takes whole 4-byte elements only (R92, R97). -/
def wholeWords (kind : Nat) : Bool := kind = 1 || kind ≥ 3

/-- The 4-byte elements of a store. -/
def LaneStore.words (p : LaneStore) : List (Nat × Nat) :=
  (List.range (p.bytes.length / 4)).map fun i => (p.pa + 4 * i, ofBytes ((p.bytes.drop (4 * i)).take 4 |>.map Prod.snd))

/-- A store under a version: a shadow, and for a reduction or sample page also a contribution or logit held until the outermost commit
(R176). A contribution is no shadow of the base. -/
def State.storeVersioned (s : State) (p : LaneStore) (v : Nat) : State :=
  let s := if p.kind ≥ 3 then s else s.storeUnder v p.bytes
  if wholeWords p.kind then
    { s with versions := s.versions.modify v fun x => { x with
        held := x.held ++ p.words.map fun w => ⟨w.1, p.va + (w.1 - p.pa), p.kind, BitVec.ofNat 32 w.2⟩ } }
  else s

/-- A contribution to a reduction page: a request per element (R92). -/
def State.contribute (s : State) (sel : Nat) (p : LaneStore) (whole : Bool) (after : List Nat) : List Nat × State :=
  p.words.foldl (fun (a : List Nat × State) w =>
    let (id, t) := a.2.send (a.2.flightOf sel (.contribution p.kind whole) w.1 (p.va + (w.1 - p.pa)) (bytesAt w.1 4 w.2) p.leaf.lease after)
    (id :: a.1, t)) ([], s)

/-- Stores to a sample-window page: written through L2, a request per line (R97). -/
def State.sendSamples (s : State) (sel : Nat) (ps : List LaneStore) (after : List Nat) : List Nat × State :=
  (byLine (mergeBytes (ps.flatMap LaneStore.bytes))).foldl (fun (a : List Nat × State) g =>
    let pa := (g.head?.map Prod.fst).getD 0
    let va := ((ps.find? fun p => lineOf p.pa = lineOf pa).map fun p => p.va / 256 * 256 + pa % 256).getD 0
    let (id, t) := a.2.send (a.2.flightOf sel .sample pa va g 10 after)
    (id :: a.1, t)) ([], s)

/-- A plain store into L1 (R76). -/
def State.storeL1 (s : State) (sel : Nat) (p : LaneStore) : State :=
  let g := s.wgOf sel
  ((s.l1Room g.cluster (lineOf p.pa)).l1Store g.cluster p.bytes g.idx p.leaf.vf p.leaf.lease p.kind)

/-- Contributions of a warp that have not reached a partial: a release waits for them (R92, R118). -/
def State.contributing (s : State) (sel : Nat) : Bool :=
  s.flights.any fun p => p.2.warp = sel && !p.2.merged && (match p.2.kind with
    | .contribution _ _ => true
    | _ => false)

/-- The requests of a warp that are not acknowledged. -/
def State.flightsOf (s : State) (sel : Nat) : List Nat := (s.flights.filter fun p => p.2.warp = sel).map Prod.fst

/-- What a release at a scope does before its own store (R83, R92, R184): the requests to wait for. -/
def State.releaseWork (s : State) (sel scope : Nat) : List Nat × State :=
  if scope < 2 then ([], s)
  else
    let s := s.sendPartials (clusterOf sel) (scope ≥ 3)
    let (ids, s) := s.releaseAll sel (s.wgNo sel)
    ((ids ++ s.flightsOf sel).eraseDups, s)

/-- The effect of ST over its lanes, by page kind, ord and version. -/
def State.storeLanes (s : State) (sel : Nat) (ps : List LaneStore) (ord scope : Nat) : State :=
  let c := clusterOf sel
  let s := ps.foldl (fun s p => match p.under with
    | some v => s.storeVersioned p v
    | none => s) s
  let plain := ps.filter fun p => p.under.isNone
  let (before, s) := if ord = 2 then s.releaseWork sel scope else ([], s)
  -- reduction and sample pages
  let red := plain.filter fun p => p.kind ≥ 3
  let (ids1, s) := red.foldl (fun (a : List Nat × State) p =>
    let (i, t) := a.2.contribute sel p (ord = 3 || ord = 5) before
    (a.1 ++ i, t)) ([], s)
  let (ids2, s) := s.sendSamples sel (plain.filter fun p => p.kind = 1) before
  -- ordinary and alias pages
  let base := plain.filter fun p => p.kind = 0 || p.kind = 2
  if ord = 0 then (base.foldl (fun s p => s.storeL1 sel p) s).openStore sel (ids1 ++ ids2)
  else
    let bs := mergeBytes (base.flatMap LaneStore.bytes)
    let (first, s) := s.sendOverlap sel c bs
    let (own, s) := s.sendBytes sel bs ((base.head?.map fun p => p.leaf.lease).getD 10) (before ++ first)
    s.openStore sel (own ++ ids1 ++ ids2 ++ (if ord = 2 then before else []))

/-- ST.rel.gang is refused while the warp's view is older than the one published (R257). -/
def State.viewStop (s : State) (sel lane : Nat) (o : M) : Option Stop :=
  match s.warps.look sel with
  | none => none
  | some w => match w.bound with
    | none => none
    | some q => if o.ord.val = 2 && o.scope.val = 3 && w.view.toNat < s.seqView q then some (.trap ⟨0x16, lane, 0, q, 0⟩) else none

/-- ST with ord 0, 2, 3 or 5 (R178). -/
def execSt (o : M) (s : State) : Result :=
  let d := regOpnd o.d false o.ty.wide
  let ops := [mBase o true, mSecond o false, d]
  .next (match s.begin 0x41 o.g false ops with
    | .inl t => t
    | .inr (lanes, s) =>
      let sel := s.actor
      let n := memSize o.ty
      let eas := s.easOf sel lanes o true true
      let full (_ : Unit) : Bool := (s.laneStores sel eas d n).any fun p =>
        ((s.wgOf sel).version.map fun v => p.under = some v && s.versionFull v p.bytes).getD false
      match firstStop [fun _ => s.viewStop sel (lanes.headD 0) o,
          fun _ => s.addressStop sel eas n true true,
          fun _ => s.needAll sel accWrite eas n true,
          fun _ => s.kindStop sel eas (fun k => wholeWords k && n < 4) 0x09,
          fun _ => s.tableStop sel eas false true,
          fun _ => s.stallIf (s.acquiring sel || s.storesFull sel || s.loadHolds sel true eas n || (o.ord.val = 2 && s.contributing sel) || full ()),
          fun _ => s.slackGate sel (eas.map fun (p : Nat × Int) => (p.1, 1))] with
      | some st => s.halt sel st
      | none =>
        let s := s.raiseFloors sel lanes ops
        let ps := s.laneStores sel eas d n
        let s := ps.foldl (fun s p => s.addTerms (fibreKey sel p.lane) [(p.va, ofBytes (p.bytes.map Prod.snd))]) s
        (s.storeLanes sel ps o.ord.val o.scope.val).go)

/-! ### ST.spw (R179, R262) -/

/-- The checks of a speculative-window store. -/
def State.spwStop (s : State) (sel : Nat) (o : M) (eas : List Ea) (n : Nat) : Option Stop :=
  match (s.warps.look sel).bind Warp.bound with
  | none => (eas.head?).map fun p => .trap ⟨0x16, p.1, 0, 0xFFFFFFFF, 0⟩
  | some q =>
    let tag (l : Nat) : Nat := (s.peek sel l (mSecond o false)).val
    (eas.find? fun (p : Nat × Int) => !s.seqFlag q 4 || !(s.inKv q (eaNat p.2) n || s.inRecurrent q (eaNat p.2) n) || tag p.1 ≥ 64).map
      fun p => .trap ⟨0x17, p.1, 0, q, 0⟩

/-- A lane's tagged bytes: held in its innermost region's version, or sent to the window's. -/
def State.storeSpw (s : State) (sel q : Nat) (p : LaneStore) (tag : Nat) : List Nat × State :=
  match (s.fibres.look (fibreKey sel p.lane)).bind fun f => f.regions.head? with
  | some r =>
    let new : List Tagged := p.bytes.map fun b => ⟨tag, b.1, b.2⟩
    match s.regions.look r with
    | some x => ([], { s with versions := s.versions.modify x.version fun v => { v with tagged := Tagged.merge new v.tagged } })
    | none => ([], s)
  | none =>
    let f := s.flightOf sel .write p.pa p.va p.bytes p.leaf.lease []
    let (id, s) := s.send { f with window := some (q, s.seqWindow q, tag) }
    ([id], s)

/-- ST with ord 4 (R179). -/
def execStSpw (o : M) (s : State) : Result :=
  let d := regOpnd o.d false o.ty.wide
  let ops := [mBase o true, mSecond o false, d]
  .next (match s.begin 0x41 o.g false ops with
    | .inl t => t
    | .inr (lanes, s) =>
      let sel := s.actor
      let n := memSize o.ty
      let eas := s.easOf sel lanes o true false
      match firstStop [fun _ => s.addressStop sel eas n true true,
          fun _ => s.spwStop sel o eas n,
          fun _ => s.needAll sel accWrite eas n true,
          fun _ => s.tableStop sel eas false true,
          fun _ => s.stallIf (s.acquiring sel || s.storesFull sel || s.loadHolds sel true eas n),
          fun _ => s.slackGate sel (eas.map fun (p : Nat × Int) => (p.1, 1))] with
      | some st => s.halt sel st
      | none =>
        let s := s.raiseFloors sel lanes ops
        let q := ((s.warps.look sel).bind Warp.bound).getD 0
        let tag (l : Nat) : Nat := (s.peek sel l (mSecond o false)).val % 64
        let ps := s.laneStores sel eas d n
        let s0 := s
        let s := ps.foldl (fun s p => s.addTerms (fibreKey sel p.lane) [(p.va, ofBytes (p.bytes.map Prod.snd))]) s
        let (ids, s) := ps.foldl (fun (a : List Nat × State) p =>
          let (i, t) := a.2.storeSpw sel q p ((s0.peek sel p.lane (mSecond o false)).val % 64)
          (a.1 ++ i, t)) ([], s)
        ((s.openStore sel ids).modWarp sel fun w => { w with tag := tag (lanes.headD 0) }).go)

/-! ### ATOM and RED (R180, R181, R183) -/

/-- The operation and type of a reduction page's own operation (R68). -/
def pageOp (kind op : Nat) (t : Ty) : Bool :=
  match kind with
  | 3 => op = 0 && t = .f32
  | 4 => op = 0 && t = .bf16
  | 5 => op = 0 && t = .s32
  | 6 => op = 2 && t = .f32
  | 7 => op = 1 && t = .f32
  | _ => false

/-- The checks of an atomic at step 9, and what holds it at issue. -/
def State.atomStop (s : State) (sel : Nat) (o : M) (eas : List Ea) (isRed : Bool) : Option Stop :=
  let n := memSize o.ty
  let refused (k : Nat) : Bool := k = 1 || k = 2 || (isRed && k ≥ 3 && !pageOp k o.ord.val o.ty)
  firstStop [fun _ => s.addressStop sel eas n true true,
    fun _ => s.needAll sel (accRead + accWrite) eas n true,
    fun _ => s.kindStop sel eas refused 0x0A,
    fun _ => s.tableStop sel eas true true,
    fun _ => s.stallIf (s.acquiring sel || s.loadHolds sel true eas n || (if isRed then s.storesFull sel else s.loadsFull sel) ||
      (o.sh.val ≥ 2 && s.contributing sel)),
    fun _ => s.atomicGate sel (eas.map fun (p : Nat × Int) =>
      let v := s.atomVals sel p.1 o
      (p.1, mAtomTerms o (eaNat p.2) v.1 v.2)),
    fun _ => s.commitStop sel (eas.map Prod.fst)]

/-- The destination of one lane of an atomic: none of k0, and a k register is written once, with the lowest lane's old value (R36). -/
def State.atomDst (s : State) (sel low l : Nat) (o : M) : Option Dst :=
  if o.d = .k 0 || (!o.d.isV && l ≠ low) then none else s.dstOf sel l o.d o.ty.wide

/-- Sends the atomics of the lanes to their homes. -/
def State.sendAtoms (s : State) (sel : Nat) (o : M) (eas : List Ea) (vals : List (Nat × Nat)) (load : Option Nat) (after : List Nat) : List Nat × State :=
  let n := memSize o.ty
  (eas.zip vals).foldl (fun (a : List Nat × State) p =>
    let va := eaNat p.1.2
    let leaf := a.2.leafOf sel va
    let pa := leaf.phys va
    let (first, t) := a.2.sendOverlap sel (clusterOf sel) (bytesAt pa n 0)
    let (id, t) := t.send (t.flightOf sel (.atomic o.ord.val o.ty.code p.2.1 p.2.2 load p.1.1) pa va (bytesAt pa n p.2.1) leaf.lease (after ++ first))
    (a.1 ++ [id], t)) ([], s)

/-- ATOM (R181). Of a redundant pair only the leading copy acts; the trailing copy takes the forwarded old values (R355). -/
def execAtom (o : M) (s : State) : Result :=
  let ops := mBase o true :: mAtomOps o
  .next (match s.begin 0x45 o.g false (ops ++ [dstOpnd o.d o.ty.wide]) with
    | .inl t => t
    | .inr (lanes, s) =>
      let sel := s.actor
      let eas := s.easOf sel lanes o true false
      match s.atomStop sel o eas false with
      | some st => s.halt sel st
      | none =>
        let writes := !(o.d = .k 0)
        if s.trailing sel then
          match s.forwardGate sel lanes with
          | some st => s.halt sel st
          | none =>
            let g := s.wgOf sel
            (((s.leaveAtomic sel lanes).noReturn sel lanes fun t =>
              lanes.foldl (fun t l =>
                let no := t.fibreNo (fibreKey sel l)
                let vals := ((t.nextForward g no).map Fwd.vals).getD []
                let t := t.takeForward g no
                match t.atomDst sel (lanes.headD 0) l o with
                | some d => t.fillDst d (vals.getD 0 0) (if vals.getD 1 0 = 1 then some 0 else none) none
                | none => t) t)).go
        else
          let s := s.raiseFloors sel lanes ops
          let vals := lanes.map fun l => s.atomVals sel l o
          ((s.leaveAtomic sel lanes).noReturn sel lanes fun t =>
            let (before, t) := if o.sh.val ≥ 2 then t.releaseWork sel o.scope.val else ([], t)
            let accs := eas.map fun (p : Nat × Int) =>
              (⟨p.1, t.atomDst sel (lanes.headD 0) p.1 o, eaNat p.2, memSize o.ty, o.ty.code, .wait⟩ : Acc)
            let t := if writes then lanes.foldl (fun t l => t.markEmpty sel l o.d o.ty.wide) t else t
            let (id, t) := t.issueLoad sel .atomic accs 0 (o.sh.val % 2 = 1)
            let t := lanes.foldl (fun t l => t.forward sel l [] false id) t
            (t.sendAtoms sel o eas vals (some id) before).2).go)

/-- RED (R183): on a reduction page of its own operation it is a contribution. -/
def execRed (o : M) (s : State) : Result :=
  let ops := [mBase o true, mSecond o o.ty.wide]
  .next (match s.begin 0x47 o.g false ops with
    | .inl t => t
    | .inr (lanes, s) =>
      let sel := s.actor
      let eas := s.easOf sel lanes o true false
      match s.atomStop sel o eas true with
      | some st => s.halt sel st
      | none =>
        if s.trailing sel then ((s.leaveAtomic sel lanes).noReturn sel lanes id).go
        else
          let s := s.raiseFloors sel lanes ops
          let vals := lanes.map fun l => s.atomVals sel l o
          ((s.leaveAtomic sel lanes).noReturn sel lanes fun t =>
            let (before, t) := if o.sh.val = 2 then t.releaseWork sel o.scope.val else ([], t)
            let isRed (p : Nat × Int) : Bool := (t.leafOf sel (eaNat p.2)).kind ≥ 3
            let red := (eas.zip vals).filter fun p => isRed p.1
            let rest := (eas.zip vals).filter fun p => !isRed p.1
            let (a, t) := red.foldl (fun (a : List Nat × State) p =>
              let va := eaNat p.1.2
              let leaf := a.2.leafOf sel va
              let (i, u) := a.2.contribute sel ⟨p.1.1, va, leaf, bytesAt (leaf.phys va) 4 p.2.1, none⟩ false before
              (a.1 ++ i, u)) ([], t)
            let (b, t) := t.sendAtoms sel o (rest.map Prod.fst) (rest.map Prod.snd) none before
            t.openStore sel (a ++ b)).go)

/-! ### ATOMS (R182) -/

/-- The sectors that ATOMS must have filled first, over its lanes. -/
def State.atomsFill (s : State) (sel : Nat) (eas : List Ea) (n : Nat) : State :=
  eas.foldl (fun (t : State) (p : Nat × Int) =>
    let regions := ((t.fibres.look (fibreKey sel p.1)).map Fibre.regions).getD []
    (t.stashNeeds (t.wgOf sel) regions (eaNat p.2) n).foldl (fun t q => t.fillStash (t.wgNo sel) (t.chainTags sel p.1) q.1 q.2) t) s

/-- A sector to be filled lies in a line that waits for a commit, or under a request of the cluster. -/
def State.fillWaits (s : State) (sel : Nat) (eas : List Ea) (n : Nat) : Bool :=
  let g := s.wgOf sel
  eas.any fun (p : Nat × Int) => (s.stashNeeds g [] (eaNat p.2) n).any fun q =>
    match g.stash.find? fun w => w.scr = q.1 with
    | some w =>
      let pa := w.phys (w.scr + 64 * q.2)
      (s.l2Line (lineOf pa)).pending || s.overtakes g.cluster pa 64
    | none => false

/-- One lane of ATOMS at the banks: its old value, and the word changed unless it is poisoned. -/
def State.atomsLane (s : State) (sel : Nat) (o : M) (lane off : Nat) (v : Nat × Nat) : LPhase × State :=
  let g := s.wgOf sel
  let n := memSize o.ty
  let old := s.scrNat g off n
  let bad := s.scrBad g off n
  let s := s.noteScr g off n
  if bad then (.bound old (some 0) none, s)
  else if atomFails o.ord.val old v.2 then (.bound old none none, s)
  else
    let region := (s.fibres.look (fibreKey sel lane)).bind fun f => f.regions.head?
    (.bound old none none, (s.scrPutNat g off n (atomNew o.ord.val o.ty old v.1 v.2)).dirtyStash (s.wgNo sel) off n region)

/-- ATOMS (R182): performed at issue, in ascending lane order; the old values return as a load's. -/
def execAtoms (o : M) (s : State) : Result :=
  let ops := mBase o false :: mAtomOps o
  .next (match s.begin 0x46 o.g false (ops ++ [dstOpnd o.d o.ty.wide]) with
    | .inl t => t
    | .inr (lanes, s) =>
      let sel := s.actor
      let n := memSize o.ty
      let eas := s.easOf sel lanes o false false
      match firstStop [fun _ => s.addressStop sel eas n false true,
          fun _ => s.stallIf (s.acquiring sel || s.loadsFull sel || s.loadHolds sel false eas n || s.fillWaits sel eas n)] with
      | some st => s.halt sel st
      | none =>
        let s := s.raiseFloors sel lanes ops
        let vals := lanes.map fun l => s.atomVals sel l o
        let s := s.atomsFill sel eas n
        let writes := !(o.d = .k 0)
        let (accs, s) := (eas.zip vals).foldl (fun (a : List Acc × State) p =>
          let (ph, t) := a.2.atomsLane sel o p.1.1 (eaNat p.1.2) p.2
          (a.1 ++ [⟨p.1.1, t.atomDst sel (lanes.headD 0) p.1.1 o, eaNat p.1.2, n, o.ty.code, ph⟩], t)) ([], s)
        let s := if writes then lanes.foldl (fun t l => t.markEmpty sel l o.d o.ty.wide) s else s
        (s.issueLoad sel .scratch accs 0 (o.sh.val % 2 = 1)).2.go)

/-! ### FENCE (R110, R113, R184) -/

/-- Earlier loads of a warp that are not bound. -/
def State.unboundLoads (s : State) (sel : Nat) : Bool :=
  s.loads.any fun p => p.2.warp = sel && p.2.accs.any fun a => a.phase = .wait || a.phase = .parked

/-- The renewal replies of a warp retire: pts rises to their timestamps (R108, R110). -/
def State.retireReplies (s : State) (sel : Nat) : State :=
  let c := clusterOf sel
  let mine := (s.cluster c).unretired.filter fun r => r.1 = sel
  let s := mine.foldl (fun s r => s.raisePts c r.2) s
  s.modCluster c fun k => { k with unretired := k.unretired.filter fun r => r.1 ≠ sel }

/-- The batch stays at its instruction, holding its port, at a later step of it. -/
def State.holdAt (s : State) (sel phase arg : Nat) (ids : List Nat) : State := s.modWarp sel fun w => { w with hold := some ⟨phase, ids, arg, s.word⟩ }

def State.holdOf (s : State) (sel : Nat) : Option Hold := (s.warps.look sel).bind Warp.hold

/-- The acquire side of a fence, once its release side is done. -/
def State.fenceEnd (s : State) (sel : Nat) (o : MFence) (h : Hold) : State :=
  if h.ids.any fun i => (s.flights.look i).isSome then s
  else if o.order.val % 2 = 0 then s.go
  else if s.unboundLoads sel then s
  else (s.retireReplies sel).go

/-- FENCE (R184): the batch waits at it, holding its port. -/
def execFence (o : MFence) (s : State) : Result :=
  .next (match s.begin 0x48 o.g false [] with
    | .inl t => t
    | .inr (_, s) =>
      let sel := s.actor
      match s.holdOf sel with
      | some h => s.fenceEnd sel o h
      | none =>
        if o.order.val ≥ 2 && s.contributing sel then s
        else
          let (ids, s) := if o.order.val ≥ 2 then s.releaseWork sel o.scope.val else ([], s)
          (s.holdAt sel 1 0 ids).fenceEnd sel o ⟨1, ids, 0, s.word⟩)

/-! ### PREF (R185) -/

/-- PREF: lanes whose address is refused or misaligned are dropped; the others fill their sector. It counts in no threshold. -/
def execPref (o : M) (s : State) : Result :=
  .next (match s.begin 0x49 o.g false [mBase o true, mSecond o false] with
    | .inl t => t
    | .inr (lanes, s) =>
      let sel := s.actor
      let eas := (s.easOf sel lanes o true true).filter fun (p : Nat × Int) =>
        (eaDenied [p] 4 globalEnd).isNone && (eaMisaligned [p] 4).isNone
      match firstStop [fun _ => s.eaLocked sel eas 4 true false, fun _ => s.stallIf (s.acquiring sel)] with
      | some st => s.halt sel st
      | none =>
        let s := s.raiseFloors sel lanes [mBase o true, mSecond o false]
        if eas.isEmpty then s.go
        else
          let accs := eas.map fun (p : Nat × Int) => (⟨p.1, none, eaNat p.2, 4, 0, .wait⟩ : Acc)
          let (id, s) := s.fresh
          ({ s with loads := s.loads.put id ⟨sel, .mem, accs, o.ord.val, false, 0, 0, false, 0⟩ }).go)

/-! ### SMAP and SFLUSH (R74, R186, R187) -/

/-- The checks of SMAP that come before its translation. -/
def State.smapStop (s : State) (sel lane vs va vl : Nat) : Option Stop :=
  let g := s.wgOf sel
  if vs % 4 ≠ 0 then some (.trap ⟨0x09, lane, 0, vs, 0⟩)
  else if va % 64 ≠ 0 || vl % 64 ≠ 0 then some (.trap ⟨0x09, lane, 0, va, 0⟩)
  else if vl = 0 then
    if g.stash.any fun w => w.scr = vs then none else some (.trap ⟨0x0A, lane, 0, vs, 0⟩)
  else if vs + vl > g.alloc || vl > 262144 then some (.trap ⟨0x0A, lane, 0, vs, 0⟩)
  else if va + vl > globalEnd then some (.trap ⟨0x0A, lane, 0, va, 0⟩)
  else if g.stash.length ≥ 8 || g.stashHits vs vl || (g.stash.any fun w => decide (va < w.va + w.len ∧ w.va < va + vl)) then
    some (.trap ⟨0x0A, lane, 0, vs, 0⟩)
  else (s.lockHit g.cluster false (g.rail * 148 + vs) (g.rail * 148 + vs + vl - 1) true).map fun i => .trap ⟨0x0C, lane, i, vs, 0⟩

/-- The checks of a mapped range's pages: writable, and granted by the tables. -/
def State.smapPages (s : State) (sel lane va vl : Nat) : Option Stop :=
  let pages : List Ea := (pagesOf va vl).map fun p => (lane, ((max va (p * 4096) : Nat) : Int))
  match pages.find? fun (p : Nat × Int) => !(s.leafOf sel (eaNat p.2)).write with
  | some p => some (.trap ⟨0x0A, lane, 0, eaNat p.2, 0⟩)
  | none => s.tableStop sel pages true true

/-- A load of the workgroup still has to fill a sector of a window. -/
def State.windowBusy (s : State) (sel scr : Nat) : Bool :=
  match (s.wgOf sel).stash.find? fun w => w.scr = scr with
  | none => false
  | some w => s.loads.any fun p => s.wgNo p.2.warp = s.wgNo sel && p.2.overlaps false w.scr w.len

/-- SMAP (R186): once per batch, with the operands of the lowest true lane; length 0 unmaps. -/
def execSmap (o : M) (s : State) : Result :=
  let ops := [regOpnd o.d false false, mBase o true, mSecond o false]
  .next (match s.begin 0x4A o.g true ops with
    | .inl t => t
    | .inr (lanes, s) =>
      let sel := s.actor
      let l := lanes.headD 0
      let xs := s.vals sel l ops
      let ea := s.eaOf sel l o true false
      let vs := xs.getD 0 0
      let vl := xs.getD 2 0
      let va := eaNat ea
      match firstStop [fun _ => eaDenied [(l, ea)] 1 globalEnd, fun _ => s.smapStop sel l vs va vl,
          fun _ => if vl = 0 then s.stallIf (s.storesFull sel || s.windowBusy sel vs) else s.needAll sel accRead [(l, ea)] vl false,
          fun _ => if vl = 0 then none else s.smapPages sel l va vl] with
      | some st => s.halt sel st
      | none =>
        let s := s.raiseFloors sel [l] ops
        let wg := s.wgNo sel
        if vl = 0 then
          match (s.wgOf sel).stash.find? fun w => w.scr = vs with
          | some w =>
            let (ids, s) := s.flushWindow sel wg (s.wgOf sel) w
            ((s.openStore sel ids).unmapWindow wg vs).go
          | none => s.go
        else
          let pins := ((pagesOf va vl).map fun p => s.leafOf sel (p * 4096)).eraseDups
          (s.modWg wg fun g => { g with stash := g.stash ++ [⟨vs, va, vl, pins, [], []⟩] }).go)

/-- SFLUSH (R187): once per batch. -/
def execSflush (o : G0) (s : State) : Result :=
  .next (match s.begin 0x4B o.g true [] with
    | .inl t => t
    | .inr (_, s) =>
      let sel := s.actor
      match s.stallIf (s.acquiring sel || s.storesFull sel) with
      | some st => s.halt sel st
      | none =>
        let (ids, s) := s.flushStash sel (s.wgNo sel)
        (s.openStore sel ids).go)

end Sys2Proof.Machine
end

