-- ==== Sys2Proof/Machine/Control.lean ====
section
/-! DEFINITION. Branches, calls, fibres, named barriers, semaphores, register blocks, assertions and recovery regions (R191 to R221). -/

namespace Sys2Proof.Machine

open Sys2Proof.Num (bits bit sgn wrap)

/-! ### After an instruction that some lanes may wait at -/

/-- Every lane of the batch stands at the last instruction of its clause. -/
def State.atEnd (s : State) (sel : Nat) : Bool :=
  (s.batchLanes sel).all fun l => ((s.fibres.look (fibreKey sel l)).map Fibre.atLast).getD true

/-- The lanes of `acted` have been dealt with: they have gone on, wait, or have ended. The other lanes of the batch go on; the clause ends
when it was its last instruction, when a lane waits (R20, R192), or when none is left (R126). -/
def State.settle (s : State) (sel : Nat) (acted : List Nat) (last : Bool) : State :=
  match (s.warps.look sel).bind Warp.batch with
  | none => s
  | some b =>
    let s := (b.lanes.filter fun l => !acted.contains l).foldl (fun s l => s.modFibre (fibreKey sel l) Fibre.next) s
    let waits (l : Nat) : Bool := ((s.fibres.look (fibreKey sel l)).map fun f => decide (f.wait ≠ .none)).getD false
    let left := b.lanes.filter fun l => (s.fibres.look (fibreKey sel l)).isSome
    if last || left.any waits || left.isEmpty then s.endClause sel []
    else s.modWarp sel fun w => { w with hold := none, batch := w.batch.map fun b => { b with lanes := left } }

/-! ### Branches (R127, R134, R193 to R196) -/

/-- What the check of a header finds. A word that cannot be fetched is left to the transfer: its trap is raised at that word. -/
inductive Hdr where
  | ok | bad | miss
deriving DecidableEq, Repr

def State.headerAt (s : State) (sel va : Nat) : Hdr :=
  match s.fetch sel va with
  | .word w => if headerOk w then .ok else .bad
  | .miss => .miss
  | _ => .ok

/-- The checks of one lane's target: in the address space, and a valid header (R127, R134). -/
def State.targetStop (s : State) (sel lane : Nat) (target : Int) : Option Stop :=
  if target < 0 || target ≥ (globalEnd : Int) then some (.trap ⟨0x0A, lane, 0, wrap 64 target, 0⟩)
  else match s.headerAt sel target.toNat with
    | .ok => none
    | .bad => some (.trap ⟨0x03, lane, 0, target.toNat, 0⟩)
    | .miss => some (.done (s.needPages sel accFetch [target.toNat / 4096]))

/-- The pc of a lane. -/
def State.pcOf (s : State) (sel lane : Nat) : Nat := ((s.fibres.look (fibreKey sel lane)).map fun f => f.pc.toNat).getD 0

/-- A branch target: the instruction's own address plus eight times the signed field (R134). -/
def State.target (s : State) (sel lane : Nat) (field : BitVec 32) : Int := (s.pcOf sel lane : Int) + 8 * sgn 32 field.toNat

/-- Lanes go to their targets and the clause ends; those that went backward are deferred (R18, R126). -/
def State.jump (s : State) (sel : Nat) (ts : List (Nat × Nat)) : State :=
  let back := (ts.filter fun p => decide (p.2 < s.pcOf sel p.1)).map Prod.fst
  let rest := (s.batchLanes sel).filter fun l => !ts.any fun p => p.1 = l
  let s := rest.foldl (fun s l => s.modFibre (fibreKey sel l) Fibre.next) s
  let s := ts.foldl (fun s p => s.modFibre (fibreKey sel p.1) fun f => f.goto (BitVec.ofNat 64 p.2)) s
  s.endClause sel back

/-- BRA (R193). -/
def execBra (o : BBra) (s : State) : Result :=
  .next (match s.begin 0x60 o.g false [] with
    | .inl t => t
    | .inr (lanes, s) =>
      let sel := s.actor
      match lanes.findSome? fun l => s.targetStop sel l (s.target sel l o.target) with
      | some st => s.halt sel st
      | none => s.jump sel (lanes.map fun l => (l, (s.target sel l o.target).toNat)))

/-- The target of a lane of BRX. -/
def State.brxTarget (s : State) (sel lane : Nat) (o : BBrx) : Int :=
  let a := (s.peek sel lane (regOpnd o.a o.pol o.wide)).val
  if o.wide then (a : Int) else s.target sel lane o.target + 8 * (a : Int)

/-- BRX (R194). -/
def execBrx (o : BBrx) (s : State) : Result :=
  .next (match s.begin 0x61 o.g false [regOpnd o.a o.pol o.wide] with
    | .inl t => t
    | .inr (lanes, s) =>
      let sel := s.actor
      let check (l : Nat) : Option Stop :=
        let t := s.brxTarget sel l o
        if o.wide && t % 8 ≠ 0 then some (.trap ⟨0x09, l, 0, wrap 64 t, 0⟩) else s.targetStop sel l t
      match lanes.findSome? check with
      | some st => s.halt sel st
      | none => s.jump sel (lanes.map fun l => (l, (s.brxTarget sel l o).toNat)))

/-- CALL (R195): it must be the last instruction of its clause. -/
def execCall (o : BCall) (s : State) : Result :=
  let link : Reg := .v (Fin.ofNat 128 o.s.val)
  .next (match s.begin 0x62 o.g false [dstOpnd link true] with
    | .inl t => t
    | .inr (lanes, s) =>
      let sel := s.actor
      let check (l : Nat) : Option Stop :=
        match s.fibres.look (fibreKey sel l) with
        | some f => if f.atLast then s.targetStop sel l (s.target sel l o.target) else some (.trap ⟨0x03, l, 0, f.hdr.toNat, 0⟩)
        | none => none
      match lanes.findSome? check with
      | some st => s.halt sel st
      | none =>
        let ts := lanes.map fun l => (l, (s.target sel l o.target).toNat)
        let s := lanes.foldl (fun t l =>
          let ret := s.pcOf sel l + 8
          let x := ret % 2 ^ 32 + 2 ^ 32 * (o.s.val * 65536 + ret / 2 ^ 32 % 65536)
          (t.writeReg sel l link true x none).modFibre (fibreKey sel l) fun f => { f with wb := f.wb + BitVec.ofNat 7 o.s.val }) s
        s.jump sel ts)

/-- The shift and the target that a lane's link pair names. -/
def State.linkOf (s : State) (sel lane : Nat) (o : GA) : Nat × Nat :=
  let x := (s.peek sel lane (regOpnd o.a o.pol true)).val
  (bits x 54 48, bits x 47 32 * 2 ^ 32 + x % 2 ^ 32)

/-- RET (R196). -/
def execRet (o : GA) (s : State) : Result :=
  .next (match s.begin 0x63 o.g false [regOpnd o.a o.pol true] with
    | .inl t => t
    | .inr (lanes, s) =>
      let sel := s.actor
      let check (l : Nat) : Option Stop :=
        let x := (s.peek sel l (regOpnd o.a o.pol true)).val
        let t := s.linkOf sel l o
        let wb := ((s.fibres.look (fibreKey sel l)).map fun f => f.wb.toNat).getD 0
        if bits x 63 55 ≠ 0 then some (.trap ⟨0x0A, l, 0, x, 0⟩)
        else if t.1 > wb then some (.trap ⟨0x0F, l, o.a.code, 0, 0⟩)
        else if t.2 % 8 ≠ 0 then some (.trap ⟨0x09, l, 0, t.2, 0⟩)
        else s.targetStop sel l t.2
      match lanes.findSome? check with
      | some st => s.halt sel st
      | none =>
        let ts := lanes.map fun l => (l, s.linkOf sel l o)
        let s := ts.foldl (fun s p => s.modFibre (fibreKey sel p.1) fun f => { f with wb := f.wb - BitVec.ofNat 7 p.2.1 }) s
        s.jump sel (ts.map fun p => (p.1, p.2.2)))

/-! ### Fibres (R197 to R199) -/

/-- A fibre as FORK and the launch unit create one (R12). -/
def Fibre.fresh (pc : DWord) : Fibre := ⟨pc, pc, 0, 0, 0, false, 0, .none, [], false, 0, 0, 0⟩

/-- Creates the children of FORK in the empty lane slots, ascending, and writes each parent's predicate. -/
def State.forkLanes (s : State) (sel : Nat) (p : Fin 8) (kids : List (Nat × Nat × Nat)) : State :=
  let free := (List.range 32).filter fun l => (s.fibres.look (fibreKey sel l)).isNone
  let paired := (List.range kids.length).zip kids
  paired.foldl (fun s k =>
    let l := k.2.1
    match free[k.1]? with
    | none => s.modFibre (fibreKey sel l) fun f => f.setPred p.val false
    | some slot =>
      let fib := fibreKey sel slot
      let s := { s with fibres := s.fibres.put fib (Fibre.fresh (BitVec.ofNat 64 k.2.2.1)) }
      (s.storeV (vKey fib 0) ⟨.full, BitVec.ofNat 32 k.2.2.2, none⟩).modFibre (fibreKey sel l) fun f => f.setPred p.val true) s

/-- FORK (R197): a point of no return. -/
def execFork (o : BFork) (s : State) : Result :=
  .next (match s.begin 0x64 o.g false [regOpnd o.a o.pol false] with
    | .inl t => t
    | .inr (lanes, s) =>
      let sel := s.actor
      match firstStop [fun _ => lanes.findSome? fun l => s.targetStop sel l (s.target sel l o.target), fun _ => s.commitStop sel lanes] with
      | some st => s.halt sel st
      | none =>
        let kids := lanes.map fun l => (l, (s.target sel l o.target).toNat, (s.peek sel l (regOpnd o.a o.pol false)).val)
        (s.noReturn sel lanes fun t => t.forkLanes sel o.p kids).go)

/-- QUIT (R16, R198): a fibre in open regions first performs RGNE outward. -/
def execQuit (o : G0) (s : State) : Result :=
  .next (match s.begin 0x65 o.g false [] with
    | .inl t => t
    | .inr (lanes, s) =>
      let sel := s.actor
      let last := s.atEnd sel
      let inRegion (l : Nat) : Bool := ((s.fibres.look (fibreKey sel l)).map fun f => !f.regions.isEmpty).getD false
      let stay := lanes.filter inRegion
      let s := (lanes.filter fun l => !inRegion l).foldl (fun s l => s.endFibre sel l) s
      let s := stay.foldl (fun s l => s.modFibre (fibreKey sel l) fun f => { f with quitting := true }) s
      let s := s.arriveEnd (stay.map (fibreKey sel))
      (s.settle sel lanes last).endWarpIfEmpty sel)

/-- ELECT (R199): once per batch. -/
def execElect (o : IElect) (s : State) : Result :=
  .next (match s.begin 0x66 o.g false [] with
    | .inl t => t
    | .inr (lanes, s) =>
      let sel := s.actor
      let chosen := if o.hi then lanes.getLastD 0 else lanes.headD 0
      (lanes.foldl (fun s l => s.modFibre (fibreKey sel l) fun f => f.setPred o.p.val (l = chosen)) s).go)

/-! ### Named barriers (R201 to R204) -/

/-- A BAR or BARX naming a barrier that is not configured (R201). -/
def State.barStop (s : State) (sel lane b : Nat) : Option Stop :=
  if (s.barrier (s.wgNo sel) b).configured then none else some (.trap ⟨0x0A, lane, 0, b, 0⟩)

/-- BAR.arrive (R202). -/
def execBarArrive (o : IBar) (s : State) : Result :=
  .next (match s.begin 0x67 o.g false [] with
    | .inl t => t
    | .inr (lanes, s) =>
      let sel := s.actor
      match s.barStop sel (lanes.headD 0) o.b with
      | some st => s.halt sel st
      | none =>
        let last := s.atEnd sel
        let s := lanes.foldl (fun s l => s.modFibre (fibreKey sel l) Fibre.next) s
        (lanes.foldl (fun s _ => s.arrive (s.wgNo sel) o.b false) s).settle sel lanes last)

/-- BAR.wait (R202): lanes go on when the phase bit differs from the operand, and wait until it changes when it does not. -/
def execBarWait (o : IBar) (s : State) : Result :=
  .next (match s.begin 0x67 o.g false [] with
    | .inl t => t
    | .inr (lanes, s) =>
      let sel := s.actor
      match s.barStop sel (lanes.headD 0) o.b with
      | some st => s.halt sel st
      | none =>
        let x := s.barrier (s.wgNo sel) o.b
        if x.phase = o.ph then s.blockLanes sel (lanes.map fun l => (l, .bar o.b o.ph))
        else if x.poisoned then s.takeTrap sel ⟨0x0E, lanes.headD 0, o.b, 0, 0⟩
        else s.go)

/-- BAR.sync (R202): each lane in turn samples the phase, arrives and waits with the sampled bit. -/
def execBarSync (o : IBar) (s : State) : Result :=
  .next (match s.begin 0x67 o.g false [] with
    | .inl t => t
    | .inr (lanes, s) =>
      let sel := s.actor
      match s.barStop sel (lanes.headD 0) o.b with
      | some st => s.halt sel st
      | none =>
        let last := s.atEnd sel
        (lanes.foldl (fun s l =>
          let x := s.barrier (s.wgNo sel) o.b
          (s.modFibre (fibreKey sel l) fun f => { f with wait := .bar o.b x.phase }).arrive (s.wgNo sel) o.b false) s).settle sel lanes last)

/-- BAR.test (R202): never waits. -/
def execBarTest (o : IBar) (s : State) : Result :=
  .next (match s.begin 0x67 o.g false [] with
    | .inl t => t
    | .inr (lanes, s) =>
      let sel := s.actor
      match s.barStop sel (lanes.headD 0) o.b with
      | some st => s.halt sel st
      | none =>
        let x := s.barrier (s.wgNo sel) o.b
        let hit := x.phase ≠ o.ph
        if hit && x.poisoned then s.takeTrap sel ⟨0x0E, lanes.headD 0, o.b, 0, 0⟩
        else (lanes.foldl (fun s l => s.modFibre (fibreKey sel l) fun f => f.setPred o.p.val hit) s).go)

/-- BARX (R203): once per batch. -/
def execBarx (o : IBarx) (s : State) : Result :=
  .next (match s.begin 0x68 o.g true [] with
    | .inl t => t
    | .inr (lanes, s) =>
      let sel := s.actor
      let l := lanes.headD 0
      match s.barStop sel l o.b with
      | some st => s.halt sel st
      | none =>
        let x := s.barrier (s.wgNo sel) o.b
        if x.extra + o.c.val > 65535 then s.takeTrap sel ⟨0x15, l, 0, o.b, 0⟩
        else (s.setBarrier (s.wgNo sel) o.b { x with extra := x.extra + o.c.val }).go)

/-! ### Semaphores (R205 to R208) -/

/-- The key of a semaphore by its handle: that of the waiting cluster's die within this package. -/
def State.semKey (s : State) (handle : Nat) : Option Nat :=
  if handle / 2 ^ 26 = 0 && bits handle 25 12 / 4 = s.package then some (bits handle 25 12 % 4 * 4096 + handle % 4096) else none

/-- The entry of a handle that a warp may post to or wait on: bound, of its virtual function, with its cluster the poster or the waiter. -/
def State.semOf (s : State) (sel handle : Nat) (post : Bool) : Option (Nat × Sem) :=
  (s.semKey handle).bind fun k => (s.sems.look k).bind fun x =>
    let vf := ((s.warps.look sel).map Warp.vf).getD 0
    let pkg := if post then x.posterPkg else x.waiterPkg
    let c := if post then x.posterCluster else x.waiterCluster
    if x.vf = vf && pkg = s.package && c = clusterOf sel then some (k, x) else none

/-- The warp is bound to a sequence, and the scope is .gang. -/
def State.gangOf (s : State) (sel scope : Nat) : Option Nat := if scope = 3 then (s.warps.look sel).bind Warp.bound else none

/-- Posts that have been probed and not yet made: those of the warps that hold a SEMP of this handle (R207). -/
def State.reservedPosts (s : State) (handle : Nat) : Nat :=
  (s.warps.filterMap fun p => p.2.hold.bind fun h => if h.phase = 9 && h.arg / 65536 = handle then some (h.arg % 65536) else none).foldl (· + ·) 0

/-- Serves the waits on a semaphore in their order, while the count suffices (R208) and no halt holds them (R287). -/
def State.serveSem (s : State) (k : Nat) : Nat → State
  | 0 => s
  | fuel + 1 =>
    match s.sems.look k with
    | none => s
    | some x =>
      match x.queue with
      | [] => s
      | q :: rest =>
        if x.count < q.n || ((s.warps.look q.warp).map fun w => decide (w.state = .halted)).getD false then s
        else
          let count := x.count - q.n
          let s := { s with sems := s.sems.put k { x with count := count, queue := rest, viewValid := x.viewValid && count ≠ 0 } }
          let s := s.raisePts (clusterOf q.warp) x.ts
          let s := match s.warps.look q.warp with
            | some w => s.modWg w.wg fun g => { g with outside := g.outside || g.version.isSome }
            | none => s
          let s := q.lanes.foldl (fun s l =>
            (s.forward q.warp l [] true 0).modFibre (fibreKey q.warp l) fun f => { f.next with wait := .none }) s
          s.serveSem k fuel

/-- The access table of the semaphore table that a handle names (R300). Another package's is not modelled (log 5). -/
def State.semTable (s : State) (sel lane handle : Nat) (rd wr : Bool) : Option Stop :=
  (s.semKey handle).bind fun k => s.unitStop sel lane (k / 4096) 51 rd wr

/-- SEMP's probe (R207, step 1). -/
def State.sempStop (s : State) (sel lane handle n scope : Nat) : Option Stop :=
  match s.semOf sel handle true with
  | none => some (.trap ⟨0x0A, lane, 0, handle, 0⟩)
  | some (_, x) =>
    let view := ((s.warps.look sel).map Warp.view).getD 0
    let stale := match s.gangOf sel scope with
      | some q => view.toNat < s.seqView q || (x.viewValid && x.count > 0 && x.view ≠ view)
      | none => false
    if stale then some (.trap ⟨0x16, lane, 0, (s.gangOf sel scope).getD 0, 0⟩)
    else if x.count + n + s.reservedPosts handle > 2 ^ 32 - 1 then some (.trap ⟨0x15, lane, 0, handle, 0⟩)
    else none

/-- SEMP's post (R207, step 3), once the release work is acknowledged. -/
def State.sempPost (s : State) (sel : Nat) (lanes : List Nat) (handle n scope : Nat) : State :=
  (s.noReturn sel lanes fun s =>
    match s.semOf sel handle true with
    | none => s
    | some (k, x) =>
      let view := ((s.warps.look sel).map Warp.view).getD 0
      let gang := (s.gangOf sel scope).isSome
      let pts := (s.cluster (clusterOf sel)).pts.toNat
      let s := { s with sems := s.sems.put k { x with
        count := x.count + n
        view := if gang then view else x.view
        viewValid := gang || x.viewValid
        ts := if x.count = 0 then pts else tsMax x.ts pts } }
      let s := lanes.foldl (fun s l => s.forward sel l [] true 0) s
      s.serveSem k 8192).go

/-- SEMP (R207): the batch holds its port from the probe to the post. -/
def execSemp (o : ISem) (s : State) : Result :=
  .next (match s.begin 0x69 o.g false [regOpnd o.a o.pol false] with
    | .inl t => t
    | .inr (lanes, s) =>
      let sel := s.actor
      let l := lanes.headD 0
      let handle := (s.peek sel l (regOpnd o.a o.pol false)).val
      if s.trailing sel then
        match s.forwardGate sel lanes with
        | some st => s.halt sel st
        | none => (lanes.foldl (fun s l => s.takeForward (s.wgOf sel) (s.fibreNo (fibreKey sel l))) s).go
      else
        match s.holdOf sel with
        | some h => if h.ids.any fun i => (s.flights.look i).isSome then s else s.sempPost sel lanes handle o.n o.scope
        | none =>
          match firstStop [fun _ => s.roomGate sel lanes.length, fun _ => s.semTable sel l handle false true,
              fun _ => s.sempStop sel l handle o.n o.scope, fun _ => s.commitStop sel lanes,
              fun _ => s.stallIf (s.storesFull sel || s.acquiring sel || s.contributing sel)] with
          | some st => s.halt sel st
          | none =>
            let (ids, s) := s.releaseWork sel o.scope
            if ids.isEmpty then s.sempPost sel lanes handle o.n o.scope
            else s.holdAt sel 9 (handle * 65536 + o.n) ids)

/-- SEMW (R208). -/
def execSemw (o : ISem) (s : State) : Result :=
  .next (match s.begin 0x6A o.g false [regOpnd o.a o.pol false] with
    | .inl t => t
    | .inr (lanes, s) =>
      let sel := s.actor
      let l := lanes.headD 0
      let handle := (s.peek sel l (regOpnd o.a o.pol false)).val
      if s.trailing sel then
        match s.forwardGate sel lanes with
        | some st => s.halt sel st
        | none => (lanes.foldl (fun s l => s.takeForward (s.wgOf sel) (s.fibreNo (fibreKey sel l))) s).go
      else
        match firstStop [fun _ => s.roomGate sel lanes.length, fun _ => s.semTable sel l handle true false] with
        | some st => s.halt sel st
        | none =>
          match s.semOf sel handle false with
          | none => s.takeTrap sel ⟨0x0A, l, 0, handle, 0⟩
          | some (k, x) =>
            let view := ((s.warps.look sel).map Warp.view).getD 0
            match (s.gangOf sel o.scope).filter fun _ => x.viewValid && x.view ≠ view with
            | some q => s.takeTrap sel ⟨0x16, l, 0, q, 0⟩
            | none =>
              let last := s.atEnd sel
              let s := lanes.foldl (fun s l => s.modFibre (fibreKey sel l) fun f => { f with wait := .sem k }) s
              let s := { s with sems := s.sems.put k { x with queue := x.queue ++ [(⟨sel, lanes, o.n⟩ : SemWait)] } }
              (s.serveSem k 8192).settle sel lanes last)

/-! ### Issue and register blocks (R209, R210) -/

/-- YIELD (R209). -/
def execYieldW (o : G0) (s : State) : Result :=
  .next (match s.begin 0x6B o.g true [] with
    | .inl t => t
    | .inr (_, s) => (s.modWarp s.actor fun w => { w with yields := true }).go)

/-- NOP (R209). -/
def execNop (o : G0) (s : State) : Result :=
  .next (match s.begin 0x6C o.g true [] with
    | .inl t => t
    | .inr (_, s) => s.go)

/-- Takes an extended block at once: a reserved one, or one of the pool when no warp waits before. -/
def State.takeBlock (s : State) (sel : Nat) : Option State :=
  let g := s.wgOf sel
  let c := clusterOf sel
  if g.reserve > 0 then
    some ((s.modWg (s.wgNo sel) fun g => { g with reserve := g.reserve - 1 }).modWarp sel fun w => { w with ext := true, extOwn := true })
  else if (s.cluster c).pool > 0 && (s.cluster c).xqueue.isEmpty then
    some ((s.modCluster c fun k => { k with pool := k.pool - 1 }).modWarp sel fun w => { w with ext := true, extOwn := false })
  else none

/-- XACQ (R210). -/
def execXacq (o : IXacq) (s : State) : Result :=
  .next (match s.begin 0x6D o.g false [] with
    | .inl t => t
    | .inr (lanes, s) =>
      let sel := s.actor
      let mark (s : State) (v : Bool) : State :=
        if o.tryIt then lanes.foldl (fun s l => s.modFibre (fibreKey sel l) fun f => f.setPred o.p.val v) s else s
      if ((s.warps.look sel).map Warp.ext).getD false then (mark s true).go
      else match s.takeBlock sel with
        | some t => (mark t true).go
        | none =>
          if o.tryIt then (mark s false).go
          else
            let s := s.modCluster (clusterOf sel) fun k => { k with xqueue := k.xqueue ++ [(sel, lanes)] }
            s.blockLanes sel (lanes.map fun l => (l, .xacq)))

/-- XREL (R41, R210): waits for the producers into the extended block, then returns it. -/
def execXrel (o : G0) (s : State) : Result :=
  .next (match s.begin 0x6E o.g false [] with
    | .inl t => t
    | .inr (lanes, s) =>
      let sel := s.actor
      if s.extQuiet sel then (s.dropExt sel).go
      else s.blockLanes sel (lanes.map fun l => (l, .xrel)))

/-- ASSERT (R211, R341): the trap, and the halt of every other warp of the launch. -/
def execAssert (o : GA) (s : State) : Result :=
  .next (match s.begin 0x6F o.g true [regOpnd o.a o.pol true] with
    | .inl t => t
    | .inr (lanes, s) =>
      let sel := s.actor
      let l := lanes.headD 0
      let x := (s.peek sel l (regOpnd o.a o.pol true)).val
      let launch := ((s.warps.look sel).map Warp.launch).getD 0
      (s.takeTrap sel ⟨0x13, l, 0, x, 0⟩).haltLaunch launch true)

/-! ### Recovery regions (R214 to R220) -/

/-- Opens one region over some lanes that share their innermost region. -/
def State.openRegion (s : State) (sel : Nat) (lanes : List Nat) (parent : Option Nat) (target limit : Nat) : State :=
  let w := (s.warps.look sel).getD default
  let c := clusterOf sel
  let members := lanes.map (fibreKey sel)
  let inst := members.foldl (fun n m => max n (((s.fibres.look m).map Fibre.opens).getD 0)) 0 + 1
  let (id, s) := s.fresh
  let r : Region := ⟨sel, w.wg, members, BitVec.ofNat 64 target, limit, 0, 0, parent, [], [], [], [], [], [], none, 0, s.nextId, inst⟩
  let (v, s) := s.openVersion (Version.fresh (dieOf c) (s.parentVersion r) (.region id) c w.vf w.launch)
  let s := members.foldl (fun s m => s.modFibre m fun f => { f with regions := id :: f.regions, opens := inst }) s
  { s with regions := s.regions.put id { r with version := v, undo := members.map s.undoOf } }

/-- The distinct innermost regions among some lanes, none included, with their lanes. -/
def State.innerGroups (s : State) (sel : Nat) (lanes : List Nat) : List (Option Nat × List Nat) :=
  let inner (l : Nat) : Option Nat := (s.fibres.look (fibreKey sel l)).bind fun f => f.regions.head?
  ((lanes.map inner).eraseDups).map fun r => (r, lanes.filter fun l => inner l = r)

/-- RGNB (R215). -/
def execRgnb (o : BRgnb) (s : State) : Result :=
  .next (match s.begin 0x70 o.g false [] with
    | .inl t => t
    | .inr (lanes, s) =>
      let sel := s.actor
      let deep (l : Nat) : Bool := ((s.fibres.look (fibreKey sel l)).map fun f => decide (f.regions.length ≥ 8)).getD false
      let groups := s.innerGroups sel lanes
      match firstStop [fun _ => lanes.findSome? fun l => s.targetStop sel l (s.target sel l o.target),
          fun _ => (lanes.find? deep).map fun l => .trap ⟨0x11, l, 1, 0, 0⟩,
          fun _ => s.stallIf (s.versionsFree (dieOf (clusterOf sel)) < groups.length)] with
      | some st => s.halt sel st
      | none =>
        (groups.foldl (fun t g => t.openRegion sel g.2 g.1 (s.target sel (g.2.headD 0) o.target).toNat o.lim) s).go)

/-- The registers that a register form of RGNK names. -/
def rgnkOps (o : IRgnk) : List Opnd :=
  (List.range o.n.val).map fun i => match o.a with
    | .v r => regOpnd (.v (Fin.ofNat 128 (r.val + i))) false false
    | .k r => regOpnd (.k (Fin.ofNat 64 (r.val + i))) false false
    | r => regOpnd r false false

/-- Adds a lane's registers to the preserved set of its innermost region. -/
def State.preserveV (s : State) (sel lane : Nat) (ops : List Opnd) : State :=
  match (s.fibres.look (fibreKey sel lane)).bind fun f => f.regions.head? with
  | none => s
  | some r => { s with regions := s.regions.modify r fun x =>
      { x with vRegs := (ops.flatMap fun o => s.cells sel lane o).foldl (fun (t : Tab Cell) (p : Nat × Cell) => t.put p.1 p.2) x.vRegs } }

/-- The preserved v registers of a lane, with those to be added. -/
def State.vCount (s : State) (sel lane r : Nat) (ops : List Opnd) : Nat :=
  let old := ((s.regions.look r).map fun x => (x.vRegs.filter fun p => p.1 / 128 = fibreKey sel lane).map Prod.fst).getD []
  (old ++ (ops.flatMap fun o => (s.cells sel lane o).map Prod.fst)).eraseDups.length

/-- RGNK over registers: v registers in each lane, k registers once for every innermost region among the lanes (R216). -/
def State.rgnkRegs (s : State) (sel : Nat) (lanes : List Nat) (o : IRgnk) : State :=
  let ops := rgnkOps o
  let groups := s.innerGroups sel lanes
  match s.regGate sel lanes ops with
  | some st => s.halt sel st
  | none =>
    if o.a.isV then
      let excess (l : Nat) : Bool := groups.any fun g => g.2.contains l && (g.1.map fun r => decide (s.vCount sel l r ops > 128)).getD false
      match lanes.find? excess with
      | some l => s.takeTrap sel ⟨0x11, l, 2, 0, 0⟩
      | none => (lanes.foldl (fun s l => s.preserveV sel l ops) s).go
    else
      let cells := ops.flatMap fun p => s.cells sel (lanes.headD 0) p
      let excess (r : Nat) : Bool := ((s.regions.look r).map fun x => decide (((x.kRegs.map Prod.fst) ++ cells.map Prod.fst).eraseDups.length > 64)).getD false
      match groups.find? fun g => (g.1.map excess).getD false with
      | some g => s.takeTrap sel ⟨0x11, g.2.headD 0, 2, 0, 0⟩
      | none =>
        (groups.foldl (fun s g => match g.1 with
          | some r => { s with regions := s.regions.modify r fun x =>
              { x with kRegs := cells.foldl (fun (t : Tab Cell) (p : Nat × Cell) => t.put p.1 p.2) x.kRegs } }
          | none => s) s).go

/-- RGNK over a scratchpad range: once per batch, into every innermost region among the lanes (R216). -/
def State.rgnkRange (s : State) (sel : Nat) (lanes : List Nat) (o : IRgnk) : State :=
  let l := lanes.headD 0
  let ops := [regOpnd o.a false false]
  match s.regGate sel [l] ops with
  | some st => s.halt sel st
  | none =>
    let off := (s.vals sel l ops).getD 0 0
    let g := s.wgOf sel
    let groups := s.innerGroups sel lanes
    let excess (r : Nat) : Bool := ((s.regions.look r).map fun x => !x.ranges.contains (off, o.n.val) && x.ranges.length ≥ 4).getD false
    if off % 4 ≠ 0 then s.takeTrap sel ⟨0x09, l, 0, off, 0⟩
    else if off + o.n.val > g.alloc then s.takeTrap sel ⟨0x0A, l, 0, off, 0⟩
    else match s.lockHit g.cluster false (g.rail * 148 + off) (g.rail * 148 + off + o.n.val - 1) false with
      | some i => s.takeTrap sel ⟨0x0C, l, i, off, 0⟩
      | none =>
        match groups.find? fun q => (q.1.map excess).getD false with
        | some q => s.takeTrap sel ⟨0x11, q.2.headD 0, 2, 0, 0⟩
        | none =>
          let bytes := (List.range o.n.val).map fun i => (off + i, s.scrGet g (off + i))
          (groups.foldl (fun s q => match q.1 with
            | some r => { s with regions := s.regions.modify r fun x => { x with
                ranges := if x.ranges.contains (off, o.n.val) then x.ranges else x.ranges ++ [(off, o.n.val)]
                bytes := bytes.foldl (fun (t : Tab Byte) (p : Nat × Byte) => t.put p.1 p.2) x.bytes } }
            | none => s) s).go

/-- RGNK (R216): lanes at depth 0 are unaffected. -/
def execRgnk (o : IRgnk) (s : State) : Result :=
  .next (match s.begin 0x71 o.g false [] with
    | .inl t => t
    | .inr (all, s) =>
      let sel := s.actor
      let lanes := all.filter fun l => ((s.fibres.look (fibreKey sel l)).map fun f => !f.regions.isEmpty).getD false
      if lanes.isEmpty then s.go
      else if o.scr then s.rgnkRange sel lanes o
      else s.rgnkRegs sel lanes o)

/-- RGNE (R217). -/
def execRgne (o : G0) (s : State) : Result :=
  .next (match s.begin 0x72 o.g false [] with
    | .inl t => t
    | .inr (lanes, s) =>
      let sel := s.actor
      match lanes.find? fun l => ((s.fibres.look (fibreKey sel l)).map fun f => f.regions.isEmpty).getD false with
      | some l => s.takeTrap sel ⟨0x11, l, 3, 0, 0⟩
      | none =>
        let last := s.atEnd sel
        (s.arriveEnd (lanes.map (fibreKey sel))).settle sel lanes last)

end Sys2Proof.Machine
end

