-- ==== Sys2Proof/Machine/SysReg.lean ====
section
/-! DEFINITION. The system registers: their maps, who reaches them, and what a write does (R288 to R303, R340, R343, R356). -/

namespace Sys2Proof.Machine

open Sys2Proof.Num (bits bit ofBytes toBytes)

/-! ### Registers and selectors (R290) -/

/-- A system register, with its index where there are several. -/
inductive XReg where
  | status | vfsel | slice | ptroot | vfcfg | traprec | dbg | errinj | acclog
  | brkpt (n : Nat) | vfmem (n : Nat) | fmtwin (n : Nat) | acctab (m : Nat)
deriving DecidableEq, Repr, Inhabited

/-- The register a word number lies in, with its first word. -/
def xregOf (word : Nat) : Option (XReg × Nat) :=
  (sysRegOf word).map fun p =>
    let f := p.1
    (if f = 0x000 then .status
     else if f = 0x004 then .vfsel
     else if f = 0x005 then .slice
     else if f = 0x006 then .ptroot
     else if f = 0x008 then .vfcfg
     else if f = 0x010 then .traprec
     else if f = 0x020 then .dbg
     else if f = 0x030 then .errinj
     else if f = 0x038 then .acclog
     else if f < 0x060 then .brkpt ((f - 0x040) / 2)
     else if f < 0x080 then .vfmem ((f - 0x060) / 4)
     else if f < 0x180 then .fmtwin ((f - 0x100) / 8)
     else .acctab ((f - 0x800) / 4), f)

/-- The selector names an instance of the register. -/
def XReg.selOk (r : XReg) (sel : Nat) : Bool :=
  match r with
  | .status | .traprec => sel < 6144
  | .vfsel | .dbg | .brkpt _ => sel < 192
  | .slice | .ptroot | .vfcfg | .vfmem _ => sel < 64
  | .errinj => sel < 4
  | .acclog | .acctab _ => sel < 256 && sel % 64 < 56
  | .fmtwin _ => sel = 0

/-! ### Values (R292 to R297, R302, R303, R340) -/

/-- The state field of XS_STATUS. -/
def WState.code : WState → Nat
  | .ready => 0
  | .parked => 1
  | .stopped => 2
  | .halted => 3
  | .ended => 4

/-- XS_STATUS of a warp slot (R292). -/
def State.xsStatus (s : State) (sel : Nat) : Nat :=
  match s.warps.look sel with
  | none => 0
  | some w =>
    2 ^ 63 + w.launch % 2 ^ 24 * 2 ^ 24 + w.vf % 64 * 2 ^ 16 + ((s.wgs.look w.wg).map Wg.idx).getD 0 % 32 * 2 ^ 8 +
      (if w.temporal then 16 else 0) + w.state.code * 2 + (if w.priv then 1 else 0)

/-- The 64 bytes of a trap record as one number (R340). -/
def TrapRec.value (r : TrapRec) : Nat :=
  r.cause % 256 + r.flags % 256 * 2 ^ 8 + r.lane % 256 * 2 ^ 16 + r.detail % 256 * 2 ^ 24 + r.launch % 2 ^ 24 * 2 ^ 32 +
    r.origin % 256 * 2 ^ 56 + r.pc.toNat * 2 ^ 64 + r.header.toNat * 2 ^ 128 + r.address.toNat * 2 ^ 192 +
    r.workgroup % 2 ^ 32 * 2 ^ 256 + r.region % 256 * 2 ^ 288 + r.word.toNat * 2 ^ 320 + r.cycles.toNat * 2 ^ 384

/-- The value of a register. -/
def State.xval (s : State) (r : XReg) (sel : Nat) : Nat :=
  match r with
  | .status => s.xsStatus sel
  | .vfsel => (s.vfsel.get 0 sel).toNat
  | .slice => (s.slice.get 0 sel).toNat
  | .ptroot => (s.ptroot.get 0 sel).toNat
  | .vfcfg => (s.vfcfg.get 0 sel).toNat
  | .traprec => (s.trapRec sel).value
  | .dbg => (s.dbg.get 0 sel).toNat
  | .errinj => (s.errinj.get 0 sel).toNat
  | .acclog => (s.acclog.get 0 sel).toNat
  | .brkpt n => (s.brkpt.get 0 (sel * 16 + n)).toNat
  | .vfmem n => (s.vfmem.get 0 (sel * 8 + n)).toNat
  | .fmtwin n => (s.fmtwin.get 0 n).toNat
  | .acctab m => (s.accEntry sel m).toNat

/-- A read of n bytes from a word of a register. -/
def State.xread (s : State) (word sel n : Nat) : Nat :=
  match xregOf word with
  | some (r, first) => s.xval r sel / 2 ^ (32 * (word - first)) % 2 ^ (8 * n)
  | none => 0

/-! ### Who reaches them (R289, R291) -/

/-- A cluster is assigned to a virtual function (R295). -/
def State.assigned (s : State) (c vf : Nat) : Bool :=
  let x := (s.vfsel.get 0 c).toNat
  bit x 31 && bits x 5 0 = vf

/-- A system warp of a virtual function reaches a register. -/
def State.reaches (s : State) (r : XReg) (sel vf : Nat) (wr : Bool) : Bool :=
  match r with
  | .status | .traprec => bits (s.xsStatus sel) 21 16 = vf
  | .dbg | .brkpt _ => s.assigned sel vf
  | .vfsel => s.assigned sel vf && !wr
  | .slice | .ptroot => sel = vf
  | .vfcfg | .vfmem _ => sel = vf && !wr
  | .fmtwin _ => !wr
  | .acctab _ | .acclog | .errinj => false

/-! ### Writes (R293 to R297, R302, R303, R305) -/

/-- Keeps the bit ranges listed. -/
def keepBits (fs : List (Nat × Nat)) (x : Nat) : Nat := (fs.map fun f => bits x f.1 f.2 * 2 ^ f.2).foldl (· + ·) 0

/-- The bits of a register that a write changes. -/
def XReg.fields : XReg → List (Nat × Nat)
  | .status | .traprec | .acclog => []
  | .vfsel => [(31, 31), (5, 0)]
  | .slice => [(23, 0)]
  | .ptroot => [(51, 12), (0, 0)]
  | .vfcfg => [(127, 64), (31, 31), (23, 0)]
  | .dbg => [(63, 60), (55, 36), (33, 0)]
  | .errinj => [(127, 127), (123, 16)]
  | .brkpt _ => [(47, 3), (0, 0)]
  | .vfmem _ => [(115, 80), (51, 16), (0, 0)]
  | .fmtwin _ => [(231, 192), (179, 128), (115, 72), (51, 12), (3, 0)]
  | .acctab _ => [(127, 0)]

/-- A register's value with the words of a write put in. -/
def mergeWords (old off n data : Nat) : Nat :=
  old - bits old (off + 8 * n - 1) off * 2 ^ off + data % 2 ^ (8 * n) * 2 ^ off

/-- Stores a value in a register that has no behaviour of its own. -/
def State.xstore (s : State) (r : XReg) (sel x : Nat) : State :=
  match r with
  | .vfsel => { s with vfsel := s.vfsel.set 0 sel (BitVec.ofNat 32 x) }
  | .slice => { s with slice := s.slice.set 0 sel (BitVec.ofNat 32 x) }
  | .ptroot => { s with ptroot := s.ptroot.set 0 sel (BitVec.ofNat 64 x) }
  | .vfcfg => { s with vfcfg := s.vfcfg.set 0 sel (BitVec.ofNat 128 x) }
  | .dbg => { s with dbg := s.dbg.set 0 sel (BitVec.ofNat 64 x) }
  | .errinj => { s with errinj := s.errinj.set 0 sel (BitVec.ofNat 128 x) }
  | .brkpt n => { s with brkpt := s.brkpt.set 0 (sel * 16 + n) (BitVec.ofNat 64 x) }
  | .vfmem n => { s with vfmem := s.vfmem.set 0 (sel * 8 + n) (BitVec.ofNat 128 x) }
  | .fmtwin n => { s with fmtwin := s.fmtwin.set 0 n (BitVec.ofNat 256 x) }
  | .acctab m => { s with acctab := s.acctab.set (acctabReset m) (sel * 512 + m) (BitVec.ofNat 128 x) }
  | .acclog => { s with acclog := s.acclog.set 0 sel 0 }
  | .status | .traprec => s

/-- Any write naming word 0x010 clears the whole trap record (R340). -/
def State.clearTrap (s : State) (sel : Nat) : State := s.setTrap sel TrapRec.zero

/-- Any write clears the log of refusals (R303). -/
def State.clearLog (s : State) (target : Nat) : State := s.xstore .acclog target 0

/-! ### Format windows (R297) -/

/-- The alias range of a window's value: its first byte and its length. -/
def aliasRange (x : Nat) : Nat × Nat := (bits x 51 12 * 4096, (2 * bits x 231 192 + 4095) / 4096 * 4096)

/-- A value may be enabled as window n. -/
def State.fmtOk (s : State) (n x : Nat) : Bool :=
  let r := aliasRange x
  bits x 3 1 ≤ 3 && bits x 231 192 ≠ 0 && bits x 231 192 % 32 = 0 &&
    (List.range 16).all fun m =>
      let y := (s.fmtwin.get 0 m).toNat
      let q := aliasRange y
      m = n || !bit y 0 || decide (r.1 + r.2 ≤ q.1 ∨ q.1 + q.2 ≤ r.1)

/-- A write to a disabled window that sets enable: a failing one leaves enable 0. -/
def State.enableWindow (s : State) (n x : Nat) : State :=
  s.xstore (.fmtwin n) 0 (if s.fmtOk n x then x else x - x % 2)

/-- A write that clears enable: every alias line of the window is written back and dropped, with the copies of it in other dies, and the
other fields stay. -/
def State.disableWindow (s : State) (n : Nat) : State :=
  let x := (s.fmtwin.get 0 n).toNat
  let r := aliasRange x
  let lines := (s.l2.filter fun p => p.2.fmt = some n).map Prod.fst
  let s := lines.foldl State.evictAlias s
  let inside (pa : Nat) : Bool := decide (r.1 ≤ pa ∧ pa < r.1 + r.2)
  { s with
    remotes := s.remotes.filter fun p => !inside (p.1 % 2 ^ 44 * 256)
    remoteBytes := s.remoteBytes.filter fun p => !inside (p.1 % 2 ^ 52) }.xstore (.fmtwin n) 0 (x - x % 2)

/-! ### XS_ERRINJ (R356) -/

/-- The key of the place that an injection names, as the plants of each unit are kept. -/
def injectLoc (x : Nat) : Nat :=
  let loc := bits x 115 64
  let c := bits x 63 56
  let fib := fibreKey (c * 32 + bits x 55 51) (bits x 50 46)
  match bits x 123 120 with
  | 4 => vKey fib (loc % 128)
  | 5 => scrKey c (loc % 2 ^ 21)
  | 6 => c * 65536 + loc % 65536
  | 7 => c * 2 ^ 24 + loc % 2 ^ 24
  | 8 => l1ByteKey c loc
  | 9 => fib
  | _ => loc

/-- The checks of an injection: the unit, the kind, the cluster's die and the bit. -/
def injectOk (die x : Nat) : Bool :=
  let unit := bits x 123 120
  let kind := bits x 119 116
  1 ≤ unit && unit ≤ 10 && (kind ≤ 1 || (kind = 2 && unit = 9)) &&
    (!(4 ≤ unit && unit ≤ 9) || (bits x 63 56 < 192 && dieOf (bits x 63 56) = die)) &&
    (unit ≠ 9 || bits x 45 40 ≤ 31)

/-- The word is present in its unit and holds its data. -/
def State.wordPresent (s : State) (unit loc : Nat) : Bool :=
  let word (k : Nat) : Bool := k / 8 = loc / 8
  match unit with
  | 1 => (s.l2Line (lineOf loc)).filled || s.l2Bytes.any fun p => word p.1
  | 2 => s.versions.any fun p => p.2.shadow.any fun b => word b.1
  | 4 => (s.fibres.look (loc / 128)).isSome && (s.vCell loc).st = .full
  | 8 => s.l1Bytes.any fun p => word p.1
  | _ => true

/-- Plants an injection: in the stored word at once if it is present, else at the word's next write. -/
def State.plantError (s : State) (die x : Nat) : State :=
  let unit := bits x 123 120
  let double := bits x 119 116 = 1
  let loc := injectLoc x
  let p : Plant := ⟨unit, loc, bits x 45 40, double, die, false, max 1 (bits x 39 16)⟩
  if unit = 10 && double then
    if loc > 17 then s
    else ({ s with ports := s.ports.modify loc fun q => { q with stopped := true } }).noteFired p
  else if unit ≤ 8 && s.wordPresent unit loc then
    let q := { p with present := true }
    (({ s with plants := q :: s.plants }).spoil q).noteFired q
  else { s with plants := p :: s.plants }

/-- An injection is replaced: one not yet planted is withdrawn, and an error that stands already is no longer this register's. -/
def State.dropInjection (s : State) (die : Nat) : State :=
  let x := (s.errinj.get 0 die).toNat
  let s := { s with plants := (s.plants.filter fun p => !(p.die = die && !p.present)).map fun p => if p.die = die then { p with die := 4 } else p }
  if bit x 127 && bits x 123 120 = 10 && bits x 119 116 = 1 then
    { s with ports := s.ports.modify (injectLoc x) fun q => { q with stopped := false } }
  else s

/-- A write to XS_ERRINJ clears fired; it arms when it asks to and passes the checks. -/
def State.armErrinj (s : State) (die x : Nat) : State :=
  let s := s.dropInjection die
  let y := keepBits XReg.errinj.fields x
  if bit y 127 && injectOk die y then (s.xstore .errinj die y).plantError die y
  else s.xstore .errinj die (y % 2 ^ 127)

/-! ### XS_DBG (R343) -/

/-- The last command of a cluster with a result: busy falls. -/
def State.dbgDone (s : State) (c status : Nat) : State :=
  let x := (s.dbg.get 0 c).toNat
  s.xstore .dbg c (x - bits x 59 56 * 2 ^ 56 + status % 8 * 2 ^ 56)

/-- A warp slot holds a warp of another virtual function than the one named. -/
def State.foreignWarp (s : State) (sel : Nat) (vf : Option Nat) : Bool :=
  match vf, s.warps.look sel with
  | some v, some w => decide (w.vf ≠ v)
  | _, _ => false

/-- A 64-bit write starts a command, unless one runs; a narrower one only stores its bits. A warp's command to a warp of another virtual
function gives status 2 (R291). -/
def State.dbgWrite (s : State) (c x : Nat) (whole : Bool) (vf : Option Nat) : State :=
  let old := (s.dbg.get 0 c).toNat
  let cmd := bits x 63 60
  let y := keepBits XReg.dbg.fields x
  if bit old 59 then s
  else if !whole then s.xstore .dbg c (y + bits old 58 56 * 2 ^ 56 + bits old 35 34 * 2 ^ 34)
  else if cmd = 0 then s.xstore .dbg c y
  else if cmd ≥ 7 then s.xstore .dbg c (y + 5 * 2 ^ 56)
  else if s.foreignWarp (c * 32 + bits x 55 51) vf then s.xstore .dbg c (y + 2 * 2 ^ 56)
  else s.xstore .dbg c (y + 2 ^ 59)

/-! ### One write -/

/-- What a write is, by the register and what it does there. -/
inductive XKind where
  | plain | trapClear | logClear | winEnable | winDisable | arm
deriving DecidableEq, Repr

/-- The register, the value it would hold and the kind of a write of n bytes. -/
def State.xclass (s : State) (word sel n data : Nat) : Option (XReg × Nat × XKind) :=
  (xregOf word).map fun p =>
    let old := s.xval p.1 sel
    let new := mergeWords old (32 * (word - p.2)) n data
    (p.1, new, match p.1 with
      | .traprec => .trapClear
      | .acclog => .logClear
      | .errinj => .arm
      | .fmtwin _ => if bit old 0 then (if bit new 0 then .plain else .winDisable) else if bit new 0 then .winEnable else .plain
      | _ => .plain)

/-- A write of n bytes to a word takes effect whole (R305). `vf` names the virtual function of a writing warp, none for the host. -/
def State.xwrite (s : State) (word sel n data : Nat) (vf : Option Nat) : State :=
  match s.xclass word sel n data with
  | none => s
  | some (r, new, _) =>
    let new := match r with
      | .fmtwin _ => keepBits r.fields new
      | _ => new
    match r with
    | .status => s
    | .traprec => if word = 0x010 then s.clearTrap sel else s
    | .acclog => s.clearLog sel
    | .errinj => s.armErrinj sel new
    | .dbg => s.dbgWrite sel new (n ≥ 8) vf
    | .fmtwin i =>
      if bit (s.fmtwin.get 0 i).toNat 0 then (if bit new 0 then s else s.disableWindow i)
      else if bit new 0 then s.enableWindow i new else s.xstore r 0 new
    | _ => s.xstore r sel (keepBits r.fields new)

end Sys2Proof.Machine
end

