-- ==== Sys2Proof/Machine/System.lean ====
section
/-! DEFINITION. TRAP, SRET, MFSR, MTSR, PGRET and TLBI (R304 to R308). -/

namespace Sys2Proof.Machine

open Sys2Proof.Num (bits bit wrap)

/-- TRAP (R306): its record holds the code. -/
def execTrap (o : ITrap) (s : State) : Result :=
  .next (match s.begin 0x7A o.g false [] with
    | .inl t => t
    | .inr (lanes, s) => s.takeTrap s.actor ⟨0x19, lanes.headD 0, 0, o.code, 0⟩)

/-- SRET on a handle: the status, and the warp resumed when it is 0 (R306). `vf` names the virtual function of an issuing warp. -/
def State.sret (s : State) (handle mode : Nat) (vf : Option Nat) : Nat × State :=
  if handle ≥ 6144 then (1, s)
  else match s.warps.look handle with
    | none => (1, s)
    | some w =>
      if w.state ≠ .stopped || (vf.map fun v => decide (w.vf ≠ v)).getD false then (1, s)
      else (0, s.resumeStopped handle mode)

/-- SRET (R306). -/
def execSret (o : ISret) (s : State) : Result :=
  let ops := [regOpnd o.a o.pol false]
  .next (match s.begin 0x7B o.g true (ops ++ [dstOpnd o.d false]) with
    | .inl t => t
    | .inr (lanes, s) =>
      let sel := s.actor
      let l := lanes.headD 0
      let vf := ((s.warps.look sel).map Warp.vf).getD 0
      let handle := (s.vals sel l ops).getD 0 0
      let st := (s.sret handle o.mode.val (some vf)).1
      -- the status is written before the action, which may end the issuer's own workgroup
      let s := (s.writeReg sel l o.d false st none).go
      (s.sret handle o.mode.val (some vf)).2)

/-- The checks of MFSR and MTSR: the selector's range, and the reach of R291. -/
def State.sysStop (s : State) (sel lane word selector : Nat) (wr : Bool) : Option Stop :=
  let vf := ((s.warps.look sel).map Warp.vf).getD 0
  match xregOf word with
  | none => none
  | some (r, _) =>
    if r.selOk selector && s.reaches r selector vf wr then none else some (.trap ⟨0x0A, lane, 0, selector, 0⟩)

/-- MFSR (R305). -/
def execMfsr (o : ISr) (s : State) : Result :=
  let ops := [regOpnd o.a o.pol false]
  .next (match s.begin 0x7C o.g true (ops ++ [dstOpnd o.d o.wide]) with
    | .inl t => t
    | .inr (lanes, s) =>
      let sel := s.actor
      let l := lanes.headD 0
      let selector := (s.vals sel l ops).getD 0 0
      match s.sysStop sel l o.word.val selector false with
      | some st => s.halt sel st
      | none => (s.writeReg sel l o.d o.wide (s.xread o.word.val selector (if o.wide then 8 else 4)) none).go)

/-- MTSR (R305): the write takes effect in every copy before the batch goes on. -/
def execMtsr (o : ISr) (s : State) : Result :=
  let ops := [regOpnd o.a o.pol false, regOpnd o.d false o.wide]
  .next (match s.begin 0x7D o.g true ops with
    | .inl t => t
    | .inr (lanes, s) =>
      let sel := s.actor
      let l := lanes.headD 0
      let xs := s.vals sel l ops
      let vf := ((s.warps.look sel).map Warp.vf).getD 0
      match s.sysStop sel l o.word.val (xs.getD 0 0) true with
      | some st => s.halt sel st
      | none => s.go.xwrite o.word.val (xs.getD 0 0) (if o.wide then 8 else 4) (xs.getD 1 0) (some vf))

/-- PGRET's status and effect (R307). -/
def State.pgret (s : State) (pa : Nat) (vf : Option Nat) : Nat × State :=
  if (vf.map fun v => !s.vfmemAllows v pa).getD false then (4, s) else s.retirePage pa

/-- PGRET (R307). -/
def execPgret (o : IPgret) (s : State) : Result :=
  let ops := [regOpnd o.a o.pol true]
  .next (match s.begin 0x39 o.g true (ops ++ [dstOpnd o.d false]) with
    | .inl t => t
    | .inr (lanes, s) =>
      let sel := s.actor
      let l := lanes.headD 0
      let vf := ((s.warps.look sel).map Warp.vf).getD 0
      let (st, s) := s.pgret ((s.vals sel l ops).getD 0 0) (some vf)
      (s.writeReg sel l o.d false st none).go)

/-- Drops what a TLBI of a form names (R308). -/
def State.tlbi (s : State) (form vf va : Nat) : State :=
  match form with
  | 0 => s.tlbDrop (fun t => t.vf = vf) fun p => p.vf = vf
  | 1 => s.tlbDropVa vf va
  | _ => s.tlbDrop (fun _ => true) fun _ => true

/-- TLBI (R308): the batch then waits until the requests of its virtual function that were in flight have been served. -/
def execTlbi (o : M) (s : State) : Result :=
  let form := o.ord.val
  let ops := (if form = 1 then [mBase o true] else []) ++ (if form ≤ 1 then [mSecond o false] else [])
  .next (match s.begin 0x7E o.g true ops with
    | .inl t => t
    | .inr (lanes, s) =>
      let sel := s.actor
      let l := lanes.headD 0
      let vf := ((s.warps.look sel).map Warp.vf).getD 0
      match s.holdOf sel with
      | some h => if h.ids.any fun i => (s.flights.look i).isSome then s else s.go
      | none =>
        let b := if form ≤ 1 then (s.peek sel l (mSecond o false)).val else 0
        if form = 2 || b ≠ vf then s.takeTrap sel ⟨0x0A, l, 0, b, 0⟩
        else
          let va := wrap 64 (s.eaOf sel l o true false)
          let ids := (s.flights.filter fun p => p.2.vf = vf && !p.2.merged).map Prod.fst
          let s := s.tlbi form vf va
          if ids.isEmpty then s.go else s.holdAt sel 1 0 ids)

end Sys2Proof.Machine
end

