-- ==== Sys2Proof/Machine/Clause.lean ====
section
/-! DEFINITION. Selecting a batch, starting a clause at an issue port, and the locality throttle (R17, R19, R123 to R127, R317). -/

namespace Sys2Proof.Machine

open Sys2Proof.Num (bits bit)

/-- One selection (R17): a ready warp between clauses takes a batch. -/
def execBatchSelect (sel : Nat) (s : State) : Result :=
  .next (match s.warps.look sel with
    | none => s
    | some w =>
      if w.state ≠ .ready || w.batch.isSome || !w.needs.isEmpty || s.stopsFor sel || sel ≥ 6144 then s
      else match (s.raiseBarFault sel).selectBatch sel false with
        | ([], t) => t
        | (lanes, t) => t.modWarp sel fun w => { w with batch := some ⟨lanes, none⟩ })

/-! ### The header (R19, R123) -/

/-- The thresholds of a header are met. -/
def Warp.meets (w : Warp) (hdr : Nat) : Bool :=
  let ok (t n : Nat) : Bool := t = 15 || n ≤ t
  ok (bits hdr 52 49) w.loads && ok (bits hdr 48 45) w.stores && ok (bits hdr 44 41) w.engines

/-- The warp's selected batch stands at a clause header: its address. -/
def State.atHeader (s : State) (sel : Nat) : Option Nat :=
  (s.fibres.look (fibreKey sel (s.lowest sel))).bind fun f => if f.pc = f.hdr then some f.pc.toNat else none

/-- The warps that the throttle lets start a MEM clause (R317). -/
def State.throttled (s : State) (sel : Nat) : Bool :=
  let c := clusterOf sel
  let mine := s.warps.filter fun p => clusterOf p.1 = c && p.2.state ≠ .ended
  let sum := (mine.map fun p => p.2.score).foldl (· + ·) 0
  if sum ≤ 64 then false
  else match s.warps.look sel with
    | none => false
    | some w =>
      let limit := max 2 (32 * 64 / sum)
      let before := mine.filter fun p => p.2.score < w.score || (p.2.score = w.score && p.1 < sel)
      !w.exempt && before.length ≥ limit

/-- What stands before a clause's start. -/
inductive Start where
  | wait
  | bad (s : State)
  | header (w : Nat)
  | middle
deriving Repr

/-- How the selected batch of a warp would start: in the middle of a clause, or at a header that is fetched, valid and not held back. -/
def State.startOf (s : State) (sel : Nat) : Start :=
  match s.warps.look sel with
  | none => .wait
  | some w =>
    if w.state ≠ .ready || !w.needs.isEmpty || s.stopsFor sel then .wait
    else match w.batch with
      | none => .wait
      | some b =>
        if b.lanes.isEmpty || b.port.isSome then .wait
        else match s.atHeader sel with
          | none => .middle
          | some pc =>
            match s.fetch sel pc with
            | .word x =>
              if !headerOk x then .bad ({ s with word := BitVec.ofNat 64 x }.takeTrap sel ⟨0x03, s.lowest sel, 0, pc, 0⟩)
              else if !w.meets x || (headerClass x = 1 && s.throttled sel) then .wait
              else .header x
            | f => .bad ({ s with word := 0 }.fetchTrap sel pc f)

/-- The warp is ready to be taken by an issue port. -/
def State.startable (s : State) (sel : Nat) : Bool :=
  match s.startOf sel with
  | .header _ | .middle => true
  | _ => false

/-- The free issue port of a cluster, the lower first. -/
def State.freePortOf (s : State) (c : Nat) : Option Nat :=
  if (s.cluster c).port0.isNone then some 0 else if (s.cluster c).port1.isNone then some 1 else none

/-- The warp that a port takes: those that yielded on it come last; then the one that issued least recently, the lower slot on a tie (R317). -/
def State.portPick (s : State) (c port : Nat) : Option Nat :=
  let ready := ((s.warps.filter fun p => clusterOf p.1 = c).filter fun p => s.startable p.1)
  let pool := ready.filter fun p => p.2.last ≠ some port
  let pool := if pool.isEmpty then ready else pool
  (pool.foldl (fun best p => match best with
    | none => some p
    | some q => if p.2.lastIssue < q.2.lastIssue then some p else some q) none).map Prod.fst

/-- The lanes of a batch enter a clause at its header. -/
def State.enterClause (s : State) (sel hdr : Nat) : State :=
  let s := (s.batchLanes sel).foldl (fun s l => s.modFibre (fibreKey sel l) fun f =>
    if f.pc = f.hdr then { f with hword := BitVec.ofNat 64 hdr, pc := f.pc + 8 } else f) s
  s.modWarp sel fun w => { w with yields := bit hdr 40 }

/-- A warp takes an issue port: it holds it until its clause ends. -/
def State.takePort (s : State) (sel port : Nat) : State :=
  let c := clusterOf sel
  let s := s.modCluster c fun k =>
    if port = 0 then { k with port0 := some (slotOf sel) } else { k with port1 := some (slotOf sel) }
  let s := { s with warps := s.warps.mapv fun i w => if clusterOf i = c && w.last = some port then { w with last := none } else w }
  s.modWarp sel fun w => { w with batch := w.batch.map fun b => { b with port := some port } }

/-- The breakpoint at a header is taken once the thresholds are met (R342). -/
def State.headerBreak (s : State) (sel hdr pc : Nat) : Option State :=
  (s.breakHit sel pc).map fun n => { s with word := BitVec.ofNat 64 hdr }.takeTrap sel ⟨0x14, s.lowest sel, n, 0, 0⟩

/-- A warp starts its selected batch's clause, or resumes one in the middle, when a port is free and takes it (R126, R317). -/
def execClauseStart (sel : Nat) (s : State) : Result :=
  let c := clusterOf sel
  .next (match s.startOf sel with
    | .bad t => t
    | .wait => s
    | st =>
      match s.freePortOf c with
      | none => s
      | some port =>
        if s.portPick c port ≠ some sel then s
        else match st with
          | .header x =>
            let pc := (s.position sel (s.lowest sel)).1.toNat
            match s.headerBreak sel x pc with
            | some t => t
            | none => (((s.noteFetch sel pc).setSkip sel false).takePort sel port).enterClause sel x
          | _ => s.takePort sel port)

/-- Every 1,024 cycles the lost-locality scores of a cluster are halved (R317). -/
def execLocalityDecay (c : Nat) (s : State) : Result :=
  let k := s.cluster c
  .next (if k.cyc.toNat < k.decayed.toNat + 1024 then s
    else { (s.modCluster c fun k => { k with decayed := k.decayed + 1024 }) with
      warps := s.warps.mapv fun i w => if clusterOf i = c then { w with score := w.score / 2 } else w })

/-- A warp that has not issued for 3,072 cycles is exempt from the throttle until it issues (R317). -/
def execThrottleExempt (sel : Nat) (s : State) : Result :=
  .next (match s.warps.look sel with
    | none => s
    | some w => if sel ≥ 6144 || (s.cluster (clusterOf sel)).cyc.toNat < w.lastCycle + 3072 then s else s.modWarp sel fun w => { w with exempt := true })

end Sys2Proof.Machine
end

