-- ==== Sys2Proof/Machine/Debug.lean ====
section
/-! DEFINITION. Register writes that the host has sent, and the debugger's commands (R305, R340, R343, R344, R356). -/

namespace Sys2Proof.Machine

open Sys2Proof.Num (bits bit)

/-! ### The write at the head of the register queue (R305) -/

/-- The write at the head takes effect and is acknowledged; the sender of an XS_VFCFG is noted (R368). -/
def State.popWrite (s : State) : State :=
  match s.regQueue with
  | [] => s
  | w :: rest =>
    let s := { s with regQueue := rest }.xwrite w.word w.sel w.wide w.data none
    let s := match xregOf w.word with
      | some (.vfcfg, _) => { s with vfHost := s.vfHost.set 0 w.sel w.host }
      | _ => s
    s.emit ⟨w.host, 17, [s.package, w.word, w.sel]⟩

/-- The head is a write of a kind. -/
def State.headKind (s : State) : Option XKind :=
  match s.regQueue with
  | [] => none
  | w :: _ => (s.xclass w.word w.sel w.wide w.data).map fun c => c.2.2

def State.popIf (s : State) (k : XKind) : State := if s.headKind = some k then s.popWrite else s

/-- The clearing of a trap record (R340). -/
def execTraprecClear (s : State) : Result := .next (s.popIf .trapClear)

/-- The clearing of a target's log (R303). -/
def execAcclogClear (s : State) : Result := .next (s.popIf .logClear)

/-- The enabling of a format window (R297). -/
def execFmtwinEnable (s : State) : Result := .next (s.popIf .winEnable)

/-- The disabling of a format window (R297). -/
def execFmtwinDisable (s : State) : Result := .next (s.popIf .winDisable)

/-- The arming of an injection (R356). -/
def execErrinjArm (s : State) : Result := .next (s.popIf .arm)

/-- A write with no behaviour of its own (R305). -/
def execSysregWrite (s : State) : Result := .next (s.popIf .plain)

/-! ### The command that XS_DBG holds (R343) -/

/-- The running command of a cluster, when it is the one named. -/
def State.command (s : State) (c cmd : Nat) : Option Nat :=
  let x := (s.dbg.get 0 c).toNat
  if c < 192 && bit x 59 && bits x 63 60 = cmd then some x else none

/-- The warp slot that a command names. -/
def dbgWarp (c x : Nat) : Nat := c * 32 + bits x 55 51

/-- Completes a command with data and a register state. -/
def State.dbgData (s : State) (c data st : Nat) : State :=
  let s := s.dbgDone c 0
  let x := (s.dbg.get 0 c).toNat
  s.xstore .dbg c (x - bits x 35 34 * 2 ^ 34 - x % 2 ^ 32 + st * 2 ^ 34 + data % 2 ^ 32)

/-- The warps of a launch that stand. -/
def State.launchWarps (s : State) (launch : Nat) : List (Nat × Warp) := s.warps.filter fun p => p.2.launch = launch

/-- DBG_HALT: done when every warp of the launch has stopped. -/
def execDbgHalt (c : Nat) (s : State) : Result :=
  .next (match s.command c 1 with
    | none => s
    | some x =>
      match s.warps.look (dbgWarp c x) with
      | none => s.dbgDone c 2
      | some w =>
        let s := if s.halts.contains w.launch then s else s.haltLaunch w.launch false
        if (s.launchWarps w.launch).all fun p => p.2.state = .stopped || p.2.state = .halted || p.2.state = .ended then s.dbgDone c 0 else s)

/-- A time slice begins on a cluster, of the length that XS_SLICE then gives its virtual function (R293, R318). -/
def State.beginSlice (s : State) (c : Nat) : State :=
  s.modCluster c fun k => { k with sliceFrom := k.cyc, sliceLen := (s.slice.get 0 (bits (s.vfsel.get 0 c).toNat 5 0)).toNat % 2 ^ 24 }

/-- A cluster's time slice has expired; a length of 0 slices nothing. -/
def State.sliceOver (s : State) (c : Nat) : Bool :=
  let k := s.cluster c
  k.sliceLen ≠ 0 && (k.cyc - k.sliceFrom).toNat ≥ 1024 * k.sliceLen

/-- RESUME CONTEXT: the halted warps of a launch go on, their waits return, its placement resumes, and a slice that has expired
meanwhile re-arms (R321). -/
def State.resumeLaunch (s : State) (launch : Nat) : State :=
  let s := { s with
    halts := s.halts.filter fun h => h ≠ launch
    stopDue := s.stopDue.filter fun p => ((s.warps.look p.1).map Warp.launch) ≠ some launch
    launches := s.launches.modify launch fun l => { l with suspended := false } }
  let mine := (s.launchWarps launch).map Prod.fst
  let s := mine.foldl (fun s sel => s.modWarp sel fun w =>
    if w.state = .halted then { w with state := if w.parks.isEmpty then .ready else .parked, batch := none, hold := none } else w) s
  let s := mine.foldl State.returnWaits s
  let s := s.sems.foldl (fun s p => if p.2.queue.isEmpty then s else s.serveSem p.1 8192) s
  ((mine.map clusterOf).eraseDups).foldl (fun s c =>
    let s := s.grantBlocks c 64
    if s.sliceOver c then s.beginSlice c else s) s

/-- DBG_RESUME. -/
def execDbgResume (c : Nat) (s : State) : Result :=
  .next (match s.command c 2 with
    | none => s
    | some x =>
      match s.warps.look (dbgWarp c x) with
      | none => s.dbgDone c 2
      | some w => (s.resumeLaunch w.launch).dbgDone c 0)

/-- The warp of commands 3 to 6: the status of a failing check, or the warp. -/
def State.stoppedWarp (s : State) (sel : Nat) : Nat ⊕ Warp :=
  match s.warps.look sel with
  | none => .inl 2
  | some w => if w.state = .stopped || w.state = .halted then .inr w else .inl 1

/-- A physical v register exists for a warp. -/
def Warp.hasV (w : Warp) (p : Nat) : Bool := p < 64 || (p < 128 && w.ext)

/-- The state of a register as a result shows it. -/
def RegSt.code : RegSt → Nat
  | .full => 0
  | .empty => 1
  | .poisoned _ => 2

/-- The register that a command names. -/
inductive DbgReg where
  | v (lane phys : Nat)
  | k (n : Nat)
  | sp (n : Nat)
  | preds (lane : Nat)
  | bad
deriving DecidableEq, Repr

def State.dbgReg (s : State) (sel : Nat) (w : Warp) (x : Nat) : DbgReg :=
  let lane := bits x 50 46
  let code := bits x 45 38
  match bits x 37 36 with
  | 0 => match Reg.read code with
    | some (.v n) =>
      let wb := ((s.fibres.look (fibreKey sel lane)).map fun f => f.wb.toNat).getD 0
      if w.hasV (wb + n) then .v lane (wb + n) else .bad
    | some (.k n) => .k n
    | some (.sp n) => .sp n
    | none => .bad
  | 1 => if w.hasV code then .v lane code else .bad
  | 2 => .preds lane
  | _ => .bad

/-- DBG_READ_REGISTER: an empty lane slot reads 0, full. -/
def execDbgReadRegister (c : Nat) (s : State) : Result :=
  .next (match s.command c 4 with
    | none => s
    | some x =>
      let sel := dbgWarp c x
      match s.stoppedWarp sel with
      | .inl st => s.dbgDone c st
      | .inr w =>
        match s.dbgReg sel w x with
        | .bad => s.dbgDone c 5
        | .v lane p =>
          if (s.fibres.look (fibreKey sel lane)).isNone then s.dbgData c 0 0
          else
            let cell := s.vCell (vKey (fibreKey sel lane) p)
            (s.findPlants 4 fun k => k = vKey (fibreKey sel lane) p).dbgData c cell.val.toNat cell.st.code
        | .k n => let cell := s.kRead sel n; s.dbgData c cell.val.toNat cell.st.code
        | .sp n => s.dbgData c (s.special sel (bits x 50 46) n) 0
        | .preds lane => s.dbgData c (((s.fibres.look (fibreKey sel lane)).map fun f => 128 + f.preds.toNat).getD 0) 0)

/-- The fills outstanding into a register are cancelled (R344); the other half of a pair is left full and zero (log 15). -/
def State.cancelFill (s : State) (isK : Bool) (key : Nat) : State :=
  let hits (d : Option Dst) : Bool := match d with
    | some d => d.isK = isK && (d.key = key || (d.wide && d.key + 1 = key))
    | none => false
  let ids := (s.loads.filter fun p => p.2.accs.any fun a => a.phase ≠ .done && hits a.dst).map Prod.fst
  let s := ids.foldl (fun s id =>
    match s.loads.look id with
    | none => s
    | some ld =>
      let accs := ld.accs.filter fun a => a.phase ≠ .done && hits a.dst
      let parks := ((s.warps.look ld.warp).map Warp.parks).getD []
      let gone := parks.filter fun p => match p.load with
        | some (i, l) => i = id && accs.any fun a => a.lane = l
        | none => false
      let s := accs.foldl (fun s a => match a.dst with
        | some d => s.fillDst d 0 none none
        | none => s) s
      let s := s.cancelAccs id fun a => hits a.dst
      gone.foldl (fun s p => s.unpark ld.warp p) s) s
  { s with engines := s.engines.mapv fun _ e => if hits e.dst then { e with dst := none } else e }

/-- DBG_WRITE_REGISTER (R344): the register becomes full with the value. -/
def execDbgWriteRegister (c : Nat) (s : State) : Result :=
  .next (match s.command c 5 with
    | none => s
    | some x =>
      let sel := dbgWarp c x
      let cell : Cell := ⟨.full, BitVec.ofNat 32 x, none⟩
      match s.stoppedWarp sel with
      | .inl st => s.dbgDone c st
      | .inr w =>
        match s.dbgReg sel w x with
        | .bad => s.dbgDone c 5
        | .v lane p =>
          let key := vKey (fibreKey sel lane) p
          if (s.fibres.look (fibreKey sel lane)).isNone then s.dbgDone c 2
          else ((((s.cancelFill false key).storeV key cell).noteFilled ⟨false, key, false⟩)).dbgDone c 0
        | .k n =>
          let key := kKey sel n
          if n = 0 then s.dbgDone c 0
          else (((s.cancelFill true key).setK key cell).noteFilled ⟨true, key, false⟩).dbgDone c 0
        | .sp n => if n = 17 || n = 21 then (s.writeWord sel 0 (.sp (Fin.ofNat 25 n)) 0 cell).dbgDone c 0 else s.dbgDone c 5
        | .preds lane =>
          if (s.fibres.look (fibreKey sel lane)).isNone then s.dbgDone c 2
          else (s.modFibre (fibreKey sel lane) fun f => { f with preds := BitVec.ofNat 7 x }).dbgDone c 0)

/-- DBG_RESUME_WARP: as SRET in the mode given. -/
def execDbgResumeWarp (c : Nat) (s : State) : Result :=
  .next (match s.command c 6 with
    | none => s
    | some x =>
      let sel := dbgWarp c x
      match s.stoppedWarp sel with
      | .inl st => s.dbgDone c st
      | .inr w =>
        if bits x 33 32 = 3 then s.dbgDone c 5
        else if w.state ≠ .stopped then s.dbgDone c 1
        else (s.resumeStopped sel (bits x 33 32)).dbgDone c 0)

/-! ### Stepping -/

/-- A step's instruction has been executed, with the records from `mark` on made by it: the hold of a warp that waits for their end. -/
def stepHold (mark : Nat) : Hold := ⟨200, [], mark, 0⟩

/-- The producers and stores that a step made are complete (R287). -/
def State.stepSettled (s : State) (sel mark : Nat) : Bool :=
  !(s.loads.any fun p => decide (p.1 ≥ mark) && p.2.warp = sel) && !(s.stores.any fun p => decide (p.1 ≥ mark) && p.2.warp = sel)

/-- Clears what a step left on a warp. -/
def State.stepEnd (s : State) (c sel status : Nat) : State := (s.modWarp sel fun w => { w with hold := none }).dbgDone c status

/-- The batch of a stepped warp: its own if it stands in a clause, else one selection. -/
def State.stepBatch (s : State) (sel : Nat) (w : Warp) : State :=
  match w.batch with
  | some _ => s
  | none =>
    let (lanes, t) := s.selectBatch sel true
    t.modWarp sel fun w => { w with batch := if lanes.isEmpty then none else some ⟨lanes, none⟩ }

/-- A step's front: the header's test, and the issue of one instruction to come. -/
def State.stepFront (s : State) (c sel : Nat) : State :=
  let run (t : State) : State :=
    { (t.modWarp sel fun w => { w with batch := w.batch.map fun b => { b with port := some 0 } }) with
      turn := .issue sel
      stepping := some c }
  match s.warps.look sel with
  | none => s.dbgDone c 2
  | some w =>
    match w.batch with
    | none => s.dbgDone c 3
    | some b =>
      if b.port.isSome then run s
      else match s.atHeader sel with
        | none => run s
        | some pc =>
          match s.fetch sel pc with
          | .word x =>
            if !headerOk x then ({ s with word := BitVec.ofNat 64 x }.takeTrap sel ⟨0x03, s.lowest sel, 0, pc, 0⟩).dbgDone c 4
            else if !w.meets x then (s.modWarp sel fun w => { w with batch := none }).dbgDone c 3
            else match s.headerBreak sel x pc with
              | some t => t.dbgDone c 4
              | none => run ((s.setSkip sel false).enterClause sel x)
          | .miss => { s with word := 0 }.fetchTrap sel pc .miss
          | f => ({ s with word := 0 }.fetchTrap sel pc f).dbgDone c 4

/-- DBG_STEP: one instruction of a stopped warp; from a BREAKPOINT stop the skip is armed (R342). -/
def execDbgStep (c : Nat) (s : State) : Result :=
  .next (match s.command c 3 with
    | none => s
    | some x =>
      let sel := dbgWarp c x
      match s.stoppedWarp sel with
      | .inl st => s.dbgDone c st
      | .inr w =>
        match w.hold with
        | some h =>
          if h.phase = 200 then (if s.stepSettled sel h.arg then s.stepEnd c sel 0 else s)
          else { s with turn := .issue sel, stepping := some c }
        | none =>
          if !w.needs.isEmpty || s.stopsFor sel then s
          else
            let s := if w.batch.isNone && w.state = .stopped && w.stop.cause = 0x14 then s.setSkip sel true else s
            (s.stepBatch sel w).stepFront c sel)

/-- The lanes of a batch have moved: some pc changed, or a fibre is gone. -/
def State.movedFrom (t s : State) (sel : Nat) (lanes : List Nat) : Bool :=
  lanes.any fun l => (t.fibres.look (fibreKey sel l)).map Fibre.pc ≠ (s.fibres.look (fibreKey sel l)).map Fibre.pc

/-- After a step's issue: `s` stood before it and `t` after. A trap gives status 4; a batch that would block leaves everything as it was
and gives status 3; else the step goes on until the instruction and its producers are complete. -/
def State.stepDone (t s : State) (c sel : Nat) : State :=
  let lanes := s.batchLanes sel
  let trapped := (t.out.drop s.out.length).any fun o => o.kind = 1 && o.data.take 3 = [s.package, clusterOf sel, slotOf sel]
  let blocked := lanes.any fun l => match (t.fibres.look (fibreKey sel l)).map Fibre.wait with
    | some .none | some (.rollback _) | none => false
    | _ => true
  let moved := t.movedFrom s sel lanes
  let back (u : State) : State := { u with turn := .choose, stepping := none, tick := s.tick + 1 }
  if trapped then back (t.stepEnd c sel 4)
  else if blocked && !moved then back ((s.modWarp sel fun w => { w with batch := none, hold := none }).dbgDone c 3)
  else
    let waits := ((t.warps.look sel).map fun w => !w.needs.isEmpty || w.hold.isSome).getD false
    let rolls := lanes.any fun l => match (t.fibres.look (fibreKey sel l)).map Fibre.wait with
      | some (.rollback _) => true
      | _ => false
    if waits || !(moved || rolls) then back t
    else back ((if bit (t.trapRec sel).flags 4 then t.setSkip sel false else t).modWarp sel fun w => { w with hold := some (stepHold s.nextId), lastCycle := (t.cluster c).cyc.toNat, exempt := false })

end Sys2Proof.Machine
end

