-- ==== Sys2Proof/Machine/Engine.lean ====
section
/-! DEFINITION. What every engine instruction shares: the elected lane, the parameter block, range locks, issue, and the engine's own reads and
writes of memory (R11, R30, R90, R222 to R226). -/

namespace Sys2Proof.Machine

open Sys2Proof.Num (bits bit ofBytes toBytes)

/-! ### Issue (R30, R142, R223) -/

/-- Lanes as a mask. -/
def laneMask (ls : List Nat) : Nat := (ls.map fun l => 2 ^ l).foldl (· + ·) 0

/-- Steps 2 to 8 of R142 for an engine instruction: the machine when nothing is issued, or the elected lane. -/
def State.elect (s : State) (op : Nat) (g : Fin 8) (ops : List Opnd) : State ⊕ (Nat × State) :=
  let sel := s.actor
  match s.early sel op with
  | some t => .inl (s.takeTrap sel t)
  | none =>
    match s.guarded sel (s.batchLanes sel) g with
    | [] => .inl s.go
    | [l] =>
      let s := s.noteReads sel [l] ops
      match s.regGate sel [l] ops with
      | some st => .inl (s.halt sel st)
      | none => .inr (l, s)
    | l :: ls => .inl (s.takeTrap sel ⟨0x1A, l, (l :: ls).length, laneMask (l :: ls), 0⟩)

/-- The parameter block's register (R11). -/
def xBase (o : X) : Opnd := regOpnd o.pb false false
def xAux (o : X) : Opnd := regOpnd o.aux false false

/-- The scratchpad offset of the block. -/
def State.blockAt (s : State) (sel lane : Nat) (o : X) : Nat := (s.peek sel lane (xBase o)).val + o.imm.toNat

/-- Step 1 of R223: the offset of a block of n bytes. -/
def State.blockStop (s : State) (sel lane off n : Nat) : Option Stop :=
  if off % 4 ≠ 0 then some (.trap ⟨0x09, lane, 0, off, 0⟩)
  else if off + n > (s.wgOf sel).alloc then some (.trap ⟨0x0A, lane, 0, off, 0⟩)
  else none

/-- A field of a block. -/
def fld (b : List Byte) (off n : Nat) : Nat := ofBytes ((b.drop off).take n)

/-- Bytes lo to hi of a block are reserved: whether one is nonzero, and the field's detail. -/
def resv (b : List Byte) (lo hi : Nat) : Bool × Nat := (fld b lo (hi + 1 - lo) ≠ 0, lo)

/-- LAYOUT_INVALID for the first failing check of a list (R224). -/
def layoutStop (lane blk : Nat) (cs : List (Bool × Nat)) : Option Stop :=
  (cs.find? fun c => c.1).map fun c => .trap ⟨0x0D, lane, c.2, blk, 0⟩

/-- Step 3 of R223: ranges of n bytes that must lie in the allocation, and outside every stash window (R75). -/
def deniedStop (lane : Nat) (g : Wg) (rs : List (Nat × Nat)) : Option Stop :=
  (rs.find? fun r => decide (r.1 + r.2 > g.alloc) || g.stashHits r.1 r.2).map fun r => .trap ⟨0x0A, lane, 0, r.1, 0⟩

/-- Step 4 of R223: values that must be multiples of 4. -/
def alignStop (lane : Nat) (xs : List Nat) : Option Stop :=
  (xs.find? fun x => decide (x % 4 ≠ 0)).map fun x => .trap ⟨0x09, lane, 0, x, 0⟩

/-- Step 6 of R223. -/
def streamStop (lane stream : Nat) (bad : Bool) : Option Stop := if bad then some (.trap ⟨0x18, lane, 0, stream, 0⟩) else none

/-! ### Engines and their capacity (R223, R326) -/

/-- The engine of an opcode: 0 tensor core, 1 ternary array, 2 copy engine, 3 stream distributor, 4 accumulator mover, 5 outside the cluster. -/
def engineOf (op : Nat) : Nat :=
  match op with
  | 0x50 => 0
  | 0x51 | 0x57 => 1
  | 0x52 | 0x53 => 4
  | 0x54 | 0x55 | 0x56 => 3
  | _ => if 0x58 ≤ op ∧ op ≤ 0x5D then 2 else 5

/-- The TLB that an engine operation uses. -/
def EngOp.tlb (e : EngOp) : Nat := engineTlb e.cluster (engineOf e.opcode % 4)

/-- An engine that holds at most 16 operations is full. -/
def State.engineBusy (s : State) (c op : Nat) : Bool :=
  let n := engineOf op
  (n ≤ 2 || n = 4) && (s.engines.filter fun p => p.2.cluster = c && engineOf p.2.opcode = n).length ≥ 16

/-- Step 7 of R223: the engine, the warp's counter, and the range-lock entries of each cluster; the power governor delays MMA and MMT in
the same way (R378). -/
def State.issueStall (s : State) (sel op : Nat) (locks : List (Nat × Lock)) : Option Stop :=
  let c := clusterOf sel
  let short := (locks.map Prod.fst).eraseDups.any fun k => s.locksFree k < (locks.filter fun l => l.1 = k).length
  s.stallIf (s.acquiring sel || s.enginesFull sel || s.engineBusy c op || short ||
    ((op = 0x50 || op = 0x51) && (s.die (dieOf c)).governed))

/-- A range-lock entry over bytes of a workgroup's scratchpad, in its cluster's table. -/
def Wg.scrLock (g : Wg) (no bar : Nat) (dest : Bool) (first n : Nat) : Nat × Lock :=
  (g.cluster, ⟨false, dest, g.idx, bar, g.rail * 148 + first, g.rail * 148 + first + n - 1, no, 0⟩)

/-- A range-lock entry over global virtual addresses. -/
def Wg.memLock (g : Wg) (no bar : Nat) (dest : Bool) (first last : Nat) : Nat × Lock :=
  (g.cluster, ⟨true, dest, g.idx, bar, first, last, no, 0⟩)

/-- An operation as an instruction of a lane issues it. -/
def State.newOp (s : State) (sel lane opcode : Nat) (o : X) : EngOp :=
  let w := (s.warps.look sel).getD default
  let chain := ((s.fibres.look (fibreKey sel lane)).map fun f => s.chainOf sel f).getD []
  { opcode := opcode, ety := o.ety.code, shape := o.shape.val, flags := o.flags.val, aux := 0, warp := sel, lane := lane, wg := w.wg,
    cluster := clusterOf sel, vf := w.vf, launch := w.launch, bar := some o.bar.val, blk := 0, block := [], layout := [], dst := none,
    chain := chain, order := s.nextId, phase := .running, progress := 0, seq := w.seq.toNat, view := w.view.toNat, window := 0, tried := [],
    target := 0, parts := [], note := [], fibre := fibreKey sel lane }

/-- Issues an operation: its record, its locks, its place in the engine counter. -/
def State.issueOp (s : State) (e : EngOp) (locks : List (Nat × Lock)) : Nat × State :=
  let (id, s) := s.fresh
  let s := { s with engines := s.engines.put id e }
  let s := locks.foldl (fun s l => s.takeLocks l.1 [{ l.2 with op := id }]) s
  (id, s.modWarp e.warp fun w => { w with engines := w.engines + 1 })

/-- An operation leaves: its locks, its place in the engine counter, and its record (R90, R124). -/
def State.dropOp (s : State) (id : Nat) : State :=
  match s.engines.look id with
  | none => s
  | some e =>
    let s := ({ s with
      engines := s.engines.del id
      oldVeneer := if e.opcode = 0x51 then (s.oldVeneer.mapv fun _ x => x.filter fun p => p.1 ≠ id).keep fun _ x => !x.isEmpty
        else s.oldVeneer }).dropLocks id
    s.modWarp e.warp fun w => if w.wg = e.wg then { w with engines := w.engines - 1, flagsDue := w.flagsDue.filter fun x => x ≠ id } else w

/-- An arrival at a barrier of a workgroup that still stands. -/
def State.arriveAt (s : State) (wg bar : Nat) (faulted : Bool) : State :=
  if (s.wgs.look wg).isSome then s.arrive wg bar faulted else s

/-- An operation ends with its arrival, normal or faulted (R201, R204). -/
def State.finishOp (s : State) (id : Nat) (faulted : Bool) : State :=
  match s.engines.look id with
  | none => s
  | some e => match e.bar with
    | some b => (s.dropOp id).arriveAt e.wg b faulted
    | none => s.dropOp id

def State.modOp (s : State) (id : Nat) (f : EngOp → EngOp) : State := { s with engines := s.engines.modify id f }

/-! ### An engine's reads and writes of memory (R225) -/

/-- How an engine's access goes. -/
inductive Eng (α : Type) where
  | wait (s : State)            -- a walk is asked for, or a line waits for a commit
  | ok (x : α) (s : State)

/-- The versions of an operation's chain that still stand. -/
def State.opChain (s : State) (e : EngOp) : List Nat := e.chain.filter fun v => (s.versions.look v).isSome

/-- The translation of a page that an operation uses, or the request for it. -/
def State.engLeaf (s : State) (id : Nat) (e : EngOp) (va : Nat) (wr : Bool) : Eng Tlb :=
  match s.tlbLook e.tlb e.vf (va / 4096) with
  | some t => if wr && !t.write then
      .wait (s.askWalk ⟨.engine id, dieOf e.cluster, e.tlb, e.vf, va / 4096, accEngine + accWrite⟩)
    else .ok t s
  | none => .wait (s.askWalk ⟨.engine id, dieOf e.cluster, e.tlb, e.vf, va / 4096, accEngine + (if wr then accWrite else accRead)⟩)

/-- The operation is to stop with a faulted arrival: cause 0x0A a refusal, 0x1A a write of a size the page's kind refuses. -/
def State.stopOp (s : State) (id cause access va : Nat) : State := s.modOp id fun e => { e with phase := .stopping cause (accEngine + access) (va / 4096) }

/-- An uncorrectable error in a shadow word of a version (R350). -/
def State.shadowError (s : State) (v : Nat) : State :=
  let s := s.findVersion v
  match s.versions.look v with
  | none => s
  | some x => match x.owner with
    | .region r => s.detect r (((s.regions.look r).map fun g => g.members.headD 0).getD 0) 0
    | .window q _ => { s with lostWindows := s.lostWindows.put q true }
    | .workgroup g =>
      let inner := if ((s.wgs.look g).map Wg.copy).getD 0 = 0 then none
        else (s.warpsOf g).findSome? fun sel => (s.fibresOf sel).findSome? fun p => p.2.regions.head?
      match inner, s.warpsOf g with
      | some r, _ => s.detect r (((s.regions.look r).map fun x => x.members.headD 0).getD 0) 0
      | none, [] => s.endWg g 0x08 0 0 true
      | none, sel :: _ =>
        let w := (s.warps.look sel).getD default
        let r : TrapRec := { TrapRec.zero with
          cause := 0x08
          flags := 5
          launch := w.launch
          workgroup := ((s.wgs.look g).map Wg.lin).getD 0
          cycles := (s.cluster (clusterOf sel)).cyc }
        ((s.setTrap sel r).emit ⟨s.hostOf w.launch, 1, [s.package, clusterOf sel, slotOf sel, 0x08]⟩).endWg g 0x08 0 0 true

/-- Reads n bytes of one sector for an operation: its chain's shadows over the bytes at L2, and whether they are poisoned. -/
def State.engRead (s : State) (id : Nat) (e : EngOp) (va n : Nat) : Eng (List Byte × List Bool) :=
  match s.engLeaf id e va false with
  | .wait s => .wait s
  | .ok t s =>
    let pa := t.phys va
    if !s.memAllows (engineMaster e.cluster) e.vf pa true false then .wait ((s.logMem (engineMaster e.cluster) e.vf pa true false).stopOp id 0x0A accRead va)
    else if (s.l2Line (lineOf pa)).pending then .wait s
    else
      let chain := s.opChain e
      match (List.range n).findSome? fun i => s.shadowBad chain (pa + i) with
      | some v => .wait (s.shadowError v)
      | none =>
        let (r, s) := s.readSector e.cluster (pa / 64 * 64) t.lease t.kind false
        let s := (s.raisePts e.cluster r.wts).findShadow chain pa n
        let own (i : Nat) : Option Byte := s.shadowByte chain (pa + i)
        .ok ((List.range n).map fun i => (own i).getD (r.bytes.getD (pa % 64 + i) 0),
          (List.range n).map fun i => (own i).isNone && (r.lost || s.badWord (pa + i))) s

/-- Writes bytes of one line for an operation, with the page treatment of a plain ST (R178): under its chain's innermost version, or at the
homes. `bad` are words that arrive marked poisoned; `cov` are the addresses that the operation writes, whose whole words lose old marks
(R346). -/
def State.engWrite (s : State) (id : Nat) (e : EngOp) (va : Nat) (bs : List Byte) (bad : List Bool) (cov : Nat → Bool) : Eng Unit :=
  match s.engLeaf id e va true with
  | .wait s => .wait s
  | .ok t s =>
    let pa := t.phys va
    let bytes : List (Nat × Byte) := ((List.range bs.length).zip bs).map fun p => (pa + p.1, p.2)
    let words := (((List.range bs.length).zip bad).filterMap fun p => if p.2 then some ((pa + p.1) / 8) else none).eraseDups
    if !s.memAllows (engineMaster e.cluster) e.vf pa false true then .wait ((s.logMem (engineMaster e.cluster) e.vf pa false true).stopOp id 0x0A accWrite va)
    else if wholeWords t.kind && (va % 4 ≠ 0 || bs.length % 4 ≠ 0) then .wait (s.stopOp id 0x1A accWrite va)
    else match s.opChain e with
      | v :: _ => .ok () (s.storeVersioned ⟨e.lane, va, t, bytes, some v⟩ v)
      | [] =>
        if t.kind ≥ 3 then
          let p : LaneStore := ⟨e.lane, va, t, bytes, none⟩
          .ok () (p.words.foldl (fun s w => s.mergeL2Part (dieOf e.cluster) w.1 t.kind w.2 e.vf) s)
        else if t.kind = 1 then
          let f : Flight := { kind := .sample, warp := e.warp, wg := e.wg, cluster := e.cluster, master := engineMaster e.cluster, vf := e.vf, context := e.launch, addr := pa, va := va, bytes := bytes, pts := (s.cluster e.cluster).pts.toNat, lease := 10, view := e.view, window := none, after := [], merged := false, wts := 0, store := none, bad := words }
          let (i, s) := s.send f
          .ok () (s.modOp id fun e => { e with tried := i :: e.tried })
        else
          let f : Flight := { kind := .write, warp := e.warp, wg := e.wg, cluster := e.cluster, master := engineMaster e.cluster, vf := e.vf, context := e.launch, addr := pa, va := va, bytes := bytes, pts := (s.cluster e.cluster).pts.toNat, lease := t.lease, view := e.view, window := none, after := [], merged := false, wts := 0, store := none, bad := words }
          let (w, s) := (s.memFresh pa va bs.length cov).mergeFlight f
          .ok () (match w with
            | some x => s.raisePts e.cluster x
            | none => s)

/-- Terms of an operation's global writes: one per aligned word, with the bytes it writes there (R353). -/
def writeTerms (bs : List (Nat × Byte)) : List (Nat × Nat) :=
  ((bs.map fun b => b.1 / 4 * 4).eraseDups).map fun w =>
    (w, ofBytes ((List.range 4).map fun i => ((bs.find? fun b => b.1 = w + i).map Prod.snd).getD 0))

/-- Charges an operation's terms to the fibre that issued it, or to the workgroup's record of ended fibres. -/
def State.chargeTerms (s : State) (e : EngOp) (ts : List (Nat × Nat)) : State :=
  match s.wgs.look e.wg with
  | none => s
  | some g =>
    if g.copy = 0 || ts.isEmpty then s
    else if (s.fibres.look e.fibre).isSome && ((s.warps.look e.warp).map Warp.wg) = some e.wg then s.addTerms e.fibre ts
    else
      let no := ((g.warps.findIdx? fun x => x = slotOf e.warp).getD 0) * 32 + e.lane
      let sum := ts.foldl (fun a t => (a + sigTerm t.1 t.2) % 2 ^ 64) 0
      s.modWg e.wg fun g => { g with sigs := (no, ts.length, sum) :: g.sigs }

/-! ### Accumulator memory (R94, R346) -/

def accKey (c row col : Nat) : Nat := c * 65536 + row * 64 + col

/-- An accumulator word of a workgroup's grant. -/
def State.accGet (s : State) (g : Wg) (row col : Nat) : Nat := (s.acc.get 0 (accKey g.cluster (g.accRow + row) col)).toNat
def State.accBadAt (s : State) (g : Wg) (row col : Nat) : Bool := (s.accBad.look (accKey g.cluster (g.accRow + row) col / 2)).isSome

/-- Reads of accumulator words find the errors that stand in them (R356). -/
def State.noteAcc (s : State) (g : Wg) (rows : List Nat) : State :=
  if s.plants.isEmpty then s
  else s.findPlants 6 fun k => rows.any fun r => k / 64 = accKey g.cluster (g.accRow + r) 0 / 64

/-- Writes accumulator words: row, column, value, poisoned. A 64-bit word is marked when a word written into it is, and cleaned when it is
written whole. -/
def State.accPut (s : State) (g : Wg) (ws : List (Nat × Nat × Nat × Bool)) : State :=
  let key (w : Nat × Nat × Nat × Bool) : Nat := accKey g.cluster (g.accRow + w.1) w.2.1
  let keys := ws.map key
  let s := { s with acc := ws.foldl (fun (t : Tab Word) w => t.set 0 (key w) (BitVec.ofNat 32 w.2.2.1)) s.acc }
  let whole (d : Nat) : Bool := keys.contains (2 * d) && keys.contains (2 * d + 1)
  let s := if s.accBad.isEmpty then s else { s with accBad := s.accBad.keep fun d _ => !whole d }
  let s := (ws.filter fun w => w.2.2.2).foldl (fun s w => { s with accBad := s.accBad.put (key w / 2) true }) s
  s.firePlants 6 (fun k => keys.any fun x => x / 2 = k / 2) (fun k => whole (k / 2))

/-- The accumulator rows, within the grant, that an operation names (R226). -/
def mmaShape (i : Nat) : Nat × Nat × Nat :=
  match i with
  | 0 => (64, 64, 16)
  | 1 => (64, 128, 16)
  | 2 => (128, 64, 16)
  | 3 => (128, 128, 16)
  | 4 => (64, 64, 32)
  | 5 => (128, 128, 32)
  | 6 => (16, 64, 16)
  | _ => (16, 128, 16)

def mmtShape (i : Nat) : Nat × Nat := (2 ^ (i % 8), 128 * 4 ^ (i / 8))

/-- The rows of the words that an ACCMV names, from its block. -/
def accmvRows (b : List Byte) : List Nat :=
  let row0 := fld b 0 2
  let tm := fld b 2 2
  let m0 := fld b 4 2
  let n0 := fld b 6 2
  let q0 := n0 / 64
  let q1 := (n0 + fld b 10 2 - 1) / 64
  ((List.range (q1 - q0 + 1)).flatMap fun q => (List.range (fld b 8 2)).map fun m => row0 + m0 + m + (q0 + q) * tm)

def EngOp.rows (e : EngOp) : List Nat :=
  match e.opcode with
  | 0x50 =>
    let sh := mmaShape e.shape
    (List.range (sh.1 * (sh.2.1 / 64))).map fun i => fld e.block 16 2 + i
  | 0x51 => (List.range (4 * (mmtShape e.shape).1)).map fun i => fld e.block 12 2 + i
  | 0x52 => accmvRows e.block
  | 0x53 => (List.range (bits e.aux 20 10)).map fun i => bits e.aux 9 0 + i
  | _ => []

/-- An earlier matrix operation that names one of an operation's rows is incomplete. -/
def State.rowsBusy (s : State) (id : Nat) (e : EngOp) : Bool :=
  let mine := e.rows
  s.engines.any fun p => p.1 < id && p.2.wg = e.wg && p.2.rows.any fun r => mine.contains r

/-! ### Streams as operands (R238) -/

def streamKey (die n : Nat) : Nat := die * 64 + n

/-- The subscription of a cluster. -/
def Stream.sub (x : Stream) (c : Nat) : Option Sub := x.members.find? fun m => m.cluster = c

/-- The windows that a stream has or will have: all of a scratchpad stream's, or those that a job has formed. -/
def Stream.total (x : Stream) : Nat := if x.job.isSome then x.batches.length else x.windows

/-- The checks of a consumption at issue: type, rows and row length, and a window left to claim. -/
def State.claimable (s : State) (c stream ety h len already : Nat) : Bool :=
  match s.streams.look (streamKey (dieOf c) stream) with
  | none => false
  | some x => match x.sub c with
    | none => false
    | some m => x.ety = ety && x.h = h && x.len = len &&
        ((x.job.isSome && x.closing.isNone) || m.claimed + already < x.total * m.replay)

/-- Claims the next consumption of a cluster: its window, counted from 1. -/
def State.claim (s : State) (c stream : Nat) : Nat × State :=
  let k := streamKey (dieOf c) stream
  match (s.streams.look k).bind fun x => x.sub c with
  | none => (0, s)
  | some m =>
    (m.claimed / m.replay + 1, { s with streams := s.streams.modify k fun x => { x with
      members := x.members.map fun (q : Sub) => if q.cluster = c then { q with claimed := q.claimed + 1 } else q } })

/-- Where a claimed window stands: the subscriber's workgroup and the offset of its slot, once it has landed. -/
def State.landed (s : State) (c stream win : Nat) : Option (Nat × Nat) :=
  match s.streams.look (streamKey (dieOf c) stream) with
  | none => none
  | some x => match x.sub c with
    | none => none
    | some m => if win ≤ x.delivered then some (m.wg, m.land + (win - 1) % 2 * (x.h * x.len)) else none

/-- A closed job stream has no window left for a claim (R238). -/
def State.claimLost (s : State) (c stream win : Nat) : Bool :=
  match s.streams.look (streamKey (dieOf c) stream) with
  | none => true
  | some x => x.job.isSome && x.closing.isSome && win > x.batches.length

/-- Every subscriber has consumed every window: SSUB's and SCLOSE's arrivals. -/
def Sub.finished (m : Sub) (x : Stream) : Bool := m.consumed ≥ x.total * m.replay

/-- The number of windows is final: a scratchpad stream's always, a job stream's once it is closed. -/
def Stream.final (x : Stream) : Bool := x.job.isNone || x.closing.isSome

/-- The number under which a stream's source lock stands, from SOPEN to SCLOSE's arrival (R237). -/
def streamLock (k : Nat) : Nat := 2 ^ 40 + k

/-- A consumption is complete. -/
def State.consumed (s : State) (c stream : Nat) : State :=
  { s with streams := s.streams.modify (streamKey (dieOf c) stream) fun x => { x with
    members := x.members.map fun (q : Sub) => if q.cluster = c then { q with consumed := q.consumed + 1 } else q } }

end Sys2Proof.Machine
end

