-- ==== Sys2Proof/Machine/Matrix.lean ====
section
/-! DEFINITION. The tensor core, the ternary array and its veneer slice, and the accumulator mover (R62 to R64, R227 to R236, R240). -/

namespace Sys2Proof.Machine

open Sys2Proof.Num (bits bit sgn wrap ofBytes toBytes Fmt Val)

/-! ### Issuing (R222, R223) -/

/-- The stops of a list, else the issue of an operation whose claims are made last, and the batch goes on. -/
def State.issueOr (s : State) (sel op : Nat) (checks : List (Unit → Option Stop)) (locks : List (Nat × Lock)) (claim : State → List Nat × State)
    (e : EngOp) (eff : Nat → State → State) : State :=
  match firstStop (checks ++ [fun (_ : Unit) => s.issueStall sel op locks]) with
  | some st => s.halt sel st
  | none =>
    let (note, s) := claim s
    let (id, s) := s.issueOp { e with note := note, order := s.nextId } locks
    (eff id s).go

/-- The size of an MMA element in half bytes, and its format. -/
def mmaHalf (t : ETy) : Nat :=
  match t with
  | .bf16 | .f16 => 4
  | .e2m1 => 1
  | _ => 2

def etyFmt (t : ETy) : Fmt :=
  match t with
  | .bf16 => Num.bf16
  | .f16 => Num.f16
  | .e4m3 => Num.e4m3
  | .e5m2 => Num.e5m2
  | .e2m1 => Num.e2m1
  | _ => Num.f32

def etyOf (c : Nat) : ETy := etyList.getD c .bf16

/-- M, N and K of an MMA. -/
def mmaDims (t : ETy) (shape : Nat) : Nat × Nat × Nat :=
  let sh := mmaShape shape
  (sh.1, sh.2.1, sh.2.2 * (4 / mmaHalf t))

/-- Bytes spanned by r rows of n elements, ld elements apart. -/
def spanOf (half r ld n : Nat) : Nat := (((r - 1) * ld + n) * half + 1) / 2

/-- The stream number of an operand field, when it is one. -/
def streamNo (b : List Byte) (off : Nat) : Nat := fld b off 4 % 64

/-- The claims of an operation's stream operands: a window for each, 0 for an operand in scratchpad. -/
def State.claimAll (s : State) (c : Nat) (ops : List (Bool × Nat)) : List Nat × State :=
  ops.foldl (fun (a : List Nat × State) p =>
    if p.1 then
      let (w, s) := a.2.claim c p.2
      (a.1 ++ [w], s)
    else (a.1 ++ [0], a.2)) ([], s)

/-- MMA (R227 to R229). -/
def execMma (o : X) (s : State) : Result :=
  .next (match s.elect 0x50 o.g [xBase o] with
    | .inl t => t
    | .inr (l, s) =>
      let sel := s.actor
      let c := clusterOf sel
      let g := s.wgOf sel
      let no := s.wgNo sel
      let blk := s.blockAt sel l o
      let b := s.scrBytes g blk 32
      let (m, n, k) := mmaDims o.ety o.shape.val
      let half := mmaHalf o.ety
      let sa := o.flag 1
      let sb := o.flag 2
      let lda := fld b 4 4
      let ldb := fld b 12 4
      let aSpan := (fld b 0 4, spanOf half m lda k)
      let bSpan := (fld b 8 4, spanOf half k ldb n)
      let ranges := (if sa then [] else [aSpan]) ++ if sb then [] else [bSpan]
      let locks := ranges.map fun r => g.scrLock no o.bar.val false r.1 r.2
      let rows := m * (n / 64)
      let two := (sa && sb && streamNo b 0 = streamNo b 8 : Bool)
      s.issueOr sel 0x50
        [fun _ => s.blockStop sel l blk 32,
         fun _ => layoutStop l blk [(sa && decide (fld b 0 4 ≥ 64), 0), (if sa then lda ≠ 0 else lda < k, 4), (sb && decide (fld b 8 4 ≥ 64), 8),
           (if sb then ldb ≠ 0 else ldb < n, 12), resv b 18 31],
         fun _ => deniedStop l g ranges,
         fun _ => if fld b 16 2 + rows > g.accRows then some (.trap ⟨0x0A, l, 0, fld b 16 2, 0⟩) else none,
         fun _ => alignStop l (ranges.map Prod.fst),
         fun _ => ([(lda * half, sa), (ldb * half, sb)].find? fun p => !p.2 && p.1 % 8 ≠ 0).map fun p => .trap ⟨0x09, l, 0, p.1 / 2, 0⟩,
         fun _ => s.barStop sel l o.bar.val,
         fun _ => streamStop l (streamNo b 0) (sa && !s.claimable c (streamNo b 0) o.ety.code m (k * half / 2) 0),
         fun _ => streamStop l (streamNo b 8) (sb && !s.claimable c (streamNo b 8) o.ety.code k (n * half / 2) (if two then 1 else 0))]
        locks (fun s => s.claimAll c [(sa, streamNo b 0), (sb, streamNo b 8)])
        { s.newOp sel l 0x50 o with blk := blk, block := b } fun _ s => s)

/-- MMT (R233). -/
def mmtRows (t : ETy) (k : Nat) : Nat := if t = .t2 then k / 4 else (k + 4) / 5

def execMmt (o : X) (s : State) : Result :=
  .next (match s.elect 0x51 o.g [xBase o] with
    | .inl t => t
    | .inr (l, s) =>
      let sel := s.actor
      let c := clusterOf sel
      let g := s.wgOf sel
      let blk := s.blockAt sel l o
      let b := s.scrBytes g blk 32
      let (m, k) := mmtShape o.shape.val
      let sa := o.flag 1
      let lda := fld b 4 4
      let span := (fld b 0 4, (m - 1) * lda + k)
      let ranges := if sa then [] else [span]
      s.issueOr sel 0x51
        [fun _ => s.blockStop sel l blk 32,
         fun _ => layoutStop l blk [(sa && decide (fld b 0 4 ≥ 64), 0), (if sa then lda ≠ 0 else lda < k, 4),
           (fld b 8 2 + mmtRows o.ety k > 65536, 8), (fld b 10 2 + k / 32 > 65536, 10), resv b 14 31],
         fun _ => deniedStop l g ranges,
         fun _ => if fld b 12 2 + 4 * m > g.accRows then some (.trap ⟨0x0A, l, 0, fld b 12 2, 0⟩) else none,
         fun _ => alignStop l (ranges.map Prod.fst ++ if sa then [] else [lda]),
         fun _ => s.barStop sel l o.bar.val,
         fun _ => streamStop l (streamNo b 0) (sa && !s.claimable c (streamNo b 0) ETy.s8.code m k 0)]
        (ranges.map fun r => g.scrLock (s.wgNo sel) o.bar.val false r.1 r.2) (fun s => s.claimAll c [(sa, streamNo b 0)])
        { s.newOp sel l 0x51 o with blk := blk, block := b } fun _ s => s)

/-- Bytes of an element that ACCMV delivers. -/
def outSize (t : ETy) : Nat :=
  match t with
  | .f32 | .s32 => 4
  | .bf16 | .f16 => 2
  | _ => 1

/-- The window whose rows a scatter ACCMV uses: the last that this cluster's consumptions of the stream claimed, counted from 1. -/
def State.lastClaim (s : State) (c stream : Nat) : Option (Nat × Stream) :=
  (s.streams.look (streamKey (dieOf c) stream)).bind fun x => (x.sub c).bind fun m =>
    if m.claimed = 0 || x.job.isNone then none else some ((m.claimed - 1) / m.replay + 1, x)

/-- A row's contributor can take its result: it has not retired, and the bytes lie in its allocation. -/
def State.contributorOf (s : State) (r : Row) (dst n : Nat) : Option Wg :=
  (s.wgs.look r.wg).filter fun g => decide (r.result + dst + n ≤ g.alloc)

/-- The rows of a window that a scatter ACCMV moves: their index in the window and the row. -/
def scatterRows (x : Stream) (win m0 mc : Nat) : List (Nat × Row) :=
  let rows := x.batches.getD (win - 1) []
  (List.range mc).filterMap fun i => (rows[m0 + i]?).map fun r => (m0 + i, r)

/-- ACCMV (R234, R235, R240). -/
def execAccmv (o : X) (s : State) : Result :=
  let reg := o.flag 0
  .next (match s.elect 0x52 o.g (xBase o :: if reg then [dstOpnd o.aux false] else []) with
    | .inl t => t
    | .inr (l, s) =>
      let sel := s.actor
      let c := clusterOf sel
      let g := s.wgOf sel
      let no := s.wgNo sel
      let blk := s.blockAt sel l o
      let b := s.scrBytes g blk 32
      let sc := o.flag 1
      let size := outSize o.ety
      let tm := fld b 2 2
      let m0 := fld b 4 2
      let n0 := fld b 6 2
      let mc := fld b 8 2
      let nc := fld b 10 2
      let dst := fld b 12 4
      let ldd := fld b 16 4
      let rs := fld b 24 4
      let stream := fld b 28 1
      let last := if sc then s.lastClaim c stream else none
      let rsRange := if rs = 0xFFFFFFFF then [] else [(rs + 4 * m0, 4 * mc)]
      let dstRange := if reg || sc then [] else [(dst, (mc - 1) * ldd + nc * size)]
      let rows := match last with
        | some p => scatterRows p.2 p.1 m0 mc
        | none => []
      let live := rows.filterMap fun r => (s.contributorOf r.2 dst (nc * size)).map fun h => (r, h)
      let locks := rsRange.map (fun r => g.scrLock no o.bar.val false r.1 r.2) ++ dstRange.map (fun r => g.scrLock no o.bar.val true r.1 r.2) ++
        (live.filter fun p => p.2.phase ≠ .saved).map fun p => p.2.scrLock p.1.2.wg p.1.2.bar true (p.1.2.result + dst) (nc * size)
      let d := if reg then s.dstOf sel l o.aux false else none
      s.issueOr sel 0x52
        [fun _ => s.blockStop sel l blk 32,
         fun _ => layoutStop l blk [(tm = 0 || tm > 128, 2), (m0 + mc > tm || (last.map fun p => decide (m0 + mc > p.2.h)).getD false, 4),
           (n0 + nc > 256, 6), (mc = 0 || (reg && mc ≠ 1), 8), (nc = 0 || (reg && nc ≠ 1), 10), (reg && dst ≠ 0, 12),
           (if reg || sc then ldd ≠ 0 else ldd < nc * size, 16), (if sc then stream > 63 else stream ≠ 0, 28), resv b 29 31],
         fun _ => deniedStop l g (rsRange ++ dstRange),
         fun _ => (accmvRows b).find? (fun r => decide (r ≥ g.accRows)) |>.map fun r => .trap ⟨0x0A, l, 0, r, 0⟩,
         fun _ => alignStop l ([dst] ++ (if reg || sc then [] else [ldd]) ++ if rs = 0xFFFFFFFF then [] else [rs]),
         fun _ => if reg then none else s.barStop sel l o.bar.val,
         fun _ => streamStop l stream (sc && last.isNone)]
        locks (fun s => ((last.map Prod.fst).toList ++ live.map fun p => p.1.1, s))
        { s.newOp sel l 0x52 o with
          blk := blk
          block := b
          bar := if reg then none else some o.bar.val
          dst := d
          parts := live.map fun p => ⟨p.1.2.wg, 0⟩ }
        fun _ s => if reg then s.markEmpty sel l o.aux false else s)

/-- ACCZ (R236). -/
def execAccz (o : X) (s : State) : Result :=
  .next (match s.elect 0x53 o.g [xAux o] with
    | .inl t => t
    | .inr (l, s) =>
      let sel := s.actor
      let g := s.wgOf sel
      let v := (s.peek sel l (xAux o)).val
      let count := bits v 20 10
      s.issueOr sel 0x53
        [fun _ => layoutStop l 0 [(bits v 31 21 ≠ 0 || count = 0 || count > 1024, 0x84)],
         fun _ => if bits v 9 0 + count > g.accRows then some (.trap ⟨0x0A, l, 0, bits v 9 0, 0⟩) else none,
         fun _ => s.barStop sel l o.bar.val]
        [] (fun s => ([], s)) { s.newOp sel l 0x53 o with aux := v } fun _ s => s)

/-- VNLD (R232). Its flags are due until its arrival (R39). -/
def execVnld (o : X) (s : State) : Result :=
  .next (match s.elect 0x57 o.g [xBase o] with
    | .inl t => t
    | .inr (l, s) =>
      let sel := s.actor
      let g := s.wgOf sel
      let blk := s.blockAt sel l o
      let b := s.scrBytes g blk 32
      let va := fld b 0 8
      let rows := fld b 8 4
      s.issueOr sel 0x57
        [fun _ => s.blockStop sel l blk 32,
         fun _ => layoutStop l blk [(va % 64 ≠ 0 || va + 256 * rows > globalEnd || va ≥ globalEnd, 0), (rows = 0 || rows > 65536, 8),
           (fld b 12 2 + rows > 65536, 12), resv b 14 31],
         fun _ => s.barStop sel l o.bar.val]
        [g.memLock (s.wgNo sel) o.bar.val false va (va + 256 * rows - 1)] (fun s => ([0], s))
        { s.newOp sel l 0x57 o with blk := blk, block := b }
        fun id s => if o.flag 0 then s else s.modWarp sel fun w => { w with flagsDue := id :: w.flagsDue })

/-! ### Operands in scratchpad -/

/-- A matrix operand: the workgroup whose scratchpad holds it, its offset, and elements from row to row. -/
structure Oper where
  g : Wg
  off : Nat
  ld : Nat
deriving Repr

/-- The code of element i of row r, of half-byte size `half`. -/
def State.operCode (s : State) (p : Oper) (half r i : Nat) : Nat :=
  let e := r * p.ld + i
  if half = 1 then (s.scrGet p.g (p.off + e / 2)).toNat / 16 ^ (e % 2) % 16
  else s.scrNat p.g (p.off + e * half / 2) (half / 2)

/-- Whether the word of element i of row r is poisoned. -/
def State.operBad (s : State) (p : Oper) (half r i : Nat) : Bool := s.scrBad p.g (p.off + (r * p.ld + i) * half / 2) 1

/-- The operand of an operation: a stream's landed window, or the block's range. Nothing while its window has not landed. -/
def State.operOf (s : State) (e : EngOp) (fromStream : Bool) (win off ldOff rowLen : Nat) : Option Oper :=
  if fromStream then
    ((s.landed e.cluster (streamNo e.block off) win).bind fun p => (s.wgs.look p.1).map fun g => ⟨g, p.2, rowLen⟩)
  else (s.wgs.look e.wg).map fun g => ⟨g, fld e.block off 4, fld e.block ldOff 4⟩

/-- Finds the errors that stand in an operand's words. -/
def State.noteOper (s : State) (p : Oper) (half r n : Nat) : State := s.noteScr p.g p.off (spanOf half r p.ld n)

/-! ### MMA (R62, R229) -/

/-- One output element: K steps in ascending order, each with one rounding. -/
def mmaElem (f : Fmt) (step k : Nat) (acc : Nat) (a b : Nat → Nat) : Nat :=
  (List.range (k / step)).foldl (fun acc i =>
    ((List.range step).foldl (fun (t : Num.Sum) j =>
      t.add (Num.prod (Num.decode f (a (i * step + j))) (Num.decode f (b (i * step + j)))))
      (Num.Sum.add (.fin 0 true) (some (Num.decode Num.f32 acc)))).round) acc

/-- The words that an MMA writes: row, column, value, poisoned. -/
def State.mmaWords (s : State) (e : EngOp) (g : Wg) (a b : Oper) : List (Nat × Nat × Nat × Bool) :=
  let t := etyOf e.ety
  let half := mmaHalf t
  let (m, n, k) := mmaDims t e.shape
  let step := 16 * (4 / half)
  let row0 := fld e.block 16 2
  let accum := bit e.flags 0
  (List.range m).flatMap fun i =>
    let aRow := (List.range k).map fun x => s.operCode a half i x
    let aBad := (List.range k).any fun x => s.operBad a half i x
    (List.range n).map fun j =>
      let row := row0 + i + j / 64 * m
      let old := if accum then s.accGet g row (j % 64) else 0
      let bBad := (List.range k).any fun x => s.operBad b half x j
      (row, j % 64, mmaElem (etyFmt t) step k old (fun x => aRow.getD x 0) (fun x => s.operCode b half x j),
        aBad || bBad || (accum && s.accBadAt g row (j % 64)))

/-- Whether a claimed operand never comes (R238). -/
def State.operLost (s : State) (e : EngOp) (fromStream : Bool) (win off : Nat) : Bool :=
  fromStream && s.claimLost e.cluster (streamNo e.block off) win

/-- The consumptions of an operation are complete. -/
def State.consumeAll (s : State) (e : EngOp) (ops : List (Bool × Nat)) : State :=
  ops.foldl (fun s p => if p.1 then s.consumed e.cluster (streamNo e.block p.2) else s) s

/-- The effect and arrival of an MMA, once its operands stand. -/
def State.runMma (s : State) (id : Nat) (e : EngOp) : State :=
  let t := etyOf e.ety
  let half := mmaHalf t
  let (m, n, k) := mmaDims t e.shape
  let sa := bit e.flags 1
  let sb := bit e.flags 2
  let wa := e.note.getD 0 0
  let wb := e.note.getD 1 0
  if s.operLost e sa wa 0 || s.operLost e sb wb 8 then s.finishOp id true
  else match s.wgs.look e.wg, s.operOf e sa wa 0 4 k, s.operOf e sb wb 8 12 n with
    | some g, some a, some b =>
      let ws := s.mmaWords e g a b
      let s := ((s.noteOper a half m k).noteOper b half k n)
      let s := if bit e.flags 0 then s.noteAcc g e.rows else s
      ((s.accPut g ws).consumeAll e [(sa, 0), (sb, 8)]).finishOp id false
    | none, _, _ => s.finishOp id true
    | _, _, _ => s

/-! ### MMT (R63, R231, R233) -/

def venKey (c row col : Nat) : Nat := c * 2 ^ 24 + row * 256 + col

def State.venByte (s : State) (c row col : Nat) : Nat := (s.veneer.get 0 (venKey c row col)).toNat
def State.venBad (s : State) (c row col : Nat) : Bool := (s.veneerBad.look (venKey c row col / 8)).isSome

/-- The slice as an MMT of a cluster sees it: a byte that a VNLD overwrote while the MMT was in flight is the old or the new one, and one
that a VNLD in flight is to write is free (R232, log 9). -/
def State.veneerFor (s : State) (id : Nat) (e : EngOp) : State :=
  let old := s.oldVeneer.foldl (fun (t : Tab Byte) (p : Nat × List (Nat × Byte)) =>
    match p.2.filter fun x => x.1 = id with
    | [] => t
    | xs =>
      let all := s.veneer.get 0 p.1 :: xs.map Prod.snd
      t.set 0 p.1 (all.getD (Config.seen s.tick p.1 % all.length) 0)) s.veneer
  let loading := s.engines.filter fun p => p.2.opcode = 0x57 && p.2.cluster = e.cluster
  { s with veneer := loading.foldl (fun t p => (List.range (256 * fld p.2.block 8 4)).foldl (fun (t : Tab Byte) i =>
      let k := venKey e.cluster (fld p.2.block 12 2) 0 + i
      t.set 0 k (BitVec.ofNat 8 (Config.seen s.tick k))) t) old }

/-- Weight k of a column. -/
def State.trit (s : State) (c vrow k n : Nat) (t : ETy) : Int :=
  if t = .t2 then Num.tritT2 (s.venByte c (vrow + k / 4) n / 4 ^ (k % 4) % 4)
  else Num.tritT5 (s.venByte c (vrow + k / 5) n) (k % 5)

/-- One output element of MMT: a rounding for each block of 32 weights. -/
def State.mmtElem (s : State) (c vrow srow k n : Nat) (t : ETy) (acc : Nat) (act : Nat → Int) : Nat :=
  (List.range (k / 32)).foldl (fun acc b =>
    let isum := (List.range 32).foldl (fun (x : Int) i => x + s.trit c vrow (32 * b + i) n t * act (32 * b + i)) 0
    let e := s.venByte c (srow + b) n
    let y := if e = 0xFF then Num.f32.nan
      else (Num.roundDy Num.f32 .rne (isum < 0) isum.natAbs ((e : Int) - 127)).1
    Num.addF acc y) acc

/-- The words that an MMT writes. -/
def State.mmtWords (s : State) (e : EngOp) (g : Wg) (a : Oper) : List (Nat × Nat × Nat × Bool) :=
  let t := etyOf e.ety
  let c := e.cluster
  let (m, k) := mmtShape e.shape
  let vrow := fld e.block 8 2
  let srow := fld e.block 10 2
  let row0 := fld e.block 12 2
  let accum := bit e.flags 0
  let colBad (n : Nat) : Bool := ((List.range (mmtRows t k)).any fun r => s.venBad c (vrow + r) n) || (List.range (k / 32)).any fun r => s.venBad c (srow + r) n
  let bad := (List.range 256).map colBad
  (List.range m).flatMap fun i =>
    let act := (List.range k).map fun x => sgn 8 (s.operCode a 2 i x)
    let aBad := (List.range k).any fun x => s.operBad a 2 i x
    (List.range 256).map fun n =>
      let row := row0 + i + n / 64 * m
      let old := if accum then s.accGet g row (n % 64) else 0
      (row, n % 64, s.mmtElem c vrow srow k n t old (fun x => act.getD x 0), aBad || bad.getD n false || (accum && s.accBadAt g row (n % 64)))

/-- Finds the errors that stand in the slice rows that an MMT reads. -/
def State.noteVen (s : State) (c row rows : Nat) : State :=
  if s.plants.isEmpty then s
  else s.findPlants 7 fun k => k / 2 ^ 24 = c && decide (row ≤ k % 2 ^ 24 / 256 ∧ k % 2 ^ 24 / 256 < row + rows)

def State.runMmt (s : State) (id : Nat) (e : EngOp) : State :=
  let (m, k) := mmtShape e.shape
  let sa := bit e.flags 1
  let wa := e.note.getD 0 0
  if s.operLost e sa wa 0 then s.finishOp id true
  else match s.wgs.look e.wg, s.operOf e sa wa 0 4 k with
    | some g, some a =>
      let ws := (s.veneerFor id e).mmtWords e g a
      let s := ((s.noteOper a 2 m k).noteVen e.cluster (fld e.block 8 2) (mmtRows (etyOf e.ety) k)).noteVen e.cluster (fld e.block 10 2) (k / 32)
      let s := if bit e.flags 0 then s.noteAcc g e.rows else s
      ((s.accPut g ws).consumeAll e [(sa, 0)]).finishOp id false
    | none, _ => s.finishOp id true
    | _, _ => s

/-! ### ACCMV and ACCZ (R64, R234 to R236, R240) -/

/-- The accumulator word of tile row m and column n of an ACCMV. -/
def tileRow (b : List Byte) (m n : Nat) : Nat := fld b 0 2 + m + n / 64 * fld b 2 2

/-- The row scale of a tile row, and whether its word is poisoned. -/
def State.rowScale (s : State) (g : Wg) (b : List Byte) (m : Nat) : Nat × Bool :=
  let rs := fld b 24 4
  if rs = 0xFFFFFFFF then (0x3F800000, false) else (s.scrNat g (rs + 4 * m) 4, s.scrBad g (rs + 4 * m) 4)

/-- Conversion of an FP32 value to an output type (R60, R61). -/
def convertOut (t : ETy) (z : Nat) : Nat :=
  let v := Num.decode Num.f32 z
  match t with
  | .f32 => z
  | .s32 => (Num.toInt true 32 .rne v).1
  | .s8 => (Num.toInt true 8 .rne v).1
  | t => (Num.toFmt (etyFmt t) .rne v).1

/-- The value that ACCMV delivers of tile element (m, n), and its poison. -/
def State.accOut (s : State) (g : Wg) (e : EngOp) (m n : Nat) : Nat × Bool :=
  let b := e.block
  let r := s.rowScale g b m
  let gain := Num.mulF (fld b 20 4) r.1
  let row := tileRow b m n
  (convertOut (etyOf e.ety) (Num.mulF (s.accGet g row (n % 64)) gain), r.2 || s.accBadAt g row (n % 64))

/-- Writes one tile row's outputs into a scratchpad, with their poison. -/
def State.putOuts (s : State) (g : Wg) (off size : Nat) (xs : List (Nat × Bool)) : State :=
  let s := s.scrPut g off (xs.flatMap fun x => toBytes size x.1)
  ((List.range xs.length).zip xs).foldl (fun s p => if p.2.2 then s.scrMark g (off + p.1 * size) size else s) s

/-- Clears the words that an ACCMV moved. -/
def State.accClear (s : State) (g : Wg) (b : List Byte) : State :=
  s.accPut g ((List.range (fld b 8 2)).flatMap fun i => (List.range (fld b 10 2)).map fun j =>
    let m := fld b 4 2 + i
    let n := fld b 6 2 + j
    (tileRow b m n, n % 64, 0, false))

/-- A register's value as ACCMV writes it. -/
def regOut (t : ETy) (x : Nat) : Nat := if t = .s8 then wrap 32 (sgn 8 x) else x

/-- The effect and arrival of an ACCMV; a scatter's rows are written by SCATTER_ARRIVAL first. -/
def State.runAccmv (s : State) (id : Nat) (e : EngOp) : State :=
  match s.wgs.look e.wg with
  | none => s.finishOp id true
  | some g =>
    let b := e.block
    let size := outSize (etyOf e.ety)
    let m0 := fld b 4 2
    let n0 := fld b 6 2
    let cells (i : Nat) : List (Nat × Bool) := (List.range (fld b 10 2)).map fun j => s.accOut g e (m0 + i) (n0 + j)
    let found (s : State) : State :=
      let s := s.noteAcc g e.rows
      if fld b 24 4 = 0xFFFFFFFF then s else s.noteScr g (fld b 24 4 + 4 * m0) (4 * fld b 8 2)
    let clear (s : State) : State := if bit e.flags 2 then s.accClear g b else s
    if bit e.flags 0 then
      let x := s.accOut g e m0 n0
      let s := match e.dst with
        | some d => (s.fillDst d (regOut (etyOf e.ety) x.1) (if x.2 then some 0 else none) none).noteFilled d
        | none => s
      (clear (found s)).finishOp id false
    else if bit e.flags 1 then
      if e.parts.any fun p => p.state = 0 then s else (clear (found s)).finishOp id false
    else
      let rows := (List.range (fld b 8 2)).map fun i => (i, cells i)
      let s := rows.foldl (fun s r => s.putOuts g (fld b 12 4 + r.1 * fld b 16 4) size r.2) s
      (clear (found s)).finishOp id false

/-- The effect and arrival of an ACCZ. -/
def State.runAccz (s : State) (id : Nat) (e : EngOp) : State :=
  match s.wgs.look e.wg with
  | none => s.finishOp id true
  | some g => (s.accPut g (e.rows.flatMap fun r => (List.range 64).map fun c => (r, c, 0, false))).finishOp id false

/-! ### VNLD (R232) -/

/-- A byte as VNLD stores it. -/
def venStored (t : ETy) (raw : Bool) (x : Nat) : Nat :=
  if raw then x
  else if t = .t2 then
    (List.range 4).foldl (fun y i => let p := x / 4 ^ i % 4; y + (if p = 2 then 0 else p) * 4 ^ i) 0
  else if x ≥ 243 then 0x79 else x

/-- Loads the next 64-byte sectors of a VNLD, as far as its translations reach; then its flags and its arrival. -/
def State.runVnld (s : State) (id : Nat) (e : EngOp) : Nat → State
  | 0 => s
  | fuel + 1 =>
    let rows := fld e.block 8 4
    if e.progress ≥ 4 * rows then
      let s := if e.note.headD 0 = 1 then
          s.modWarp e.warp fun w => if w.wg = e.wg then { w with fpc := w.fpc ||| BitVec.ofNat 32 (Num.Flags.inv.mask) } else w
        else s
      s.finishOp id false
    else
      let t := etyOf e.ety
      let raw := bit e.flags 0
      match s.engRead id e (fld e.block 0 8 + 64 * e.progress) 64 with
      | .wait s => s
      | .ok (bs, bad) s =>
        let k := venKey e.cluster (fld e.block 12 2) 0 + 64 * e.progress
        let new := bs.map fun b => BitVec.ofNat 8 (venStored t raw b.toNat)
        let keyed := ((List.range 64).zip new).map fun p => (k + p.1, p.2)
        let reading := (s.engines.filter fun p => p.2.opcode = 0x51 && p.2.cluster = e.cluster).map Prod.fst
        let s := { s with
          oldVeneer := if reading.isEmpty then s.oldVeneer else keyed.foldl (fun (t : Tab (List (Nat × Byte))) (p : Nat × Byte) =>
            t.set [] p.1 ((reading.map fun i => (i, s.veneer.get 0 p.1)) ++ t.get [] p.1)) s.oldVeneer
          veneer := keyed.foldl (fun (t : Tab Byte) (p : Nat × Byte) => t.set 0 p.1 p.2) s.veneer
          veneerBad := s.veneerBad.keep fun w _ => !(k / 8 ≤ w && w < k / 8 + 8) }
        let s := ((List.range 64).zip bad).foldl (fun s p => if p.2 then { s with veneerBad := s.veneerBad.put ((k + p.1) / 8) true } else s) s
        let s := s.firePlants 7 (touches keyed) (covers keyed)
        let e' := { e with progress := e.progress + 1, note := if new ≠ bs then [1] else e.note }
        (s.modOp id fun _ => e').runVnld id e' fuel

end Sys2Proof.Machine
end

