-- ==== Sys2Proof/Machine/Copy.lean ====
section
/-! DEFINITION. Layout records and the copies of the copy engine, the expert form among them (R241 to R248, R370 to R372). -/

namespace Sys2Proof.Machine

open Sys2Proof.Num (bits bit sgn wrap ofBytes toBytes)

/-! ### Layout records (R241 to R243) -/

/-- A layout record, by field. -/
structure Rec where
  base : Nat
  ty : Nat
  rank : Nat
  flags : Nat
  e : List Nat
  s : List Nat
  b : List Nat
  rest : Nat
deriving DecidableEq, Repr, Inhabited

def recOf (x : List Byte) : Rec :=
  ⟨fld x 0 8, fld x 8 1, fld x 9 1, fld x 10 2, (List.range 5).map fun d => fld x (12 + 4 * d) 4,
    (List.range 5).map fun d => fld x (32 + 4 * d) 4, (List.range 5).map fun d => fld x (52 + 2 * d) 2, fld x 62 2⟩

def Rec.ext (r : Rec) (d : Nat) : Nat := r.e.getD d 1
def Rec.stride (r : Rec) (d : Nat) : Nat := r.s.getD d 0
def Rec.box (r : Rec) (d : Nat) : Nat := r.b.getD d 1
def Rec.dest (r : Rec) : Bool := bit r.flags 0
def Rec.sparse (r : Rec) : Bool := bit r.flags 6
def Rec.modular (r : Rec) (d : Nat) : Bool := bit r.flags (1 + d)

/-- Bytes of an element; packed types count bytes. -/
def recSize (ty : Nat) : Nat :=
  match ty with
  | 0 | 1 => 2
  | 7 | 9 => 4
  | _ => 1

def Rec.size (r : Rec) : Nat := recSize r.ty

/-- The span of dimensions 0 to d, in elements. -/
def Rec.spanAt (r : Rec) : Nat → Nat
  | 0 => r.stride 0 * (r.ext 0 - 1) + 1
  | d + 1 => r.stride (d + 1) * (r.ext (d + 1) - 1) + r.spanAt d

/-- Tiles of a sparse record along a dimension. -/
def Rec.tiles (r : Rec) (d : Nat) : Nat := (r.ext d + r.box d - 1) / max 1 (r.box d)

/-- Bytes that a record spans. -/
def Rec.bytes (r : Rec) : Nat := if r.sparse then r.tiles 0 * r.tiles 1 * r.stride 0 else r.size * r.spanAt 4

/-- The checks of a record, each with its detail, in ascending offset (R224, R241). -/
def Rec.checks (r : Rec) : List (Bool × Nat) :=
  let inside (d : Nat) : Bool := decide (d < r.rank)
  [(decide (r.base % 16 ≠ 0 ∨ r.base + r.bytes > globalEnd ∨ r.base ≥ globalEnd), 0x00), (decide (r.ty > 9), 0x08),
    (decide (r.rank = 0 ∨ r.rank > 5) || (r.sparse && decide (r.rank ≠ 2)), 0x09),
    (decide (bits r.flags 15 7 ≠ 0) || (List.range 5).any (fun d => r.modular d && !inside d) || (r.sparse && decide (bits r.flags 5 0 ≠ 0)), 0x0A)] ++
  (List.range 5).map (fun d => (decide (if inside d then r.ext d = 0 else r.ext d ≠ 1), 12 + 4 * d)) ++
  (List.range 5).map (fun d =>
    ((!inside d && decide (r.stride d ≠ 0)) ||
      (r.dest && inside d && decide (if d = 0 then r.stride 0 = 0 else r.stride d < r.spanAt (d - 1))) ||
      (r.sparse && decide ((d = 0 ∧ (r.stride 0 % 16 ≠ 0 ∨ r.stride 0 < 32)) ∨ (d = 1 ∧ r.stride 1 ≠ 0))), 32 + 4 * d)) ++
  (List.range 5).map (fun d =>
    (decide (if inside d then r.box d = 0 ∨ r.box d > r.ext d else r.box d ≠ 1) || (r.sparse && decide (d = 1 ∧ r.box 0 * r.box 1 > 256)), 52 + 2 * d)) ++
  [(decide (r.rest ≠ 0), 0x3E)]

/-- Rows of a box. -/
def Rec.rows (r : Rec) : Nat := r.box 1 * r.box 2 * r.box 3 * r.box 4

/-- A coordinate after wrapping; none out of bounds (R243). -/
def Rec.wrapAt (r : Rec) (d : Nat) (x : Int) : Option Nat :=
  let x := if r.modular d then x % (r.ext d : Int) else x
  if 0 ≤ x ∧ x < (r.ext d : Int) then some x.toNat else none

/-- The virtual address of an element of a dense record at exact coordinates. -/
def Rec.addr (r : Rec) (xs : List Int) : Option Nat :=
  let idx := (List.range 5).map fun d => r.wrapAt d (xs.getD d 0)
  if idx.all Option.isSome then
    some (r.base + r.size * ((List.range 5).map fun d => r.stride d * ((idx.getD d none).getD 0)).foldl (· + ·) 0)
  else none

/-- The indexes of the p-th element of a box, in row order. -/
def Rec.index (r : Rec) (p : Nat) : List Nat :=
  let row := p / r.box 0
  [p % r.box 0, row % r.box 1, row / r.box 1 % r.box 2, row / (r.box 1 * r.box 2) % r.box 3, row / (r.box 1 * r.box 2 * r.box 3)]

/-- The bytes from the lowest to the highest that a box touches, its coordinates given by dimension (R90); none if all are out of bounds. -/
def Rec.touched (r : Rec) (xs : List (List Int)) : Option (Nat × Nat) :=
  let offs := (List.range 5).map fun d => ((xs.getD d [0]).filterMap fun x => r.wrapAt d x).map fun x => r.stride d * x
  if offs.any List.isEmpty then none
  else
    let lo := (offs.map fun l => (minOf l).getD 0).foldl (· + ·) 0
    let hi := (offs.map fun l => l.foldl max 0).foldl (· + ·) 0
    some (r.base + r.size * lo, r.base + r.size * hi + r.size - 1)

/-- LRDEF (R242): it acts at issue. -/
def execLrdef (o : X) (s : State) : Result :=
  .next (match s.elect 0x58 o.g [xBase o, xAux o] with
    | .inl t => t
    | .inr (l, s) =>
      let sel := s.actor
      let blk := s.blockAt sel l o
      let slot := (s.peek sel l (xAux o)).val
      let x := s.scrBytes (s.wgOf sel) blk 64
      match firstStop [fun _ => s.blockStop sel l blk 64,
          fun _ => layoutStop l blk ((slot > 63 || slot ≥ (s.wgOf sel).slots, 0x80) :: (recOf x).checks),
          fun _ => s.stallIf (s.acquiring sel)] with
      | some st => s.halt sel st
      | none => ({ s with layouts := s.layouts.put (s.wgNo sel * 64 + slot) x }).go)

/-! ### Blocks of copies (R244, R246 to R248) -/

/-- The record in a slot of the workgroup. -/
def State.slotRec (s : State) (wg slot : Nat) : Option (List Byte) := s.layouts.look (wg * 64 + slot)

/-- The slot's own causes: 0x80 and 0x81. -/
def State.slotChecks (s : State) (sel slot : Nat) : List (Bool × Nat) :=
  [(slot > 63 || slot ≥ (s.wgOf sel).slots, 0x80), ((s.slotRec (s.wgNo sel) slot).isNone, 0x81)]

/-- The origin of CPY's block. -/
def origin (b : List Byte) : List Int := (List.range 5).map fun d => sgn 32 (fld b (4 + 4 * d) 4)

/-- Origins at or above the rank must be zero. -/
def originChecks (b : List Byte) (r : Rec) : List (Bool × Nat) :=
  (List.range 5).map fun d => (decide (d ≥ r.rank) && fld b (4 + 4 * d) 4 ≠ 0, 4 + 4 * d)

/-- The pitch of a box in scratchpad; 0 means dense. -/
def pitchOf (p : Nat) (r : Rec) : Nat := if p = 0 then r.box 0 * r.size else p

/-- Bytes that a box spans in scratchpad. -/
def boxSpan (r : Rec) (rows pitch : Nat) : Nat := (rows - 1) * pitch + r.box 0 * r.size

/-- A pitch below the row. -/
def pitchBad (p : Nat) (r : Rec) : Bool := p ≠ 0 && p < r.box 0 * r.size

/-- The coordinates that a box takes in each dimension. -/
def boxCoords (c : List Int) (r : Rec) : List (List Int) :=
  (List.range 5).map fun d => (List.range (r.box d)).map fun (i : Nat) => c.getD d 0 + (i : Int)

def State.copyRec (s : State) (sel : Nat) (b : List Byte) : List Byte := (s.slotRec (s.wgNo sel) (fld b 0 1)).getD []

/-- CPY, CPYW and CPYZ, which share one block (R244, R246). -/
def State.issueCopy (s : State) (op l : Nat) (o : X) : State :=
  let sel := s.actor
  let g := s.wgOf sel
  let no := s.wgNo sel
  let blk := s.blockAt sel l o
  let b := s.scrBytes g blk 32
  let x := s.copyRec sel b
  let r := recOf x
  let c := origin b
  let off := fld b 24 4
  let pitch := fld b 28 4
  let n := boxSpan r r.rows (pitchOf pitch r)
  let wr := op = 0x5A
  let sparse := op = 0x5B
  let tx := c.getD 0 0
  let ty := c.getD 1 0
  let mem : Option (Nat × Nat) :=
    if sparse then
      if 0 ≤ tx ∧ tx < (r.tiles 0 : Int) ∧ 0 ≤ ty ∧ ty < (r.tiles 1 : Int) then
        let slot := r.base + (ty.toNat * r.tiles 0 + tx.toNat) * r.stride 0
        some (slot, slot + r.stride 0 - 1)
      else none
    else r.touched (boxCoords c r)
  let locks := (mem.toList.map fun m => g.memLock no o.bar.val wr m.1 m.2) ++ [g.scrLock no o.bar.val (!wr) off n]
  s.issueOr sel op
    [fun _ => s.blockStop sel l blk 32,
     fun _ => layoutStop l blk (s.slotChecks sel (fld b 0 1) ++ [(wr && !r.dest, 0x82), (r.sparse ≠ sparse, 0x83), resv b 1 3] ++
       originChecks b r ++ [(pitchBad pitch r, 28)]),
     fun _ => deniedStop l g [(off, n)],
     fun _ => alignStop l [off, pitch],
     fun _ => s.barStop sel l o.bar.val]
    locks (fun s => ([], s)) { s.newOp sel l op o with blk := blk, block := b, layout := x } fun _ s => s

/-- CPY (R244). -/
def execCpy (o : X) (s : State) : Result :=
  .next (match s.elect 0x59 o.g [xBase o] with
    | .inl t => t
    | .inr (l, s) => s.issueCopy 0x59 l o)

/-- CPYW (R244). -/
def execCpyw (o : X) (s : State) : Result :=
  .next (match s.elect 0x5A o.g [xBase o] with
    | .inl t => t
    | .inr (l, s) => s.issueCopy 0x5A l o)

/-- CPYZ (R246). -/
def execCpyz (o : X) (s : State) : Result :=
  .next (match s.elect 0x5B o.g [xBase o] with
    | .inl t => t
    | .inr (l, s) => s.issueCopy 0x5B l o)

/-- The coordinates of row j of a gather, its index read from scratchpad. -/
def State.gatherAt (s : State) (g : Wg) (b : List Byte) (j : Nat) : List Int :=
  [sgn 32 (fld b 4 4), sgn 32 (s.scrNat g (fld b 20 4 + 4 * j) 4), sgn 32 (fld b 8 4), sgn 32 (fld b 12 4), sgn 32 (fld b 16 4)]

/-- CPYG (R247). -/
def execCpyg (o : X) (s : State) : Result :=
  .next (match s.elect 0x5D o.g [xBase o] with
    | .inl t => t
    | .inr (l, s) =>
      let sel := s.actor
      let g := s.wgOf sel
      let no := s.wgNo sel
      let blk := s.blockAt sel l o
      let b := s.scrBytes g blk 32
      let x := s.copyRec sel b
      let r := recOf x
      let n := fld b 2 2
      let idx := fld b 20 4
      let off := fld b 24 4
      let pitch := fld b 28 4
      let span := boxSpan r n (pitchOf pitch r)
      let c0 := sgn 32 (fld b 4 4)
      let coords : List (List Int) := [(List.range (r.box 0)).map fun (i : Nat) => c0 + (i : Int),
        (List.range n).map fun j => (s.gatherAt g b j).getD 1 0, [sgn 32 (fld b 8 4)], [sgn 32 (fld b 12 4)], [sgn 32 (fld b 16 4)]]
      let mem := r.touched coords
      s.issueOr sel 0x5D
        [fun _ => s.blockStop sel l blk 32,
         fun _ => layoutStop l blk (s.slotChecks sel (fld b 0 1) ++ [(r.sparse, 0x83), resv b 1 1, (n = 0 || n > 4096, 2),
           (r.rank ≤ 2 && fld b 8 4 ≠ 0, 8), (r.rank < 2, 0x09), (r.rank ≤ 3 && fld b 12 4 ≠ 0, 12), (r.rank ≤ 4 && fld b 16 4 ≠ 0, 16),
           (pitchBad pitch r, 28)]),
         fun _ => deniedStop l g [(idx, 4 * n), (off, span)],
         fun _ => alignStop l [idx, off, pitch],
         fun _ => s.barStop sel l o.bar.val]
        ((mem.toList.map fun m => g.memLock no o.bar.val false m.1 m.2) ++ [g.scrLock no o.bar.val false idx (4 * n), g.scrLock no o.bar.val true off span])
        (fun s => ([], s)) { s.newOp sel l 0x5D o with blk := blk, block := b, layout := x } fun _ s => s)

/-- The workgroup that a receiver-table entry names: of the issuing launch, on the issuer's die, and of the issuer's copy. -/
def State.receiver (s : State) (g : Wg) (lin : Nat) : Option (Nat × Wg) :=
  s.wgs.find? fun p => p.2.launch = g.launch && p.2.lin = lin && p.2.copy = g.copy && dieOf p.2.cluster = dieOf g.cluster && p.2.phase = .resident

/-- A receiver takes part: its barrier is configured and the box lies in its allocation (R248). -/
def State.receives (s : State) (wg : Nat) (h : Wg) (bar off n : Nat) : Bool :=
  (s.barrier wg bar).configured && decide (off + n ≤ h.alloc)

/-- CPYM (R248). -/
def execCpym (o : X) (s : State) : Result :=
  .next (match s.elect 0x5C o.g [xBase o, xAux o] with
    | .inl t => t
    | .inr (l, s) =>
      let sel := s.actor
      let g := s.wgOf sel
      let no := s.wgNo sel
      let blk := s.blockAt sel l o
      let b := s.scrBytes g blk 32
      let x := s.copyRec sel b
      let r := recOf x
      let count := fld b 1 1
      let table := (s.peek sel l (xAux o)).val
      let entries := (List.range count).map fun i => s.scrNat g (table + 4 * i) 4
      let off := fld b 24 4
      let n := boxSpan r r.rows (pitchOf 0 r)
      let got := entries.map fun t => (s.receiver g t).filter fun p => s.receives p.1 p.2 o.bar.val off n
      let mem := r.touched (boxCoords (origin b) r)
      let locks := (mem.toList.map fun m => g.memLock no o.bar.val false m.1 m.2) ++ [g.scrLock no o.bar.val true (blk + 28) 4] ++
        got.filterMap fun p => p.map fun q => q.2.scrLock q.1 o.bar.val true off n
      s.issueOr sel 0x5C
        [fun _ => s.blockStop sel l blk 32,
         fun _ => layoutStop l blk (s.slotChecks sel (fld b 0 1) ++ [(r.sparse, 0x83),
           (decide (1 ≤ count ∧ count ≤ 16) && (entries.any (fun t => t > 65535) || entries.eraseDups.length ≠ count), 0x85),
           (count = 0 || count > 16, 1), resv b 2 3] ++ originChecks b r),
         fun _ => deniedStop l g [(table, 4 * count)],
         fun _ => alignStop l [table, off],
         fun _ => s.barStop sel l o.bar.val]
        locks (fun s => ([], s))
        { s.newOp sel l 0x5C o with
          blk := blk
          block := b
          layout := x
          bar := none
          aux := o.bar.val
          parts := got.map fun p => match p with
            | some q => ⟨q.1, 0⟩
            | none => ⟨0, 3⟩ }
        fun _ s => s)

/-! ### Moving elements -/

/-- Moves items from an operation's progress on: whether all are done. -/
def State.copyLoop (s : State) (id : Nat) (e : EngOp) (total : Nat) (item : Nat → State → Eng Unit) : Nat → Bool × State
  | 0 => (false, s)
  | fuel + 1 =>
    if e.progress ≥ total then (true, s)
    else match item e.progress s with
      | .wait s => (false, s.modOp id fun x => { x with progress := e.progress })
      | .ok _ s => s.copyLoop id { e with progress := e.progress + 1 } total item fuel

/-- The scratchpad bytes that a copy into rows of a pitch writes. -/
def EngOp.covers (e : EngOp) (r : Rec) (rows pitch o : Nat) : Bool :=
  let off := fld e.block 24 4
  decide (off ≤ o ∧ (o - off) / pitch < rows ∧ (o - off) % pitch < r.box 0 * r.size)

/-- Writes one element into a scratchpad, with its poison mark. A word that begins here and that the copy writes whole loses its old mark
(R346). -/
def State.putElem (s : State) (g : Wg) (cov : Nat → Bool) (off : Nat) (bs : List Byte) (bad : Bool) : State :=
  let s := (s.scrPut g off bs).scrFresh g off bs.length cov
  if bad then s.scrMark g off bs.length else s

/-- Reads one element into a scratchpad; out of bounds it is zero. -/
def State.inElem (s : State) (id : Nat) (e : EngOp) (g : Wg) (cov : Nat → Bool) (size off : Nat) (va : Option Nat) : Eng Unit :=
  match va with
  | none => .ok () (s.putElem g cov off (List.replicate size 0) false)
  | some a => match s.engRead id e a size with
    | .wait s => .wait s
    | .ok (bs, bad) s => .ok () (s.putElem g cov off bs (bad.any (fun (x : Bool) => x)))

/-- The address and the scratchpad offset of the p-th element of CPY, CPYW and CPYM. -/
def EngOp.element (e : EngOp) (r : Rec) (pitch p : Nat) : Option Nat × Nat :=
  let i := r.index p
  let c := origin e.block
  (r.addr ((List.range 5).map fun d => c.getD d 0 + ((i.getD d 0 : Nat) : Int)), fld e.block 24 4 + p / r.box 0 * pitch + p % r.box 0 * r.size)

/-- CPY's elements. -/
def State.runCpy (s : State) (id : Nat) (e : EngOp) : State :=
  match s.wgs.look e.wg with
  | none => s.finishOp id true
  | some g =>
    let r := recOf e.layout
    let pitch := pitchOf (fld e.block 28 4) r
    let total := r.box 0 * r.rows
    let (done, s) := s.copyLoop id e total (fun p s => let x := e.element r pitch p; s.inElem id e g (e.covers r r.rows pitch) r.size x.2 x.1) (total + 1)
    if done then s.finishOp id false else s

/-- The global writes of a CPYW. -/
def State.cpywWrites (s : State) (e : EngOp) (g : Wg) (r : Rec) (pitch : Nat) : List (Nat × Byte) :=
  (List.range (r.box 0 * r.rows)).flatMap fun p =>
    let x := e.element r pitch p
    match x.1 with
    | some a => ((List.range r.size).zip (s.scrBytes g x.2 r.size)).map fun q => (a + q.1, q.2)
    | none => []

/-- CPYW's elements; it arrives once every home has acknowledged. -/
def State.runCpyw (s : State) (id : Nat) (e : EngOp) : State :=
  match s.wgs.look e.wg with
  | none => s.finishOp id true
  | some g =>
    let r := recOf e.layout
    let pitch := pitchOf (fld e.block 28 4) r
    let total := r.box 0 * r.rows
    let cov (va : Nat) : Bool := (List.range total).any fun p => ((e.element r pitch p).1.map fun a => decide (a ≤ va ∧ va < a + r.size)).getD false
    let item (p : Nat) (s : State) : Eng Unit :=
      let x := e.element r pitch p
      match x.1 with
      | none => .ok () s
      | some a =>
        let bad := s.scrBad g x.2 r.size
        (s.noteScr g x.2 r.size).engWrite id e a (s.scrBytes g x.2 r.size) (List.replicate r.size bad) cov
    let (done, s) := s.copyLoop id e total item (total + 1)
    let owed := ((s.engines.look id).map EngOp.tried).getD []
    if !done || owed.any (fun i => (s.flights.look i).isSome) then s
    else
      let s := if g.copy = 0 then s else s.chargeTerms e (writeTerms (mergeBytes (s.cpywWrites e g r pitch)))
      s.finishOp id false

/-- CPYG's elements. -/
def State.runCpyg (s : State) (id : Nat) (e : EngOp) : State :=
  match s.wgs.look e.wg with
  | none => s.finishOp id true
  | some g =>
    let r := recOf e.layout
    let pitch := pitchOf (fld e.block 28 4) r
    let total := r.box 0 * fld e.block 2 2
    let item (p : Nat) (s : State) : Eng Unit :=
      let j := p / r.box 0
      let c := s.gatherAt g e.block j
      let xs := c.set 0 (c.getD 0 0 + ((p % r.box 0 : Nat) : Int))
      s.inElem id e g (e.covers r (fld e.block 2 2) pitch) r.size (fld e.block 24 4 + j * pitch + p % r.box 0 * r.size) (r.addr xs)
    let (done, s) := s.copyLoop id e total item (total + 1)
    if done then s.finishOp id false else s

/-- The slot of a sparse tile; none outside the tensor. -/
def EngOp.tileSlot (e : EngOp) (r : Rec) : Option Nat :=
  let c := origin e.block
  let tx := c.getD 0 0
  let ty := c.getD 1 0
  if 0 ≤ tx ∧ tx < (r.tiles 0 : Int) ∧ 0 ≤ ty ∧ ty < (r.tiles 1 : Int) then
    some (r.base + (ty.toNat * r.tiles 0 + tx.toNat) * r.stride 0)
  else none

/-- Reads the mask of a tile in two halves. -/
def State.readMask (s : State) (id : Nat) (e : EngOp) (slot : Nat) : Eng (List Byte) :=
  match s.engRead id e slot 16 with
  | .wait s => .wait s
  | .ok (a, _) s => match s.engRead id e (slot + 16) 16 with
    | .wait s => .wait s
    | .ok (b, _) s => .ok (a ++ b) s

/-- CPYZ's elements, once the mask is read and fits its slot. -/
def State.tileElems (s : State) (id : Nat) (e : EngOp) (g : Wg) (r : Rec) (slot mask : Nat) : State :=
  let pitch := pitchOf (fld e.block 28 4) r
  let total := r.box 0 * r.box 1
  let count := ((List.range total).filter fun j => bit mask j).length
  if count * r.size + 32 > r.stride 0 then s.finishOp id true
  else
    let item (p : Nat) (s : State) : Eng Unit :=
      let nth := ((List.range p).filter fun j => bit mask j).length
      s.inElem id e g (e.covers r (r.box 1) pitch) r.size (fld e.block 24 4 + p / r.box 0 * pitch + p % r.box 0 * r.size)
        (if bit mask p then some (slot + 32 + nth * r.size) else none)
    let (done, s) := s.copyLoop id e total item (total + 1)
    if done then s.finishOp id false else s

/-- CPYZ (R246). -/
def State.runCpyz (s : State) (id : Nat) (e : EngOp) : State :=
  match s.wgs.look e.wg with
  | none => s.finishOp id true
  | some g =>
    let r := recOf e.layout
    match e.tileSlot r with
    | none =>
      let total := r.box 0 * r.box 1
      let pitch := pitchOf (fld e.block 28 4) r
      let s := (List.range total).foldl (fun s p =>
        s.putElem g (e.covers r (r.box 1) pitch) (fld e.block 24 4 + p / r.box 0 * pitch + p % r.box 0 * r.size) (List.replicate r.size 0) false) s
      s.finishOp id false
    | some slot =>
      match e.note with
      | mask :: _ => s.tileElems id e g r slot mask
      | [] => match s.readMask id e slot with
        | .wait s => s
        | .ok bs s =>
          let e' := { e with note := [ofBytes bs] }
          (s.modOp id fun _ => e').tileElems id e' g r slot (ofBytes bs)

/-! ### Multicast -/

/-- One receiver's outcome: its lock is released and, unless it has gone, its arrival made. -/
def State.endPart (s : State) (id part : Nat) (e : EngOp) (faulted arrives : Bool) : State :=
  match e.parts[part]? with
  | none => s
  | some p =>
    let st := if faulted || !arrives then 2 else 1
    let status := ((s.wgs.look e.wg).map fun g => g.rail * 148 + e.blk + 28).getD 0
    let s := { s with locks := s.locks.keep fun _ l => !(l.op = id && !l.isGlobal && l.wg = p.wg && l.dest && (l.wg ≠ e.wg || l.first ≠ status)) }
    let s := s.modOp id fun x => { x with parts := x.parts.set part { p with state := st }, progress := 0, phase := .running }
    if arrives then s.arriveAt p.wg e.aux faulted else s

/-- The status word of a multicast (R248). -/
def partStatus (ps : List Part) : Nat :=
  (((List.range ps.length).zip ps).map fun p => if p.2.state = 1 then 2 ^ p.1 else 2 ^ (16 + p.1)).foldl (· + ·) 0

/-- A multicast is over when every receiver's outcome stands. -/
def State.closeParts (s : State) (id : Nat) : State :=
  match s.engines.look id with
  | none => s
  | some e =>
    if e.parts.any fun p => p.state = 0 then s
    else
      let s := match s.wgs.look e.wg with
        | some g => s.scrPutNat g (e.blk + 28) 4 (partStatus e.parts)
        | none => s
      s.dropOp id

/-- One part of a CPYM. -/
def State.runPart (s : State) (id : Nat) (e : EngOp) (part : Nat) : State :=
  match e.parts[part]? with
  | none => s.closeParts id
  | some p =>
    if p.state ≠ 0 then s.closeParts id
    else if e.progress ≠ 0 && e.target ≠ part then s
    else
      let r := recOf e.layout
      match (s.wgs.look p.wg).filter fun h => h.phase = .resident || h.phase = .stopping with
      | none => (s.endPart id part e true false).closeParts id
      | some h =>
        let total := r.box 0 * r.rows
        if h.stashHits (fld e.block 24 4) (boxSpan r r.rows (pitchOf 0 r)) then (s.endPart id part e true true).closeParts id
        else
          let s := s.modOp id fun x => { x with target := part }
          let (done, s) := s.copyLoop id e total (fun i s => let x := e.element r (pitchOf 0 r) i; s.inElem id e h (e.covers r r.rows (pitchOf 0 r)) r.size x.2 x.1) (total + 1)
          if done then (s.endPart id part e false true).closeParts id else s

/-! ### The expert form (R245, R370 to R372) -/

/-- The destination tried next: the untried replica of least load, ties to the lower index, then the overflow buffer; 5 when none is left.
`note` holds the entry as the operation found it: control, replicas 0 to 3, overflow. -/
def State.nextExpert (s : State) (e : EngOp) : Nat :=
  let control := e.note.getD 0 0
  let d := dieOf e.cluster
  let expert := fld e.block 0 2
  let load (r : Nat) : Nat := s.loadCounters.get 0 ((d * 65536 + expert) * 4 + r)
  let left := (List.range (bits control 2 1 + 1)).filter fun r => !e.tried.contains r
  match left.foldl (fun (best : Option Nat) r => match best with
    | none => some r
    | some q => if load r < load q then some r else some q) none with
  | some r => r
  | none => if bit control 3 && !e.tried.contains 4 then 4 else 5

/-- Sends the claim for the next destination, or settles on a refusal. -/
def State.claimExpert (s : State) (id : Nat) : State :=
  s.modOp id fun e =>
    let t := s.nextExpert e
    { e with target := t, phase := if t = 5 then .done else .claiming }

/-- CPYW with the expert form (R245). -/
def execCpywExp (o : X) (s : State) : Result :=
  .next (match s.elect 0x5A o.g [xBase o] with
    | .inl t => t
    | .inr (l, s) =>
      let sel := s.actor
      let g := s.wgOf sel
      let no := s.wgNo sel
      let blk := s.blockAt sel l o
      let b := s.scrBytes g blk 32
      let rows := fld b 2 2
      let len := fld b 4 4
      let off := fld b 8 4
      let pitch := fld b 12 4
      let res := fld b 16 4
      let span := (rows - 1) * (if pitch = 0 then len else pitch) + len
      let x := s.experts.get Expert.zero (fld b 0 2)
      let ok := bit x.control 0 && x.vf % 64 = ((s.warps.look sel).map Warp.vf).getD 0
      s.issueOr sel 0x5A
        [fun _ => s.blockStop sel l blk 32,
         fun _ => layoutStop l blk [(rows = 0 || rows > 256, 2), (len % 4 ≠ 0 || len < 4 || len > 16384, 4),
           (pitch ≠ 0 && (pitch % 4 ≠ 0 || pitch < len), 12), resv b 20 31],
         fun _ => deniedStop l g [(off, span), (res, 8)],
         fun _ => alignStop l [off, res],
         fun _ => s.barStop sel l o.bar.val]
        [g.scrLock no o.bar.val false off span, g.scrLock no o.bar.val true res 8]
        (fun s => (x.control :: x.replicas ++ [x.overflow], s))
        { s.newOp sel l 0x5A o with blk := blk, block := b, phase := .done, target := 5 }
        fun id s => if ok then s.claimExpert id else s)

/-- The descriptor's address of the destination that an operation claims (R371). -/
def EngOp.descriptor (e : EngOp) : Nat := if e.target = 4 then e.note.getD 5 0 else e.note.getD (1 + e.target) 0

/-- EXPERT_CLAIM (R372): the descriptor's home serves the claim. A home in another package answers as that package does: freely (log 5). -/
def execExpertClaim (id : Nat) (s : State) : Result :=
  .next (match s.engines.look id with
    | none => s
    | some e =>
      if e.phase ≠ .claiming then s
      else
        let d := e.descriptor
        let rows := fld e.block 2 2
        if (s.ownDie d).isNone then
          let (v, s) := s.freeValue
          s.modOp id fun e => { e with phase := if v % 2 = 0 then .overflowed else .granted (v / 2 % 2 ^ 32) }
        else if !s.memAllows (engineMaster e.cluster) e.vf d true true then
          (s.logMem (engineMaster e.cluster) e.vf d true true).stopOp id 0x0A (accRead + accWrite) 0
        else
          let s := if s.hasPartials (lineOf d) then s.mergePartials (lineOf d) else s
          let s := s.checkRead d 24
          let claimed := s.homeNat (d + 16) 4
          if claimed + rows ≤ s.homeNat (d + 12) 4 && fld e.block 4 4 = s.homeNat (d + 8) 4 then
            let s := (s.mergeHome (bytesAt (d + 16) 4 (claimed + rows)) none e.vf 0xFFFFFE).2
            s.modOp id fun e => { e with phase := .granted claimed }
          else s.modOp id fun e => { e with phase := .overflowed })

/-- The load counter of an operation's replica. -/
def EngOp.loadKey (e : EngOp) : Nat := (dieOf e.cluster * 65536 + fld e.block 0 2) * 4 + e.target

/-- GRANT (R372): the rows go out to the granted buffer. -/
def execGrant (id : Nat) (s : State) : Result :=
  .next (match s.engines.look id with
    | none => s
    | some e =>
      match e.phase with
      | .granted first =>
        let rows := fld e.block 2 2
        let s := s.modOp id fun e => { e with phase := .sending, window := first, parts := List.replicate rows ⟨0, 0⟩ }
        if e.target < 4 then { s with loadCounters := s.loadCounters.set 0 e.loadKey (s.loadCounters.get 0 e.loadKey + rows) } else s
      | _ => s)

/-- OVERFLOW_REPLY (R372): another replica or the overflow buffer is tried. -/
def execOverflowReply (id : Nat) (s : State) : Result :=
  .next (match s.engines.look id with
    | none => s
    | some e =>
      if e.phase = .overflowed then (s.modOp id fun e => { e with tried := e.target :: e.tried }).claimExpert id else s)

/-- The rows below k have all been written, from a count on. -/
def filledFrom (done : List Nat) (k : Nat) : Nat → Nat
  | 0 => k
  | fuel + 1 => if done.contains k then filledFrom done (k + 1) fuel else k

/-- FILLED_ADVANCE (R372): one row of a grant is written at its home, which then advances the filled count as far as rows stand. -/
def execFilledAdvance (id row : Nat) (s : State) : Result :=
  .next (match s.engines.look id with
    | none => s
    | some e =>
      match e.parts[row]?, s.wgs.look e.wg with
      | some p, some g =>
        if e.phase ≠ .sending || p.state ≠ 0 then s
        else
          let d := e.descriptor
          let len := fld e.block 4 4
          let pitch := if fld e.block 12 4 = 0 then len else fld e.block 12 4
          let off := fld e.block 8 4 + row * pitch
          let done (s : State) : State :=
            let s := s.modOp id fun e => { e with parts := e.parts.set row ⟨0, 1⟩ }
            if e.target < 4 then { s with loadCounters := s.loadCounters.set 0 e.loadKey (s.loadCounters.get 0 e.loadKey - 1) } else s
          if (s.ownDie d).isNone then done s
          else
            let at' := s.homeNat d 8 + (e.window + row) * s.homeNat (d + 8) 4
            let bs := ((List.range len).zip (s.scrBytes g off len)).map fun q => (at' + q.1, q.2)
            if bs.any fun b => !s.memAllows (engineMaster e.cluster) e.vf b.1 false true then
              (s.logMem (engineMaster e.cluster) e.vf at' false true).stopOp id 0x0A accWrite 0
            else
              let marks := (List.range len).filter fun i => s.scrBad g (off + i) 1
              let s := (byLine bs).foldl (fun s grp =>
                let (t, s) := s.mergeHome grp (some (s.cluster e.cluster).pts.toNat) e.vf e.launch
                match t with
                | some x => s.raisePts e.cluster x
                | none => s) (s.noteScr g off len)
              let s := marks.foldl (fun s i => s.markBad (at' + i)) s
              let rows := (e.window + row) :: s.rowsWritten.get [] d
              let filled := filledFrom rows (s.homeNat (d + 20) 4) rows.length
              let s := { s with rowsWritten := s.rowsWritten.set [] d (rows.filter fun k => k ≥ filled) }
              done (s.mergeHome (bytesAt (d + 20) 4 filled) none e.vf 0xFFFFFE).2
      | _, _ => s)

/-- The end of an expert copy: the result record, then the arrival. -/
def State.runExpert (s : State) (id : Nat) (e : EngOp) : State :=
  let settled := e.phase = .done || (e.phase = .sending && e.parts.all fun p => p.state = 1)
  if !settled then s
  else
    let s := match s.wgs.look e.wg with
      | some g => s.scrPut g (fld e.block 16 4) (toBytes 4 e.target ++ toBytes 4 (if e.target = 5 then 0 else e.window))
      | none => s
    s.finishOp id false

end Sys2Proof.Machine
end

