-- ==== Sys2Proof/Machine/Forward.lean ====
section
/-! DEFINITION. Instructions of which the leading copy of a redundant pair alone performs the effect, with what the trailing copy then
receives (R355). -/

namespace Sys2Proof.Machine

/-! ### Result records -/

/-- Writes bytes of the scratchpad of a workgroup that still stands. -/
def State.putScr (s : State) (wg off : Nat) (bs : List Byte) : State :=
  match s.wgs.look wg with
  | none => s
  | some g => s.scrPut g off bs

/-- The trailing copy of a leading workgroup. -/
def State.trailOf (s : State) (wg : Nat) : Option Nat :=
  (s.wgs.look wg).bind fun g => if g.copy = 1 then (s.pairs.look g.pair).map Pair.trail else none

/-- Writes a result of an operation into the scratchpad of its workgroup, and at the same moment into the trailing copy's. -/
def State.putResult (s : State) (e : EngOp) (off : Nat) (bs : List Byte) : State :=
  let s := s.putScr e.wg off bs
  match s.trailOf e.wg with
  | some t => s.putScr t off bs
  | none => s

/-- A 32-bit word of a result. -/
def State.putWord (s : State) (e : EngOp) (off x : Nat) : State := s.putResult e off (Num.toBytes 4 x)

/-! ### Results in registers -/

/-- A long-latency destination of an operation fills. -/
def State.fillOp (s : State) (e : EngOp) (x : Nat) (poison : Option Nat) : State :=
  match e.dst with
  | some d => (s.fillDst d x poison none).noteFilled d
  | none => s

/-- What SEQV sets of a warp: %seq, %view, %width and %rank (R255). -/
def State.setView (s : State) (sel wg : Nat) (xs : List Nat) : State :=
  s.modWarp sel fun w => if w.wg ≠ wg then w else { w with
    seq := BitVec.ofNat 32 (xs.getD 0 0)
    view := BitVec.ofNat 32 (xs.getD 1 0)
    width := BitVec.ofNat 32 (xs.getD 2 0)
    rank := BitVec.ofNat 32 (xs.getD 3 0) }

/-- An operation's result in its own warp. Of the list, the first number says that the operation is faulted, the second is the register's
value, the third says that it is poisoned, the rest are SEQV's view. -/
def State.takeResult (s : State) (e : EngOp) (xs : List Nat) : State :=
  let s := s.fillOp e (xs.getD 1 0) (if xs.getD 2 0 = 1 then some 0 else none)
  if e.opcode = 0x76 then s.setView e.warp e.wg (xs.drop 3) else s

/-- An operation completes: its result, its arrival, and the same for the trailing copy, whose operation it completes or whose instruction
will find the result in the compare buffer. -/
def State.finishPair (s : State) (id : Nat) (xs : List Nat) : State :=
  match s.engines.look id with
  | none => s
  | some e =>
    let faulted := xs.getD 0 0 = 1
    let s := (s.takeResult e xs).finishOp id faulted
    match (s.wgs.look e.wg).filter fun g => g.copy = 1 with
    | none => s
    | some g =>
      match s.engines.first fun _ x => decide (x.phase = .mirror id) with
      | some (i, x) => (s.takeResult x xs).finishOp i faulted
      | none => s.forwarded g.pair (fun x => x.opId = id) xs

/-! ### Issue -/

/-- Issues an operation of a plain workgroup or of a leading copy. A point of no return first commits the open regions (R219). -/
def State.issueShared (s : State) (sel l op : Nat) (final : Bool) (checks : List (Unit → Option Stop)) (locks : List (Nat × Lock)) (e : EngOp)
    (eff : Nat → State → State) : State :=
  match firstStop ((fun (_ : Unit) => s.roomGate sel 1) :: checks ++
      [fun (_ : Unit) => if final then s.commitStop sel [l] else none, fun (_ : Unit) => s.issueStall sel op locks]) with
  | some st => s.halt sel st
  | none =>
    let run (s : State) : State :=
      let (id, s) := s.issueOp { e with order := s.nextId } locks
      eff id (s.forward sel l [] false id)
    (if final then s.noReturn sel [l] run else run s).go

/-- Issues a trailing copy's instruction: it waits until the leading copy has issued it, and is complete when the leading copy's is. It makes
no check of its own. -/
def State.issueTrailing (s : State) (sel l : Nat) (final : Bool) (e : EngOp) (mark : State → State) : State :=
  let g := s.wgOf sel
  let no := s.fibreNo (fibreKey sel l)
  match s.nextForward g no with
  | none => s.halt sel (.block [(l, .doubled g.pair no)])
  | some x =>
    match s.stallIf (s.acquiring sel || s.enginesFull sel) with
    | some st => s.halt sel st
    | none =>
      let run (s : State) : State :=
        let e := { e with phase := .mirror x.opId, order := s.nextId }
        let (id, s) := (mark (s.takeForward g no)).issueOp e []
        if x.ready then (s.takeResult e x.vals).finishOp id (decide (x.vals.getD 0 0 = 1)) else s
      (if final then s.noReturn sel [l] run else run s).go

end Sys2Proof.Machine
end

