-- ==== Sys2Proof/Machine/Stream.lean ====
section
/-! DEFINITION. Operand streams, the batch-forming queues that feed them, and the scatter of a batch's results (R237 to R240, R264). -/

namespace Sys2Proof.Machine

open Sys2Proof.Num (bits bit toBytes)

/-! ### SOPEN, SSUB and SCLOSE -/

/-- Stream number of a block's byte 0. -/
def blockStream (b : List Byte) : Nat := fld b 0 1

/-- The stream of a die that a job feeds, if one does. -/
def State.jobStream (s : State) (die job : Nat) : Option (Nat × Stream) :=
  s.streams.first fun k x => decide (k / 64 = die ∧ x.job = some job)

/-- The bytes of scratchpad that a stream's rows span. -/
def streamSpan (h len pitch windows : Nat) : Nat := (windows * h - 1) * pitch + len

/-- SOPEN (R237): the stream is registered at issue (log 20); its source lock stands until SCLOSE's arrival. -/
def execSopen (o : X) (s : State) : Result :=
  .next (match s.elect 0x54 o.g [xBase o] with
    | .inl t => t
    | .inr (l, s) =>
      let sel := s.actor
      let c := clusterOf sel
      let d := dieOf c
      let g := s.wgOf sel
      let blk := s.blockAt sel l o
      let b := s.scrBytes g blk 32
      let n := blockStream b
      let isJob := bit o.flags.val 0
      let h := fld b 2 2
      let len := fld b 4 4
      let org := fld b 8 4
      let pitch := fld b 12 4
      let windows := fld b 16 4
      let k := streamKey d n
      let span := streamSpan h len pitch windows
      let locks := if isJob then [] else [g.scrLock (s.wgNo sel) 0 false org span]
      match firstStop [fun _ => s.blockStop sel l blk 32,
          fun _ => layoutStop l blk [(n > 63, 0), (fld b 1 1 = 0 || fld b 1 1 > 48, 1), (h = 0 || h > 128, 2),
            (len % 4 ≠ 0 || len < 4 || len > 8192, 4), (isJob && org > 31, 8), (if isJob then pitch = 0 else pitch % 4 ≠ 0 || pitch < len, 12),
            (if isJob then windows ≠ 0 else windows = 0 || windows > 1048576, 16), resv b 20 31],
          fun _ => if isJob then none else deniedStop l g [(org, span)],
          fun _ => if isJob then none else alignStop l [org],
          fun _ => streamStop l n ((s.streams.look k).isSome || (isJob && (s.jobStream d org).isSome)),
          fun _ => s.unitStop sel l d 54 false true,
          fun _ => s.issueStall sel 0x54 locks] with
      | some st => s.halt sel st
      | none =>
        let x : Stream := {
          ety := o.ety.code, job := if isJob then some org else none, subs := fld b 1 1, h := h, len := len, origin := if isJob then 0 else org,
          pitch := if isJob then 0 else pitch, windows := windows, deadline := if isJob then pitch else 0, cluster := c, wg := s.wgNo sel,
          vf := ((s.warps.look sel).map Warp.vf).getD 0, members := [], delivered := 0, closing := none, batches := [], pending := [] }
        let s := locks.foldl (fun s p => s.takeLocks p.1 [{ p.2 with op := streamLock k }]) s
        let s := { s with streams := s.streams.put k x }
        (s.issueOp { s.newOp sel l 0x54 o with blk := blk, block := b, bar := none } []).2.go)

/-- SSUB (R238). A cluster that joins once windows have been delivered takes part from the next one (log 20). -/
def execSsub (o : X) (s : State) : Result :=
  .next (match s.elect 0x55 o.g [xBase o] with
    | .inl t => t
    | .inr (l, s) =>
      let sel := s.actor
      let c := clusterOf sel
      let d := dieOf c
      let g := s.wgOf sel
      let blk := s.blockAt sel l o
      let b := s.scrBytes g blk 32
      let k := streamKey d (blockStream b)
      let land := fld b 4 4
      let x := s.streams.look k
      let span := (x.map fun x => 2 * x.h * x.len).getD 0
      let refused := match x with
        | none => true
        | some x => (x.sub c).isSome || decide (x.members.length ≥ x.subs)
      let locks := [g.scrLock (s.wgNo sel) o.bar.val true land span]
      s.issueOr sel 0x55
        [fun _ => s.blockStop sel l blk 32,
         fun _ => layoutStop l blk [(blockStream b > 63, 0), (fld b 1 1 = 0, 1), resv b 2 3, resv b 8 31],
         fun _ => deniedStop l g [(land, span)],
         fun _ => alignStop l [land],
         fun _ => s.barStop sel l o.bar.val,
         fun _ => streamStop l (blockStream b) refused,
         fun _ => s.unitStop sel l d 54 true false]
        locks (fun s => ([], s)) { s.newOp sel l 0x55 o with blk := blk, block := b } fun id s =>
        { s with streams := s.streams.modify k fun x =>
            let past := x.delivered * fld b 1 1
            { x with members := x.members ++ [(⟨c, s.wgNo sel, fld b 1 1, land, id, past, past⟩ : Sub)] } })

/-- A job's pending rows become a window. -/
def Stream.closeBatch (x : Stream) : Stream :=
  if x.pending.isEmpty then x else { x with batches := x.batches ++ [x.pending], pending := [] }

/-- SCLOSE (R239). -/
def execSclose (o : X) (s : State) : Result :=
  .next (match s.elect 0x56 o.g [xBase o] with
    | .inl t => t
    | .inr (l, s) =>
      let sel := s.actor
      let c := clusterOf sel
      let blk := s.blockAt sel l o
      let b := s.scrBytes (s.wgOf sel) blk 32
      let k := streamKey (dieOf c) (blockStream b)
      let refused := match s.streams.look k with
        | none => true
        | some x => decide (x.cluster ≠ c) || x.closing.isSome
      s.issueOr sel 0x56
        [fun _ => s.blockStop sel l blk 32,
         fun _ => layoutStop l blk [(blockStream b > 63, 0), resv b 1 31],
         fun _ => s.barStop sel l o.bar.val,
         fun _ => streamStop l (blockStream b) refused,
         fun _ => s.unitStop sel l (dieOf c) 54 false true]
        [] (fun s => ([], s)) { s.newOp sel l 0x56 o with blk := blk, block := b } fun id s =>
        { s with streams := s.streams.modify k fun x => { x.closeBatch with closing := some id } })

/-! ### Completion -/

/-- An operation in flight still uses a stream: a consumption that waits for a window, or a scatter of one. -/
def EngOp.uses (e : EngOp) (die n : Nat) : Bool :=
  dieOf e.cluster = die && ((e.opcode = 0x50 && ((bit e.flags 1 && streamNo e.block 0 = n) || (bit e.flags 2 && streamNo e.block 8 = n))) ||
    (e.opcode = 0x51 && bit e.flags 1 && streamNo e.block 0 = n) || (e.opcode = 0x52 && bit e.flags 1 && fld e.block 28 1 = n))

/-- SOPEN completes: the stream is registered. -/
def State.runSopen (s : State) (id : Nat) : State := s.finishOp id false

/-- SSUB arrives once this subscriber has consumed the last window replay times, or the stream has gone. -/
def State.runSsub (s : State) (id : Nat) (e : EngOp) : State :=
  match (s.streams.look (streamKey (dieOf e.cluster) (blockStream e.block))).bind fun x => (x.members.find? fun m => m.op = id).map fun m => (x, m) with
  | none => s.finishOp id false
  | some (x, m) => if x.final && m.finished x then s.finishOp id false else s

/-- SCLOSE arrives once every subscriber has consumed every window: the number is free, the source lock is released, and a row of the
job's that was never scattered gives its BFQJ a faulted arrival (R264). -/
def State.runSclose (s : State) (id : Nat) (e : EngOp) : State :=
  let d := dieOf e.cluster
  let k := streamKey d (blockStream e.block)
  match s.streams.look k with
  | none => s.finishOp id false
  | some x =>
    if !(x.members.all fun m => m.finished x) || s.engines.any fun p => p.2.uses d (blockStream e.block) then s
    else
      let s := ({ s with streams := s.streams.del k }).dropLocks (streamLock k)
      let lost := x.batches.flatMap fun rows => rows.filter fun r => !r.scattered
      (lost.foldl (fun s r => s.finishPair r.op [1]) s).finishOp id false

/-! ### Distribution (R238) -/

/-- A row's bytes with their poison, as the distributor reads them; none while its workgroup is pre-empted. A row whose workgroup has
gone is zero. -/
def State.streamRow (s : State) (x : Stream) (w j : Nat) : Option (List (Byte × Bool)) :=
  let zero := List.replicate x.len ((0 : Byte), false)
  let from' (wg off : Nat) : Option (List (Byte × Bool)) := match s.wgs.look wg with
    | none => some zero
    | some g => some ((List.range x.len).map fun i => (s.scrGet g (off + i), s.scrBad g (off + i) 1))
  if x.job.isNone then from' x.wg (x.origin + (w * x.h + j) * x.pitch)
  else match (x.batches.getD w [])[j]? with
    | some r => from' r.wg r.offset
    | none => some zero

/-- Writes a window into a subscriber's landing slot, with its marks. -/
def State.landWindow (s : State) (x : Stream) (w : Nat) (m : Sub) (rows : List (List (Byte × Bool))) : State :=
  match s.wgs.look m.wg with
  | none => s
  | some g =>
    let base := m.land + w % 2 * (x.h * x.len)
    ((List.range rows.length).zip rows).foldl (fun s r =>
      let s := s.scrPut g (base + r.1 * x.len) (r.2.map Prod.fst)
      ((List.range r.2.length).zip r.2).foldl (fun s b => if b.2.2 then s.scrMark g (base + r.1 * x.len + b.1) 1 else s) s) s

/-- STREAM_WINDOW_DELIVER: the next window goes to every subscriber, once distribution has begun and each has consumed the window two
before it. A pre-empted subscriber or source holds it back. -/
def execStreamWindowDeliver (die stream : Nat) (s : State) : Result :=
  .next (match s.streams.look (streamKey die stream) with
    | none => s
    | some x =>
      let w := x.delivered
      let begun := decide (x.members.length ≥ x.subs) || x.closing.isSome
      let room := x.members.all fun m => decide ((w - 1) * m.replay ≤ m.consumed)
      let away := x.members.any fun m => ((s.wgs.look m.wg).map fun g => decide (g.phase = .saved)).getD false
      let rows := (List.range x.h).map fun j => s.streamRow x w j
      if w ≥ x.total || !begun || !room || away || rows.any Option.isNone then s
      else
        let s := match (if x.job.isNone then s.wgs.look x.wg else none) with
          | some g => s.noteScr g (x.origin + w * x.h * x.pitch) (streamSpan x.h x.len x.pitch 1)
          | none => (x.batches.getD w []).foldl (fun s (r : Row) => match s.wgs.look r.wg with
              | some g => s.noteScr g r.offset x.len
              | none => s) s
        let s := x.members.foldl (fun s m => s.landWindow x w m (rows.map fun (r : Option (List (Byte × Bool))) => r.getD [])) s
        { s with streams := s.streams.modify (streamKey die stream) fun x => { x with delivered := w + 1 } })

/-! ### The batch-forming queues (R264) -/

/-- BATCH_DEADLINE: a batch whose oldest row has waited D cycles of the queue's clock closes as a window. -/
def execBatchDeadline (die job : Nat) (s : State) : Result :=
  .next (match s.jobStream die job with
    | none => s
    | some (k, x) =>
      match x.pending with
      | [] => s
      | r :: _ => if (s.die die).queueClock < r.entered + x.deadline then s else { s with streams := s.streams.put k x.closeBatch })

/-- BFQJ (R264): a row joins its job's queue; h rows make a window. -/
def execBfqj (o : X) (s : State) : Result :=
  .next (match s.elect 0x77 o.g [xBase o] with
    | .inl t => t
    | .inr (l, s) =>
      let sel := s.actor
      let d := dieOf (clusterOf sel)
      let g := s.wgOf sel
      let blk := s.blockAt sel l o
      let b := s.scrBytes g blk 32
      let e := { s.newOp sel l 0x77 o with blk := blk, block := b }
      if s.trailing sel then s.issueTrailing sel l true e id
      else
        let job := fld b 0 1
        let off := fld b 4 4
        let result := fld b 8 4
        let x := (s.jobStream d job).filter fun p => p.2.closing.isNone
        let len := (x.map fun p => p.2.len).getD 0
        s.issueShared sel l 0x77 true
          [fun _ => s.blockStop sel l blk 32,
           fun _ => layoutStop l blk [(job > 31, 0), resv b 1 3, resv b 12 31],
           fun _ => deniedStop l g [(off, len)],
           fun _ => alignStop l [off, result],
           fun _ => s.barStop sel l o.bar.val,
           fun _ => streamStop l job x.isNone,
           fun _ => s.unitStop sel l d 54 false true,
           fun _ => s.stallIf ((x.map fun p => decide (p.2.pending.length ≥ 1024)).getD false)]
          [g.scrLock (s.wgNo sel) o.bar.val false off len] e fun id s =>
          match x with
          | none => s
          | some (k, _) =>
            let r : Row := ⟨id, s.wgNo sel, off, result, o.bar.val, (s.die d).queueClock, false⟩
            { s with streams := s.streams.modify k fun x =>
                let x := { x with pending := x.pending ++ [r] }
                if x.pending.length ≥ x.h then x.closeBatch else x })

/-! ### Scatter (R240) -/

/-- A row has been scattered: its BFQJ arrives, the first time. -/
def State.scatterDone (s : State) (k win m : Nat) (r : Row) : State :=
  if r.scattered then s.arriveAt r.wg r.bar false
  else
    let s := { s with streams := s.streams.modify k fun x => { x with
        batches := x.batches.modify win fun rows => rows.modify m fun r => { r with scattered := true } } }
    s.finishPair r.op [0]

/-- Writes one row's outputs into its contributor, and the trailing copy of one, with their poison. -/
def State.scatterRow (s : State) (wg off size : Nat) (xs : List (Nat × Bool)) : State :=
  let put (s : State) (w : Nat) : State := match s.wgs.look w with
    | none => s
    | some g => s.putOuts g off size xs
  match s.trailOf wg with
  | some t => put (put s wg) t
  | none => put s wg

/-- SCATTER_ARRIVAL: part `row` of a scatter ACCMV writes its row's result into the row's contributor and arrives on the barrier that BFQJ
recorded. A row whose contributor has gone is dropped. -/
def execScatterArrival (id row : Nat) (s : State) : Result :=
  .next (match s.engines.look id with
    | none => s
    | some e =>
      match e.parts[row]? with
      | none => s
      | some p =>
        if e.opcode ≠ 0x52 || !bit e.flags 1 || p.state ≠ 0 || s.rowsBusy id e then s
        else
          let b := e.block
          let m := e.note.getD (row + 1) 0
          let win := e.note.headD 1 - 1
          let size := outSize (etyOf e.ety)
          let nc := fld b 10 2
          let k := streamKey (dieOf e.cluster) (fld b 28 1)
          let done (st : Nat) (s : State) : State := s.modOp id fun e => { e with parts := e.parts.set row { p with state := st } }
          let r := (s.streams.look k).bind fun x => (x.batches.getD win [])[m]?
          match r, s.wgs.look e.wg with
          | some r, some g =>
            match s.contributorOf r (fld b 12 4) (nc * size) with
            | some h =>
              let off := r.result + fld b 12 4
              let s := s.scatterRow r.wg off size ((List.range nc).map fun j => s.accOut g e m (fld b 6 2 + j))
              let first := h.rail * 148 + off
              let s := { s with locks := s.locks.keep fun k l => !(l.op = id && k / 64 = h.cluster && l.dest && l.first = first) }
              done 1 (s.scatterDone k win m r)
            | none => done 2 s
          | _, _ => done 2 s)

end Sys2Proof.Machine
end

