-- ==== Sys2Proof/Machine/Pool.lean ====
section
/-! DEFINITION. The KV pools, the level-0 entries of KV pages, and the pages of a sequence as they are backed, shared, freed and moved
(R188, R189, R252, R258, R269, R333 to R335). -/

namespace Sys2Proof.Machine

open Sys2Proof.Num (bits bit)

/-! ### Pools (R333, R334) -/

/-- What taking a page answers. -/
inductive Take where
  | page (pa : Nat)
  | empty
  | wait               -- the entry at head is reserved and not yet filled
deriving DecidableEq, Repr, Inhabited

/-- The descriptor of a die's pool, in the fault area of the virtual function. -/
def State.poolAt (s : State) (vf d : Nat) : Nat := s.faultArea vf + 131136 + 32 * d

/-- The ring of a pool and its size; none where there is no pool, or its size is out of range. -/
def State.poolRing (s : State) (vf d : Nat) : Option (Nat × Nat) :=
  let a := s.poolAt vf d
  let size := s.homeNat (a + 8) 4
  if s.faultArea vf = 0 || s.homeNat a 8 = 0 || size < 16 || size > 65536 || size ≠ 2 ^ Nat.log2 size then none
  else some (s.homeNat a 8, size)

/-- Takes the page at head; pages that are retired are discarded. -/
def State.poolTake (s : State) (vf d : Nat) : Nat → Take × State
  | 0 => (.wait, s)
  | fuel + 1 =>
    match s.poolRing vf d with
    | none => (.empty, s)
    | some (ring, size) =>
      let a := s.poolAt vf d
      let head := s.homeNat (a + 12) 4
      if head = s.homeNat (a + 16) 4 then (.empty, s)
      else
        let slot := ring + 8 * (head % size)
        let p := s.homeNat slot 8
        if p = 0 then (.wait, s)
        else if !s.memAllows (unitMaster d) vf slot true true then (.empty, s.logMem (unitMaster d) vf slot true true)
        else if !s.memAllows (unitMaster d) vf a true true then (.empty, s.logMem (unitMaster d) vf a true true)
        else
          let s := (s.unitWrite d vf (bytesAt slot 8 0)).unitWrite d vf (bytesAt (a + 12) 4 (head + 1))
          if s.isRetired p then s.poolTake vf d fuel else (.page p, s)

/-- A page goes back to the pool of the die that homes it; migrations that wait for that pool are retried. Another package's pool is not
modelled (log 5). -/
def State.poolGive (s : State) (vf page : Nat) : State :=
  if (s.ownDie page).isNone then s
  else
    let d := homeOf page % 4
    let s := match s.poolRing vf d with
      | none => s
      | some (ring, size) =>
        let a := s.poolAt vf d
        let tail := s.homeNat (a + 16) 4
        (s.unitWrite d vf (bytesAt (a + 16) 4 (tail + 1))).unitWrite d vf (bytesAt (ring + 8 * (tail % size)) 8 page)
    { s with migrations := s.migrations.mapv fun q m =>
        let owner (i : Nat) : Nat := s.seqMember q (s.ownerRank q (i * s.seqPerPage q) (s.seqWidth q))
        { m with moves := m.moves.map fun (x : Move) => if owner x.page = s.package * 4 + d then { x with waiting := false } else x } }

/-- Takes a page from the pool of a global die for a sequence. A die of another package answers as that package does: freely (log 5). -/
def State.takePage (s : State) (vf die : Nat) : Take × State :=
  if die / 4 = s.package then s.poolTake vf (die % 4) 65537
  else
    let (x, s) := s.freeValue
    (if x % 2 = 0 then .empty else .page (die % 2 ^ 14 * 2 ^ 38 + x / 2 % 2 ^ 21 * 65536), s)

/-! ### Level-0 entries (R334) -/

/-- The table that holds the level-0 entries of an address, when the entries above are present. -/
def State.leafTable (s : State) (vf va : Nat) : Option Nat :=
  let root := (s.ptroot.get 0 vf).toNat
  let down (level table : Nat) : Option Nat :=
    let e := s.homeNat (table + 8 * (va / 2 ^ (12 + 9 * level) % 512)) 8
    if e % 4 = 1 then some (bits e 51 12 * 4096) else none
  if !bit root 0 then none
  else (down 3 (bits root 51 12 * 4096)).bind fun t => (down 2 t).bind fun t => down 1 t

/-- A level-0 entry of a KV page: type 3, or type 2 with cow for a shared page; contig, kind 0. -/
def kvLeaf (vf lease frame : Nat) (shared : Bool) : Nat :=
  (if shared then 2 + 8 else 3) + 4 + lease % 32 * 128 + frame + lease / 32 % 8 * 2 ^ 52 + vf * 2 ^ 58

/-- Writes the 16 entries of a 64 KiB page, or type 0 into all of them, and drops their translations. -/
def State.writeLeaves (s : State) (vf va : Nat) (entry : Nat → Nat) : State :=
  match s.leafTable vf va with
  | none => s
  | some t =>
    let first := va / 4096 % 512 / 16 * 16
    let s := (List.range 16).foldl (fun s i => s.seqWrite vf (bytesAt (t + 8 * (first + i)) 8 (entry i))) s
    (List.range 16).foldl (fun s i => s.tlbDropVa vf (va / 65536 * 65536 + 4096 * i)) s

/-- The virtual address of a page index. -/
def State.kvAddr (s : State) (q i : Nat) : Nat := s.seqKvBase q + 65536 * i

/-- Maps a page of a sequence. -/
def State.mapKv (s : State) (q i page : Nat) (shared : Bool) : State :=
  s.writeLeaves (s.seqVf q) (s.kvAddr q i) fun k => kvLeaf (s.seqVf q) (s.seqNat q 63 1) (page + 4096 * k) shared

/-- Unmaps a page of a sequence. -/
def State.unmapKv (s : State) (q i : Nat) : State := s.writeLeaves (s.seqVf q) (s.kvAddr q i) fun _ => 0

/-! ### Pages of a sequence -/

/-- One reference of a page goes: a page that is not shared, or whose count reaches zero, returns to its pool (R252). -/
def State.dropRef (s : State) (vf page : Nat) (shared : Bool) : State :=
  if !shared then s.poolGive vf page
  else
    let n := s.pageCount page
    let s := s.setPageCount vf page (n - 1)
    if n ≤ 1 then s.poolGive vf page else s

/-- A page index of a sequence is freed (R189): unmapped, dropped from the list, its reference returned. A migration of it ends, and its
new page goes back. -/
def State.freeKv (s : State) (q i : Nat) : State :=
  let e := s.kvEntry q i
  let move := (s.migrations.look q).bind fun m => m.moves.find? fun (x : Move) => x.page = i
  let s := (s.unmapKv q i).setKv q i 0
  let s := { s with migrations := s.migrations.modify q fun m => { m with moves := m.moves.filter fun (x : Move) => x.page ≠ i } }
  let s := match move.bind Move.new with
    | some p => s.poolGive (s.seqVf q) p
    | none => s
  s.dropRef (s.seqVf q) (kvPage e) (kvShared e)

/-- Copies a 64 KiB page at its home, line by line, with its poison. -/
def State.copyPage (s : State) (vf old new : Nat) : State :=
  (List.range 256).foldl (fun s k =>
    let s := s.checkRead (old + 256 * k) 256
    let bs := (List.range 256).map fun i => (new + 256 * k + i, s.homeByte (old + 256 * k + i))
    let bad := (List.range 32).filter fun i => s.badWord (old + 256 * k + 8 * i)
    let s := (s.mergeHome bs none vf 0xFFFFFE).2
    bad.foldl (fun s i => s.markBad (new + 256 * k + 8 * i)) s) s

/-- The global die that owns a page index at a width of a member list. -/
def State.pageOwner (s : State) (q i : Nat) : Nat := s.seqMember q (s.ownerRank q (i * s.seqPerPage q) (s.seqWidth q))

/-- A warp of a context that a debugger halt holds is bound to the sequence (R287). -/
def State.seqHalted (s : State) (q : Nat) : Bool :=
  s.warps.any fun p => p.2.bound = some q && s.halts.contains p.2.launch

/-! ### PGAL and PGFR (R188, R189) -/

/-- Writes the record of a PGAL or PGFR and completes it. -/
def State.pageDone (s : State) (id : Nat) (e : EngOp) (status window : Nat) : State :=
  ((s.putWord e e.blk status).putWord e (e.blk + 4) window).finishPair id [0]

/-- PGAL's completion. -/
def State.runPgal (s : State) (id : Nat) (e : EngOp) : State :=
  let q := e.seq
  let i := e.aux
  if i ≥ s.seqKvLimit q then s.pageDone id e 4 0
  else if kvState (s.kvEntry q i) ≠ 0 then s.pageDone id e 2 0
  else if (s.leafTable (s.seqVf q) (s.kvAddr q i)).isNone then s.pageDone id e 5 0
  else match s.takePage (s.seqVf q) (s.pageOwner q i) with
    | (.wait, _) => s
    | (.empty, s) => s.pageDone id e 3 0
    | (.page p, s) =>
      let opened := s.seqFlag q 4
      let s := s.mapKv q i p false
      let s := s.setKv q i (if opened then kvMake (s.seqWindow q) 2 p false false else kvMake 0 1 p false false)
      s.pageDone id e (if opened then 1 else 0) (if opened then s.seqWindow q else 0)

/-- PGFR's completion. -/
def State.runPgfr (s : State) (id : Nat) (e : EngOp) : State :=
  let q := e.seq
  let i := e.aux
  if i ≥ s.seqKvLimit q then s.pageDone id e 4 0
  else
    let x := s.kvEntry q i
    match kvState x with
    | 2 => (s.freeKv q i).pageDone id e 0 0
    | 1 | 3 =>
      if s.seqFlag q 4 then (s.setKv q i (kvMake (kvWindow x) 3 (kvPage x) (kvShared x) (kvMoving x))).pageDone id e 1 (s.seqWindow q)
      else (s.freeKv q i).pageDone id e 0 0
    | _ => s.pageDone id e 2 0

/-- No bound sequence raises SEQ_STATE. -/
def State.boundStop (s : State) (sel l : Nat) : Option Stop :=
  if ((s.warps.look sel).bind Warp.bound).isSome then none else some (.trap ⟨0x16, l, 0, 0xFFFFFFFF, 0⟩)

/-- The bound sequence of a warp, once it has one. -/
def State.boundSeq (s : State) (sel : Nat) : Nat := ((s.warps.look sel).bind Warp.bound).getD 0

/-- Issues PGAL or PGFR, whose operands and record are the same. -/
def State.issuePage (s : State) (l op : Nat) (o : X) : State :=
  let sel := s.actor
  let blk := s.blockAt sel l o
  let e := { s.newOp sel l op o with blk := blk, aux := (s.peek sel l (xAux o)).val, seq := s.boundSeq sel }
  if s.trailing sel then s.issueTrailing sel l true e id
  else s.issueShared sel l op true
    [fun _ => s.blockStop sel l blk 8, fun _ => s.barStop sel l o.bar.val, fun _ => s.boundStop sel l,
     fun _ => s.unitStop sel l (dieOf (clusterOf sel)) 53 false true] [] e fun _ s => s

/-- PGAL (R188). -/
def execPgal (o : X) (s : State) : Result :=
  .next (match s.elect 0x4C o.g [xBase o, xAux o] with
    | .inl t => t
    | .inr (l, s) => s.issuePage l 0x4C o)

/-- PGFR (R189). -/
def execPgfr (o : X) (s : State) : Result :=
  .next (match s.elect 0x4D o.g [xBase o, xAux o] with
    | .inl t => t
    | .inr (l, s) => s.issuePage l 0x4D o)

/-! ### SEQF (R190) -/

/-- The identifier that a fork takes: which free one is open (R190). -/
def State.freeSeq (s : State) : Option Nat × State :=
  let start := Config.victim s.freeCount % 65536
  (((List.range 65536).map fun i => (start + i) % 65536).find? fun q => s.seqState q = 0, { s with freeCount := s.freeCount + 1 })

/-- A sharer more of a page. -/
def State.addRef (s : State) (vf page : Nat) (shared : Bool) : State :=
  s.setPageCount vf page (if shared then s.pageCount page + 1 else 2)

/-- Shares one committed page of the parent with the child (R252, R269). -/
def State.sharePage (s : State) (p c i : Nat) : State :=
  let e := s.kvEntry p i
  if kvState e = 1 || kvState e = 3 then
    let s := s.addRef (s.seqVf p) (kvPage e) (kvShared e)
    let s := s.mapKv p i (kvPage e) true
    let s := s.setKv p i (kvMake (kvWindow e) (kvState e) (kvPage e) true (kvMoving e))
    (s.mapKv c i (kvPage e) true).setKv c i (kvMake 0 1 (kvPage e) true false)
  else s.setKv c i 0

/-- The child's descriptor: the parent's fields, with its own key, width, view, member, window state and page list (log 21). -/
def State.forkSeq (s : State) (p c salt : Nat) : State :=
  let keep (off n : Nat) (s : State) : State := s.seqSet c off n (s.seqNat p off n)
  let vf := s.seqVf p
  let s := s.seqWrite vf (bytesAt (s.seqAt c + 61) 1 vf)
  let s := (([(3, 1), (5, 1), (6, 1), (7, 1), (12, 4), (16, 4), (20, 4), (32, 8), (40, 4), (44, 4), (48, 8), (56, 4), (60, 1), (62, 1), (63, 1),
    (192, 8), (200, 8), (208, 4), (212, 4), (216, 1), (224, 8), (232, 8)] : List (Nat × Nat)).foldl (fun s x => keep x.1 x.2 s) s)
  let s := (List.range 32).foldl (fun s i => keep (128 + 2 * i) 2 s) s
  let s := s.seqSet c 24 8 (s.seqKey p ^^^ salt)
  let s := ((s.seqSet c 2 1 1).seqSet c 4 1 1).seqSet c 8 4 0
  let s := (List.range 32).foldl (fun s i => s.seqSet c (64 + 2 * i) 2 (if i = 0 then s.seqMember p 0 else 0xFFFF)) s
  let s := s.seqSet c 1 1 (s.seqFlags p % 4)
  let s := s.seqSet c 0 1 1
  (List.range (s.seqKvLimit p)).foldl (fun s i => s.sharePage p c i) s

/-- SEQF's completion. -/
def State.runSeqf (s : State) (id : Nat) (e : EngOp) : State :=
  let p := e.aux % 65536
  let done (s : State) (status child : Nat) : State :=
    ((s.putWord e (e.blk + 8) child).putWord e (e.blk + 12) status).finishPair id [0]
  if e.aux ≥ 65536 then done s 4 0
  else if s.seqState p ≠ 1 then done s 2 0
  else if s.seqVf p ≠ e.vf then done s 3 0
  else match s.freeSeq with
    | (none, s) => done s 1 0
    | (some c, s) => done (s.forkSeq p c (fld e.block 0 8)) 0 c

/-- SEQF (R190). -/
def execSeqf (o : X) (s : State) : Result :=
  .next (match s.elect 0x4E o.g [xBase o, xAux o] with
    | .inl t => t
    | .inr (l, s) =>
      let sel := s.actor
      let blk := s.blockAt sel l o
      let e := { s.newOp sel l 0x4E o with blk := blk, block := s.scrBytes (s.wgOf sel) blk 16, aux := (s.peek sel l (xAux o)).val }
      if s.trailing sel then s.issueTrailing sel l true e id
      else s.issueShared sel l 0x4E true
        [fun _ => s.blockStop sel l blk 16, fun _ => s.barStop sel l o.bar.val, fun _ => s.unitStop sel l (dieOf (clusterOf sel)) 53 false true]
        [] e fun _ s => s)

/-! ### Copy on write (R269) -/

/-- Requests for a copy that a warp's accesses have made: its walks that ended at a shared page. -/
def State.cowsOf (s : State) (sel : Nat) : List (Nat × Walk) := s.walks.filter fun p => decide (p.2.who = .cow sel)

/-- The warp and the operations that wait for a page go on; their stores replay. -/
def State.cowDone (s : State) (id : Nat) (w : Walk) (sel : Nat) : State :=
  (({ s with walks := s.walks.del id }).unpark sel ⟨w.page, none⟩).modWarp sel fun x => { x with needs := x.needs.filter fun p => p ≠ w.page }

/-- COW_RESOLVE: the committed bytes go to a fresh page of the writer's pool, the writer's entry names it, and one reference goes. An
empty pool becomes a page fault. -/
def execCowResolve (warp : Nat) (s : State) : Result :=
  .next (match s.cowsOf warp, (s.warps.look warp).bind Warp.bound with
    | (id, w) :: _, some q =>
      let i := (w.page * 4096 - s.seqKvBase q) / 65536
      let e := s.kvEntry q i
      if !s.inKv q (w.page * 4096) 4096 || !kvShared e then s.cowDone id w warp
      else match s.takePage (s.seqVf q) (s.pageOwner q i) with
        | (.wait, _) => s
        | (.empty, s) =>
          let s := { s with walks := s.walks.del id }
          if s.faultArea w.vf = 0 then s.failAsker (.cow warp) w.vf w.page w.access w.die 0 0
          else
            let info := s.askerInfo (.cow warp) w.die
            s.raiseFault ⟨w.vf, w.page, info.2.1, w.access, 2, 0, 0, info.1, info.2.2, w.die, none, [.cow warp]⟩
        | (.page p, s) =>
          let s := s.copyPage (s.seqVf q) (kvPage e) p
          let s := s.mapKv q i p false
          let s := s.setKv q i (kvMake (kvWindow e) (kvState e) p false (kvMoving e))
          (s.dropRef (s.seqVf q) (kvPage e) true).cowDone id w warp
    | (id, w) :: _, none => s.cowDone id w warp
    | [], _ => s)

end Sys2Proof.Machine
end

