-- ==== Sys2Proof/Machine/Sequence.lean ====
section
/-! DEFINITION. The sequence instructions and their completions: SEQV, SEQW with its migrations, SPWO and SPWC (R255 to R263). -/

namespace Sys2Proof.Machine

open Sys2Proof.Num (bits bit toBytes)

/-! ### Checks -/

/-- The rank of a cluster's die in a sequence's current view. -/
def State.rankOf (s : State) (q c : Nat) : Option Nat := s.seqRank q (s.dieNumber c)

/-- SEQ_STATE from any die but the view's rank 0. -/
def State.rankStop (s : State) (sel l : Nat) : Option Stop :=
  let q := s.boundSeq sel
  if s.rankOf q (clusterOf sel) = some 0 then none else some (.trap ⟨0x16, l, 0, q, 0⟩)

/-- SPW_STATE unless a window is open, or unless none is. -/
def State.windowStop (s : State) (sel l : Nat) (wanted : Bool) : Option Stop :=
  let q := s.boundSeq sel
  if s.seqFlag q 4 = wanted then none else some (.trap ⟨0x17, l, 0, q, 0⟩)

/-- The access table of the issuing die's sequence engine. -/
def State.engineStop (s : State) (sel l : Nat) (rd wr : Bool) : Option Stop := s.unitStop sel l (dieOf (clusterOf sel)) 53 rd wr

/-! ### SEQV (R255, R256) -/

/-- The view as SEQV writes it. -/
def State.viewWord (s : State) (q rank : Nat) : Nat :=
  let width := s.seqWidth q
  let deputy := s.seqFlag q 3
  (if s.seqFlag q 4 then 2 ^ 27 else 0) + (if s.seqFlag q 0 then 2 ^ 26 else 0) + (if s.seqFlag q 1 then 2 ^ 25 else 0) +
    (if deputy then 2 ^ 24 else 0) + (if deputy then s.seqPrevWidth q else width) % 64 * 2 ^ 16 + rank % 64 * 2 ^ 8 + width % 64

/-- The members listed beyond the width are dropped: no deputy remains (R250). -/
def State.dropDeputies (s : State) (q : Nat) : State :=
  (List.range 32).foldl (fun s i => if i < s.seqWidth q || s.seqMember q i = 0xFFFF then s else s.seqSet q (64 + 2 * i) 2 0xFFFF) s

/-- `seqv.step`: one more step, whose deputy flag is the migration flag as it stands. -/
def State.stepSeq (s : State) (q : Nat) : State :=
  let m := s.seqFlag q 2
  let s := (s.seqSet q 12 4 (s.seqNat q 12 4 + 1)).seqSetFlag q 3 m
  if m then s else s.dropDeputies q

/-- SEQV's completion. -/
def State.runSeqv (s : State) (id : Nat) (e : EngOp) : State :=
  let q := e.seq
  let s := if bit e.flags 0 then s.stepSeq q else s
  let rank := (s.rankOf q e.cluster).getD 0
  s.finishPair id [0, s.viewWord q rank, 0, q, s.seqView q, s.seqWidth q, rank]

/-- SEQV (R255). -/
def execSeqv (o : X) (s : State) : Result :=
  let bind' := bit o.flags.val 1
  let tagged := bit o.flags.val 2
  let src := regOpnd o.pb false false
  .next (match s.elect 0x76 o.g ((if bind' || tagged then [src] else []) ++ [dstOpnd o.aux false]) with
    | .inl t => t
    | .inr (l, s) =>
      let sel := s.actor
      let v := (s.peek sel l src).val
      let e := { s.newOp sel l 0x76 o with bar := none, dst := s.dstOf sel l o.aux false }
      let mark (s : State) : State :=
        let s := if tagged then s.modWarp sel fun w => { w with tag := v % 64 } else s
        s.markEmpty sel l o.aux false
      if s.trailing sel then s.issueTrailing sel l false e mark
      else
        let q := if bind' then v % 65536 else s.boundSeq sel
        let vf := ((s.warps.look sel).map Warp.vf).getD 0
        let refuse (b : Bool) : Option Stop := if b then some (.trap ⟨0x16, l, 0, q, 0⟩) else none
        s.issueShared sel l 0x76 false
          [fun _ => refuse (bind' && v ≥ 65536),
           fun _ => if tagged && v ≥ 64 then some (.trap ⟨0x17, l, 0, q, 0⟩) else none,
           fun _ => if bind' then none else s.boundStop sel l,
           fun _ => refuse (bind' && (s.seqState q = 0 || s.seqVf q ≠ vf)),
           fun _ => refuse (s.rankOf q (clusterOf sel)).isNone,
           fun _ => refuse (bit o.flags.val 0 && s.rankOf q (clusterOf sel) ≠ some 0),
           fun _ => s.engineStop sel l true false] [] { e with seq := q } fun _ s =>
            mark (if bind' then s.modWarp sel fun w => { w with seq := BitVec.ofNat 32 q } else s))

/-! ### SEQW (R257) -/

/-- The status of a SEQW that changes nothing, or 0. -/
def State.seqwStatus (s : State) (q new : Nat) : Nat :=
  if s.seqFlag q 0 then 4
  else if s.seqFlag q 2 then 3
  else if new = s.seqWidth q then 2
  else if new > s.seqPoolCount q then 1
  else 0

/-- SEQW (R257): the elected lane waits, holding its port, until the new view is published or the status says that nothing changes. -/
def execSeqw (o : X) (s : State) : Result :=
  .next (match s.elect 0x75 o.g [xBase o] with
    | .inl t => t
    | .inr (l, s) =>
      let sel := s.actor
      match s.holdOf sel with
      | some h => if h.ids.any fun i => ((s.engines.look i).map fun e => decide (e.phase = .running)).getD false then s else s.go
      | none =>
        let blk := s.blockAt sel l o
        let b := s.scrBytes (s.wgOf sel) blk 32
        let q := s.boundSeq sel
        let e := { s.newOp sel l 0x75 o with blk := blk, block := b, seq := q }
        if s.trailing sel then s.issueTrailing sel l true e id
        else
          match firstStop [fun _ => s.roomGate sel 1, fun _ => s.blockStop sel l blk 32,
              fun _ => layoutStop l blk [(fld b 0 1 = 0 || fld b 0 1 > 32, 0), resv b 1 3, resv b 12 31],
              fun _ => s.barStop sel l o.bar.val, fun _ => s.boundStop sel l, fun _ => s.rankStop sel l, fun _ => s.windowStop sel l false,
              fun _ => s.engineStop sel l false true, fun _ => s.commitStop sel [l], fun _ => s.issueStall sel 0x75 []] with
          | some st => s.halt sel st
          | none =>
            let status := s.seqwStatus q (fld b 0 1)
            let s := s.noReturn sel [l] fun s =>
              let (id, s) := s.issueOp { e with order := s.nextId } []
              let s := s.forward sel l [] false id
              if status ≠ 0 then ((s.putWord e (blk + 4) status).putWord e (blk + 8) (s.seqView q)).finishPair id [0]
              else s.holdAt sel 3 0 [id]
            if status ≠ 0 then s.go else s)

/-- Traffic of a sequence's warps under a view that no home has acknowledged: stores, contributions, atomics, and posts being made. -/
def State.viewBusy (s : State) (q view : Nat) : Bool :=
  let bound (sel : Nat) : Bool := ((s.warps.look sel).bind Warp.bound) = some q
  (s.flights.any fun p => bound p.2.warp && p.2.view = view) ||
    s.warps.any fun p => p.2.bound = some q && (match p.2.hold with
      | some h => h.phase = 9
      | none => false)

/-- The member list at a new width: the members kept, then pool dies not yet present (R257). -/
def State.newMembers (s : State) (q new : Nat) : List Nat :=
  let width := s.seqWidth q
  let old := s.seqMembers q
  if new ≤ width then s.seqListed q |>.take width
  else
    let more := ((List.range (s.seqPoolCount q)).map fun i => s.seqPool q i).filter fun d => !old.contains d
    (old ++ more.eraseDups).take new

/-- Publishes a new width as view v + 1 and starts its migrations (R257, R258). -/
def State.publishView (s : State) (id : Nat) (e : EngOp) : State :=
  let q := e.seq
  let new := fld e.block 0 1
  let width := s.seqWidth q
  let members := s.newMembers q new
  let moves := (List.range (s.seqKvLimit q)).filterMap fun i =>
    let x := s.kvEntry q i
    let pos := i * s.seqPerPage q
    if (kvState x = 1 || kvState x = 3) && s.ownerRank q pos width ≠ s.ownerRank q pos new then
      some (⟨i, kvPage x, none, false, false⟩ : Move) else none
  let s := (List.range 32).foldl (fun s i => s.seqSet q (64 + 2 * i) 2 (members.getD i 0xFFFF)) s
  let s := (s.seqSet q 4 1 width).seqSet q 2 1 new
  let s := s.seqSet q 8 4 (s.seqView q + 1)
  let s := ((s.seqSetFlag q 1 false).seqSet q 62 1 0).seqSetFlag q 2 true
  let s := moves.foldl (fun s (m : Move) =>
    let x := s.kvEntry q m.page
    s.setKv q m.page (kvMake (kvWindow x) (kvState x) (kvPage x) (kvShared x) true)) s
  let s := { s with migrations := s.migrations.put q ⟨id, moves⟩ }
  let s := (s.putWord e (e.blk + 4) 0).putWord e (e.blk + 8) (s.seqView q)
  s.modOp id fun x => { x with phase := .sending }

/-- SEQW_PUBLISH: once the traffic of the old view is acknowledged, the new view is published. -/
def execSeqwPublish (seq : Nat) (s : State) : Result :=
  .next (match s.engines.first fun _ e => e.opcode = 0x75 && e.seq = seq && decide (e.phase = .running) with
    | none => s
    | some (id, e) => if s.viewBusy seq (s.seqView seq) then s else s.publishView id e)

/-! ### Migration (R258) -/

/-- A migration's page fault is pending. -/
def State.moveFault (s : State) (q i : Nat) : Bool := s.faults.any fun p => p.2.askers.contains (.migration q i)

/-- One page copied. -/
def State.moveCopied (s : State) (q i page : Nat) : State :=
  { s with migrations := s.migrations.modify q fun m => { m with
      moves := m.moves.map fun (x : Move) => if x.page = i then { x with new := some page, copied := true } else x } }

/-- MIGRATION_PAGE_COPY: a page goes to one of the new owner's pool. An empty pool is reported with cause 2. A halt of the sequence's
context holds it back (R287). -/
def execMigrationPageCopy (seq page : Nat) (s : State) : Result :=
  .next (match (s.migrations.look seq).bind fun m => (m.moves.find? fun (x : Move) => x.page = page).map fun x => (m, x) with
    | none => s
    | some (m, x) =>
      if x.copied || x.waiting || s.seqHalted seq || s.moveFault seq page then s
      else
        let vf := s.seqVf seq
        let d := ((s.engines.look m.op).map fun e => dieOf e.cluster).getD 0
        match s.takePage vf (s.pageOwner seq page) with
        | (.wait, _) => s
        | (.empty, s) =>
          if s.faultArea vf = 0 then s
          else s.raiseFault ⟨vf, s.kvAddr seq page / 4096, unitMaster d, accRead, 2, 0, 0, 0xFFFFFFFF, 0, d, none, [.migration seq page]⟩
        | (.page p, s) => (s.copyPage vf x.old p).moveCopied seq page p)

/-- The list is switched to one new page, and the old page's reference goes. -/
def State.switchPage (s : State) (q : Nat) (x : Move) : State :=
  let e := s.kvEntry q x.page
  let p := x.new.getD 0
  let s := s.mapKv q x.page p false
  let s := s.setKv q x.page (kvMake (kvWindow e) (kvState e) p false false)
  s.dropRef (s.seqVf q) x.old (kvShared e)

/-- MIGRATION_SWITCH: with every copy complete and no window open, the list names the new pages in one act and SEQW arrives. -/
def execMigrationSwitch (seq : Nat) (s : State) : Result :=
  .next (match s.migrations.look seq with
    | none => s
    | some m =>
      if s.seqFlag seq 4 || s.seqHalted seq || m.moves.any fun (x : Move) => !x.copied then s
      else
        let s := { s with migrations := s.migrations.del seq }
        let s := m.moves.foldl (fun s x => s.switchPage seq x) s
        let s := s.seqSetFlag seq 2 false
        let s := if s.seqFlag seq 3 then s else s.dropDeputies seq
        s.finishPair m.op [0])

/-! ### SPWO (R261) -/

/-- The dies of this package that are members or deputies of the current view. -/
def State.viewDies (s : State) (q : Nat) : List Nat := (s.seqListed q).filterMap fun d => if d / 4 = s.package then some (d % 4) else none

/-- Opens a window: its number, base and shape are recorded and an identifier is opened on every member and deputy die. -/
def State.openWindow (s : State) (q paths tokens cluster launch : Nat) : State :=
  let n := (s.seqWindow q + 1) % 256
  let s := (s.seqSet q 5 1 n).seqSet q 20 4 (s.seqCommitted q)
  let s := ((s.seqSet q 6 1 paths).seqSet q 7 1 tokens).seqSetFlag q 4 true
  let s := (s.viewDies q).foldl (fun s d => (s.openVersion (Version.fresh d none (.window q n) cluster (s.seqVf q) launch)).2) s
  { s with warps := s.warps.mapv fun _ w => if w.bound = some q then { w with tag := 0 } else w }

/-- SPWO (R261): cancellation is sampled and the window opened at issue; while a die has no free identifier, SPWO stalls. -/
def execSpwo (o : X) (s : State) : Result :=
  .next (match s.elect 0x73 o.g [xBase o] with
    | .inl t => t
    | .inr (l, s) =>
      let sel := s.actor
      let blk := s.blockAt sel l o
      let b := s.scrBytes (s.wgOf sel) blk 32
      let q := s.boundSeq sel
      let e := { s.newOp sel l 0x73 o with blk := blk, block := b, seq := q }
      if s.trailing sel then s.issueTrailing sel l true e id
      else
        let cancel := s.seqFlag q 0
        s.issueShared sel l 0x73 true
          [fun _ => s.blockStop sel l blk 32,
           fun _ => layoutStop l blk [(fld b 0 1 = 0 || fld b 0 1 > 4, 0), (fld b 1 1 = 0 || fld b 1 1 > 16, 1), resv b 2 3, resv b 16 31],
           fun _ => s.barStop sel l o.bar.val, fun _ => s.boundStop sel l, fun _ => s.rankStop sel l, fun _ => s.windowStop sel l false,
           fun _ => s.engineStop sel l false true,
           fun _ => s.stallIf (!cancel && (s.viewDies q).any fun d => s.versionsFree d = 0)] [] e fun id s =>
          if cancel then (s.seqSet q 0 1 2).modOp id fun e => { e with note := [1] }
          else
            let s := s.openWindow q (fld b 0 1) (fld b 1 1) (clusterOf sel) e.launch
            s.modOp id fun e => { e with note := [0, s.seqWindow q, s.seqWindowBase q] })

/-- SPWO's completion. The spec states no window and base of a cancelled one: they are free (log 22). -/
def State.runSpwo (s : State) (id : Nat) (e : EngOp) : State :=
  let (a, s) := s.freeValue
  let (b, s) := s.freeValue
  let s := s.putWord e (e.blk + 4) (e.note.getD 0 0)
  let s := (s.putWord e (e.blk + 8) (e.note.getD 1 (a % 2 ^ 32))).putWord e (e.blk + 12) (e.note.getD 2 (b % 2 ^ 32))
  s.finishPair id [0]

/-! ### SPWC (R263) -/

/-- SPWC (R263). -/
def execSpwc (o : X) (s : State) : Result :=
  .next (match s.elect 0x74 o.g [xBase o, xAux o] with
    | .inl t => t
    | .inr (l, s) =>
      let sel := s.actor
      let blk := s.blockAt sel l o
      let b := s.scrBytes (s.wgOf sel) blk 32
      let q := s.boundSeq sel
      let a := (s.peek sel l (xAux o)).val
      let e := { s.newOp sel l 0x74 o with blk := blk, block := b, seq := q, aux := a }
      if s.trailing sel then s.issueTrailing sel l true e id
      else
        let bad := a ≥ 4096 || (!s.seqFlag q 0 && (decide (bits a 11 8 ≥ s.seqPaths q) || decide (a % 256 > s.seqTokens q)))
        s.issueShared sel l 0x74 true
          [fun _ => s.blockStop sel l blk 32, fun _ => layoutStop l blk [resv b 9 31], fun _ => s.barStop sel l o.bar.val,
           fun _ => s.boundStop sel l, fun _ => s.rankStop sel l, fun _ => s.windowStop sel l true,
           fun _ => if bad then some (.trap ⟨0x17, l, 0, q, 0⟩) else none,
           fun _ => s.engineStop sel l false true,
           fun _ => s.stallIf (s.engines.any fun p => p.2.opcode = 0x74 && p.2.seq = q && !(p.2.phase matches .mirror _))] [] e fun _ s => s)

/-- The bytes that a commit of path p keeps: of each address the one with the highest token below a. -/
def keptBytes (ts : List Tagged) (p a : Nat) : Tab Byte :=
  let mine := ts.filter fun t => t.tag / 16 = p && decide (t.tag % 16 < a)
  let best := (List.range 16).foldl (fun (m : Tab Byte) t =>
    (mine.filter fun x => x.tag % 16 = t).reverse.foldl (fun (m : Tab Byte) x => m.put x.addr x.byte) m) []
  best

/-- The largest target of the width policy that a committed count reaches above a width, 0 for none. -/
def State.policyTarget (s : State) (q committed width : Nat) : Nat :=
  (List.range 4).foldl (fun best i =>
    let x := s.seqNat q (224 + 4 * i) 4
    let t := bits x 31 24
    if x ≠ 0 && bits x 23 0 ≤ committed && t > width then max best t else best) 0

/-- What an SPWC publishes: its pages kept or freed, held frees performed, the committed count, the window closed, the width request, the
block and the arrival. -/
def State.closeWindow (s : State) (id : Nat) (e : EngOp) : State :=
  let q := e.seq
  let a := e.note.getD 0 0
  let status := e.note.getD 1 0
  let lost := e.note.getD 2 0 = 1
  let base := s.seqWindowBase q
  let per := s.seqPerPage q
  let window := s.seqWindow q
  let s := (List.range (s.seqKvLimit q)).foldl (fun s i =>
    let x := s.kvEntry q i
    match kvState x with
    | 2 => if i * per < base + a && !lost then s.setKv q i (kvMake 0 1 (kvPage x) (kvShared x) (kvMoving x)) else s.freeKv q i
    | 3 => s.freeKv q i
    | _ => s) s
  let s := if lost then s else s.seqSet q 16 4 (base + a)
  let s := s.seqSetFlag q 4 false
  let s := if status = 1 then s.seqSet q 0 1 2 else s
  let target := s.policyTarget q (s.seqCommitted q) (s.seqWidth q)
  let s := if status = 0 && target ≠ 0 then (s.seqSet q 62 1 target).seqSetFlag q 1 true else s
  let s := { s with lostWindows := s.lostWindows.del q }
  let s := (s.putWord e e.blk (s.seqCommitted q)).putWord e (e.blk + 4) status
  (s.putResult e (e.blk + 8) (toBytes 1 window)).finishPair id [0]

/-- SPWC's commit point: cancellation is sampled, the accepted bytes become the window's shadows, and its versions start their outermost
commit. A lost window keeps nothing (R350). -/
def State.runSpwc (s : State) (id : Nat) (e : EngOp) : State :=
  let q := e.seq
  let cancel := s.seqFlag q 0
  let lost := (s.lostWindows.look q).getD false
  let a := if cancel || lost then 0 else e.aux % 256
  let vs := s.windowVersions q
  let ts := vs.flatMap fun v => ((s.versions.look v).map Version.tagged).getD []
  let kept := keptBytes ts (bits e.aux 11 8) a
  let s := { s with versions := s.versions.mapv fun v x =>
      if vs.contains v then { x with tagged := [], shadow := if vs.head? = some v then kept else [] } else x }
  let s := vs.foldl (fun s v => s.beginCommit v 1) s
  let e := { e with phase := .sending, note := [a, if cancel then 1 else 0, if lost then 1 else 0] ++ vs }
  if vs.isEmpty then s.closeWindow id e else s.modOp id fun _ => e

/-- The publication of a window's commit (R87, R263). -/
def State.publishWindow (s : State) (id : Nat) (e : EngOp) : State :=
  (s.publish (e.note.drop 3) e.cluster).closeWindow id e

end Sys2Proof.Machine
end

