-- ==== Sys2Proof/Machine/Sample.lean ====
section
/-! DEFINITION. The judging of draft paths and the logit filters of the HBM stacks (R265 to R268). -/

namespace Sys2Proof.Machine

open Sys2Proof.Num (bits bit ofBytes toBytes Val)

/-! ### ACPT (R268) -/

/-- A probability that stops its path: NaN, negative or infinite. -/
def badProb : Val → Bool
  | .nan _ | .inf _ => true
  | .fin n m _ => n && m ≠ 0

/-- One token of a path: the product after it, or none where the path stops. -/
def acptToken (p q rp : Nat) : Option Nat :=
  match Num.decode Num.f32 p, Num.decode Num.f32 q with
  | .fin np mp ep, .fin nq mq eq =>
    if badProb (.fin np mp ep) || badProb (.fin nq mq eq) || (mp = 0 && mq = 0) then none
    else
      let ratio := if mq = 0 then Num.f32.infCode false else (Num.divFin Num.f32 .rne false mp ep mq eq).1
      let r := Num.mulF rp ratio
      if (Num.decode Num.f32 r).isNan then none else some r
  | _, _ => none

/-- draw / 2^32 ≤ min(1, rp), exactly. -/
def drawOk (draw rp : Nat) : Bool :=
  match Num.decode Num.f32 rp with
  | .fin _ m e => if e < 0 then decide (draw * 2 ^ (-e).toNat ≤ m * 2 ^ 32) else decide (draw ≤ m * 2 ^ e.toNat * 2 ^ 32)
  | .inf _ => true
  | .nan _ => false

/-- The accepted count of a path, block by block. -/
def acptPath (p q draw : Nat → Nat) (block len : Nat) : Nat → Nat → Nat → Nat → Nat
  | 0, _, _, n => n
  | fuel + 1, j, rp, n =>
    let lo := (j - 1) * block
    let hi := min (j * block) len
    if lo ≥ len then n
    else match ((List.range (hi - lo)).map fun i => lo + i).foldl (fun (r : Option Nat) t => r.bind fun x => acptToken (p t) (q t) x) (some rp) with
      | none => n
      | some rp => if drawOk (draw j) rp then acptPath p q draw block len fuel (j + 1) rp hi else n

/-- The accept word over the paths: their numbers with their counts, ties to the lower path. -/
def acptWord (counts : List Nat) : Nat :=
  let best := ((List.range counts.length).zip counts).foldl (fun (b : Nat × Nat) (x : Nat × Nat) => if x.2 > b.2 then x else b) (0, 0)
  best.1 * 256 + best.2

/-- The accept word of a block of probabilities in scratchpad. -/
def State.judge (s : State) (g : Wg) (b : List Byte) (q : Nat) : Nat :=
  let at' (base path t : Nat) : Nat := s.scrNat g (base + 4 * (16 * path + t)) 4
  let draw (j : Nat) : Nat := (Num.philox (s.seqWindowBase q) (0x100 + j) (s.seqKey q)).1
  acptWord ((List.range (fld b 8 1)).map fun path =>
    acptPath (at' (fld b 0 4) path) (at' (fld b 4 4) path) draw (fld b 9 1) (fld b (10 + path) 1) 17 1 0x3F800000 0)

/-- ACPT (R268): the elected lane holds its port until the word is written, within the step (log 23). -/
def execAcpt (o : X) (s : State) : Result :=
  .next (match s.elect 0x79 o.g [xBase o, dstOpnd o.aux false] with
    | .inl t => t
    | .inr (l, s) =>
      let sel := s.actor
      let write (s : State) (x : Nat) (bad : Bool) : State := match s.dstOf sel l o.aux false with
        | some d => (s.fillDst d x (if bad then some 0 else none) none).noteFilled d
        | none => s
      if s.trailing sel then
        match s.forwardGate sel [l] with
        | some st => s.halt sel st
        | none =>
          let no := s.fibreNo (fibreKey sel l)
          let xs := ((s.nextForward (s.wgOf sel) no).map Fwd.vals).getD []
          (write (s.takeForward (s.wgOf sel) no) (xs.getD 1 0) (decide (xs.getD 2 0 = 1))).go
      else
        let g := s.wgOf sel
        let blk := s.blockAt sel l o
        let b := s.scrBytes g blk 32
        let q := s.boundSeq sel
        let paths := fld b 8 1
        let block := fld b 9 1
        let lens := (List.range 4).map fun i => fld b (10 + i) 1
        let span := 64 * paths
        let locks := [g.scrLock (s.wgNo sel) 0 false (fld b 0 4) span, g.scrLock (s.wgNo sel) 0 false (fld b 4 4) span]
        let cancel := s.seqFlag q 0
        let beyond := paths > s.seqPaths q || (lens.take paths).any fun n => n > s.seqTokens q
        match firstStop [fun _ => s.roomGate sel 1, fun _ => s.blockStop sel l blk 32,
            fun _ => layoutStop l blk ([(paths = 0 || paths > 4, 8), (!([1, 2, 4, 8, 16].contains block), 9)] ++
              ((List.range 4).map fun i => (decide (lens.getD i 0 > 16), 10 + i)) ++ [resv b 14 31]),
            fun _ => deniedStop l g [(fld b 0 4, span), (fld b 4 4, span)], fun _ => alignStop l [fld b 0 4, fld b 4 4],
            fun _ => s.boundStop sel l,
            fun _ => if !cancel && (!s.seqFlag q 4 || beyond) then some (.trap ⟨0x17, l, 0, q, 0⟩) else none,
            fun _ => s.engineStop sel l false true, fun _ => s.issueStall sel 0x79 locks] with
        | some st => s.halt sel st
        | none =>
          let x := if cancel then 0 else s.judge g b q
          let bad := !cancel && (s.scrBad g (fld b 0 4) span || s.scrBad g (fld b 4 4) span)
          let s := if cancel then s else (s.noteScr g (fld b 0 4) span).noteScr g (fld b 4 4) span
          (write (s.forward sel l [0, x, if bad then 1 else 0] true 0) x bad).go)

/-! ### Arming (R265) -/

def Filter.fresh : Filter := ⟨0xFF800000, 0, 0, []⟩

/-- The FP32 reciprocal, rounded once. -/
def recipF (x : Nat) : Nat := (Num.rcpV Num.f32 .rne (Num.decode Num.f32 x)).1

/-- A temperature is finite and above 0. -/
def goodTemp (x : Nat) : Bool :=
  match Num.decode Num.f32 x with
  | .fin n m _ => !n && m ≠ 0
  | _ => false

/-- Every page of a range is a sample-window page in the virtual function's table. -/
def State.allSample (s : State) (die vf va n : Nat) : Bool :=
  (pagesOf va n).all fun p => match (s.walk die vf (p * 4096) false).2 with
    | .found t => t.kind = 1
    | _ => false

/-- SEQ_STATE unless a sequence is active and of the warp's virtual function. -/
def State.activeStop (s : State) (sel l q : Nat) : Option Stop :=
  if s.seqState q = 1 && s.seqVf q = ((s.warps.look sel).map Warp.vf).getD 0 then none else some (.trap ⟨0x16, l, 0, q, 0⟩)

/-- The twelve filters' controllers let a virtual function's requests of a die's sequence engine through (R302); the refusals are logged. -/
def State.filtersOk (s : State) (d vf : Nat) (rd wr : Bool) : Bool × State :=
  (List.range 12).foldl (fun (a : Bool × State) k =>
    let t := k / 3 * 64 + 48 + k % 3
    if a.2.tableAllows t (unitMaster d) vf rd wr then a else (false, a.2.logRefusal t (unitMaster d) vf 0 rd wr)) (true, s)

/-- `samp.arm` (R265). -/
def execSampArm (o : X) (s : State) : Result :=
  .next (match s.elect 0x78 o.g [xBase o] with
    | .inl t => t
    | .inr (l, s) =>
      let sel := s.actor
      let blk := s.blockAt sel l o
      let b := s.scrBytes (s.wgOf sel) blk 32
      let q := fld b 0 2
      let vocab := fld b 4 4
      let e := { s.newOp sel l 0x78 o with blk := blk, block := b, seq := q }
      if s.trailing sel then s.issueTrailing sel l true e id
      else s.issueShared sel l 0x78 true
        [fun _ => s.blockStop sel l blk 32,
         fun _ => layoutStop l blk [(fld b 2 1 = 0 || fld b 2 1 > 64, 2), resv b 3 3, (vocab = 0 || vocab > 16777216, 4), (!goodTemp (fld b 16 4), 16),
           resv b 28 31],
         fun _ => alignStop l [fld b 8 8, fld b 20 8], fun _ => s.barStop sel l o.bar.val, fun _ => s.activeStop sel l q,
         fun _ => if fld b 8 8 + 4 * vocab > globalEnd || !s.allSample (dieOf (clusterOf sel)) e.vf (fld b 8 8) (4 * vocab) then
           some (.trap ⟨0x0A, l, 0, fld b 8 8, 0⟩) else none,
         fun _ => s.engineStop sel l false true,
         fun _ => s.stallIf ((s.arms.look q).isNone && decide (s.arms.length ≥ 256))] [] e fun _ s => s)

/-- The arming of every filter, and its arrival. -/
def State.runArm (s : State) (id : Nat) (e : EngOp) : State :=
  let b := e.block
  match s.filtersOk (dieOf e.cluster) e.vf false true with
  | (false, s) => s.finishPair id [1]
  | (true, s) =>
    let a : Arm := ⟨e.vf, fld b 2 1, fld b 4 4, fld b 8 8, BitVec.ofNat 32 (recipF (fld b 16 4)), fld b 20 8, false, false, List.replicate 12 Filter.fresh⟩
    ({ s with arms := s.arms.put e.seq a }).finishPair id [0]

/-! ### Landing (R266) -/

/-- Inserts a token into a shortlist: the top k by y, ties to the lower token. -/
def offer (k : Nat) (short : List (Nat × Nat)) (t y : Nat) : List (Nat × Nat) :=
  let above (x : Nat × Nat) : Bool := Num.gtF x.2 y || (!Num.gtF y x.2 && decide (x.1 ≤ t))
  (short.takeWhile above ++ (t, y) :: short.dropWhile above).take k

/-- One landing logit at a filter: the filter after it, or none where y is not finite. -/
def Filter.land (f : Filter) (k x pen invt t : Nat) : Option Filter :=
  let y := Num.mulF (Num.subF x pen) invt
  match Num.decode Num.f32 y with
  | .fin _ _ _ =>
    let u := Num.mulF y 0x3FB8AA3B
    let m2 := f.m2.toNat
    let (m, sum) := if Num.gtF u m2 then (u, Num.addF (Num.mulF f.s.toNat (Num.exp2F (Num.subF m2 u))) 0x3F800000)
      else (m2, Num.addF f.s.toNat (Num.exp2F (Num.subF u m2)))
    some ⟨BitVec.ofNat 32 m, BitVec.ofNat 32 sum, f.count + 1, offer k f.short t y⟩
  | _ => none

/-- The penalty of a token as it stands, with its poison. An address that does not translate gives a free value (log 24). -/
def State.penaltyOf (s : State) (a : Arm) (die t : Nat) : (Nat × Bool) × State :=
  if a.penalty = 0 then ((0, false), s)
  else
    let va := a.penalty + 4 * t
    match (s.walk die a.vf va false).2 with
    | .found leaf => ((s.homeNat (leaf.phys va) 4, s.badWord (leaf.phys va)), s)
    | _ =>
      let (x, s) := s.freeValue
      ((x % 2 ^ 32, false), s)

/-- A word lands under one arming. -/
def State.landWord (s : State) (q : Nat) (a : Arm) (pa va x : Nat) (bad : Bool) : State :=
  let t := (va - a.logits) / 4
  let k := stackOf pa
  let (pen, s) := s.penaltyOf a (homeOf pa % 4) t
  let a := { a with poisoned := a.poisoned || bad || pen.2 }
  let f := a.filters.getD k Filter.fresh
  { s with arms := s.arms.put q (match f.land a.topk x pen.1 a.invt.toNat t with
      | some f => { a with filters := a.filters.set k f }
      | none => { a with invalid := true }) }

/-- The words of a request: address, virtual address, value. -/
def Flight.words (f : Flight) : List (Nat × Nat × Nat) :=
  ((f.bytes.map fun b => b.1 / 4 * 4).eraseDups).map fun w =>
    (w, f.va + (w - f.addr), ofBytes ((List.range 4).map fun i => ((f.bytes.find? fun b => b.1 = w + i).map Prod.snd).getD 0))

/-- LOGIT_LAND: the words of a sample store that stands at its home are counted by their stack's filter, once, under each arming of its
virtual function whose range holds them. -/
def execLogitLand (id : Nat) (s : State) : Result :=
  .next (match s.flights.look id with
    | none => s
    | some f =>
      if f.kind ≠ .sample || !f.merged then s
      else
        let s := { s with flights := s.flights.modify id fun f => { f with kind := .write } }
        f.words.foldl (fun s (w : Nat × Nat × Nat) =>
          (s.arms.filter fun p => p.2.vf = f.vf && decide (p.2.logits ≤ w.2.1 ∧ w.2.1 < p.2.logits + 4 * p.2.vocab)).foldl (fun s p =>
            s.landWord p.1 ((s.arms.look p.1).getD p.2) w.1 w.2.1 w.2.2 (f.bad.contains (w.1 / 8))) s) s)

/-! ### Reading (R267) -/

/-- The bytes of a read's result. -/
def readBytes (k : Nat) : Nat := 8 * k + 12

/-- `samp.read` (R267). The span is known where the sequence is armed (log 24). -/
def execSampRead (o : X) (s : State) : Result :=
  .next (match s.elect 0x78 o.g [xBase o] with
    | .inl t => t
    | .inr (l, s) =>
      let sel := s.actor
      let g := s.wgOf sel
      let blk := s.blockAt sel l o
      let b := s.scrBytes g blk 32
      let q := fld b 0 2
      let dst := fld b 4 4
      let e := { s.newOp sel l 0x78 o with blk := blk, block := b, seq := q }
      if s.trailing sel then s.issueTrailing sel l true e id
      else
        let span := ((s.arms.look q).map fun a => readBytes a.topk).getD 0
        s.issueShared sel l 0x78 true
          [fun _ => s.blockStop sel l blk 32, fun _ => layoutStop l blk [resv b 2 3, resv b 8 31], fun _ => deniedStop l g [(dst, span)],
           fun _ => alignStop l [dst], fun _ => s.barStop sel l o.bar.val, fun _ => s.activeStop sel l q,
           fun _ => s.engineStop sel l false true]
          (if span = 0 then [] else [g.scrLock (s.wgNo sel) o.bar.val true dst span]) e fun _ s => s)

/-- The result of an arming: the shortlist, the maximum, the sum and the count. -/
def Arm.result (a : Arm) : List Byte :=
  let short := a.filters.foldl (fun acc f => f.short.foldl (fun acc x => offer a.topk acc x.1 x.2) acc) []
  let mx := a.filters.foldl (fun m f => if Num.gtF f.m2.toNat m then f.m2.toNat else m) 0xFF800000
  let sm := a.filters.foldl (fun x f => Num.addF x (Num.mulF f.s.toNat (Num.exp2F (Num.subF f.m2.toNat mx)))) 0
  let count := a.filters.foldl (fun n f => n + f.count) 0
  ((List.range a.topk).flatMap fun i =>
    let x := short.getD i (0xFFFFFFFF, 0xFF800000)
    toBytes 4 x.1 ++ toBytes 4 x.2) ++
    toBytes 4 mx ++ toBytes 4 (if a.invalid then Num.f32.nan else sm) ++ toBytes 4 count

/-- A read waits for the counts, then writes its result, disarms, and arrives. -/
def State.runRead (s : State) (id : Nat) (e : EngOp) : State :=
  match s.arms.look e.seq with
  | none => s
  | some a =>
    let count := a.filters.foldl (fun n f => n + f.count) 0
    if count < a.vocab then s
    else match s.filtersOk (dieOf e.cluster) e.vf true false with
      | (false, s) => s.finishPair id [1]
      | (true, s) =>
        let dst := fld e.block 4 4
        match s.wgs.look e.wg with
        | none => s.finishPair id [1]
        | some g =>
          if dst + readBytes a.topk > g.alloc then s.finishPair id [1]
          else
            let s := s.putResult e dst a.result
            let s := if a.poisoned then s.scrMark g (dst + 8 * a.topk + 4) 4 else s
            ({ s with arms := s.arms.del e.seq }).finishPair id [0]

end Sys2Proof.Machine
end

