-- ==== Sys2Proof/Machine/EngineEvents.lean ====
section
/-! DEFINITION. The progress of an engine operation in flight: its work and arrival, and what a page fault or a refusal does to it
(R201, R225, R226). -/

namespace Sys2Proof.Machine

open Sys2Proof.Num (bits bit)

/-- An operation of an engine within a cluster stands still while its workgroup is pre-empted (R319). -/
def State.opHeld (s : State) (e : EngOp) : Bool :=
  engineOf e.opcode ≠ 5 && engineOf e.opcode ≠ 3 && ((s.wgs.look e.wg).map fun g => decide (g.phase = .saved ∧ g.cause = 0)).getD false

/-- The work that an operation has left, by its opcode. SEQW, BFQJ and LAUNCH complete by events of their own. -/
def State.runOp (s : State) (id part : Nat) (e : EngOp) : State :=
  match e.opcode with
  | 0x4C => s.runPgal id e
  | 0x4D => s.runPgfr id e
  | 0x4E => s.runSeqf id e
  | 0x50 => s.runMma id e
  | 0x51 => s.runMmt id e
  | 0x52 => s.runAccmv id e
  | 0x53 => s.runAccz id e
  | 0x54 => s.runSopen id
  | 0x55 => s.runSsub id e
  | 0x56 => s.runSclose id e
  | 0x57 => s.runVnld id e (4 * fld e.block 8 4 + 1)
  | 0x59 => s.runCpy id e
  | 0x5A => s.runCpyw id e
  | 0x5B => s.runCpyz id e
  | 0x5C => s.runPart id e part
  | 0x5D => s.runCpyg id e
  | 0x73 => s.runSpwo id e
  | 0x74 => s.runSpwc id e
  | 0x76 => s.runSeqv id e
  | 0x78 => if bit e.flags 0 then s.runRead id e else s.runArm id e
  | _ => s

/-- ENGINE_ARRIVAL: an operation goes on as far as its operands, its pages and the operations before it let it; once its work is done it
arrives on its barrier and its range locks are released. `part` names a receiver of a CPYM. -/
def execEngineArrival (id part : Nat) (s : State) : Result :=
  .next (match s.engines.look id with
    | none => s
    | some e =>
      if s.opHeld e then s
      else if e.opcode = 0x5A && bit e.flags 0 then s.runExpert id e
      else if e.phase ≠ .running || s.rowsBusy id e then s
      else s.runOp id part e)

/-- An operation waits for the pager, or for a shared page to be copied. -/
def State.opAsks (s : State) (id page : Nat) (e : EngOp) : Bool :=
  (s.faults.any fun p => p.2.askers.contains (.engine id)) || s.walks.any fun p => decide (p.2.who = .cow e.warp) && p.2.page = page

/-- ENGINE_FAULT_RESUME (R225): a suspended operation goes on once the pager has answered. -/
def execEngineFaultResume (id : Nat) (s : State) : Result :=
  .next (match s.engines.look id with
    | none => s
    | some e =>
      match e.phase with
      | .suspended page => if s.opAsks id page e then s else s.modOp id fun e => { e with phase := .running }
      | _ => s)

/-- ENGINE_FAULT_STOP (R225): a stopped operation logs its cause to the fault queue and makes a faulted arrival; of a CPYM only the part
under way is stopped. -/
def execEngineFaultStop (id : Nat) (s : State) : Result :=
  .next (match s.engines.look id with
    | none => s
    | some e =>
      match e.phase with
      | .stopping cause access page =>
        let s := if cause = 0x0B then s
          else s.informFault e.vf page (engineMaster e.cluster) access (if cause = 0x0A then 4 else 5) 0 0 0xFFFFFFFF e.launch (dieOf e.cluster)
        if e.opcode = 0x5C then (s.endPart id e.target e true true).closeParts id else s.finishPair id [1]
      | _ => s)

end Sys2Proof.Machine
end

