-- ==== Sys2Proof/Machine/CacheEvents.lean ====
section
/-! DEFINITION. The memory system's own events: loads bound and filled, stores and atomics at their homes, partials, ticks, evictions, commits
and rollbacks (R42, R65, R76, R82 to R87, R92, R93, R218, R354). -/

namespace Sys2Proof.Machine

open Sys2Proof.Num (bits bit ofBytes)

/-! ### Filling a register (R42, R108, R124, R163) -/

/-- One lane's register fills, with the value extended and the %fpc bits raised; the load leaves the warp's counters once every lane has
(R42, R124). -/
def State.fillAcc (s : State) (id : Nat) (ld : Load) (a : Acc) (x : Nat) (poison wts : Option Nat) : State :=
  let y := extendLoad (tyOf a.ty) x
  let (y, s) := if ld.vecResult then s.inject (fibreKey ld.warp a.lane) y else (y, s)
  let s := match a.dst with
    | some d => (s.fillDst d y poison wts).noteFilled d
    | none => s
  let s := if ld.flags = 0 then s else s.modWarp ld.warp fun w => { w with fpc := w.fpc ||| BitVec.ofNat 32 ld.flags }
  s.cancelAccs id fun b => b.lane = a.lane

/-! ### What a load finds (R82, R86, R106, R177, R179, R262) -/

/-- The shadow or tagged byte that a load takes over the base. -/
def State.ownByte (s : State) (sel lane tag pa va : Nat) : Option Byte :=
  match s.fibres.look (fibreKey sel lane) with
  | none => none
  | some f =>
    let chain := s.chainOf sel f
    match s.shadowByte chain pa with
    | some b => some b
    | none => match (s.warps.look sel).bind Warp.bound with
      | some q => s.windowByte q chain tag pa (s.inRecurrent q va 1)
      | none => none

/-- The version chain of a lane. -/
def State.laneChain (s : State) (sel lane : Nat) : List Nat := ((s.fibres.look (fibreKey sel lane)).map fun f => s.chainOf sel f).getD []

/-- A version whose shadow of a byte of the load is uncorrectable (R350). -/
def State.ownBad (s : State) (sel lane pa n : Nat) : Option Nat :=
  match s.fibres.look (fibreKey sel lane) with
  | none => none
  | some f => (List.range n).findSome? fun i => s.shadowBad (s.chainOf sel f) (pa + i)

/-- An older load of the warp to the same bytes has not been bound: a later one does not overtake it (R104). -/
def State.olderLoad (s : State) (id : Nat) (ld : Load) (a : Acc) : Bool :=
  s.loads.any fun p => decide (p.1 < id) && p.2.warp = ld.warp && p.2.overlaps true a.va a.size

/-- Data reach a lane. An acquire raises pts at once; another renewal's reply raises it when it retires (R83, R108). A prefetch is then over. -/
def State.bindAcc (s : State) (id : Nat) (ld : Load) (a : Acc) (pa : Nat) (base : Nat → Byte × Bool) (wts : Option Nat) : State :=
  if ld.isPref then s.cancelAccs id fun b => b.lane = a.lane
  else
    let own (i : Nat) : Option Byte := s.ownByte ld.warp a.lane ld.tag (pa + i) (a.va + i)
    let x := ofBytes ((List.range a.size).map fun i => (own i).getD (base i).1)
    let bad := (List.range a.size).any fun i => (own i).isNone && (base i).2
    let s := s.setAcc id a.lane (.bound x (if bad then some 0 else none) wts)
    let c := clusterOf ld.warp
    match wts with
    | none => s
    | some t => if ld.acquire then s.raisePts c t else s.modCluster c fun k => { k with unretired := k.unretired ++ [(ld.warp, t)] }

/-- The translation of a lane that is to be bound now: `none` while something must come first, in the state given. -/
def State.loadLeaf (s : State) (id : Nat) (ld : Load) (a : Acc) : Option Tlb × State :=
  match s.warps.look ld.warp with
  | none => (none, s)
  | some w =>
    let c := clusterOf ld.warp
    match s.tlbLook (fibreTlb c) w.vf (a.va / 4096) with
    | none => (none, s.askWalk ⟨.load id a.lane, dieOf c, fibreTlb c, w.vf, a.va / 4096, accRead⟩)
    | some t =>
      let pa := t.phys a.va
      if s.olderLoad id ld a || s.overtakes c pa a.size then (none, s)
      else if !s.memAllows c w.vf pa true false then
        let s := s.logMem c w.vf pa true false
        let s := if ld.isPref then s
          else s.informFault w.vf (a.va / 4096) c accRead 4 0 0 (handleOf ld.warp) w.launch (dieOf c)
        (none, s.refuseAcc id a.lane 2)
      else match (if ld.isPref then none else s.ownBad ld.warp a.lane pa a.size) with
        | some v => (none, s.shadowError v)
        | none => (some t, s.findShadow (s.laneChain ld.warp a.lane) pa a.size)

/-- The load is served through L1 (R78): its treatment is plain, and its page is no reduction page (R93). -/
def Load.throughL1 (ld : Load) (t : Tlb) : Bool := ld.ord ≠ 3 && ld.ord ≠ 5 && decide (t.kind < 3)

/-- A hit in L1 (R76, R82). Reading dirty bytes enters the workgroup in the line's reader mask. -/
def State.bindHit (s : State) (id : Nat) (ld : Load) (a : Acc) (pa : Nat) : State :=
  let c := clusterOf ld.warp
  let line := lineOf pa
  let dirty := (List.range a.size).any fun i => ((s.l1Serves c (pa + i)).bind L1Byte.writer).isSome
  let base (i : Nat) : Byte × Bool := (((s.l1Serves c (pa + i)).map L1Byte.val).getD 0, false)
  let s' := s.bindAcc id ld a pa base none
  let s' := s'.findPlants 8 fun k => decide (l1ByteKey c pa / 8 ≤ k / 8 ∧ k / 8 ≤ l1ByteKey c (pa + a.size - 1) / 8)
  if dirty then s'.noteReader c line (s.wgOf ld.warp).idx else s'

/-- A renewal (R79, R82): the sector is read past L1, fills L1 unless the load is streaming or L2-only, and dirty L1 bytes stand over it. -/
def State.bindMiss (s : State) (id : Nat) (ld : Load) (a : Acc) (t : Tlb) (pa : Nat) : State :=
  let c := clusterOf ld.warp
  let at' := pa / 64 * 64
  let through := ld.throughL1 t
  let s := if through then s.noteMiss ld.warp (lineOf pa) else s
  let (r, s) := s.readSector c at' t.lease t.kind (ld.ord = 3)
  let s := if through && !r.lost then s.l1Fill ld.warp c at' r t.vf t.lease t.kind else s
  let dirty (i : Nat) : Option Byte := ((s.l1Bytes.look (l1ByteKey c (pa + i))).filter fun b => b.writer.isSome).map L1Byte.val
  let base (i : Nat) : Byte × Bool := match (if through then dirty i else none) with
    | some b => (b, false)
    | none => (r.bytes.getD (pa % 64 + i) 0, r.lost || s.badWord (pa + i))
  let some' := through && (List.range a.size).any fun i => (dirty i).isSome
  let s := s.bindAcc id ld a pa base (some r.wts)
  if some' then s.noteReader c (lineOf pa) (s.wgOf ld.warp).idx else s

/-- The regions of a lane. -/
def State.laneRegions (s : State) (sel lane : Nat) : List Nat := ((s.fibres.look (fibreKey sel lane)).map Fibre.regions).getD []

/-- A load of scratchpad bytes in stash windows fills their sectors first (R75). -/
def State.bindStash (s : State) (id : Nat) (ld : Load) (a : Acc) : State :=
  let g := s.wgOf ld.warp
  let needs := s.stashNeeds g (s.laneRegions ld.warp a.lane) a.va a.size
  let tags := s.chainTags ld.warp a.lane
  let phys (q : Nat × Nat) : Nat := ((g.stash.find? fun w => w.scr = q.1).map fun w => w.phys (w.scr + 64 * q.2)).getD 0
  if needs.any fun q => (s.l2Line (lineOf (phys q))).pending || s.overtakes g.cluster (phys q) 64 then s
  else match needs.findSome? fun q => (List.range 64).findSome? fun i => s.shadowBad (tags.map Prod.fst) (phys q + i) with
    | some v => s.shadowError v
    | none =>
      let s := needs.foldl (fun s q => (s.findShadow (tags.map Prod.fst) (phys q) 64).fillStash (s.wgNo ld.warp) tags q.1 q.2) s
      s.setAcc id a.lane (s.scrLoad g a.va a.size)

/-- The access of a lane that has not yet been bound, of a warp that stands on a cluster. -/
def State.waitingAcc (s : State) (id lane : Nat) : Option (Load × Acc) :=
  (s.loads.look id).bind fun ld => if ld.warp ≥ 6144 then none else (ld.accs.find? fun a => decide (a.lane = lane ∧ a.phase = .wait)).map fun a => (ld, a)

/-- READ_RENEW (R82): a lane of a load that its L1 does not serve reads its line past it, with the lease extended; a load in a stash window
fills its sector. A line that waits for a commit serves no read (R87). -/
def execReadRenew (id lane : Nat) (s : State) : Result :=
  .next (match s.waitingAcc id lane with
    | none => s
    | some (ld, a) => match ld.kind with
      | .scratch => s.bindStash id ld a
      | .mem => match s.loadLeaf id ld a with
        | (none, s) => s
        | (some t, s) =>
          let pa := t.phys a.va
          let c := clusterOf ld.warp
          if ld.throughL1 t && (s.l1Errors c (lineOf pa)).any fun w => decide (pa / 8 ≤ w ∧ w ≤ (pa + a.size - 1) / 8) then s.l1Out c (lineOf pa)
          else if ld.throughL1 t && s.l1Hit c pa a.size then s
          else if (s.l2Line (lineOf pa)).pending then s
          else s.bindMiss id ld a t pa
      | _ => s)

/-- A lane that L1 or the scratchpad serves is bound there. -/
def State.bindNear (s : State) (id lane : Nat) : State :=
  match s.waitingAcc id lane with
  | none => s
  | some (ld, a) => match ld.kind with
    | .scratch =>
      let g := s.wgOf ld.warp
      if (s.stashNeeds g (s.laneRegions ld.warp lane) a.va a.size).isEmpty then s.setAcc id lane (s.scrLoad g a.va a.size) else s
    | .mem => match s.loadLeaf id ld a with
      | (none, s) => s
      | (some t, s) => if ld.throughL1 t && s.l1Hit (clusterOf ld.warp) (t.phys a.va) a.size then s.bindHit id ld a (t.phys a.va) else s
    | _ => s

/-- LOAD_FILL (R42): the data of a lane, bound by now or served near it, fill its register full or poisoned. -/
def execLoadFill (id lane : Nat) (s : State) : Result :=
  let s := s.bindNear id lane
  .next (match (s.loads.look id).bind fun ld => (ld.accs.find? fun a => a.lane = lane).map fun a => (ld, a) with
    | none => s
    | some (ld, a) => if (s.warps.look ld.warp).isNone || ld.warp ≥ 6144 then s else match a.phase with
      | .bound x poison wts => s.fillAcc id ld a x poison wts
      | .refused origin => s.fillAcc id ld a 0 (some origin) none
      | _ => s)

/-! ### Stores at their homes (R82, R103, R124) -/

/-- An acknowledged request leaves, and its store with its last request (R124). -/
def State.ackFlight (s : State) (id : Nat) (f : Flight) : State :=
  let s := { s with flights := s.flights.del id, packets := s.packets.del id }
  match f.store.bind fun r => (s.stores.look r).map fun x => (r, x) with
  | none => s
  | some (r, x) =>
    let left := x.left.filter fun i => i ≠ id
    if left.isEmpty then ({ s with stores := s.stores.del r }).modWarp x.warp fun w => { w with stores := w.stores - 1 }
    else { s with stores := s.stores.put r { x with left := left } }

/-- The packet of a request has been dropped, or stands before a link that takes no beats (R357, R358). -/
def State.packetHeld (s : State) (id : Nat) : Bool :=
  match s.packets.look id with
  | none => false
  | some p => !p.queued || (match s.ports.look p.port with
    | some q => q.dead || q.stopped || !q.trained
    | none => true)

/-- What a request waits for at its home: its packet, the requests it must follow, an older one of its cluster to the same bytes, a line that waits
for a commit. -/
def State.flightWaits (s : State) (id : Nat) (f : Flight) : Bool :=
  (f.after.any fun i => (s.flights.look i).isSome) || (s.l2Line (lineOf f.addr)).pending || s.packetHeld id ||
    s.flights.any fun p => decide (p.1 < id) && p.2.cluster = f.cluster && !p.2.merged && p.2.bytes.any fun b => f.bytes.any fun d => d.1 = b.1

/-- The operation whose sample store was refused stops. -/
def State.stopSender (s : State) (id : Nat) (f : Flight) : State :=
  match s.engines.first fun _ e => e.tried.contains id && f.master = engineMaster e.cluster with
  | some (i, _) => s.stopOp i 0x0A accWrite f.va
  | none => s

/-- A speculative-window store reaches the open window's version on the home die of its sequence's gang, tagged (R179, R262). A window that
has closed meanwhile takes nothing. -/
def State.mergeWindow (s : State) (f : Flight) (q number tag : Nat) : State :=
  let d := dieOf f.cluster
  let mine := (s.versions.filter fun p => p.2.owner = .window q number && p.2.state = .isOpen).map fun p => (p.1, p.2.die)
  match (mine.find? fun p => p.2 = d).orElse fun _ => mine.head? with
  | none => s
  | some (v, _) => ({ s with versions := s.versions.modify v fun x => { x with
      tagged := Tagged.merge (f.bytes.map fun (b : Nat × Byte) => ⟨tag, b.1, b.2⟩) x.tagged } }).firePlants 2 (touches f.bytes) (covers f.bytes)

/-- Dirty L2 bytes of a sample store go through to HBM (R97). -/
def State.writeThrough (s : State) (bs : List (Nat × Byte)) : State :=
  ({ s with
    hbm := bs.foldl (fun (t : Tab Byte) (b : Nat × Byte) => t.set hbmFresh b.1 b.2) s.hbm
    l2Bytes := bs.foldl (fun (t : Tab L2Byte) (b : Nat × Byte) => t.modify b.1 fun x => { x with dirty := false }) s.l2Bytes }).firePlants 3
    (touches bs) (covers bs)

/-- A store's bytes merge at their home under the write rule. A release's own store carries the pts that the stores before it have left
(R83). -/
def State.mergeStore (s : State) (id : Nat) (f : Flight) : State :=
  let f := if f.after.isEmpty then f else { f with pts := (s.cluster f.cluster).pts.toNat }
  let (t, s) := s.mergeFlight f
  let s := if f.kind = .sample && t.isSome then s.writeThrough f.bytes else s
  { s with flights := s.flights.modify id fun x => { x with merged := true, wts := t.getD 0 } }

/-- WRITE_MERGE (R82): the masked bytes of a store reach their home. A request that a table refuses there is logged and writes nothing
(R302, R303). -/
def execWriteMerge (id : Nat) (s : State) : Result :=
  .next (match s.flights.look id with
    | none => s
    | some f =>
      if (f.kind ≠ .write && f.kind ≠ .sample) || f.merged || s.flightWaits id f then s
      else if !s.memAllows f.master f.vf f.addr false true then
        let s := (s.logMem f.master f.vf f.addr false true).stopSender id f
        { s with flights := s.flights.modify id fun x => { x with kind := .write, merged := true } }
      else match f.window with
        | some (q, number, tag) =>
          { (s.mergeWindow f q number tag) with flights := s.flights.modify id fun x => { x with merged := true } }
        | none => s.mergeStore id f)

/-- STORE_ACK (R82): the acknowledgement raises the cluster's pts to the line's wts. A refused or lost store carries none. -/
def execStoreAck (id : Nat) (s : State) : Result :=
  .next (match s.flights.look id with
    | none => s
    | some f =>
      if f.kind ≠ .write || !f.merged then s
      else
        let s := if f.window.isSome || f.wts = 0 then s else s.raisePts f.cluster f.wts
        s.ackFlight id f)

/-! ### Atomics (R82, R93, R181) -/

/-- The old value of an atomic comes back: to its lane, and to the compare buffer of a redundant pair (R355). -/
def State.atomReply (s : State) (f : Flight) (load : Option Nat) (lane old : Nat) (ph : LPhase) (poisoned : Bool) (wts : Nat) : State :=
  let s := s.raisePts f.cluster wts
  match load with
  | none => s
  | some l =>
    let s := match (s.wgs.look f.wg).filter fun g => g.copy = 1 with
      | some g =>
        let no := s.fibreNo (fibreKey f.warp lane)
        s.forwarded g.pair (fun x => x.opId = l && x.fibre = no) [old, if poisoned then 1 else 0]
      | none => s
    s.setAcc l lane ph

/-- An atomic acts at its home as one read and write. -/
def State.atomHome (s : State) (f : Flight) (op ty value compare : Nat) (load : Option Nat) (lane : Nat) : State :=
  let line := lineOf f.addr
  let n := f.bytes.length
  let s := if s.hasPartials line then s.mergePartials line else s
  let before := s.isRetired f.addr
  let s := s.checkRead f.addr n
  let lost := s.isRetired f.addr && !before
  let old := s.homeNat f.addr n
  let bad := lost || s.anyBad f.addr n
  if bad || atomFails op old compare then
    let (ts, s) := s.renewHome f.addr f.pts f.lease false
    s.atomReply f load lane old (.bound old (if bad then some 0 else none) (some ts.1)) bad ts.1
  else
    let (t, s) := s.mergeHome (bytesAt f.addr n (atomNew op (tyOf ty) old value compare)) (some f.pts) f.vf f.context
    s.atomReply f load lane old (.bound old none t) false (t.getD (s.cluster f.cluster).pts.toNat)

/-- ATOMIC_AT_HOME (R82, R181). A request that a table refuses there poisons its lane (R175, R302). -/
def execAtomicAtHome (id : Nat) (s : State) : Result :=
  .next (match s.flights.look id with
    | none => s
    | some f => match f.kind with
      | .atomic op ty value compare load lane =>
        if s.flightWaits id f then s
        else if !s.memAllows f.master f.vf f.addr true true then
          let s := (s.logMem f.master f.vf f.addr true true).informFault f.vf (f.va / 4096) f.master (accRead + accWrite) 4 0 0 (handleOf f.warp)
            f.context (dieOf f.cluster)
          (s.atomReply f load lane 0 (.refused 2) true (s.cluster f.cluster).pts.toNat).ackFlight id f
        else
          let f' := if f.after.isEmpty then f else { f with pts := (s.cluster f.cluster).pts.toNat }
          (s.atomHome f' op ty value compare load lane).ackFlight id f
      | _ => s)

/-! ### Reduction pages (R92, R93) -/

/-- REDUCTION_CONTRIBUTION (R92): an element merges into the partial of its cluster's L1, or, for a streaming or L2-only store, into that of
its die's L2. -/
def execReductionContribution (id : Nat) (s : State) : Result :=
  .next (match s.flights.look id with
    | none => s
    | some f => match f.kind with
      | .contribution kind whole =>
        if f.after.any fun i => (s.flights.look i).isSome then s
        else
          let x := ofBytes (f.bytes.map Prod.snd)
          let s := if whole then s.mergeL2Part (dieOf f.cluster) f.addr kind x f.vf else s.mergeL1Part f.cluster f.addr kind x f.vf
          s.ackFlight id f
      | _ => s)

/-- REDUCTION_MERGE (R93): the home recalls and merges the partials of a line. -/
def execReductionMerge (line : Nat) (s : State) : Result :=
  .next (if s.hasPartials line && !(s.l2Line line).pending then s.mergePartials line else s)

/-! ### Ticks, sweeps and evictions (R66, R76, R82, R84, R285) -/

/-- A context that a debugger halt holds stopped has a warp on the cluster: its ticks are not counted (R285). -/
def State.tickHeld (s : State) (c : Nat) : Bool := s.warps.any fun p => clusterOf p.1 = c && s.halts.contains p.2.launch

/-- The sweep of R84 over the stash windows of a workgroup: an old sector is invalidated, its dirty bytes written back first. -/
def State.sweepStash (s : State) (wg : Nat) : State :=
  match s.wgs.look wg with
  | none => s
  | some g =>
    let lo := ((s.cluster g.cluster).pts.toNat + 65536 - 16384) % 65536
    let sel := (s.warpsOf wg).headD (g.cluster * 32)
    g.stash.foldl (fun s w =>
      let old := (w.sectors.filter fun x => tsLt x.2.2 lo).map Prod.fst
      if old.isEmpty then s
      else
        let part := { w with bytes := w.bytes.filter fun b => old.contains (b.1 / 64) }
        let (_, s) := s.flushWindow sel wg g part
        s.modStash wg w.scr fun x => { x with
          sectors := x.sectors.filter fun y => !old.contains y.1
          bytes := x.bytes.filter fun b => !old.contains (b.1 / 64) }) s

/-- PTS_TICK (R82, R84): each 1,024 cycles of the cluster's clock its pts advances by one, is raised to D − 2^13, and old copies are swept. -/
def execPtsTick (c : Nat) (s : State) : Result :=
  .next (
    let k := s.cluster c
    if (k.cyc - k.ticked).toNat < 1024 then s
    else
      let s' := s.modCluster c fun k => { k with ticked := k.ticked + 1024 }
      if s.tickHeld c then s'
      else
        let s' := s'.modCluster c fun k => { k with pts := k.pts + 1 }
        let s' := s'.raisePts c (((s.die (dieOf c)).maxTs + 65536 - 8192) % 65536)
        let gs := (s.wgs.filter fun p => p.2.cluster = c && p.2.phase ≠ .saved).map Prod.fst
        gs.foldl (fun s g => s.sweepStash g) (s'.sweepL1 c))

/-- L1_EVICT (R76): a line leaves a cluster's L1, its masked bytes sent to L2. -/
def execL1Evict (cluster line : Nat) (s : State) : Result := .next (s.l1Out cluster line)

/-- ALIAS_EVICT (R66, R67): an alias line leaves a die's L2, its dirty blocks re-encoded. -/
def execAliasEvict (die line : Nat) (s : State) : Result :=
  .next (if s.ownDie (line * 256) = some die && !(s.l2Line line).pending then s.evictAlias line else s)

/-! ### Commits (R87, R263, R350) -/

/-- A commit that meets an uncorrectable shadow is abandoned: nothing is published, and the owner is treated as R350 says. -/
def State.abandonCommit (s : State) (v : Nat) (x : Version) : State :=
  let s := x.lineList.foldl (fun s l => s.modL2 l fun y => { y with pending := false }) s
  ({ s with versions := s.versions.modify v fun y => { y with state := .isOpen } }).shadowError v

/-- The SPWC whose commit a window's version is part of. -/
def State.closingOp (s : State) (v : Nat) : Option (Nat × EngOp) :=
  s.engines.first fun _ e => decide (e.opcode = 0x74 ∧ e.phase = .sending) && (e.note.drop 3).contains v

/-- COMMIT_PUBLISH (R87): an outermost commit whose shadows stand at their homes publishes them at one timestamp. No wait of a halted
context returns (R287). -/
def execCommitPublish (v : Nat) (s : State) : Result :=
  .next (match s.versions.look v with
    | none => s
    | some x =>
      if x.state ≠ .committing then s
      else match x.owner with
        | .region r =>
          if ((s.regions.look r).bind fun g => (s.warps.look g.warp).map Warp.state) = some .halted then s
          else if s.versionBad v then s.abandonCommit v x
          else (s.publish [v] x.cluster).regionPublished r
        | .window q _ => match s.closingOp v with
          | none => s
          | some (id, e) =>
            if (e.note.drop 3).any s.versionBad then
              let s := (e.note.drop 3).foldl State.abortVersion s
              ({ s with lostWindows := s.lostWindows.put q true }).closeWindow id { e with note := [0, 0, 1] }
            else s.publishWindow id e
        | .workgroup g =>
          if s.versionBad v then s.abandonCommit v x
          else (s.publish [v] x.cluster).modWg g fun y => { y with version := none })

/-! ### Rollback (R218, R221) -/

/-- An operation that a member issued since the region opened has not made its arrival. -/
def State.memberOps (s : State) (x : Region) : Bool := s.engines.any fun p => decide (p.1 ≥ x.opened) && x.members.contains p.2.fibre

/-- An enclosing region has an error of its own, whose rollback covers this one (R221). -/
def State.outerError (s : State) (x : Region) : Nat → Bool
  | 0 => false
  | fuel + 1 => match x.parent.bind fun p => s.regions.look p with
    | none => false
    | some y => y.error.isSome || s.outerError y fuel

/-- The members' outstanding loads are cancelled, their destinations full and zero; parked ones let the warp go (R218, R221). -/
def State.cancelMembers (s : State) (x : Region) : State :=
  let lanes := x.members.map fun m => m % 32
  let mine := s.loads.filter fun p => p.2.warp = x.warp
  let s := mine.foldl (fun s p =>
    let hit := p.2.accs.filter fun a => lanes.contains a.lane && a.phase ≠ .done
    let s := hit.foldl (fun s a => match a.dst with
      | some d => s.fillDst d 0 none none
      | none => s) s
    s.cancelAccs p.1 fun a => lanes.contains a.lane) s
  let ended (q : Park) : Bool := match q.load with
    | some (_, lane) => lanes.contains lane
    | none => true
  (s.modWarp x.warp fun w => { w with parks := w.parks.filter fun q => !ended q }).unparkIfFree x.warp

/-- Stash bytes of regions that are rolled back become unfilled (R187). -/
def State.dropStashOf (s : State) (wg : Nat) (rs : List Nat) : State :=
  s.modWg wg fun g => { g with stash := g.stash.map fun w => { w with bytes := w.bytes.filter fun b => match b.2.region with
    | some r => !rs.contains r
    | none => true } }

/-- The preserved set returns: scratchpad, registers, then each member's wb, predicates and signature (R218, R360). -/
def State.restoreRegion (s : State) (x : Region) : State :=
  let s := x.ranges.foldl (fun s r =>
    let bs := (List.range r.2).map fun i => ((x.bytes.look (r.1 + i)).getD 0)
    (s.scrPut ((s.wgs.look x.wg).getD default) r.1 bs).dirtyStash x.wg r.1 r.2 x.parent) s
  let s := x.vRegs.foldl (fun s p => if p.2.st = .empty then s else s.storeV p.1 p.2) s
  let s := x.kRegs.foldl (fun s p => if p.2.st = .empty then s else s.setK p.1 p.2) s
  x.undo.foldl (fun s u => s.modFibre u.fibre fun f => { f with preds := u.preds, wb := u.wb, sigCount := u.sigCount, sigPart := u.sigPart }) s

/-- The members resume at the region's target, as at a clause header. -/
def State.resumeMembers (s : State) (x : Region) : State :=
  x.members.foldl (fun s m => s.modFibre m fun f => { (f.goto x.target) with wait := .none, quitting := false }) s

/-- Retries are exhausted: the region closes without commit. The enclosing region rolls back next, or the fibre traps. -/
def State.exhaust (s : State) (r : Nat) (x : Region) (fib : Nat) : State :=
  let s := s.dropRegion r
  let s := x.members.foldl (fun s m => s.modFibre m fun f => { f with wait := .none, quitting := false }) s
  match x.parent with
  | some p => s.detect p fib x.cause
  | none =>
    let s := s.lateTrap x.warp ⟨0x11, fib % 32, 0, 0, 0⟩
    s.modWarp x.warp fun w => { w with stop := { w.stop with lanes := [fib % 32] } }

/-- ROLLBACK (R218): once the operations of its members have arrived, a region with a detected error returns to its snapshot. -/
def execRollback (r : Nat) (s : State) : Result :=
  .next (match s.regions.look r with
    | none => s
    | some x => match x.error with
      | none => s
      | some fib =>
        let spent := decide (x.retry + 1 > x.limit)
        let held := ((s.warps.look x.warp).bind Warp.hold).isSome && (s.batchLanes x.warp).any fun l => x.members.contains (fibreKey x.warp l)
        if s.memberOps x || s.outerError x 8 || held then s
        else if spent && x.parent.isNone && ((s.warps.look x.warp).map Warp.state) = some .stopped then s
        else
          let inner := (s.regionsInside r).filter fun i => i ≠ r
          let s := inner.foldl (fun s i => match s.regions.look i with
            | some y => (s.abortVersion y.version).dropRegion i
            | none => s) s
          let s := s.abortVersion x.version
          let s := (s.cancelMembers x).dropStashOf x.wg (r :: inner)
          let s := s.restoreRegion x
          if spent then s.exhaust r x fib
          else
            let w := (s.warps.look x.warp).getD default
            let (v, s) := s.openVersion (Version.fresh (dieOf (clusterOf x.warp)) (s.parentVersion x) (.region r) (clusterOf x.warp) w.vf w.launch)
            let s := { s with regions := s.regions.modify r fun y => { y with
              version := v, retry := y.retry + 1, arrived := [], error := none, cause := 0 } }
            s.resumeMembers x)

end Sys2Proof.Machine
end

