-- ==== Sys2Proof/Machine/TransEvents.lean ====
section
/-! DEFINITION. The walker, the fault queues and the pager's answers (R325 to R332, R269). -/

namespace Sys2Proof.Machine

open Sys2Proof.Num (bits bit toBytes)

/-! ### Walks (R325, R326, R328) -/

/-- The warp for which an asker acts: an instruction's own, or an operation's issuer while it stands. -/
def State.askerWarp (s : State) (a : Asker) : Option Nat :=
  match a with
  | .warp w _ | .cow w => some w
  | .engine id => (s.engines.look id).bind fun e => if ((s.warps.look e.warp).map Warp.wg) = some e.wg then some e.warp else none
  | _ => none

/-- A write met a shared page of its own sequence's KV range: the sequence engine is to copy it (R269). Answers the warp. -/
def State.cowWarp (s : State) (w : Walk) : Option Nat :=
  (s.askerWarp w.who).bind fun sel =>
    ((s.warps.look sel).bind Warp.bound).bind fun q => if s.inKv q (w.page * 4096) 4096 then some sel else none

/-- The requester waits for the copy. -/
def State.askCow (s : State) (w : Walk) (sel : Nat) : State :=
  let s := match w.who with
    | .engine id => s.modOp id fun e => { e with phase := .suspended w.page }
    | _ => s.parkWarp sel ⟨w.page, none⟩
  s.askWalk { w with who := .cow sel }

/-- The requester of a walk still waits for it. -/
def State.stillAsks (s : State) (w : Walk) : Bool :=
  match w.who with
  | .warp sel _ | .cow sel => (s.warps.look sel).isSome
  | .load id lane => ((s.loads.look id).map fun ld => ld.accs.any fun a => a.lane = lane && (a.phase = .wait || a.phase = .parked)).getD false
  | .engine id => (s.engines.look id).isSome
  | .save g => (s.wgs.look g).isSome
  | .record _ _ _ | .migration _ _ => true

/-- The outcome of a walk reaches its requester (R328). -/
def State.walkEnd (s : State) (w : Walk) (o : WalkOut) : State :=
  if !s.stillAsks w then s
  else match o with
    | .found t => s.foundAsker w t
    | .absent level => s.faultAsker w 0 level
    | .protect level cow _ => match (if cow then s.cowWarp w else none) with
      | some sel => s.askCow w sel
      | none => s.faultAsker w 1 level
    | .fatal detail level => s.failAsker w.who w.vf w.page w.access w.die detail level
    | .refused pa level =>
      (s.logMem (unitMaster w.die) w.vf pa true false).failAsker w.who w.vf w.page w.access w.die walkRefused level

/-- A walk of this requester is held: it is a copy's (R269), of a warp that is pre-empted, or a parked load of a halted warp, whose replay
waits for the resume. -/
def State.walkHeld (s : State) (w : Walk) : Bool :=
  match w.who with
  | .cow _ => true
  | .warp sel _ => sel ≥ 6144
  | .load id lane => match s.loads.look id with
    | some ld => ld.warp ≥ 6144 || ((s.warps.look ld.warp).map Warp.state) = some .halted && ld.accs.any fun a => a.lane = lane && a.phase = .parked
    | none => false
  | _ => false

/-- PAGE_WALK (R325): one walk serves every request of its die for the page of its virtual function (R326). -/
def execPageWalk (id : Nat) (s : State) : Result :=
  .next (match s.walks.look id with
    | none => s
    | some w =>
      if s.walkHeld w then s
      else
        let joined := s.walks.filter fun p => p.2.die = w.die && p.2.vf = w.vf && p.2.page = w.page && !s.walkHeld p.2
        let s := { s with walks := s.walks.keep fun i _ => !(joined.map Prod.fst).contains i }
        let wr (x : Walk) : Bool := bit x.access 1
        let ends := joined.map fun p => (p.2, s.walk p.2.die p.2.vf (p.2.page * 4096) (wr p.2))
        let s := s.cachePtrs w.die ((ends.head?.map fun p => p.2.1).getD [])
        ends.foldl (fun s p => s.walkEnd p.1 p.2.2) s)

/-! ### The fault queue (R329 to R331) -/

/-- The 32 bytes of an entry. -/
def PageFault.bytes (f : PageFault) (n : Nat) : List Byte :=
  toBytes 8 (f.page * 4096) ++ toBytes 2 f.master ++ toBytes 1 f.access ++ toBytes 1 f.cause ++ toBytes 1 f.detail ++ toBytes 1 f.level ++
    toBytes 2 0 ++ toBytes 4 n ++ toBytes 4 f.warp ++ toBytes 4 (f.launch % 2 ^ 24) ++ toBytes 4 (if f.cause ≤ 2 then 0 else 3)

/-- FAULT_ENTRY_WRITE (R329): the oldest entry not yet written is written, then the producer count, once the queue has room. An entry whose
requesters have all withdrawn is not written (R336). -/
def execFaultEntryWrite (vf : Nat) (s : State) : Result :=
  let area := s.faultArea vf
  let used := (s.homeNat (area + 131072) 4 + 2 ^ 32 - s.homeNat (area + 131076) 4) % 2 ^ 32
  .next (match s.faults.first fun _ f => f.vf = vf && f.number.isNone with
    | none => s
    | some (id, f) =>
      if area = 0 || (f.cause ≤ 2 && f.askers.isEmpty) then { s with faults := s.faults.del id }
      else if used ≥ 4096 then s
      else
        let n := s.homeNat (area + 131072) 4
        let bs : List (Nat × Byte) := ((List.range 32).zip (f.bytes n)).map fun p => (area + 32 * (n % 4096) + p.1, p.2)
        let s := (s.unitWrite f.die vf bs).unitWrite f.die vf (bytesAt (area + 131072) 4 (n + 1))
        if f.cause ≤ 2 then { s with faults := s.faults.put id { f with number := some n } } else { s with faults := s.faults.del id })

/-- A requester tries its translation again. -/
def State.retryAsker (s : State) (f : PageFault) (a : Asker) : State :=
  match a with
  | .warp sel access => s.askWalk ⟨a, dieOf (clusterOf sel), fibreTlb (clusterOf sel), f.vf, f.page, access⟩
  | .cow sel => s.unpark sel ⟨f.page, none⟩
  | .load id _ => match s.loads.look id with
    | some ld => s.askWalk ⟨a, dieOf (clusterOf ld.warp), fibreTlb (clusterOf ld.warp), f.vf, f.page, accRead⟩
    | none => s
  | .engine _ | .save _ | .migration _ _ => s
  | .record d v q => { s with queues := s.queues.modify ((d * 64 + v) * 16 + q) fun l => l.map fun (r : QRec) => { r with blocked := none } }

/-- PAGER_RESPONSE (R331): the home of a pending entry sees its response word: 1 resumes every merged requester, another value declines it. -/
def execPagerResponse (vf entry : Nat) (s : State) : Result :=
  .next (match s.faults.first fun _ f => f.vf = vf && f.number = some entry with
    | none => s
    | some (id, f) =>
      let x := s.homeNat (s.faultArea vf + 32 * (entry % 4096) + 28) 4
      if x = 0 then s
      else
        let s := { s with faults := s.faults.del id }
        if x = 1 then f.askers.foldl (fun s a => s.retryAsker f a) s
        else f.askers.foldl (fun s a => s.failAsker a f.vf f.page f.access f.die 0 f.level) s)

end Sys2Proof.Machine
end

