-- ==== Sys2Proof/Machine/LaunchUnit.lean ====
section
/-! DEFINITION. Launch records, the LAUNCH instruction, and a record's acceptance or refusal by a die's launch unit (R212, R213, R309 to R312). -/

namespace Sys2Proof.Machine

open Sys2Proof.Num (bits bit sgn)

/-! ### The record's fields (R309) -/

def recGrid (b : List Byte) : Nat × Nat × Nat := (fld b 8 4, fld b 12 4, fld b 16 4)
/-- The number of workgroups. -/
def recCount (b : List Byte) : Nat := fld b 8 4 * fld b 12 4 * fld b 16 4
def recWarps (b : List Byte) : Nat := fld b 20 1
def recLanes (b : List Byte) : Nat := fld b 21 1
def recRegs (b : List Byte) : Nat := fld b 22 1
def recXregs (b : List Byte) : Nat := fld b 23 1
def recTemporal (b : List Byte) : Nat := fld b 24 4
def recSlots (b : List Byte) : Nat := fld b 28 1
def recPriority (b : List Byte) : Nat := fld b 29 1 % 4
def recFlag (b : List Byte) (n : Nat) : Bool := bit (fld b 30 2) n
def recPrivileged (b : List Byte) : Bool := recFlag b 0
def recVersioned (b : List Byte) : Bool := recFlag b 1
def recRedundant (b : List Byte) : Bool := recFlag b 2
def recBound (b : List Byte) : Bool := recFlag b 3
def recDepends (b : List Byte) : Bool := recFlag b 4
def recScratch (b : List Byte) : Nat := fld b 32 4
def recAcc (b : List Byte) : Nat := fld b 36 2
def recSlack (b : List Byte) : Nat := fld b 38 2
def recSeq (b : List Byte) : Nat := fld b 40 2
def recBarriers (b : List Byte) : Nat := fld b 44 4
def recExpected (b : List Byte) (n : Nat) : Nat := fld b (48 + 2 * n) 2
def recGroups (b : List Byte) : Nat := fld b 80 2
def recImageLen (b : List Byte) : Nat := fld b 104 4
def recSems (b : List Byte) : Nat := fld b 108 2
def recCompletion (b : List Byte) : Nat := fld b 120 8
def recProducer (b : List Byte) : Nat := fld b 128 3
def recMapping (b : List Byte) : Nat := fld b 131 1
def recParam (b : List Byte) (n : Nat) : Int := sgn 32 (fld b (132 + 4 * n) 4)
def recSave (b : List Byte) : Nat := fld b 148 8
/-- Extended blocks that a workgroup takes out of its cluster's pool (R309, R313). -/
def recBlocks (b : List Byte) : Nat := recWarps b * (if recRegs b > 64 then 1 else 0) + recXregs b
/-- Whole rails of a workgroup's scratchpad (R10, R71). -/
def recRails (b : List Byte) : Nat := (recScratch b + 147) / 148
/-- The number of bits set. -/
def popcount (n w : Nat) : Nat := ((List.range w).filter fun i => bit n i).length

/-- Some field holds a value of the "invalid" column (R309). -/
def recInvalid (b : List Byte) : Bool :=
  let g := recGrid b
  fld b 0 8 % 8 ≠ 0 || fld b 0 8 ≥ 2 ^ 48 || g.1 = 0 || g.2.1 = 0 || g.2.2 = 0 || recCount b > 2 ^ 24 || recWarps b = 0 ||
    recLanes b = 0 || recLanes b > 32 || recRegs b = 0 || recXregs b > recWarps b || recTemporal b / 2 ^ recWarps b ≠ 0 ||
    fld b 29 1 ≥ 4 || fld b 30 2 ≥ 32 || (recRedundant b && !recVersioned b) || recScratch b < recImageLen b || recAcc b % 16 ≠ 0 ||
    (if recRedundant b then recSlack b < 16 || recSlack b > 1024 else recSlack b ≠ 0) || (!recBound b && recSeq b ≠ 0) ||
    fld b 42 2 ≠ 0 || ((List.range 16).any fun n => bit (recBarriers b) n != decide (recExpected b n ≠ 0)) || fld b 82 6 ≠ 0 ||
    fld b 88 8 % 8 ≠ 0 || fld b 96 8 % 4 ≠ 0 || recImageLen b % 4 ≠ 0 || recSems b > 64 || fld b 110 2 ≠ 0 || fld b 112 8 % 16 ≠ 0 ||
    recCompletion b % 64 ≠ 0 || (!recDepends b && recProducer b ≠ 0) ||
    (if recDepends b then recMapping b = 0 || recMapping b > 5 else recMapping b ≠ 0) || recSave b % 4096 ≠ 0 || fld b 156 100 ≠ 0

/-- The lowest resource code that fails, 0 for none (R309, R311). -/
def recTooLarge (b : List Byte) (slots : Option Nat) : Nat :=
  let excess : Bool := match slots with
    | some n => recWarps b * recCount b * (if recRedundant b then 2 else 1) > n
    | none => false
  if recWarps b > 32 || excess then 1
  else if recRegs b > 128 || recBlocks b > 32 then 2
  else if recScratch b > 1212416 then 3
  else if bits (recBarriers b) 31 16 ≠ 0 then 4
  else if recGroups b > 128 then 5
  else if recSlots b > 64 then 6
  else if recAcc b > 1024 then 7
  else if popcount (recTemporal b) 32 > 4 then 8
  else 0

/-! ### Groups and semaphore requests (R28, R310) -/

/-- The group descriptors: member mask, number, role. -/
def groupList (bs : List Byte) (n : Nat) : List (Nat × Nat × Nat) := (List.range n).map fun i => (fld bs (8 * i) 4, fld bs (8 * i + 4) 1, fld bs (8 * i + 5) 1)

/-- A group descriptor breaks R28 or R310. -/
def groupsInvalid (bs : List Byte) (n warps : Nat) : Bool :=
  let gs := groupList bs n
  (gs.any fun g => g.1 = 0 || g.1 / 2 ^ min warps 32 ≠ 0 || g.2.2 > 4) || ((List.range n).any fun i => fld bs (8 * i + 6) 2 ≠ 0) ||
    (gs.map fun g => g.2.1).eraseDups.length ≠ n || (List.range 32).any fun w => (gs.filter fun g => bit g.1 w).length > 4

/-- The semaphore requests. -/
def semList (bs : List Byte) (n : Nat) : List SemReq := (List.range n).map fun i => ⟨fld bs (16 * i) 4, fld bs (16 * i + 4) 4, fld bs (16 * i + 8) 4⟩

/-- A semaphore request breaks R310 or the grid. -/
def semsInvalid (bs : List Byte) (n count imageLen : Nat) : Bool :=
  ((semList bs n).any fun r => r.poster ≥ count || r.waiter ≥ count || r.offset % 4 ≠ 0 || r.offset + 4 > imageLen) ||
    (List.range n).any fun i => fld bs (16 * i + 12) 4 ≠ 0

/-! ### Words, queues and completion records (R213, R311, R315) -/

/-- The word of R213. -/
def launchWord (status resource id : Nat) : Nat := status * 2 ^ 28 + resource * 2 ^ 24 + id

def queueKey (die vf queue : Nat) : Nat := (die * 64 + vf) * 16 + queue
def State.queueOf (s : State) (k : Nat) : List QRec := s.queues.get [] k
def State.setQueue (s : State) (k : Nat) (l : List QRec) : State := { s with queues := s.queues.set [] k l }

/-- Enqueues a record (R311); the first of an empty queue reaches its head. -/
def State.enqueue (s : State) (die queue : Nat) (r : QRec) : State :=
  let k := queueKey die r.vf queue
  s.setQueue k (s.queueOf k ++ [{ r with waited := (s.die die).queueClock }])

/-- A record leaves its queue; one that then stands at the head begins its wait there (R312). -/
def State.dequeue (s : State) (die vf queue i : Nat) : State :=
  let k := queueKey die vf queue
  let rest := (s.queueOf k).eraseIdx i
  s.setQueue k (match rest with
    | r :: rs => if i = 0 then { r with waited := (s.die die).queueClock, age := 0 } :: rs else rest
    | [] => [])

/-- Writes a completion record at the physical address that the launch record names, as the die's own write (R298, R315). -/
def State.writeCompletion (s : State) (die vf base word code retired firstFailed : Nat) : State :=
  if base = 0 || base % 64 ≠ 0 then s
  else s.unitWrite die vf (bytesAt base 4 word ++ bytesAt (base + 4) 4 code ++ bytesAt (base + 8) 4 retired ++ bytesAt (base + 12) 4 firstFailed ++
    bytesAt (base + 16) 48 0)

/-! ### What a record's issuer learns -/

/-- A LAUNCH operation has its word: its warp writes it where it waits for it, the compare buffer takes it, and an operation without an arrival
to come, whose warp no longer waits, is over. -/
def State.answerOp (s : State) (id word : Nat) : State :=
  match s.engines.look id with
  | none => s
  | some e =>
    let s := s.modOp id fun e => { e with note := [word] }
    let s := match (s.wgs.look e.wg).filter fun g => g.copy = 1 with
      | some g => s.forwarded g.pair (fun x => x.opId = id) [0, word, 0]
      | none => s
    let held := (((s.warps.look e.warp).bind Warp.hold).map fun h => h.ids.contains id).getD false
    if !held && (word ≥ 2 ^ 28 || e.bar.isNone) then s.dropOp id else s

/-- The word reaches the issuer: a host gets a response (R367). -/
def State.answer (s : State) (r : QRec) (word : Nat) : State :=
  let s := if r.fromHost then s.emit ⟨r.host, 19, [s.package, word]⟩ else s
  match r.op with
  | some id => s.answerOp id word
  | none => s

/-! ### LAUNCH (R212, R213, R355) -/

/-- Writes a LAUNCH's destination. -/
def State.launchDst (s : State) (sel l : Nat) (o : X) (word : Nat) : State := s.writeReg sel l o.aux false word none

/-- The endpoint of the root of a warp's launch (R368). -/
def State.rootHost (s : State) (sel : Nat) : Nat := s.hostOf (((s.warps.look sel).map Warp.launch).getD 0)

/-- A LAUNCH that is refused at once: its word is written, and nothing arrives. -/
def State.launchRefused (s : State) (sel l : Nat) (o : X) (word : Nat) : State :=
  (s.noReturn sel [l] fun s => (s.launchDst sel l o word).forward sel l [0, word, 0] true 0).go

/-- The bytes of a record as the launch unit reads them, or where a table refuses the read (R298, R302). -/
def State.recordBytes (s : State) (sel va : Nat) : List Byte ⊕ Nat :=
  let vf := ((s.warps.look sel).map Warp.vf).getD 0
  let m := unitMaster (dieOf (clusterOf sel))
  match (List.range 4).find? fun i => !s.memAllows m vf (s.physOf sel (va + 64 * i)) true false with
  | some i => .inr (s.physOf sel (va + 64 * i))
  | none => .inl ((List.range 4).flatMap fun i => s.homeBytes (s.physOf sel (va + 64 * i)) 64)

/-- The record of a LAUNCH enters its queue, and the elected lane waits at its port. -/
def State.launchQueue (s : State) (sel l queue : Nat) (e : EngOp) (rec : List Byte) : State :=
  s.noReturn sel [l] fun s =>
    let (id, s) := s.issueOp { e with order := s.nextId } []
    let s := s.forward sel l [] false id
    let s := s.enqueue (dieOf (clusterOf sel)) queue
      { bytes := rec, vf := e.vf, host := s.rootHost sel, warp := some sel, op := some id, fromHost := false, accepted := none, waited := 0,
        age := 0, blocked := none, lost := false }
    s.holdAt sel 1 0 [id]

/-- LAUNCH at its first issue. -/
def State.launchIssue (s : State) (sel l : Nat) (o : X) : State :=
  let blk := s.blockAt sel l o
  let b := s.scrBytes (s.wgOf sel) blk 32
  let rec' := fld b 0 8
  let queue := fld b 8 2
  let arrives := bit o.flags.val 0
  let bad := rec' % 64 ≠ 0 || rec' + 256 > 2 ^ 48 || queue > 15 || fld b 10 22 ≠ 0
  let die := dieOf (clusterOf sel)
  let vf := ((s.warps.look sel).map Warp.vf).getD 0
  let c := clusterOf sel
  match firstStop [fun _ => s.roomGate sel 1, fun _ => s.blockStop sel l blk 32, fun _ => if arrives then s.barStop sel l o.bar.val else none,
      fun _ => if bad then none else s.needAll sel accRead [(l, (rec' : Int))] 256 false, fun _ => s.commitStop sel [l],
      fun _ => s.issueStall sel 0x38 []] with
  | some st => s.halt sel st
  | none =>
    if bad then s.launchRefused sel l o (launchWord 3 0 0)
    else if (s.queueOf (queueKey die vf queue)).length ≥ 8 then s.launchRefused sel l o (launchWord 2 0 0)
    else if !s.tableAllows (die * 64 + 52) c vf false true then
      (s.logRefusal (die * 64 + 52) c vf 0 false true).launchRefused sel l o (launchWord 4 0 0)
    else match s.recordBytes sel rec' with
      | .inr pa => (s.logMem (unitMaster die) vf pa true false).launchRefused sel l o (launchWord 4 0 0)
      | .inl rec => s.launchQueue sel l queue { s.newOp sel l 0x38 o with blk := blk, block := b, bar := if arrives then some o.bar.val else none } rec

/-- LAUNCH as it waits for the launch unit's word. -/
def State.launchWait (s : State) (sel l : Nat) (o : X) (h : Hold) : State :=
  let id := h.ids.headD 0
  match s.engines.look id with
  | none => s.go
  | some e =>
    match e.note with
    | [] => s
    | word :: _ =>
      let s := s.launchDst sel l o word
      (if word ≥ 2 ^ 28 || e.bar.isNone then s.dropOp id else s).go

/-- The trailing copy's LAUNCH: it takes the forwarded word, and its arrival follows the leading copy's. -/
def State.launchTrailing (s : State) (sel l : Nat) (o : X) : State :=
  match firstStop [fun _ => s.forwardGate sel [l], fun _ => s.stallIf (s.acquiring sel || s.enginesFull sel)] with
  | some st => s.halt sel st
  | none =>
    let g := s.wgOf sel
    let no := s.fibreNo (fibreKey sel l)
    match s.nextForward g no with
    | none => s
    | some x =>
      let word := x.vals.getD 1 0
      (s.noReturn sel [l] fun s =>
        let s := (s.takeForward g no).launchDst sel l o word
        if word ≥ 2 ^ 28 || !bit o.flags.val 0 then s
        else if (s.engines.look x.opId).isSome then (s.issueOp { s.newOp sel l 0x38 o with phase := .mirror x.opId } []).2
        else s.arriveAt (s.wgNo sel) o.bar.val false).go

/-- LAUNCH (R212, R213): a record enters a queue of the issuer's die, and the elected lane waits, holding its port, until it is accepted or
refused. -/
def execLaunch (o : X) (s : State) : Result :=
  .next (match s.elect 0x38 o.g [xBase o, dstOpnd o.aux false] with
    | .inl t => t
    | .inr (l, s) =>
      let sel := s.actor
      if s.trailing sel then s.launchTrailing sel l o
      else match s.holdOf sel with
        | some h => s.launchWait sel l o h
        | none => s.launchIssue sel l o)

/-! ### The launch unit's reads (R298, R311, R328) -/

/-- How a read of a launch unit goes: its bytes, a page that faults, a page that is fatal, or a table that refuses. -/
inductive UnitRead where
  | ok (bs : List Byte)
  | fault (page cause level : Nat)
  | lost
  | refused (pa : Nat)
deriving Repr

/-- Where the walk of a page of a launch-unit read ends. -/
def State.unitPage (s : State) (die vf page : Nat) : UnitRead :=
  match (s.walk die vf (page * 4096) false).2 with
  | .found t => if s.memAllows (unitMaster die) vf (t.phys (page * 4096)) true false then .ok [] else .refused (t.phys (page * 4096))
  | .absent level => if s.faultArea vf = 0 then .lost else .fault page 0 level
  | .protect level _ _ => .fault page 1 level
  | .fatal _ _ => .lost
  | .refused pa _ => .refused pa

/-- Reads n bytes at a virtual address for a launch unit. -/
def State.unitRead (s : State) (die vf va n : Nat) : UnitRead :=
  if n = 0 then .ok []
  else if va + n > 2 ^ 48 then .lost
  else
    let pages := pagesOf va n
    match pages.findSome? fun p => match s.unitPage die vf p with
        | .ok _ => none
        | x => some x with
    | some x => x
    | none => .ok (pages.flatMap fun p => match (s.walk die vf (p * 4096) false).2 with
        | .found t =>
          let lo := max va (p * 4096)
          s.homeBytes (t.phys lo) (min (va + n) (p * 4096 + 4096) - lo)
        | _ => [])

/-! ### Acceptance (R288, R294, R309 to R311) -/

/-- What the check of a record gives. -/
inductive Verdict where
  | wait (page cause level : Nat)
  | refuse (status resource : Nat) (log : Option Nat)
  | accept (groups : List (Nat × Nat × Nat)) (sems : List SemReq) (image : List Byte)
deriving DecidableEq, Repr

/-- The newest identifier issued. -/
def State.newestLaunch (s : State) : Nat := (s.issuedLaunches.head?.map Prod.fst).getD 0

/-- A producer that the package has issued to the virtual function. -/
def State.issuedTo (s : State) (vf id : Nat) : Bool := (s.issuedLaunches.find? fun p => p.1 = id).map Prod.snd = some vf

/-- The dies that a launch places on: its own, or those of its sequence's pool (R253), by global number. -/
def State.placementDies (s : State) (die : Nat) (b : List Byte) : List Nat :=
  if recBound b then (List.range (s.seqPoolCount (recSeq b))).map fun i => s.seqPool (recSeq b) i else [s.package * 4 + die]

/-- The warp slots of the clusters that XS_VFSEL gives a virtual function on some dies; another package's dies count whole (log 5). -/
def State.slotsOn (s : State) (vf : Nat) (dies : List Nat) : Nat :=
  (dies.eraseDups.map fun d =>
    if d / 4 = s.package then 32 * ((List.range 48).filter fun i => s.assigned (d % 4 * 48 + i) vf).length else 32 * 48).foldl (· + ·) 0

/-- Step 2 of R311, as far as it needs no page: status 4. -/
def State.recordDenied (s : State) (vf queue : Nat) (b : List Byte) : Bool :=
  let cfg := (s.vfcfg.get 0 vf).toNat
  !bit cfg 31 || (recPrivileged b && !bit cfg queue) || (recBound b && s.seqState (recSeq b) ≠ 0 && s.seqVf (recSeq b) ≠ vf)

/-- Steps 3 and 4 of R311, over the lists as read. -/
def State.judgeRecord (s : State) (die vf : Nat) (b gs ss image : List Byte) (lost : Bool) : Verdict :=
  let ng := min (recGroups b) 128
  let ns := min (recSems b) 64
  if recInvalid b || lost || groupsInvalid gs ng (recWarps b) || semsInvalid ss ns (recCount b) (recImageLen b) ||
      (recBound b && s.seqState (recSeq b) ≠ 1) || (recDepends b && !s.issuedTo vf (recProducer b)) then .refuse 3 0 none
  else
    let code := recTooLarge b (if ns = 0 then none else some (s.slotsOn vf (s.placementDies die b)))
    if code ≠ 0 then .refuse 1 code none else .accept (groupList gs ng) (semList ss ns) image

/-- The checks of R311 in their order. -/
def State.checkRecord (s : State) (die vf queue : Nat) (r : QRec) : Verdict :=
  let b := r.bytes
  if s.recordDenied vf queue b then .refuse 4 0 none
  else if r.lost then s.judgeRecord die vf b [] [] [] true
  else
    let len := if recImageLen b > 1212416 then 0 else recImageLen b
    match s.unitRead die vf (fld b 88 8) (8 * min (recGroups b) 128), s.unitRead die vf (fld b 112 8) (16 * min (recSems b) 64),
        s.unitRead die vf (fld b 96 8) len with
    | .refused pa, _, _ | _, .refused pa, _ | _, _, .refused pa => .refuse 4 0 (some pa)
    | .fault p c l, _, _ | _, .fault p c l, _ | _, _, .fault p c l => .wait p c l
    | .ok gs, .ok ss, .ok image => s.judgeRecord die vf b gs ss image false
    | _, _, _ => s.judgeRecord die vf b [] [] [] true

/-- The identifier after one: the order passes over 0xFF_FFFE and 0xFF_FFFF (R311). -/
def nextIdentifier (id : Nat) : Nat := if id + 1 ≥ 0xFFFFFE then 0 else id + 1

/-- A refused record leaves its queue at once, with its completion record written (R311, R315). -/
def State.refuseRecord (s : State) (die vf queue i : Nat) (r : QRec) (word : Nat) : State :=
  let s := s.dequeue die vf queue i
  let s := s.writeCompletion die vf (recCompletion r.bytes) word 0 0 0xFFFFFFFF
  s.answer r word

/-- An accepted record takes the next identifier of the package. -/
def State.acceptRecord (s : State) (die vf queue i : Nat) (r : QRec) (groups : List (Nat × Nat × Nat)) (sems : List SemReq) (image : List Byte) : State :=
  let id := s.nextLaunch
  let k := queueKey die vf queue
  let l : Launch := {
    bytes := r.bytes, vf := vf, die := die, queue := queue, host := r.host
    op := if ((r.op.bind fun i => s.engines.look i).bind EngOp.bar).isSome then r.op else none
    groups := groups, sems := sems, image := image, pool := if recBound r.bytes then s.placementDies die r.bytes else []
    placed := [], retired := [], ends := [], ended := 0, suspended := false, terminated := false, complete := false, bound := [] }
  let s := s.setQueue k ((s.queueOf k).set i { r with accepted := some id })
  let s := { s with
    launches := s.launches.put id l
    nextLaunch := nextIdentifier id
    issuedLaunches := (id, vf) :: s.issuedLaunches }
  s.answer r (launchWord 0 0 id)

/-- LAUNCH_ACCEPT (R311): the oldest record of a queue that has not been checked is checked. -/
def execLaunchAccept (die vf queue : Nat) (s : State) : Result :=
  let q := s.queueOf (queueKey die vf queue)
  .next (match q.findIdx? fun r => r.accepted.isNone with
    | none => s
    | some i =>
      match q[i]? with
      | none => s
      | some r =>
        if r.blocked.isSome then s
        else match s.checkRecord die vf queue r with
          | .accept gs ss image => s.acceptRecord die vf queue i r gs ss image
          | .refuse status resource log =>
            let s := match log with
              | some pa => s.logMem (unitMaster die) vf pa true false
              | none => s
            s.refuseRecord die vf queue i r (launchWord status resource 0)
          | .wait page cause level =>
            let s := s.setQueue (queueKey die vf queue) (q.set i { r with blocked := some page })
            s.raiseFault ⟨vf, page, unitMaster die, accRead, cause, 0, level, 0xFFFFFFFF, 0, die, none, [.record die vf queue]⟩)

/-! ### Priority (R312) -/

/-- A record's effective priority. -/
def QRec.priority (r : QRec) : Nat := min 3 (recPriority r.bytes + r.age)

/-- PRIORITY_AGE (R312): the record at a queue's head has waited 65,536 cycles more without a placement. -/
def execPriorityAge (die vf queue : Nat) (s : State) : Result :=
  let k := queueKey die vf queue
  .next (match s.queueOf k with
    | [] => s
    | r :: rs =>
      if (s.die die).queueClock < r.waited + 65536 then s
      else s.setQueue k ({ r with waited := r.waited + 65536, age := r.age + 1 } :: rs))

end Sys2Proof.Machine
end

