-- ==== Sys2Proof/Machine/Place.lean ====
section
/-! DEFINITION. Placement: what a workgroup needs of a cluster, which queue a launch unit serves, and the placing of workgroups with their
semaphores (R10, R12, R21, R24 to R28, R205, R253, R312 to R314, R352). -/

namespace Sys2Proof.Machine

open Sys2Proof.Num (bits bit)

/-! ### Room on a cluster (R313) -/

/-- What a workgroup takes of a cluster. -/
structure Need where
  warps : Nat
  blocks : Nat
  rails : Nat
  groups : Nat
  slots : Nat
  rows : Nat
  temporal : Nat
deriving DecidableEq, Repr, Inhabited

def recNeed (b : List Byte) : Need :=
  ⟨recWarps b, recBlocks b, recRails b, recGroups b, recSlots b, recAcc b, popcount (recTemporal b) 32⟩

/-- The workgroups that stand on a cluster. -/
def State.residents (s : State) (c : Nat) : List (Nat × Wg) := s.wgs.filter fun p => p.2.cluster = c

/-- The free warp slots of a cluster, ascending. -/
def State.freeSlots (s : State) (c : Nat) : List Nat := (List.range 32).filter fun i => (s.warps.look (c * 32 + i)).isNone

/-- The lowest start of n units that lie clear of the ranges listed (start, length), below a limit. -/
def firstFit (used : List (Nat × Nat)) (n limit : Nat) : Option Nat :=
  let starts := 0 :: used.map fun u => u.1 + u.2
  minOf (starts.filter fun a => a + n ≤ limit && used.all fun u => decide (a + n ≤ u.1 ∨ u.1 + u.2 ≤ a))

def State.railFor (s : State) (c n : Nat) : Option Nat := firstFit ((s.residents c).map fun p => (p.2.rail, p.2.rails)) n 8192
def State.rowFor (s : State) (c n : Nat) : Option Nat := firstFit ((s.residents c).map fun p => (p.2.accRow, p.2.accRows)) n 1024
/-- The lowest placement index that no workgroup of the cluster has (R89). -/
def State.indexFor (s : State) (c : Nat) : Nat := ((List.range 32).find? fun i => !((s.residents c).any fun p => p.2.idx = i)).getD 0
def State.groupsFree (s : State) (c : Nat) : List Nat := (List.range 256).filter fun i => (s.groups.look (c * 256 + i)).isNone

/-- A cluster takes work of a virtual function: XS_VFSEL gives it, no resident workgroup is another's (R295), and no save of it waits for the
pager (R319). -/
def State.open (s : State) (c vf : Nat) : Bool :=
  s.assigned c vf && !(s.cluster c).saving &&
    (s.residents c).all fun p => ((s.launches.look p.2.launch).map fun l => decide (l.vf = vf)).getD true

/-- A cluster has room for a need. -/
def State.fits (s : State) (c vf : Nat) (n : Need) : Bool :=
  s.open c vf && n.warps ≤ (s.freeSlots c).length && n.blocks ≤ (s.cluster c).pool && (s.railFor c n.rails).isSome &&
    n.groups ≤ (s.groupsFree c).length && (((s.residents c).map fun p => p.2.slots).foldl (· + ·) n.slots) ≤ 64 && (s.rowFor c n.rows).isSome &&
    (s.warps.filter fun p => clusterOf p.1 = c && p.2.temporal).length + n.temporal ≤ 4 && (s.residents c).length < 32

/-- Among the clusters listed that fit, the one with the most free warp slots, the lower on a tie. -/
def State.bestFit (s : State) (cs : List Nat) (vf : Nat) (n : Need) : Option Nat :=
  (cs.filter fun c => s.fits c vf n).foldl (fun best c => match best with
    | none => some c
    | some d => if (s.freeSlots c).length > (s.freeSlots d).length then some c else some d) none

/-- The clusters of a die. -/
def clustersOf (die : Nat) : List Nat := (List.range 48).map fun i => die * 48 + i

/-! ### Dependences (R314) -/

/-- The producer's workgroups that a workgroup of coordinates (x, y, z) and index c needs. -/
def producersOf (b : List Byte) (grid : Nat × Nat × Nat) (c x y z : Nat) : List Nat :=
  let (px, py, pz) := grid
  let at' (i j k : Nat) : Nat := i + px * (j + py * k)
  match recMapping b with
  | 1 => if c < px * py * pz then [c] else []
  | 2 => if y < py ∧ z < pz then (List.range px).map fun i => at' i y z else []
  | 3 => if x < px ∧ z < pz then (List.range py).map fun j => at' x j z else []
  | 4 =>
    let u := recParam b 0 * (x : Int) + recParam b 1
    let v := recParam b 2 * (y : Int) + recParam b 3
    if 0 ≤ u ∧ u < px ∧ 0 ≤ v ∧ v < py ∧ z < pz then [at' u.toNat v.toNat z] else []
  | _ => List.range (px * py * pz)

/-- The coordinates of a linear index (R309). -/
def coordsOf (b : List Byte) (c : Nat) : Nat × Nat × Nat :=
  let g := recGrid b
  (c % max 1 g.1, c / max 1 g.1 % max 1 g.2.1, c / max 1 g.1 / max 1 g.2.1)

/-- A workgroup's producers have retired. -/
def State.freed (s : State) (l : Launch) (c : Nat) : Bool :=
  if !recDepends l.bytes then true
  else
    let p := recProducer l.bytes
    if (s.newestLaunch + 2 ^ 24 - p) % 2 ^ 24 > 2 ^ 23 then true
    else match s.launches.look p with
      | none => true
      | some q =>
        let (x, y, z) := coordsOf l.bytes c
        (producersOf l.bytes (recGrid q.bytes) c x y z).all fun i => q.retired.contains i

/-! ### Placing one workgroup -/

/-- The view of a sequence-bound warp on a die, as at placement: %seq, %view, %width, %rank (R37, R253). -/
def State.viewAt (s : State) (b : List Byte) (c : Nat) : Nat × Nat × Nat × Nat :=
  if recBound b then
    let q := recSeq b
    (q, s.seqView q, s.seqWidth q, (s.seqRank q (s.dieNumber c)).getD 0)
  else (0xFFFFFFFF, 0, 0, 0)

/-- A warp of a workgroup as placed. -/
def State.newWarp (s : State) (l : Launch) (launch wg num c : Nat) : Warp :=
  let b := l.bytes
  let v := s.viewAt b c
  { wg := wg, num := num, vf := l.vf, launch := launch, priv := recPrivileged b, temporal := bit (recTemporal b) num, state := .ready
    lanes := recLanes b, ext := recRegs b > 64, extOwn := false, fpc := 0, iter := 0
    seq := BitVec.ofNat 32 v.1, view := BitVec.ofNat 32 v.2.1, width := BitVec.ofNat 32 v.2.2.1, rank := BitVec.ofNat 32 v.2.2.2
    tag := 0, batch := none, hold := none, loads := 0, stores := 0, engines := 0, flagsDue := [], yields := false, last := none
    lastIssue := 0, lastCycle := (s.cluster c).cyc.toNat, exempt := false, victims := [], score := 0, parks := [], fatal := [], needs := [], stop := StopAt.none }

/-- Puts a warp into a slot: its fibres at the first clause header, its registers full and zero, its trap record cleared (R12, R14). -/
def State.putWarp (s : State) (sel : Nat) (w : Warp) (code : DWord) : State :=
  let s := { s with
    warps := s.warps.put sel w
    vRegs := s.vRegs.filter fun p => p.1 / 4096 ≠ sel
    kRegs := s.kRegs.filter fun p => p.1 / 64 ≠ sel }
  let s := s.setTrap sel TrapRec.zero
  (List.range w.lanes).foldl (fun s i => { s with fibres := s.fibres.put (fibreKey sel i) (Fibre.fresh code) }) s

/-- The physical slots of a member mask in warp numbers (R24). -/
def slotMask (slots : List Nat) (mask : Nat) : Nat := ((List.range slots.length).map fun w => if bit mask w then 2 ^ slots.getD w 0 else 0).foldl (· + ·) 0

/-- Fills the group table (R27). -/
def State.putGroups (s : State) (c wg : Nat) (slots : List Nat) (gs : List (Nat × Nat × Nat)) : State :=
  ((s.groupsFree c).zip gs).foldl (fun s p =>
    { s with groups := s.groups.put (c * 256 + p.1) ⟨wg, p.2.2.1, popcount p.2.1 32, p.2.2.2, BitVec.ofNat 32 (slotMask slots p.2.1)⟩ }) s

/-- Configures the named barriers (R200, R309). -/
def State.putBarriers (s : State) (wg : Nat) (b : List Byte) : State :=
  (List.range 16).foldl (fun s n => s.setBarrier wg n (if bit (recBarriers b) n then { Barrier.zero with configured := true, expected := recExpected b n } else Barrier.zero)) s

/-- Zeroes a workgroup's scratchpad and accumulator rows, with their poison, and writes the image (R10, R313). -/
def State.clearWg (s : State) (g : Wg) (image : List Byte) : State :=
  let inScr (k : Nat) : Bool := decide (g.scrByte 0 ≤ k ∧ k < g.scrByte 0 + g.alloc)
  let inAcc (k : Nat) : Bool := decide (accKey g.cluster g.accRow 0 ≤ k ∧ k < accKey g.cluster (g.accRow + g.accRows) 0)
  { s with
    scratch := s.scratch.filter fun p => !inScr p.1
    scratchBad := s.scratchBad.filter fun p => !(inScr (p.1 * 8) && inScr (p.1 * 8 + 7))
    acc := s.acc.filter fun p => !inAcc p.1
    accBad := s.accBad.filter fun p => !inAcc (p.1 * 2) }.scrPut g 0 image

/-- Takes extended blocks out of a cluster's pool. -/
def State.takeBlocks (s : State) (c n : Nat) : State := s.modCluster c fun k => { k with pool := k.pool - n }

/-- A workgroup of a launch as its record gives it, before its slots are taken. -/
def State.wgFrom (s : State) (l : Launch) (launch lin copy pair c : Nat) : Wg :=
  let b := l.bytes
  let (x, y, z) := coordsOf b lin
  { launch := launch, lin := lin, x := x, y := y, z := z, copy := copy, pair := pair, cluster := c, left := c, idx := s.indexFor c
    warps := (s.freeSlots c).take (recWarps b), rail := (s.railFor c (recRails b)).getD 0, rails := recRails b
    accRow := (s.rowFor c (recAcc b)).getD 0, accRows := recAcc b, slots := recSlots b, reserve := recXregs b, alloc := recRails b * 148
    stash := [], version := none, outside := false, failedOn := [], relaunches := 0, phase := .resident, cause := 0, origin := 0, lane := 0, sigs := [] }

/-- Places a workgroup record on its cluster (R313): the version of a versioned one opens, its table entries, barriers, slots, scratchpad and
accumulator rows are set, its image is written, and its warps stand at the first header. -/
def State.settleWg (s : State) (l : Launch) (no : Nat) (g : Wg) (image : List Byte) : State :=
  let b := l.bytes
  let c := g.cluster
  let (v, s) := if recVersioned b then
      let (id, s) := s.openVersion (Version.fresh (dieOf c) none (.workgroup no) c l.vf g.launch)
      (some id, s)
    else (none, s)
  let s := { s with
    wgs := s.wgs.put no { g with version := v }
    layouts := s.layouts.filter fun p => p.1 / 64 ≠ no }
  let s := (s.takeBlocks c (recBlocks b)).putGroups c no g.warps l.groups
  let s := (s.putBarriers no b).clearWg g image
  ((List.range g.warps.length).zip g.warps).foldl (fun s p =>
    s.putWarp (c * 32 + p.2) (s.newWarp l g.launch no p.1 c) (BitVec.ofNat 64 (fld b 0 8))) s

/-- A workgroup is placed on a cluster: its number. -/
def State.placeOn (s : State) (l : Launch) (launch lin copy pair c : Nat) : Nat × State :=
  let (no, s) := s.fresh
  (no, s.settleWg l no (s.wgFrom l launch lin copy pair c) l.image)

/-! ### Where a workgroup goes (R253, R313, R352) -/

/-- The die on which a workgroup is placed, by global number. -/
def State.dieFor (s : State) (l : Launch) (lin : Nat) : Nat := if recBound l.bytes then (l.pool[lin % max 1 l.pool.length]?).getD 0xFFFF else s.package * 4 + l.die

/-- The clusters of a redundant workgroup's two copies, outside those listed: the trailing copy goes to another die where a cluster fits, else
to another cluster of the same die. -/
def State.pairFit (s : State) (die vf : Nat) (n : Need) (out : List Nat) : Option (Nat × Nat) :=
  let free (d : Nat) : List Nat := (clustersOf d).filter fun c => !out.contains c
  (s.bestFit (free die) vf n).bind fun c =>
    let away := ((List.range 4).filter fun d => d ≠ die).flatMap free
    ((s.bestFit away vf n).orElse fun _ => s.bestFit ((free die).filter fun x => x ≠ c) vf n).map fun t => (c, t)

/-- The dies of some clusters have a free version for each (R85). -/
def State.versionRoom (s : State) (b : List Byte) (cs : List Nat) : Bool :=
  !recVersioned b || cs.all fun c => (cs.filter fun d => dieOf d = dieOf c).length ≤ s.versionsFree (dieOf c)

/-- The clusters that take a workgroup now: one, or the two of a redundant one. -/
def State.target' (s : State) (l : Launch) (lin : Nat) : Option (List Nat) :=
  let d := s.dieFor l lin
  if d / 4 ≠ s.package then none
  else
    let n := recNeed l.bytes
    let cs := if recRedundant l.bytes then (s.pairFit (d % 4) l.vf n []).map fun p => [p.1, p.2] else (s.bestFit (clustersOf (d % 4)) l.vf n).map fun c => [c]
    cs.filter fun cs => s.versionRoom l.bytes cs

/-- Places one workgroup of a launch, both copies of a redundant one; none when no cluster takes it. The launch notes it as placed. -/
def State.placeWg (s : State) (launch lin : Nat) : Option State :=
  (s.launches.look launch).bind fun l => (s.target' l lin).map fun cs =>
    let s := match cs with
      | [a, b] =>
        let (pair, s) := s.fresh
        let (i, s) := s.placeOn l launch lin 1 pair a
        let (j, s) := s.placeOn l launch lin 2 pair b
        { s with pairs := s.pairs.put pair ⟨i, j, recSlack l.bytes, [], []⟩ }
      | a :: _ => (s.placeOn l launch lin 0 0 a).2
      | [] => s
    { s with launches := s.launches.modify launch fun l => { l with placed := lin :: l.placed } }

/-- A workgroup that belongs to a die of another package counts as placed there (log 5). -/
def State.placeAway (s : State) (launch lin : Nat) : State :=
  { s with launches := s.launches.modify launch fun l => { l with placed := lin :: l.placed } }

/-! ### Semaphores at placement (R205, R313) -/

/-- A placed workgroup of a launch by its linear index: a plain one or a leading copy. -/
def State.wgByLin (s : State) (launch lin : Nat) : Option (Nat × Wg) :=
  s.wgs.find? fun p => p.2.launch = launch && p.2.lin = lin && p.2.copy ≠ 2

/-- Package and cluster of a workgroup by its linear index; one that stands in another package has a free cluster (log 5). -/
def State.standsAt (s : State) (launch lin : Nat) : (Nat × Nat) × State :=
  match s.wgByLin launch lin with
  | some (_, g) => ((s.package, g.cluster), s)
  | none =>
    let d := ((s.launches.look launch).map fun l => s.dieFor l lin).getD 0
    let (x, s) := s.freeValue
    ((d / 4, d % 4 * 48 + x % 48), s)

/-- The lowest semaphore of a die that is not bound. -/
def State.freeSem (s : State) (die : Nat) : Option Nat := (s.sems.fresh (die * 4096) 4096).map fun k => k % 4096

/-- Writes a handle into the image of every workgroup of a launch that stands here. -/
def State.writeHandle (s : State) (launch off handle : Nat) : State :=
  ((s.wgs.filter fun p => p.2.launch = launch).map Prod.snd).foldl (fun s g => s.scrPutNat g off 4 handle) s

/-- Binds one semaphore between the two clusters of a request; none when the waiting die has none free. -/
def State.bindSem (s : State) (launch vf : Nat) (r : SemReq) : Option State :=
  let (p, s) := s.standsAt launch r.poster
  let (w, s) := s.standsAt launch r.waiter
  if w.1 = s.package then
    (s.freeSem (dieOf w.2)).map fun i =>
      let k := dieOf w.2 * 4096 + i
      let x : Sem := ⟨false, vf, p.1, p.2, w.1, w.2, 0, 0, 0, [], launch⟩
      let s := { s with
        sems := s.sems.put k x
        launches := s.launches.modify launch fun l => { l with bound := l.bound ++ [k] } }
      s.writeHandle launch r.offset (i + 4096 * (s.package * 4 + dieOf w.2))
  else
    let (x, s) := s.freeValue
    some ({ s with launches := s.launches.modify launch fun l => { l with bound := l.bound ++ [2 ^ 32] } }.writeHandle launch r.offset
      (x % 4096 + 4096 * (w.1 * 4 + w.2 / 48)))

/-- A launch with semaphore requests is placed whole, or not at all. -/
def State.placeWhole (s : State) (launch : Nat) (l : Launch) : Option State :=
  let all := List.range (recCount l.bytes)
  let placed := all.foldl (fun (t : Option State) c => t.bind fun s =>
    if s.dieFor l c / 4 ≠ s.package then some (s.placeAway launch c) else s.placeWg launch c) (some s)
  l.sems.foldl (fun (t : Option State) r => t.bind fun s => s.bindSem launch l.vf r) placed

/-! ### The launch unit's choice (R312) -/

/-- The next workgroup of a launch that can be placed, ascending: its producers have retired, and a cluster takes it. -/
def State.nextPlace (s : State) (l : Launch) : Option Nat :=
  (List.range (recCount l.bytes)).find? fun c => !l.placed.contains c && s.freed l c && (s.dieFor l c / 4 ≠ s.package || (s.target' l c).isSome)

/-- Every workgroup of the launch has its producers retired (R313, R314). -/
def State.allFreed (s : State) (l : Launch) : Bool := (List.range (recCount l.bytes)).all fun c => s.freed l c

/-- What a placement at the head of a queue gives: the machine after it, and the number of workgroups placed. -/
def State.placeHead (s : State) (die vf queue : Nat) : Option (Nat × State) :=
  match (s.queueOf (queueKey die vf queue)).head?.bind QRec.accepted with
  | none => none
  | some id =>
    match s.launches.look id with
    | none => none
    | some l =>
      if l.suspended || l.terminated then none
      else if !l.sems.isEmpty then
        (if s.allFreed l then s.placeWhole id l else none).map fun t => (recCount l.bytes, t)
      else (s.nextPlace l).bind fun c =>
        (if s.dieFor l c / 4 ≠ s.package then some (s.placeAway id c) else s.placeWg id c).map fun t => (1, t)

/-- A queue has work ready. -/
def State.ready (s : State) (die vf queue : Nat) : Bool := (s.placeHead die vf queue).isSome

/-- The effective priority of a queue's head. -/
def State.headPriority (s : State) (die vf queue : Nat) : Nat := ((s.queueOf (queueKey die vf queue)).head?.map QRec.priority).getD 0

/-- The queue of a virtual function that is served: the highest effective priority, among equals the next after the one last served. -/
def State.servedQueue (s : State) (die vf : Nat) : Option Nat :=
  let last := s.lastQueues.get 15 (die * 64 + vf)
  let order := (List.range 16).map fun i => (last + 1 + i) % 16
  (order.filter fun q => s.ready die vf q).foldl (fun best q => match best with
    | none => some q
    | some b => if s.headPriority die vf q > s.headPriority die vf b then some q else some b) none

/-- The weight of a virtual function; 0 acts as 1 (R294). -/
def State.weight (s : State) (vf : Nat) : Nat := max 1 (bits (s.vfcfg.get 0 vf).toNat 23 16)

/-- The virtual function that a launch unit serves now: the one it serves while its share of the round lasts, else the next with work ready. -/
def State.servedVf (s : State) (die : Nat) : Option Nat :=
  let d := s.die die
  let work (vf : Nat) : Bool := (s.servedQueue die vf).isSome
  if d.orders < s.weight d.lastVf && work d.lastVf then some d.lastVf
  else ((List.range 64).map fun i => (d.lastVf + 1 + i) % 64).find? work

/-- The launch unit has served a queue. -/
def State.noteServed (s : State) (die vf queue n : Nat) : State :=
  let s := { s with lastQueues := s.lastQueues.set 15 (die * 64 + vf) queue }
  let s := s.modDie die fun d => { d with orders := if d.lastVf = vf && d.orders < s.weight vf then d.orders + n else n, lastVf := vf }
  let k := queueKey die vf queue
  s.setQueue k (match s.queueOf k with
    | r :: rs => { r with waited := (s.die die).queueClock, age := 0 } :: rs
    | [] => [])

/-- The head's workgroups have all been placed: its record leaves the queue. -/
def State.popPlaced (s : State) (die vf queue : Nat) : State :=
  match (s.queueOf (queueKey die vf queue)).head?.bind QRec.accepted with
  | none => s
  | some id => match s.launches.look id with
    | none => s.dequeue die vf queue 0
    | some l => if l.placed.length ≥ recCount l.bytes then s.dequeue die vf queue 0 else s

end Sys2Proof.Machine
end

