-- ==== Sys2Proof/Machine/Retire.lean ====
section
/-! DEFINITION. The placing event, the retirement of a workgroup, the completion of a launch, the checkpoints of redundant pairs and the relaunch
after an error (R26, R312 to R315, R338, R348, R351 to R354). -/

namespace Sys2Proof.Machine

open Sys2Proof.Num (bits bit)

/-! ### Completion (R213, R315, R368) -/

/-- The end code of a cause (R315). -/
def endCode (cause : Nat) : Nat := if cause = 0 then 0 else if cause = 0x11 ∨ cause = 0x12 then 2 else 1

/-- The failed workgroup with the lowest linear index, with its end code and cause. -/
def Launch.firstFailed (l : Launch) : Option (Nat × Nat × Nat) :=
  l.ends.foldl (fun best e => match best with
    | none => some e
    | some b => if e.1 < b.1 then some e else some b) none

/-- Semaphores of a launch are unbound. -/
def State.unbindSems (s : State) (launch : Nat) : State := { s with sems := s.sems.keep fun _ x => x.launch ≠ launch }

/-- The last workgroup of a launch has ended: its completion record, its notice, its arrival, its semaphores' unbinding (R315). -/
def State.completeLaunch (s : State) (launch : Nat) : State :=
  match s.launches.look launch with
  | none => s
  | some l =>
    let b := l.bytes
    let first := l.firstFailed
    let word := (first.map fun e => e.2.1 + 256 * e.2.2).getD 0
    let s := s.writeCompletion l.die l.vf (recCompletion b) (launchWord 0 0 launch) word l.retired.length ((first.map Prod.fst).getD 0xFFFFFFFF)
    let s := { s with launches := s.launches.modify launch fun l => { l with complete := true } }
    let s := if recCompletion b = 0 then s else s.emit ⟨l.host, 4, [s.package, launch]⟩
    let s := (s.unbindSems launch).dropOld launch
    match l.op with
    | some id => s.finishPair id [0]
    | none => s

/-- The bit of a workgroup in the completion bitmap is set (R315). -/
def State.setDoneBit (s : State) (l : Launch) (lin : Nat) : State :=
  let base := recCompletion l.bytes
  if base = 0 then s
  else
    let pa := base + 64 + lin / 8
    let x := (s.homeByte pa).toNat
    s.unitWrite l.die l.vf [(pa, BitVec.ofNat 8 (if bit x (lin % 8) then x else x + 2 ^ (lin % 8)))]

/-- A workgroup has ended for good: with cause 0 it has retired. -/
def State.recordEnd (s : State) (launch lin cause : Nat) : State :=
  match s.launches.look launch with
  | none => s
  | some l =>
    let s := if cause = 0 then s.setDoneBit l lin else s
    let l := { l with
      retired := if cause = 0 then lin :: l.retired else l.retired
      ends := if cause = 0 then l.ends else (lin, endCode cause, cause) :: l.ends
      ended := l.ended + 1 }
    let s := { s with launches := s.launches.put launch l }
    if l.ended ≥ recCount l.bytes then s.completeLaunch launch else s

/-! ### WORKGROUP_PLACE (R312, R313, R348) -/

/-- The workgroups of a terminated launch that were never placed end with it (R348). -/
def State.endUnplaced (s : State) (launch : Nat) : State :=
  match s.launches.look launch with
  | none => s
  | some l =>
    let rest := (List.range (recCount l.bytes)).filter fun c => !l.placed.contains c
    let s := { s with launches := s.launches.modify launch fun l => { l with placed := rest ++ l.placed } }
    rest.foldl (fun s c => s.recordEnd launch c 0x08) s

/-- The launch of a queued record has been terminated. -/
def State.isTerminated (s : State) (r : QRec) : Bool := ((r.accepted.bind fun id => s.launches.look id).map Launch.terminated).getD false

/-- WORKGROUP_PLACE (R312, R313): the launch unit serves a queue when its arbitration picks it. A queued record whose launch has been terminated
leaves. -/
def execWorkgroupPlace (die vf queue : Nat) (s : State) : Result :=
  let q := s.queueOf (queueKey die vf queue)
  .next (match q.findIdx? fun r => s.isTerminated r with
    | some i =>
      let id := ((q[i]?).bind QRec.accepted).getD 0
      (s.dequeue die vf queue i).endUnplaced id
    | none =>
      if s.servedVf die ≠ some vf || s.servedQueue die vf ≠ some queue then s
      else match s.placeHead die vf queue with
        | none => s
        | some (n, t) => (t.noteServed die vf queue n).popPlaced die vf queue)

/-! ### What a workgroup leaves behind -/

/-- Clears what is kept under a virtual cluster, of a workgroup that was pre-empted (R319). -/
def State.dropVirtual (s : State) (c : Nat) : State :=
  if c < 192 then s
  else { s with
    scratch := s.scratch.filter fun p => p.1 / 2 ^ 21 ≠ c
    scratchBad := s.scratchBad.filter fun p => p.1 * 8 / 2 ^ 21 ≠ c
    acc := s.acc.filter fun p => p.1 / 65536 ≠ c
    accBad := s.accBad.filter fun p => p.1 * 2 / 65536 ≠ c
    clusters := s.clusters.del c }

/-- Frees everything of a workgroup together (R26). -/
def State.freeWg (s : State) (no : Nat) : State :=
  match s.wgs.look no with
  | none => s
  | some g =>
    let c := g.cluster
    let sels := s.warpsOf no
    let mine (sel : Nat) : Bool := sels.contains sel
    let base := sels.length
    let blocks := g.reserve + (s.warps.filter fun p => mine p.1 && p.2.ext).length
    let s := { s with
      warps := s.warps.filter fun p => !mine p.1
      fibres := s.fibres.filter fun p => !mine (p.1 / 32)
      vRegs := s.vRegs.filter fun p => !mine (p.1 / 4096)
      kRegs := s.kRegs.filter fun p => !mine (p.1 / 64)
      groups := s.groups.filter fun p => !(p.1 / 256 = c && p.2.wg = no)
      locks := s.locks.filter fun p => !(p.1 / 64 = c && p.2.wg = no)
      barriers := s.barriers.filter fun p => p.1 / 16 ≠ no
      layouts := s.layouts.filter fun p => p.1 / 64 ≠ no
      stores := s.stores.filter fun p => !mine p.2.warp
      loads := s.loads.filter fun p => !mine p.2.warp
      walks := s.walks.filter fun p => match p.2.who with
        | .warp w _ | .cow w => !mine w
        | _ => true
      l1 := s.l1.mapv fun k l => if k / 2 ^ 44 = c && bit l.readers g.idx then { l with readers := l.readers - 2 ^ g.idx } else l
      stopDue := s.stopDue.filter fun p => !mine p.1
      wgs := s.wgs.del no }
    let s := s.modCluster c fun k => { k with
      pool := k.pool + blocks
      unretired := k.unretired.filter fun p => !mine p.1
      xqueue := k.xqueue.filter fun p => !mine p.1 }
    if base = 0 && c < 192 then s else (s.dropVirtual c).grantBlocks c 64

/-- A workgroup has nothing left to run: every warp has ended, every operation it issued is over. -/
def State.wgIdle (s : State) (no : Nat) : Bool :=
  (s.warps.all fun p => p.2.wg ≠ no || p.2.state = .ended) && s.engines.all fun p => p.2.wg ≠ no

/-- The bytes that a workgroup still holds in L1, in its stash windows and in partials leave for their homes (R83, R184). -/
def State.releaseWg (s : State) (no : Nat) : State :=
  match s.wgs.look no with
  | none => s
  | some g =>
    let sel := (s.warpsOf no).headD (g.cluster * 32)
    let s := if g.cluster < 192 then ((s.releaseAll sel no).2).sendPartials g.cluster true else s
    g.stash.foldl (fun s w => s.unmapWindow no w.scr) s

/-- The members of a redundant pair, or the workgroup alone: the one that acts first. -/
def State.copies (s : State) (no : Nat) : List Nat :=
  match s.wgs.look no with
  | none => []
  | some g => if g.copy = 0 then [no] else match s.pairs.look g.pair with
    | some p => [p.lead, p.trail]
    | none => [no]

/-! ### The exit of a redundant pair (R352, R354) -/

/-- The fibre numbers with a nonzero count in either copy. -/
def State.countedFibres (s : State) (a b : Wg) : List Nat :=
  (List.range (32 * a.warps.length)).filter fun n => s.countOf a n ≠ 0 || s.countOf b n ≠ 0

/-- The version of a workgroup, or of a pair's leading copy, goes home for its publication; the trailing copy's is aborted. -/
def State.commitExit (s : State) (ws : List Nat) : State :=
  match ws with
  | [] => s
  | a :: rest =>
    let s := match (s.wgs.look a).bind Wg.version with
      | some v => s.beginCommit v 2
      | none => s
    let s := rest.foldl (fun s t => match (s.wgs.look t).bind Wg.version with
      | some v => (s.abortVersion v).modWg t fun g => { g with version := none }
      | none => s) s
    ws.foldl (fun s w => s.modWg w fun g => { g with phase := .committing }) s

/-- A pair whose warps have all ended stands at its exit checkpoint; with no count left there is none to compare. -/
def State.exitCheck (s : State) (pair lead trail : Nat) : State :=
  match s.wgs.look lead, s.wgs.look trail with
  | some a, some b =>
    if s.checks.any fun p => p.2.pair = pair && p.2.kind = 2 then s
    else
      let nos := s.countedFibres a b
      if nos.isEmpty then s.commitExit [lead, trail]
      else
        let (id, s) := s.fresh
        { s with checks := s.checks.put id ⟨pair, 2, 0, 0, nos, nos, nos, false⟩ }
  | _, _ => s

/-! ### WORKGROUP_RETIRE (R26) -/

/-- Retires a workgroup or both copies of a pair, whose warps and operations are done: first their bytes go home, then the version commits, then
everything is freed and the end is recorded. -/
def State.retireWgs (s : State) (ws : List Nat) : State :=
  match ws with
  | [] => s
  | a :: _ =>
    match s.wgs.look a with
    | none => s
    | some g =>
      let s' := ws.foldl State.releaseWg s
      if s'.flights.any fun p => ws.contains p.2.wg then s'
      else if g.cause ≠ 0 || (g.phase = .committing && g.version.isNone) || (g.version.isNone && g.copy = 0) then
        let s' := ws.foldl State.freeWg s'
        let s' := if g.copy = 0 then s' else { s' with
          pairs := s'.pairs.del g.pair
          checks := s'.checks.keep fun _ x => x.pair ≠ g.pair }
        s'.recordEnd g.launch g.lin g.cause
      else if g.phase = .committing then s'
      else match ws with
        | [lead, trail] => s'.exitCheck g.pair lead trail
        | _ => s'.commitExit ws

/-- WORKGROUP_RETIRE (R26): a workgroup retires once every warp of it has ended, every operation it issued is over and its version has committed.
A pre-empted one retires only when something has ended it. -/
def execWorkgroupRetire (wg : Nat) (s : State) : Result :=
  let ws := s.copies wg
  let waits (w : Nat) : Bool := match s.wgs.look w with
    | some g => !s.wgIdle w || g.phase = .failed || (g.phase = .saved && g.cause = 0)
    | none => true
  .next (if ws.isEmpty || ws.any waits then s else s.retireWgs ws)

/-! ### CHECKPOINT_COMPARE (R354) -/

/-- A fibre of a copy still stands at a checkpoint. -/
def State.standsThere (s : State) (g : Wg) (id : Nat) (x : Check) (no : Nat) : Bool :=
  let f := s.fibres.look (g.fibre no)
  match x.kind with
  | 0 => (f.map fun f => match f.wait with
      | .rgne r => decide (f.regions.head? = some r) && ((s.regions.look r).map fun y => decide (y.inst = x.region)).getD false
      | _ => false).getD false
  | 2 => true
  | _ => (f.map fun f => decide (f.wait = .check id)).getD false

/-- The signature of a copy over some fibres (R353). -/
def State.signature (s : State) (g : Wg) (nos : List Nat) : Nat := (nos.map fun n => s.partialOf g n).foldl (· + ·) 0 % 2 ^ 64

/-- The region of a copy's covered fibres at RGNE. -/
def State.regionAt (s : State) (g : Wg) (no : Nat) : Option Nat := (s.fibres.look (g.fibre no)).bind fun f => f.regions.head?

/-- A checkpoint has matched: the covered counts and partials reset, and the RGNE, atomic, store or exit goes on. -/
def State.checkPassed (s : State) (id : Nat) (x : Check) (lead trail : Nat) (a b : Wg) : State :=
  let s := (s.clearSigs lead x.fibres).clearSigs trail x.fibres
  match x.kind with
  | 0 =>
    let rs := [a, b].filterMap fun g => (x.fibres.head?).bind fun n => s.regionAt g n
    rs.foldl (fun s r => s.settleRegions true 300 [r]) { s with checks := s.checks.del id }
  | 1 => { s with checks := s.checks.modify id fun y => { y with done := true } }
  | 2 => { s with checks := s.checks.del id }.commitExit [lead, trail]
  | _ => { s with checks := s.checks.del id }

/-- Both copies of a pair end with REDUNDANCY_FAIL; origin 1 marks a second mismatch, after which a relaunch may be tried. -/
def State.endPair (s : State) (lead no : Nat) : State := s.endWg lead 0x12 1 no true

/-- The mismatches that have occurred at a checkpoint. -/
def Pair.missed (p : Pair) (pc inst : Nat) : Nat := ((p.mismatches.find? fun m => m.1 = pc && m.2.1 = inst).map fun m => m.2.2).getD 0

/-- A checkpoint has not matched: what follows depends on the mismatches that have occurred at it. -/
def State.checkFailed (s : State) (id : Nat) (x : Check) (p : Pair) (a b : Wg) : State :=
  let n := p.missed x.pc x.region + 1
  let s := { s with
    pairs := s.pairs.modify x.pair fun q => { q with mismatches := (x.pc, x.region, n) :: q.mismatches.filter fun m => !(m.1 = x.pc && m.2.1 = x.region) }
    checks := s.checks.del id }
  let no := x.fibres.headD 0
  let inside := x.fibres.all fun f => (s.regionAt a f).isSome && (s.regionAt b f).isSome
  if n = 1 && inside then
    [a, b].foldl (fun s g => x.fibres.foldl (fun s f => match s.regionAt g f with
      | some r => s.detect r (g.fibre f) 1
      | none => s) s) s
  else if n ≤ 2 then s.endPair p.lead no
  else
    let sel := a.fibre no / 32
    s.lateTrap sel ⟨0x12, no % 32, 0, 0, 0⟩

/-- CHECKPOINT_COMPARE (R354): once both copies stand at a checkpoint, their signatures are compared. No wait of a halted context returns. -/
def execCheckpointCompare (id : Nat) (s : State) : Result :=
  .next (match s.checks.look id with
    | none => s
    | some x =>
      match s.pairs.look x.pair with
      | none => s
      | some p =>
        match s.wgs.look p.lead, s.wgs.look p.trail with
        | some a, some b =>
          if x.done || s.halts.contains a.launch || a.phase = .saved || b.phase = .saved then s
          else
            let lead := x.lead.filter fun n => s.standsThere a id x n
            let trail := x.trail.filter fun n => s.standsThere b id x n
            let s := { s with checks := s.checks.modify id fun y => { y with lead := lead, trail := trail } }
            if !(x.fibres.all fun n => lead.contains n && trail.contains n) then s
            else if s.signature a x.fibres = s.signature b x.fibres then s.checkPassed id x p.lead p.trail a b
            else s.checkFailed id x p a b
        | _, _ => s)

/-! ### WORKGROUP_RELAUNCH (R351, R354) -/

/-- The cause is of hardware origin: consumed or shadow poison of origin 0, or a second mismatch of a pair. -/
def Wg.hardware (g : Wg) : Bool := (g.cause = 0x08 && g.origin = 0) || (g.cause = 0x12 && g.origin = 1)

/-- The clusters of some dies that XS_VFSEL gives a virtual function, outside those listed. -/
def State.givenTo (s : State) (vf : Nat) (dies : List Nat) (out : List Nat) : List Nat :=
  (dies.flatMap clustersOf).filter fun c => s.assigned c vf && !out.contains c

/-- A workgroup, or a pair, may be relaunched: its cause, its effects, its relaunches and the clusters left allow it. -/
def State.mayRelaunch (s : State) (ws : List Nat) (g : Wg) (l : Launch) (out : List Nat) : Bool :=
  let outside := ws.any fun w => ((s.wgs.look w).map Wg.outside).getD false
  let d := s.dieFor l g.lin % 4
  let here := s.givenTo l.vf [d] out
  let room := if g.copy = 0 then !here.isEmpty else !here.isEmpty && (s.givenTo l.vf [0, 1, 2, 3] out).length ≥ 2
  g.hardware && !outside && !l.terminated && g.relaunches < 3 && room

/-- Every semaphore that names a relaunched workgroup is rebound to its new cluster, and its handle written into the new image (R313). -/
def State.rebind (s : State) (l : Launch) (lin c : Nat) (ws : List Nat) : State :=
  ((l.sems.zip l.bound).filter fun p => p.2 < 2 ^ 32).foldl (fun s p =>
    let (r, k) := p
    let s := { s with sems := s.sems.modify k fun x => { x with
      posterCluster := if r.poster = lin then c else x.posterCluster
      waiterCluster := if r.waiter = lin then c else x.waiterCluster } }
    ws.foldl (fun s w => match s.wgs.look w with
      | some g => s.scrPutNat g r.offset 4 (k % 4096 + 4096 * (s.package * 4 + k / 4096))
      | none => s) s) s

/-- What a relaunched workgroup carries on. -/
def Wg.carry (g old : Wg) (out : List Nat) : Wg := { g with relaunches := old.relaunches + 1, failedOn := out }

/-- Places a workgroup or a pair afresh from its launch record, on other clusters; none while no cluster has room. -/
def State.relaunch (s : State) (ws : List Nat) (old : Wg) (l : Launch) (out : List Nat) : Option State :=
  let misses := ((s.pairs.look old.pair).map Pair.mismatches).getD []
  let s := ws.foldl State.freeWg s
  let s := if old.copy = 0 then s else { s with pairs := s.pairs.del old.pair, checks := s.checks.keep fun _ x => x.pair ≠ old.pair }
  let d := s.dieFor l old.lin % 4
  let n := recNeed l.bytes
  if old.copy = 0 then
    (s.bestFit ((clustersOf d).filter fun c => !out.contains c) l.vf n).map fun c =>
      let (i, s) := s.placeOn l old.launch old.lin 0 0 c
      (s.modWg i fun g => g.carry old out).rebind l old.lin c [i]
  else
    (s.pairFit d l.vf n out).map fun cs =>
      let (pair, s) := s.fresh
      let (i, s) := s.placeOn l old.launch old.lin 1 pair cs.1
      let (j, s) := s.placeOn l old.launch old.lin 2 pair cs.2
      let s := { s with pairs := s.pairs.put pair ⟨i, j, recSlack l.bytes, [], misses⟩ }
      ((s.modWg i fun g => g.carry old out).modWg j fun g => g.carry old out).rebind l old.lin cs.1 [i, j]

/-- A pair that may not be relaunched after its second mismatch fails in its leading copy: the trap record and the notice of REDUNDANCY_FAIL. -/
def State.failPair (s : State) (g : Wg) : State :=
  if g.cause ≠ 0x12 || g.origin ≠ 1 then s
  else
    let sel := g.fibre g.lane / 32
    let s := s.setTrap sel { TrapRec.zero with
      cause := 0x12
      flags := 5
      lane := g.lane % 32
      launch := g.launch
      workgroup := g.lin
      cycles := (s.cluster g.cluster).cyc }
    s.emit ⟨s.hostOf g.launch, 1, [s.package, g.cluster, slotOf sel, 0x12]⟩

/-- WORKGROUP_RELAUNCH (R351): a workgroup that an error ended is placed afresh when the conditions of R351 hold; otherwise it ends for good. -/
def execWorkgroupRelaunch (wg : Nat) (s : State) : Result :=
  let ws := s.copies wg
  .next (match ws.head?.bind fun w => s.wgs.look w with
    | none => s
    | some g =>
      if g.phase ≠ .failed || ws.any (fun w => !s.wgIdle w) || s.flights.any fun p => ws.contains p.2.wg then s
      else match s.launches.look g.launch with
        | none => s
        | some l =>
          let out := (ws.flatMap fun w => ((s.wgs.look w).map fun x => x.cluster :: x.failedOn).getD []).eraseDups
          if s.mayRelaunch ws g l out then (if l.suspended then s else (s.relaunch ws g l out).getD s)
          else ws.foldl (fun s w => s.modWg w fun x => { x with phase := .resident }) (s.failPair g))

end Sys2Proof.Machine
end

