-- ==== Sys2Proof/Machine/Preempt.lean ====
section
/-! DEFINITION. Pre-emption, the save of a workgroup into its frame, its restoring, and the time slice (R318 to R321). A saved workgroup's state
stands under the virtual cluster 192 + its number. -/

namespace Sys2Proof.Machine

open Sys2Proof.Num (bits bit)

/-! ### Renaming what a workgroup's warps own -/

/-- Moves the entries of a table whose keys belong to renamed warps, `unit` keys to a warp, over what stood under their new numbers. -/
def rekey {β : Type} (t : Tab β) (unit : Nat) (ren : List (Nat × Nat)) : Tab β :=
  let new (k : Nat) : Option Nat := (ren.find? fun r => r.1 = k / unit).map fun r => r.2 * unit + k % unit
  let stays (k : Nat) : Bool := ren.all fun r => decide (r.1 ≠ k / unit ∧ r.2 ≠ k / unit)
  (t.filterMap fun p => (new p.1).map fun k => (k, p.2)).foldr (fun (p : Nat × β) (u : Tab β) => u.put p.1 p.2) (t.filter fun p => stays p.1)

/-- The new number of a warp, of a fibre, of a v and of a k register. -/
def renWarp (ren : List (Nat × Nat)) (sel : Nat) : Nat := ((ren.find? fun r => r.1 = sel).map Prod.snd).getD sel
def renUnit (ren : List (Nat × Nat)) (unit k : Nat) : Nat := renWarp ren (k / unit) * unit + k % unit
def renDst (ren : List (Nat × Nat)) (d : Dst) : Dst := { d with key := renUnit ren (if d.isK then 64 else 4096) d.key }

/-- What a fibre waits for, by the new numbers. -/
def renWait (ren : List (Nat × Nat)) (w : Wait) : Wait :=
  match w with
  | .regs v k => .regs (v.map fun x => renUnit ren 4096 x) (k.map fun x => renUnit ren 64 x)
  | .snapshot v k => .snapshot (v.map fun x => renUnit ren 4096 x) (k.map fun x => renUnit ren 64 x)
  | x => x

def renRegion (ren : List (Nat × Nat)) (r : Region) : Region := { r with
  warp := renWarp ren r.warp
  members := r.members.map fun m => renUnit ren 32 m
  undo := r.undo.map fun (u : Undo) => { u with fibre := renUnit ren 32 u.fibre }
  vRegs := rekey r.vRegs 4096 ren
  kRegs := rekey r.kRegs 64 ren
  arrived := r.arrived.map fun m => renUnit ren 32 m
  error := r.error.map fun m => renUnit ren 32 m }

def renLoad (ren : List (Nat × Nat)) (ld : Load) : Load := { ld with
  warp := renWarp ren ld.warp
  accs := ld.accs.map fun (a : Acc) => { a with dst := a.dst.map fun d => renDst ren d } }

def renAsker (ren : List (Nat × Nat)) (a : Asker) : Asker :=
  match a with
  | .warp w x => .warp (renWarp ren w) x
  | .cow w => .cow (renWarp ren w)
  | x => x

/-- Renames the warps of a workgroup everywhere. -/
def State.renameWarps (s : State) (ren : List (Nat × Nat)) : State :=
  let mine (sel : Nat) : Bool := ren.any fun r => r.1 = sel
  { s with
    warps := rekey s.warps 1 ren
    fibres := (rekey s.fibres 32 ren).mapv fun _ f => { f with wait := renWait ren f.wait }
    vRegs := rekey s.vRegs 4096 ren
    kRegs := rekey s.kRegs 64 ren
    traps := rekey s.traps 1 ren
    regions := s.regions.mapv fun _ r => if mine r.warp then renRegion ren r else r
    loads := s.loads.mapv fun _ ld => if mine ld.warp then renLoad ren ld else ld
    engines := s.engines.mapv fun _ e => if mine e.warp then { e with
      warp := renWarp ren e.warp, fibre := renUnit ren 32 e.fibre, dst := e.dst.map fun d => renDst ren d } else e
    sems := s.sems.mapv fun _ x => { x with queue := x.queue.map fun (q : SemWait) => { q with warp := renWarp ren q.warp } }
    faults := s.faults.mapv fun _ f => { f with askers := f.askers.map fun a => renAsker ren a }
    walks := s.walks.mapv fun _ w => { w with who := renAsker ren w.who }
    stopDue := s.stopDue.map fun p => (renWarp ren p.1, p.2) }

/-! ### Moving a workgroup between clusters -/

/-- Moves scratchpad bytes and accumulator words with their poison from one placement of a workgroup to another. -/
def State.moveData (s : State) (g h : Wg) : State :=
  let scr := (List.range g.alloc).filterMap fun o => (s.scratch.look (g.scrByte o)).map fun b => (o, b)
  let bad := (List.range g.alloc).filter fun o => (s.scratchBad.look (g.scrByte o / 8)).isSome
  let words := (List.range (g.accRows * 64)).filterMap fun i => (s.acc.look (accKey g.cluster g.accRow 0 + i)).map fun w => (i, w)
  let accBad := (List.range (g.accRows * 32)).filter fun i => (s.accBad.look (accKey g.cluster g.accRow 0 / 2 + i)).isSome
  let s := (s.clearWg g []).clearWg h []
  { s with
    scratch := scr.foldl (fun (t : Tab Byte) p => t.put (h.scrByte p.1) p.2) s.scratch
    scratchBad := bad.foldl (fun (t : Tab Bool) o => t.put (h.scrByte o / 8) true) s.scratchBad
    acc := words.foldl (fun (t : Tab Word) p => t.put (accKey h.cluster h.accRow 0 + p.1) p.2) s.acc
    accBad := accBad.foldl (fun (t : Tab Bool) i => t.put (accKey h.cluster h.accRow 0 / 2 + i) true) s.accBad }

/-- The range-lock entries of a workgroup at its new place: scratchpad ranges are held by the cluster's rails. -/
def moveLock (g h : Wg) (l : Lock) : Lock :=
  let shift (x : Nat) : Nat := if l.isGlobal then x else x - g.rail * 148 + h.rail * 148
  { l with idx := h.idx, first := shift l.first, last := shift l.last }

/-- Moves a workgroup, all that its warps own, its table entries and its data to another place. -/
def State.moveWg (s : State) (no : Nat) (g h : Wg) : State :=
  let ren := (g.warps.map fun i => g.cluster * 32 + i).zip (h.warps.map fun i => h.cluster * 32 + i)
  let gs := ((s.launches.look g.launch).map Launch.groups).getD []
  let locks := (s.locksOf g.cluster).filter fun p => p.2.wg = no
  let s := (s.moveData g h).renameWarps ren
  let s := { s with
    groups := s.groups.filter fun p => !(p.1 / 256 = g.cluster && p.2.wg = no)
    locks := s.locks.filter fun p => !(p.1 / 64 = g.cluster && p.2.wg = no)
    wgs := s.wgs.put no h }
  (s.putGroups h.cluster no h.warps gs).takeLocks h.cluster (locks.map fun p => moveLock g h p.2)

/-- Extended blocks that a workgroup holds or has in reserve. -/
def State.blocksOf (s : State) (no : Nat) (g : Wg) : Nat := g.reserve + (s.warps.filter fun p => p.2.wg = no && p.2.ext).length

/-! ### The stop (R319, steps 1 to 4) -/

/-- Pre-emption begins: no warp of the workgroup issues another instruction, and its prefetches are dropped. -/
def State.beginStop (s : State) (no : Nat) : State :=
  let sels := s.warpsOf no
  let s := s.modWg no fun g => { g with phase := .stopping }
  let s := ((s.loads.filter fun p => sels.contains p.2.warp && p.2.isPref).map Prod.fst).foldl (fun s id => s.cancelAccs id fun _ => true) s
  let s := sels.foldl (fun s sel => s.endIfStopped sel) s
  { s with
    walks := s.walks.filter fun p => (match p.2.who with
      | .warp sel _ => !sels.contains sel
      | _ => true)
    warps := s.warps.mapv fun i w => if sels.contains i then { w with needs := if w.hold.isSome then w.needs else [] } else w }

/-- An operation that the save waits for: matrix operations, register fills, a multicast, and a veneer load that is not suspended. -/
def EngOp.mustFinish (e : EngOp) : Bool :=
  e.opcode = 0x50 || e.opcode = 0x51 || e.opcode = 0x52 || e.opcode = 0x53 || e.opcode = 0x5C || e.dst.isSome ||
    (e.opcode = 0x57 && (match e.phase with
      | .suspended _ => false
      | _ => true))

/-- What the workgroup's warps and engines had under way is done or parked. -/
def State.drained (s : State) (no : Nat) : Bool :=
  let sels := s.warpsOf no
  (s.warps.all fun p => p.2.wg ≠ no || p.2.hold.isNone) &&
    (s.regions.all fun p => p.2.wg ≠ no || p.2.error.isNone) &&
    (s.loads.all fun p => !sels.contains p.2.warp || p.2.accs.all fun a => a.phase = .done || a.phase = .parked) &&
    (s.engines.all fun p => !(p.2.wg = no && p.2.mustFinish) && !p.2.parts.any fun q => q.wg = no && q.state = 0) &&
    s.walks.all fun p => match p.2.who with
      | .cow sel => !sels.contains sel
      | _ => true

/-! ### The frame (R319, step 5) -/

/-- Where a page of the frame stands: it can be written, its fault joins the pager's queue, or the save is given up with a cause. -/
inductive FramePage where
  | ok
  | fault (cause level : Nat)
  | bad (cause : Nat)
deriving DecidableEq, Repr

def State.framePage (s : State) (c vf page : Nat) : FramePage :=
  match (s.walk (dieOf c) vf (page * 4096) true).2 with
  | .found t => if s.memAllows c vf (t.phys (page * 4096)) false true then .ok else .bad 0x0A
  | .absent level => if s.faultArea vf = 0 then .bad 0x0B else .fault 0 level
  | .protect level _ _ => if s.faultArea vf = 0 then .bad 0x0B else .fault 1 level
  | .fatal _ _ => .bad 0x0B
  | .refused _ _ => .bad 0x0A

/-- The pages of a workgroup's frame. -/
def framePages (b : List Byte) (lin : Nat) : List Nat := (List.range 576).map fun i => (recSave b + lin * 2359296) / 4096 + i

/-- The save of a drained workgroup: its place on the cluster is freed, and its state goes to its frame with the cluster's pts. -/
def State.saveWg (s : State) (no : Nat) (g : Wg) : State :=
  let c := g.cluster
  let sels := s.warpsOf no
  let v := 192 + no
  let h : Wg := { g with cluster := v, left := c, idx := 0, rail := 0, accRow := 0, warps := List.range g.warps.length, phase := .saved }
  let n := s.blocksOf no g
  let s := (s.cluster c).unretired.foldl (fun s p => if sels.contains p.1 then s.raisePts c p.2 else s) s
  let pts := (s.cluster c).pts
  let s := s.modCluster c fun k => { k with
    saving := false
    pool := k.pool + n
    unretired := k.unretired.filter fun p => !sels.contains p.1
    xqueue := k.xqueue.filter fun p => !sels.contains p.1 }
  ((s.moveWg no g h).modCluster v fun k => { k with pts := pts }).grantBlocks c 64

/-- Step 5: the pages of the frame are translated, and the save goes on, parks or is given up. -/
def State.trySave (s : State) (no : Nat) (g : Wg) (l : Launch) : State :=
  let c := g.cluster
  match (framePages l.bytes g.lin).findSome? fun p => match s.framePage c l.vf p with
      | .ok => none
      | x => some (p, x) with
  | some (p, .fault cause level) =>
    let s := s.modCluster c fun k => { k with saving := true }
    s.raiseFault ⟨l.vf, p, unitMaster (dieOf c), accWrite, cause, 0, level, 0xFFFFFFFF, g.launch, dieOf c, none, [.save no]⟩
  | some (_, .bad cause) => (s.modCluster c fun k => { k with saving := false }).endWg no cause 0 0 false
  | _ => s.saveWg no g

/-- PREEMPT (R319): a resident workgroup with a save frame stops, and is saved once what it has under way is done. -/
def execPreempt (wg : Nat) (s : State) : Result :=
  .next (match s.wgs.look wg with
    | none => s
    | some g =>
      match s.launches.look g.launch with
      | none => s
      | some l =>
        if g.cause ≠ 0 || recSave l.bytes = 0 then s
        else match g.phase with
          | .resident => s.beginStop wg
          | .stopping =>
            if !s.drained wg || (s.faults.any fun p => p.2.askers.contains (.save wg)) then s
            else
              let s := ((s.releaseAll ((s.warpsOf wg).headD 0) wg).2).sendPartials g.cluster true
              if s.flights.any fun p => p.2.wg = wg then s else s.trySave wg ((s.wgs.look wg).getD g) l
          | _ => s)

/-! ### RESTORE (R320) -/

/-- The need of a saved workgroup. -/
def State.savedNeed (s : State) (no : Nat) (g : Wg) (b : List Byte) : Need := { recNeed b with blocks := s.blocksOf no g }

/-- A saved workgroup may be restored only to the cluster it left. -/
def Launch.pinned (l : Launch) : Bool := !l.sems.isEmpty || recRedundant l.bytes || recBound l.bytes

/-- No queue of the virtual function on the die has work of a higher effective priority ready. -/
def State.outranked (s : State) (die vf prio : Nat) : Bool := (List.range 16).any fun q => s.headPriority die vf q > prio && s.ready die vf q

/-- What moves with a restored workgroup: the clusters of its operations, streams and versions, and the walks of its requests. -/
def State.followWg (s : State) (no c : Nat) : State :=
  let sels := s.warpsOf no
  let ofLoad (id : Nat) : Bool := ((s.loads.look id).map fun ld => sels.contains ld.warp).getD false
  { s with
    engines := s.engines.mapv fun _ e => if e.wg = no && engineOf e.opcode ≠ 5 then { e with cluster := c } else e
    streams := s.streams.mapv fun _ x => { x with
      cluster := if x.wg = no then c else x.cluster
      members := x.members.map fun (m : Sub) => if m.wg = no then { m with cluster := c } else m }
    versions := s.versions.mapv fun _ v => match v.owner with
      | .workgroup h => if h = no then { v with cluster := c } else v
      | .region r => if ((s.regions.look r).map fun x => decide (x.wg = no)).getD false then { v with cluster := c } else v
      | _ => v
    walks := s.walks.mapv fun _ w => match w.who with
      | .warp sel _ => if sels.contains sel then { w with cluster := fibreTlb c, die := dieOf c } else w
      | .load id _ => if ofLoad id then { w with cluster := fibreTlb c, die := dieOf c } else w
      | _ => w }

/-- The fibres of a workgroup that wait for an extended block wait again at the cluster's pool. -/
def State.requeueBlocks (s : State) (no c : Nat) : State :=
  (s.warpsOf no).foldl (fun s sel =>
    let lanes := ((s.fibresOf sel).filter fun p => p.2.wait = .xacq).map Prod.fst
    if lanes.isEmpty then s else s.modCluster c fun k => { k with xqueue := k.xqueue ++ [(sel, lanes)] }) s

/-- A saved workgroup returns to a cluster. -/
def State.restoreWg (s : State) (no c : Nat) (g : Wg) (b : List Byte) : State :=
  let pts := (s.cluster g.cluster).pts.toNat
  let h : Wg := { g with
    cluster := c, left := c, idx := s.indexFor c, rail := (s.railFor c g.rails).getD 0, accRow := (s.rowFor c g.accRows).getD 0
    warps := (s.freeSlots c).take (recWarps b), phase := .resident }
  let n := s.blocksOf no g
  let s := (s.takeBlocks c n).moveWg no g h
  let s := ({ s with clusters := s.clusters.del g.cluster }.raisePts c pts).followWg no c
  let s := (s.requeueBlocks no c).beginSlice c
  ((s.warpsOf no).foldl State.returnWaits s).grantBlocks c 64

/-- RESTORE (R320): a saved workgroup is placed again, at its launch's effective priority. -/
def execRestore (wg cluster : Nat) (s : State) : Result :=
  .next (match s.wgs.look wg with
    | none => s
    | some g =>
      match s.launches.look g.launch with
      | none => s
      | some l =>
        let locks := ((s.locksOf g.cluster).filter fun p => p.2.wg = wg).length
        if g.phase ≠ .saved || g.cause ≠ 0 || cluster ≥ 192 || dieOf cluster ≠ dieOf g.left || (l.pinned && cluster ≠ g.left) ||
            !s.fits cluster l.vf (s.savedNeed wg g l.bytes) || s.locksFree cluster < locks ||
            s.outranked (dieOf cluster) l.vf (recPriority l.bytes) then s
        else s.restoreWg wg cluster g l.bytes)

/-! ### The time slice (R318, R321) -/

/-- The highest priority among the workgroups of a cluster. -/
def State.residentPriority (s : State) (c : Nat) : Nat :=
  ((s.residents c).map fun p => ((s.launches.look p.2.launch).map fun l => recPriority l.bytes).getD 0).foldl max 0

/-- A queue's head holds a workgroup whose producers have retired and which no cluster takes. -/
def State.starved (s : State) (die vf queue : Nat) : Bool :=
  match (s.queueOf (queueKey die vf queue)).head?.bind QRec.accepted with
  | none => false
  | some id => match s.launches.look id with
    | none => false
    | some l =>
      let open' := (List.range (recCount l.bytes)).filter fun c => !l.placed.contains c && s.freed l c
      !l.suspended && !l.terminated && !open'.isEmpty && (s.placeHead die vf queue).isNone

/-- The launch unit holds work of another virtual function, or of higher effective priority, that needs a cluster which XS_VFSEL gives it. -/
def State.wanted (s : State) (c : Nat) : Bool :=
  let vf := bits (s.vfsel.get 0 c).toNat 5 0
  let others := (s.residents c).any fun p => ((s.launches.look p.2.launch).map fun l => decide (l.vf ≠ vf)).getD false
  s.assigned c vf && (((List.range 16).any fun q => (others || s.headPriority (dieOf c) vf q > s.residentPriority c) && s.starved (dieOf c) vf q) ||
    s.wgs.any fun p => p.2.phase = .saved && p.2.cause = 0 && dieOf p.2.left = dieOf c && (match s.launches.look p.2.launch with
      | none => false
      | some l => l.vf = vf && (!l.pinned || p.2.left = c) && (others || recPriority l.bytes > s.residentPriority c) &&
          !(clustersOf (dieOf c)).any fun d => (!l.pinned || p.2.left = d) && s.fits d l.vf (s.savedNeed p.1 p.2 l.bytes)))

/-- TIME_SLICE_EXPIRY (R318): the workgroups of a cluster with a save frame are pre-empted if its work is wanted there; else the slice re-arms.
A halt defers it (R321). -/
def execTimeSliceExpiry (c : Nat) (s : State) : Result :=
  .next (
    if c ≥ 192 then s
    else if (s.cluster c).sliceLen = 0 then s.beginSlice c
    else if !s.sliceOver c || s.warps.any fun p => clusterOf p.1 = c && p.2.state = .halted then s
    else
      let s' := s.beginSlice c
      if !s.wanted c then s'
      else (s.residents c).foldl (fun t p =>
        if p.2.phase = .resident && p.2.cause = 0 && ((s.launches.look p.2.launch).map fun l => decide (recSave l.bytes ≠ 0)).getD false then t.beginStop p.1
        else t) s')

end Sys2Proof.Machine
end

