-- ==== Sys2Proof/Machine/Host.lean ====
section
/-! DEFINITION. The commands of a host: register access, memory access and launches (R311, R365 to R367, R370). -/

namespace Sys2Proof.Machine

open Sys2Proof.Num (bits bit ofBytes toBytes)

/-- The package has completed boot stage 6 (R374). -/
def State.live (s : State) : Bool := s.powered && !s.failed && (List.range 4).all fun d => (s.die d).stage = 7

/-- A port takes packets: its link is trained and up, and the package has completed stage 6 (R357, R374). -/
def State.accepts (s : State) (port : Nat) : Bool :=
  s.live && (match s.ports.look port with
    | some p => p.trained && !p.dead && !p.stopped
    | none => false)

/-- The master of traffic that enters a port: ports 0–17 are Dzitex, 18–49 Ethernet (R299). -/
def portMaster (port : Nat) : Nat := if port < 18 then 388 + port else 407 + (port - 18)

/-- The die of a port (R364). -/
def portDie (port : Nat) : Nat := masterDie (portMaster port)

/-- A packet of a host is turned away. -/
def State.turnAway (s : State) (host : Nat) : State := s.emit ⟨host, 20, [s.package]⟩

/-! ### Register access (R290, R367, R370) -/

/-- An expert-table entry as a number of 64 bytes (R370). -/
def expertValue (x : Expert) : Nat :=
  x.control % 16 + x.vf % 64 * 2 ^ 8 + ((List.range 4).map fun i => x.replicas.getD i 0 % 2 ^ 64 * 2 ^ (64 + 64 * i)).foldl (· + ·) 0 +
    x.overflow % 2 ^ 64 * 2 ^ 320

/-- The entry that a number of 64 bytes gives; reserved bits are dropped. -/
def expertOf (n : Nat) : Expert :=
  ⟨n % 16, bits n 13 8, (List.range 4).map fun i => bits n (127 + 64 * i) (64 + 64 * i), bits n 383 320⟩

/-- MANAGEMENT_READ (R367): space 0 reads an XS_ register from a word on, space 1 an expert-table entry; everything else is refused. -/
def execManagementRead (host port space word sel : Nat) (s : State) : Result :=
  .next (if !s.accepts port then s
    else match space with
      | 0 => match xregOf word with
        | some (r, first) =>
          if r.selOk sel then s.emit ⟨host, 16, [s.package, space, word, sel, s.xval r sel / 2 ^ (32 * (word - first))]⟩ else s.turnAway host
        | none => s.turnAway host
      | 1 =>
        if sel < 65536 && word < 16 then s.emit ⟨host, 16, [s.package, space, word, sel, expertValue (s.experts.get Expert.zero sel) / 2 ^ (32 * word)]⟩
        else s.turnAway host
      | _ => s.turnAway host)

/-- A write of `wide` bytes at a word lies in its register of `len` words, whole. -/
def writeFits (wide word first len : Nat) : Bool :=
  [4, 8, 16, 32].contains wide && word % (wide / 4) = 0 && word - first + wide / 4 ≤ len

/-- MANAGEMENT_WRITE (R367): a write to an XS_ register joins the writes on their way to it, an expert entry is written in the copy of every
die before the write is acknowledged (R370). -/
def execManagementWrite (host port space word sel wide data : Nat) (s : State) : Result :=
  .next (if !s.accepts port then s
    else match space with
      | 0 => match xregOf word, sysRegOf word with
        | some (r, first), some (_, len) =>
          if r.selOk sel && writeFits wide word first len && sysWordWritable word then
            { s with regQueue := s.regQueue ++ [⟨host, word, sel, wide, data⟩] }
          else s.turnAway host
        | _, _ => s.turnAway host
      | 1 =>
        if sel < 65536 && word < 16 && writeFits wide word 0 16 then
          let old := expertValue (s.experts.get Expert.zero sel)
          { s with experts := s.experts.set Expert.zero sel (expertOf (mergeWords old (32 * word) wide data)) }.emit
            ⟨host, 17, [s.package, word, sel]⟩
        else s.turnAway host
      | _ => s.turnAway host)

/-! ### Memory access (R346, R348, R367) -/

/-- The bytes that a host's packet names, by address. -/
def hostRange (o : HostAccess) : List (Nat × Byte) :=
  (List.range o.size).map fun i => (o.addr + i, BitVec.ofNat 8 (o.data / 256 ^ i))

/-- The bytes that a write stores. -/
def hostWritten (o : HostAccess) : List (Nat × Byte) := (hostRange o).filter fun b => bit o.mask (b.1 - o.addr)

/-- The first byte of each line of the packet. -/
def hostHeads (o : HostAccess) : List Nat := (byLine (hostRange o)).filterMap fun g => g.head?.map Prod.fst

/-- The packet enters: the port egress of its die sees it, and each home slice grants it. Answers the first place that refuses: a target
with an address. -/
def State.hostRefused (s : State) (o : HostAccess) (rd wr : Bool) : Option (Nat × Nat) :=
  if !s.tableAllows (egressTarget (portDie o.port)) hostMaster o.vf true false then some (egressTarget (portDie o.port), 0)
  else ((hostHeads o).find? fun pa => !s.memAllows hostMaster o.vf pa rd wr).map fun pa => (sliceTarget (homeOf pa % 4) pa, pa)

/-- A line as a host's request meets it at its home: its partials are merged (R93), an alias line's sectors decoded (R65), its errors found. -/
def State.hostMeets (s : State) (pa n : Nat) (rd : Bool) : State :=
  let s := if s.hasPartials (lineOf pa) then s.mergePartials (lineOf pa) else s
  let s := if rd then s.checkRead pa n else s
  match (if rd then s.windowAt pa else none) with
  | some w => ((List.range n).map fun i => (pa + i) / 64 * 64).eraseDups.foldl (fun s at' => s.fillAlias w at') s
  | none => s

/-- The bytes of a packet are poisoned: a word of theirs is marked, or the read has found an uncorrectable error in a dirty line, which
retired the page (R348, R363). -/
def State.hostBad (s : State) (o : HostAccess) : Bool := s.anyBad o.addr o.size || (hostHeads o).any fun pa => s.isRetired pa

/-- A read: every line is served at its home, and the bytes go back with the poison of their words. -/
def State.hostRead (s : State) (o : HostAccess) : State :=
  let s := (byLine (hostRange o)).foldl (fun s g => s.hostMeets ((g.head?.map Prod.fst).getD 0) g.length true) s
  s.emit ⟨o.host, 18, [s.package, o.addr, if s.hostBad o then 1 else 0] ++ (s.homeBytes o.addr o.size).map BitVec.toNat⟩

/-- A write of one line: whether its bytes were merged, and the state (R348, R367). -/
def State.hostMerge (s : State) (vf : Nat) (bs : List (Nat × Byte)) : Bool × State :=
  match bs with
  | [] => (true, s)
  | b :: _ =>
    let s := s.hostMeets b.1 1 false
    let (t, s) := s.mergeHome bs none vf 0xFFFFFE
    let s := match (if t.isSome then s.windowAt b.1 else none) with
      | some n => s.modL2 (lineOf b.1) fun l => { l with fmt := some n }
      | none => s
    (t.isSome, s)

/-- A write: acknowledged once it has merged; refused when a line was lost at the merge. -/
def State.hostWrite (s : State) (o : HostAccess) : State :=
  let (ok, s) := (byLine (hostWritten o)).foldl (fun (acc : Bool × State) g =>
    let (t, s) := acc.2.hostMerge o.vf g
    (acc.1 && t, s)) (true, s)
  if ok then s.emit ⟨o.host, 18, [s.package, o.addr, 0]⟩ else s.turnAway o.host

/-- An atomic: one read and write at the home; a poisoned target, or a compare that fails, is not written (R346). -/
def State.hostAtomic (s : State) (o : HostAccess) : State :=
  let s := s.hostMeets o.addr o.size true
  let old := s.homeNat o.addr o.size
  let bad := s.hostBad o
  if bad || atomFails o.op old o.compare then s.emit ⟨o.host, 18, [s.package, o.addr, if bad then 1 else 0, old]⟩
  else
    let (ok, s) := s.hostMerge o.vf (bytesAt o.addr o.size (atomNew o.op o.ty old o.data o.compare))
    if ok then s.emit ⟨o.host, 18, [s.package, o.addr, 0, old]⟩ else s.turnAway o.host

/-- The packet's form: at most 16 data flits; an atomic of a value that its type and operation allow (R181), aligned. -/
def hostOk (o : HostAccess) : Bool :=
  o.vf < 64 && 1 ≤ o.size && o.size ≤ 1024 && o.addr + o.size ≤ 2 ^ 52 &&
    (o.kind ≤ 1 || (o.kind = 2 && o.size = memSize o.ty && o.addr % o.size = 0 && o.op ≤ 5 && (atomTypes o.op).contains o.ty))

/-- HOST_MEMORY_ACCESS (R367): a .sys access under master 406 to this package's memory, served at the home. One that meets a line which
waits for a commit waits with it. -/
def execHostMemoryAccess (o : HostAccess) (s : State) : Result :=
  .next (if !s.accepts o.port then s
    else if !(hostOk o) || (hostHeads o).any fun pa => (s.ownDie pa).isNone || !populated pa then s.turnAway o.host
    else match s.hostRefused o (o.kind ≠ 1) (o.kind ≠ 0) with
      | some (t, pa) => (s.logRefusal t hostMaster o.vf pa (t % 64 = 55 || o.kind ≠ 1) (t % 64 ≠ 55 && o.kind ≠ 0)).turnAway o.host
      | none =>
        if (hostHeads o).any fun pa => (s.l2Line (lineOf pa)).pending then s
        else match o.kind with
          | 0 => s.hostRead o
          | 1 => s.hostWrite o
          | _ => s.hostAtomic o)

/-! ### Launches (R311, R367) -/

/-- HOST_LAUNCH_ENQUEUE (R367): a record of 256 bytes enters a queue of a die; the response carries the word of R213. -/
def execHostLaunchEnqueue (host port die vf queue : Nat) (record : List Nat) (s : State) : Result :=
  .next (if !s.accepts port then s
    else if die ≥ 4 || vf ≥ 64 || queue ≥ 16 || record.length ≠ 256 then s.turnAway host
    else if !s.tableAllows (egressTarget (portDie port)) hostMaster vf true false then
      (s.logRefusal (egressTarget (portDie port)) hostMaster vf 0 true false).turnAway host
    else if (s.queueOf (queueKey die vf queue)).length ≥ 8 then s.emit ⟨host, 19, [s.package, launchWord 2 0 0]⟩
    else if !s.tableAllows (die * 64 + 52) hostMaster vf false true then
      (s.logRefusal (die * 64 + 52) hostMaster vf 0 false true).emit ⟨host, 19, [s.package, launchWord 4 0 0]⟩
    else s.enqueue die queue
      { bytes := record.map (BitVec.ofNat 8), vf := vf, host := host, warp := none, op := none, fromHost := true, accepted := none, waited := 0,
        age := 0, blocked := none, lost := false })

end Sys2Proof.Machine
end

