-- ==== Sys2Proof/Machine/Fabric.lean ====
section
/-! DEFINITION. Ports, links and packets: dropped packets, dead links, link-state updates, drain rounds and errors of the part's own (R345, R357,
R358, R365, R366). -/

namespace Sys2Proof.Machine

open Sys2Proof.Num (bits bit)

/-! ### Reserved opcodes (R141) -/

/-- RESERVED_OPCODE (R141): a word with a reserved opcode raises ILLEGAL_OPCODE, whatever else it holds. -/
def execReservedOpcode (w : DWord) (s : State) : Result :=
  .next ({ s with word := w }.takeTrap s.actor ⟨0x01, s.lowest s.actor, 0, 0, 0⟩)

/-! ### Packets that are dropped (R366, R373) -/

/-- PACKET_DROP (R366, R373): a packet of kind 13 to 255, or, numbered 256, a tagged frame on an Ethernet port, is dropped and logged as
refused at the port egress of its die. -/
def execPacketDrop (port kind : Nat) (s : State) : Result :=
  .next (if s.accepts port && ((13 ≤ kind && kind ≤ 255) || (kind = 256 && 18 ≤ port)) then
      { s with dropped := s.dropped + 1 }.logRefusal (egressTarget (portDie port)) (portMaster port) 0 0 true false
    else s)

/-! ### Links (R356, R357, R365) -/

/-- The injections of unit 10 and a kind that name a port are over: armed clears, on each die that planted one. -/
def State.endPortInjection (s : State) (port kind : Nat) : State :=
  (List.range 4).foldl (fun s d =>
    let x := (s.errinj.get 0 d).toNat
    if bit x 127 && bits x 123 120 = 10 && bits x 119 116 = kind && injectLoc x = port then
      ({ s with plants := s.plants.filter fun p => !(p.die = d && p.unit = 10) }.noteFired ⟨10, port, 0, false, d, true, 0⟩).disarm d
    else s) s

/-- A link-state update goes out on every port whose link is up (R357). -/
def State.flood (s : State) (pkg link number : Nat) : State :=
  (s.ports.filter fun p => p.2.trained && !p.2.dead).foldl (fun s p => s.emit ⟨p.1, 12, [pkg, link, number]⟩) s

/-- A package's own update: its number rises with each (R357). -/
def State.announce (s : State) (link : Nat) : State :=
  let n := s.linkNumber + 1
  ({ s with linkNumber := n, linkSeen := s.linkSeen.put (s.package * 64 + link) n }).flood s.package link n

/-- Routes have been recomputed: the four drain rounds begin (R358). -/
def State.beginDrain (s : State) : State := { s with drain := some (1, s.fabricClock) }

/-- LINK_DEAD (R357): after 16 consecutive empty intervals a port declares its link dead. -/
def execLinkDead (port : Nat) (s : State) : Result :=
  .next (match s.ports.look port with
    | none => s
    | some p =>
      if !s.live || !p.trained || p.dead then s
      else
        let s := { s with ports := s.ports.put port { p with dead := true, stopped := false } }
        ((s.endPortInjection port 1).announce port).beginDrain)

/-- LINK_STATE_UPDATE (R357): an update that is newer than the one held for its package and port is kept and forwarded, and the routes are
recomputed. -/
def execLinkStateUpdate (port pkg link number : Nat) (s : State) : Result :=
  .next (if !s.accepts port || pkg ≥ 4096 || link ≥ 64 || number ≥ 2 ^ 32 || number ≤ s.linkSeen.get 0 (pkg * 64 + link) then s
    else (({ s with linkSeen := s.linkSeen.put (pkg * 64 + link) number }).flood pkg link number).beginDrain)

/-- LINK_BEAT_ERROR (R365): a beat fails the link check and is resent by the link, which ends an injection of kind 0. -/
def execLinkBeatError (port : Nat) (s : State) : Result :=
  .next (match s.ports.look port with
    | none => s
    | some p =>
      if !s.live || !p.trained || p.dead then s
      else ({ s with ports := s.ports.put port { p with resent := p.resent + 1 } }).endPortInjection port 0)

/-- DIE_TO_DIE_LANE_LOSS (R357): a link between two dies loses more lanes than its spares; the package stops, and every link of it goes dead. -/
def execDieToDieLaneLoss (d e : Nat) (s : State) : Result :=
  .next (if d < 4 && e < 4 && d ≠ e && s.powered then
      { s with failed := true, ports := s.ports.mapv fun _ p => { p with dead := true } }
    else s)

/-! ### Draining (R358) -/

/-- A queued packet is dropped at the end of round k: it has waited here longer than k × 4,096 cycles, or its next hop is dead. -/
def State.drains (s : State) (k : Nat) (p : Packet) : Bool :=
  p.queued && (decide (s.fabricClock - p.since > k * 4096) || ((s.ports.look p.port).map Port.dead).getD true)

/-- DRAIN_ROUND (R358): the end of a round. -/
def execDrainRound (s : State) : Result :=
  .next (match s.drain with
    | none => s
    | some (k, began) =>
      if s.fabricClock < began + 4096 then s
      else { s with
        packets := s.packets.mapv fun _ p => if s.drains k p then { p with queued := false } else p
        drain := if k < 4 then some (k + 1, s.fabricClock) else none })

/-- UNDELIVERED (R358): the sender resends the packet on the new routes with the same number. -/
def execUndelivered (id : Nat) (s : State) : Result :=
  .next (match s.packets.look id with
    | none => s
    | some p => if p.queued then s else { s with packets := s.packets.put id { p with queued := true, port := s.route, since := s.fabricClock } })

/-! ### Errors that arise of themselves (R345) -/

/-- STORAGE_ERROR (R345): an error arises in a stored word, named as the planted errors of its unit are; a k register is 2^40 and its key.
A single-bit error is corrected where it is found. -/
def execStorageError (unit loc bit : Nat) (double : Bool) (s : State) : Result :=
  .next (if unit = 0 || unit > 8 || bit > 63 then s
    else if unit = 4 && loc ≥ 2 ^ 40 then
      (if double && (s.kCell (loc - 2 ^ 40)).st = .full then s.setK (loc - 2 ^ 40) { s.kCell (loc - 2 ^ 40) with st := .poisoned 0 } else s)
    else if s.wordPresent unit loc then
      let p : Plant := ⟨unit, loc, bit, double, 4, true, 0⟩
      { s with plants := p :: s.plants }.spoil p
    else s)

end Sys2Proof.Machine
end

