-- ==== Sys2Proof/Machine/Boot.lean ====
section
/-! DEFINITION. Bring-up, attestation, the power governor and thermal control (R374 to R380). -/

namespace Sys2Proof.Machine

open Sys2Proof.Num (bits bit ofBytes toBytes)

/-! ### Power (R374, R379) -/

/-- The rails go down together: nothing of the part's state stays. The model's own counters and what the hosts have received go on. -/
def State.powerOff (s : State) : State :=
  { State.reset with tick := s.tick, freeCount := s.freeCount, nextId := s.nextId, package := s.package, out := s.out }

/-- POWER_GOOD (R374): every rail is up, and the boot ROM of each die releases its firmware controller. -/
def execPowerGood (s : State) : Result :=
  .next (if s.powered && !s.failed then s
    else { s.powerOff with powered := true, dies := (List.range 4).map fun d => (d, { Die.off with stage := 1 }) })

/-! ### The boot stages (R374, R375) -/

/-- The first of the two images of a firmware that verifies (R375). -/
def bootImage (die firmware : Nat) : Option Nat := (List.range 2).find? fun i => Config.imageOk die firmware i

/-- A die may run a stage: the one before it has completed, and no firmware of it has failed. -/
def State.mayBoot (s : State) (die stage : Nat) : Bool :=
  s.powered && !s.failed && die < 4 && (s.die die).stage = stage && !(s.die die).failed

/-- A stage completes. -/
def State.booted (s : State) (die stage : Nat) : State := s.modDie die fun x => { x with stage := stage + 1 }

/-- A stage that loads a firmware: it is verified and measured; when both images fail, the die stops there. -/
def State.load (s : State) (die firmware stage : Nat) (run : State → State) : State :=
  match bootImage die firmware with
  | none => s.modDie die fun x => { x with failed := true }
  | some i => (run { s with measured := s.measured.put (die * 4 + firmware) (Config.digest die firmware i % 2 ^ 512) }).booted die stage

/-- BOOT_STAGE_1: die firmware. -/
def execBootStage1 (die : Nat) (s : State) : Result :=
  .next (if s.mayBoot die 1 then s.load die 0 1 id else s)

/-- The three stacks of a die are cleared to zero. -/
def State.clearHbm (s : State) (die : Nat) : State :=
  let mine (pa : Nat) : Bool := s.ownDie pa = some die
  { s with
    hbm := s.hbm.keep fun pa _ => !mine pa
    memBad := s.memBad.keep fun w _ => !mine (w * 8)
    plants := s.plants.filter fun p => !(p.unit = 3 && mine p.loc) }

/-- BOOT_STAGE_2: memory training; HBM is cleared. -/
def execBootStage2 (die : Nat) (s : State) : Result :=
  .next (if s.mayBoot die 2 then s.load die 1 2 fun s => s.clearHbm die else s)

/-- The on-die storage of a die is cleared with valid ECC: registers, scratchpad, accumulators, veneer and L2. -/
def State.clearDie (s : State) (die : Nat) : State :=
  let c (x : Nat) : Bool := dieOf x ≠ die
  let home (pa : Nat) : Bool := s.ownDie pa ≠ some die
  { s with
    vRegs := s.vRegs.keep fun k _ => c (k / 2 ^ 17)
    kRegs := s.kRegs.keep fun k _ => c (k / 2 ^ 11)
    scratch := s.scratch.keep fun k _ => c (k / 2 ^ 21)
    scratchBad := s.scratchBad.keep fun k _ => c (k / 2 ^ 18)
    acc := s.acc.keep fun k _ => c (k / 2 ^ 16)
    accBad := s.accBad.keep fun k _ => c (k / 2 ^ 15)
    veneer := s.veneer.keep fun k _ => c (k / 2 ^ 24)
    veneerBad := s.veneerBad.keep fun k _ => c (k / 2 ^ 21)
    l2 := s.l2.keep fun k _ => home (k * 256)
    l2Bytes := s.l2Bytes.keep fun k _ => home k
    remotes := s.remotes.keep fun k _ => k / 2 ^ 44 ≠ die
    remoteBytes := s.remoteBytes.keep fun k _ => k / 2 ^ 52 ≠ die
    l2Parts := s.l2Parts.keep fun k _ => k / 2 ^ 50 ≠ die
    plants := s.plants.filter fun p => match p.unit with
      | 1 => home p.loc
      | 4 => c (p.loc / 2 ^ 17)
      | 5 => c (p.loc / 2 ^ 21)
      | 6 => c (p.loc / 2 ^ 16)
      | 7 => c (p.loc / 2 ^ 24)
      | _ => true }

/-- BOOT_STAGE_3: the veneer test, every row left zero, and the clearing of on-die storage. -/
def execBootStage3 (die : Nat) (s : State) : Result :=
  .next (if s.mayBoot die 3 then (s.clearDie die).booted die 3 else s)

/-- BOOT_STAGE_4: fabric firmware; the links between the dies are trained. -/
def execBootStage4 (die : Nat) (s : State) : Result :=
  .next (if s.mayBoot die 4 then s.load die 2 4 id else s)

/-- Every XS_ register that stands on a die, and the registers of which each die holds a copy, take their reset values; the die's
quarantine and retired-page tables are emptied. -/
def State.resetRegs (s : State) (die : Nat) : State :=
  let c (x : Nat) : Bool := dieOf x ≠ die
  { s with
    traps := s.traps.keep fun k _ => c (k / 32)
    vfsel := s.vfsel.keep fun k _ => c k
    dbg := s.dbg.keep fun k _ => c k
    brkpt := s.brkpt.keep fun k _ => c (k / 16)
    errinj := s.errinj.keep fun k _ => k ≠ die
    acctab := s.acctab.keep fun k _ => k / 2 ^ 15 ≠ die
    acclog := s.acclog.keep fun k _ => k / 64 ≠ die
    slice := []
    ptroot := []
    vfcfg := []
    vfmem := []
    fmtwin := []
    retired := s.retired.keep fun k _ => k ≠ die
    quarantine := s.quarantine.keep fun k _ => k / 48 ≠ die }

/-- BOOT_STAGE_5: the system registers. -/
def execBootStage5 (die : Nat) (s : State) : Result :=
  .next (if s.mayBoot die 5 then (s.resetRegs die).booted die 5 else s)

/-! ### The attestation page (R376, R377) -/

def State.attestPage (s : State) : Nat := s.package * 2 ^ 40

/-- Die 0's firmware writes its page, under the write rule of a die unit. -/
def State.firmWrite (s : State) (bs : List (Nat × Byte)) : State :=
  (byLine bs).foldl (fun s g => (s.writeHome g none 0 0xFFFFFE).2) s

/-- The firmware samples bytes 1127–0, signs the sample and writes length and signature, padded to the field's 1,280 bytes. -/
def State.sign (s : State) : State :=
  let p := s.attestPage
  let (n, sig) := Config.signature s.signing ((s.homeBytes p 1128).map BitVec.toNat)
  { s with signing := s.signing + 1 }.firmWrite (bytesAt (p + 1128) 2 (min n 1280) ++
    (List.range 1280).map fun i => (p + 1130 + i, BitVec.ofNat 8 (sig.getD i 0)))

/-- The count goes up by one and the state returns to 0, after the signature (R377). -/
def State.reported (s : State) : State :=
  let p := s.attestPage
  let s := s.firmWrite (bytesAt p 4 ((s.homeNat p 4 + 1) % 2 ^ 32))
  s.firmWrite (bytesAt (p + 4) 4 0)

/-- The measurements and the identity are written. -/
def State.measure (s : State) : State :=
  let p := s.attestPage
  let s := (List.range 16).foldl (fun s i => s.firmWrite (bytesAt (p + 40 + 64 * i) 64 (s.measured.get 0 i))) s
  s.firmWrite (bytesAt (p + 1064) 64 Config.identity)

/-- BOOT_STAGE_6: the dies meet. The ports are trained, the first link-state update is flooded, and the first report is signed; the digest
of the fabric configuration is measured of every die. -/
def execBootStage6 (s : State) : Result :=
  .next (if (List.range 4).all fun d => s.mayBoot d 6 then
      let s := { s with
        ports := (List.range 50).map fun p => (p, { Port.down with trained := true })
        measured := (List.range 4).foldl (fun t d => t.put (d * 4 + 3) (Config.digest d 3 0 % 2 ^ 512)) s.measured }
      let s := (((s.announce 0).measure).sign).reported
      (List.range 4).foldl (fun s d => s.booted d 6) s
    else s)

/-- ATTEST_SIGN (R377): a state of 1 makes the firmware sign a fresh report. -/
def execAttestSign (s : State) : Result :=
  .next (if s.live && s.homeNat (s.attestPage + 4) 4 = 1 then s.sign.reported else s)

/-! ### Power and heat (R378, R379) -/

/-- GOVERNOR_SAMPLE (R378): once every 1,024 cycles of a die its core current is measured; matrix issue waits on every die while the package's
core power would pass 3,000 W. -/
def execGovernorSample (die : Nat) (s : State) : Result :=
  .next (if !s.live || die ≥ 4 || (s.cluster (die * 48)).cyc.toNat < 1024 * (s.die die).sampled then s
    else
      let s := s.modDie die fun x => { x with sampled := x.sampled + 1 }
      let watts := ((List.range 4).map fun d => Config.corePower d (s.die d).sampled).foldl (· + ·) 0
      (List.range 4).foldl (fun s d => s.modDie d fun x => { x with governed := decide (watts > 3000) }) s)

/-- THERMAL_STEP (R379): a die's arithmetic clock goes down or up by 100 MHz, between 0.8 and 1.5 GHz. -/
def execThermalStep (die : Nat) (lower : Bool) (s : State) : Result :=
  .next (if !s.powered || die ≥ 4 then s
    else s.modDie die fun x => { x with clock := if lower then max 8 (x.clock - 1) else min 15 (x.clock + 1) })

/-- THERMAL_SHUTDOWN (R379): a die that has stayed above 110 °C for 1 ms at 0.8 GHz makes the package remove its own power. -/
def execThermalShutdown (die : Nat) (s : State) : Result :=
  .next (if s.powered && die < 4 && (s.die die).clock = 8 && Config.overheated die s.tick then s.powerOff else s)

end Sys2Proof.Machine
end

