-- ==== Sys2Proof/Machine/Flags.lean ====
section
/-! DEFINITION. Floating-point flags and rounding mode (R39, R58, R59), and the packed halves of R51. -/

namespace Sys2Proof.Machine

open Sys2Proof.Num (Fmt Val Rm Flags decode)

/-- ORs flags into a warp's %fpc (R39). -/
def State.orFlags (s : State) (sel mask : Nat) : State :=
  if mask = 0 then s else s.modWarp sel fun w => { w with fpc := w.fpc ||| BitVec.ofNat 32 mask }

/-- The rounding mode of an instruction: RNE, or with rm 1 the mode of %fpc as it stands at issue (R147). -/
def State.rounding (s : State) (sel : Nat) (rm : Bool) : Rm :=
  if rm then Rm.ofBits (((s.warps.look sel).map fun w => w.fpc.toNat).getD 0) else .rne

/-- The flags of every lane together. -/
def flagsOf (fs : List Flags) : Nat := (fs.foldl Flags.or Flags.none).mask

/-- The element format of an arithmetic type. -/
def fmtOf : Ty → Fmt
  | .f16 => Num.f16
  | .bf16 => Num.bf16
  | .e4m3 => Num.e4m3
  | .e5m2 => Num.e5m2
  | .e2m1 => Num.e2m1
  | _ => Num.f32

/-- An operation on the elements of 32-bit operands: one FP32 element, or two packed ones computed apart (R51). -/
def onElements (t : Ty) (f : Fmt → List Nat → Nat × Flags) (xs : List Nat) : Nat × Flags :=
  if t = .f32 then f Num.f32 xs
  else
    let lo := f (fmtOf t) (xs.map fun x => x % 65536)
    let hi := f (fmtOf t) (xs.map fun x => x / 65536 % 65536)
    (lo.1 + 65536 * hi.1, lo.2.or hi.2)

/-- A vector instruction that computes one result per lane from its sources, with the flags it raises. -/
def State.compute (s : State) (op : Nat) (g : Fin 8) (d : Reg) (wide : Bool) (srcs : List Opnd) (f : Nat → List Nat → Nat × Flags) : State :=
  s.vec op g (srcs ++ [dstOpnd d wide]) fun lanes s0 =>
    let rs := lanes.map fun l => (l, f l (s0.vals s.actor l srcs), s0.floorOf s.actor l srcs)
    (s0.writeLanes s.actor d wide (rs.map fun r => (r.1, r.2.1.1, r.2.2))).orFlags s.actor (flagsOf (rs.map fun r => r.2.1.2))

/-- A vector instruction that writes a predicate per lane. -/
def State.computePred (s : State) (op : Nat) (g : Fin 8) (p : Nat) (srcs : List Opnd) (f : List Nat → Bool × Flags) : State :=
  s.vec op g srcs fun lanes s0 =>
    let rs := lanes.map fun l => (l, f (s0.vals s.actor l srcs))
    (rs.foldl (fun s r => s.modFibre (fibreKey s0.actor r.1) fun x => x.setPred p r.2.1) s0).orFlags s.actor
      (flagsOf (rs.map fun r => r.2.2))

end Sys2Proof.Machine
end

