-- ==== Sys2Proof/Machine/Int.lean ====
section
/-! DEFINITION. Integer arithmetic, logic, shifts, bit fields, comparisons and predicates (R150 to R157). -/

namespace Sys2Proof.Machine

open Sys2Proof.Num (bits bit sgn wrap)

/-! ### Types (R136, R146) -/

/-- The width of an integer or raw type in bits. -/
def widthOf : Ty → Nat
  | .s64 | .n64 | .b64 => 64
  | .s16 | .n16 | .f16 | .bf16 => 16
  | .s8 | .n8 | .e4m3 | .e5m2 => 8
  | .e2m1 => 4
  | _ => 32

def signedTy : Ty → Bool
  | .s32 | .s64 | .s16 | .s8 => true
  | _ => false

/-- The value that the low bits of an operand stand for under a type. -/
def intOf (t : Ty) (x : Nat) : Int := if signedTy t then sgn (widthOf t) x else ((x % 2 ^ widthOf t : Nat) : Int)

/-- A result modulo 2^w, sign- or zero-extended to the register (R146). -/
def extend (t : Ty) (x : Int) : Nat :=
  let y := wrap (widthOf t) x
  if signedTy t then wrap (max 32 (widthOf t)) (sgn (widthOf t) y) else y

/-- A result that raises no flag. -/
def plain (x : Nat) : Nat × Num.Flags := (x, Num.Flags.none)

/-- An integer operation on two sources of the type. -/
def State.int2 (s : State) (op : Nat) (o : A2) (f : Int → Int → Int) : State :=
  let w := o.ty.wide
  s.compute op o.g o.d w [srcOpnd o.a w, srcOpnd o.b w] fun _ xs =>
    plain (extend o.ty (f (intOf o.ty (xs.getD 0 0)) (intOf o.ty (xs.getD 1 0))))

/-- The sum modulo 2^w. -/
def intAdd (a b : Int) : Int := a + b
/-- The difference modulo 2^w. -/
def intSub (a b : Int) : Int := a - b
/-- The product; its low w bits are kept. -/
def intMul (a b : Int) : Int := a * b
def intMin (a b : Int) : Int := if a ≤ b then a else b
def intMax (a b : Int) : Int := if a ≤ b then b else a

/-- IADD (R150). -/
def execIadd (o : A2) (s : State) : Result := .next (s.int2 0x01 o intAdd)
/-- ISUB (R150). -/
def execIsub (o : A2) (s : State) : Result := .next (s.int2 0x03 o intSub)
/-- IMUL (R150). -/
def execImul (o : A2) (s : State) : Result := .next (s.int2 0x05 o intMul)
/-- IMULH: bits 2w − 1 to w of the exact product (R150). -/
def execImulh (o : A2) (s : State) : Result := .next (s.int2 0x06 o fun a b => a * b / ((2 ^ widthOf o.ty : Nat) : Int))
/-- IMIN (R150). -/
def execImin (o : A2) (s : State) : Result := .next (s.int2 0x08 o intMin)
/-- IMAX (R150). -/
def execImax (o : A2) (s : State) : Result := .next (s.int2 0x09 o intMax)

/-- IMAD: a × b + c, its low w bits (R150). -/
def execImad (o : A3) (s : State) : Result :=
  let w := o.ty.wide
  .next (s.compute 0x07 o.g o.d w [srcOpnd o.a w, srcOpnd o.b w, regOpnd o.c o.cPol w] fun _ xs =>
    plain (extend o.ty (intOf o.ty (xs.getD 0 0) * intOf o.ty (xs.getD 1 0) + intOf o.ty (xs.getD 2 0))))

/-- IABS: the most negative value returns unchanged (R150). -/
def execIabs (o : A1) (s : State) : Result :=
  let w := o.ty.wide
  .next (s.compute 0x0A o.g o.d w [srcOpnd o.a w] fun _ xs => plain (extend o.ty ((intOf o.ty (xs.getD 0 0)).natAbs : Int)))

/-- The carry of a sum and the borrow of a difference (R151). -/
def carryOf (w a b c : Nat) : Nat := (a + b + c % 2) / 2 ^ w
def borrowOf (a b c : Nat) : Nat := if a < b + c % 2 then 1 else 0

/-- IADDC (R151). -/
def execIaddc (o : A3) (s : State) : Result :=
  let w := o.ty.wide
  .next (s.compute 0x02 o.g o.d w [srcOpnd o.a w, srcOpnd o.b w, regOpnd o.c o.cPol w] fun _ xs =>
    plain (carryOf (widthOf o.ty) (xs.getD 0 0) (xs.getD 1 0) (xs.getD 2 0)))
/-- ISUBB (R151). -/
def execIsubb (o : A3) (s : State) : Result :=
  let w := o.ty.wide
  .next (s.compute 0x04 o.g o.d w [srcOpnd o.a w, srcOpnd o.b w, regOpnd o.c o.cPol w] fun _ xs =>
    plain (borrowOf (xs.getD 0 0) (xs.getD 1 0) (xs.getD 2 0)))

/-! ### Logic and shifts (R152) -/

/-- A logical operation on two sources. -/
def State.logic2 (s : State) (op : Nat) (o : A2) (f : Nat → Nat → Nat) : State :=
  let w := o.ty.wide
  s.compute op o.g o.d w [srcOpnd o.a w, srcOpnd o.b w] fun _ xs => plain (f (xs.getD 0 0) (xs.getD 1 0))

/-- A shift: b is a 32-bit count. -/
def State.shift (s : State) (op : Nat) (o : A2) (f : Nat → Nat → Nat → Nat) : State :=
  s.compute op o.g o.d o.ty.wide [srcOpnd o.a o.ty.wide, srcOpnd o.b false] fun _ xs =>
    plain (f (widthOf o.ty) (xs.getD 0 0) (xs.getD 1 0))

/-- AND (R152). -/
def execAnd (o : A2) (s : State) : Result := .next (s.logic2 0x0C o (· &&& ·))
/-- OR (R152). -/
def execOr (o : A2) (s : State) : Result := .next (s.logic2 0x0D o (· ||| ·))
/-- XOR (R152). -/
def execXor (o : A2) (s : State) : Result := .next (s.logic2 0x0E o (· ^^^ ·))
/-- NOT (R152). -/
def execNot (o : A1) (s : State) : Result :=
  let w := o.ty.wide
  .next (s.compute 0x0F o.g o.d w [srcOpnd o.a w] fun _ xs => plain (2 ^ widthOf o.ty - 1 - xs.getD 0 0 % 2 ^ widthOf o.ty))

def shiftLeft (w a n : Nat) : Nat := if n ≥ w then 0 else a * 2 ^ n % 2 ^ w
def rotateLeft (w a n : Nat) : Nat := let k := n % w; (a * 2 ^ k + a / 2 ^ (w - k)) % 2 ^ w
/-- Zero-fill, or sign-fill of a signed type; a count of w or more leaves copies of the fill. -/
def shiftRight (t : Ty) (w a n : Nat) : Nat :=
  if signedTy t then wrap w (sgn w a / ((2 ^ min n w : Nat) : Int)) else a / 2 ^ min n w

/-- SHL (R152). -/
def execShl (o : A2) (s : State) : Result := .next (s.shift 0x10 o shiftLeft)
/-- SHR (R152). -/
def execShr (o : A2) (s : State) : Result := .next (s.shift 0x11 o (shiftRight o.ty))
/-- ROTL (R152). -/
def execRotl (o : A2) (s : State) : Result := .next (s.shift 0x12 o rotateLeft)

/-- The bits of a number from bit 0 upward. -/
def bitList (w x : Nat) : List Bool := (List.range w).map fun i => bit x i

def popCount (w x : Nat) : Nat := ((bitList w x).filter id).length
def leadZeros (w x : Nat) : Nat := if x % 2 ^ w = 0 then w else w - 1 - Nat.log2 (x % 2 ^ w)
def bitReverse (w x : Nat) : Nat := (bitList w x).foldl (fun acc b => acc * 2 + (if b then 1 else 0)) 0

/-- POPC (R152). -/
def execPopc (o : A1) (s : State) : Result :=
  .next (s.compute 0x15 o.g o.d false [srcOpnd o.a o.ty.wide] fun _ xs => plain (popCount (widthOf o.ty) (xs.getD 0 0)))
/-- CLZ (R152). -/
def execClz (o : A1) (s : State) : Result :=
  .next (s.compute 0x16 o.g o.d false [srcOpnd o.a o.ty.wide] fun _ xs => plain (leadZeros (widthOf o.ty) (xs.getD 0 0)))
/-- BREV (R152). -/
def execBrev (o : A1) (s : State) : Result :=
  .next (s.compute 0x17 o.g o.d o.ty.wide [srcOpnd o.a o.ty.wide] fun _ xs => plain (bitReverse (widthOf o.ty) (xs.getD 0 0)))

/-! ### Bit fields and bytes (R153, R154) -/

def fieldPos (desc : Nat) : Nat := bits desc 7 0
/-- The length of a field, cut at bit 31. -/
def fieldLen (desc : Nat) : Nat := min (bits desc 15 8) (32 - fieldPos desc)
/-- The descriptor names no bit. -/
def fieldNone (desc : Nat) : Bool := fieldPos desc ≥ 32 || bits desc 15 8 = 0

def fieldExtract (signed : Bool) (a desc : Nat) : Nat :=
  if fieldNone desc then 0
  else
    let f := a / 2 ^ fieldPos desc % 2 ^ fieldLen desc
    if signed then wrap 32 (sgn (fieldLen desc) f) else f

def fieldInsert (a b desc : Nat) : Nat :=
  if fieldNone desc then b
  else
    let p := fieldPos desc
    let l := fieldLen desc
    b - b / 2 ^ p % 2 ^ l * 2 ^ p + a % 2 ^ l * 2 ^ p

/-- BFX (R153). -/
def execBfx (o : A2) (s : State) : Result :=
  .next (s.compute 0x13 o.g o.d false [srcOpnd o.a false, srcOpnd o.b false] fun _ xs =>
    plain (fieldExtract (o.ty = .s32) (xs.getD 0 0) (xs.getD 1 0)))
/-- BFI (R153). -/
def execBfi (o : A3) (s : State) : Result :=
  .next (s.compute 0x14 o.g o.d false [srcOpnd o.a false, srcOpnd o.b false, regOpnd o.c o.cPol false] fun _ xs =>
    plain (fieldInsert (xs.getD 0 0) (xs.getD 1 0) (xs.getD 2 0)))

/-- One byte of PRMT (R154). -/
def permuteByte (x sel i : Nat) : Nat :=
  let y := x / 256 ^ bits sel (3 * i + 2) (3 * i) % 256
  match bits sel (16 + 2 * i + 1) (16 + 2 * i) with
  | 0 => y
  | 1 => 0
  | 2 => if y ≥ 128 then 255 else 0
  | _ => bitReverse 8 y

def permute (a b sel : Nat) : Nat :=
  (List.range 4).foldl (fun acc i => acc + permuteByte (a % 2 ^ 32 + 2 ^ 32 * (b % 2 ^ 32)) sel i * 256 ^ i) 0

/-- PRMT (R154). -/
def execPrmt (o : A3) (s : State) : Result :=
  .next (s.compute 0x19 o.g o.d false [srcOpnd o.a false, srcOpnd o.b false, regOpnd o.c o.cPol false] fun _ xs =>
    plain (permute (xs.getD 0 0) (xs.getD 1 0) (xs.getD 2 0)))

/-! ### Comparisons and predicates (R155 to R157) -/

/-- A condition code on an order (R155). -/
def holds (cc : Nat) (c : Ordering) : Bool :=
  match cc with
  | 0 => c = .eq
  | 1 => c ≠ .eq
  | 2 => c = .lt
  | 3 => c ≠ .gt
  | 4 => c = .gt
  | _ => c ≠ .lt

/-- ICMP (R155). -/
def execIcmp (o : ACmp) (s : State) : Result :=
  let w := o.ty.wide
  .next (s.computePred 0x1A o.g o.p [srcOpnd o.a w, srcOpnd o.b w] fun xs =>
    (holds o.cc (compare (intOf o.ty (xs.getD 0 0)) (intOf o.ty (xs.getD 1 0))), Num.Flags.none))

/-- PLOP (R156). -/
def execPlop (o : APlop) (s : State) : Result :=
  .next (s.vec 0x1B o.g [] fun lanes s0 =>
    lanes.foldl (fun s l => s.modFibre (fibreKey s0.actor l) fun f =>
      f.setPred o.d (bit o.tbl (2 * (if f.pred o.a then 1 else 0) + (if f.pred o.b then 1 else 0)))) s0)

/-- SEL: the predicate is read in each lane (R157). -/
def execSel (o : ASel) (s : State) : Result :=
  let w := o.ty.wide
  .next (s.compute 0x18 o.g o.d w [srcOpnd o.a w, srcOpnd o.b w] fun l xs =>
    plain (if ((s.fibres.look (fibreKey s.actor l)).map fun f => f.pred o.p).getD false then xs.getD 0 0 else xs.getD 1 0))

end Sys2Proof.Machine
end

