-- ==== Sys2Proof/Machine/Float.lean ====
section
/-! DEFINITION. Floating-point arithmetic and conversion (R158 to R164). -/

namespace Sys2Proof.Machine

open Sys2Proof.Num (Fmt Val Rm Flags Mx decode bits bit)

/-! ### Arithmetic (R158 to R160) -/

/-- A floating-point operation on sources of one type, element by element. -/
def State.fp (s : State) (op : Nat) (g : Fin 8) (ty : Ty) (d : Reg) (srcs : List Opnd) (f : Fmt → List Nat → Nat × Flags) : State :=
  s.compute op g d false srcs fun _ xs => onElements ty f xs

/-- The value of source i of an element. -/
def arg (f : Fmt) (xs : List Nat) (i : Nat) : Val := decode f (xs.getD i 0)

/-- FADD (R158). -/
def execFadd (o : A2) (s : State) : Result :=
  .next (s.fp 0x20 o.g o.ty o.d [srcOpnd o.a false, srcOpnd o.b false] fun f xs =>
    Num.addV f (s.rounding s.actor o.rm) (arg f xs 0) (arg f xs 1))
/-- FSUB (R158). -/
def execFsub (o : A2) (s : State) : Result :=
  .next (s.fp 0x21 o.g o.ty o.d [srcOpnd o.a false, srcOpnd o.b false] fun f xs =>
    Num.addV f (s.rounding s.actor o.rm) (arg f xs 0) (Num.negV (arg f xs 1)))
/-- FMUL (R158). -/
def execFmul (o : A2) (s : State) : Result :=
  .next (s.fp 0x22 o.g o.ty o.d [srcOpnd o.a false, srcOpnd o.b false] fun f xs =>
    Num.mulV f (s.rounding s.actor o.rm) (arg f xs 0) (arg f xs 1))
/-- FFMA (R158). -/
def execFfma (o : A3) (s : State) : Result :=
  .next (s.fp 0x23 o.g o.ty o.d [srcOpnd o.a false, srcOpnd o.b false, regOpnd o.c o.cPol false] fun f xs =>
    Num.fmaV f (s.rounding s.actor o.rm) (arg f xs 0) (arg f xs 1) (arg f xs 2))

/-- The smaller or larger operand, bit for bit; a single NaN gives way, two give the canonical NaN (R159). -/
def pick (f : Fmt) (larger : Bool) (x y : Nat) : Nat × Flags :=
  let a := decode f x
  let b := decode f y
  let fl := (Num.sigFlag a).or (Num.sigFlag b)
  if a.isNan && b.isNan then (f.nan, fl)
  else if a.isNan then (y, fl)
  else if b.isNan then (x, fl)
  else if Num.beforeV a b then (if larger then y else x, fl)
  else (if larger then x else y, fl)

/-- FMIN (R159). -/
def execFmin (o : A2) (s : State) : Result :=
  .next (s.fp 0x24 o.g o.ty o.d [srcOpnd o.a false, srcOpnd o.b false] fun f xs => pick f false (xs.getD 0 0) (xs.getD 1 0))
/-- FMAX (R159). -/
def execFmax (o : A2) (s : State) : Result :=
  .next (s.fp 0x25 o.g o.ty o.d [srcOpnd o.a false, srcOpnd o.b false] fun f xs => pick f true (xs.getD 0 0) (xs.getD 1 0))

/-- The sign cleared or inverted; a NaN gives the canonical NaN (R159). -/
def signOp (f : Fmt) (clear : Bool) (x : Nat) : Nat × Flags :=
  let top := 2 ^ (f.ebits + f.mbits)
  let v := decode f x
  if v.isNan then (f.nan, Num.sigFlag v)
  else if clear || v.neg then (x % top, Flags.none)
  else (x % top + top, Flags.none)

/-- FABS (R159). -/
def execFabs (o : A1) (s : State) : Result :=
  .next (s.fp 0x26 o.g o.ty o.d [srcOpnd o.a false] fun f xs => signOp f true (xs.getD 0 0))
/-- FNEG (R159). -/
def execFneg (o : A1) (s : State) : Result :=
  .next (s.fp 0x27 o.g o.ty o.d [srcOpnd o.a false] fun f xs => signOp f false (xs.getD 0 0))

/-- FRCP (R160). -/
def execFrcp (o : A1) (s : State) : Result :=
  .next (s.fp 0x28 o.g o.ty o.d [srcOpnd o.a false] fun f xs => Num.rcpV f (s.rounding s.actor o.rm) (arg f xs 0))
/-- FRSQ (R160). -/
def execFrsq (o : A1) (s : State) : Result :=
  .next (s.fp 0x29 o.g o.ty o.d [srcOpnd o.a false] fun f xs => Num.rsqV f (s.rounding s.actor o.rm) (arg f xs 0))
/-- FSQRT (R160). -/
def execFsqrt (o : A1) (s : State) : Result :=
  .next (s.fp 0x2A o.g o.ty o.d [srcOpnd o.a false] fun f xs => Num.sqrtV f (s.rounding s.actor o.rm) (arg f xs 0))
/-- FEXP2 (R160). -/
def execFexp2 (o : A1) (s : State) : Result :=
  .next (s.fp 0x2B o.g o.ty o.d [srcOpnd o.a false] fun f xs => Num.exp2V f (s.rounding s.actor o.rm) (arg f xs 0))
/-- FLOG2 (R160). -/
def execFlog2 (o : A1) (s : State) : Result :=
  .next (s.fp 0x2C o.g o.ty o.d [srcOpnd o.a false] fun f xs => Num.log2V f (s.rounding s.actor o.rm) (arg f xs 0))
/-- FTANH (R160). -/
def execFtanh (o : A1) (s : State) : Result :=
  .next (s.fp 0x2D o.g o.ty o.d [srcOpnd o.a false] fun f xs => Num.tanhV f (s.rounding s.actor o.rm) (arg f xs 0))

/-! ### Comparison (R161) -/

/-- A condition code on two FP32 values, with the invalid flag. -/
def fpHolds (cc : Nat) (a b : Val) : Bool × Flags :=
  let un := a.isNan || b.isNan
  let fl := ((Num.sigFlag a).or (Num.sigFlag b)).or (if un && 2 ≤ cc && cc ≤ 5 then Flags.inv else Flags.none)
  if cc = 6 then (un, fl)
  else if cc = 7 then (!un, fl)
  else if un then (cc = 1, fl)
  else (holds cc (Num.cmpV a b), fl)

/-- FCMP (R161). -/
def execFcmp (o : ACmp) (s : State) : Result :=
  .next (s.computePred 0x2E o.g o.p [srcOpnd o.a false, srcOpnd o.b false] fun xs =>
    fpHolds o.cc (arg Num.f32 xs 0) (arg Num.f32 xs 1))

/-! ### Conversion (R162) -/

/-- CVT of one value: rounding between formats (R60), saturation with integers (R61). -/
def convert (d src : Ty) (rm : Rm) (x : Nat) : Nat × Flags :=
  if src.isFloat then
    let f := fmtOf src
    let v := decode f (x % 2 ^ f.width)
    if d.isFloat then Num.toFmt (fmtOf d) rm v
    else
      let r := Num.toInt (signedTy d) (widthOf d) rm v
      (extend d (r.1 : Int), r.2)
  else
    let v := intOf src x
    if d.isFloat then Num.toFmt (fmtOf d) rm (Num.ofInt v)
    else plain (extend d (Num.satInt (signedTy d) (widthOf d) v : Int))

/-- CVT (R162). -/
def execCvt (o : ACvt) (s : State) : Result :=
  .next (s.compute 0x2F o.g o.d o.ty.wide [srcOpnd o.a o.sty.wide] fun _ xs =>
    convert o.ty o.sty (s.rounding s.actor o.rm) (xs.getD 0 0))

/-! ### Long-latency producers of the vector class (R42) -/

/-- Records a vector producer whose data stand ready for LOAD_FILL; with `due`, its flags are still to come (R39). -/
def State.recordValue (s : State) (sel : Nat) (accs : List Acc) (flags : Nat) (due vecResult : Bool) : State :=
  let (id, s) := s.fresh
  let s := { s with loads := s.loads.put id ⟨sel, .value, accs, 0, false, 0, flags, vecResult, 0⟩ }
  if due then s.modWarp sel fun w => { w with flagsDue := w.flagsDue ++ [id] } else s

/-- Issues a vector producer: sources are sampled, the destinations go empty, and the data stands ready for LOAD_FILL. A k destination
takes the value of the lowest lane once. A special register, which is always full (R37), takes it at once (log 16). -/
def State.produce (s : State) (sel : Nat) (r : Reg) (wide : Bool) (rs : List (Nat × Nat × Option Nat)) (flags : Nat) (due : Bool) : State :=
  let taken := if r.isV then rs else rs.take 1
  let accs := taken.map fun p => (⟨p.1, s.dstOf sel p.1 r wide, 0, 0, 0, .bound p.2.1 none p.2.2⟩ : Acc)
  if accs.isEmpty then s
  else if r.isVK then (taken.foldl (fun s p => s.markEmpty sel p.1 r wide) s).recordValue sel accs flags due true
  else
    let s := s.writeLanes sel r wide rs
    if due then s.recordValue sel accs flags true false else s

/-- The MX format of a CVTB type code (R163). -/
def mxOf : Ty → Mx
  | .e4m3 => .e4m3
  | .e5m2 => .e5m2
  | .e2m1 => .e2m1
  | _ => .int8

/-- CVTB, decode form: each lane's element under its scale (R164). -/
def execCvtbDecode (o : ACvtb) (s : State) : State :=
  let srcs := [srcOpnd o.a false, srcOpnd o.b false]
  s.vec 0x30 o.g (srcs ++ [dstOpnd o.d false]) fun lanes s0 =>
    let rs := lanes.map fun l =>
      let xs := s0.vals s.actor l srcs
      (l, Num.mxDecode Num.f32 (mxOf o.sty) (xs.getD 0 0 % 2 ^ widthOf o.sty) (xs.getD 1 0))
    s0.produce s.actor o.d false (rs.map fun r => (r.1, r.2.1, s0.floorOf s.actor r.1 srcs)) (flagsOf (rs.map fun r => r.2.2)) true

/-- CVTB, encode form: the true lanes of the batch are one block (R163). -/
def execCvtbEncode (o : ACvtb) (s : State) : State :=
  let srcs := [srcOpnd o.a false]
  s.vec 0x30 o.g (srcs ++ [dstOpnd o.d false]) fun lanes s0 =>
    let blk := lanes.map fun l => decode Num.f32 ((s0.vals s.actor l srcs).getD 0 0)
    let e := Num.mxEncode (mxOf o.ty) blk
    s0.produce s.actor o.d false ((lanes.zip (e.2.1.map fun q => e.1 * 256 + q)).map fun r => (r.1, r.2, none)) e.2.2.mask true

/-- CVTB (R163, R164). -/
def execCvtb (o : ACvtb) (s : State) : Result :=
  .next (if o.ty = .f32 then execCvtbDecode o s else execCvtbEncode o s)

end Sys2Proof.Machine
end

