-- ==== Sys2Proof/Machine/Move.lean ====
section
/-! DEFINITION. Moves, cross-lane instructions and random numbers (R165 to R173). -/

namespace Sys2Proof.Machine

open Sys2Proof.Num (bits bit wrap sgn)

/-! ### Moves (R165 to R168) -/

/-- MOV (R165). -/
def execMov (o : A1) (s : State) : Result :=
  let w := o.ty.wide
  .next (s.compute 0x31 o.g o.d w [srcOpnd o.a w] fun _ xs => plain (xs.getD 0 0))

/-- The value of a MOVI immediate (R166). -/
def moviValue (t : Ty) (imm : Nat) : Nat :=
  match t with
  | .n32 | .n64 => imm
  | .b64 | .s64 => wrap 64 (sgn 26 imm)
  | _ => wrap 32 (sgn 26 imm)

/-- MOVI (R166). -/
def execMovi (o : IMovi) (s : State) : Result :=
  .next (s.compute 0x32 o.g o.d o.ty.wide [] fun _ _ => plain (moviValue o.ty o.imm.toNat))

/-- One half-word replaced (R167). -/
def replaceHalf (x h v : Nat) : Nat := x - x / 2 ^ (16 * h) % 65536 * 2 ^ (16 * h) + v * 2 ^ (16 * h)

/-- MOVK: d is read with policy 0 and written (R167). -/
def execMovk (o : IMovk) (s : State) : Result :=
  let w := o.ty.wide
  .next (s.compute 0x33 o.g o.d w [regOpnd o.d false w] fun _ xs => plain (replaceHalf (xs.getD 0 0) o.h o.imm.toNat))

/-- MOVS (R168): form 0 reads the predicate word with p7, form 1 writes p0 to p6. -/
def execMovs (o : AMovs) (s : State) : Result :=
  if o.toPreds then
    .next (s.vec 0x34 o.g [srcOpnd o.a false] fun lanes s0 =>
      let rs := lanes.map fun l => (l, (s0.vals s0.actor l [srcOpnd o.a false]).getD 0 0)
      rs.foldl (fun s r => s.modFibre (fibreKey s0.actor r.1) fun f => { f with preds := BitVec.ofNat 7 r.2 }) s0)
  else
    .next (s.compute 0x34 o.g o.d false [] fun l _ =>
      plain (((s.fibres.look (fibreKey s.actor l)).map fun f => f.preds.toNat).getD 0 + 128))

/-! ### Cross-lane (R169, R170) -/

/-- The source lane that a selector names for a lane (R169). -/
def shflLane (l sel : Nat) : Nat :=
  let z := 32 / 2 ^ bits sel 7 6
  if bit sel 5 then l else l - l % z + bits sel 4 0 % z

/-- The operand that a lane of SHFL takes: a of the source lane, with the reader's policy; an empty slot gives no operand. -/
def State.shflOpnd (s : State) (o : A2) (l : Nat) : List Opnd :=
  let src := shflLane l ((s.vals s.actor l [srcOpnd o.b false]).getD 0 0)
  if (s.fibres.look (fibreKey s.actor src)).isSome then [⟨o.a.reg, 2, src, o.a.pol, o.ty.wide, false⟩] else []

/-- SHFL (R169): selectors first, then the source of each lane. -/
def execShfl (o : A2) (s : State) : Result :=
  let sel := s.actor
  match s.early sel 0x35 with
  | some t => .next (s.takeTrap sel t)
  | none =>
    let lanes := s.guarded sel (s.batchLanes sel) o.g
    let s := s.noteReads sel lanes [srcOpnd o.b false]
    match s.regGate sel lanes [srcOpnd o.b false, dstOpnd o.d o.ty.wide] with
    | some st => .next (s.halt sel st)
    | none =>
      match s.regGateBy sel (lanes.map fun l => (l, s.shflOpnd o l)) with
      | some st => .next (s.halt sel st)
      | none =>
        let rs := lanes.map fun l => (l, (s.vals sel l (s.shflOpnd o l)).getD 0 0, none)
        .next ((s.produce sel o.d o.ty.wide rs 0 false).advance sel (s.batchLanes sel))

/-- The combination of a predicate over lanes (R170). -/
def voteValue (mode : Nat) (vs : List (Nat × Bool)) : Nat :=
  let yes := vs.filter fun p => p.2
  match mode with
  | 0 => yes.foldl (fun x p => x + 2 ^ p.1) 0
  | 1 => if yes.isEmpty then 0 else 1
  | 2 => if yes.length = vs.length then 1 else 0
  | 3 => yes.length
  | 4 => match yes with
    | p :: _ => p.1
    | [] => 32
  | _ => if yes.isEmpty || yes.length = vs.length then 1 else 0

/-- VOTE (R170). -/
def execVote (o : AVote) (s : State) : Result :=
  .next (s.vec 0x36 o.g [dstOpnd o.d false] fun lanes s0 =>
    let vs := lanes.map fun l => (l, ((s0.fibres.look (fibreKey s0.actor l)).map fun f => f.pred o.p).getD false)
    let x := voteValue o.mode vs
    s0.produce s0.actor o.d false (lanes.map fun l => (l, x, none)) 0 false)

/-! ### Random numbers (R172, R173) -/

/-- The words that RNGX delivers: one, or two in a pair. -/
def rngxValue (wide : Bool) (a b key : Nat) : Nat :=
  let r := Num.philox a b key
  if wide then r.1 + 2 ^ 32 * r.2 else r.1

/-- The warp is bound to no sequence. -/
def State.unbound (s : State) (sel : Nat) : Bool := ((s.warps.look sel).bind Warp.bound).isNone

/-- RNGX (R172): keyed by the bound sequence, or by the pair c. -/
def execRngx (o : A3) (s : State) : Result :=
  let sel := s.actor
  match s.early sel 0x37 with
  | some t => .next (s.takeTrap sel t)
  | none =>
    let bySeq := o.ty = .n32 || o.ty = .n64
    let lanes := s.guarded sel (s.batchLanes sel) o.g
    let srcs := [srcOpnd o.a false, srcOpnd o.b false] ++ (if bySeq then [] else [regOpnd o.c o.cPol true])
    let s := s.noteReads sel lanes srcs
    match s.regGate sel lanes (srcs ++ [dstOpnd o.d o.ty.wide]) with
    | some st => .next (s.halt sel st)
    | none =>
      if bySeq && s.unbound sel && !lanes.isEmpty then .next (s.takeTrap sel ⟨0x16, lanes.headD 0, 0, 0xFFFFFFFF, 0⟩)
      else
        let q := (((s.warps.look sel).bind Warp.bound).getD 0)
        let rs := lanes.map fun l =>
          let xs := s.vals sel l srcs
          (l, rngxValue o.ty.wide (xs.getD 0 0) (xs.getD 1 0) (if bySeq then s.seqKey q else xs.getD 2 0), s.floorOf sel l srcs)
        .next ((s.produce sel o.d o.ty.wide rs 0 false).advance sel (s.batchLanes sel))

end Sys2Proof.Machine
end

