-- ==== Sys2Proof/Machine/Dispatch.lean ====
section
/-! DEFINITION. The dispatcher: one arm per operation. -/

namespace Sys2Proof.Machine

/-- The meaning of one operation: an instruction of the acting warp, or an event of the part. -/
def exec (i : Instr) (s : State) : Host.Outcome State Fault Refusal :=
  match i with
  | .iadd o => Sys2Proof.Machine.execIadd o s
  | .iaddc o => Sys2Proof.Machine.execIaddc o s
  | .isub o => Sys2Proof.Machine.execIsub o s
  | .isubb o => Sys2Proof.Machine.execIsubb o s
  | .imul o => Sys2Proof.Machine.execImul o s
  | .imulh o => Sys2Proof.Machine.execImulh o s
  | .imad o => Sys2Proof.Machine.execImad o s
  | .imin o => Sys2Proof.Machine.execImin o s
  | .imax o => Sys2Proof.Machine.execImax o s
  | .iabs o => Sys2Proof.Machine.execIabs o s
  | .and o => Sys2Proof.Machine.execAnd o s
  | .or o => Sys2Proof.Machine.execOr o s
  | .xor o => Sys2Proof.Machine.execXor o s
  | .not o => Sys2Proof.Machine.execNot o s
  | .shl o => Sys2Proof.Machine.execShl o s
  | .shr o => Sys2Proof.Machine.execShr o s
  | .rotl o => Sys2Proof.Machine.execRotl o s
  | .bfx o => Sys2Proof.Machine.execBfx o s
  | .bfi o => Sys2Proof.Machine.execBfi o s
  | .popc o => Sys2Proof.Machine.execPopc o s
  | .clz o => Sys2Proof.Machine.execClz o s
  | .brev o => Sys2Proof.Machine.execBrev o s
  | .sel o => Sys2Proof.Machine.execSel o s
  | .prmt o => Sys2Proof.Machine.execPrmt o s
  | .icmp o => Sys2Proof.Machine.execIcmp o s
  | .plop o => Sys2Proof.Machine.execPlop o s
  | .fadd o => Sys2Proof.Machine.execFadd o s
  | .fsub o => Sys2Proof.Machine.execFsub o s
  | .fmul o => Sys2Proof.Machine.execFmul o s
  | .ffma o => Sys2Proof.Machine.execFfma o s
  | .fmin o => Sys2Proof.Machine.execFmin o s
  | .fmax o => Sys2Proof.Machine.execFmax o s
  | .fabs o => Sys2Proof.Machine.execFabs o s
  | .fneg o => Sys2Proof.Machine.execFneg o s
  | .frcp o => Sys2Proof.Machine.execFrcp o s
  | .frsq o => Sys2Proof.Machine.execFrsq o s
  | .fsqrt o => Sys2Proof.Machine.execFsqrt o s
  | .fexp2 o => Sys2Proof.Machine.execFexp2 o s
  | .flog2 o => Sys2Proof.Machine.execFlog2 o s
  | .ftanh o => Sys2Proof.Machine.execFtanh o s
  | .fcmp o => Sys2Proof.Machine.execFcmp o s
  | .cvt o => Sys2Proof.Machine.execCvt o s
  | .cvtb o => Sys2Proof.Machine.execCvtb o s
  | .mov o => Sys2Proof.Machine.execMov o s
  | .movi o => Sys2Proof.Machine.execMovi o s
  | .movk o => Sys2Proof.Machine.execMovk o s
  | .movs o => Sys2Proof.Machine.execMovs o s
  | .shfl o => Sys2Proof.Machine.execShfl o s
  | .vote o => Sys2Proof.Machine.execVote o s
  | .rngx o => Sys2Proof.Machine.execRngx o s
  | .launch o => Sys2Proof.Machine.execLaunch o s
  | .pgret o => Sys2Proof.Machine.execPgret o s
  | .ld o => Sys2Proof.Machine.execLd o s
  | .st o => Sys2Proof.Machine.execSt o s
  | .stSpw o => Sys2Proof.Machine.execStSpw o s
  | .ldk o => Sys2Proof.Machine.execLdk o s
  | .lds o => Sys2Proof.Machine.execLds o s
  | .sts o => Sys2Proof.Machine.execSts o s
  | .atom o => Sys2Proof.Machine.execAtom o s
  | .atoms o => Sys2Proof.Machine.execAtoms o s
  | .red o => Sys2Proof.Machine.execRed o s
  | .fence o => Sys2Proof.Machine.execFence o s
  | .pref o => Sys2Proof.Machine.execPref o s
  | .smap o => Sys2Proof.Machine.execSmap o s
  | .sflush o => Sys2Proof.Machine.execSflush o s
  | .pgal o => Sys2Proof.Machine.execPgal o s
  | .pgfr o => Sys2Proof.Machine.execPgfr o s
  | .seqf o => Sys2Proof.Machine.execSeqf o s
  | .mma o => Sys2Proof.Machine.execMma o s
  | .mmt o => Sys2Proof.Machine.execMmt o s
  | .accmv o => Sys2Proof.Machine.execAccmv o s
  | .accz o => Sys2Proof.Machine.execAccz o s
  | .sopen o => Sys2Proof.Machine.execSopen o s
  | .ssub o => Sys2Proof.Machine.execSsub o s
  | .sclose o => Sys2Proof.Machine.execSclose o s
  | .vnld o => Sys2Proof.Machine.execVnld o s
  | .lrdef o => Sys2Proof.Machine.execLrdef o s
  | .cpy o => Sys2Proof.Machine.execCpy o s
  | .cpyw o => Sys2Proof.Machine.execCpyw o s
  | .cpywExp o => Sys2Proof.Machine.execCpywExp o s
  | .cpyz o => Sys2Proof.Machine.execCpyz o s
  | .cpym o => Sys2Proof.Machine.execCpym o s
  | .cpyg o => Sys2Proof.Machine.execCpyg o s
  | .bra o => Sys2Proof.Machine.execBra o s
  | .brx o => Sys2Proof.Machine.execBrx o s
  | .call o => Sys2Proof.Machine.execCall o s
  | .ret o => Sys2Proof.Machine.execRet o s
  | .fork o => Sys2Proof.Machine.execFork o s
  | .quit o => Sys2Proof.Machine.execQuit o s
  | .elect o => Sys2Proof.Machine.execElect o s
  | .barArrive o => Sys2Proof.Machine.execBarArrive o s
  | .barWait o => Sys2Proof.Machine.execBarWait o s
  | .barSync o => Sys2Proof.Machine.execBarSync o s
  | .barTest o => Sys2Proof.Machine.execBarTest o s
  | .barx o => Sys2Proof.Machine.execBarx o s
  | .semp o => Sys2Proof.Machine.execSemp o s
  | .semw o => Sys2Proof.Machine.execSemw o s
  | .yieldW o => Sys2Proof.Machine.execYieldW o s
  | .nop o => Sys2Proof.Machine.execNop o s
  | .xacq o => Sys2Proof.Machine.execXacq o s
  | .xrel o => Sys2Proof.Machine.execXrel o s
  | .assert o => Sys2Proof.Machine.execAssert o s
  | .rgnb o => Sys2Proof.Machine.execRgnb o s
  | .rgnk o => Sys2Proof.Machine.execRgnk o s
  | .rgne o => Sys2Proof.Machine.execRgne o s
  | .spwo o => Sys2Proof.Machine.execSpwo o s
  | .spwc o => Sys2Proof.Machine.execSpwc o s
  | .seqw o => Sys2Proof.Machine.execSeqw o s
  | .seqv o => Sys2Proof.Machine.execSeqv o s
  | .bfqj o => Sys2Proof.Machine.execBfqj o s
  | .sampArm o => Sys2Proof.Machine.execSampArm o s
  | .sampRead o => Sys2Proof.Machine.execSampRead o s
  | .acpt o => Sys2Proof.Machine.execAcpt o s
  | .trap o => Sys2Proof.Machine.execTrap o s
  | .sret o => Sys2Proof.Machine.execSret o s
  | .mfsr o => Sys2Proof.Machine.execMfsr o s
  | .mtsr o => Sys2Proof.Machine.execMtsr o s
  | .tlbi o => Sys2Proof.Machine.execTlbi o s
  | .batchSelect warp => Sys2Proof.Machine.execBatchSelect warp s
  | .clauseStart warp => Sys2Proof.Machine.execClauseStart warp s
  | .loadFill id lane => Sys2Proof.Machine.execLoadFill id lane s
  | .storeAck id => Sys2Proof.Machine.execStoreAck id s
  | .readRenew id lane => Sys2Proof.Machine.execReadRenew id lane s
  | .writeMerge id => Sys2Proof.Machine.execWriteMerge id s
  | .atomicAtHome id => Sys2Proof.Machine.execAtomicAtHome id s
  | .reductionContribution id => Sys2Proof.Machine.execReductionContribution id s
  | .reductionMerge line => Sys2Proof.Machine.execReductionMerge line s
  | .ptsTick cluster => Sys2Proof.Machine.execPtsTick cluster s
  | .l1Evict cluster line => Sys2Proof.Machine.execL1Evict cluster line s
  | .aliasEvict die line => Sys2Proof.Machine.execAliasEvict die line s
  | .commitPublish version => Sys2Proof.Machine.execCommitPublish version s
  | .rollback region => Sys2Proof.Machine.execRollback region s
  | .engineArrival id part => Sys2Proof.Machine.execEngineArrival id part s
  | .engineFaultResume id => Sys2Proof.Machine.execEngineFaultResume id s
  | .engineFaultStop id => Sys2Proof.Machine.execEngineFaultStop id s
  | .streamWindowDeliver die stream => Sys2Proof.Machine.execStreamWindowDeliver die stream s
  | .batchDeadline die job => Sys2Proof.Machine.execBatchDeadline die job s
  | .scatterArrival id row => Sys2Proof.Machine.execScatterArrival id row s
  | .logitLand id => Sys2Proof.Machine.execLogitLand id s
  | .seqwPublish seq => Sys2Proof.Machine.execSeqwPublish seq s
  | .migrationPageCopy seq page => Sys2Proof.Machine.execMigrationPageCopy seq page s
  | .migrationSwitch seq => Sys2Proof.Machine.execMigrationSwitch seq s
  | .cowResolve warp => Sys2Proof.Machine.execCowResolve warp s
  | .pageWalk id => Sys2Proof.Machine.execPageWalk id s
  | .faultEntryWrite vf => Sys2Proof.Machine.execFaultEntryWrite vf s
  | .pagerResponse vf entry => Sys2Proof.Machine.execPagerResponse vf entry s
  | .launchAccept die vf queue => Sys2Proof.Machine.execLaunchAccept die vf queue s
  | .workgroupPlace die vf queue => Sys2Proof.Machine.execWorkgroupPlace die vf queue s
  | .workgroupRetire wg => Sys2Proof.Machine.execWorkgroupRetire wg s
  | .priorityAge die vf queue => Sys2Proof.Machine.execPriorityAge die vf queue s
  | .localityDecay cluster => Sys2Proof.Machine.execLocalityDecay cluster s
  | .throttleExempt warp => Sys2Proof.Machine.execThrottleExempt warp s
  | .timeSliceExpiry cluster => Sys2Proof.Machine.execTimeSliceExpiry cluster s
  | .preempt wg => Sys2Proof.Machine.execPreempt wg s
  | .restore wg cluster => Sys2Proof.Machine.execRestore wg cluster s
  | .checkpointCompare id => Sys2Proof.Machine.execCheckpointCompare id s
  | .workgroupRelaunch wg => Sys2Proof.Machine.execWorkgroupRelaunch wg s
  | .dbgHalt cluster => Sys2Proof.Machine.execDbgHalt cluster s
  | .dbgResume cluster => Sys2Proof.Machine.execDbgResume cluster s
  | .dbgStep cluster => Sys2Proof.Machine.execDbgStep cluster s
  | .dbgReadRegister cluster => Sys2Proof.Machine.execDbgReadRegister cluster s
  | .dbgWriteRegister cluster => Sys2Proof.Machine.execDbgWriteRegister cluster s
  | .dbgResumeWarp cluster => Sys2Proof.Machine.execDbgResumeWarp cluster s
  | .traprecClear => Sys2Proof.Machine.execTraprecClear s
  | .acclogClear => Sys2Proof.Machine.execAcclogClear s
  | .fmtwinEnable => Sys2Proof.Machine.execFmtwinEnable s
  | .fmtwinDisable => Sys2Proof.Machine.execFmtwinDisable s
  | .errinjArm => Sys2Proof.Machine.execErrinjArm s
  | .sysregWrite => Sys2Proof.Machine.execSysregWrite s
  | .managementRead host port space word sel => Sys2Proof.Machine.execManagementRead host port space word sel s
  | .managementWrite host port space word sel wide data => Sys2Proof.Machine.execManagementWrite host port space word sel wide data s
  | .hostMemoryAccess o => Sys2Proof.Machine.execHostMemoryAccess o s
  | .hostLaunchEnqueue host port die vf queue record => Sys2Proof.Machine.execHostLaunchEnqueue host port die vf queue record s
  | .expertClaim id => Sys2Proof.Machine.execExpertClaim id s
  | .grant id => Sys2Proof.Machine.execGrant id s
  | .overflowReply id => Sys2Proof.Machine.execOverflowReply id s
  | .filledAdvance id row => Sys2Proof.Machine.execFilledAdvance id row s
  | .packetDrop port kind => Sys2Proof.Machine.execPacketDrop port kind s
  | .linkDead port => Sys2Proof.Machine.execLinkDead port s
  | .linkStateUpdate port pkg link number => Sys2Proof.Machine.execLinkStateUpdate port pkg link number s
  | .drainRound => Sys2Proof.Machine.execDrainRound s
  | .undelivered id => Sys2Proof.Machine.execUndelivered id s
  | .powerGood => Sys2Proof.Machine.execPowerGood s
  | .bootStage1 die => Sys2Proof.Machine.execBootStage1 die s
  | .bootStage2 die => Sys2Proof.Machine.execBootStage2 die s
  | .bootStage3 die => Sys2Proof.Machine.execBootStage3 die s
  | .bootStage4 die => Sys2Proof.Machine.execBootStage4 die s
  | .bootStage5 die => Sys2Proof.Machine.execBootStage5 die s
  | .bootStage6 => Sys2Proof.Machine.execBootStage6 s
  | .attestSign => Sys2Proof.Machine.execAttestSign s
  | .governorSample die => Sys2Proof.Machine.execGovernorSample die s
  | .thermalStep die lower => Sys2Proof.Machine.execThermalStep die lower s
  | .thermalShutdown die => Sys2Proof.Machine.execThermalShutdown die s
  | .reservedOpcode w => Sys2Proof.Machine.execReservedOpcode w s
  | .storageError unit loc bit double => Sys2Proof.Machine.execStorageError unit loc bit double s
  | .linkBeatError port => Sys2Proof.Machine.execLinkBeatError port s
  | .dieToDieLaneLoss d e => Sys2Proof.Machine.execDieToDieLaneLoss d e s

end Sys2Proof.Machine
end

