-- ==== Sys2Proof/Machine/Elapse.lean ====
section
/-! DEFINITION. What passes between the operations of the opcode table: clock cycles, and what capacity alone takes out of the caches (R38, R108, R237,
R327, R358, R381). -/

namespace Sys2Proof.Machine

/-- n cycles of a cluster's arithmetic clock pass (R38). -/
def State.elapse (s : State) (c n : Nat) : State :=
  if c < 192 then s.modCluster c fun k => { k with cyc := k.cyc + BitVec.ofNat 64 n } else s

/-- n cycles of the fabric clock pass (R358). -/
def State.fabricElapse (s : State) (n : Nat) : State := { s with fabricClock := s.fabricClock + n }

/-- n cycles of the clock of a die's batch-forming queues pass (R237). -/
def State.queueElapse (s : State) (die n : Nat) : State :=
  if die < 4 then s.modDie die fun d => { d with queueClock := d.queueClock + n } else s

/-- The oldest renewal reply of a cluster that has not retired retires: pts rises to its wts (R108). -/
def State.retireReply (s : State) (c : Nat) : State :=
  match (s.cluster c).unretired with
  | [] => s
  | r :: rest => (s.raisePts c r.2).modCluster c fun k => { k with unretired := rest }

/-- Capacity evicts entry n of a TLB (R327). -/
def State.evictTlb (s : State) (unit n : Nat) : State := { s with tlbs := s.tlbs.set [] unit ((s.tlbs.get [] unit).eraseIdx n) }

/-- A base line leaves a die's L2: its errors are found (R345), and its dirty bytes go back to HBM. An alias line leaves by ALIAS_EVICT. -/
def State.evictL2 (s : State) (die line : Nat) : State :=
  if s.ownDie (line * 256) = some die && (s.l2Line line).resident && (s.l2Line line).fmt.isNone && !(s.l2Line line).pending then
    (s.checkMem (line * 256) 256).dropL2 line true
  else s

/-! ### How a program comes to stand before a fetch (log 7) -/

/-- The word that `withFetchWord` places, and the address at which it places it. -/
def bootVa : Nat := 0x10008

def placedHeader (w : Nat) : Nat := 13 * 2 ^ 60 + (opClass (w / 2 ^ 57 % 128)).code * 2 ^ 57 + 0xFFF * 2 ^ 41

/-- The one fibre of the placed warp: it stands at the only instruction of a clause of the instruction's class. -/
def placedFibre (w : Nat) : Fibre :=
  { pc := BitVec.ofNat 64 bootVa, hdr := BitVec.ofNat 64 (bootVa - 8), hword := BitVec.ofNat 64 (placedHeader w), preds := 0, wb := 0,
    deferred := false, passed := 0, wait := .none, regions := [], quitting := false, sigCount := 0, sigPart := 0, opens := 0 }

/-- The placed warp: at system privilege in virtual function 0, its batch in the midst of its clause at issue port 0. -/
def placedWarp : Warp :=
  { wg := 0, num := 0, vf := 0, launch := 0, priv := true, temporal := false, state := .ready, lanes := 1, ext := false, extOwn := false,
    fpc := 0, iter := 0, seq := 0xFFFFFFFF, view := 0, width := 0, rank := 0, tag := 0, batch := some ⟨[0], some 0⟩, hold := none,
    loads := 0, stores := 0, engines := 0, flagsDue := [], yields := false, last := none, lastIssue := 0, lastCycle := 0, exempt := false,
    victims := [], score := 0, parks := [], fatal := [], needs := [], stop := StopAt.none }

/-- Its workgroup, with 16 rails of scratchpad and 16 accumulator rows. -/
def placedWg : Wg :=
  { launch := 0, lin := 0, x := 0, y := 0, z := 0, copy := 0, pair := 0, cluster := 0, left := 0, idx := 0, warps := [0], rail := 0,
    rails := 16, accRow := 0, accRows := 16, slots := 1, reserve := 0, alloc := 2368, stash := [], version := none, outside := false,
    failedOn := [], relaunches := 0, phase := .resident, cause := 0, origin := 0, lane := 0, sigs := [] }

/-- A word stands where the next step fetches: a resident warp of cluster 0 holds an issue port at it, with a cached translation and the
grants that a fetch needs. -/
def State.place (s : State) (w : Nat) : State :=
  let pa := s.package * 2 ^ 40 + bootVa
  { s with
    turn := .issue 0
    warps := s.warps.put 0 placedWarp
    fibres := s.fibres.put 0 (placedFibre w)
    wgs := s.wgs.put 0 placedWg
    groups := ((s.groups.put 0 ⟨0, 0, 1, 2, 1⟩).put 1 ⟨0, 1, 1, 3, 1⟩).put 2 ⟨0, 2, 1, 4, 1⟩
    clusters := s.clusters.set Cluster.reset 0 { s.cluster 0 with port0 := some 0 }
    tlbs := s.tlbs.set [] 0 [⟨0, bootVa / 4096, 1, s.package * 2 ^ 40 + bootVa / 4096 * 4096, true, false, 0, 10⟩]
    acctab := s.acctab.put (sliceTarget 0 pa * 512) (BitVec.allOnes 128)
    vfmem := s.vfmem.put 0 (BitVec.ofNat 128 (1 + s.package * 2 ^ 40 + 65536 + (s.package * 2 ^ 24 + 1) * 2 ^ 80))
    hbm := (bytesAt pa 8 w).foldl (fun (t : Tab Byte) (b : Nat × Byte) => t.set hbmFresh b.1 b.2) s.hbm
    l2Bytes := s.l2Bytes.filter fun p => !(pa ≤ p.1 && p.1 < pa + 8)
    oldWords := s.oldWords.del (pa / 8)
    brkpt := s.brkpt.filter fun p => p.1 / 16 ≠ 0 }

end Sys2Proof.Machine
end

