-- ==== Sys2Proof/Machine/Step.lean ====
section
/-! DEFINITION. The step: the schedule chooses what acts next, and a warp's issue runs the instruction its decoder reads. -/

namespace Sys2Proof.Machine

/-- Continues with the state of a next outcome. -/
def andThen (r : Host.Outcome State Fault Refusal) (f : State → State) : Host.Outcome State Fault Refusal :=
  match r with
  | .next s => .next (f s)
  | .fault e => .fault e
  | .refused e => .refused e

/-- What follows an issue, of which `s` stood before and `t` after: an instruction of a clause, or of a debugger's step. -/
def finish (sel : Nat) (s t : State) : State :=
  match s.stepping with
  | some c => t.stepDone s c sel
  | none => t.afterIssue s sel

/-- A warp issues the next instruction of the clause it runs. -/
def issue (sel : Nat) (s : State) : Host.Outcome State Fault Refusal :=
  match s.front sel s.stepping.isSome with
  | .stop t => .next (finish sel s t)
  | .run i t => andThen (exec i t) (finish sel s)

/-- The package runs: powered, and not stopped by a lost die-to-die link. -/
def State.awake (s : State) : Bool := s.powered && !s.failed

/-- What the schedule has chosen happens (log 1). An instruction is issued by a warp, never of itself; a package that does not run does
nothing until its rails are up. -/
def act (x : Choice) (s : State) : Host.Outcome State Fault Refusal :=
  match x with
  | .issue sel => if s.awake && sel < 6144 then issue sel s else .next s
  | .act i => if i.isEvent && (s.awake || i = .powerGood) then exec i s else .next s
  | .elapse c n => .next (s.elapse c n)
  | .fabric n => .next (s.fabricElapse n)
  | .queueClock d n => .next (s.queueElapse d n)
  | .retire c => .next (s.retireReply c)
  | .tlbDrop u n => .next (s.evictTlb u n)
  | .l2Evict d line => .next (s.evictL2 d line)

/-- One step. -/
def step (s : State) : Host.Outcome State Fault Refusal :=
  match s.turn with
  | .issue sel => issue sel s
  | .choose => act (Config.choice s.tick) { s with tick := s.tick + 1 }

/-- A word stands where the next step fetches its instruction, and that step issues it (log 7). -/
def State.withFetchWord (s : State) (nbits w : Nat) : State := s.place (w % 2 ^ min nbits 64)

end Sys2Proof.Machine
end

