-- ==== Sys2Proof/Safety.lean ====
section
/-! DEFINITION. What counts as a safe run, and the vocabulary in which claims speak of an instruction's effect and of its frame. -/

namespace Sys2Proof.Machine

/-- A step goes on: it answers a next state, not a fault and not a refusal. -/
def Goes (s : State) : Prop := ∃ t, step s = .next t

/-- A run of n steps goes on at each of them. -/
def SafeRun : Nat → State → Prop
  | 0, _ => True
  | n + 1, s => ∃ t, step s = .next t ∧ SafeRun n t

/-- Memory stands in its canonical form: addresses strictly rising, no byte listed that an unlisted address would give. -/
def Memory.wf (m : Tab Byte) : Bool := Tab.canon m hbmFresh

/-- The operation answers a next state, of which the property holds. -/
def Yields (i : Instr) (s : State) (p : State → Prop) : Prop := ∃ t, exec i s = .next t ∧ p t

/-! ### An instruction that passes its checks -/

/-- The lanes of the acting warp's batch whose guard is true. -/
def activeLanes (s : State) (g : Fin 8) : List Nat := s.guarded s.actor (s.batchLanes s.actor) g

/-- The batch that a warp runs is in order: its lanes are distinct lane slots, each with a fibre that waits for nothing (R17). -/
def BatchInOrder (s : State) (sel : Nat) : Prop :=
  (s.batchLanes sel).Nodup ∧ ∀ l ∈ s.batchLanes sel, l < 32 ∧ (s.fibres.look (fibreKey sel l)).map Fibre.wait = some .none

/-- What an instruction of the acting warp needs: a warp that issues it with a batch in order, the class, roles and privilege of its opcode
(R142, steps 2 to 4), and no planted error. -/
structure Admitted (s : State) (op : Nat) : Prop where
  warp : (s.warps.look s.actor).isSome = true
  batch : BatchInOrder s s.actor
  plants : s.plants = []
  admitted : s.early s.actor op = none

/-- The registers listed are inside the window and full in every lane whose guard is true (R142, steps 7 and 8), too. -/
structure Cleared (s : State) (op : Nat) (g : Fin 8) (ops : List Opnd) : Prop extends Admitted s op where
  gate : s.regGate s.actor (activeLanes s g) ops = none

/-- The value that a lane reads of an operand. -/
def reads (s : State) (l : Nat) (o : Opnd) : Nat := (s.peek s.actor l o).val

/-- A register of the acting warp's lane holds a value, full. -/
def Holds (s t : State) (l : Nat) (d : Reg) (wide : Bool) (x : Nat) : Prop := t.peek s.actor l (regOpnd d false wide) = .full x

/-! ### Frames -/

/-- A fibre but for its position and its deferral, which the end of a clause sets. -/
def Fibre.still (f : Fibre) : Fibre := { f with pc := 0, hdr := 0, hword := 0, deferred := false }

/-- A warp but for its batch and the marks of its clause. -/
def Warp.still (w : Warp) : Warp := { w with batch := none, hold := none, last := none, yields := false }

/-- A cluster but for the holders of its issue ports. -/
def Cluster.still (k : Cluster) : Cluster := { k with port0 := none, port1 := none }

/-- Every fibre, warp and cluster is as it was, but for what the two functions, given its key, and the end of a clause erase. -/
def ContextsKept (s t : State) (ff : Nat → Fibre → Fibre) (fw : Nat → Warp → Warp) : Prop :=
  (∀ n, (t.fibres.look n).map (fun f => ff n f.still) = (s.fibres.look n).map fun f => ff n f.still) ∧
  (∀ n, (t.warps.look n).map (fun w => fw n w.still) = (s.warps.look n).map fun w => fw n w.still) ∧
  ∀ c, (t.cluster c).still = (s.cluster c).still

/-- Nothing but registers, fibres, warps and clusters has changed: no byte of memory, of scratchpad, accumulator or veneer, no cache, no
system register, no trap record, no workgroup, no request. -/
def OnlyContexts (s t : State) : Prop :=
  t = { s with vRegs := t.vRegs, kRegs := t.kRegs, fibres := t.fibres, warps := t.warps, clusters := t.clusters }

/-- Every v and k register is as it was but the destination's: in each of the lanes listed its own v register, or the warp's k register. -/
def RegsKept (s t : State) (d : Reg) (wide : Bool) (lanes : List Nat) : Prop :=
  (∀ key, (d.isV = true → ∀ l ∈ lanes, key ∉ (s.cells s.actor l (dstOpnd d wide)).map Prod.fst) → t.vCell key = s.vCell key) ∧
  ∀ key, (d.isK = true → key ∉ (s.cells s.actor 0 (dstOpnd d wide)).map Prod.fst) → t.kCell key = s.kCell key

/-- A fibre or warp of which nothing is erased. -/
def whole {α : Type} (_ : Nat) (x : α) : α := x

/-- What an instruction changes in its own warp: %iter or %fpc as its destination, %fpc by the flags it raises (R37, R39). -/
def lessSpecial (sel : Nat) (d : Reg) (flags : Nat) (n : Nat) (w : Warp) : Warp :=
  if n ≠ sel then w
  else if d = .sp 17 then { w with iter := 0, fpc := if flags = 0 then w.fpc else 0 }
  else if d = .sp 21 ∨ flags ≠ 0 then { w with fpc := 0 }
  else w

/-- The batch has gone on: each of its lanes stands at the next word. -/
def Advanced (s t : State) : Prop :=
  ∀ l ∈ s.batchLanes s.actor, (t.fibres.look (fibreKey s.actor l)).map Fibre.pc = (s.fibres.look (fibreKey s.actor l)).map fun f => f.pc + 8

/-- The destination has received a value per lane: every lane's own v register, or, from the lowest lane, the k register or the special
register (R36, R37, R39). k0 keeps reading 0. -/
def Delivers (s t : State) (d : Reg) (wide : Bool) (lanes : List Nat) (x : Nat → Nat) (flags : Nat) : Prop :=
  match d with
  | .v _ => ∀ l ∈ lanes, Holds s t l d wide (x l % (if wide then 2 ^ 64 else 2 ^ 32))
  | .k n => ∀ l ∈ lanes.head?, Holds s t l d wide
      (if n = 0 then (if wide then x l / 2 ^ 32 % 2 ^ 32 * 2 ^ 32 else 0) else x l % (if wide then 2 ^ 64 else 2 ^ 32))
  | .sp n => ∀ l ∈ lanes.head?, t.special s.actor l n = (if n = 21 then (x l % 2 ^ 32 &&& 0x1F3) ||| flags else x l % 2 ^ 32)

/-- An instruction of R144 that takes effect at once: the values are in the destination, the flags are ORed into %fpc, the batch stands at
the next word, and nothing else has changed. -/
structure Writes (s t : State) (g : Fin 8) (d : Reg) (wide : Bool) (x : Nat → Nat) (flags : Nat) : Prop where
  result : Delivers s t d wide (activeLanes s g) x flags
  flagged : d ≠ .sp 21 → (t.warps.look s.actor).map Warp.fpc = (s.warps.look s.actor).map fun w => w.fpc ||| BitVec.ofNat 32 flags
  moved : Advanced s t
  registers : RegsKept s t d wide (activeLanes s g)
  contexts : ContextsKept s t whole (lessSpecial s.actor d flags)
  rest : OnlyContexts s t

/-- An instruction of R144 that writes predicates: in each lane whose guard is true predicate q becomes x of the lane, q and its old value, p7
stays 1, the flags are ORed into %fpc, the batch stands at the next word, and nothing else has changed. -/
structure WritesPreds (s t : State) (g : Fin 8) (x : Nat → Nat → Bool → Bool) (flags : Nat) : Prop where
  result : ∀ l ∈ activeLanes s g, ∀ q < 7, (t.fibres.look (fibreKey s.actor l)).map (fun f => f.pred q) =
    (s.fibres.look (fibreKey s.actor l)).map fun f => x l q (f.pred q)
  flagged : (t.warps.look s.actor).map Warp.fpc = (s.warps.look s.actor).map fun w => w.fpc ||| BitVec.ofNat 32 flags
  moved : Advanced s t
  contexts : ContextsKept s t (fun n f => if n ∈ (activeLanes s g).map (fibreKey s.actor) then { f with preds := 0 } else f)
    (lessSpecial s.actor (.v 0) flags)
  rest : t = { s with fibres := t.fibres, warps := t.warps, clusters := t.clusters }

/-- The instruction computes: once it is well-formed and passes its checks, it answers the state in which each active lane's result, a
function of the lane and of the values of its sources, stands in the destination. -/
def Computes (i : Instr) (s : State) (op : Nat) (g : Fin 8) (d : Reg) (wide : Bool) (srcs : List Opnd) (x : Nat → List Nat → Nat) : Prop :=
  i.wellFormed = true → Cleared s op g (srcs ++ [dstOpnd d wide]) →
    Yields i s fun t => Writes s t g d wide (fun l => x l (srcs.map (reads s l))) 0

/-- The same with the flags that each lane raises. -/
def ComputesFloat (i : Instr) (s : State) (op : Nat) (g : Fin 8) (d : Reg) (wide : Bool) (srcs : List Opnd) (x : List Nat → Nat × Num.Flags) : Prop :=
  i.wellFormed = true → Cleared s op g (srcs ++ [dstOpnd d wide]) →
    Yields i s fun t => Writes s t g d wide (fun l => (x (srcs.map (reads s l))).1)
      (flagsOf ((activeLanes s g).map fun l => (x (srcs.map (reads s l))).2))

/-- The instruction writes a predicate of each active lane. -/
def ComputesPred (i : Instr) (s : State) (op : Nat) (g : Fin 8) (p : Fin 8) (srcs : List Opnd) (x : List Nat → Bool × Num.Flags) : Prop :=
  i.wellFormed = true → Cleared s op g srcs →
    Yields i s fun t => WritesPreds s t g (fun l q old => if q = p.val then (x (srcs.map (reads s l))).1 else old)
      (flagsOf ((activeLanes s g).map fun l => (x (srcs.map (reads s l))).2))

/-- The predicate of a lane. -/
def predOf (s : State) (l p : Nat) : Bool := ((s.fibres.look (fibreKey s.actor l)).map fun f => f.pred p).getD false

/-- The lanes whose results a destination takes: every active lane's own v register, else the lowest active lane's value (R36). -/
def takers (s : State) (g : Fin 8) (d : Reg) : List Nat := if d.isV then activeLanes s g else (activeLanes s g).take 1

/-- A long-latency producer of the vector class has been issued (R42): the destination is empty, and the record that will fill it holds the
values sampled at issue. A special register, which is always full, has its value at once. With `due`, flags are to come with the fill. -/
structure Produced (s t : State) (g : Fin 8) (d : Reg) (wide : Bool) (x : Nat → Nat) (flags : Nat) (due : Bool) : Prop where
  result : match d with
    | .sp _ => Delivers s t d wide (activeLanes s g) x 0
    | .v _ => ∀ l ∈ activeLanes s g, ∀ key ∈ (s.cells s.actor l (dstOpnd d wide)).map Prod.fst, (t.vCell key).st = .empty
    | .k _ => activeLanes s g ≠ [] → ∀ key ∈ (s.cells s.actor 0 (dstOpnd d wide)).map Prod.fst, key % 64 ≠ 0 → (t.kCell key).st = .empty
  pending : activeLanes s g ≠ [] → d.isVK = true ∨ due = true →
    ∃ ld, t.loads.look s.nextId = some ld ∧ ld.warp = s.actor ∧ ld.kind = .value ∧ ld.flags = flags ∧ ld.accs.map Acc.lane = takers s g d ∧
      ∀ a ∈ ld.accs, a.dst = s.dstOf s.actor a.lane d wide ∧ ∃ f, a.phase = .bound (x a.lane) none f
  flagsDue : activeLanes s g ≠ [] → due = true →
    (t.warps.look s.actor).map Warp.flagsDue = (s.warps.look s.actor).map fun w => w.flagsDue ++ [s.nextId]
  others : ∀ id, id ≠ s.nextId → t.loads.look id = s.loads.look id
  moved : Advanced s t
  registers : RegsKept s t d wide (activeLanes s g)
  contexts : ContextsKept s t whole (fun n w => lessSpecial s.actor d 0 n (if n = s.actor ∧ due = true then { w with flagsDue := [] } else w))
  rest : t = { s with
    vRegs := t.vRegs, kRegs := t.kRegs, fibres := t.fibres, warps := t.warps, clusters := t.clusters, loads := t.loads, nextId := t.nextId }

/-! ### Control -/

/-- The acting warp's lanes listed are in no recovery region, and its workgroup is neither versioned nor a redundant copy. -/
structure Plain (s : State) (lanes : List Nat) : Prop where
  single : s.copyOf s.actor = none
  unversioned : (s.wgOf s.actor).version = none
  depth : ∀ l ∈ lanes, (s.fibres.look (fibreKey s.actor l)).map Fibre.regions = some []

/-- A branch target is inside the address space and holds a valid header (R127, R134). -/
def ValidTarget (s : State) (a : Int) : Prop := 0 ≤ a ∧ a < 2 ^ 48 ∧ s.headerAt s.actor a.toNat = .ok

/-- The target of a branch: the lane's pc and eight times a signed displacement (R134). -/
def relative (s : State) (l : Nat) (field : BitVec 32) : Int := (s.pcOf s.actor l : Int) + 8 * field.toInt

/-- The clause has ended: the warp holds no batch. -/
def ClauseEnded (s t : State) : Prop := (t.warps.look s.actor).map Warp.batch = some none

/-- Some lanes of the batch have gone to targets, the others to the next word, and the clause has ended (R126). -/
structure Jumped (s t : State) (lanes : List Nat) (target : Nat → Int) : Prop where
  gone : ∀ l ∈ lanes, (t.fibres.look (fibreKey s.actor l)).map (fun f => (f.pc, f.hdr)) = some (BitVec.ofInt 64 (target l), BitVec.ofInt 64 (target l))
  stayed : ∀ l ∈ s.batchLanes s.actor, l ∉ lanes →
    (t.fibres.look (fibreKey s.actor l)).map Fibre.pc = (s.fibres.look (fibreKey s.actor l)).map fun f => f.pc + 8
  ended : ClauseEnded s t

/-- Only positions, deferrals, batches and ports have changed. -/
structure ControlOnly (s t : State) : Prop where
  contexts : ContextsKept s t whole whole
  rest : t = { s with fibres := t.fibres, warps := t.warps, clusters := t.clusters }

/-- The wait of a lane. -/
def waitOf (s : State) (l : Nat) : Option Wait := (s.fibres.look (fibreKey s.actor l)).map Fibre.wait

/-- The lanes listed stand where they stood, each with a wait, and the clause has ended (R20). -/
structure Blocked (s t : State) (lanes : List Nat) (w : Wait) : Prop where
  waits : ∀ l ∈ lanes, (t.fibres.look (fibreKey s.actor l)).map (fun f => (f.pc, f.wait)) =
    (s.fibres.look (fibreKey s.actor l)).map fun f => (f.pc, w)
  ended : ClauseEnded s t

/-- An instruction that acts once per batch, in the lowest active lane: the registers listed are inside that lane's window and full. -/
structure ClearedOnce (s : State) (op : Nat) (g : Fin 8) (ops : List Opnd) : Prop extends Admitted s op where
  some : activeLanes s g ≠ []
  gate : s.regGate s.actor ((activeLanes s g).take 1) ops = none

/-- The lowest active lane. -/
def lowestActive (s : State) (g : Fin 8) : Nat := (activeLanes s g).headD 0

/-! ### Traps (R337, R340) -/

/-- A warp has taken a trap: its clause has ended, it stands in state 2 with the trap's record, and the host port has a notice; its fibres
stand where they stood and nothing else has changed. -/
structure TrapTaken (s t : State) (sel : Nat) (x : Trap) : Prop where
  stopped : (t.warps.look sel).map (fun w => (w.state, w.batch)) = some (.stopped, none)
  record : let r := t.trapRec sel
    r.cause = x.cause ∧ r.lane = x.lane ∧ r.detail = x.detail % 256 ∧ r.address = BitVec.ofNat 64 x.address ∧ r.origin = x.origin ∧
    (r.pc, r.header) = s.position sel x.lane ∧ r.word = s.word ∧ r.flags % 2 = 1 ∧ (r.flags / 2 % 2 = 1 ↔ x.cause = 0x13) ∧
    (s.warps.look sel).map Warp.launch = some r.launch ∧ r.cycles = (s.cluster (clusterOf sel)).cyc
  notice : t.out = s.out ++ [⟨s.hostOf (t.trapRec sel).launch, 1, [s.package, clusterOf sel, slotOf sel, x.cause]⟩]
  fibres : ∀ n, (t.fibres.look n).map (fun f => { f with deferred := false }) = (s.fibres.look n).map fun f => { f with deferred := false }
  others : ∀ n, n ≠ sel → t.warps.look n = s.warps.look n ∧ t.trapRec n = s.trapRec n
  rest : t = { s with fibres := t.fibres, warps := t.warps, clusters := t.clusters, traps := t.traps, out := t.out }

/-- The acting warp's workgroup is neither versioned nor a redundant copy: a trap leaves it resumable (R338). -/
def Resumable (s : State) : Prop := ((s.warps.look s.actor).bind fun w => (s.wgs.look w.wg).bind Wg.version) = none

/-- The instruction traps, and has no other effect. -/
def Traps (i : Instr) (s : State) (x : Trap) : Prop := Yields i s fun t => TrapTaken s t s.actor x

/-! ### Memory accesses (R70, R91, R132, R175) -/

/-- The effective address of a lane: the base, the index register as a signed number times its scale, and the signed offset. -/
def address (s : State) (o : M) (isGlobal indexed : Bool) (l : Nat) : Int :=
  (reads s l (mBase o isGlobal) : Int) +
    (if indexed then (BitVec.ofNat 32 (reads s l (mSecond o false))).toInt * 2 ^ o.sh.val else 0) + o.off.toInt

/-- The end of the space that an access goes to: the global one's, or its workgroup's allocation. -/
def spaceEnd (s : State) (isGlobal : Bool) : Nat := if isGlobal then 2 ^ 48 else (s.wgOf s.actor).alloc

/-- No lock of the cluster holds a lane's bytes. -/
def unlocked (s : State) (e : Int) (n : Nat) (isGlobal wr : Bool) : Prop :=
  let first := e.toNat + (if isGlobal then 0 else (s.wgOf s.actor).rail * 148)
  s.lockHit (clusterOf s.actor) isGlobal first (first + n - 1) wr = none

/-- Every lane's n bytes lie in the space, aligned, and no lock holds them. -/
structure Reached (s : State) (lanes : List Nat) (ea : Nat → Int) (n : Nat) (isGlobal wr : Bool) : Prop where
  inside : ∀ l ∈ lanes, 0 ≤ ea l ∧ ea l + n ≤ spaceEnd s isGlobal
  aligned : ∀ l ∈ lanes, ea l % n = 0
  free : ∀ l ∈ lanes, unlocked s (ea l) n isGlobal wr

/-- The virtual function of the acting warp. -/
def ownVf (s : State) : Nat := ((s.warps.look s.actor).map Warp.vf).getD 0

/-- Every lane's page is mapped in the cluster's TLB by a page of a kind, writable where asked, and the home's table grants the access. -/
structure Mapped (s : State) (lanes : List Nat) (ea : Nat → Int) (rd wr : Bool) (kind : Nat → Bool) : Prop where
  noFatal : (s.warps.look s.actor).map Warp.fatal = some []
  leaf : ∀ l ∈ lanes, ∃ e, s.tlbLook (fibreTlb (clusterOf s.actor)) (ownVf s) ((ea l).toNat / 4096) = some e ∧ (wr = true → e.write = true) ∧
    kind e.kind = true ∧ s.memAllows (clusterOf s.actor) (ownVf s) (e.phys (ea l).toNat) rd wr = true

/-- The physical address of a lane's access, and the lease and kind of its page, by the TLB. -/
def physical (s : State) (ea : Nat → Int) (l : Nat) : Nat := s.physOf s.actor (ea l).toNat
def leafFor (s : State) (ea : Nat → Int) (l : Nat) : Tlb := s.leafOf s.actor (ea l).toNat

/-- Nothing holds an access at issue: no acquire of the warp is outstanding and its counters have room (R101, R124). -/
structure Unheld (s : State) : Prop where
  acquired : s.acquiring s.actor = false
  loads : s.loadsFull s.actor = false
  stores : s.storesFull s.actor = false
  engines : s.enginesFull s.actor = false

/-- No outstanding load of the warp covers a byte of the lanes' accesses (R105). -/
def unordered (s : State) (isGlobal : Bool) (lanes : List Nat) (ea : Nat → Int) (n : Nat) : Prop :=
  ∀ p ∈ s.loads, p.2.warp = s.actor → ∀ l ∈ lanes, p.2.overlaps isGlobal (ea l).toNat n = false

/-- A lane of a load, as its record keeps it. -/
def loadLane (o : M) (ea : Nat → Int) (phase : Nat → LPhase) (dst : Nat → Option Dst) (l : Nat) : Acc :=
  ⟨l, dst l, (ea l).toNat, memSize o.ty, o.ty.code, phase l⟩

/-- A load has been issued (R42, R124): its record, which nothing has filled, its destinations empty, the warp's load counter raised, the
batch at the next word, and nothing else changed. The floors of its operands have raised pts (R108). -/
structure LoadIssued (s t : State) (o : M) (lanes : List Nat) (ops : List Opnd) (ld : Load) : Prop where
  record : t.loads.look s.nextId = some ld
  others : ∀ id, id ≠ s.nextId → t.loads.look id = s.loads.look id
  counted : (t.warps.look s.actor).map Warp.loads = (s.warps.look s.actor).map fun w => w.loads + 1
  empty : o.d ≠ .k 0 → ∀ l ∈ lanes, ∀ key ∈ (s.cells s.actor l (dstOpnd o.d o.ty.wide)).map Prod.fst,
    (o.d.isV = true → (t.vCell key).st = .empty) ∧ (o.d.isK = true → key % 64 ≠ 0 → (t.kCell key).st = .empty)
  moved : Advanced s t
  registers : RegsKept s t o.d o.ty.wide lanes
  contexts : ContextsKept (s.raiseFloors s.actor lanes ops) t whole fun n w => if n = s.actor then { w with loads := 0 } else w

/-- The byte that the last of some lanes puts at a place, of stores of n bytes (R70). -/
def lastByte (lanes : List Nat) (place : Nat → Nat) (n : Nat) (x : Nat → Nat) (k : Nat) : Option Byte :=
  (lanes.reverse.find? fun l => decide (place l ≤ k ∧ k < place l + n)).map fun l => BitVec.ofNat 8 (x l / 256 ^ (k - place l))

/-- The requests numbered have been sent, and no others: each has the property, its bytes are those given, and every byte given is in one. -/
structure Sends (s t : State) (ids : List Nat) (p : Flight → Prop) (bytes : Nat → Option Byte) : Prop where
  each : ∀ i ∈ ids, ∃ f, t.flights.look i = some f ∧ p f ∧ ∀ b ∈ f.bytes, bytes b.1 = some b.2
  all : ∀ k b, bytes k = some b → ∃ i ∈ ids, ∃ f, t.flights.look i = some f ∧ (k, b) ∈ f.bytes
  others : ∀ i, i ∉ ids → t.flights.look i = s.flights.look i ∧ t.packets.look i = s.packets.look i

/-- A store of the warp waits for the requests numbered: its record, which is new, and the warp's store counter (R124). -/
structure StoreCounted (s t : State) (ids : List Nat) : Prop where
  record : ∃ id, t.stores.look id = some ⟨s.actor, ids⟩ ∧ ∀ j, j ≠ id → t.stores.look j = s.stores.look j
  counted : (t.warps.look s.actor).map Warp.stores = (s.warps.look s.actor).map fun w => w.stores + 1

/-- A request of the acting warp as it leaves, at a moment (R82, R347). -/
def Own (u : State) (sel : Nat) (f : Flight) : Prop :=
  f.warp = sel ∧ f.cluster = clusterOf sel ∧ f.master = clusterOf sel ∧ f.pts = (u.cluster (clusterOf sel)).pts.toNat ∧ f.merged = false ∧
    (u.warps.look sel).map (fun w => (w.vf, w.launch, w.wg)) = some (f.vf, f.context, f.wg)

/-- No dirty L1 byte of the acting warp's cluster is one of the lanes' bytes. -/
def NotDirty (s : State) (lanes : List Nat) (pa : Nat → Nat) (n : Nat) : Prop :=
  ∀ l ∈ lanes, ∀ i < n, ∀ d ∈ s.l1Dirty (clusterOf s.actor) (lineOf (pa l + i)), d.1 ≠ pa l + i

/-- A release at this scope finds nothing to send and nothing to wait for. -/
def NothingToRelease (s : State) (scope : Nat) : Prop := s.releaseWork s.actor scope = ([], s) ∧ s.contributing s.actor = false

/-- A scratchpad bank as a function, n bytes of it as a number, and n bytes of it written. -/
def bankNat (m : Nat → Byte) (k n : Nat) : Nat := Num.ofBytes ((List.range n).map fun i => m (k + i))
def bankPut (m : Nat → Byte) (k n x : Nat) : Nat → Byte := fun j => if k ≤ j ∧ j < k + n then BitVec.ofNat 8 (x / 256 ^ (j - k)) else m j

/-- The banks after the atomics of some lanes, one after another (R182). -/
def bankAtomics (o : M) (place : Nat → Nat) (v : Nat → Nat × Nat) : (Nat → Byte) → List Nat → Nat → Byte
  | m, [] => m
  | m, l :: ls =>
    let old := bankNat m (place l) (memSize o.ty)
    bankAtomics o place v
      (if o.ord.val = 5 ∧ old ≠ (v l).2 then m else bankPut m (place l) (memSize o.ty) (atomNew o.ord.val o.ty old (v l).1 (v l).2)) ls

/-! ### Lines at their homes (R80 to R84) -/

/-- A line stands in L2 whole, waits for no commit, and is not old enough to be swept. -/
structure Resting (s : State) (line : Nat) : Prop where
  resident : (s.l2Line line).resident = true
  filled : (s.l2Line line).filled = true
  settled : (s.l2Line line).pending = false
  young : ∀ d, s.ownDie (line * 256) = some d → tsLt (s.l2Line line).rts (((s.die d).maxTs + 65536 - 16384) % 65536) = false

/-- No planted error and no migration is under way. -/
abbrev Quiet (s : State) : Prop := s.plants = [] ∧ s.migrations = []

/-- The bytes listed stand at their homes, of two at one place one of them, and every other byte is as it was. -/
def PutHome (s t : State) (bs : List (Nat × Byte)) : Prop :=
  (∀ pa ∈ bs.map Prod.fst, ∃ b, (pa, b) ∈ bs ∧ t.homeByte pa = b) ∧ ∀ pa, pa ∉ bs.map Prod.fst → t.homeByte pa = s.homeByte pa

/-- The time of a write: the later of the time sent and the one after every lease (R82). -/
def writeTime (s : State) (line : Nat) (time : Option Nat) : Nat :=
  let next := ((s.l2Line line).rts + 1) % 65536
  match time with
  | some t => tsMax t next
  | none => next

/-- The line has been written at a time. -/
def WrittenAt (t : State) (line time : Nat) : Prop := (t.l2Line line).wts = time ∧ (t.l2Line line).rts = time

/-- A request is the only one of the record that a lane has. -/
def Only (ld : Load) (a : Acc) : Prop := a ∈ ld.accs ∧ ∀ b ∈ ld.accs, b.lane = a.lane → b = a

/-! ### Engine operations (R30, R90, R124, R223) -/

/-- One lane is elected, the registers it names are inside its window and full (R30, R142), and nothing holds back an operation with these locks:
no acquire of the warp, no full counter or engine, no lack of lock entries (R90, R223), no governor (R378). -/
structure Elected (s : State) (op : Nat) (g : Fin 8) (l : Nat) (ops : List Opnd) (locks : List (Nat × Lock)) : Prop extends Cleared s op g ops where
  one : activeLanes s g = [l]
  acquired : s.acquiring s.actor = false
  counter : s.enginesFull s.actor = false
  engine : s.engineBusy (clusterOf s.actor) op = false
  entries : ∀ k, (locks.filter fun p => decide (p.1 = k)).length ≤ s.locksFree k
  governed : op = 0x50 ∨ op = 0x51 → (s.die (dieOf (clusterOf s.actor))).governed = false

/-- The parameter block of n bytes stands in the workgroup's allocation (R11). -/
abbrev HasBlock (s : State) (l : Nat) (o : X) (n : Nat) : Prop :=
  s.blockAt s.actor l o % 4 = 0 ∧ s.blockAt s.actor l o + n ≤ (s.wgOf s.actor).alloc

/-- A scratchpad range lies in the allocation, at a multiple of 4, outside every stash window. -/
abbrev InScratch (g : Wg) (r : Nat × Nat) : Prop := r.1 + r.2 ≤ g.alloc ∧ r.1 % 4 = 0 ∧ g.stashHits r.1 r.2 = false

/-- The barrier of an operation is configured (R201). -/
abbrev HasBarrier (s : State) (o : X) : Prop := (s.barrier (s.wgNo s.actor) o.bar.val).configured = true

/-- An operation has taken its range locks, each in a free entry of its cluster's table, and no other entry has changed (R90). -/
structure LocksTaken (s t : State) (locks : List (Nat × Lock)) (op : Nat) : Prop where
  taken : ∀ p ∈ locks, ∃ i < 64, t.locks.look (p.1 * 64 + i) = some { p.2 with op := op }
  new : ∀ k x, t.locks.look k = some x → s.locks.look k = some x ∨ ∃ p ∈ locks, k / 64 = p.1 ∧ x = { p.2 with op := op }
  kept : ∀ k x, s.locks.look k = some x → t.locks.look k = some x

/-- An engine operation has been issued (R124, R223): its record, its locks, its place in the warp's engine counter, with `due` the flags that the
warp is to take at its end (R39); the batch has gone on, and fibres, warps and clusters are otherwise as they were. -/
structure EngineIssued (s t : State) (e : EngOp) (locks : List (Nat × Lock)) (due : Bool) : Prop where
  record : t.engines.look s.nextId = some e
  others : ∀ id, id ≠ s.nextId → t.engines.look id = s.engines.look id
  locked : LocksTaken s t locks s.nextId
  counted : (t.warps.look s.actor).map (fun w => (w.engines, w.flagsDue)) =
    (s.warps.look s.actor).map fun w => (w.engines + 1, if due then s.nextId :: w.flagsDue else w.flagsDue)
  moved : Advanced s t
  contexts : ContextsKept s t whole fun n w => if n = s.actor then { w with engines := 0, flagsDue := [] } else w

/-- Nothing but the records of an operation's issue has changed. -/
def OnlyIssue (s t : State) : Prop :=
  t = { s with
    engines := t.engines, locks := t.locks, nextId := t.nextId, fibres := t.fibres, warps := t.warps, clusters := t.clusters }

/-- The table of a shared unit of the die lets the warp's cluster read or write (R300 to R302): 51 semaphores, 52 launch unit, 53 sequence
engine, 54 streams and queues. -/
abbrev UnitAllows (s : State) (unit : Nat) (rd wr : Bool) : Prop :=
  s.tableAllows (dieOf (clusterOf s.actor) * 64 + unit) (clusterOf s.actor) (ownVf s) rd wr = true

/-- One arrival has been made at a barrier of a workgroup, and no other barrier has changed (R201, R204). -/
structure Arrived (s t : State) (wg b : Nat) (faulted : Bool) : Prop where
  here : let x := s.barrier wg b
    t.barrier wg b = if x.arrivals + 1 = x.expected + x.extra then
        { x with phase := !x.phase, arrivals := 0, extra := 0, poisoned := x.faulted || faulted, faulted := false }
      else { x with arrivals := x.arrivals + 1, faulted := x.faulted || faulted }
  others : ∀ k, k ≠ barKey wg b → t.barriers.get Barrier.zero k = s.barriers.get Barrier.zero k

/-- The n bytes from an address stand in lines that L2 holds, and take writes (R374). -/
abbrev Ready (s : State) (pa n : Nat) : Prop := ∀ i < n, (s.l2Line (lineOf (pa + i))).resident = true ∧ s.attestWritable (pa + i) = true

/-- A number of n bytes stands in a workgroup's scratchpad. -/
def InBlock (t : State) (g : Wg) (off n x : Nat) : Prop := t.scrNat g off n = x

/-- Every scratchpad byte but those of some places is as it was. -/
def ScratchKept (s t : State) (places : Nat → Prop) : Prop := ∀ k, ¬places k → t.scratch.get 0 k = s.scratch.get 0 k

/-- An operation of a workgroup that stands has ended (R90, R124, R201): its record and locks are gone, its warp's engine counter is one less, and
its barrier, if it has one, has its arrival. -/
structure OperationEnded (s t : State) (id : Nat) (e : EngOp) (faulted : Bool) : Prop where
  gone : t.engines.look id = none
  others : ∀ j, j ≠ id → t.engines.look j = s.engines.look j
  locks : t.locks = s.locks.filter fun p => decide (p.2.op ≠ id)
  counted : ∀ w, s.warps.look e.warp = some w → w.wg = e.wg →
    (t.warps.look e.warp).map (fun x => (x.engines, x.flagsDue)) = some (w.engines - 1, w.flagsDue.filter fun i => i ≠ id)
  arrived : ∀ b, e.bar = some b → Arrived s t e.wg b faulted
  silent : e.bar = none → t.barriers = s.barriers

/-- The operation may go on: its workgroup stands and is not away, and no earlier operation holds one of its rows (R226). -/
structure MayRun (s : State) (id : Nat) (e : EngOp) (g : Wg) : Prop where
  record : s.engines.look id = some e
  owner : s.wgs.look e.wg = some g
  here : g.phase ≠ .saved
  running : e.phase = .running
  rows : s.rowsBusy id e = false
  plants : s.plants = []

/-- A word of the accumulator that a list of places does not name is as it was. -/
def AccKept (s t : State) (g : Wg) (places : Nat → Nat → Prop) : Prop :=
  ∀ k, (∀ row col, k = accKey g.cluster (g.accRow + row) col → ¬places row col) → t.acc.get 0 k = s.acc.get 0 k

/-- The descriptor of a sequence stands in one line that L2 holds, and nothing disturbs its writes. -/
structure DescriptorReady (s : State) (q : Nat) : Prop where
  aligned : s.seqBase % 256 = 0
  ready : Ready s (s.seqBase + 256 * q) 256
  plants : s.plants = []

/-- A line stands in L2 whole. -/
abbrev WholeLine (s : State) (line : Nat) : Prop := (s.l2Line line).resident = true ∧ (s.l2Line line).filled = true

/-- Memory as writes at the homes of lines that L2 holds leave it. -/
def homesOf (s t : State) : State :=
  { s with
    l2 := t.l2, l2Bytes := t.l2Bytes, memBad := t.memBad, sliceTs := t.sliceTs, dies := t.dies }

/-! ### The debugger and the host (R305, R343, R367) -/

/-- XS_DBG of a cluster holds a running command. -/
abbrev Commanded (s : State) (c cmd : Nat) : Prop := c < 192 ∧ (s.dbg.get 0 c).toNat / 2 ^ 59 % 2 = 1 ∧ (s.dbg.get 0 c).toNat / 2 ^ 60 = cmd

/-- The warp that the command of a cluster names. -/
def named (s : State) (c : Nat) : Nat := c * 32 + (s.dbg.get 0 c).toNat / 2 ^ 51 % 32

/-- The command has ended with a status: busy is 0, and the other fields stand. -/
def Answered (s t : State) (c status : Nat) : Prop :=
  (t.dbg.get 0 c).toNat = (s.dbg.get 0 c).toNat - (s.dbg.get 0 c).toNat / 2 ^ 56 % 16 * 2 ^ 56 + status * 2 ^ 56 ∧
    ∀ d, d ≠ c → t.dbg.get 0 d = s.dbg.get 0 d

/-- The command has ended with status 0 and shows a value and a register state. -/
def Shows (s t : State) (c data st : Nat) : Prop :=
  let x := (s.dbg.get 0 c).toNat
  let y := (t.dbg.get 0 c).toNat
  y % 2 ^ 32 = data % 2 ^ 32 ∧ y / 2 ^ 34 % 4 = st ∧ y / 2 ^ 56 % 16 = 0 ∧ y / 2 ^ 60 = x / 2 ^ 60 ∧ y / 2 ^ 36 % 2 ^ 20 = x / 2 ^ 36 % 2 ^ 20 ∧
    y / 2 ^ 32 % 4 = x / 2 ^ 32 % 4 ∧ ∀ d, d ≠ c → t.dbg.get 0 d = s.dbg.get 0 d

/-- The write at the head of the register queue is done and acknowledged. -/
def Acknowledged (s t : State) (q : RegWrite) (rest : List RegWrite) : Prop :=
  t.regQueue = rest ∧ t.out = s.out ++ [⟨q.host, 17, [s.package, q.word, q.sel]⟩]

/-- The part sends one message to a host, and does nothing else. -/
def Replies (i : Instr) (s : State) (o : Out) : Prop := Yields i s fun t => t = { s with out := s.out ++ [o] }

/-- The lines of some bytes are whole in L2, are no alias lines, and wait for no commit and no merge of partials. -/
abbrev Served (s : State) (bs : List (Nat × Byte)) : Prop :=
  ∀ b ∈ bs, WholeLine s (lineOf b.1) ∧ (s.l2Line (lineOf b.1)).pending = false ∧ s.hasPartials (lineOf b.1) = false ∧ s.windowAt b.1 = none ∧
    s.attestWritable b.1 = true

end Sys2Proof.Machine
end

