-- ==== Sys2Proof/Certificates/Slice0/Obligations.lean ====
section
/-! DEFINITION. The statements for the provers, from the numbered rules of the spec. -/

namespace Sys2Proof.Claims

open Sys2Proof.Machine

/-! ### Integer values as the spec speaks of them (R136, R146) -/

/-- The width of a type's operands in bits. -/
def width : Ty → Nat
  | .s64 | .n64 | .b64 => 64
  | .s16 | .n16 => 16
  | .s8 | .n8 => 8
  | _ => 32

def isSigned (t : Ty) : Bool := [Ty.s32, .s64, .s16, .s8].contains t

/-- The low bits of an operand as a value of the type. -/
def valueOf (t : Ty) (x : Nat) : Int :=
  if isSigned t then (BitVec.ofNat (width t) x).toInt else ((BitVec.ofNat (width t) x).toNat : Int)

/-- An exact result modulo 2^w, sign- or zero-extended to the register. -/
def stored (t : Ty) (x : Int) : Nat :=
  if isSigned t then ((BitVec.ofInt (width t) x).signExtend (max 32 (width t))).toNat else (BitVec.ofInt (width t) x).toNat

/-- The sources of an instruction of two sources of its type, and those of three. -/
def two (o : A2) : List Opnd := [srcOpnd o.a o.ty.wide, srcOpnd o.b o.ty.wide]
def three (o : A3) : List Opnd := [srcOpnd o.a o.ty.wide, srcOpnd o.b o.ty.wide, regOpnd o.c o.cPol o.ty.wide]

end Sys2Proof.Claims

open Sys2Proof Sys2Proof.Machine Sys2Proof.Claims

/-- R150, R151, R146: with w the type's width, the sum, difference, product, high product, product and sum, smaller, larger and absolute value, each
modulo 2^w and extended, and the carry of a sum and the borrow of a difference with bit 0 of c as the carry in, in the destination of every active
lane, and nothing else changed. -/
def Obligations.IntegerArithmeticResults : Prop :=
  (∀ (s : State) (o1 : A1) (o2 : A2) (o3 : A3),
    let bin := fun (f : Int → Int → Int) (_ : Nat) (xs : List Nat) => stored o2.ty (f (valueOf o2.ty (xs.getD 0 0)) (valueOf o2.ty (xs.getD 1 0)))
    Computes (.iadd o2) s 0x01 o2.g o2.d o2.ty.wide (two o2) (bin fun a b => a + b) ∧
    Computes (.isub o2) s 0x03 o2.g o2.d o2.ty.wide (two o2) (bin fun a b => a - b) ∧
    Computes (.imul o2) s 0x05 o2.g o2.d o2.ty.wide (two o2) (bin fun a b => a * b) ∧
    Computes (.imulh o2) s 0x06 o2.g o2.d o2.ty.wide (two o2) (bin fun a b => (a * b) >>> width o2.ty) ∧
    Computes (.imin o2) s 0x08 o2.g o2.d o2.ty.wide (two o2) (bin fun a b => min a b) ∧
    Computes (.imax o2) s 0x09 o2.g o2.d o2.ty.wide (two o2) (bin fun a b => max a b) ∧
    Computes (.iabs o1) s 0x0A o1.g o1.d o1.ty.wide [srcOpnd o1.a o1.ty.wide] (fun _ xs => stored o1.ty (valueOf o1.ty (xs.getD 0 0)).natAbs) ∧
    Computes (.imad o3) s 0x07 o3.g o3.d o3.ty.wide (three o3) (fun _ xs =>
      stored o3.ty (valueOf o3.ty (xs.getD 0 0) * valueOf o3.ty (xs.getD 1 0) + valueOf o3.ty (xs.getD 2 0)))) ∧
  (∀ (s : State) (o : A3),
    Computes (.iaddc o) s 0x02 o.g o.d o.ty.wide (three o) (fun _ xs => (xs.getD 0 0 + xs.getD 1 0 + xs.getD 2 0 % 2) / 2 ^ width o.ty) ∧
    Computes (.isubb o) s 0x04 o.g o.d o.ty.wide (three o) (fun _ xs =>
      if ((xs.getD 0 0 : Nat) : Int) - (xs.getD 1 0 : Nat) - ((xs.getD 2 0 % 2 : Nat) : Int) < 0 then 1 else 0))

/-- R152: the logical operations bit by bit, the shifts and the rotation by the unsigned count of b, the count of ones, the leading zeros and the
reversal. -/
def Obligations.LogicAndShiftResults : Prop :=
  ∀ (s : State) (o1 : A1) (o : A2),
    let x := fun (xs : List Nat) => BitVec.ofNat (width o.ty) (xs.getD 0 0)
    let y := fun (xs : List Nat) => BitVec.ofNat (width o.ty) (xs.getD 1 0)
    let z := fun (xs : List Nat) => BitVec.ofNat (width o1.ty) (xs.getD 0 0)
    let counted := [srcOpnd o.a o.ty.wide, srcOpnd o.b false]
    Computes (.and o) s 0x0C o.g o.d o.ty.wide (two o) (fun _ xs => (x xs &&& y xs).toNat) ∧
    Computes (.or o) s 0x0D o.g o.d o.ty.wide (two o) (fun _ xs => (x xs ||| y xs).toNat) ∧
    Computes (.xor o) s 0x0E o.g o.d o.ty.wide (two o) (fun _ xs => (x xs ^^^ y xs).toNat) ∧
    Computes (.not o1) s 0x0F o1.g o1.d o1.ty.wide [srcOpnd o1.a o1.ty.wide] (fun _ xs => (~~~z xs).toNat) ∧
    Computes (.shl o) s 0x10 o.g o.d o.ty.wide counted (fun _ xs => (x xs <<< xs.getD 1 0).toNat) ∧
    Computes (.shr o) s 0x11 o.g o.d o.ty.wide counted (fun _ xs =>
      if isSigned o.ty then ((x xs).sshiftRight (xs.getD 1 0)).toNat else (x xs >>> xs.getD 1 0).toNat) ∧
    Computes (.rotl o) s 0x12 o.g o.d o.ty.wide counted (fun _ xs => ((x xs).rotateLeft (xs.getD 1 0)).toNat) ∧
    Computes (.popc o1) s 0x15 o1.g o1.d false [srcOpnd o1.a o1.ty.wide] (fun _ xs => ((List.range (width o1.ty)).filter fun i => (z xs).getLsbD i).length) ∧
    Computes (.clz o1) s 0x16 o1.g o1.d false [srcOpnd o1.a o1.ty.wide] (fun _ xs => (z xs).clz.toNat) ∧
    Computes (.brev o1) s 0x17 o1.g o1.d o1.ty.wide [srcOpnd o1.a o1.ty.wide] (fun _ xs => (z xs).reverse.toNat)

/-- R153, R154: the bit fields that a descriptor names, extracted and inserted, none when its position is 32 or more or its length 0; the bytes of a
and b that a selector picks, as they are, cleared, as their sign, or reversed. -/
def Obligations.FieldAndByteResults : Prop :=
  ∀ (s : State) (o2 : A2) (o3 : A3),
    let pos := fun (d : Nat) => d % 256
    let len := fun (d : Nat) => min (d / 256 % 256) (32 - d % 256)
    let none := fun (d : Nat) => decide (d % 256 ≥ 32 ∨ d / 256 % 256 = 0)
    let field := fun (a d : Nat) => (BitVec.ofNat 32 a).extractLsb' (pos d) (len d)
    let ones := fun (d : Nat) => (BitVec.allOnes (len d)).setWidth 32 <<< pos d
    let byte := fun (a b c i : Nat) =>
      let y := (BitVec.ofNat 32 b ++ BitVec.ofNat 32 a).extractLsb' (8 * (c / 8 ^ i % 8)) 8
      match c / 2 ^ 16 / 4 ^ i % 4 with
      | 0 => y
      | 1 => 0
      | 2 => if y.msb then 0xFF else 0
      | _ => y.reverse
    Computes (.bfx o2) s 0x13 o2.g o2.d false [srcOpnd o2.a false, srcOpnd o2.b false] (fun _ xs =>
      let a := xs.getD 0 0
      let d := xs.getD 1 0
      if none d then 0 else if o2.ty = .s32 then ((field a d).signExtend 32).toNat else (field a d).toNat) ∧
    Computes (.bfi o3) s 0x14 o3.g o3.d false (three o3) (fun _ xs =>
      let a := BitVec.ofNat 32 (xs.getD 0 0)
      let b := BitVec.ofNat 32 (xs.getD 1 0)
      let d := xs.getD 2 0
      if none d then b.toNat else ((b &&& ~~~ones d) ||| ((a <<< pos d) &&& ones d)).toNat) ∧
    Computes (.prmt o3) s 0x19 o3.g o3.d false (three o3) (fun _ xs =>
      let at' := byte (xs.getD 0 0) (xs.getD 1 0) (xs.getD 2 0)
      (at' 3 ++ at' 2 ++ at' 1 ++ at' 0).toNat)

/-- R157, R165 to R168: the operand that a lane's predicate selects; a copy; an immediate, sign- or zero-extended; one half-word replaced; and the
predicate word with bit 7 as 1. -/
def Obligations.SelectAndMoveResults : Prop :=
  ∀ (s : State) (o : ASel) (o1 : A1) (oi : IMovi) (ok : IMovk) (om : AMovs),
    Computes (.sel o) s 0x18 o.g o.d o.ty.wide [srcOpnd o.a o.ty.wide, srcOpnd o.b o.ty.wide] (fun l xs =>
      if predOf s l o.p then xs.getD 0 0 else xs.getD 1 0) ∧
    Computes (.mov o1) s 0x31 o1.g o1.d o1.ty.wide [srcOpnd o1.a o1.ty.wide] (fun _ xs => xs.getD 0 0) ∧
    Computes (.movi oi) s 0x32 oi.g oi.d oi.ty.wide [] (fun _ _ =>
      if oi.ty = .n32 ∨ oi.ty = .n64 then oi.imm.toNat else if oi.ty.wide then (oi.imm.signExtend 64).toNat else (oi.imm.signExtend 32).toNat) ∧
    Computes (.movk ok) s 0x33 ok.g ok.d ok.ty.wide [regOpnd ok.d false ok.ty.wide] (fun _ xs =>
      let x := BitVec.ofNat 64 (xs.getD 0 0)
      ((x &&& ~~~((0xFFFF : BitVec 64) <<< (16 * ok.h.val))) ||| (ok.imm.setWidth 64 <<< (16 * ok.h.val))).toNat) ∧
    (om.toPreds = false → Computes (.movs om) s 0x34 om.g om.d false [] (fun l _ =>
      (((s.fibres.look (fibreKey s.actor l)).map Fibre.preds).getD 0).toNat + 128))

/-- R155, R156, R161, R168: the comparisons of integers and of FP32 values, the truth table of two predicates, and the predicates written from a
register; a write of p7 is discarded (R12). -/
def Obligations.PredicateResults : Prop :=
  ∀ (s : State) (o : ACmp) (op : APlop) (om : AMovs),
    let chosen := fun (o : Ordering) => match o with
      | .eq => [0, 3, 5]
      | .lt => [1, 2, 3]
      | .gt => [1, 4, 5]
    ComputesPred (.icmp o) s 0x1A o.g o.p [srcOpnd o.a o.ty.wide, srcOpnd o.b o.ty.wide] (fun xs =>
      ((chosen (compare (valueOf o.ty (xs.getD 0 0)) (valueOf o.ty (xs.getD 1 0)))).contains o.cc.val, Num.Flags.none)) ∧
    ComputesPred (.fcmp o) s 0x2E o.g o.p [srcOpnd o.a false, srcOpnd o.b false] (fun xs =>
      let a := Num.decode Num.f32 (xs.getD 0 0)
      let b := Num.decode Num.f32 (xs.getD 1 0)
      let unordered := a.isNan || b.isNan
      ((if unordered then [1, 6] else 7 :: chosen (Num.cmpV a b)).contains o.cc.val,
        { invalid := a = .nan true || b = .nan true || (unordered && [2, 3, 4, 5].contains o.cc.val) })) ∧
    (Cleared s 0x1B op.g [] → Yields (.plop op) s fun t => WritesPreds s t op.g (fun l q old =>
      if q = op.d.val then (BitVec.ofNat 4 op.tbl).getLsbD (2 * (predOf s l op.a).toNat + (predOf s l op.b).toNat) else old) 0) ∧
    (om.toPreds = true → (Instr.movs om).wellFormed = true → Cleared s 0x34 om.g [srcOpnd om.a false] →
      Yields (.movs om) s fun t => WritesPreds s t om.g (fun l q _ => (BitVec.ofNat 32 (reads s l (srcOpnd om.a false))).getLsbD q) 0)

/-- R158 to R160, R162: the arithmetic of each element, once exactly and once rounded, with the flags of every active lane ORed into %fpc; a 16-bit
type computes its two packed elements apart (R51). The rounding is RNE, or with rm the mode of %fpc (R147). R56: FMIN and FMAX answer an operand's
code or the canonical NaN, that NaN only for two NaNs, and never a value that is beyond the other; FABS clears the sign of a value that is no NaN, and
FNEG inverts it. -/
def Obligations.FloatResults : Prop :=
  (∀ (s : State) (o1 : A1) (o2 : A2) (o3 : A3) (oc : ACvt),
    let mode := fun (rm : Bool) => s.rounding s.actor rm
    let un := fun (f : Num.Fmt → Num.Val → Nat × Num.Flags) (xs : List Nat) => onElements o1.ty (fun k ys => f k (Num.decode k (ys.getD 0 0))) xs
    let bin := fun (f : Num.Fmt → Num.Val → Num.Val → Nat × Num.Flags) (xs : List Nat) =>
      onElements o2.ty (fun k ys => f k (Num.decode k (ys.getD 0 0)) (Num.decode k (ys.getD 1 0))) xs
    let one := [srcOpnd o1.a false]
    let both := [srcOpnd o2.a false, srcOpnd o2.b false]
    ComputesFloat (.fadd o2) s 0x20 o2.g o2.d false both (bin fun k a b => Num.addV k (mode o2.rm) a b) ∧
    ComputesFloat (.fsub o2) s 0x21 o2.g o2.d false both (bin fun k a b => Num.addV k (mode o2.rm) a (Num.negV b)) ∧
    ComputesFloat (.fmul o2) s 0x22 o2.g o2.d false both (bin fun k a b => Num.mulV k (mode o2.rm) a b) ∧
    ComputesFloat (.ffma o3) s 0x23 o3.g o3.d false [srcOpnd o3.a false, srcOpnd o3.b false, regOpnd o3.c o3.cPol false]
      (onElements o3.ty fun k ys => Num.fmaV k (mode o3.rm) (Num.decode k (ys.getD 0 0)) (Num.decode k (ys.getD 1 0)) (Num.decode k (ys.getD 2 0))) ∧
    ComputesFloat (.fmin o2) s 0x24 o2.g o2.d false both (onElements o2.ty fun k ys => pick k false (ys.getD 0 0) (ys.getD 1 0)) ∧
    ComputesFloat (.fmax o2) s 0x25 o2.g o2.d false both (onElements o2.ty fun k ys => pick k true (ys.getD 0 0) (ys.getD 1 0)) ∧
    ComputesFloat (.fabs o1) s 0x26 o1.g o1.d false one (onElements o1.ty fun k ys => signOp k true (ys.getD 0 0)) ∧
    ComputesFloat (.fneg o1) s 0x27 o1.g o1.d false one (onElements o1.ty fun k ys => signOp k false (ys.getD 0 0)) ∧
    ComputesFloat (.frcp o1) s 0x28 o1.g o1.d false one (un fun k a => Num.rcpV k (mode o1.rm) a) ∧
    ComputesFloat (.frsq o1) s 0x29 o1.g o1.d false one (un fun k a => Num.rsqV k (mode o1.rm) a) ∧
    ComputesFloat (.fsqrt o1) s 0x2A o1.g o1.d false one (un fun k a => Num.sqrtV k (mode o1.rm) a) ∧
    ComputesFloat (.fexp2 o1) s 0x2B o1.g o1.d false one (un fun k a => Num.exp2V k (mode o1.rm) a) ∧
    ComputesFloat (.flog2 o1) s 0x2C o1.g o1.d false one (un fun k a => Num.log2V k (mode o1.rm) a) ∧
    ComputesFloat (.ftanh o1) s 0x2D o1.g o1.d false one (un fun k a => Num.tanhV k (mode o1.rm) a) ∧
    ComputesFloat (.cvt oc) s 0x2F oc.g oc.d oc.ty.wide [srcOpnd oc.a oc.sty.wide] (fun xs => convert oc.ty oc.sty (mode oc.rm) (xs.getD 0 0))) ∧
  (∀ (f : Num.Fmt), f ∈ [Num.f32, Num.f16, Num.bf16] → ∀ x < 2 ^ f.width, ∀ y < 2 ^ f.width,
    let a := Num.decode f x
    let b := Num.decode f y
    let lo := (pick f false x y).1
    let hi := (pick f true x y).1
    (a.isNan = true → b.isNan = true → lo = f.nan ∧ hi = f.nan) ∧
    (a.isNan = true → b.isNan = false → lo = y ∧ hi = y) ∧
    (a.isNan = false → b.isNan = true → lo = x ∧ hi = x) ∧
    (a.isNan = false → b.isNan = false → ((lo = x ∧ hi = y) ∨ (lo = y ∧ hi = x)) ∧ Num.cmpV (Num.decode f lo) (Num.decode f hi) ≠ .gt) ∧
    (a.isNan = false → (signOp f true x).1 = x % 2 ^ (f.width - 1) ∧ (signOp f false x).1 = x ^^^ 2 ^ (f.width - 1)) ∧
    (a.isNan = true → (signOp f true x).1 = f.nan ∧ (signOp f false x).1 = f.nan))

/-- R163, R164, R169, R170, R172, R42: the long-latency vector instructions sample their sources at issue and leave the destination empty with its
value recorded for the fill: the selected lane's register, the combination of a predicate, random words of the generator, and the elements that CVTB
encodes or decodes, whose flags come with the fill. It rests on the model's choices of log 16. -/
def Obligations.LongLatencyVectorIssue : Prop :=
  ∀ (s : State) (os : A2) (ov : AVote) (orr : A3) (oc : ACvtb),
    (let src := fun l => shflLane l (reads s l (srcOpnd os.b false))
     let opnd := fun l => (⟨os.a.reg, 2, src l, os.a.pol, os.ty.wide, false⟩ : Opnd)
     let there := fun l => (s.fibres.look (fibreKey s.actor (src l))).isSome
     (Instr.shfl os).wellFormed = true → Cleared s 0x35 os.g [srcOpnd os.b false, dstOpnd os.d os.ty.wide] →
     s.regGateBy s.actor ((activeLanes s os.g).map fun l => (l, if there l then [opnd l] else [])) = none →
     Yields (.shfl os) s fun t => Produced s t os.g os.d os.ty.wide (fun l => if there l then reads s l (opnd l) else 0) 0 false) ∧
    ((Instr.vote ov).wellFormed = true → Cleared s 0x36 ov.g [dstOpnd ov.d false] →
     Yields (.vote ov) s fun t => Produced s t ov.g ov.d false
       (fun _ => voteValue ov.mode ((activeLanes s ov.g).map fun l => (l, predOf s l ov.p))) 0 false) ∧
    (let keyed := orr.ty = .n32 ∨ orr.ty = .n64
     let srcs := [srcOpnd orr.a false, srcOpnd orr.b false] ++ (if keyed then [] else [regOpnd orr.c orr.cPol true])
     let key := fun l => if keyed then s.seqKey (((s.warps.look s.actor).bind Warp.bound).getD 0) else reads s l (regOpnd orr.c orr.cPol true)
     let words := fun l => Num.philox (reads s l (srcOpnd orr.a false)) (reads s l (srcOpnd orr.b false)) (key l)
     (Instr.rngx orr).wellFormed = true → Cleared s 0x37 orr.g (srcs ++ [dstOpnd orr.d orr.ty.wide]) →
     (keyed → ((s.warps.look s.actor).bind Warp.bound).isSome = true) →
     Yields (.rngx orr) s fun t => Produced s t orr.g orr.d orr.ty.wide
       (fun l => if orr.ty.wide then (words l).1 + 2 ^ 32 * (words l).2 else (words l).1) 0 false) ∧
    ((Instr.cvtb oc).wellFormed = true → oc.ty = .f32 → Cleared s 0x30 oc.g [srcOpnd oc.a false, srcOpnd oc.b false, dstOpnd oc.d false] →
     let e := fun l => Num.mxDecode Num.f32 (mxOf oc.sty) (reads s l (srcOpnd oc.a false) % 2 ^ widthOf oc.sty) (reads s l (srcOpnd oc.b false))
     Yields (.cvtb oc) s fun t => Produced s t oc.g oc.d false (fun l => (e l).1) (flagsOf ((activeLanes s oc.g).map fun l => (e l).2)) true) ∧
    ((Instr.cvtb oc).wellFormed = true → oc.ty ≠ .f32 → Cleared s 0x30 oc.g [srcOpnd oc.a false, dstOpnd oc.d false] →
     let block := Num.mxEncode (mxOf oc.ty) ((activeLanes s oc.g).map fun l => Num.decode Num.f32 (reads s l (srcOpnd oc.a false)))
     Yields (.cvtb oc) s fun t => Produced s t oc.g oc.d false
       (fun l => block.1 * 256 + (block.2.1[(activeLanes s oc.g).idxOf l]?).getD 0) block.2.2.mask true)

/-! ### Control -/

/-- R193, R194, R134, R126: the lanes whose guard is true go to their targets: BRA to its pc and eight times the field, BRX to that and eight times a
register, or to a register pair's address; the others go on, and the clause ends; nothing else changes. -/
def Obligations.BranchesTransfer : Prop :=
  ∀ (s : State) (o : BBra) (ox : BBrx),
    (let lanes := activeLanes s o.g
     let tgt := fun l => relative s l o.target
     Cleared s 0x60 o.g [] → lanes ≠ [] → (∀ l ∈ lanes, ValidTarget s (tgt l)) →
     Yields (.bra o) s fun t => Jumped s t lanes tgt ∧ ControlOnly s t) ∧
    (let lanes := activeLanes s ox.g
     let a := fun l => (reads s l (regOpnd ox.a ox.pol ox.wide) : Int)
     let tgt := fun l => if ox.wide then a l else relative s l ox.target + 8 * a l
     Cleared s 0x61 ox.g [regOpnd ox.a ox.pol ox.wide] → lanes ≠ [] → (∀ l ∈ lanes, ValidTarget s (tgt l)) → (ox.wide = true → ∀ l ∈ lanes, a l % 8 = 0) →
     Yields (.brx ox) s fun t => Jumped s t lanes tgt ∧ ControlOnly s t)

/-- R195, R196: CALL, the last instruction of its clause, moves the window up by s and leaves the link in the pair at the new window's base, the
return address with the shift in bits 54 to 48; RET moves the window down by the link's shift and goes to its address. It rests on the model's choices
of log 27. -/
def Obligations.CallAndReturn : Prop :=
  ∀ (s : State) (o : BCall) (r : GA),
    (let lanes := activeLanes s o.g
     let tgt := fun l => relative s l o.target
     let ret := fun l => (s.pcOf s.actor l + 8) % 2 ^ 48
     (Instr.call o).wellFormed = true → Cleared s 0x62 o.g [dstOpnd (.v (Fin.ofNat 128 o.s.val)) true] → lanes ≠ [] →
     (∀ l ∈ lanes, ValidTarget s (tgt l)) → (∀ l ∈ lanes, (s.fibres.look (fibreKey s.actor l)).map Fibre.atLast = some true) →
     Yields (.call o) s fun t => Jumped s t lanes tgt ∧
       (∀ l ∈ lanes, (t.fibres.look (fibreKey s.actor l)).map Fibre.wb =
         (s.fibres.look (fibreKey s.actor l)).map fun f => f.wb + BitVec.ofNat 7 o.s.val) ∧
       (∀ l ∈ lanes, Holds s t l (.v 0) true (ret l % 2 ^ 32 + 2 ^ 32 * (ret l / 2 ^ 32 + 2 ^ 16 * o.s.val))) ∧
       RegsKept s t (.v (Fin.ofNat 128 o.s.val)) true lanes ∧
       ContextsKept s t (fun n f => if n ∈ lanes.map (fibreKey s.actor) then { f with wb := 0 } else f) whole ∧
       OnlyContexts s t) ∧
    (let lanes := activeLanes s r.g
     let link := fun l => reads s l (regOpnd r.a r.pol true)
     let shift := fun l => link l / 2 ^ 48 % 2 ^ 7
     let tgt := fun l => ((link l / 2 ^ 32 % 2 ^ 16 * 2 ^ 32 + link l % 2 ^ 32 : Nat) : Int)
     Cleared s 0x63 r.g [regOpnd r.a r.pol true] → lanes ≠ [] → (∀ l ∈ lanes, ValidTarget s (tgt l) ∧ tgt l % 8 = 0 ∧ link l < 2 ^ 55) →
     (∀ l ∈ lanes, ∃ f, s.fibres.look (fibreKey s.actor l) = some f ∧ shift l ≤ f.wb.toNat) →
     Yields (.ret r) s fun t => Jumped s t lanes tgt ∧
       (∀ l ∈ lanes, (t.fibres.look (fibreKey s.actor l)).map (fun f => f.wb.toNat) =
         (s.fibres.look (fibreKey s.actor l)).map fun f => f.wb.toNat - shift l) ∧
       ContextsKept s t (fun n f => if n ∈ lanes.map (fibreKey s.actor) then { f with wb := 0 } else f) whole ∧
       t = { s with fibres := t.fibres, warps := t.warps, clusters := t.clusters })

/-- R12, R197 to R199: FORK creates a fibre at the target in an empty lane slot for each active lane, slots ascending, with the parent's a in v0, and
tells the parent in a predicate whether a slot was left; QUIT ends its lanes, and the warp with the last; ELECT marks one active lane. -/
def Obligations.FibresCreatedEndedElected : Prop :=
  ∀ (s : State) (o : BFork) (q : G0) (e : IElect),
    (let lanes := activeLanes s o.g
     let tgt := fun l => relative s l o.target
     let free := (List.range 32).filter fun l => (s.fibres.look (fibreKey s.actor l)).isNone
     (Instr.fork o).wellFormed = true → Cleared s 0x64 o.g [regOpnd o.a o.pol false] → lanes ≠ [] → Plain s lanes → (∀ l ∈ lanes, ValidTarget s (tgt l)) →
     Yields (.fork o) s fun t =>
       (∀ (i l slot : Nat), lanes[i]? = some l → free[i]? = some slot →
         (∃ f, t.fibres.look (fibreKey s.actor slot) = some f ∧ f.pc = BitVec.ofInt 64 (tgt l) ∧ f.hdr = f.pc ∧ f.preds = 0 ∧ f.wb = 0 ∧
           f.regions = [] ∧ f.wait = .none) ∧
         t.vCell (vKey (fibreKey s.actor slot) 0) = ⟨.full, BitVec.ofNat 32 (reads s l (regOpnd o.a o.pol false)), none⟩) ∧
       (∀ (i l : Nat), lanes[i]? = some l → ∀ x < 7, (t.fibres.look (fibreKey s.actor l)).map (fun f => f.pred x) =
         (s.fibres.look (fibreKey s.actor l)).map fun f => if x = o.p.val then decide (i < free.length) else f.pred x) ∧
       Advanced s t ∧ t = { s with vRegs := t.vRegs, fibres := t.fibres, warps := t.warps, clusters := t.clusters }) ∧
    (let lanes := activeLanes s q.g
     Cleared s 0x65 q.g [] → lanes ≠ [] → Plain s lanes →
     Yields (.quit q) s fun t =>
       (∀ l ∈ lanes, t.fibres.look (fibreKey s.actor l) = none) ∧
       (∀ l ∈ s.batchLanes s.actor, l ∉ lanes → (t.fibres.look (fibreKey s.actor l)).map Fibre.pc = (s.fibres.look (fibreKey s.actor l)).map fun f => f.pc + 8) ∧
       ((∀ l < 32, l ∉ lanes → s.fibres.look (fibreKey s.actor l) = none) → (t.warps.look s.actor).map Warp.state = some .ended) ∧
       t.hbm = s.hbm ∧ t.l2Bytes = s.l2Bytes ∧ t.scratch = s.scratch ∧ t.acc = s.acc) ∧
    (let lanes := activeLanes s e.g
     Cleared s 0x66 e.g [] →
     Yields (.elect e) s fun t => WritesPreds s t e.g (fun l x old =>
       if x = e.p.val then decide (some l = if e.hi then lanes.getLast? else lanes.head?) else old) 0)

/-- R201 to R203: an arrival counts, once per active lane, and the one that reaches the expected count and the extra completes the phase: the phase
bit flips and both counts restart at 0; BARX raises the extra count. WAIT and TEST see a completed phase by its flipped bit: WAIT then goes on and
else waits where it stands, TEST writes the predicate and always goes on; SYNC samples the bit, arrives, and waits for that bit to flip. It rests on
the model's choices of log 29. -/
def Obligations.BarrierArrivalsAndWaits : Prop :=
  (∀ (s : State) (o : IBar) (ox : IBarx),
    (let lanes := activeLanes s o.g
     let g := s.wgNo s.actor
     let x := s.barrier g o.b
     Cleared s 0x67 o.g [] → lanes ≠ [] → x.configured = true →
     Yields (.barArrive o) s fun t =>
       (x.arrivals + lanes.length < x.expected + x.extra → t.barrier g o.b = { x with arrivals := x.arrivals + lanes.length } ∧
         ControlOnly { s with barriers := t.barriers } t) ∧
       (x.arrivals + lanes.length = x.expected + x.extra →
         t.barrier g o.b = { x with phase := !x.phase, arrivals := 0, extra := 0, poisoned := x.faulted, faulted := false }) ∧
       (∀ b, b ≠ o.b.val → b < 16 → t.barrier g b = s.barrier g b) ∧ Advanced s t ∧
       t = { s with barriers := t.barriers, fibres := t.fibres, warps := t.warps, clusters := t.clusters }) ∧
    (let l := activeLanes s ox.g
     let g := s.wgNo s.actor
     let x := s.barrier g ox.b
     Admitted s 0x68 → l ≠ [] → x.configured = true → x.extra + ox.c.val ≤ 65535 →
     Yields (.barx ox) s fun t => t.barrier g ox.b = { x with extra := x.extra + ox.c.val } ∧ Advanced s t ∧
       ControlOnly { s with barriers := t.barriers } t)) ∧
  (∀ (s : State) (o : IBar),
    let lanes := activeLanes s o.g
    let g := s.wgNo s.actor
    let x := s.barrier g o.b
    Cleared s 0x67 o.g [] → lanes ≠ [] → x.configured = true →
    (x.phase ≠ o.ph → x.poisoned = false → Yields (.barWait o) s fun t => Advanced s t ∧ ControlOnly s t) ∧
    (x.phase = o.ph → Yields (.barWait o) s fun t => Blocked s t lanes (.bar o.b o.ph) ∧
      ContextsKept s t (fun n f => if n ∈ lanes.map (fibreKey s.actor) then { f with wait := .none } else f) whole ∧
      t = { s with fibres := t.fibres, warps := t.warps, clusters := t.clusters }) ∧
    (x.phase = o.ph ∨ x.poisoned = false → Yields (.barTest o) s fun t => WritesPreds s t o.g (fun _ q old =>
      if q = o.p.val then decide (x.phase ≠ o.ph) else old) 0) ∧
    (x.arrivals + lanes.length < x.expected + x.extra → Yields (.barSync o) s fun t => Blocked s t lanes (.bar o.b x.phase) ∧
      t.barrier g o.b = { x with arrivals := x.arrivals + lanes.length } ∧
      t = { s with barriers := t.barriers, fibres := t.fibres, warps := t.warps, clusters := t.clusters }))

/-- R206 to R208: SEMP adds to the count of a semaphore that its cluster posts to and raises its timestamp; SEMW takes from a count that suffices and
raises the cluster's timestamp, and else waits in the queue. It rests on the model's choices of log 32. -/
def Obligations.SemaphoreCounts : Prop :=
  ∀ (s : State) (o : ISem) (k : Nat) (x : Sem),
    let lanes := activeLanes s o.g
    let l := lowestActive s o.g
    let handle := reads s l (regOpnd o.a o.pol false)
    let c := clusterOf s.actor
    let pts := (s.cluster c).pts.toNat
    x.queue = [] → lanes ≠ [] → Plain s lanes → s.gangOf s.actor o.scope = none →
    (Cleared s 0x69 o.g [regOpnd o.a o.pol false] → s.holdOf s.actor = none → s.semTable s.actor l handle false true = none →
     s.semOf s.actor handle true = some (k, x) → x.count + o.n.val + s.reservedPosts handle ≤ 2 ^ 32 - 1 →
     s.storesFull s.actor = false → s.acquiring s.actor = false → s.contributing s.actor = false → s.releaseWork s.actor o.scope = ([], s) →
     Yields (.semp o) s fun t =>
       t.sems.look k = some { x with count := x.count + o.n.val, ts := if x.count = 0 then pts else tsMax x.ts pts } ∧
       (∀ j, j ≠ k → t.sems.look j = s.sems.look j) ∧ Advanced s t ∧ ControlOnly { s with sems := t.sems } t) ∧
    (Cleared s 0x6A o.g [regOpnd o.a o.pol false] → s.semTable s.actor l handle true false = none → s.semOf s.actor handle false = some (k, x) →
     (s.warps.look s.actor).map Warp.state ≠ some .halted →
     (o.n.val ≤ x.count → Yields (.semw o) s fun t =>
       t.sems.look k = some { x with count := x.count - o.n.val, viewValid := x.viewValid && decide (x.count ≠ o.n.val) } ∧
       (∀ j, j ≠ k → t.sems.look j = s.sems.look j) ∧ (t.cluster c).pts = BitVec.ofNat 16 (tsMax pts x.ts) ∧ Advanced s t ∧
       t = { s with sems := t.sems, fibres := t.fibres, warps := t.warps, clusters := t.clusters }) ∧
     (x.count < o.n.val → Yields (.semw o) s fun t =>
       t.sems.look k = some { x with queue := [⟨s.actor, lanes, o.n.val⟩] } ∧ (∀ j, j ≠ k → t.sems.look j = s.sems.look j) ∧
       Blocked s t lanes (.sem k) ∧ t = { s with sems := t.sems, fibres := t.fibres, warps := t.warps, clusters := t.clusters }))

/-- R209, R41, R210: NOP does nothing but go on; YIELD goes on and places its warp last at its port once its clause ends. XACQ takes a free extended
block for its warp, of the workgroup's reserve first and then of the pool; a warp that has one keeps it; the try form says in a predicate whether it
has one, and the other form waits when none is free. XREL gives the block back, and its registers read 0 (R12). -/
def Obligations.NopYieldAndExtendedBlocks : Prop :=
  (∀ (s : State) (o : G0),
    (Admitted s 0x6C → Yields (.nop o) s fun t => Advanced s t ∧ ControlOnly s t) ∧
    (Admitted s 0x6B → Yields (.yieldW o) s fun t => Advanced s t ∧ ControlOnly s t ∧
      (activeLanes s o.g ≠ [] → ∃ w w', s.warps.look s.actor = some w ∧ t.warps.look s.actor = some w' ∧
        ((w'.batch = none ∧ w'.last = w.batch.bind Batch.port) ∨ (w'.batch ≠ none ∧ w'.yields = true))))) ∧
  (∀ (s : State) (o : IXacq) (r : G0) (w : Warp),
    let c := clusterOf s.actor
    s.warps.look s.actor = some w →
    (let lanes := activeLanes s o.g
     let said := fun (t : State) (v : Bool) => o.tryIt = true → ∀ l ∈ lanes, ∀ x < 7,
       (t.fibres.look (fibreKey s.actor l)).map (fun f => f.pred x) =
         (s.fibres.look (fibreKey s.actor l)).map fun f => if x = o.p.val then v else f.pred x
     Cleared s 0x6D o.g [] → lanes ≠ [] →
     (w.ext = true → Yields (.xacq o) s fun t => said t true ∧ Advanced s t ∧ t = { s with fibres := t.fibres, warps := t.warps, clusters := t.clusters }) ∧
     (w.ext = false → (s.wgOf s.actor).reserve = 0 → (s.cluster c).pool > 0 → (s.cluster c).xqueue = [] → Yields (.xacq o) s fun t =>
       (t.warps.look s.actor).map (fun w => (w.ext, w.extOwn)) = some (true, false) ∧ (t.cluster c).pool = (s.cluster c).pool - 1 ∧
       said t true ∧ Advanced s t ∧ t = { s with fibres := t.fibres, warps := t.warps, clusters := t.clusters }) ∧
     (w.ext = false → (s.wgOf s.actor).reserve > 0 → Yields (.xacq o) s fun t =>
       (t.warps.look s.actor).map (fun w => (w.ext, w.extOwn)) = some (true, true) ∧ (t.cluster c).pool = (s.cluster c).pool ∧
       (t.wgs.look w.wg).map Wg.reserve = some ((s.wgOf s.actor).reserve - 1) ∧ said t true ∧ Advanced s t ∧
       t = { s with fibres := t.fibres, warps := t.warps, clusters := t.clusters, wgs := t.wgs }) ∧
     (w.ext = false → (s.wgOf s.actor).reserve = 0 → (s.cluster c).pool = 0 →
       (o.tryIt = true → Yields (.xacq o) s fun t => said t false ∧ Advanced s t) ∧
       (o.tryIt = false → Yields (.xacq o) s fun t => Blocked s t lanes .xacq ∧ (t.cluster c).xqueue = (s.cluster c).xqueue ++ [(s.actor, lanes)]))) ∧
    (Cleared s 0x6E r.g [] → activeLanes s r.g ≠ [] → w.ext = true → (s.cluster c).xqueue = [] →
     (s.extQuiet s.actor = true → Yields (.xrel r) s fun t =>
       (t.warps.look s.actor).map Warp.ext = some false ∧
       (w.extOwn = false → (t.cluster c).pool = (s.cluster c).pool + 1 ∧ t.wgs = s.wgs) ∧
       (∀ l < 32, ∀ n < 64, t.vCell (vKey (fibreKey s.actor l) (64 + n)) = Cell.zero) ∧
       (∀ key, (∀ l < 32, ∀ n < 64, key ≠ vKey (fibreKey s.actor l) (64 + n)) → t.vCell key = s.vCell key) ∧ Advanced s t ∧
       t = { s with vRegs := t.vRegs, wgs := t.wgs, fibres := t.fibres, warps := t.warps, clusters := t.clusters }) ∧
     (s.extQuiet s.actor = false → Yields (.xrel r) s fun t => Blocked s t (activeLanes s r.g) .xrel)))

/-- R337, R340, R306, R211: TRAP stops its warp with cause TRAP_CALL and its code, ASSERT with its message pointer, and ASSERT also halts the launch's
other warps that run. -/
def Obligations.TrapAndAssertStop : Prop :=
  ∀ (s : State) (o : ITrap) (a : GA), Resumable s →
    (Cleared s 0x7A o.g [] → activeLanes s o.g ≠ [] → Traps (.trap o) s ⟨0x19, lowestActive s o.g, 0, o.code, 0⟩) ∧
    (ClearedOnce s 0x6F a.g [regOpnd a.a a.pol true] → ∀ w, s.warps.look s.actor = some w →
     Yields (.assert a) s fun t =>
       (t.warps.look s.actor).map Warp.state = some .stopped ∧
       (t.trapRec s.actor).cause = 0x13 ∧ (t.trapRec s.actor).address = BitVec.ofNat 64 (reads s (lowestActive s a.g) (regOpnd a.a a.pol true)) ∧
       (∀ n v, n ≠ s.actor → s.warps.look n = some v → v.launch = w.launch → v.state = .ready ∨ v.state = .parked → v.hold = none →
         (t.warps.look n).map Warp.state = some .halted) ∧
       (∀ n, (∀ p ∈ s.warps, p.1 = n → p.2.launch ≠ w.launch) → t.warps.look n = s.warps.look n) ∧
       t.hbm = s.hbm ∧ t.l2Bytes = s.l2Bytes ∧ t.vRegs = s.vRegs ∧ t.kRegs = s.kRegs ∧ t.scratch = s.scratch)

/-- R142, steps 1, 2 and 4, R337: SRET, MFSR, MTSR and TLBI under a header of another class raise CLASS_MISMATCH, and in a warp without system
privilege PRIVILEGED, whatever their operands and guards; a reserved opcode raises ILLEGAL_OPCODE; none has another effect. -/
def Obligations.PrivilegedAndReservedTrap : Prop :=
  (∀ (s : State) (w : Warp) (o1 : ISret) (o2 : ISr) (o3 : M), Resumable s → s.warps.look s.actor = some w →
    (∀ p ∈ [(Instr.sret o1, 0x7B), (Instr.mfsr o2, 0x7C), (Instr.mtsr o2, 0x7D), (Instr.tlbi o3, 0x7E)],
      headerClass (s.headerWord s.actor) ≠ (opClass p.2).code →
        Traps p.1 s ⟨0x04, s.lowest s.actor, headerClass (s.headerWord s.actor), 0, 0⟩) ∧
    (∀ p ∈ [(Instr.sret o1, 0x7B), (Instr.mfsr o2, 0x7C), (Instr.mtsr o2, 0x7D), (Instr.tlbi o3, 0x7E)],
      headerClass (s.headerWord s.actor) = (opClass p.2).code → w.priv = false →
        Traps p.1 s ⟨0x06, s.lowest s.actor, 0, 0, 0⟩)) ∧
  (∀ (s : State) (x : DWord), Resumable s → (s.warps.look s.actor).isSome = true →
    Traps (.reservedOpcode x) s ⟨0x01, s.lowest s.actor, 0, 0, 0⟩)

/-- R305, R288 to R291: MFSR delivers the word or the pair of words of the register that its number and selector name, when the warp's virtual
function reaches it, and changes nothing else. It rests on the model's choices of log 34. -/
def Obligations.SystemRegisterReads : Prop :=
  ∀ (s : State) (o : ISr) (r : XReg) (first : Nat),
    let l := lowestActive s o.g
    let selector := reads s l (regOpnd o.a o.pol false)
    let vf := ((s.warps.look s.actor).map Warp.vf).getD 0
    (Instr.mfsr o).wellFormed = true → ClearedOnce s 0x7C o.g [regOpnd o.a o.pol false, dstOpnd o.d o.wide] → xregOf o.word = some (r, first) →
    (r.selOk selector = true → s.reaches r selector vf false = true →
     Yields (.mfsr o) s fun t =>
       Delivers s t o.d o.wide [l] (fun _ => s.xval r selector / 2 ^ (32 * (o.word.val - first))) 0 ∧
       Advanced s t ∧ RegsKept s t o.d o.wide [l] ∧ ContextsKept s t whole whole ∧ OnlyContexts s t) ∧
    (Resumable s → (r.selOk selector && s.reaches r selector vf false) = false → Traps (.mfsr o) s ⟨0x0A, l, 0, selector, 0⟩)

/-- R305, R293 to R297, R302: MTSR of a register without a behaviour of its own puts its word or words into the register's writable fields, the other
bits stay 0, and no other register changes. -/
def Obligations.SystemRegisterWrites : Prop :=
  ∀ (s : State) (o : ISr) (r : XReg) (first : Nat),
    let l := lowestActive s o.g
    let selector := reads s l (regOpnd o.a o.pol false)
    let data := reads s l (regOpnd o.d false o.wide)
    let vf := ((s.warps.look s.actor).map Warp.vf).getD 0
    let new := mergeWords (s.xval r selector) (32 * (o.word.val - first)) (if o.wide then 8 else 4) data
    (Instr.mtsr o).wellFormed = true → ClearedOnce s 0x7D o.g [regOpnd o.a o.pol false, regOpnd o.d false o.wide] →
    xregOf o.word = some (r, first) → r.selOk selector = true → s.reaches r selector vf true = true →
    (r = .slice ∨ r = .ptroot ∨ (∃ n, r = .brkpt n) → Yields (.mtsr o) s fun t =>
       t.xval r selector = keepBits r.fields new ∧
       (∀ (word : Fin 4096) (q : XReg) (f j : Nat), xregOf word = some (q, f) → q.selOk j = true → (q, j) ≠ (r, selector) → q ≠ .status → t.xval q j = s.xval q j) ∧
       Advanced s t ∧ ContextsKept s t whole whole ∧
       t = { s with fibres := t.fibres, warps := t.warps, clusters := t.clusters, slice := t.slice, ptroot := t.ptroot, brkpt := t.brkpt }) ∧
    (r = .traprec → Yields (.mtsr o) s fun t => t.trapRec selector = TrapRec.zero ∧ (∀ j, j ≠ selector → t.trapRec j = s.trapRec j) ∧ Advanced s t ∧
       t = { s with fibres := t.fibres, warps := t.warps, clusters := t.clusters, traps := t.traps })

/-- R306, R342: SRET mode 0 makes the stopped warp of a handle ready at its trapping instruction with its record no longer valid, and arms the
breakpoint skip exactly after a BREAKPOINT; the issuer's register receives status 0; a handle that names no stopped warp of its virtual function gives
status 1 and changes nothing else. -/
def Obligations.ReturnFromTrap : Prop :=
  ∀ (s : State) (o : ISret) (w v : Warp),
    let l := lowestActive s o.g
    let handle := reads s l (regOpnd o.a o.pol false)
    (Instr.sret o).wellFormed = true → ClearedOnce s 0x7B o.g [regOpnd o.a o.pol false, dstOpnd o.d false] → s.warps.look s.actor = some w →
    (o.mode.val = 0 → handle < 6144 → handle ≠ s.actor → s.warps.look handle = some v → v.state = .stopped → v.vf = w.vf → v.parks = [] →
     Yields (.sret o) s fun t =>
       (t.warps.look handle).map (fun w => (w.state, w.batch, w.hold)) = some (.ready, none, none) ∧
       (∀ n, n / 32 = handle → (t.fibres.look n).map Fibre.pc = (s.fibres.look n).map Fibre.pc) ∧
       (t.trapRec handle).flags % 2 = 0 ∧ ((t.trapRec handle).flags / 16 % 2 = 1 ↔ v.stop.cause = 0x14) ∧
       (t.trapRec handle).cause = (s.trapRec handle).cause ∧ Delivers s t o.d false [l] (fun _ => 0) 0 ∧ Advanced s t ∧
       RegsKept s t o.d false [l] ∧
       t = { s with fibres := t.fibres, warps := t.warps, clusters := t.clusters, traps := t.traps, vRegs := t.vRegs, kRegs := t.kRegs }) ∧
    ((∀ v, s.warps.look handle = some v → v.state ≠ .stopped ∨ v.vf ≠ w.vf) →
     Yields (.sret o) s fun t => Delivers s t o.d false [l] (fun _ => 1) 0 ∧ Advanced s t ∧ RegsKept s t o.d false [l] ∧
       ContextsKept s t whole whole ∧ OnlyContexts s t)

/-- R307, R308: TLBI of its own virtual function drops every cached translation of it, or those that cover an address, and no other, and goes on when
no request of the function is in flight; naming another function, or all of them, raises ACCESS_DENIED. PGRET of a page of its virtual function's
memory retires it and says so in its register: status 0, 1 for a page retired before, 2 for an address without memory, 3 for a full table, 4 for an
address outside that memory; a retired page's table keeps the pages it held. It rests on the model's choices of log 37 and 38. -/
def Obligations.TranslationsAndPagesDropped : Prop :=
  (∀ (s : State) (o : M) (w : Warp),
    let l := lowestActive s o.g
    let b := reads s l (regOpnd o.b o.bPol false)
    let va := eaNat (s.eaOf s.actor l o true false)
    (Instr.tlbi o).wellFormed = true → s.warps.look s.actor = some w → w.hold = none → o.ord.val ≤ 1 →
    ClearedOnce s 0x7E o.g ((if o.ord.val = 1 then [mBase o true] else []) ++ [mSecond o false]) →
    (b = w.vf → (∀ p ∈ s.flights, p.2.vf ≠ w.vf ∨ p.2.merged = true) → Yields (.tlbi o) s fun t =>
      (∀ unit page, t.tlbLook unit w.vf page ≠ none → o.ord.val = 1 ∧ ∀ e, t.tlbLook unit w.vf page = some e → e.maps w.vf (va / 4096) = false) ∧
      (∀ unit vf page, vf ≠ w.vf → t.tlbLook unit vf page = s.tlbLook unit vf page) ∧ Advanced s t ∧ ContextsKept s t whole whole ∧
      t = { s with fibres := t.fibres, warps := t.warps, clusters := t.clusters, tlbs := t.tlbs, walkCache := t.walkCache }) ∧
    (Resumable s → b ≠ w.vf → Traps (.tlbi o) s ⟨0x0A, l, 0, b, 0⟩)) ∧
  (∀ (s : State) (o : IPgret),
    let l := lowestActive s o.g
    let pa := reads s l (regOpnd o.a o.pol true)
    let vf := ((s.warps.look s.actor).map Warp.vf).getD 0
    let table := s.retired.get [] (homeOf pa % 4)
    (Instr.pgret o).wellFormed = true → ClearedOnce s 0x39 o.g [regOpnd o.a o.pol true, dstOpnd o.d false] →
    Yields (.pgret o) s fun t =>
      (let status := if !s.vfmemAllows vf pa then 4 else if !populated pa || (s.ownDie pa).isNone then 2 else if table.contains (pa / 65536) then 1
        else if table.length ≥ 256 then 3 else 0
       Delivers s t o.d false [l] (fun _ => status) 0 ∧
       (status = 0 → t.isRetired pa = true ∧ ∀ q, s.isRetired q = true → t.isRetired q = true) ∧ (status ≠ 0 → t.retired = s.retired ∧ OnlyContexts s t)) ∧
      Advanced s t ∧ RegsKept s t o.d false [l])

/-! ### Memory -/

/-- R142, step 6: an instruction whose guard is true in no lane of its batch goes on without any other effect. -/
def Obligations.GuardedOffInstructions : Prop :=
  ∀ (s : State) (m : M) (x : X) (b : BBra) (f : MFence),
    (∀ p ∈ [(Instr.ld m, 0x40), (.st m, 0x41), (.ldk m, 0x42), (.lds m, 0x43), (.sts m, 0x44), (.atom m, 0x45), (.atoms m, 0x46), (.red m, 0x47),
        (.pref m, 0x49), (.smap m, 0x4A)],
      Admitted s p.2 → activeLanes s m.g = [] → Yields p.1 s fun t => Advanced s t ∧ ControlOnly s t) ∧
    (∀ p ∈ [(Instr.pgal x, 0x4C), (.pgfr x, 0x4D), (.seqf x, 0x4E), (.mma x, 0x50), (.mmt x, 0x51), (.accz x, 0x53), (.cpy x, 0x59), (.launch x, 0x38)],
      Admitted s p.2 → activeLanes s x.g = [] → Yields p.1 s fun t => Advanced s t ∧ ControlOnly s t) ∧
    (Admitted s 0x60 → activeLanes s b.g = [] → Yields (.bra b) s fun t => Advanced s t ∧ ControlOnly s t) ∧
    (Admitted s 0x48 → activeLanes s f.g = [] → Yields (.fence f) s fun t => Advanced s t ∧ ControlOnly s t)

/-- R42, R70, R75, R177: LD and LDK issue a load of each active lane's bytes, LDK of the lowest alone, which leaves the destinations empty; LDS takes
the bytes of the scratchpad at once, as they go out to the same record. -/
def Obligations.LoadsIssue : Prop :=
  ∀ (s : State) (o : M),
    let n := memSize o.ty
    let tag := ((s.warps.look s.actor).map Warp.tag).getD 0
    let dst := fun l => s.dstOf s.actor l o.d o.ty.wide
    let record := fun kind lanes ea phase => (⟨s.actor, kind, lanes.map (loadLane o ea phase dst), o.ord.val, decide (o.ord.val = 1), 1, 0, false, tag⟩ : Load)
    let rest := fun (t : State) => t = { s with
      vRegs := t.vRegs, kRegs := t.kRegs, fibres := t.fibres, warps := t.warps, clusters := t.clusters, loads := t.loads, nextId := t.nextId }
    Unheld s →
    (let ops := [mBase o true, mSecond o false]
     let ea := address s o true true
     let lanes := activeLanes s o.g
     (Instr.ld o).wellFormed = true → Cleared s 0x40 o.g (ops ++ [dstOpnd o.d o.ty.wide]) → lanes ≠ [] → Reached s lanes ea n true false →
     Yields (.ld o) s fun t => LoadIssued s t o lanes ops (record .mem lanes ea fun _ => .wait) ∧ rest t) ∧
    (let ops := [mBase o true, mSecond o false]
     let ea := address s o true true
     let lanes := (activeLanes s o.g).take 1
     (Instr.ldk o).wellFormed = true → ClearedOnce s 0x42 o.g (ops ++ [dstOpnd o.d o.ty.wide]) → Reached s lanes ea n true false →
     Yields (.ldk o) s fun t => LoadIssued s t o lanes ops (record .mem lanes ea fun _ => .wait) ∧ rest t) ∧
    (let ops := [mBase o false, mSecond o false]
     let ea := address s o false true
     let lanes := activeLanes s o.g
     let g := s.wgOf s.actor
     (Instr.lds o).wellFormed = true → Cleared s 0x43 o.g (ops ++ [dstOpnd o.d o.ty.wide]) → lanes ≠ [] → Reached s lanes ea n false false → g.stash = [] →
     Yields (.lds o) s fun t => LoadIssued s t o lanes ops (record .scratch lanes ea fun l =>
       .bound (s.scrNat g (ea l).toNat n) (if s.scrBad g (ea l).toNat n then some 0 else none) none) ∧ rest t)

/-- R70, R76, R178: ST puts each active lane's bytes into its cluster's L1, dirty, and STS into the scratchpad; of two lanes that store one byte the
higher wins, and no other byte changes. -/
def Obligations.StoresToL1AndScratchpad : Prop :=
  ∀ (s : State) (o : M),
    let n := memSize o.ty
    let lanes := activeLanes s o.g
    let data := regOpnd o.d false o.ty.wide
    let x := fun l => reads s l data
    let g := s.wgOf s.actor
    let loads := fun isGlobal ea => unordered s isGlobal lanes ea n
    Unheld s → lanes ≠ [] →
    (let ops := [mBase o true, mSecond o false, data]
     let ea := address s o true true
     let pa := physical s ea
     let place := fun l => l1ByteKey g.cluster (pa l)
     (Instr.st o).wellFormed = true → o.ord.val = 0 → Cleared s 0x41 o.g ops → Plain s lanes → Reached s lanes ea n true true →
     Mapped s lanes ea false true (fun k => k = 0 || k = 2) → loads true ea →
     (∀ l ∈ lanes, (s.l1.look (l1Key g.cluster (lineOf (pa l)))).isSome = true ∨
       (lanes = [l] ∧ (s.l1.filter fun p => p.1 / 2 ^ 44 = g.cluster && p.1 % 2 ^ 44 % 128 = lineOf (pa l) % 128).length < 8)) →
     Yields (.st o) s fun t =>
       (∀ k, t.l1Bytes.look k = match lastByte lanes place n x k with
         | some b => some ⟨b, some g.idx⟩
         | none => s.l1Bytes.look k) ∧
       (∀ k, s.l1.look k ≠ none → t.l1.look k = s.l1.look k) ∧ Advanced s t ∧ ContextsKept (s.raiseFloors s.actor lanes ops) t whole whole ∧
       t = { s with l1 := t.l1, l1Bytes := t.l1Bytes, fibres := t.fibres, warps := t.warps, clusters := t.clusters }) ∧
    (let ops := [mBase o false, mSecond o false, data]
     let ea := address s o false true
     let place := fun l => g.scrByte (ea l).toNat
     (Instr.sts o).wellFormed = true → Cleared s 0x44 o.g ops → Plain s lanes → Reached s lanes ea n false true → loads false ea → g.stash = [] →
     Yields (.sts o) s fun t =>
       (∀ k, t.scratch.get 0 k = (lastByte lanes place n x k).getD (s.scratch.get 0 k)) ∧
       (∀ w, t.scratchBad.look w = if ∃ l ∈ lanes, place l ≤ 8 * w ∧ 8 * w + 8 ≤ place l + n then none else s.scratchBad.look w) ∧
       Advanced s t ∧ ContextsKept (s.raiseFloors s.actor lanes ops) t whole whole ∧
       t = { s with scratch := t.scratch, scratchBad := t.scratchBad, fibres := t.fibres, warps := t.warps, clusters := t.clusters })

/-- R78, R83, R124, R178, R179: a streaming, L2-only or release ST sends its bytes past L1 to their homes, and counts as one store until they are
acknowledged; so does ST.spw in an open window, with its window and its tag, which becomes the warp's. It rests on the model's choices of log 18 and
33. -/
def Obligations.StoresPastL1 : Prop :=
  ∀ (s : State) (o : M),
    let n := memSize o.ty
    let lanes := activeLanes s o.g
    let data := regOpnd o.d false o.ty.wide
    let ops := [mBase o true, mSecond o false, data]
    let u := s.raiseFloors s.actor lanes ops
    let moved := fun (t : State) => Advanced s t ∧ t = { s with
      flights := t.flights, packets := t.packets, stores := t.stores, nextId := t.nextId, fibres := t.fibres, warps := t.warps, clusters := t.clusters }
    Unheld s → lanes ≠ [] → Cleared s 0x41 o.g ops → Plain s lanes →
    (let ea := address s o true true
     let pa := physical s ea
     (Instr.st o).wellFormed = true → o.ord.val ≠ 0 → Reached s lanes ea n true true → Mapped s lanes ea false true (fun k => k = 0 || k = 2) →
     unordered s true lanes ea n → NotDirty s lanes pa n →
     (o.ord.val = 2 → NothingToRelease u o.scope.val ∧
       ∀ w q, s.warps.look s.actor = some w → w.bound = some q → o.scope.val = 3 → s.seqView q ≤ w.view.toNat) →
     Yields (.st o) s fun t => ∃ ids,
       Sends s t ids (fun f => Own u s.actor f ∧ f.kind = .write ∧ f.window = none) (lastByte lanes pa n fun l => reads s l data) ∧
       StoreCounted s t ids ∧ ContextsKept u t whole (fun m w => if m = s.actor then { w with stores := 0 } else w) ∧ moved t) ∧
    (let ea := address s o true false
     let pa := physical s ea
     let tag := fun l => reads s l (mSecond o false)
     ∀ q, ((s.warps.look s.actor).bind Warp.bound) = some q → (Instr.stSpw o).wellFormed = true → Reached s lanes ea n true true →
     Mapped s lanes ea false true (fun _ => true) → unordered s true lanes ea n → s.seqFlag q 4 = true →
     (∀ l ∈ lanes, (s.inKv q (ea l).toNat n = true ∨ s.inRecurrent q (ea l).toNat n = true) ∧ tag l < 64) →
     Yields (.stSpw o) s fun t => ∃ ids,
       ids.length = lanes.length ∧
       (∀ l ∈ lanes, ∃ i ∈ ids, ∃ f, t.flights.look i = some f ∧ Own u s.actor f ∧ f.kind = .write ∧ f.addr = pa l ∧
         f.bytes = bytesAt (pa l) n (reads s l data) ∧ f.window = some (q, s.seqWindow q, tag l)) ∧
       (∀ i, i ∉ ids → t.flights.look i = s.flights.look i) ∧ StoreCounted s t ids ∧
       (t.warps.look s.actor).map Warp.tag = some (tag (lowestActive s o.g)) ∧
       ContextsKept u t whole (fun m w => if m = s.actor then { w with stores := 0, tag := 0 } else w) ∧ moved t)

/-- R180: an atomic's new value: the sum modulo 2^w, the smaller or larger by the type, the bits of both, the value, or the value where the compare
value stands. -/
def Obligations.AtomicOperationValues : Prop :=
  ∀ (t : Ty) (old v c : Nat), t ∈ [Ty.s32, .n32, .s64, .n64, .b32, .b64] → old < 2 ^ width t → v < 2 ^ width t →
    (t.isInt = true → atomNew 0 t old v c = (old + v) % 2 ^ width t) ∧
    (t.isInt = true → atomNew 1 t old v c = if valueOf t v < valueOf t old then v else old) ∧
    (t.isInt = true → atomNew 2 t old v c = if valueOf t old < valueOf t v then v else old) ∧
    atomNew 3 t old v c = old ||| v ∧ atomNew 4 t old v c = v ∧ atomNew 5 t old v c = (if old = c then v else old) ∧
    (atomFails 5 old c = true ↔ old ≠ c)

/-- R181 to R183: ATOM sends each lane's operation to the home of its word and leaves its destination empty; RED sends it, or on a reduction page a
contribution, as a store; ATOMS performs it at the banks, one lane after another, and returns the old values as a load's. It rests on the model's
choices of log 31. -/
def Obligations.AtomicsIssue : Prop :=
  ∀ (s : State) (o : M),
    let n := memSize o.ty
    let lanes := activeLanes s o.g
    let tag := ((s.warps.look s.actor).map Warp.tag).getD 0
    let v := fun l => s.atomVals s.actor l o
    let dst := fun l => s.atomDst s.actor (lowestActive s o.g) l o
    let record := fun kind ea phase => (⟨s.actor, kind, lanes.map (loadLane o ea phase dst), 0, decide (o.sh.val % 2 = 1), 1, 0, false, tag⟩ : Load)
    Unheld s → lanes ≠ [] → Plain s lanes →
    (let ops := mBase o true :: mAtomOps o
     let u := s.raiseFloors s.actor lanes ops
     let ea := address s o true false
     let pa := physical s ea
     (Instr.atom o).wellFormed = true → Cleared s 0x45 o.g (ops ++ [dstOpnd o.d o.ty.wide]) → Reached s lanes ea n true true →
     Mapped s lanes ea true true (fun k => k ≠ 1 && k ≠ 2) → unordered s true lanes ea n → NotDirty s lanes pa n →
     (o.sh.val ≥ 2 → NothingToRelease u o.scope.val) →
     Yields (.atom o) s fun t => LoadIssued s t o lanes ops (record .atomic ea fun _ => .wait) ∧
       (∀ (i l : Nat), lanes[i]? = some l → ∃ f, t.flights.look (s.nextId + 1 + i) = some f ∧ Own u s.actor f ∧ f.addr = pa l ∧
         f.bytes = bytesAt (pa l) n (v l).1 ∧ f.kind = .atomic o.ord.val o.ty.code (v l).1 (v l).2 (some s.nextId) l) ∧
       (∀ j, j ≤ s.nextId ∨ s.nextId + lanes.length < j → t.flights.look j = s.flights.look j) ∧
       t = { s with vRegs := t.vRegs, kRegs := t.kRegs, fibres := t.fibres, warps := t.warps, clusters := t.clusters, loads := t.loads,
                    flights := t.flights, packets := t.packets, nextId := t.nextId }) ∧
    (let ops := [mBase o true, mSecond o o.ty.wide]
     let u := s.raiseFloors s.actor lanes ops
     let ea := address s o true false
     let pa := physical s ea
     (Instr.red o).wellFormed = true → Cleared s 0x47 o.g ops → Reached s lanes ea n true true →
     Mapped s lanes ea true true (fun k => k = 0 || pageOp k o.ord.val o.ty) → unordered s true lanes ea n → NotDirty s lanes pa n →
     (o.sh.val = 2 → NothingToRelease u o.scope.val) →
     Yields (.red o) s fun t => ∃ ids, ids.length = lanes.length ∧
       (∀ l ∈ lanes, ∃ i ∈ ids, ∃ f, t.flights.look i = some f ∧ Own u s.actor f ∧ f.addr = pa l ∧ f.bytes = bytesAt (pa l) n (v l).1 ∧
         f.kind = if (leafFor s ea l).kind = 0 then .atomic o.ord.val o.ty.code (v l).1 (v l).2 none l else .contribution (leafFor s ea l).kind false) ∧
       (∀ i, i ∉ ids → t.flights.look i = s.flights.look i) ∧ StoreCounted s t ids ∧ Advanced s t ∧
       ContextsKept u t whole (fun m w => if m = s.actor then { w with stores := 0 } else w) ∧
       t = { s with flights := t.flights, packets := t.packets, stores := t.stores, nextId := t.nextId, fibres := t.fibres, warps := t.warps,
                    clusters := t.clusters }) ∧
    (let ops := mBase o false :: mAtomOps o
     let ea := address s o false false
     let g := s.wgOf s.actor
     let place := fun l => g.scrByte (ea l).toNat
     let bank := fun k => s.scratch.get 0 k
     (Instr.atoms o).wellFormed = true → Cleared s 0x46 o.g (ops ++ [dstOpnd o.d o.ty.wide]) → Reached s lanes ea n false true →
     unordered s false lanes ea n → g.stash = [] → (∀ l ∈ lanes, s.scrBad g (ea l).toNat n = false) →
     Yields (.atoms o) s fun t =>
       (∀ k, t.scratch.get 0 k = bankAtomics o place v bank lanes k) ∧
       (∃ ld, LoadIssued s t o lanes ops ld ∧ ld.warp = s.actor ∧ ld.kind = .scratch ∧ ld.accs.length = lanes.length ∧
         ∀ (i l : Nat), lanes[i]? = some l → ld.accs[i]? = some (loadLane o ea (fun l =>
           .bound (bankNat (bankAtomics o place v bank (lanes.take i)) (place l) n) none none) dst l)) ∧
       t = { s with scratch := t.scratch, vRegs := t.vRegs, kRegs := t.kRegs, fibres := t.fibres, warps := t.warps, clusters := t.clusters,
                    loads := t.loads, nextId := t.nextId })

/-- R110, R113, R184, R185: a FENCE with nothing to wait for goes on, an acquire having retired the warp's renewal replies, and one that must wait for
a load stands; PREF fills in the lanes whose address it may use and drops the others. -/
def Obligations.FenceAndPrefetch : Prop :=
  ∀ (s : State) (f : MFence) (o : M),
    (let c := clusterOf s.actor
     let mine := (s.cluster c).unretired.filter fun r => r.1 = s.actor
     (Instr.fence f).wellFormed = true → Cleared s 0x48 f.g [] → activeLanes s f.g ≠ [] → s.holdOf s.actor = none →
     (f.order.val ≥ 2 → NothingToRelease s f.scope.val) →
     (f.order.val = 2 → Yields (.fence f) s fun t => Advanced s t ∧ ControlOnly s t) ∧
     (f.order.val ≠ 2 → s.unboundLoads s.actor = false → Yields (.fence f) s fun t => Advanced s t ∧
       (t.cluster c).pts = BitVec.ofNat 16 (mine.foldl (fun a r => tsMax a r.2) (s.cluster c).pts.toNat) ∧
       (t.cluster c).unretired = (s.cluster c).unretired.filter (fun r => r.1 ≠ s.actor) ∧
       ContextsKept (s.modCluster c fun k => { k with pts := (t.cluster c).pts, unretired := (t.cluster c).unretired }) t whole whole ∧
       t = { s with fibres := t.fibres, warps := t.warps, clusters := t.clusters }) ∧
     (f.order.val ≠ 2 → s.unboundLoads s.actor = true → Yields (.fence f) s fun t =>
       t = s.modWarp s.actor fun w => { w with hold := some ⟨1, [], 0, s.word⟩ })) ∧
    (let lanes := activeLanes s o.g
     let ea := address s o true true
     let ops := [mBase o true, mSecond o false]
     let good := lanes.filter fun l => decide (0 ≤ ea l ∧ ea l + 4 ≤ 2 ^ 48 ∧ ea l % 4 = 0)
     (Instr.pref o).wellFormed = true → Cleared s 0x49 o.g ops → lanes ≠ [] → s.acquiring s.actor = false →
     (∀ l ∈ good, unlocked s (ea l) 4 true false) →
     Yields (.pref o) s fun t =>
       (good = [] → t.loads = s.loads ∧ t.nextId = s.nextId) ∧
       (good ≠ [] → t.loads.look s.nextId =
         some ⟨s.actor, .mem, good.map (loadLane o ea (fun _ => .wait) fun _ => none), o.ord.val, false, 0, 0, false, 0⟩ ∧
         ∀ id, id ≠ s.nextId → t.loads.look id = s.loads.look id) ∧
       Advanced s t ∧ ContextsKept (s.raiseFloors s.actor lanes ops) t whole whole ∧
       t = { s with loads := t.loads, nextId := t.nextId, fibres := t.fibres, warps := t.warps, clusters := t.clusters })

/-- R74, R186, R187: SMAP maps a window over a scratchpad range, with the leaves of its pages pinned; with length 0 it unmaps a window, of which the
sectors never filled become zero; SFLUSH sends every dirty byte of the workgroup's windows to its home and leaves none dirty. It rests on the model's
choices of log 28. -/
def Obligations.StashWindows : Prop :=
  ∀ (s : State) (o : M) (f : G0) (w : Wg),
    let wg := s.wgNo s.actor
    s.wgs.look wg = some w → (s.warps.look s.actor).isSome = true →
    (let l := lowestActive s o.g
     let ops := [regOpnd o.d false false, mBase o true, mSecond o false]
     let vs := reads s l (regOpnd o.d false false)
     let vl := reads s l (mSecond o false)
     let ea := address s o true false
     let va := (ea l).toNat
     let pages := pagesOf va vl
     let moved := fun (t : State) => Advanced s t ∧ ContextsKept (s.raiseFloors s.actor [l] ops) t whole whole
     (Instr.smap o).wellFormed = true → ClearedOnce s 0x4A o.g ops → vs % 4 = 0 → 0 ≤ ea l → ea l % 64 = 0 → va + vl ≤ 2 ^ 48 → va < 2 ^ 48 →
     (0 < vl → vl % 64 = 0 → vs + vl ≤ w.alloc → vl ≤ 262144 → w.stash.length < 8 → (∀ x ∈ w.stash, ¬(x.scr < vs + vl ∧ vs < x.scr + x.len) ∧
         ¬(va < x.va + x.len ∧ x.va < va + vl)) → s.lockHit w.cluster false (w.rail * 148 + vs) (w.rail * 148 + vs + vl - 1) true = none →
       (s.warps.look s.actor).map Warp.fatal = some [] →
       (∀ p ∈ pages, ∃ e, s.tlbLook (fibreTlb (clusterOf s.actor)) (ownVf s) p = some e ∧ e.write = true ∧
         s.memAllows (clusterOf s.actor) (ownVf s) (e.phys (max va (p * 4096))) true true = true) →
       Yields (.smap o) s fun t =>
         t.wgs.look wg = some { w with stash := w.stash ++ [⟨vs, va, vl, (pages.map fun p => s.leafOf s.actor (p * 4096)).eraseDups, [], []⟩] } ∧
         (∀ j, j ≠ wg → t.wgs.look j = s.wgs.look j) ∧ moved t ∧
         t = { s with wgs := t.wgs, fibres := t.fibres, warps := t.warps, clusters := t.clusters }) ∧
     (∀ x, vl = 0 → w.stash.find? (fun x => x.scr = vs) = some x → (x.bytes.any fun p => p.2.dirty) = false → s.storesFull s.actor = false →
       s.windowBusy s.actor vs = false → s.plants = [] → x.len % 64 = 0 →
       Yields (.smap o) s fun t =>
         t.wgs.look wg = some { w with stash := w.stash.filter fun y => y.scr ≠ vs } ∧ (∀ j, j ≠ wg → t.wgs.look j = s.wgs.look j) ∧
         (∀ i < x.len, t.scrGet w (vs + i) = if (∀ j < 64, x.bytes.look (i / 64 * 64 + j) = none) then 0 else s.scrGet w (vs + i)) ∧
         (∀ k, (∀ i < x.len, k ≠ w.scrByte (vs + i)) → t.scratch.get 0 k = s.scratch.get 0 k) ∧ moved t ∧
         t = { s with scratch := t.scratch, scratchBad := t.scratchBad, wgs := t.wgs, fibres := t.fibres, warps := t.warps, clusters := t.clusters })) ∧
    (Admitted s 0x4B → activeLanes s f.g ≠ [] → s.acquiring s.actor = false → s.storesFull s.actor = false → w.version = none →
     (∀ x ∈ w.stash, ∀ p ∈ x.bytes, p.2.region = none) →
     Yields (.sflush f) s fun t =>
       t.wgs.look wg = some { w with stash := w.stash.map fun x => { x with bytes := x.bytes.mapv fun _ b => { b with dirty := false } } } ∧
       (∀ j, j ≠ wg → t.wgs.look j = s.wgs.look j) ∧ ContextsKept s t whole (fun m w => if m = s.actor then { w with stores := 0 } else w) ∧
       (∀ x ∈ w.stash, ∀ p ∈ x.bytes, p.2.dirty = true → ∃ i g, t.flights.look i = some g ∧ g.kind = .write ∧ g.wg = wg ∧ g.merged = false ∧
         x.phys (x.scr + p.1) ∈ g.bytes.map Prod.fst ∧ ∃ r, g.store = some r ∧ (t.stores.look r).map StoreRec.warp = some s.actor) ∧
       ((∀ x ∈ w.stash, (x.bytes.any fun p => p.2.dirty) = false) → t.flights = s.flights ∧ t.stores = s.stores ∧ t.nextId = s.nextId) ∧
       Advanced s t ∧
       t = { s with flights := t.flights, packets := t.packets, stores := t.stores, nextId := t.nextId, wgs := t.wgs, fibres := t.fibres,
                    warps := t.warps, clusters := t.clusters })

/-- R70, R91, R175, R337: an access outside its space raises ACCESS_DENIED, else one that is misaligned MISALIGNED, else one that meets a lock
LOCK_CONFLICT, each in the lowest such lane, and has no other effect. It rests on the model's choices of log 12. -/
def Obligations.MemoryAccessTraps : Prop :=
  ∀ (s : State) (o : M), Resumable s →
    let lanes := activeLanes s o.g
    let n := memSize o.ty
    let traps := fun (i : Instr) (lanes : List Nat) (isGlobal indexed wr : Bool) =>
      let ea := address s o isGlobal indexed
      let addr := fun l => (BitVec.ofInt 64 (ea l)).toNat
      let outside := fun l => decide (ea l < 0 ∨ ea l + n > spaceEnd s isGlobal)
      let first := fun l => addr l + (if isGlobal then 0 else (s.wgOf s.actor).rail * 148)
      let lock := fun l => s.lockHit (clusterOf s.actor) isGlobal (first l) (first l + n - 1) wr
      (∀ l, lanes.find? outside = some l → Traps i s ⟨0x0A, l, 0, addr l, 0⟩) ∧
      (lanes.find? outside = none → ∀ l, (lanes.find? fun l => decide (ea l % n ≠ 0)) = some l → Traps i s ⟨0x09, l, 0, addr l, 0⟩) ∧
      (lanes.find? outside = none → (∀ l ∈ lanes, ea l % n = 0) → ∀ l e, (lanes.find? fun l => (lock l).isSome) = some l → lock l = some e →
        Traps i s ⟨0x0C, l, e, addr l, 0⟩)
    let ops := fun isGlobal => [mBase o isGlobal, mSecond o false]
    let data := regOpnd o.d false o.ty.wide
    let d := dstOpnd o.d o.ty.wide
    (Cleared s 0x40 o.g (ops true ++ [d]) → traps (.ld o) lanes true true false) ∧
    (ClearedOnce s 0x42 o.g (ops true ++ [d]) → traps (.ldk o) (lanes.take 1) true true false) ∧
    (Cleared s 0x43 o.g (ops false ++ [d]) → traps (.lds o) lanes false true false) ∧
    (Cleared s 0x44 o.g (ops false ++ [data]) → traps (.sts o) lanes false true true) ∧
    (Cleared s 0x41 o.g (ops true ++ [data]) → o.ord.val ≠ 2 → traps (.st o) lanes true true true ∧ traps (.stSpw o) lanes true false true) ∧
    (Cleared s 0x45 o.g (mBase o true :: mAtomOps o ++ [d]) → traps (.atom o) lanes true false true) ∧
    (Cleared s 0x46 o.g (mBase o false :: mAtomOps o ++ [d]) → traps (.atoms o) lanes false false true) ∧
    (Cleared s 0x47 o.g [mBase o true, mSecond o o.ty.wide] → traps (.red o) lanes true false true)

/-! ### Recovery regions (R214 to R220) -/

/-- R214 to R217: RGNB opens a region over its active lanes, innermost of each, with a version and a snapshot of its own; RGNK adds registers or a
range of the scratchpad, with the values they hold, to the preserved set of the innermost region; RGNE of every member of an inner region commits its
version into its parent's and closes it, and of an outermost one starts its publication. It rests on the model's choices of log 25 and 52. -/
def Obligations.RecoveryRegions : Prop :=
  ∀ (s : State) (o : BRgnb) (k : IRgnk) (e : G0) (rs : List Nat) (w : Warp), s.warps.look s.actor = some w →
    (let lanes := activeLanes s o.g
     let c := clusterOf s.actor
     let keys := lanes.map (fibreKey s.actor)
     Cleared s 0x70 o.g [] → lanes ≠ [] → (∀ l ∈ lanes, (s.fibres.look (fibreKey s.actor l)).map Fibre.regions = some rs) → rs.length < 8 →
     (∀ l ∈ lanes, ValidTarget s (relative s l o.target)) → s.versionsFree (dieOf c) ≥ 1 →
     Yields (.rgnb o) s fun t =>
       (∃ r, t.regions.look s.nextId = some r ∧ r.warp = s.actor ∧ r.wg = w.wg ∧ r.members = keys ∧
         r.target = BitVec.ofInt 64 (relative s (lowestActive s o.g) o.target) ∧ r.limit = o.lim.val ∧ r.retry = 0 ∧ r.parent = rs.head? ∧
         r.vRegs = [] ∧ r.kRegs = [] ∧ r.ranges = [] ∧ r.arrived = [] ∧ r.error = none ∧ r.undo = keys.map s.undoOf ∧ r.version = s.nextId + 1 ∧
         t.versions.look (s.nextId + 1) = some (Version.fresh (dieOf c) (s.parentVersion r) (.region s.nextId) c w.vf w.launch)) ∧
       (∀ j, j ≠ s.nextId → t.regions.look j = s.regions.look j) ∧ (∀ j, j ≠ s.nextId + 1 → t.versions.look j = s.versions.look j) ∧
       (∀ l ∈ lanes, (t.fibres.look (fibreKey s.actor l)).map Fibre.regions = some (s.nextId :: rs)) ∧ Advanced s t ∧
       ContextsKept s t (fun n f => if n ∈ keys then { f with regions := [], opens := 0 } else f) whole ∧
       t = { s with regions := t.regions, versions := t.versions, nextId := t.nextId, fibres := t.fibres, warps := t.warps, clusters := t.clusters }) ∧
    (let lanes := activeLanes s k.g
     ∀ r x, s.regions.look r = some x → lanes ≠ [] → (∀ l ∈ lanes, ((s.fibres.look (fibreKey s.actor l)).map Fibre.regions).bind List.head? = some r) →
     (Instr.rgnk k).wellFormed = true →
     let moved := fun (t : State) => (∀ j, j ≠ r → t.regions.look j = s.regions.look j) ∧ Advanced s t ∧ ControlOnly { s with regions := t.regions } t
     (k.scr = false → Cleared s 0x71 k.g (rgnkOps k) → (k.a.isV = true → ∀ l ∈ lanes, s.vCount s.actor l r (rgnkOps k) ≤ 128) →
       (k.a.isK = true → ((x.kRegs.map Prod.fst) ++ (rgnkOps k).flatMap fun p => (s.cells s.actor (lowestActive s k.g) p).map Prod.fst).eraseDups.length ≤ 64) →
       Yields (.rgnk k) s fun t => moved t ∧ ∃ y, t.regions.look r = some y ∧ y = { x with vRegs := y.vRegs, kRegs := y.kRegs } ∧
         (∀ key, y.vRegs.look key = if k.a.isV = true ∧ ∃ l ∈ lanes, ∃ p ∈ rgnkOps k, key ∈ (s.cells s.actor l p).map Prod.fst then some (s.vCell key)
           else x.vRegs.look key) ∧
         (∀ key, y.kRegs.look key = if k.a.isK = true ∧ ∃ p ∈ rgnkOps k, key ∈ (s.cells s.actor 0 p).map Prod.fst then some (s.kCell key)
           else x.kRegs.look key)) ∧
     (k.scr = true → ClearedOnce s 0x71 k.g [regOpnd k.a false false] →
       let off := reads s (lowestActive s k.g) (regOpnd k.a false false)
       let g := s.wgOf s.actor
       off % 4 = 0 → off + k.n.val ≤ g.alloc → s.lockHit g.cluster false (g.rail * 148 + off) (g.rail * 148 + off + k.n.val - 1) false = none →
       x.ranges.length < 4 →
       Yields (.rgnk k) s fun t => moved t ∧ ∃ y, t.regions.look r = some y ∧ y = { x with ranges := y.ranges, bytes := y.bytes } ∧
         (off, k.n.val) ∈ y.ranges ∧ (∀ q ∈ x.ranges, q ∈ y.ranges) ∧
         ∀ i, y.bytes.look i = if off ≤ i ∧ i < off + k.n.val then some (s.scrGet g i) else x.bytes.look i)) ∧
    (let lanes := activeLanes s e.g
     ∀ r x v, s.regions.look r = some x → s.versions.look x.version = some v → lanes ≠ [] → x.members = lanes.map (fibreKey s.actor) →
     (∀ l ∈ lanes, (s.fibres.look (fibreKey s.actor l)).map (fun f => (f.regions, f.quitting)) = some (r :: rs, false)) → r ∉ rs →
     x.error = none → v.bad = [] → v.tagged = [] → s.copyOf s.actor = none → x.wg = w.wg → Cleared s 0x72 e.g [] →
     (∀ q y p, x.parent = some q → s.regions.look q = some y → y.version ≠ x.version → s.versions.look y.version = some p →
       Yields (.rgne e) s fun t => t.regions.look r = none ∧ t.versions.look x.version = none ∧ Advanced s t ∧
         (∀ l ∈ lanes, (t.fibres.look (fibreKey s.actor l)).map (fun f => (f.regions, f.wait)) = some (rs, .none)) ∧
         (∀ pa, let at' := (t.versions.look y.version).bind fun z => z.shadow.look pa
           (v.shadow.look pa = none → at' = p.shadow.look pa) ∧ (v.shadow.look pa ≠ none → ∃ b, (pa, b) ∈ v.shadow ∧ at' = some b)) ∧
         t = { s with regions := t.regions, versions := t.versions, fibres := t.fibres, warps := t.warps, clusters := t.clusters }) ∧
     (x.parent = none → (s.wgOf s.actor).version = none → Yields (.rgne e) s fun t =>
       (t.versions.look x.version).map (fun y => (y.state, y.after, y.shadow)) = some (.committing, 0, v.shadow) ∧
       (∀ pa b, v.shadow.look pa = some b → (t.l2Line (lineOf pa)).pending = true) ∧ t.l2Bytes = s.l2Bytes ∧ t.hbm = s.hbm ∧
       Blocked s t lanes (.rgne r)))

/-! ### The memory system's events -/

/-- R42, R44, R108, R124, R136: LOAD_FILL of a lane whose data have come fills its register, or poisons it, with the value extended by its type, and
the load leaves the warp's counter with its last lane. It rests on the model's choices of log 53. -/
def Obligations.LoadsFillRegisters : Prop :=
  ∀ (s : State) (id : Nat) (ld : Load) (a : Acc) (ty : Ty) (x : Nat) (poison wts : Option Nat) (w : Warp),
    s.loads.look id = some ld → Only ld a → a.phase = .bound x poison wts → a.ty = ty.code → s.warps.look ld.warp = some w → ld.warp < 6144 → s.plants = [] →
    let y := match ty with
      | .s8 => ((BitVec.ofNat 8 x).signExtend 32).toNat
      | .s16 => ((BitVec.ofNat 16 x).signExtend 32).toNat
      | _ => x
    let cell := fun i => (⟨match poison with
      | some o => .poisoned o
      | none => .full, BitVec.ofNat 32 (y / 2 ^ (32 * i)), wts⟩ : Cell)
    let last := decide (∀ b ∈ ld.accs, b.lane = a.lane ∨ b.phase = .done)
    Yields (.loadFill id a.lane) s fun t =>
      (∀ d, a.dst = some d → ∀ i < (if d.wide then 2 else 1),
        (d.isK = false → t.vCell (d.key + i) = cell i) ∧ (d.isK = true → (d.key + i) % 64 ≠ 0 → t.kCell (d.key + i) = cell i)) ∧
      (∀ key, (∀ d, a.dst = some d → d.isK = false → key ≠ d.key ∧ (d.wide = true → key ≠ d.key + 1)) → t.vCell key = s.vCell key) ∧
      (∀ key, (∀ d, a.dst = some d → d.isK = true → key ≠ d.key ∧ (d.wide = true → key ≠ d.key + 1)) → t.kCell key = s.kCell key) ∧
      (last = true → t.loads.look id = none) ∧
      (last = false → t.loads.look id = some { ld with accs := ld.accs.map fun b => if b.lane = a.lane then { b with phase := .done } else b }) ∧
      t.warps.look ld.warp = some { w with
        loads := if last = true ∧ ld.counted = 1 then w.loads - 1 else w.loads
        engines := if last = true ∧ ld.counted = 2 then w.engines - 1 else w.engines
        flagsDue := if last = true then w.flagsDue.filter (fun i => i ≠ id) else w.flagsDue
        fpc := w.fpc ||| BitVec.ofNat 32 ld.flags } ∧
      (∀ n, n ≠ ld.warp → t.warps.look n = s.warps.look n) ∧ (∀ j, j ≠ id → t.loads.look j = s.loads.look j) ∧
      t = { s with vRegs := t.vRegs, kRegs := t.kRegs, loads := t.loads, warps := t.warps, regions := t.regions }

/-- R79, R82, R83, R108: READ_RENEW of a lane that L1 does not serve reads its bytes at the home, with the L1's own dirty ones over them, and extends
the line's lease to the cluster's pts and the page's lease; an acquire raises pts to the line's wts at once, another load when its reply retires. It
rests on the model's choices of log 17 and 55. -/
def Obligations.RenewalsReadTheHome : Prop :=
  ∀ (s : State) (id : Nat) (ld : Load) (a : Acc) (w : Warp) (e : Tlb),
    let c := clusterOf ld.warp
    let pa := e.phys a.va
    let line := lineOf pa
    let own := fun i => if ld.ord = 3 ∨ ld.ord = 5 then none else ((s.l1Bytes.look (l1ByteKey c (pa + i))).filter fun b => b.writer.isSome).map L1Byte.val
    s.loads.look id = some ld → Only ld a → a.phase = .wait → ld.kind = .mem → ld.counted ≠ 0 → s.warps.look ld.warp = some w → ld.warp < 6144 →
    w.bound = none → s.laneChain ld.warp a.lane = [] → s.tlbLook (fibreTlb c) w.vf (a.va / 4096) = some e → e.kind = 0 → pa % 64 + a.size ≤ 64 → a.size > 0 →
    s.olderLoad id ld a = false → s.overtakes c pa a.size = false → s.memAllows c w.vf pa true false = true → s.ownDie pa = some (dieOf c) →
    s.remotes.look (remoteKey (dieOf c) line) = none → (ld.throughL1 e && s.l1Hit c pa a.size) = false → Resting s line → s.hasPartials line = false →
    s.plants = [] → Tab.wf s.l1Bytes = true → (∀ i < a.size, s.badWord (pa + i) = false) →
    Yields (.readRenew id a.lane) s fun t =>
      ((t.loads.look id).bind fun l => l.accs.find? fun b => b.lane = a.lane) = some { a with
        phase := .bound (Num.ofBytes ((List.range a.size).map fun i => (own i).getD (s.homeByte (pa + i)))) none (some (s.l2Line line).wts) } ∧
      (t.l2Line line).wts = (s.l2Line line).wts ∧
      (t.l2Line line).rts = tsMax (s.l2Line line).rts (((s.cluster c).pts.toNat + e.lease) % 65536) ∧
      (ld.acquire = true → (t.cluster c).pts = BitVec.ofNat 16 (tsMax (s.cluster c).pts.toNat (s.l2Line line).wts)) ∧
      (ld.acquire = false → (t.cluster c).pts = (s.cluster c).pts ∧
        (t.cluster c).unretired = (s.cluster c).unretired ++ [(ld.warp, (s.l2Line line).wts)]) ∧
      t.hbm = s.hbm ∧ t.l2Bytes = s.l2Bytes ∧ t.vRegs = s.vRegs ∧ t.kRegs = s.kRegs ∧ t.scratch = s.scratch

/-- R82, R83, R302: WRITE_MERGE puts a request's bytes at their home at a time above every lease of the line, and STORE_ACK raises the cluster's pts
to that time and takes the request from its store; a request that the home's table refuses is logged and writes nothing. It rests on the model's
choices of log 50. -/
def Obligations.StoresReachTheHome : Prop :=
  ∀ (s : State) (id : Nat) (f : Flight), s.flights.look id = some f →
    let line := lineOf f.addr
    let pts := if f.after = [] then f.pts else (s.cluster f.cluster).pts.toNat
    let time := writeTime s line (if f.context = 0xFFFFFE then none else some pts)
    (f.kind = .write → f.window = none → f.merged = false → s.flightWaits id f = false → f.bad = [] →
     (s.memAllows f.master f.vf f.addr false true = true → f.bytes ≠ [] → f.bytes.head?.map Prod.fst = some f.addr → (∀ b ∈ f.bytes, lineOf b.1 = line) →
       (∀ b ∈ f.bytes, s.attestWritable b.1 = true) → Resting s line → Quiet s →
       Yields (.writeMerge id) s fun t => PutHome s t f.bytes ∧ WrittenAt t line time ∧ (t.l2Line line).tagged = true ∧
         t.flights.look id = some { f with merged := true, wts := time } ∧ (∀ j, j ≠ id → t.flights.look j = s.flights.look j) ∧
         (∀ j, j ≠ line → t.l2Line j = s.l2Line j) ∧
         t = { s with l2 := t.l2, l2Bytes := t.l2Bytes, memBad := t.memBad, oldWords := t.oldWords, sliceTs := t.sliceTs, dies := t.dies, flights := t.flights }) ∧
     (s.memAllows f.master f.vf f.addr false true = false → (s.engines.first fun _ e => e.tried.contains id && f.master = engineMaster e.cluster) = none →
       Yields (.writeMerge id) s fun t => t.flights.look id = some { f with merged := true } ∧
         t = { s with flights := t.flights, acclog := (s.logMem f.master f.vf f.addr false true).acclog })) ∧
    (f.kind = .write → f.merged = true → Yields (.storeAck id) s fun t =>
      t.flights.look id = none ∧ (∀ j, j ≠ id → t.flights.look j = s.flights.look j) ∧
      (t.cluster f.cluster).pts = (if f.window = none ∧ f.wts ≠ 0 then BitVec.ofNat 16 (tsMax (s.cluster f.cluster).pts.toNat f.wts) else (s.cluster f.cluster).pts) ∧
      (∀ r x, f.store = some r → s.stores.look r = some x →
        (x.left.filter (fun i => i ≠ id) = [] → t.stores.look r = none ∧
          (t.warps.look x.warp).map Warp.stores = (s.warps.look x.warp).map fun w => w.stores - 1) ∧
        (x.left.filter (fun i => i ≠ id) ≠ [] → t.stores.look r = some { x with left := x.left.filter fun i => i ≠ id } ∧ t.warps = s.warps)) ∧
      t = { s with flights := t.flights, packets := t.packets, stores := t.stores, warps := t.warps, clusters := t.clusters })

/-- R82, R181: ATOMIC_AT_HOME reads a word at its home and writes the operation's result, a failing CAS nothing; the old value goes to its lane, and
the cluster's pts rises to the line's wts. -/
def Obligations.AtomicsActAtTheHome : Prop :=
  ∀ (s : State) (id : Nat) (f : Flight) (op v c lane : Nat) (ty : Ty) (load : Option Nat), s.flights.look id = some f →
    let line := lineOf f.addr
    let n := f.bytes.length
    let old := s.homeNat f.addr n
    let new := atomNew op ty old v c
    f.kind = .atomic op ty.code v c load lane → f.after = [] → s.flightWaits id f = false → s.memAllows f.master f.vf f.addr true true = true →
    n > 0 → lineOf (f.addr + n - 1) = line → (∀ i < n, s.attestWritable (f.addr + i) = true) → (s.ownDie f.addr).isSome = true → Resting s line →
    s.hasPartials line = false → Quiet s → (∀ i < n, s.badWord (f.addr + i) = false) → ((s.wgs.look f.wg).map Wg.copy) ≠ some 1 →
    Yields (.atomicAtHome id) s fun t => ∃ time,
      (if op = 5 ∧ old ≠ c then (∀ pa, t.homeByte pa = s.homeByte pa) ∧ time = (s.l2Line line).wts
       else PutHome s t (bytesAt f.addr n new) ∧ WrittenAt t line time ∧ time = writeTime s line (some f.pts)) ∧
      (t.cluster f.cluster).pts = BitVec.ofNat 16 (tsMax (s.cluster f.cluster).pts.toNat time) ∧ t.flights.look id = none ∧
      (∀ l, load = some l → t.loads.look l = (s.loads.look l).map fun x => { x with accs := x.accs.map fun a =>
        if a.lane = lane ∧ (a.phase = .wait ∨ a.phase = .parked) then { a with phase := .bound old none (some time) } else a }) ∧
      t.hbm = s.hbm ∧ t.vRegs = s.vRegs ∧ t.kRegs = s.kRegs

/-- R68, R92, R93: a contribution merges into the partial of its cluster's L1, or of its die's L2, from the operation's identity; the home merges a
partial into its word and keeps none of the line's. It rests on the model's choices of log 10 and 33. -/
def Obligations.ReductionPartials : Prop :=
  ∀ (s : State) (id : Nat) (f : Flight) (kind : Nat) (all : Bool),
    (∀ x y : Nat, redMerge 5 x y = (x + y) % 2 ^ 32 ∧ redMerge 5 (redIdentity 5) x = x % 2 ^ 32) ∧
    (s.flights.look id = some f → f.kind = .contribution kind all → (f.after.any fun i => (s.flights.look i).isSome) = false →
     let x := Num.ofBytes (f.bytes.map Prod.snd)
     let key := if all then l2PartKey (dieOf f.cluster) f.addr else l1PartKey f.cluster f.addr
     let table := fun (u : State) => if all then u.l2Parts else u.l1Parts
     let old := (((table s).look key).map fun p => p.word.toNat).getD (redIdentity kind)
     Yields (.reductionContribution id) s fun t =>
       (table t).look key = some ⟨kind, BitVec.ofNat 32 (redMerge kind old x), f.vf⟩ ∧ (∀ j, j ≠ key → (table t).look j = (table s).look j) ∧
       t.flights.look id = none ∧ t.hbm = s.hbm ∧ t.l2Bytes = s.l2Bytes ∧
       t = { s with l1Parts := t.l1Parts, l2Parts := t.l2Parts, l2 := t.l2, flights := t.flights, packets := t.packets, stores := t.stores, warps := t.warps }) ∧
    (∀ line k p, s.l1Parts.filter (fun q => lineOf (q.1 % 2 ^ 50 * 4) = line) = [(k, p)] → s.l2Parts.filter (fun q => lineOf (q.1 % 2 ^ 50 * 4) = line) = [] →
     let pa := k % 2 ^ 50 * 4
     Resting s line → Quiet s → (∀ i < 4, s.attestWritable (pa + i) = true) →
     Yields (.reductionMerge line) s fun t =>
       PutHome s t (bytesAt pa 4 (redMerge p.kind (s.homeNat pa 4) p.word.toNat)) ∧ t.hasPartials line = false ∧ (t.l2Line line).partials = [] ∧
       t.hbm = s.hbm)

/-- R82, R84, R285: PTS_TICK advances its cluster's pts by one, and to 2^13 below the largest timestamp of its die if that is later; the ticks of a
cluster with a halted context are not counted. -/
def Obligations.LogicalTimeTicks : Prop :=
  ∀ (s : State) (c : Nat),
    let k := s.cluster c
    (k.cyc - k.ticked).toNat ≥ 1024 →
    (s.tickHeld c = true → Yields (.ptsTick c) s fun t => t = s.modCluster c fun k => { k with ticked := k.ticked + 1024 }) ∧
    (let pts := BitVec.ofNat 16 (tsMax (k.pts + 1).toNat (((s.die (dieOf c)).maxTs + 65536 - 8192) % 65536))
     s.tickHeld c = false → (∀ p ∈ s.l1, p.1 / 2 ^ 44 = c → p.2.leased = true → tsLt p.2.rts ((pts.toNat + 65536 - 16384) % 65536) = false) →
     (∀ p ∈ s.wgs, p.2.cluster = c → (s.wgs.look p.1).map Wg.stash = some []) →
     Yields (.ptsTick c) s fun t =>
       t.cluster c = { k with ticked := k.ticked + 1024, pts := pts } ∧
       (∀ j, j ≠ c → t.cluster j = s.cluster j) ∧ t = { s with clusters := t.clusters })

/-- R65 to R67, R76: L1_EVICT drops a line from L1 and sends its dirty bytes to their home; ALIAS_EVICT re-encodes a dirty block of an alias line, the
stored bytes merged over the block's decoded values, as one scale and 32 elements in HBM, and drops the line. It rests on the model's choices of log
26. -/
def Obligations.LinesLeaveTheCaches : Prop :=
  ∀ (s : State) (c line : Nat), s.plants = [] → Tab.wf s.l1Bytes = true →
    (s.l1.look (l1Key c line) = none → Yields (.l1Evict c line) s fun t => t = s) ∧
    (∀ l, s.l1.look (l1Key c line) = some l → Yields (.l1Evict c line) s fun t =>
      t.l1.look (l1Key c line) = none ∧ (∀ p ∈ t.l1Bytes, ¬(p.1 / 2 ^ 52 = c ∧ lineOf (p.1 % 2 ^ 52) = line)) ∧
      (∀ p ∈ s.l1Bytes, ¬(p.1 / 2 ^ 52 = c ∧ lineOf (p.1 % 2 ^ 52) = line) → p ∈ t.l1Bytes) ∧
      (∀ pa b i, pa < 2 ^ 52 → lineOf pa = line → s.l1Bytes.look (l1ByteKey c pa) = some ⟨b, some i⟩ →
        ∃ j f, t.flights.look j = some f ∧ (pa, b) ∈ f.bytes ∧ f.kind = .write ∧ f.cluster = c ∧ f.merged = false) ∧
      t = { s with l1 := t.l1, l1Bytes := t.l1Bytes, flights := t.flights, packets := t.packets, nextId := t.nextId, warps := t.warps }) ∧
    (∀ die n i, s.ownDie (line * 256) = some die → (s.l2Line line).pending = false → (s.l2Line line).fmt = some n → i < 4 → s.memBad = [] →
     let w := s.win n
     let first := line * 256 + 64 * i
     let j := (first - w.base) / 64
     let dirty := s.l2Bytes.filter fun p => p.1 / 64 = first / 64 && p.2.dirty
     let old := (s.mxBlock w j).flatMap (Num.toBytes 2)
     let byte := fun (m : Nat) => ((Tab.look dirty (first + m)).map L2Byte.val).getD (old.getD m (0 : Byte))
     let e := Num.mxEncode w.mx ((List.range 32).map fun m => Num.decode Num.bf16 ((byte (2 * m)).toNat + 256 * (byte (2 * m + 1)).toNat))
     dirty ≠ [] → j * 32 < w.count → (∀ p ∈ s.l2Bytes, p.1 / 256 = line → p.2.dirty = true → p.1 / 64 = first / 64) →
     (w.scales + j < w.blockAt j ∨ w.blockAt j + w.blockLen ≤ w.scales + j) →
     Yields (.aliasEvict die line) s fun t =>
       (∀ m < w.blockLen, t.hbmByte (w.blockAt j + m) =
         BitVec.ofNat 8 (if w.mx = .e2m1 then e.2.1.getD (2 * m) 0 + 16 * e.2.1.getD (2 * m + 1) 0 else e.2.1.getD m 0)) ∧
       t.hbmByte (w.scales + j) = BitVec.ofNat 8 e.1 ∧
       (∀ pa, (pa < w.blockAt j ∨ w.blockAt j + w.blockLen ≤ pa) → pa ≠ w.scales + j → t.hbmByte pa = s.hbmByte pa) ∧
       (t.l2Line line).resident = false ∧ (t.l2Line line).fmt = none ∧ (∀ p ∈ t.l2Bytes, p.1 / 256 ≠ line) ∧
       t = { s with hbm := t.hbm, l2 := t.l2, l2Bytes := t.l2Bytes, memBad := t.memBad, oldWords := t.oldWords })

/-- R87, R217: COMMIT_PUBLISH gives the shadow bytes of an outermost region to their homes at one timestamp, which its cluster's pts takes; its
members go on after their RGNE. R218 to R221: ROLLBACK of a region whose member found an error brings back the preserved set, the predicates and the
window of each member, which goes to the region's target, and counts a retry. It rests on the model's choices of log 51 and 52. -/
def Obligations.CommitAndRollback : Prop :=
  ∀ (s : State) (v r : Nat) (x : Version) (g : Region), s.versions.look v = some x → s.regions.look r = some g → Quiet s →
    (x.owner = .region r → x.state = .committing → x.bad = [] → x.held = [] → ((s.warps.look g.warp).map Warp.state) ≠ some .halted →
     (∀ m ∈ g.members, (s.fibres.look m).map (fun f => (f.quitting, f.regions)) = some (false, [r])) → g.members.Nodup →
     (∀ p ∈ x.shadow, s.attestWritable p.1 = true ∧ (s.l2Line (lineOf p.1)).resident = true ∧ (s.l2Line (lineOf p.1)).filled = true) →
     (∃ base < 65536, ((s.cluster x.cluster).pts.toNat + 65536 - base) % 65536 < 8192 ∧
       (∀ d, ((s.die d).maxTs % 65536 + 65536 - base) % 65536 < 8192) ∧
       ∀ p ∈ x.shadow, (s.l2Line (lineOf p.1)).rts < 65536 ∧ ((s.l2Line (lineOf p.1)).rts + 65536 - base) % 65536 < 8192) →
     Yields (.commitPublish v) s fun t => PutHome s t x.shadow ∧
       (∃ time, (t.cluster x.cluster).pts = BitVec.ofNat 16 time ∧ ∀ p ∈ x.shadow, WrittenAt t (lineOf p.1) time) ∧
       t.versions.look v = none ∧ t.regions.look r = none ∧
       (∀ m ∈ g.members, (t.fibres.look m).map (fun f => (f.pc, f.wait, f.regions)) = (s.fibres.look m).map fun f => (f.pc + 8, .none, [])) ∧
       t.hbm = s.hbm ∧ t.vRegs = s.vRegs ∧ t.kRegs = s.kRegs ∧ t.scratch = s.scratch) ∧
    (∀ fib, g.error = some fib → g.version = v → g.retry + 1 ≤ g.limit → s.memberOps g = false → s.outerError g 8 = false →
     ((s.warps.look g.warp).bind Warp.hold) = none → (∀ p ∈ s.regions, p.2.parent ≠ some r) → g.members.Nodup → (∀ u ∈ g.undo, u.fibre ∈ g.members) →
     (∀ m ∈ g.members, (s.fibres.look m).isSome = true) →
     Yields (.rollback r) s fun t =>
       (∀ m ∈ g.members, (t.fibres.look m).map (fun f => (f.pc, f.hdr, f.wait, f.quitting)) = some (g.target, g.target, .none, false)) ∧
       (∀ u ∈ g.undo, ∃ u' ∈ g.undo, u'.fibre = u.fibre ∧ (t.fibres.look u.fibre).map (fun f => (f.preds, f.wb)) = some (u'.preds, u'.wb)) ∧
       (∀ p ∈ g.vRegs, p.2.st ≠ .empty → ∃ q ∈ g.vRegs, q.1 = p.1 ∧ t.vCell p.1 = q.2) ∧
       (∀ p ∈ g.kRegs, p.2.st ≠ .empty → ∃ q ∈ g.kRegs, q.1 = p.1 ∧ t.kCell p.1 = q.2) ∧
       (t.regions.look r).map (fun y => (y.retry, y.error, y.arrived, y.version)) = some (g.retry + 1, none, [], s.nextId) ∧
       (v ≠ s.nextId → t.versions.look v = none) ∧ (t.versions.look s.nextId).map (fun y => (y.state, y.shadow, y.owner)) = some (.isOpen, [], .region r) ∧
       t.hbm = s.hbm ∧ t.l2Bytes = s.l2Bytes)

/-! ### Engine instructions (R222 to R248) -/

/-- R222 to R236: MMA, MMT, ACCMV, ACCZ and VNLD with a good block, ranges, rows and barrier issue their operation, which holds the block as it
stands, the windows that its stream operands claim, and locks over its ranges; a register form of ACCMV leaves its destination empty. It rests on the
model's choices of log 39 and 42. -/
def Obligations.MatrixOperationsIssue : Prop :=
  ∀ (s : State) (o : X) (l : Nat),
    let c := clusterOf s.actor
    let g := s.wgOf s.actor
    let no := s.wgNo s.actor
    let blk := s.blockAt s.actor l o
    let b := s.scrBytes g blk 32
    let e := fun op => ({ s.newOp s.actor l op o with blk := blk, block := b } : EngOp)
    let lock := fun (dest : Bool) (r : Nat × Nat) => g.scrLock no o.bar.val dest r.1 r.2
    (let (m, n, k) := mmaDims o.ety o.shape.val
     let half := mmaHalf o.ety
     let sa := o.flag 1
     let sb := o.flag 2
     let ranges := (if sa then [] else [(fld b 0 4, spanOf half m (fld b 4 4) k)]) ++ if sb then [] else [(fld b 8 4, spanOf half k (fld b 12 4) n)]
     let claims := s.claimAll c [(sa, fld b 0 4 % 64), (sb, fld b 8 4 % 64)]
     let again := if sa && sb && fld b 0 4 = fld b 8 4 then 1 else 0
     (Instr.mma o).wellFormed = true → HasBlock s l o 32 → Elected s 0x50 o.g l [xBase o] (ranges.map (lock false)) → HasBarrier s o →
     (if sa then fld b 0 4 < 64 ∧ fld b 4 4 = 0 ∧ s.claimable c (fld b 0 4) o.ety.code m (k * half / 2) 0 = true
      else k ≤ fld b 4 4 ∧ fld b 4 4 * half % 8 = 0) →
     (if sb then fld b 8 4 < 64 ∧ fld b 12 4 = 0 ∧ s.claimable c (fld b 8 4) o.ety.code k (n * half / 2) again = true
      else n ≤ fld b 12 4 ∧ fld b 12 4 * half % 8 = 0) →
     (∀ r ∈ ranges, InScratch g r) → fld b 16 2 + m * (n / 64) ≤ g.accRows → fld b 18 14 = 0 →
     Yields (.mma o) s fun t => EngineIssued s t { e 0x50 with note := claims.1 } (ranges.map (lock false)) false ∧
       OnlyIssue { s with streams := claims.2.streams } t) ∧
    (let (m, k) := mmtShape o.shape.val
     let sa := o.flag 1
     let ranges := if sa then [] else [(fld b 0 4, (m - 1) * fld b 4 4 + k)]
     let claims := s.claimAll c [(sa, fld b 0 4 % 64)]
     (Instr.mmt o).wellFormed = true → HasBlock s l o 32 → Elected s 0x51 o.g l [xBase o] (ranges.map (lock false)) → HasBarrier s o →
     (if sa then fld b 0 4 < 64 ∧ fld b 4 4 = 0 ∧ s.claimable c (fld b 0 4) ETy.s8.code m k 0 = true else k ≤ fld b 4 4 ∧ fld b 4 4 % 4 = 0) →
     (∀ r ∈ ranges, InScratch g r) → fld b 8 2 + mmtRows o.ety k ≤ 65536 → fld b 10 2 + k / 32 ≤ 65536 → fld b 12 2 + 4 * m ≤ g.accRows →
     fld b 14 18 = 0 →
     Yields (.mmt o) s fun t => EngineIssued s t { e 0x51 with note := claims.1 } (ranges.map (lock false)) false ∧
       OnlyIssue { s with streams := claims.2.streams } t) ∧
    (let reg := o.flag 0
     let sc := o.flag 1
     let size := outSize o.ety
     let mc := fld b 8 2
     let nc := fld b 10 2
     let rs := if fld b 24 4 = 0xFFFFFFFF then [] else [(fld b 24 4 + 4 * fld b 4 2, 4 * mc)]
     let out := if reg || sc then [] else [(fld b 12 4, (mc - 1) * fld b 16 4 + nc * size)]
     let last := if sc then s.lastClaim c (fld b 28 1) else none
     let rows := (last.map fun p => scatterRows p.2 p.1 (fld b 4 2) mc).getD []
     let live := rows.filterMap fun r => (s.contributorOf r.2 (fld b 12 4) (nc * size)).map fun h => (r, h)
     let locks := rs.map (lock false) ++ out.map (lock true) ++
       (live.filter fun p => p.2.phase ≠ .saved).map fun p => p.2.scrLock p.1.2.wg p.1.2.bar true (p.1.2.result + fld b 12 4) (nc * size)
     (Instr.accmv o).wellFormed = true → HasBlock s l o 32 → Elected s 0x52 o.g l (xBase o :: if reg then [dstOpnd o.aux false] else []) locks →
     (reg = false → HasBarrier s o) → (sc = true → last.isSome = true) →
     1 ≤ fld b 2 2 → fld b 2 2 ≤ 128 → fld b 4 2 + mc ≤ fld b 2 2 → (∀ p ∈ last, fld b 4 2 + mc ≤ p.2.h) → fld b 6 2 + nc ≤ 256 → 1 ≤ mc → 1 ≤ nc →
     (reg = true → mc = 1 ∧ nc = 1 ∧ fld b 12 4 = 0) → (if reg || sc then fld b 16 4 = 0 else nc * size ≤ fld b 16 4) → fld b 16 4 % 4 = 0 →
     fld b 12 4 % 4 = 0 → (fld b 24 4 ≠ 0xFFFFFFFF → fld b 24 4 % 4 = 0) → (if sc then fld b 28 1 ≤ 63 else fld b 28 1 = 0) → fld b 29 3 = 0 →
     (∀ r ∈ rs ++ out, InScratch g r) → (∀ r ∈ accmvRows b, r < g.accRows) →
     Yields (.accmv o) s fun t =>
       EngineIssued s t { e 0x52 with
           note := (last.map Prod.fst).toList ++ live.map fun p => p.1.1
           bar := if reg then none else some o.bar.val
           dst := if reg then s.dstOf s.actor l o.aux false else none
           parts := live.map fun p => ⟨p.1.2.wg, 0⟩ } locks false ∧
       (reg = true → ∀ key ∈ (s.cells s.actor l (dstOpnd o.aux false)).map Prod.fst,
         (o.aux.isV = true → (t.vCell key).st = .empty) ∧ (o.aux.isK = true → (t.kCell key).st = .empty)) ∧
       RegsKept s t o.aux false (if reg then [l] else []) ∧ OnlyIssue { s with vRegs := t.vRegs, kRegs := t.kRegs } t) ∧
    (let v := reads s l (xAux o)
     (Instr.accz o).wellFormed = true → Elected s 0x53 o.g l [xAux o] [] → HasBarrier s o → v / 2 ^ 21 = 0 → 1 ≤ v / 2 ^ 10 → v / 2 ^ 10 ≤ 1024 →
     v % 2 ^ 10 + v / 2 ^ 10 ≤ g.accRows →
     Yields (.accz o) s fun t => EngineIssued s t { s.newOp s.actor l 0x53 o with aux := v } [] false ∧ OnlyIssue s t) ∧
    (let va := fld b 0 8
     let rows := fld b 8 4
     let locks := [g.memLock no o.bar.val false va (va + 256 * rows - 1)]
     (Instr.vnld o).wellFormed = true → HasBlock s l o 32 → Elected s 0x57 o.g l [xBase o] locks → HasBarrier s o → va % 64 = 0 → va + 256 * rows ≤ 2 ^ 48 → 1 ≤ rows →
     rows ≤ 65536 → fld b 12 2 + rows ≤ 65536 → fld b 14 18 = 0 →
     Yields (.vnld o) s fun t => EngineIssued s t { e 0x57 with note := [0] } locks (!o.flag 0) ∧ OnlyIssue s t)

/-- R241 to R248: LRDEF writes a good record into its slot at once; CPY, CPYW, CPYZ, CPYG, CPYM and the expert form of CPYW with a good block, a
defined slot, ranges and a barrier issue their operation, with the record as it stands in the slot and locks over the bytes it touches. It rests on
the model's choices of log 39. -/
def Obligations.CopiesIssue : Prop :=
  ∀ (s : State) (o : X) (l : Nat),
    let g := s.wgOf s.actor
    let no := s.wgNo s.actor
    let bar := o.bar.val
    let blk := s.blockAt s.actor l o
    let b := s.scrBytes g blk 32
    let x := (s.layouts.look (no * 64 + fld b 0 1)).getD []
    let r := recOf x
    let e := fun op => ({ s.newOp s.actor l op o with blk := blk, block := b, layout := x } : EngOp)
    let slot := fun n => n ≤ 63 ∧ n < g.slots ∧ (s.layouts.look (no * 64 + n)).isSome = true
    let lock := fun (dest : Bool) (q : Nat × Nat) => g.scrLock no bar dest q.1 q.2
    let memory := fun (dest : Bool) (m : Option (Nat × Nat)) => m.toList.map fun q => g.memLock no bar dest q.1 q.2
    let pitch := fun (q : Nat) => q % 4 = 0 ∧ (q = 0 ∨ r.box 0 * r.size ≤ q)
    (let y := s.scrBytes g blk 64
     let n := reads s l (xAux o)
     (Instr.lrdef o).wellFormed = true → Cleared s 0x58 o.g [xBase o, xAux o] → activeLanes s o.g = [l] → HasBlock s l o 64 → n ≤ 63 → n < g.slots →
     (∀ q ∈ (recOf y).checks, q.1 = false) → s.acquiring s.actor = false →
     Yields (.lrdef o) s fun t => t.layouts.look (no * 64 + n) = some y ∧ (∀ k, k ≠ no * 64 + n → t.layouts.look k = s.layouts.look k) ∧
       Advanced s t ∧ ControlOnly { s with layouts := t.layouts } t) ∧
    (∀ p ∈ [(Instr.cpy o, 0x59), (Instr.cpyw o, 0x5A), (Instr.cpyz o, 0x5B)],
     let wr := decide (p.2 = 0x5A)
     let range := (fld b 24 4, boxSpan r r.rows (pitchOf (fld b 28 4) r))
     let inside := fun (d : Nat) => decide (0 ≤ (origin b).getD d 0 ∧ (origin b).getD d 0 < (r.tiles d : Int))
     let first := r.base + (((origin b).getD 1 0).toNat * r.tiles 0 + ((origin b).getD 0 0).toNat) * r.stride 0
     let mem := if p.2 ≠ 0x5B then r.touched (boxCoords (origin b) r)
       else if inside 0 && inside 1 then some (first, first + r.stride 0 - 1) else none
     let locks := memory wr mem ++ [lock (!wr) range]
     p.1.wellFormed = true → HasBlock s l o 32 → Elected s p.2 o.g l [xBase o] locks → HasBarrier s o → slot (fld b 0 1) → (wr = true → r.dest = true) →
     r.sparse = decide (p.2 = 0x5B) → fld b 1 3 = 0 → (∀ d < 5, r.rank ≤ d → fld b (4 + 4 * d) 4 = 0) → pitch (fld b 28 4) → InScratch g range →
     Yields p.1 s fun t => EngineIssued s t (e p.2) locks false ∧ OnlyIssue s t) ∧
    (let n := fld b 2 2
     let index := (fld b 20 4, 4 * n)
     let range := (fld b 24 4, boxSpan r n (pitchOf (fld b 28 4) r))
     let mem := r.touched [(List.range (r.box 0)).map fun i => Num.sgn 32 (fld b 4 4) + ((i : Nat) : Int),
       (List.range n).map fun j => Num.sgn 32 (s.scrNat g (fld b 20 4 + 4 * j) 4), [Num.sgn 32 (fld b 8 4)], [Num.sgn 32 (fld b 12 4)],
       [Num.sgn 32 (fld b 16 4)]]
     let locks := memory false mem ++ [lock false index, lock true range]
     (Instr.cpyg o).wellFormed = true → HasBlock s l o 32 → Elected s 0x5D o.g l [xBase o] locks → HasBarrier s o → slot (fld b 0 1) → r.sparse = false →
     fld b 1 1 = 0 → 1 ≤ n → n ≤ 4096 → 2 ≤ r.rank → (r.rank ≤ 2 → fld b 8 4 = 0) → (r.rank ≤ 3 → fld b 12 4 = 0) → (r.rank ≤ 4 → fld b 16 4 = 0) →
     pitch (fld b 28 4) → InScratch g index → InScratch g range →
     Yields (.cpyg o) s fun t => EngineIssued s t (e 0x5D) locks false ∧ OnlyIssue s t) ∧
    (let count := fld b 1 1
     let table := reads s l (xAux o)
     let names := (List.range count).map fun i => s.scrNat g (table + 4 * i) 4
     let n := boxSpan r r.rows (r.box 0 * r.size)
     let got := names.map fun k => (s.receiver g k).filter fun p => (s.barrier p.1 bar).configured && decide (fld b 24 4 + n ≤ p.2.alloc)
     let locks := memory false (r.touched (boxCoords (origin b) r)) ++ [g.scrLock no bar true (blk + 28) 4] ++
       got.filterMap fun p => p.map fun q => q.2.scrLock q.1 bar true (fld b 24 4) n
     (Instr.cpym o).wellFormed = true → HasBlock s l o 32 → Elected s 0x5C o.g l [xBase o, xAux o] locks → HasBarrier s o → slot (fld b 0 1) →
     r.sparse = false → 1 ≤ count → count ≤ 16 → (∀ k ∈ names, k ≤ 65535) → names.Nodup → fld b 2 2 = 0 →
     (∀ d < 5, r.rank ≤ d → fld b (4 + 4 * d) 4 = 0) → InScratch g (table, 4 * count) → fld b 24 4 % 4 = 0 →
     Yields (.cpym o) s fun t => EngineIssued s t { e 0x5C with
         bar := none
         aux := bar
         parts := got.map fun p => (p.map fun q => (⟨q.1, 0⟩ : Part)).getD ⟨0, 3⟩ } locks false ∧ OnlyIssue s t) ∧
    (let rows := fld b 2 2
     let len := fld b 4 4
     let step := fld b 12 4
     let range := (fld b 8 4, (rows - 1) * (if step = 0 then len else step) + len)
     let locks := [lock false range, lock true (fld b 16 4, 8)]
     let expert := s.experts.get Expert.zero (fld b 0 2)
     let load := fun (q : Nat) => s.loadCounters.get 0 ((dieOf (clusterOf s.actor) * 65536 + fld b 0 2) * 4 + q)
     let enabled := expert.control % 2 = 1 ∧ expert.vf % 64 = ownVf s
     (Instr.cpywExp o).wellFormed = true → HasBlock s l o 32 → Elected s 0x5A o.g l [xBase o] locks → HasBarrier s o → 1 ≤ rows → rows ≤ 256 →
     4 ≤ len → len ≤ 16384 → len % 4 = 0 → (step ≠ 0 → step % 4 = 0 ∧ len ≤ step) → fld b 20 12 = 0 → InScratch g range → InScratch g (fld b 16 4, 8) →
     Yields (.cpywExp o) s fun t =>
       (∃ target phase, EngineIssued s t { e 0x5A with
           layout := [], note := expert.control :: expert.replicas ++ [expert.overflow], target := target, phase := phase } locks false ∧
         (¬enabled → target = 5 ∧ phase = .done) ∧
         (enabled → phase = .claiming ∧ target ≤ expert.control / 2 % 4 ∧ (∀ q ≤ expert.control / 2 % 4, load target ≤ load q) ∧
           ∀ q < target, load target < load q)) ∧ OnlyIssue s t)

/-- R188 to R190, R237 to R239, R263 to R267: SOPEN registers a stream and holds its source, SSUB subscribes the cluster, SCLOSE closes, BFQJ enters a
row, which with h rows makes a window; SPWC, PGAL, PGFR, SEQF, SAMP.arm and SAMP.read issue their operation. It rests on the model's choices of log
20, 24 and 48. -/
def Obligations.StreamsAndQueuesIssue : Prop :=
  ∀ (s : State) (o : X) (l : Nat),
    let c := clusterOf s.actor
    let d := dieOf c
    let g := s.wgOf s.actor
    let no := s.wgNo s.actor
    let blk := s.blockAt s.actor l o
    let b := s.scrBytes g blk 32
    let e := fun op => ({ s.newOp s.actor l op o with blk := blk, block := b } : EngOp)
    let k := d * 64 + fld b 0 1
    let q := (((s.warps.look s.actor).bind Warp.bound).getD 0)
    let mayIssue := fun (i : Instr) => i.wellFormed = true ∧ HasBlock s l o 32
    (let isJob := o.flag 0
     let h := fld b 2 2
     let len := fld b 4 4
     let org := fld b 8 4
     let pitch := fld b 12 4
     let n := fld b 16 4
     let range := (org, (n * h - 1) * pitch + len)
     let locks := if isJob then [] else [g.scrLock no 0 false range.1 range.2]
     mayIssue (.sopen o) → Elected s 0x54 o.g l [xBase o] locks → fld b 0 1 ≤ 63 → 1 ≤ fld b 1 1 → fld b 1 1 ≤ 48 → 1 ≤ h → h ≤ 128 → len % 4 = 0 →
     4 ≤ len → len ≤ 8192 → fld b 20 12 = 0 → s.streams.look k = none →
     (if isJob then org ≤ 31 ∧ pitch ≠ 0 ∧ n = 0 ∧ s.jobStream d org = none
      else pitch % 4 = 0 ∧ len ≤ pitch ∧ 1 ≤ n ∧ n ≤ 1048576 ∧ InScratch g range) → UnitAllows s 54 false true →
     Yields (.sopen o) s fun t => EngineIssued { s with locks := t.locks } t { e 0x54 with bar := none } [] false ∧ LocksTaken s t locks (streamLock k) ∧
       (∃ x, t.streams.look k = some x ∧ x.ety = o.ety.code ∧ x.job = (if isJob then some org else none) ∧ x.subs = fld b 1 1 ∧ x.h = h ∧ x.len = len ∧
         (isJob = true → x.deadline = pitch) ∧ (isJob = false → x.origin = org ∧ x.pitch = pitch ∧ x.windows = n) ∧ x.cluster = c ∧ x.wg = no ∧
         x.members = [] ∧ x.delivered = 0 ∧ x.closing = none ∧ x.batches = [] ∧ x.pending = []) ∧
       (∀ j, j ≠ k → t.streams.look j = s.streams.look j) ∧ OnlyIssue { s with streams := t.streams } t) ∧
    (∀ x, s.streams.look k = some x →
     let land := fld b 4 4
     let replay := fld b 1 1
     let locks := [g.scrLock no o.bar.val true land (2 * x.h * x.len)]
     mayIssue (.ssub o) → Elected s 0x55 o.g l [xBase o] locks → HasBarrier s o → fld b 0 1 ≤ 63 → 1 ≤ replay → fld b 2 2 = 0 → fld b 8 24 = 0 →
     InScratch g (land, 2 * x.h * x.len) → (∀ m ∈ x.members, m.cluster ≠ c) → x.members.length < x.subs → UnitAllows s 54 true false →
     Yields (.ssub o) s fun t => EngineIssued s t (e 0x55) locks false ∧
       t.streams.look k = some { x with members := x.members ++ [⟨c, no, replay, land, s.nextId, x.delivered * replay, x.delivered * replay⟩] } ∧
       (∀ j, j ≠ k → t.streams.look j = s.streams.look j) ∧ OnlyIssue { s with streams := t.streams } t) ∧
    (∀ x, s.streams.look k = some x →
     mayIssue (.sclose o) → Elected s 0x56 o.g l [xBase o] [] → HasBarrier s o → fld b 0 1 ≤ 63 → fld b 1 31 = 0 → x.cluster = c → x.closing = none →
     UnitAllows s 54 false true →
     Yields (.sclose o) s fun t => EngineIssued s t (e 0x56) [] false ∧
       t.streams.look k = some { x with
         closing := some s.nextId
         batches := if x.pending = [] then x.batches else x.batches ++ [x.pending]
         pending := [] } ∧
       (∀ j, j ≠ k → t.streams.look j = s.streams.look j) ∧ OnlyIssue { s with streams := t.streams } t) ∧
    (∀ j x, s.jobStream d (fld b 0 1) = some (j, x) → s.streams.look j = some x →
     let locks := [g.scrLock no o.bar.val false (fld b 4 4) x.len]
     let rows := x.pending ++ [⟨s.nextId, no, fld b 4 4, fld b 8 4, o.bar.val, (s.die d).queueClock, false⟩]
     mayIssue (.bfqj o) → Elected s 0x77 o.g l [xBase o] locks → HasBarrier s o → Plain s [l] → fld b 0 1 ≤ 31 → fld b 1 3 = 0 → fld b 12 20 = 0 →
     InScratch g (fld b 4 4, x.len) → fld b 8 4 % 4 = 0 → x.closing = none → x.pending.length < 1024 → UnitAllows s 54 false true →
     Yields (.bfqj o) s fun t => EngineIssued s t (e 0x77) locks false ∧
       t.streams.look j = some (if rows.length < x.h then { x with pending := rows }
         else { x with pending := [], batches := x.batches ++ [rows] }) ∧
       (∀ i, i ≠ j → t.streams.look i = s.streams.look i) ∧ OnlyIssue { s with streams := t.streams } t) ∧
    (let a := reads s l (xAux o)
     mayIssue (.spwc o) → Elected s 0x74 o.g l [xBase o, xAux o] [] → HasBarrier s o → Plain s [l] → fld b 9 23 = 0 →
     ((s.warps.look s.actor).bind Warp.bound).isSome = true → s.seqRank q (s.dieNumber c) = some 0 → s.seqFlag q 4 = true → a < 4096 →
     (s.seqFlag q 0 = false → a / 256 < s.seqPaths q ∧ a % 256 ≤ s.seqTokens q) → (∀ p ∈ s.engines, ¬(p.2.opcode = 0x74 ∧ p.2.seq = q)) →
     UnitAllows s 53 false true →
     Yields (.spwc o) s fun t => EngineIssued s t { e 0x74 with seq := q, aux := a } [] false ∧ OnlyIssue s t) ∧
    (∀ p ∈ [(Instr.pgal o, 0x4C), (Instr.pgfr o, 0x4D)],
     p.1.wellFormed = true → HasBlock s l o 8 → Elected s p.2 o.g l [xBase o, xAux o] [] → HasBarrier s o → Plain s [l] →
     ((s.warps.look s.actor).bind Warp.bound).isSome = true → UnitAllows s 53 false true →
     Yields p.1 s fun t => EngineIssued s t { e p.2 with block := [], aux := reads s l (xAux o), seq := q } [] false ∧ OnlyIssue s t) ∧
    ((Instr.seqf o).wellFormed = true → HasBlock s l o 16 → Elected s 0x4E o.g l [xBase o, xAux o] [] → HasBarrier s o → Plain s [l] →
     UnitAllows s 53 false true →
     Yields (.seqf o) s fun t => EngineIssued s t { e 0x4E with block := s.scrBytes g blk 16, aux := reads s l (xAux o) } [] false ∧ OnlyIssue s t) ∧
    (let z := fld b 0 2
     let vocab := fld b 4 4
     mayIssue (.sampArm o) → Elected s 0x78 o.g l [xBase o] [] → HasBarrier s o → Plain s [l] → 1 ≤ fld b 2 1 → fld b 2 1 ≤ 64 → fld b 3 1 = 0 →
     1 ≤ vocab → vocab ≤ 16777216 → goodTemp (fld b 16 4) = true → fld b 28 4 = 0 → fld b 8 8 % 4 = 0 → fld b 20 8 % 4 = 0 → s.seqState z = 1 →
     s.seqVf z = ownVf s → fld b 8 8 + 4 * vocab ≤ 2 ^ 48 → s.allSample d (ownVf s) (fld b 8 8) (4 * vocab) = true →
     ((s.arms.look z).isSome = true ∨ s.arms.length < 256) → UnitAllows s 53 false true →
     Yields (.sampArm o) s fun t => EngineIssued s t { e 0x78 with seq := z } [] false ∧ OnlyIssue s t) ∧
    (let z := fld b 0 2
     let span := ((s.arms.look z).map fun a => 8 * a.topk + 12).getD 0
     let locks := if span = 0 then [] else [g.scrLock no o.bar.val true (fld b 4 4) span]
     mayIssue (.sampRead o) → Elected s 0x78 o.g l [xBase o] locks → HasBarrier s o → Plain s [l] → fld b 2 2 = 0 → fld b 8 24 = 0 →
     InScratch g (fld b 4 4, span) → s.seqState z = 1 → s.seqVf z = ownVf s → UnitAllows s 53 false true →
     Yields (.sampRead o) s fun t => EngineIssued s t { e 0x78 with seq := z } locks false ∧ OnlyIssue s t)

/-- R212, R213, R255 to R257, R261, R268: SEQV samples the view, once bound or tagged; SEQW that changes nothing writes its status and arrives,
another waits at its port; SPWO opens the next window or, cancelled, none; ACPT writes its word; LAUNCH enqueues the record and waits for its word. It
rests on the model's choices of log 22 and 45. -/
def Obligations.SequencesAndLaunchesIssue : Prop :=
  ∀ (s : State) (o : X) (l : Nat) (w : Warp) (g : Wg), s.warps.look s.actor = some w → s.wgs.look w.wg = some g →
    let c := clusterOf s.actor
    let blk := s.blockAt s.actor l o
    let b := s.scrBytes g blk 32
    let e := fun op => ({ s.newOp s.actor l op o with blk := blk, block := b } : EngOp)
    let cell := (s.cells s.actor l (dstOpnd o.aux false)).map Prod.fst
    let q := (w.bound.getD 0)
    let rank0 := w.bound.isSome = true ∧ s.seqRank q (s.dieNumber c) = some 0
    (let v := reads s l (regOpnd o.pb false false)
     let step := o.flag 0
     let binds := o.flag 1
     let tags := o.flag 2
     let z := if binds then v % 65536 else q
     let u := s.modWarp s.actor fun w => { w with tag := if tags then v else w.tag, seq := if binds then BitVec.ofNat 32 z else w.seq }
     (Instr.seqv o).wellFormed = true →
     Elected s 0x76 o.g l ((if binds || tags then [regOpnd o.pb false false] else []) ++ [dstOpnd o.aux false]) [] → s.copyOf s.actor = none →
     (if binds then v < 65536 ∧ s.seqState z ≠ 0 ∧ s.seqVf z = w.vf else w.bound.isSome = true) → (tags = true → v < 64) →
     (∃ r, s.seqRank z (s.dieNumber c) = some r ∧ (step = true → r = 0)) → UnitAllows s 53 true false →
     Yields (.seqv o) s fun t =>
       EngineIssued u t { s.newOp s.actor l 0x76 o with bar := none, dst := s.dstOf s.actor l o.aux false, seq := z } [] false ∧
       (∀ key ∈ cell, (o.aux.isV = true → (t.vCell key).st = .empty) ∧ (o.aux.isK = true → (t.kCell key).st = .empty)) ∧
       RegsKept s t o.aux false [l] ∧ OnlyIssue { u with vRegs := t.vRegs, kRegs := t.kRegs } t) ∧
    (let new := fld b 0 1
     let status := if s.seqFlag q 0 then 4 else if s.seqFlag q 2 then 3 else if new = s.seqWidth q then 2 else if new > s.seqPoolCount q then 1 else 0
     (Instr.seqw o).wellFormed = true → HasBlock s l o 32 → Elected s 0x75 o.g l [xBase o] [] → HasBarrier s o → Plain s [l] → w.hold = none → rank0 →
     s.seqFlag q 4 = false → 1 ≤ new → new ≤ 32 → fld b 1 3 = 0 → fld b 12 20 = 0 → UnitAllows s 53 false true →
     (status ≠ 0 → Yields (.seqw o) s fun t => InBlock t g (blk + 4) 4 status ∧ InBlock t g (blk + 8) 4 (s.seqView q) ∧
       ScratchKept s t (fun k => ∃ i < 8, k = g.scrByte (blk + 4 + i)) ∧ Arrived s t w.wg o.bar.val false ∧
       t.engines.look s.nextId = none ∧ (∀ j, j ≠ s.nextId → t.engines.look j = s.engines.look j) ∧
       (t.warps.look s.actor).map Warp.engines = some w.engines ∧ t.hbm = s.hbm ∧ t.l2Bytes = s.l2Bytes ∧ t.vRegs = s.vRegs ∧ t.kRegs = s.kRegs) ∧
     (status = 0 → Yields (.seqw o) s fun t => t.engines.look s.nextId = some { e 0x75 with seq := q } ∧
       (∀ j, j ≠ s.nextId → t.engines.look j = s.engines.look j) ∧
       t.warps.look s.actor = some { w with engines := w.engines + 1, hold := some ⟨3, [s.nextId], 0, s.word⟩ } ∧
       (∀ n, n ≠ s.actor → t.warps.look n = s.warps.look n) ∧
       t = { s with engines := t.engines, nextId := t.nextId, warps := t.warps, wgs := t.wgs })) ∧
    (let opened := fun (t : State) => t.seqWindow q = (s.seqWindow q + 1) % 256 ∧ t.seqWindowBase q = s.seqCommitted q ∧ t.seqPaths q = fld b 0 1 ∧
       t.seqTokens q = fld b 1 1 ∧ t.seqFlag q 4 = true ∧ t.seqState q = s.seqState q ∧ t.seqWidth q = s.seqWidth q
     let dies := (s.seqListed q).filterMap fun d => if d / 4 = s.package then some (d % 4) else none
     let fresh := { s with warps := s.warps.mapv fun _ x => if x.bound = some q then { x with tag := 0 } else x }
     (Instr.spwo o).wellFormed = true → HasBlock s l o 32 → Elected s 0x73 o.g l [xBase o] [] → HasBarrier s o → Plain s [l] → rank0 → DescriptorReady s q → s.migrations = [] →
     s.seqFlag q 4 = false → 1 ≤ fld b 0 1 → fld b 0 1 ≤ 4 → 1 ≤ fld b 1 1 → fld b 1 1 ≤ 16 → fld b 2 2 = 0 → fld b 16 16 = 0 → UnitAllows s 53 false true →
     (s.seqFlag q 0 = true → Yields (.spwo o) s fun t => EngineIssued s t { e 0x73 with seq := q, note := [1] } [] false ∧
       PutHome s t [(s.seqBase + 256 * q, 2)] ∧ OnlyIssue (homesOf s t) t) ∧
     (s.seqFlag q 0 = false → (∀ d ∈ dies, s.versionsFree d ≠ 0) → Yields (.spwo o) s fun t =>
       EngineIssued fresh t { e 0x73 with seq := q, note := [0, (s.seqWindow q + 1) % 256, s.seqCommitted q] } [] false ∧ opened t ∧
       (∀ d ∈ dies, ∃ i v, t.versions.look i = some v ∧ s.nextId < i ∧ v.die = d ∧ v.owner = .window q ((s.seqWindow q + 1) % 256) ∧ v.state = .isOpen) ∧
       (∀ i ≤ s.nextId, t.versions.look i = s.versions.look i) ∧ OnlyIssue { homesOf s t with versions := t.versions } t)) ∧
    (let paths := fld b 8 1
     let span := 64 * paths
     let cancel := s.seqFlag q 0
     let locks := [g.scrLock w.wg 0 false (fld b 0 4) span, g.scrLock w.wg 0 false (fld b 4 4) span]
     (Instr.acpt o).wellFormed = true → HasBlock s l o 32 → Elected s 0x79 o.g l [xBase o, dstOpnd o.aux false] locks → s.copyOf s.actor = none →
     1 ≤ paths → paths ≤ 4 → fld b 9 1 ∈ [1, 2, 4, 8, 16] → (∀ i < 4, fld b (10 + i) 1 ≤ 16) → fld b 14 18 = 0 →
     InScratch g (fld b 0 4, span) → InScratch g (fld b 4 4, span) → w.bound.isSome = true →
     (cancel = false → s.seqFlag q 4 = true ∧ paths ≤ s.seqPaths q ∧ ∀ i < paths, fld b (10 + i) 1 ≤ s.seqTokens q) → UnitAllows s 53 false true →
     Yields (.acpt o) s fun t =>
       (cancel = true → Holds s t l o.aux false 0) ∧
       (cancel = false → (s.scrBad g (fld b 0 4) span || s.scrBad g (fld b 4 4) span) = false → Holds s t l o.aux false (s.judge g b q)) ∧
       (cancel = false → (s.scrBad g (fld b 0 4) span || s.scrBad g (fld b 4 4) span) = true → t.peek s.actor l (regOpnd o.aux false false) = .poisoned 0) ∧
       RegsKept s t o.aux false [l] ∧ Advanced s t ∧ ContextsKept s t whole whole ∧ OnlyContexts { s with regions := t.regions } t) ∧
    (let rec' := fld b 0 8
     let k := queueKey (dieOf c) w.vf (fld b 8 2)
     let good := rec' % 64 = 0 ∧ rec' + 256 ≤ 2 ^ 48 ∧ fld b 8 2 ≤ 15 ∧ fld b 10 22 = 0
     let words := fun (x : Nat) (t : State) => Holds s t l o.aux false x ∧ RegsKept s t o.aux false [l] ∧ Advanced s t ∧ ContextsKept s t whole whole ∧
       OnlyContexts { s with wgs := t.wgs } t
     (Instr.launch o).wellFormed = true → Elected s 0x38 o.g l [xBase o, dstOpnd o.aux false] [] →
     (w.hold = none → HasBlock s l o 32 → (o.flag 0 = true → HasBarrier s o) → Plain s [l] →
       (¬good → Yields (.launch o) s (words (3 * 2 ^ 28))) ∧
       (good → w.fatal = [] → (∀ p ∈ pagesOf rec' 256, (s.tlbLook (fibreTlb c) w.vf p).isSome = true) →
         ((s.queueOf k).length ≥ 8 → Yields (.launch o) s (words (2 * 2 ^ 28))) ∧
         ((s.queueOf k).length < 8 → UnitAllows s 52 false true →
           (∀ i < 4, s.memAllows (unitMaster (dieOf c)) w.vf (s.physOf s.actor (rec' + 64 * i)) true false = true) →
           Yields (.launch o) s fun t => ∃ r, t.queueOf k = s.queueOf k ++ [r] ∧ (∀ j, j ≠ k → t.queueOf j = s.queueOf j) ∧
             r.bytes = (List.range 4).flatMap (fun i => s.homeBytes (s.physOf s.actor (rec' + 64 * i)) 64) ∧ r.vf = w.vf ∧ r.accepted = none ∧
             r.op = some s.nextId ∧ r.warp = some s.actor ∧
             t.engines.look s.nextId = some { e 0x38 with bar := if o.flag 0 then some o.bar.val else none } ∧
             (∀ j, j ≠ s.nextId → t.engines.look j = s.engines.look j) ∧
             t.warps.look s.actor = some { w with engines := w.engines + 1, hold := some ⟨1, [s.nextId], 0, s.word⟩ } ∧
             (∀ n, n ≠ s.actor → t.warps.look n = s.warps.look n) ∧
             t = { s with queues := t.queues, engines := t.engines, nextId := t.nextId, warps := t.warps, wgs := t.wgs }))) ∧
     (∀ i x y z xs, w.hold = some ⟨1, [i], x, z⟩ → s.copyOf s.actor = none → s.engines.look i = some y → y.note = xs → y.warp = s.actor → y.wg = w.wg →
       (xs = [] → Yields (.launch o) s fun t => t = s) ∧
       (∀ word rest, xs = word :: rest → word < 2 ^ 32 → Yields (.launch o) s fun t => Holds s t l o.aux false word ∧ Advanced s t ∧ RegsKept s t o.aux false [l] ∧
         t.engines.look i = (if word ≥ 2 ^ 28 ∨ y.bar = none then none else some y) ∧ t.hbm = s.hbm ∧ t.scratch = s.scratch ∧ t.queues = s.queues)))

/-! ### Engine operations at work -/

/-- R62 to R64, R225, R226, R229, R233 to R236: at its arrival MMA, MMT, ACCZ and ACCMV have written the words or bytes of their result, computed from
the state before, and nothing else of their memory; the operation ends. A suspended one goes on once the pager has answered, and a stopped one makes a
faulted arrival. It rests on the model's choices of log 9 and 49. -/
def Obligations.EngineArrivals : Prop :=
  ∀ (s : State) (id part : Nat) (e : EngOp) (g : Wg),
    let b := e.block
    let accum := e.flags % 2 = 1
    let ty := etyOf e.ety
    let others := fun (t : State) => ({ s with engines := t.engines, locks := t.locks, warps := t.warps, fibres := t.fibres, barriers := t.barriers } : State)
    (∀ x y, MayRun s id e g → e.opcode = 0x50 →
     let (m, n, k) := mmaDims ty e.shape
     let half := mmaHalf ty
     let fromA := Sys2Proof.Num.bit e.flags 1
     let fromB := Sys2Proof.Num.bit e.flags 2
     s.operLost e fromA (e.note.getD 0 0) 0 = false → s.operLost e fromB (e.note.getD 1 0) 8 = false →
     s.operOf e fromA (e.note.getD 0 0) 0 4 k = some x → s.operOf e fromB (e.note.getD 1 0) 8 12 n = some y →
     Yields (.engineArrival id part) s fun t =>
       (∀ i < m, ∀ j < n, t.accGet g (fld b 16 2 + i + j / 64 * m) (j % 64) =
         mmaElem (etyFmt ty) (16 * (4 / half)) k (if accum then s.accGet g (fld b 16 2 + i + j / 64 * m) (j % 64) else 0)
           (fun z => s.operCode x half i z) (fun z => s.operCode y half z j) % 2 ^ 32) ∧
       AccKept s t g (fun row col => ∃ i < m, ∃ j < n, row = fld b 16 2 + i + j / 64 * m ∧ col = j % 64) ∧ OperationEnded s t id e false ∧
       (fromA = false → fromB = false → t.streams = s.streams) ∧ t = { others t with acc := t.acc, accBad := t.accBad, streams := t.streams }) ∧
    (∀ x, MayRun s id e g → e.opcode = 0x51 →
     let (m, k) := mmtShape e.shape
     let fromA := Sys2Proof.Num.bit e.flags 1
     s.operLost e fromA (e.note.getD 0 0) 0 = false → s.operOf e fromA (e.note.getD 0 0) 0 4 k = some x →
     Yields (.engineArrival id part) s fun t =>
       (∀ i < m, ∀ n < 256, t.accGet g (fld b 12 2 + i + n / 64 * m) (n % 64) =
         (s.veneerFor id e).mmtElem e.cluster (fld b 8 2) (fld b 10 2) k n ty (if accum then s.accGet g (fld b 12 2 + i + n / 64 * m) (n % 64) else 0)
           (fun z => Num.sgn 8 (s.operCode x 2 i z)) % 2 ^ 32) ∧
       AccKept s t g (fun row col => ∃ i < m, ∃ n < 256, row = fld b 12 2 + i + n / 64 * m ∧ col = n % 64) ∧ OperationEnded s t id e false ∧
       (fromA = false → t.streams = s.streams) ∧
       t = { others t with acc := t.acc, accBad := t.accBad, streams := t.streams, oldVeneer := t.oldVeneer }) ∧
    (MayRun s id e g → e.opcode = 0x53 →
     let first := e.aux % 2 ^ 10
     let rows := e.aux / 2 ^ 10 % 2 ^ 11
     Yields (.engineArrival id part) s fun t =>
       (∀ r, first ≤ r → r < first + rows → ∀ col < 64, t.accGet g r col = 0 ∧ t.accBadAt g r col = false) ∧
       AccKept s t g (fun row col => first ≤ row ∧ row < first + rows ∧ col < 64) ∧ OperationEnded s t id e false ∧
       t = { others t with acc := t.acc, accBad := t.accBad }) ∧
    (let m0 := fld b 4 2
     let n0 := fld b 6 2
     let mc := fld b 8 2
     let nc := fld b 10 2
     let size := outSize ty
     let moved := fun row col => ∃ i < mc, ∃ j < nc, row = tileRow b (m0 + i) (n0 + j) ∧ col = (n0 + j) % 64
     let cleared := fun (t : State) =>
       (Sys2Proof.Num.bit e.flags 2 = true → (∀ i < mc, ∀ j < nc, t.accGet g (tileRow b (m0 + i) (n0 + j)) ((n0 + j) % 64) = 0) ∧ AccKept s t g moved) ∧
       (Sys2Proof.Num.bit e.flags 2 = false → t.acc = s.acc)
     MayRun s id e g → e.opcode = 0x52 → Sys2Proof.Num.bit e.flags 1 = false →
     (Sys2Proof.Num.bit e.flags 0 = false → nc * size ≤ fld b 16 4 →
      Yields (.engineArrival id part) s fun t =>
       (∀ i < mc, ∀ j < nc, t.scrNat g (fld b 12 4 + i * fld b 16 4 + j * size) size = (s.accOut g e (m0 + i) (n0 + j)).1 % 2 ^ (8 * size)) ∧
       ScratchKept s t (fun k => ∃ i < mc, ∃ j < nc * size, k = g.scrByte (fld b 12 4 + i * fld b 16 4 + j)) ∧ cleared t ∧ OperationEnded s t id e false ∧
       t = { others t with acc := t.acc, accBad := t.accBad, scratch := t.scratch, scratchBad := t.scratchBad }) ∧
     (∀ d, Sys2Proof.Num.bit e.flags 0 = true → e.dst = some d → d.wide = false → e.bar = none →
      let x := s.accOut g e m0 n0
      let cell : Cell := ⟨if x.2 then .poisoned 0 else .full, BitVec.ofNat 32 (if ty = .s8 then ((BitVec.ofNat 8 x.1).signExtend 32).toNat else x.1), none⟩
      Yields (.engineArrival id part) s fun t =>
       (d.isK = true → d.key % 64 ≠ 0 → t.kCell d.key = cell) ∧ (d.isK = false → t.vCell d.key = cell) ∧
       (∀ k, k ≠ d.key ∨ d.isK = true → t.vCell k = s.vCell k) ∧ (∀ k, k ≠ d.key ∨ d.isK = false → t.kCell k = s.kCell k) ∧
       cleared t ∧ OperationEnded s t id e false ∧
       t = { others t with acc := t.acc, accBad := t.accBad, vRegs := t.vRegs, kRegs := t.kRegs, regions := t.regions })) ∧
    (∀ page, s.engines.look id = some e → e.phase = .suspended page →
     (s.opAsks id page e = false → Yields (.engineFaultResume id) s fun t => t.engines.look id = some { e with phase := .running } ∧
       (∀ j, j ≠ id → t.engines.look j = s.engines.look j) ∧ t = { s with engines := t.engines }) ∧
     (s.opAsks id page e = true → Yields (.engineFaultResume id) s fun t => t = s)) ∧
    (∀ cause access page, s.engines.look id = some e → s.wgs.look e.wg = some g → g.copy ≠ 1 → e.phase = .stopping cause access page → e.opcode ≠ 0x5C →
     e.opcode ≠ 0x76 → e.dst = none →
     Yields (.engineFaultStop id) s fun t => OperationEnded s t id e true ∧ t.hbm = s.hbm ∧ t.l2Bytes = s.l2Bytes ∧ t.scratch = s.scratch ∧ t.acc = s.acc ∧
       (cause = 0x0B ∨ s.faultArea e.vf = 0 → t.faults = s.faults) ∧
       (cause ≠ 0x0B → s.faultArea e.vf ≠ 0 → ∃ f, t.faults.look s.nextId = some f ∧ f.vf = e.vf ∧ f.page = page ∧ f.access = access ∧
         f.cause = (if cause = 0x0A then 4 else 5) ∧ f.launch = e.launch))

/-- R238, R240, R264, R266: a window of a stream reaches every subscriber's landing slot and counts as delivered; a job's batch closes at its
deadline; a scattered row has its results in its contributor, whose BFQJ then ends; a word that lands is counted by its stack's filter. It rests on
the model's choices of log 10, 20, 24 and 40. -/
def Obligations.StreamsAndFilters : Prop :=
  ∀ (s : State), s.plants = [] →
    (∀ die n x, s.streams.look (die * 64 + n) = some x →
     let w := x.delivered
     let slot := fun (m : Sub) => m.land + w % 2 * (x.h * x.len)
     let stands := fun (m : Sub) => ∃ h, s.wgs.look m.wg = some h ∧ h.cluster = m.cluster ∧ h.phase ≠ .saved ∧ h.rail * 148 + slot m + x.h * x.len ≤ 2 ^ 21
     w < (if x.job.isSome then x.batches.length else x.windows) → (x.subs ≤ x.members.length ∨ x.closing.isSome = true) →
     (∀ m ∈ x.members, (w - 1) * m.replay ≤ m.consumed ∧ stands m) → (x.members.map Sub.cluster).Nodup → (∀ j < x.h, (s.streamRow x w j).isSome = true) →
     Yields (.streamWindowDeliver die n) s fun t =>
       (∀ m ∈ x.members, ∀ h, s.wgs.look m.wg = some h → ∀ j < x.h, ∀ r, s.streamRow x w j = some r → ∀ i < x.len,
         t.scrGet h (slot m + j * x.len + i) = (r.getD i (0, false)).1) ∧
       ScratchKept s t (fun k => ∃ m ∈ x.members, ∃ h, s.wgs.look m.wg = some h ∧ ∃ i < x.h * x.len, k = h.scrByte (slot m + i)) ∧
       t.streams.look (die * 64 + n) = some { x with delivered := w + 1 } ∧ (∀ j, j ≠ die * 64 + n → t.streams.look j = s.streams.look j) ∧
       t = { s with scratch := t.scratch, scratchBad := t.scratchBad, streams := t.streams }) ∧
    (∀ die job k x r rs, s.jobStream die job = some (k, x) → x.pending = r :: rs →
     (r.entered + x.deadline ≤ (s.die die).queueClock → Yields (.batchDeadline die job) s fun t =>
       t.streams.look k = some { x with batches := x.batches ++ [r :: rs], pending := [] } ∧ (∀ j, j ≠ k → t.streams.look j = s.streams.look j) ∧
       t = { s with streams := t.streams }) ∧
     ((s.die die).queueClock < r.entered + x.deadline → Yields (.batchDeadline die job) s fun t => t = s)) ∧
    (∀ id row e g h p x r y,
     let m := e.note.getD (row + 1) 0
     let win := e.note.headD 1 - 1
     let k := dieOf e.cluster * 64 + fld e.block 28 1
     let size := outSize (etyOf e.ety)
     let nc := fld e.block 10 2
     let off := r.result + fld e.block 12 4
     s.engines.look id = some e → s.wgs.look e.wg = some g → e.opcode = 0x52 → Sys2Proof.Num.bit e.flags 1 = true → e.parts[row]? = some p → p.state = 0 →
     s.rowsBusy id e = false → s.streams.look k = some x → (x.batches.getD win [])[m]? = some r → r.scattered = false → s.wgs.look r.wg = some h →
     h.copy ≠ 1 → off + nc * size ≤ h.alloc → s.engines.look r.op = some y → r.op ≠ id → y.dst = none → y.opcode ≠ 0x76 → y.wg = r.wg → y.bar = some r.bar →
     Yields (.scatterArrival id row) s fun t =>
       (∀ j < nc, t.scrNat h (off + j * size) size = (s.accOut g e m (fld e.block 6 2 + j)).1 % 2 ^ (8 * size)) ∧
       ScratchKept s t (fun k => ∃ i < nc * size, k = h.scrByte (off + i)) ∧ Arrived s t r.wg r.bar false ∧ t.engines.look r.op = none ∧
       t.engines.look id = some { e with parts := e.parts.set row { p with state := 1 } } ∧
       (∀ j, j ≠ id → j ≠ r.op → t.engines.look j = s.engines.look j) ∧
       t.streams.look k = some { x with batches := x.batches.modify win fun rows => rows.modify m fun r => { r with scattered := true } } ∧ t.acc = s.acc) ∧
    (∀ id f w q a, s.flights.look id = some f → f.kind = .sample → f.merged = true → f.words = [w] →
     (s.arms.filter fun p => decide (p.2.vf = f.vf ∧ p.2.logits ≤ w.2.1 ∧ w.2.1 < p.2.logits + 4 * p.2.vocab)) = [(q, a)] → s.arms.look q = some a →
     let token := (w.2.1 - a.logits) / 4
     let pen := (s.penaltyOf a (homeOf w.1 % 4) token).1
     let k := stackOf w.1
     let bad := a.poisoned || f.bad.contains (w.1 / 8) || pen.2
     Yields (.logitLand id) s fun t =>
       t.arms.look q = some (match (a.filters.getD k Filter.fresh).land a.topk w.2.2 pen.1 a.invt.toNat token with
         | some y => { a with poisoned := bad, filters := a.filters.set k y }
         | none => { a with poisoned := bad, invalid := true }) ∧
       (∀ j, j ≠ q → t.arms.look j = s.arms.look j) ∧ t.flights.look id = some { f with kind := .write } ∧
       t = { s with arms := t.arms, flights := t.flights, freeCount := t.freeCount })

/-- R257, R258, R269: a new view is published once the old one's traffic is acknowledged; a page of a migration is copied to one of the new owner's
pool; with every page copied the migration ends and SEQW arrives; a shared page that a write met is copied, or is found to need no copy. It rests on
the model's choices of log 46 and 47. -/
def Obligations.ViewsAndPages : Prop :=
  ∀ (s : State) (q : Nat),
    (∀ id e g, (s.engines.first fun _ e => e.opcode = 0x75 && e.seq = q && decide (e.phase = .running)) = some (id, e) → s.engines.look id = some e →
     s.wgs.look e.wg = some g → g.copy ≠ 1 →
     let new := fld e.block 0 1
     let width := s.seqWidth q
     let members := if new ≤ width then (s.seqListed q).take width else (s.seqMembers q ++
       (((List.range (s.seqPoolCount q)).map fun i => s.seqPool q i).filter fun d => !(s.seqMembers q).contains d).eraseDups).take new
     (s.viewBusy q (s.seqView q) = true → Yields (.seqwPublish q) s fun t => t = s) ∧
     (s.viewBusy q (s.seqView q) = false → DescriptorReady s q → s.migrations = [] → e.blk + 12 ≤ g.alloc →
      (∀ i < s.seqKvLimit q, kvState (s.kvEntry q i) ∈ [1, 3] →
        s.ownerRank q (i * s.seqPerPage q) width = s.ownerRank q (i * s.seqPerPage q) new) →
      Yields (.seqwPublish q) s fun t =>
        t.seqView q = (s.seqView q + 1) % 2 ^ 32 ∧ t.seqWidth q = new % 256 ∧ t.seqPrevWidth q = width ∧ t.seqFlag q 1 = false ∧ t.seqFlag q 2 = true ∧
        t.seqNat q 62 1 = 0 ∧ (∀ i < 32, t.seqMember q i = members.getD i 0xFFFF % 2 ^ 16) ∧ InBlock t g (e.blk + 4) 4 0 ∧
        InBlock t g (e.blk + 8) 4 (t.seqView q) ∧ t.migrations.look q = some ⟨id, []⟩ ∧ t.engines.look id = some { e with phase := .sending } ∧
        (∀ j, j ≠ id → t.engines.look j = s.engines.look j) ∧
        t = { homesOf s t with scratch := t.scratch, scratchBad := t.scratchBad, migrations := t.migrations, engines := t.engines })) ∧
    (∀ m x page p u, s.migrations.look q = some m → (m.moves.find? fun y => decide (y.page = page)) = some x → x.copied = false → x.waiting = false →
     s.seqHalted q = false → s.moveFault q page = false → s.takePage (s.seqVf q) (s.pageOwner q page) = (.page p, u) → u.migrations = s.migrations →
     Yields (.migrationPageCopy q page) s fun t =>
       t.migrations.look q = some { m with moves := m.moves.map fun y => if y.page = page then { y with new := some p, copied := true } else y } ∧
       (∀ j, j ≠ q → t.migrations.look j = s.migrations.look j) ∧
       (u.plants = [] → x.old % 256 = 0 → p % 256 = 0 → (x.old + 65536 ≤ p ∨ p + 65536 ≤ x.old) → s.package * 2 ^ 40 + 4096 ≤ p →
         (∀ k < 256, WholeLine u (x.old / 256 + k) ∧ WholeLine u (p / 256 + k)) → (∀ r ∈ u.migrations, ∀ y ∈ r.2.moves, y.copied = false) →
         (∀ i < 65536, t.homeByte (p + i) = u.homeByte (x.old + i)) ∧ (∀ a, a < p ∨ p + 65536 ≤ a → t.homeByte a = u.homeByte a))) ∧
    (∀ m, s.migrations.look q = some m →
     (s.seqFlag q 4 = true ∨ s.seqHalted q = true ∨ (∃ x ∈ m.moves, x.copied = false) → Yields (.migrationSwitch q) s fun t => t = s) ∧
     (∀ e g, s.migrations = [(q, m)] → m.moves = [] → s.seqFlag q 4 = false → s.seqHalted q = false → DescriptorReady s q →
      s.engines.look m.op = some e → s.wgs.look e.wg = some g → g.copy ≠ 1 → e.dst = none → e.opcode = 0x75 →
      Yields (.migrationSwitch q) s fun t => t.seqFlag q 2 = false ∧ t.migrations = [] ∧ OperationEnded s t m.op e false ∧
        (∀ i < 32, t.seqMember q i = if s.seqFlag q 3 = true ∨ i < s.seqWidth q then s.seqMember q i else 0xFFFF) ∧
        t.seqView q = s.seqView q ∧ t.seqWidth q = s.seqWidth q)) ∧
    (∀ warp id w ws x, s.cowsOf warp = (id, w) :: ws → s.warps.look warp = some x → x.bound = some q →
     let i := (w.page * 4096 - s.seqKvBase q) / 65536
     let gone := fun (t : State) => t.walks.look id = none ∧ (∀ y, t.warps.look warp = some y → w.page ∉ y.needs ∧ (⟨w.page, none⟩ : Park) ∉ y.parks)
     (s.inKv q (w.page * 4096) 4096 = false ∨ kvShared (s.kvEntry q i) = false →
       Yields (.cowResolve warp) s fun t => gone t ∧ t = { s with walks := t.walks, warps := t.warps }) ∧
     (∀ p u, s.inKv q (w.page * 4096) 4096 = true → kvShared (s.kvEntry q i) = true → s.takePage (s.seqVf q) (s.pageOwner q i) = (.page p, u) →
       Yields (.cowResolve warp) s gone))

/-! ### Translation (R325 to R331) -/

/-- R325: one level of a walk reads the entry that nine bits of the address index. An entry of type 0 is absent, one of type 1 leads down, one of type
2 or 3 is a leaf, writable when its type is 3. PAGE_WALK takes the outcome to the requester; FAULT_ENTRY_WRITE puts the oldest entry in the queue and
advances its count; PAGER_RESPONSE, once the response is not 0, resumes or declines every requester. It rests on the model's choices of log 54. -/
def Obligations.TranslationEvents : Prop :=
  ∀ (s : State),
    (∀ die vf va level table, ∀ wr : Bool,
     let pa := table + 8 * (va / 2 ^ (12 + 9 * level) % 512)
     let e := s.homeNat pa 8
     let next := e / 2 ^ 12 % 2 ^ 40 * 4096
     let size := 2 ^ (12 + 9 * level)
     let walk := (s.walkFrom die vf va wr level table).2
     s.memAllows (unitMaster die) vf pa true false = true → e / 2 ^ 55 % 2 ^ 3 = 0 → e / 2 ^ 58 = vf → e / 4 % 2 = 0 → (e / 8 % 2 = 1 → e % 4 = 2) →
     (e % 4 = 0 → walk = .absent level) ∧
     (e % 4 = 1 → walk = if level = 0 then .fatal 3 0 else (s.walkFrom die vf va wr (level - 1) next).2) ∧
     (2 ≤ e % 4 → level ≤ 2 → next % size = 0 → populated (next + va % size) = true → e / 2 ^ 4 % 8 ≠ 2 →
       (wr = true → e % 4 = 2 → ∃ t, walk = .protect level (decide (e / 8 % 2 = 1)) t) ∧
       (wr = false ∨ e % 4 = 3 → ∃ t, walk = .found t ∧ t.vf = vf ∧ t.maps vf (va / 4096) = true ∧ t.phys va = next + va % size ∧
         t.write = decide (e % 4 = 3) ∧ t.kind = e / 2 ^ 4 % 8))) ∧
    (∀ id w sel access x, s.walks = [(id, w)] → w.who = .warp sel access → sel < 6144 → s.warps.look sel = some x → w.cluster < 192 →
     let out := (s.walk w.die w.vf (w.page * 4096) (Sys2Proof.Num.bit w.access 1)).2
     (∀ leaf, out = .found leaf → Yields (.pageWalk id) s fun t => (t.tlbs.get [] w.cluster).head? = some leaf ∧ t.walks = [] ∧
       (∃ y, t.warps.look sel = some y ∧ y.needs = (x.needs.filter fun p => p ≠ w.page) ∧ y.parks = (x.parks.filter fun p => p ≠ ⟨w.page, none⟩)) ∧
       t.hbm = s.hbm ∧ t.l2Bytes = s.l2Bytes ∧ t.fibres = s.fibres) ∧
     (∀ detail level, out = .fatal detail level → Yields (.pageWalk id) s fun t => t.walks = [] ∧ t.tlbs = s.tlbs ∧ t.faults = s.faults ∧
       ∃ y, t.warps.look sel = some y ∧ y.needs = (x.needs.filter fun p => p ≠ w.page) ∧ y.fatal = (w.page, detail) :: x.fatal) ∧
     (∀ level, out = .absent level → s.faultArea w.vf ≠ 0 → s.pendingFault w.vf w.page = none → Yields (.pageWalk id) s fun t => t.walks = [] ∧
       (∃ f, t.faults.look s.nextId = some f ∧ f.vf = w.vf ∧ f.page = w.page ∧ f.access = w.access ∧ f.cause = 0 ∧ f.level = level ∧ f.number = none ∧
         f.askers = [w.who]) ∧
       ∃ y, t.warps.look sel = some y ∧ y.needs = [] ∧ (⟨w.page, none⟩ : Park) ∈ y.parks ∧ (x.state = .ready → y.state = .parked))) ∧
    (∀ vf id f, (s.faults.first fun _ f => f.vf = vf && f.number.isNone) = some (id, f) →
     let area := s.faultArea vf
     let n := s.homeNat (area + 131072) 4
     let used := (n + 2 ^ 32 - s.homeNat (area + 131076) 4) % 2 ^ 32
     (f.cause ≤ 2 → f.askers = [] → Yields (.faultEntryWrite vf) s fun t => t = { s with faults := s.faults.del id }) ∧
     (area ≠ 0 → (f.cause > 2 ∨ f.askers ≠ []) →
      (4096 ≤ used → Yields (.faultEntryWrite vf) s fun t => t = s) ∧
      (used < 4096 → Quiet s → area % 256 = 0 → Ready s (area + 32 * (n % 4096)) 32 → Ready s (area + 131072) 4 →
       s.memAllows (unitMaster f.die) vf (area + 32 * (n % 4096)) false true = true → s.memAllows (unitMaster f.die) vf (area + 131072) false true = true →
       f.page < 2 ^ 52 → f.master < 2 ^ 16 →
       Yields (.faultEntryWrite vf) s fun t =>
         t.homeNat (area + 32 * (n % 4096)) 8 = f.page * 4096 ∧ t.homeNat (area + 32 * (n % 4096) + 8) 2 = f.master ∧
         t.homeNat (area + 32 * (n % 4096) + 11) 1 = f.cause % 256 ∧ t.homeNat (area + 32 * (n % 4096) + 16) 4 = n ∧
         t.homeNat (area + 32 * (n % 4096) + 28) 4 = (if f.cause ≤ 2 then 0 else 3) ∧ t.homeNat (area + 131072) 4 = (n + 1) % 2 ^ 32 ∧
         t.faults.look id = (if f.cause ≤ 2 then some { f with number := some n } else none) ∧
         (∀ a, (a < area + 32 * (n % 4096) ∨ area + 32 * (n % 4096) + 32 ≤ a) → (a < area + 131072 ∨ area + 131076 ≤ a) → t.homeByte a = s.homeByte a) ∧
         t = { homesOf s t with faults := t.faults }))) ∧
    (∀ vf entry id f sel access x, (s.faults.first fun _ f => f.vf = vf && f.number = some entry) = some (id, f) → f.askers = [.warp sel access] →
     s.warps.look sel = some x →
     let answer := s.homeNat (s.faultArea vf + 32 * (entry % 4096) + 28) 4
     (answer = 0 → Yields (.pagerResponse vf entry) s fun t => t = s) ∧
     (answer = 1 → Yields (.pagerResponse vf entry) s fun t => t.faults = s.faults.del id ∧
       (∃ p ∈ t.walks, p.2 = ⟨.warp sel access, dieOf (clusterOf sel), clusterOf sel, f.vf, f.page, access⟩) ∧ t.warps = s.warps) ∧
     (2 ≤ answer → Yields (.pagerResponse vf entry) s fun t => t.faults = s.faults.del id ∧ t.walks = s.walks ∧
       ∃ y, t.warps.look sel = some y ∧ y.fatal = (f.page, 0) :: x.fatal ∧ y.parks = x.parks.filter fun p => p ≠ ⟨f.page, none⟩))

/-! ### Selection, clauses and clocks -/

/-- R17, R19, R123, R125, R126, R317: a selection takes the lanes of the pool that stand at the lowest pc, or at that of the lanes passed over most
when two selections have passed one over; a clause starts at a free issue port once its header is valid and its thresholds are met. It rests on the
model's choices of log 13. -/
def Obligations.SelectionAndClauseStart : Prop :=
  ∀ (s : State) (sel : Nat) (w : Warp), s.warps.look sel = some w → w.state = .ready → w.needs = [] → s.stopsFor sel = false → sel < 6144 →
    (let cand := s.runnable sel false
     let fresh := cand.filter fun p => !p.2.deferred
     let pool := if fresh.isEmpty then cand else fresh
     w.batch = none → (∀ p ∈ s.fibresOf sel, ∀ b, p.2.wait ≠ .barFault b) →
     (cand = [] → Yields (.batchSelect sel) s fun t => t = s) ∧
     (cand ≠ [] → Yields (.batchSelect sel) s fun t =>
       (∃ p ∈ pool, t.batchLanes sel = (pool.filter fun q => q.2.pc = p.2.pc).map Prod.fst ∧ (∀ q ∈ pool, 2 ≤ q.2.passed → q.2.passed ≤ p.2.passed) ∧
         ∀ q ∈ pool, (q.2.passed = p.2.passed ∨ ∀ r ∈ pool, r.2.passed < 2) → p.2.pc.toNat ≤ q.2.pc.toNat) ∧
       BatchInOrder t sel ∧ t.warps.look sel = some { w with batch := some ⟨t.batchLanes sel, none⟩ } ∧
       (∀ l f, (l, f) ∈ s.fibresOf sel → t.fibres.look (fibreKey sel l) = some { f with
         deferred := false
         passed := if (l, f) ∈ cand ∧ l ∉ t.batchLanes sel then f.passed + 1 else 0
         wait := if (l, f) ∈ cand then .none else f.wait }) ∧
       (∀ k, k / 32 ≠ sel → t.fibres.look k = s.fibres.look k) ∧ (∀ n, n ≠ sel → t.warps.look n = s.warps.look n) ∧
       t = { s with fibres := t.fibres, warps := t.warps })) ∧
    (∀ lanes f x,
     let lane := s.lowest sel
     let c := clusterOf sel
     let room := fun (n lo : Nat) => x / 2 ^ lo % 16 = 15 ∨ n ≤ x / 2 ^ lo % 16
     w.batch = some ⟨lanes, none⟩ → lanes ≠ [] → s.plants = [] → s.fibres.look (fibreKey sel lane) = some f → f.pc = f.hdr → s.fetch sel f.pc.toNat = .word x →
     (headerOk x = false → ((s.wgs.look w.wg).bind Wg.version) = none →
      Yields (.clauseStart sel) s fun t => TrapTaken { s with word := BitVec.ofNat 64 x } t sel ⟨0x03, lane, 0, f.pc.toNat, 0⟩) ∧
     (headerOk x = true →
      (¬(room w.loads 49 ∧ room w.stores 45 ∧ room w.engines 41) → Yields (.clauseStart sel) s fun t => t = s) ∧
      (∀ port, room w.loads 49 ∧ room w.stores 45 ∧ room w.engines 41 → (headerClass x = 1 → s.throttled sel = false) → s.breakHit sel f.pc.toNat = none →
       s.freePortOf c = some port → s.portPick c port = some sel →
       Yields (.clauseStart sel) s fun t =>
         (t.warps.look sel).map (fun v => (v.batch, v.yields)) = some (some ⟨lanes, some port⟩, decide (x / 2 ^ 40 % 2 = 1)) ∧
         ((t.cluster c).port0, (t.cluster c).port1) =
           (if port = 0 then (some (slotOf sel), (s.cluster c).port1) else ((s.cluster c).port0, some (slotOf sel))) ∧
         (∀ l ∈ lanes, ∀ h, s.fibres.look (fibreKey sel l) = some h → t.fibres.look (fibreKey sel l) =
           some (if h.pc = h.hdr then { h with hword := BitVec.ofNat 64 x, pc := h.pc + 8 } else h)) ∧
         (∀ k, k ∉ lanes.map (fibreKey sel) → t.fibres.look k = s.fibres.look k) ∧
         (∀ d, d ≠ c → t.cluster d = s.cluster d) ∧ (∀ n, n ≠ sel → t.trapRec n = s.trapRec n) ∧
         t = { s with traps := t.traps, fibres := t.fibres, warps := t.warps, clusters := t.clusters })))

/-- R312, R317, R318, R321: the head of a launch queue gains a step of priority for 65,536 cycles of waiting; lost-locality scores halve every 1,024
cycles; a warp that has not issued for 3,072 cycles is exempt from the throttle; an expired slice pre-empts the workgroups that have a save frame when
its cluster is wanted, and begins again. It rests on the model's choices of log 57 and 59. -/
def Obligations.SchedulingClocks : Prop :=
  ∀ (s : State),
    (∀ die vf queue r rs,
     let k := queueKey die vf queue
     s.queueOf k = r :: rs →
     ((s.die die).queueClock < r.waited + 65536 → Yields (.priorityAge die vf queue) s fun t => t = s) ∧
     (r.waited + 65536 ≤ (s.die die).queueClock → Yields (.priorityAge die vf queue) s fun t =>
       (∃ x, t.queueOf k = x :: rs ∧ x = { r with waited := r.waited + 65536, age := r.age + 1 } ∧ x.priority = min 3 (r.priority + 1)) ∧
       (∀ j, j ≠ k → t.queueOf j = s.queueOf j) ∧ t = { s with queues := t.queues })) ∧
    (∀ c,
     let k := s.cluster c
     (k.cyc.toNat < k.decayed.toNat + 1024 → Yields (.localityDecay c) s fun t => t = s) ∧
     (k.decayed.toNat + 1024 ≤ k.cyc.toNat → Yields (.localityDecay c) s fun t =>
       (∀ n w, s.warps.look n = some w → t.warps.look n = some (if clusterOf n = c then { w with score := w.score / 2 } else w)) ∧
       t.cluster c = { k with decayed := k.decayed + 1024 } ∧ (∀ d, d ≠ c → t.cluster d = s.cluster d) ∧
       t = { s with warps := t.warps, clusters := t.clusters })) ∧
    (∀ sel w, s.warps.look sel = some w → sel < 6144 →
     ((s.cluster (clusterOf sel)).cyc.toNat < w.lastCycle + 3072 → Yields (.throttleExempt sel) s fun t => t = s) ∧
     (w.lastCycle + 3072 ≤ (s.cluster (clusterOf sel)).cyc.toNat → Yields (.throttleExempt sel) s fun t =>
       t.warps.look sel = some { w with exempt := true } ∧ (∀ n, n ≠ sel → t.warps.look n = s.warps.look n) ∧ t = { s with warps := t.warps })) ∧
    (∀ c, c < 192 →
     let k := s.cluster c
     let gone := (k.cyc - k.sliceFrom).toNat
     let begun := fun (t : State) =>
       t.cluster c = { k with sliceFrom := k.cyc, sliceLen := (s.slice.get 0 ((s.vfsel.get 0 c).toNat % 64)).toNat % 2 ^ 24 } ∧
       (∀ d, d ≠ c → t.cluster d = s.cluster d) ∧ t = { s with clusters := t.clusters }
     let halted := ∃ p ∈ s.warps, clusterOf p.1 = c ∧ p.2.state = .halted
     (k.sliceLen = 0 → Yields (.timeSliceExpiry c) s begun) ∧
     (k.sliceLen ≠ 0 → gone < 1024 * k.sliceLen ∨ halted → Yields (.timeSliceExpiry c) s fun t => t = s) ∧
     (k.sliceLen ≠ 0 → 1024 * k.sliceLen ≤ gone → ¬halted → s.wanted c = false → Yields (.timeSliceExpiry c) s begun) ∧
     (k.sliceLen ≠ 0 → 1024 * k.sliceLen ≤ gone → ¬halted → s.wanted c = true → Yields (.timeSliceExpiry c) s fun t =>
       (∀ no g l, s.wgs.look no = some g → g.cluster = c → g.phase = .resident → g.cause = 0 → s.launches.look g.launch = some l → recSave l.bytes ≠ 0 →
         t.wgs.look no = some { g with phase := .stopping }) ∧
       (∀ no, (t.wgs.look no).map (fun g => { g with phase := .resident }) = (s.wgs.look no).map fun g => { g with phase := .resident }) ∧
       (t.cluster c).sliceFrom = k.cyc ∧ t.vRegs = s.vRegs ∧ t.kRegs = s.kRegs ∧ t.scratch = s.scratch ∧ t.acc = s.acc ∧ t.hbm = s.hbm ∧ t.l2Bytes = s.l2Bytes))

/-! ### Launches -/

/-- R213, R309 to R315, R26: an accepted record takes the next launch identifier, and a refused one leaves with its status; a placed workgroup stands
at its first header with registers, barriers and scratchpad as its record gives them; a workgroup whose work is done retires, everything of it is
freed, and the last one of a launch completes it. It rests on the model's choices of log 3, 25, 56 and 57. -/
def Obligations.LaunchesRun : Prop :=
  ∀ (s : State),
    (∀ die vf queue i r,
     let k := queueKey die vf queue
     let b := r.bytes
     let id := s.nextLaunch
     ((s.queueOf k).findIdx? fun r => r.accepted.isNone) = some i → (s.queueOf k)[i]? = some r → r.blocked = none → r.fromHost = true → r.op = none →
     (∀ gs ss image, s.checkRecord die vf queue r = .accept gs ss image → Yields (.launchAccept die vf queue) s fun t =>
       t.queueOf k = (s.queueOf k).set i { r with accepted := some id } ∧ t.nextLaunch = (if id < 0xFFFFFD then id + 1 else 0) ∧
       (∃ l, t.launches.look id = some l ∧ l.bytes = b ∧ l.vf = vf ∧ l.die = die ∧ l.groups = gs ∧ l.sems = ss ∧ l.image = image ∧ l.placed = [] ∧
         l.ended = 0 ∧ l.complete = false) ∧
       (∀ j, j ≠ id → t.launches.look j = s.launches.look j) ∧ t.out = s.out ++ [⟨r.host, 19, [s.package, id]⟩] ∧
       t = { s with
         queues := t.queues, launches := t.launches, nextLaunch := t.nextLaunch, issuedLaunches := (id, vf) :: s.issuedLaunches, out := t.out }) ∧
     (∀ status code, s.checkRecord die vf queue r = .refuse status code none → recCompletion b = 0 → Yields (.launchAccept die vf queue) s fun t =>
       (t.queueOf k).map QRec.bytes = ((s.queueOf k).eraseIdx i).map QRec.bytes ∧
       t.out = s.out ++ [⟨r.host, 19, [s.package, status * 2 ^ 28 + code * 2 ^ 24]⟩] ∧ t = { s with queues := t.queues, out := t.out }) ∧
     (s.recordDenied vf queue b = true → s.checkRecord die vf queue r = .refuse 4 0 none) ∧
     (s.recordDenied vf queue b = false → r.lost = false → recGroups b = 0 → recSems b = 0 → recImageLen b = 0 →
       (recInvalid b = true → s.checkRecord die vf queue r = .refuse 3 0 none) ∧
       (recInvalid b = false → recBound b = false → recDepends b = false → s.checkRecord die vf queue r =
         if recTooLarge b none = 0 then .accept [] [] [] else .refuse 1 (recTooLarge b none) none))) ∧
    (∀ die vf queue id l n c,
     let b := l.bytes
     (∀ r ∈ s.queueOf (queueKey die vf queue), s.isTerminated r = false) → s.servedVf die = some vf → s.servedQueue die vf = some queue →
     ((s.queueOf (queueKey die vf queue)).head?.bind QRec.accepted) = some id → s.launches.look id = some l → l.suspended = false → l.terminated = false →
     l.sems = [] → recBound b = false → recRedundant b = false → recVersioned b = false → s.nextPlace l = some n → s.target' l n = some [c] → s.plants = [] →
     Yields (.workgroupPlace die vf queue) s fun t =>
       ∃ g, t.wgs.look s.nextId = some g ∧ g.launch = id ∧ g.lin = n ∧ g.cluster = c ∧ (g.x, g.y, g.z) = coordsOf b n ∧ g.alloc = recRails b * 148 ∧
         g.warps = (s.freeSlots c).take (recWarps b) ∧ g.warps.length = recWarps b ∧ g.phase = .resident ∧ g.accRows = recAcc b ∧
         (∀ i < recWarps b,
           let sel := c * 32 + g.warps.getD i 0
           (∃ x, t.warps.look sel = some x ∧ x.wg = s.nextId ∧ x.num = i ∧ x.vf = l.vf ∧ x.launch = id ∧ x.state = .ready ∧ x.lanes = recLanes b ∧
             x.priv = recPrivileged b ∧ x.temporal = Sys2Proof.Num.bit (recTemporal b) i ∧ x.ext = decide (64 < recRegs b) ∧ x.iter = 0 ∧ x.fpc = 0) ∧
           (∀ j < recLanes b, t.fibres.look (fibreKey sel j) = some (Fibre.fresh (BitVec.ofNat 64 (fld b 0 8)))) ∧
           (∀ j < 32, ∀ p < 128, t.vCell (vKey (fibreKey sel j) p) = Cell.zero) ∧ (∀ m < 64, t.kCell (kKey sel m) = Cell.zero) ∧
           t.trapRec sel = TrapRec.zero) ∧
         (∀ m < 16, t.barrier s.nextId m =
           if Sys2Proof.Num.bit (recBarriers b) m then { Barrier.zero with configured := true, expected := recExpected b m } else Barrier.zero) ∧
         (∀ i < g.alloc, t.scrGet g i = l.image.getD i 0) ∧ (∀ row < g.accRows, ∀ col < 64, t.accGet g row col = 0) ∧
         t.launches.look id = some { l with placed := n :: l.placed } ∧ t.hbm = s.hbm ∧ t.l2Bytes = s.l2Bytes) ∧
    (∀ wg g l,
     let base := recCompletion l.bytes
     let last := recCount l.bytes ≤ l.ended + 1
     let bitmap := base + 64 + g.lin / 8
     s.wgs.look wg = some g → g.copy = 0 → g.version = none → g.phase = .resident → g.cause = 0 → s.wgIdle wg = true → s.releaseWg wg = s →
     (∀ p ∈ s.flights, p.2.wg ≠ wg) → s.launches.look g.launch = some l → l.op = none →
     (base ≠ 0 → base % 64 = 0 ∧ Quiet s ∧ Ready s base 64 ∧ Ready s bitmap 1 ∧ s.memAllows (unitMaster l.die) l.vf base false true = true ∧
       s.memAllows (unitMaster l.die) l.vf bitmap false true = true) →
     Yields (.workgroupRetire wg) s fun t =>
       t.wgs.look wg = none ∧ (∀ n w, s.warps.look n = some w → w.wg = wg → t.warps.look n = none) ∧
       (∀ p ∈ t.groups, ¬(p.1 / 256 = g.cluster ∧ p.2.wg = wg)) ∧ (∀ n < 16, t.barrier wg n = Barrier.zero) ∧
       t.launches.look g.launch = some { l with retired := g.lin :: l.retired, ended := l.ended + 1, complete := l.complete || decide last } ∧
       (base ≠ 0 → ∀ i < 8, Sys2Proof.Num.bit (t.homeByte bitmap).toNat i = (decide (i = g.lin % 8) || Sys2Proof.Num.bit (s.homeByte bitmap).toNat i)) ∧
       (base ≠ 0 → last → l.ends = [] → t.homeNat base 4 = g.launch % 2 ^ 32 ∧ t.homeNat (base + 4) 4 = 0 ∧
         t.homeNat (base + 8) 4 = (l.retired.length + 1) % 2 ^ 32 ∧ t.homeNat (base + 12) 4 = 0xFFFFFFFF) ∧
       t.out = s.out ++ (if last ∧ base ≠ 0 then [⟨l.host, 4, [s.package, g.launch]⟩] else []))

/-- R319, R320, R351 to R354: a pre-empted workgroup stops and, once what it has under way is done and its bytes have left, stands saved with its
registers, scratchpad and accumulator, its place free; a restored one has them again at its new place. Checkpoints of a pair compare signatures: a
match resets the counts, a first mismatch inside regions rolls both copies back, another one fails the pair. A failed workgroup is placed afresh on
another cluster when it may be, and else ends. It rests on the model's choices of log 11, 31 and 59. -/
def Obligations.PreemptionAndRelaunch : Prop :=
  ∀ (s : State),
    (∀ wg g l, s.wgs.look wg = some g → s.launches.look g.launch = some l → g.cause = 0 →
     let c := g.cluster
     let moved := fun (t : State) (h : Wg) =>
       (∀ i < g.warps.length,
         let old := c * 32 + g.warps.getD i 0
         let new := h.cluster * 32 + h.warps.getD i 0
         (t.warps.look new).map (fun w => (w.wg, w.num, w.launch, w.lanes, w.iter, w.fpc)) =
           (s.warps.look old).map (fun w => (w.wg, w.num, w.launch, w.lanes, w.iter, w.fpc)) ∧
         (∀ j < 32, ∀ f, s.fibres.look (fibreKey old j) = some f → f.wait = .none → t.fibres.look (fibreKey new j) = some f) ∧
         (∀ j < 32, ∀ p < 128, t.vCell (vKey (fibreKey new j) p) = s.vCell (vKey (fibreKey old j) p)) ∧
         (∀ n < 64, t.kCell (kKey new n) = s.kCell (kKey old n))) ∧
       (∀ i < g.alloc, t.scrGet h i = s.scrGet g i) ∧ (∀ row < g.accRows, ∀ col < 64, t.accGet h row col = s.accGet g row col) ∧
       (∀ n < 16, t.barrier wg n = s.barrier wg n)
     (recSave l.bytes ≠ 0 →
      (g.phase = .resident → Yields (.preempt wg) s fun t =>
        t.wgs.look wg = some { g with phase := .stopping } ∧ (∀ j, j ≠ wg → t.wgs.look j = s.wgs.look j) ∧ t.vRegs = s.vRegs ∧ t.kRegs = s.kRegs ∧
        t.scratch = s.scratch ∧ t.acc = s.acc ∧ t.hbm = s.hbm ∧ t.l2Bytes = s.l2Bytes) ∧
      (g.phase = .stopping → s.drained wg = false → Yields (.preempt wg) s fun t => t = s) ∧
      (g.phase = .stopping → s.drained wg = true → (∀ p ∈ s.faults, .save wg ∉ p.2.askers) → (∀ p ∈ s.flights, p.2.wg ≠ wg) →
       ((s.releaseAll ((s.warpsOf wg).headD 0) wg).2).sendPartials c true = s → (∀ p ∈ framePages l.bytes g.lin, s.framePage c l.vf p = .ok) →
       c < 192 → g.warps.Nodup → (∀ i ∈ g.warps, i < 32) → (s.cluster c).xqueue = [] → Yields (.preempt wg) s fun t =>
         (∃ h, t.wgs.look wg = some h ∧ h.phase = .saved ∧ h.cluster = 192 + wg ∧ h.left = c ∧ h.warps = List.range g.warps.length ∧ moved t h) ∧
         (∀ i ∈ g.warps, t.warps.look (c * 32 + i) = none) ∧ (t.cluster c).pool = (s.cluster c).pool + s.blocksOf wg g)) ∧
     (∀ k, g.phase = .saved → c = 192 + wg → g.warps = List.range (recWarps l.bytes) → k < 192 → dieOf k = dieOf g.left → (l.pinned = true → k = g.left) →
      s.fits k l.vf (s.savedNeed wg g l.bytes) = true → ((s.locksOf c).filter fun p => p.2.wg = wg).length ≤ s.locksFree k →
      s.outranked (dieOf k) l.vf (recPriority l.bytes) = false → (s.cluster k).xqueue = [] → Yields (.restore wg k) s fun t =>
        ∃ h, t.wgs.look wg = some h ∧ h.phase = .resident ∧ h.cluster = k ∧ h.warps = (s.freeSlots k).take (recWarps l.bytes) ∧ h.alloc = g.alloc ∧
          (t.wgs.look wg).map Wg.accRows = some g.accRows ∧ moved t h)) ∧
    (∀ id x p a b, s.checks.look id = some x → s.pairs.look x.pair = some p → s.wgs.look p.lead = some a → s.wgs.look p.trail = some b → p.lead ≠ p.trail →
     a.copy = 1 → a.pair = x.pair → x.done = false → s.halts.contains a.launch = false → a.phase ≠ .saved → b.phase ≠ .saved →
     let there := ∀ n ∈ x.fibres, (n ∈ x.lead ∧ s.standsThere a id x n = true) ∧ (n ∈ x.trail ∧ s.standsThere b id x n = true)
     (¬there → Yields (.checkpointCompare id) s fun t =>
       (t.checks.look id).map (fun y => { y with lead := [], trail := [] }) = some { x with lead := [], trail := [] } ∧
       (∀ j, j ≠ id → t.checks.look j = s.checks.look j) ∧ t = { s with checks := t.checks }) ∧
     (there → s.signature a x.fibres = s.signature b x.fibres → x.kind = 1 ∨ x.kind = 3 → Yields (.checkpointCompare id) s fun t =>
       (x.kind = 1 → (t.checks.look id).map Check.done = some true) ∧ (x.kind = 3 → t.checks.look id = none) ∧
       (∀ g ∈ [a, b], ∀ n ∈ x.fibres, ∀ f, s.fibres.look (g.fibre n) = some f → (t.fibres.look (g.fibre n)).map (fun f => (f.sigCount, f.sigPart)) = some (0, 0)) ∧
       (∀ k, (t.fibres.look k).map (fun f => { f with sigCount := 0, sigPart := 0 }) = (s.fibres.look k).map fun f => { f with sigCount := 0, sigPart := 0 }) ∧
       t = { s with checks := t.checks, fibres := t.fibres, wgs := t.wgs }) ∧
     (there → s.signature a x.fibres ≠ s.signature b x.fibres →
       let inside := ∀ n ∈ x.fibres, (s.regionAt a n).isSome = true ∧ (s.regionAt b n).isSome = true
       (p.missed x.pc x.region = 0 → inside → Yields (.checkpointCompare id) s fun t => t.checks.look id = none ∧
         ∀ g ∈ [a, b], ∀ n ∈ x.fibres, ∀ r y, s.regionAt g n = some r → s.regions.look r = some y →
           ∃ z, t.regions.look r = some z ∧ z.error.isSome = true ∧ 1 ≤ z.cause) ∧
       (p.missed x.pc x.region = 1 ∨ (p.missed x.pc x.region = 0 ∧ ¬inside) → Yields (.checkpointCompare id) s fun t => t.checks.look id = none ∧
         ∀ w ∈ [p.lead, p.trail], (t.wgs.look w).map (fun g => (g.phase, g.cause, g.origin)) = some (.failed, 0x12, 1)))) ∧
    (∀ wg g l, s.wgs.look wg = some g → g.copy = 0 → g.phase = .failed → s.wgIdle wg = true → (∀ p ∈ s.flights, p.2.wg ≠ wg) →
     s.launches.look g.launch = some l →
     let out := (g.cluster :: g.failedOn).eraseDups
     (3 ≤ g.relaunches ∨ g.outside = true ∨ g.hardware = false ∨ l.terminated = true → g.cause ≠ 0x12 → Yields (.workgroupRelaunch wg) s fun t =>
       t.wgs.look wg = some { g with phase := .resident } ∧ (∀ j, j ≠ wg → t.wgs.look j = s.wgs.look j) ∧ t = { s with wgs := t.wgs }) ∧
     (∀ c, s.mayRelaunch [wg] g l out = true → l.suspended = false → wg ≠ s.nextId →
      (s.freeWg wg).bestFit ((clustersOf (s.dieFor l g.lin % 4)).filter fun k => !out.contains k) l.vf (recNeed l.bytes) = some c →
      Yields (.workgroupRelaunch wg) s fun t =>
        t.wgs.look wg = none ∧ ∃ h, t.wgs.look s.nextId = some h ∧ h.launch = g.launch ∧ h.lin = g.lin ∧ h.cluster = c ∧ c ≠ g.cluster ∧ c ∉ g.failedOn ∧
          h.relaunches = g.relaunches + 1 ∧ h.failedOn = out ∧ h.phase = .resident ∧ h.cause = 0 ∧
          ∀ i < recWarps l.bytes, (t.warps.look (c * 32 + h.warps.getD i 0)).map (fun w => (w.wg, w.num, w.state)) = some (s.nextId, i, .ready)))

/-! ### The debugger, register writes and the host -/

/-- R343, R344: the debugger's six commands on the warp that XS_DBG names: halt and resume act on its launch; the others on a stopped warp, with
status 1 for one that is not and 2 for none; a read shows a register's value and state; a written register is full with the value, and no fill comes
into it; a resumed warp goes on as by SRET; a step issues one instruction and answers when its producers are complete. It rests on the model's choices
of log 35. -/
def Obligations.DebuggerCommands : Prop :=
  ∀ (s : State) (c : Nat),
    let x := (s.dbg.get 0 c).toNat
    let sel := named s c
    let lane := x / 2 ^ 46 % 32
    (∀ p ∈ [(1, Instr.dbgHalt c), (2, .dbgResume c), (3, .dbgStep c), (4, .dbgReadRegister c), (5, .dbgWriteRegister c), (6, .dbgResumeWarp c)],
      (¬Commanded s c p.1 → Yields p.2 s fun t => t = s) ∧
      (Commanded s c p.1 → s.warps.look sel = none → Yields p.2 s fun t => Answered s t c 2 ∧ t = { s with dbg := t.dbg }) ∧
      (∀ w, Commanded s c p.1 → 3 ≤ p.1 → s.warps.look sel = some w → w.state ≠ .stopped → w.state ≠ .halted →
        Yields p.2 s fun t => Answered s t c 1 ∧ t = { s with dbg := t.dbg })) ∧
    (∀ w, s.warps.look sel = some w →
     (Commanded s c 1 → s.halts.contains w.launch = false → (∀ n v, s.warps.look n = some v → v.launch = w.launch → v.hold = none) →
      Yields (.dbgHalt c) s fun t =>
        (∀ n v, s.warps.look n = some v → v.launch = w.launch →
          (t.warps.look n).map Warp.state = some (if v.state = .stopped ∨ v.state = .ended then v.state else .halted)) ∧
        w.launch ∈ t.halts ∧ (∀ l, s.launches.look w.launch = some l → t.launches.look w.launch = some { l with suspended := true }) ∧
        ((∀ p ∈ t.warps, p.2.launch = w.launch → p.2.state = .stopped ∨ p.2.state = .halted ∨ p.2.state = .ended) → Answered s t c 0) ∧
        t.hbm = s.hbm ∧ t.l2Bytes = s.l2Bytes ∧ t.vRegs = s.vRegs ∧ t.kRegs = s.kRegs) ∧
     (Commanded s c 2 → Yields (.dbgResume c) s fun t =>
        (∀ n v, s.warps.look n = some v → v.launch = w.launch → (t.warps.look n).map Warp.state =
          some (if v.state = .halted then (if v.parks.isEmpty then .ready else .parked) else v.state)) ∧
        w.launch ∉ t.halts ∧ (∀ l, s.launches.look w.launch = some l → (t.launches.look w.launch).map Launch.suspended = some false) ∧
        Answered s t c 0 ∧ t.hbm = s.hbm ∧ t.vRegs = s.vRegs ∧ t.kRegs = s.kRegs) ∧
     (Commanded s c 4 → w.state = .stopped ∨ w.state = .halted → s.plants = [] →
       let reg := s.dbgReg sel w x
       let only := fun (t : State) => t = { s with dbg := t.dbg }
       (reg = .bad → Yields (.dbgReadRegister c) s fun t => Answered s t c 5 ∧ only t) ∧
       (∀ i p, reg = .v i p → s.fibres.look (fibreKey sel i) = none → Yields (.dbgReadRegister c) s fun t => Shows s t c 0 0 ∧ only t) ∧
       (∀ i p f, reg = .v i p → s.fibres.look (fibreKey sel i) = some f → Yields (.dbgReadRegister c) s fun t =>
         Shows s t c (s.vCell (vKey (fibreKey sel i) p)).val.toNat (s.vCell (vKey (fibreKey sel i) p)).st.code ∧ only t) ∧
       (∀ n, reg = .k n → Yields (.dbgReadRegister c) s fun t => Shows s t c (s.kRead sel n).val.toNat (s.kRead sel n).st.code ∧ only t) ∧
       (∀ n, reg = .sp n → Yields (.dbgReadRegister c) s fun t => Shows s t c (s.special sel lane n) 0 ∧ only t) ∧
       (∀ i f, reg = .preds i → s.fibres.look (fibreKey sel i) = some f → Yields (.dbgReadRegister c) s fun t => Shows s t c (128 + f.preds.toNat) 0 ∧ only t)) ∧
     (Commanded s c 5 → w.state = .stopped ∨ w.state = .halted → s.plants = [] →
       let reg := s.dbgReg sel w x
       let cell : Cell := ⟨.full, BitVec.ofNat 32 x, none⟩
       (reg = .bad → Yields (.dbgWriteRegister c) s fun t => Answered s t c 5 ∧ t = { s with dbg := t.dbg }) ∧
       (∀ i p f, reg = .v i p → s.fibres.look (fibreKey sel i) = some f → Yields (.dbgWriteRegister c) s fun t =>
         let key := vKey (fibreKey sel i) p
         t.vCell key = cell ∧ Answered s t c 0 ∧ t.kRegs = s.kRegs ∧
         (∀ id ld, t.loads.look id = some ld → ∀ a ∈ ld.accs, a.phase ≠ .done → ∀ d, a.dst = some d → ¬(d.isK = false ∧ (d.key = key ∨ (d.wide = true ∧ d.key + 1 = key)))) ∧
         (s.loads = [] → ∀ k, k ≠ key → t.vCell k = s.vCell k) ∧ t.hbm = s.hbm ∧ t.fibres = s.fibres) ∧
       (∀ n, reg = .k n → n ≠ 0 → Yields (.dbgWriteRegister c) s fun t => t.kCell (kKey sel n) = cell ∧ Answered s t c 0 ∧ t.vRegs = s.vRegs ∧
         (s.loads = [] → ∀ k, k ≠ kKey sel n → t.kCell k = s.kCell k) ∧ t.hbm = s.hbm ∧ t.fibres = s.fibres) ∧
       (reg = .sp 17 → Yields (.dbgWriteRegister c) s fun t => t.warps.look sel = some { w with iter := BitVec.ofNat 32 x } ∧ Answered s t c 0 ∧
         t = { s with dbg := t.dbg, warps := t.warps }) ∧
       (∀ i f, reg = .preds i → s.fibres.look (fibreKey sel i) = some f → Yields (.dbgWriteRegister c) s fun t =>
         t.fibres.look (fibreKey sel i) = some { f with preds := BitVec.ofNat 7 x } ∧ Answered s t c 0 ∧ t = { s with dbg := t.dbg, fibres := t.fibres })) ∧
     (Commanded s c 6 →
       (x / 2 ^ 32 % 4 = 3 → w.state = .stopped ∨ w.state = .halted → Yields (.dbgResumeWarp c) s fun t => Answered s t c 5 ∧ t = { s with dbg := t.dbg }) ∧
       (x / 2 ^ 32 % 4 ≤ 1 → w.state = .stopped → Yields (.dbgResumeWarp c) s fun t =>
         t.warps.look sel = some { w with state := if w.parks.isEmpty then .ready else .parked, batch := none, hold := none } ∧
         (t.trapRec sel).flags % 2 = 0 ∧ (t.trapRec sel).cause = (s.trapRec sel).cause ∧ Answered s t c 0 ∧
         (x / 2 ^ 32 % 4 = 0 → t.fibres = s.fibres ∧ ((t.trapRec sel).flags / 16 % 2 = 1 ↔ w.stop.cause = 0x14)) ∧
         (x / 2 ^ 32 % 4 = 1 → w.stop.lanes.Nodup → ∀ l ∈ w.stop.lanes, ∀ f, s.fibres.look (fibreKey sel l) = some f → f.pc = w.stop.pc →
           (t.fibres.look (fibreKey sel l)).map Fibre.pc = some (f.pc + 8)) ∧
         t = { s with dbg := t.dbg, warps := t.warps, fibres := t.fibres, traps := t.traps })) ∧
     (Commanded s c 3 → w.state = .halted → s.stopsFor sel = false → w.needs = [] →
       (∀ h, w.hold = some h → h.phase = 200 →
         (s.stepSettled sel h.arg = true → Yields (.dbgStep c) s fun t => Answered s t c 0 ∧ t.warps.look sel = some { w with hold := none } ∧
           t = { s with dbg := t.dbg, warps := t.warps }) ∧
         (s.stepSettled sel h.arg = false → Yields (.dbgStep c) s fun t => t = s)) ∧
       (w.hold = none → w.batch = none → s.runnable sel true = [] → Yields (.dbgStep c) s fun t => Answered s t c 3 ∧ t = { s with dbg := t.dbg }) ∧
       (∀ l ls f, w.hold = none → w.batch = none → (s.selectBatch sel true).1 = l :: ls → s.fibres.look (fibreKey sel l) = some f → s.plants = [] →
         let begins := fun (t : State) => t.turn = .issue sel ∧ t.stepping = some c ∧ t.batchLanes sel = l :: ls ∧ t.dbg = s.dbg ∧ t.vRegs = s.vRegs ∧
           t.kRegs = s.kRegs ∧ t.hbm = s.hbm
         (f.pc ≠ f.hdr → Yields (.dbgStep c) s fun t => begins t ∧ (t.fibres.look (fibreKey sel l)).map Fibre.pc = some f.pc) ∧
         (∀ word, f.pc = f.hdr → s.fetch sel f.pc.toNat = .word word → headerOk word = true → w.meets word = true → s.breakHit sel f.pc.toNat = none →
           Yields (.dbgStep c) s fun t => begins t ∧
             (t.fibres.look (fibreKey sel l)).map (fun h => (h.pc, h.hdr, h.hword)) = some (f.pc + 8, f.hdr, BitVec.ofNat 64 word)) ∧
         (∀ word, f.pc = f.hdr → s.fetch sel f.pc.toNat = .word word → headerOk word = true → w.meets word = false →
           Yields (.dbgStep c) s fun t => Answered s t c 3 ∧ t.turn = s.turn ∧ t.stepping = s.stepping))))

/-- R303, R305, R297, R340, R343, R356: the write at the head of the register queue takes effect whole and is acknowledged. A trap record and a log of
refusals are cleared by any write; a format window's enable stands only if its checks pass, and its disabling drops its alias lines; a write to
XS_ERRINJ arms it only if its checks pass; XS_DBG takes a command; every other register takes its writable fields. It rests on the model's choices of
log 36 and 43. -/
def Obligations.RegisterWritesLand : Prop :=
  ∀ (s : State) (q : RegWrite) (rest : List RegWrite) (r : XReg) (first : Nat),
    let old := s.xval r q.sel
    let new := mergeWords old (32 * (q.word - first)) q.wide q.data
    let y := keepBits r.fields new
    s.regQueue = q :: rest → xregOf q.word = some (r, first) →
    (∀ p ∈ [(XKind.trapClear, Instr.traprecClear), (.logClear, .acclogClear), (.winEnable, .fmtwinEnable), (.winDisable, .fmtwinDisable), (.arm, .errinjArm),
      (.plain, .sysregWrite)], s.headKind ≠ some p.1 → Yields p.2 s fun t => t = s) ∧
    (r = .traprec → q.word = 0x010 → Yields .traprecClear s fun t => t.trapRec q.sel = TrapRec.zero ∧ (∀ j, j ≠ q.sel → t.trapRec j = s.trapRec j) ∧
      Acknowledged s t q rest ∧ t = { s with traps := t.traps, regQueue := t.regQueue, out := t.out }) ∧
    (r = .acclog → Yields .acclogClear s fun t => t.acclog.get 0 q.sel = 0 ∧ (∀ j, j ≠ q.sel → t.acclog.get 0 j = s.acclog.get 0 j) ∧
      Acknowledged s t q rest ∧ t = { s with acclog := t.acclog, regQueue := t.regQueue, out := t.out }) ∧
    (∀ n, r = .fmtwin n → old % 2 = 0 → new % 2 = 1 → Yields .fmtwinEnable s fun t =>
      (t.fmtwin.get 0 n).toNat = (if s.fmtOk n y = true then y else y - 1) ∧ (∀ m, m ≠ n → t.fmtwin.get 0 m = s.fmtwin.get 0 m) ∧
      Acknowledged s t q rest ∧ t = { s with fmtwin := t.fmtwin, regQueue := t.regQueue, out := t.out }) ∧
    (∀ n, r = .fmtwin n → q.sel = 0 → old % 2 = 1 → new % 2 = 0 → s.plants = [] → Yields .fmtwinDisable s fun t =>
      (t.fmtwin.get 0 n).toNat = old - 1 ∧ (∀ m, m ≠ n → t.fmtwin.get 0 m = s.fmtwin.get 0 m) ∧ Acknowledged s t q rest ∧
      (∀ line, (s.l2Line line).fmt = some n → (t.l2Line line).resident = false ∧ ∀ pa, pa / 256 = line → t.l2Bytes.look pa = none) ∧
      (∀ p ∈ t.remotes, ¬((aliasRange old).1 ≤ p.1 % 2 ^ 44 * 256 ∧ p.1 % 2 ^ 44 * 256 < (aliasRange old).1 + (aliasRange old).2)) ∧
      t.vRegs = s.vRegs ∧ t.kRegs = s.kRegs ∧ t.scratch = s.scratch) ∧
    (r = .errinj → q.sel < 4 →
     let arms := y / 2 ^ 127 % 2 = 1 ∧ injectOk q.sel y = true
     Yields .errinjArm s fun t =>
       (arms → (t.errinj.get 0 q.sel).toNat / 2 = y / 2) ∧ (¬arms → (t.errinj.get 0 q.sel).toNat = y % 2 ^ 127) ∧ Acknowledged s t q rest ∧
       (arms → Num.bits y 123 120 ≤ 8 →
         let here := s.wordPresent (Num.bits y 123 120) (injectLoc y)
         (∃ p ∈ t.plants, p.unit = Num.bits y 123 120 ∧ p.loc = injectLoc y ∧ p.bit = Num.bits y 45 40 ∧ p.die = q.sel ∧ p.present = here ∧
           p.double = decide (Num.bits y 119 116 = 1)) ∧ (t.errinj.get 0 q.sel).toNat % 2 = if here = true then 1 else 0) ∧
       t.hbm = s.hbm ∧ t.l2Bytes = s.l2Bytes) ∧
    (r = .slice ∨ r = .ptroot ∨ r = .vfsel ∨ r = .vfcfg ∨ (∃ n, r = .brkpt n) ∨ (∃ n, r = .vfmem n) ∨ (∃ m, r = .acctab m) →
     Yields .sysregWrite s fun t =>
       t.xval r q.sel = y ∧
       (∀ (word : Fin 4096) (p : XReg) (f j : Nat), xregOf word = some (p, f) → p.selOk j = true → r.selOk q.sel = true → (p, j) ≠ (r, q.sel) → p ≠ .status →
         t.xval p j = s.xval p j) ∧
       (r = .vfcfg → t.vfHost.get 0 q.sel = q.host) ∧ Acknowledged s t q rest ∧
       t = { s with
         slice := t.slice, ptroot := t.ptroot, vfsel := t.vfsel, vfcfg := t.vfcfg, vfHost := t.vfHost, brkpt := t.brkpt, vfmem := t.vfmem
         acctab := t.acctab, regQueue := t.regQueue, out := t.out }) ∧
    (r = .dbg → q.word = first → q.wide = 8 → q.sel < 192 →
     let cmd := q.data / 2 ^ 60 % 16
     (old / 2 ^ 59 % 2 = 1 → Yields .sysregWrite s fun t => t.dbg = s.dbg ∧ Acknowledged s t q rest) ∧
     (old / 2 ^ 59 % 2 = 0 → 1 ≤ cmd → cmd ≤ 6 → Yields .sysregWrite s fun t =>
       Commanded t q.sel cmd ∧ named t q.sel = q.sel * 32 + q.data / 2 ^ 51 % 32 ∧ Acknowledged s t q rest ∧
       t = { s with dbg := t.dbg, regQueue := t.regQueue, out := t.out }) ∧
     (old / 2 ^ 59 % 2 = 0 → 7 ≤ cmd → Yields .sysregWrite s fun t =>
       (t.dbg.get 0 q.sel).toNat / 2 ^ 56 % 16 = 5 ∧ Acknowledged s t q rest ∧ t = { s with dbg := t.dbg, regQueue := t.regQueue, out := t.out }))

/-- R367, R370, R290, R300, R303, R311, R346: what a host's packet does at a port that takes it: it reads a register or an expert entry, queues a
register write, writes an expert entry, reads, writes or updates memory at its home under the tables, or puts a record into a launch queue; whatever
is refused is turned away, and a refusal by a table is logged. It rests on the model's choices of log 62 and 63. -/
def Obligations.HostPackets : Prop :=
  ∀ (s : State) (host port : Nat),
    (∀ space word sel wide data die vf queue record, ∀ o : HostAccess, s.accepts port = false → o.port = port →
      ∀ i ∈ [Instr.managementRead host port space word sel, .managementWrite host port space word sel wide data, .hostMemoryAccess o,
        .hostLaunchEnqueue host port die vf queue record], Yields i s fun t => t = s) ∧
    (s.accepts port = true →
     (∀ word sel r first, xregOf word = some (r, first) →
       (r.selOk sel = true → Replies (.managementRead host port 0 word sel) s
         ⟨host, 16, [s.package, 0, word, sel, s.xval r sel / 2 ^ (32 * (word - first))]⟩) ∧
       (r.selOk sel = false → Replies (.managementRead host port 0 word sel) s ⟨host, 20, [s.package]⟩) ∧
       ∀ wide data f len, sysRegOf word = some (f, len) →
         (r.selOk sel = true → writeFits wide word first len = true → sysWordWritable word = true → Yields (.managementWrite host port 0 word sel wide data) s fun t =>
           t = { s with regQueue := s.regQueue ++ [⟨host, word, sel, wide, data⟩] }) ∧
         ((r.selOk sel && writeFits wide word first len && sysWordWritable word) = false →
           Replies (.managementWrite host port 0 word sel wide data) s ⟨host, 20, [s.package]⟩)) ∧
     (∀ sel, sel < 65536 →
       let x := s.experts.get Expert.zero sel
       let wrote := fun (t : State) word => (∀ j, j ≠ sel → t.experts.get Expert.zero j = s.experts.get Expert.zero j) ∧
         t = { s with experts := t.experts, out := s.out ++ [⟨host, 17, [s.package, word, sel]⟩] }
       (∀ word, word < 16 → Replies (.managementRead host port 1 word sel) s ⟨host, 16, [s.package, 1, word, sel, expertValue x / 2 ^ (32 * word)]⟩) ∧
       (∀ data, Yields (.managementWrite host port 1 0 sel 4 data) s fun t => wrote t 0 ∧
         let z := t.experts.get Expert.zero sel
         z.control = data % 16 ∧ z.vf = data / 2 ^ 8 % 64 ∧ z.overflow = x.overflow % 2 ^ 64 ∧ ∀ i < 4, z.replicas.getD i 0 = x.replicas.getD i 0 % 2 ^ 64) ∧
       (∀ data, ∀ i < 4, Yields (.managementWrite host port 1 (2 + 2 * i) sel 8 data) s fun t => wrote t (2 + 2 * i) ∧
         let z := t.experts.get Expert.zero sel
         z.control = x.control % 16 ∧ z.vf = x.vf % 64 ∧ z.overflow = x.overflow % 2 ^ 64 ∧
         ∀ j < 4, z.replicas.getD j 0 = if j = i then data % 2 ^ 64 else x.replicas.getD j 0 % 2 ^ 64)) ∧
     (∀ space word sel wide data, 2 ≤ space → Replies (.managementRead host port space word sel) s ⟨host, 20, [s.package]⟩ ∧
       Replies (.managementWrite host port space word sel wide data) s ⟨host, 20, [s.package]⟩) ∧
     (∀ o : HostAccess, o.port = port → hostOk o = true →
       let bad := if s.hostBad o then 1 else 0
       let old := s.homeNat o.addr o.size
       let new := bytesAt o.addr o.size (atomNew o.op o.ty old o.data o.compare)
       let here := ∀ pa ∈ hostHeads o, (s.ownDie pa).isSome = true ∧ populated pa = true
       (¬here → Replies (.hostMemoryAccess o) s ⟨o.host, 20, [s.package]⟩) ∧
       (∀ tgt pa, here → s.hostRefused o (o.kind ≠ 1) (o.kind ≠ 0) = some (tgt, pa) → Yields (.hostMemoryAccess o) s fun t =>
         ((s.acclog.get 0 tgt).toNat = 0 → (t.acclog.get 0 tgt).toNat / 2 ^ 31 % 2 = 1 ∧ (t.acclog.get 0 tgt).toNat % 2 ^ 9 = 406 ∧
           (t.acclog.get 0 tgt).toNat / 2 ^ 64 = pa) ∧
         (∀ j, j ≠ tgt → t.acclog.get 0 j = s.acclog.get 0 j) ∧ t = { s with acclog := t.acclog, out := s.out ++ [⟨o.host, 20, [s.package]⟩] }) ∧
       (here → s.hostRefused o (o.kind ≠ 1) (o.kind ≠ 0) = none → Quiet s → Served s (hostRange o) →
         (o.kind = 0 → Yields (.hostMemoryAccess o) s fun t => (∀ pa, t.homeByte pa = s.homeByte pa) ∧
           t.out = s.out ++ [⟨o.host, 18, [s.package, o.addr, bad] ++ (s.homeBytes o.addr o.size).map BitVec.toNat⟩]) ∧
         (o.kind = 1 → Yields (.hostMemoryAccess o) s fun t => PutHome s t (hostWritten o) ∧
           t = { homesOf s t with out := s.out ++ [⟨o.host, 18, [s.package, o.addr, 0]⟩] }) ∧
         (o.kind = 2 →
           (s.hostBad o = false → atomFails o.op old o.compare = false → Yields (.hostMemoryAccess o) s fun t => PutHome s t new ∧
             t.out = s.out ++ [⟨o.host, 18, [s.package, o.addr, 0, old]⟩]) ∧
           (s.hostBad o = true ∨ atomFails o.op old o.compare = true → Yields (.hostMemoryAccess o) s fun t => (∀ pa, t.homeByte pa = s.homeByte pa) ∧
             t.out = s.out ++ [⟨o.host, 18, [s.package, o.addr, bad, old]⟩])))) ∧
     (∀ die vf queue record, die < 4 → vf < 64 → queue < 16 → record.length = 256 →
       let k := queueKey die vf queue
       s.tableAllows (egressTarget (portDie port)) hostMaster vf true false = true →
       (8 ≤ (s.queueOf k).length → Replies (.hostLaunchEnqueue host port die vf queue record) s ⟨host, 19, [s.package, 2 * 2 ^ 28]⟩) ∧
       ((s.queueOf k).length < 8 → s.tableAllows (die * 64 + 52) hostMaster vf false true = false → Yields (.hostLaunchEnqueue host port die vf queue record) s fun t =>
         (∀ j, j ≠ die * 64 + 52 → t.acclog.get 0 j = s.acclog.get 0 j) ∧
         t = { s with acclog := t.acclog, out := s.out ++ [⟨host, 19, [s.package, 4 * 2 ^ 28]⟩] }) ∧
       ((s.queueOf k).length < 8 → s.tableAllows (die * 64 + 52) hostMaster vf false true = true → Yields (.hostLaunchEnqueue host port die vf queue record) s fun t =>
         (∃ r, t.queueOf k = s.queueOf k ++ [r] ∧ r.bytes = record.map (BitVec.ofNat 8) ∧ r.vf = vf ∧ r.host = host ∧ r.accepted = none ∧ r.fromHost = true ∧
           r.waited = (s.die die).queueClock ∧ r.age = 0) ∧
         (∀ j, j ≠ k → t.queueOf j = s.queueOf j) ∧ t = { s with queues := t.queues })))

/-! ### Expert copies, links, errors -/

/-- R245, R371, R372: a claim whose rows fit and whose row length is the descriptor's raises the claimed count at the home and is granted the old
count, another one overflows; a grant sends the rows and raises the load counter; after an overflow the untried replica of least load is tried, then
the overflow buffer; each row that lands moves the filled count past all rows written and lowers the load counter; the copy ends with its record. It
rests on the model's choices of log 5 and 41. -/
def Obligations.ExpertCopies : Prop :=
  ∀ (s : State) (id : Nat) (e : EngOp), s.engines.look id = some e →
    let d := e.descriptor
    let rows := fld e.block 2 2
    let len := fld e.block 4 4
    let key := e.loadKey
    let load := s.loadCounters.get 0 key
    let others := fun (t : State) => ∀ j, j ≠ id → t.engines.look j = s.engines.look j
    let next := fun (x : EngOp) =>
      let n := s.nextExpert x
      let control := x.note.getD 0 0
      let level := fun r => s.loadCounters.get 0 ((dieOf x.cluster * 65536 + fld x.block 0 2) * 4 + r)
      let open' := fun r => r ≤ control / 2 % 4 ∧ r ∉ x.tried
      (n < 4 → open' n ∧ ∀ r, open' r → level n < level r ∨ (level n = level r ∧ n ≤ r)) ∧
      (4 ≤ n → (∀ r, ¬open' r) ∧ (n = 4 ↔ control / 8 % 2 = 1 ∧ 4 ∉ x.tried) ∧ n ≤ 5)
    (∀ p ∈ [(EPhase.claiming, Instr.expertClaim id), (.overflowed, .overflowReply id)], e.phase ≠ p.1 → Yields p.2 s fun t => t = s) ∧
    (e.phase = .claiming → (s.ownDie d).isSome = true → s.memAllows (engineMaster e.cluster) e.vf d true true = true → Quiet s → d % 64 = 0 →
     WholeLine s (lineOf d) → s.hasPartials (lineOf d) = false → Ready s (d + 16) 4 →
     let claimed := s.homeNat (d + 16) 4
     let fits := claimed + rows ≤ s.homeNat (d + 12) 4 ∧ len = s.homeNat (d + 8) 4
     (fits → Yields (.expertClaim id) s fun t => PutHome s t (bytesAt (d + 16) 4 (claimed + rows)) ∧
       t.engines.look id = some { e with phase := .granted claimed } ∧ others t ∧ t = { homesOf s t with engines := t.engines }) ∧
     (¬fits → Yields (.expertClaim id) s fun t => t.engines.look id = some { e with phase := .overflowed } ∧ others t ∧ t = { s with engines := t.engines })) ∧
    (∀ first, e.phase = .granted first → Yields (.grant id) s fun t =>
      t.engines.look id = some { e with phase := .sending, window := first, parts := List.replicate rows ⟨0, 0⟩ } ∧ others t ∧
      (∀ k, t.loadCounters.get 0 k = if k = key ∧ e.target < 4 then load + rows else s.loadCounters.get 0 k) ∧
      t = { s with engines := t.engines, loadCounters := t.loadCounters }) ∧
    (e.phase = .overflowed →
     let x := { e with tried := e.target :: e.tried }
     next x ∧ Yields (.overflowReply id) s fun t =>
       t.engines.look id = some { x with target := s.nextExpert x, phase := if s.nextExpert x = 5 then .done else .claiming } ∧ others t ∧
       t = { s with engines := t.engines }) ∧
    (∀ row p g, e.phase = .sending → e.parts[row]? = some p → p.state = 0 → s.wgs.look e.wg = some g → (s.ownDie d).isSome = true → Quiet s →
     let pitch := if fld e.block 12 4 = 0 then len else fld e.block 12 4
     let off := fld e.block 8 4 + row * pitch
     let at' := s.homeNat d 8 + (e.window + row) * s.homeNat (d + 8) 4
     let done := (e.window + row) :: s.rowsWritten.get [] d
     let filled := filledFrom done (s.homeNat (d + 20) 4) done.length
     (∀ i < len, s.memAllows (engineMaster e.cluster) e.vf (at' + i) false true = true) → Ready s at' len → Ready s (d + 20) 4 →
     d % 64 = 0 → (at' + len ≤ d + 20 ∨ d + 24 ≤ at') → Yields (.filledAdvance id row) s fun t =>
       (∀ i < len, t.homeByte (at' + i) = s.scrGet g (off + i)) ∧ t.homeNat (d + 20) 4 = filled % 2 ^ 32 ∧
       (∀ a, (a < at' ∨ at' + len ≤ a) → (a < d + 20 ∨ d + 24 ≤ a) → t.homeByte a = s.homeByte a) ∧
       t.engines.look id = some { e with parts := e.parts.set row ⟨0, 1⟩ } ∧ others t ∧
       (∀ k, t.loadCounters.get 0 k = if k = key ∧ e.target < 4 then load - 1 else s.loadCounters.get 0 k) ∧ t.scratch = s.scratch ∧ t.vRegs = s.vRegs) ∧
    (∀ part g, e.opcode = 0x5A → Sys2Proof.Num.bit e.flags 0 = true → s.wgs.look e.wg = some g → g.phase ≠ .saved → s.plants = [] →
     e.phase = .done ∨ (e.phase = .sending ∧ ∀ p ∈ e.parts, p.state = 1) → Yields (.engineArrival id part) s fun t =>
       InBlock t g (fld e.block 16 4) 4 (e.target % 2 ^ 32) ∧ InBlock t g (fld e.block 16 4 + 4) 4 (if e.target = 5 then 0 else e.window % 2 ^ 32) ∧
       ScratchKept s t (fun k => ∃ i < 8, k = g.scrByte (fld e.block 16 4 + i)) ∧ OperationEnded s t id e false ∧ t.hbm = s.hbm ∧ t.l2Bytes = s.l2Bytes)

/-- R345, R357, R358, R365, R366: dropped packets are counted and logged; a dead link and a newer link-state update are flooded and start four drain
rounds; a round drops what has waited too long or has a dead hop, and an undelivered packet goes out again; a failed beat is resent; a lost die-to-die
link stops the package; an error that arises stands in its word, an uncorrectable one as poison. It rests on the model's choices of log 36 and 64. -/
def Obligations.LinksAndErrors : Prop :=
  ∀ (s : State) (port : Nat),
    let flooded := fun (t : State) data => (∀ k q, t.ports.look k = some q → q.trained = true → q.dead = false → (⟨k, 12, data⟩ : Out) ∈ t.out) ∧
      ∃ more, t.out = s.out ++ more ∧ ∀ m ∈ more, m.kind = 12 ∧ m.data = data
    (∀ kind,
     let taken := s.accepts port = true ∧ ((13 ≤ kind ∧ kind ≤ 255) ∨ (kind = 256 ∧ 18 ≤ port))
     (taken → Yields (.packetDrop port kind) s fun t => t.dropped = s.dropped + 1 ∧
       (∀ j, j ≠ egressTarget (portDie port) → t.acclog.get 0 j = s.acclog.get 0 j) ∧ t.acclog.get 0 (egressTarget (portDie port)) ≠ 0 ∧
       t = { s with dropped := t.dropped, acclog := t.acclog }) ∧
     (¬taken → Yields (.packetDrop port kind) s fun t => t = s)) ∧
    (∀ p, s.ports.look port = some p →
     let up := s.live = true ∧ p.trained = true ∧ p.dead = false
     (up → s.errinj = [] →
       (Yields (.linkDead port) s fun t => t.ports.look port = some { p with dead := true, stopped := false } ∧
         (∀ k, k ≠ port → t.ports.look k = s.ports.look k) ∧ t.linkNumber = s.linkNumber + 1 ∧
         t.linkSeen.get 0 (s.package * 64 + port) = s.linkNumber + 1 ∧ t.drain = some (1, s.fabricClock) ∧
         flooded t [s.package, port, s.linkNumber + 1] ∧
         t = { s with ports := t.ports, linkNumber := t.linkNumber, linkSeen := t.linkSeen, drain := t.drain, out := t.out }) ∧
       (Yields (.linkBeatError port) s fun t => t.ports.look port = some { p with resent := p.resent + 1 } ∧
         (∀ k, k ≠ port → t.ports.look k = s.ports.look k) ∧ t = { s with ports := t.ports })) ∧
     (¬up → (Yields (.linkDead port) s fun t => t = s) ∧ Yields (.linkBeatError port) s fun t => t = s)) ∧
    (∀ pkg link number,
     let k := pkg * 64 + link
     let newer := s.accepts port = true ∧ pkg < 4096 ∧ link < 64 ∧ number < 2 ^ 32 ∧ s.linkSeen.get 0 k < number
     (newer → Yields (.linkStateUpdate port pkg link number) s fun t => t.linkSeen.get 0 k = number ∧ (∀ j, j ≠ k → t.linkSeen.get 0 j = s.linkSeen.get 0 j) ∧
       flooded t [pkg, link, number] ∧ t.drain = some (1, s.fabricClock) ∧ t = { s with linkSeen := t.linkSeen, drain := t.drain, out := t.out }) ∧
     (¬newer → Yields (.linkStateUpdate port pkg link number) s fun t => t = s)) ∧
    (∀ k began, s.drain = some (k, began) →
     (s.fabricClock < began + 4096 → Yields .drainRound s fun t => t = s) ∧
     (began + 4096 ≤ s.fabricClock → Yields .drainRound s fun t => t.drain = (if k < 4 then some (k + 1, s.fabricClock) else none) ∧
       (∀ n p, s.packets.look n = some p → t.packets.look n = some
         (if k * 4096 < s.fabricClock - p.since ∨ (s.ports.look p.port).map Port.dead = some true then { p with queued := false } else p)) ∧
       t = { s with drain := t.drain, packets := t.packets })) ∧
    (s.drain = none → Yields .drainRound s fun t => t = s) ∧
    (∀ id p, s.packets.look id = some p →
     (p.queued = true → Yields (.undelivered id) s fun t => t = s) ∧
     (p.queued = false → Yields (.undelivered id) s fun t =>
       t.packets.look id = some { p with queued := true, port := s.route, since := s.fabricClock } ∧ (∀ j, j ≠ id → t.packets.look j = s.packets.look j) ∧
       t = { s with packets := t.packets })) ∧
    (∀ d e, d < 4 → e < 4 → d ≠ e → s.powered = true → Yields (.dieToDieLaneLoss d e) s fun t =>
      t.failed = true ∧ (∀ k p, s.ports.look k = some p → t.ports.look k = some { p with dead := true }) ∧ t = { s with failed := true, ports := t.ports }) ∧
    (∀ unit loc b, ∀ double : Bool, 1 ≤ unit → unit ≤ 8 → b ≤ 63 →
     let p : Plant := ⟨unit, loc, b, double, 4, true, 0⟩
     (unit = 4 → 2 ^ 40 ≤ loc → Yields (.storageError unit loc b double) s fun t =>
       (∀ k, t.kCell k = if k = loc - 2 ^ 40 ∧ double = true ∧ (s.kCell k).st = .full then { s.kCell k with st := .poisoned 0 } else s.kCell k) ∧
       t = { s with kRegs := t.kRegs }) ∧
     ((unit = 4 → loc < 2 ^ 40) → s.wordPresent unit loc = false → Yields (.storageError unit loc b double) s fun t => t = s) ∧
     ((unit = 4 → loc < 2 ^ 40) → s.wordPresent unit loc = true → Yields (.storageError unit loc b double) s fun t =>
       t.plants = p :: s.plants ∧ (double = false → t = { s with plants := t.plants }) ∧
       (double = true → unit = 4 → t.vCell loc = { s.vCell loc with st := .poisoned 0 }) ∧
       (double = true → unit = 5 → (t.scratchBad.look (loc / 8)).isSome = true) ∧ (double = true → unit = 6 → (t.accBad.look (loc / 2)).isSome = true) ∧
       (double = true → unit = 7 → (t.veneerBad.look (loc / 8)).isSome = true) ∧
       t = { s with
         plants := t.plants, versions := t.versions, vRegs := t.vRegs, scratchBad := t.scratchBad, accBad := t.accBad, veneerBad := t.veneerBad }))

/-! ### Bring-up, attestation, power -/

/-- R374 to R379: good power starts every die at stage 1 of a package in its reset state; each stage runs after the one before, loads the first image
that verifies or stops its die, measures it, and clears or resets what is its own; after stage 6 the package is live, its ports are up and its first
report is signed. A report requested is signed and counted. A governor sample governs every die by the core power of all; the clock of a hot die steps
down and up; a die that stays too hot takes the package down. It rests on the model's choices of log 19, 65, 66 and 67. -/
def Obligations.PowerAndBoot : Prop :=
  ∀ (s : State) (die : Nat),
    let p := s.attestPage
    let off : State := { State.reset with tick := s.tick, freeCount := s.freeCount, nextId := s.nextId, package := s.package, out := s.out }
    let otherDies := fun (t : State) => ∀ d, d ≠ die → t.die d = s.die d
    let loaded := fun (firmware : Nat) (t u : State) =>
      match (List.range 2).find? fun i => Config.imageOk die firmware i with
      | some i => (t.die die).stage = (s.die die).stage + 1 ∧ (t.die die).failed = false ∧
        t.measured.get 0 (die * 4 + firmware) = Config.digest die firmware i % 2 ^ 512 ∧
        (∀ k, k ≠ die * 4 + firmware → t.measured.get 0 k = s.measured.get 0 k) ∧ t = { u with dies := t.dies, measured := t.measured }
      | none => (t.die die).stage = (s.die die).stage ∧ (t.die die).failed = true ∧ t = { s with dies := t.dies }
    let signed := fun (t : State) =>
      let (n, sig) := Config.signature s.signing ((List.range 1128).map fun i => (if i < 8 then s.homeByte (p + i) else t.homeByte (p + i)).toNat)
      t.homeNat p 4 = (s.homeNat p 4 + 1) % 2 ^ 32 ∧ t.homeNat (p + 4) 4 = 0 ∧ (∀ i, 8 ≤ i → i < 40 → t.homeByte (p + i) = s.homeByte (p + i)) ∧
        t.homeNat (p + 1128) 2 = min n 1280 ∧ (∀ i < 1280, (t.homeByte (p + 1130 + i)).toNat = sig.getD i 0 % 256) ∧ t.signing = s.signing + 1
    (s.powered = true → s.failed = false → Yields .powerGood s fun t => t = s) ∧
    (s.powered = false ∨ s.failed = true → Yields .powerGood s fun t =>
      (∀ d < 4, t.die d = { Die.off with stage := 1 }) ∧ t = { off with powered := true, dies := t.dies }) ∧
    (∀ q ∈ [(1, Instr.bootStage1 die), (2, .bootStage2 die), (3, .bootStage3 die), (4, .bootStage4 die), (5, .bootStage5 die)],
      s.mayBoot die q.1 = false → Yields q.2 s fun t => t = s) ∧
    (s.mayBoot die 1 = true → Yields (.bootStage1 die) s fun t => loaded 0 t s ∧ otherDies t) ∧
    (s.mayBoot die 2 = true → Yields (.bootStage2 die) s fun t => otherDies t ∧
      loaded 1 t { s with hbm := t.hbm, memBad := t.memBad, plants := t.plants } ∧
      ((t.die die).failed = false → (∀ pa, s.ownDie pa = some die → t.hbm.get hbmFresh pa = 0) ∧
        ∀ pa, s.ownDie pa ≠ some die → t.hbm.get hbmFresh pa = s.hbm.get hbmFresh pa)) ∧
    (s.mayBoot die 3 = true → Yields (.bootStage3 die) s fun t => otherDies t ∧ t.die die = { s.die die with stage := 4 } ∧
      (∀ k, t.vCell k = if dieOf (k / 2 ^ 17) = die then Cell.zero else s.vCell k) ∧
      (∀ k, t.kCell k = if dieOf (k / 2 ^ 11) = die then Cell.zero else s.kCell k) ∧
      (∀ k, t.scratch.get 0 k = if dieOf (k / 2 ^ 21) = die then 0 else s.scratch.get 0 k) ∧
      (∀ k, t.acc.get 0 k = if dieOf (k / 2 ^ 16) = die then 0 else s.acc.get 0 k) ∧
      (∀ k, t.veneer.get 0 k = if dieOf (k / 2 ^ 24) = die then 0 else s.veneer.get 0 k) ∧
      (∀ pa, t.l2Bytes.look pa = if s.ownDie pa = some die then none else s.l2Bytes.look pa) ∧ t.hbm = s.hbm) ∧
    (s.mayBoot die 4 = true → Yields (.bootStage4 die) s fun t => loaded 2 t s ∧ otherDies t) ∧
    (s.mayBoot die 5 = true → Yields (.bootStage5 die) s fun t => otherDies t ∧ t.die die = { s.die die with stage := 6 } ∧
      (∀ c, dieOf c = die → t.vfsel.get 0 c = 0 ∧ t.dbg.get 0 c = 0 ∧ ∀ n < 16, t.brkpt.get 0 (c * 16 + n) = 0) ∧
      (∀ c, dieOf c ≠ die → t.vfsel.get 0 c = s.vfsel.get 0 c ∧ t.dbg.get 0 c = s.dbg.get 0 c) ∧
      (∀ sel, dieOf (clusterOf sel) = die → t.trapRec sel = TrapRec.zero) ∧ t.errinj.get 0 die = 0 ∧
      (∀ vf, t.slice.get 0 vf = 0 ∧ t.ptroot.get 0 vf = 0 ∧ t.vfcfg.get 0 vf = 0 ∧ t.vfmem.get 0 vf = 0 ∧ t.fmtwin.get 0 vf = 0) ∧
      (∀ target m, target / 64 = die → m < 512 → t.accEntry target m = acctabReset m ∧ t.acclog.get 0 target = 0) ∧ t.retired.get [] die = [] ∧
      t.hbm = s.hbm ∧ t.vRegs = s.vRegs) ∧
    ((∀ d < 4, s.mayBoot d 6 = true) → s.l2 = [] → s.l2Bytes = [] → s.plants = [] → Yields .bootStage6 s fun t =>
      t.live = true ∧ (∀ q < 50, t.ports.look q = some ⟨false, false, true, 0⟩) ∧ t.linkNumber = s.linkNumber + 1 ∧ signed t ∧
      (∀ i < 16, t.homeNat (p + 40 + 64 * i) 64 = (if i % 4 = 3 then Config.digest (i / 4) 3 0 else s.measured.get 0 i) % 2 ^ 512) ∧
      t.homeNat (p + 1064) 64 = Config.identity % 2 ^ 512) ∧
    ((∃ d < 4, s.mayBoot d 6 = false) → Yields .bootStage6 s fun t => t = s) ∧
    (s.live = false ∨ s.homeNat (p + 4) 4 ≠ 1 → Yields .attestSign s fun t => t = s) ∧
    (s.live = true → s.homeNat (p + 4) 4 = 1 → s.plants = [] → (∀ i < 16, (s.l2Line (p / 256 + i)).resident = true) → Yields .attestSign s fun t => signed t ∧
      ∀ i, 8 ≤ i → i < 1128 → t.homeByte (p + i) = s.homeByte (p + i)) ∧
    (let due := 1024 * (s.die die).sampled ≤ (s.cluster (die * 48)).cyc.toNat
     (s.live = false ∨ 4 ≤ die ∨ ¬due → Yields (.governorSample die) s fun t => t = s) ∧
     (s.live = true → die < 4 → due → Yields (.governorSample die) s fun t =>
       (∀ d < 4, (t.die d).sampled = (s.die d).sampled + (if d = die then 1 else 0) ∧
         (t.die d).governed = decide (3000 < ((List.range 4).map fun e => Config.corePower e (t.die e).sampled).foldl (· + ·) 0)) ∧
       (∀ d, { t.die d with sampled := 0, governed := false } = { s.die d with sampled := 0, governed := false }) ∧ t = { s with dies := t.dies })) ∧
    (∀ lower, s.powered = true → die < 4 → Yields (.thermalStep die lower) s fun t =>
      t.die die = { s.die die with clock := if lower = true then max 8 ((s.die die).clock - 1) else min 15 ((s.die die).clock + 1) } ∧ otherDies t ∧
      t = { s with dies := t.dies }) ∧
    (Yields (.thermalShutdown die) s fun t =>
      t = if s.powered = true ∧ die < 4 ∧ (s.die die).clock = 8 ∧ Config.overheated die s.tick = true then off else s)

/-! ### The step, the encoding, reset -/

/-- R128, R129, R142, R342: a warp whose turn it is, which may issue and meets no breakpoint, fetches 8 bytes where its batch's pc maps to: as they
stand, where they have not been written since its launch was accepted, and else as they stand or as they stood. An instruction that waits at its port
is not fetched again. Where the word decodes to an instruction, the step is that instruction executed by the warp, and then what follows an issue,
which leaves memory, scratchpad and accumulators alone; where it decodes to none, ILLEGAL_FIELD is raised. With no turn taken, the schedule chooses.
It rests on the model's choices of log 1 and 9. -/
def Obligations.StepRunsDecoded : Prop :=
  ∀ (s : State),
    (s.turn = .choose → step s = act (Config.choice s.tick) { s with tick := s.tick + 1 }) ∧
    ∀ sel w, s.turn = .issue sel → s.warps.look sel = some w → w.mayIssue s.stepping.isSome = true → (s.stopsFor sel = true → w.hold.isSome = true) → s.plants = [] →
      let pc := (s.position sel (s.lowest sel)).1.toNat
      (w.hold = none → s.breakHit sel pc = none) →
      (∀ leaf, w.fatalOf [pc / 4096] = none → pc < 2 ^ 48 → s.tlbLook (fibreTlb (clusterOf sel)) w.vf (pc / 4096) = some leaf →
        s.memAllows (clusterOf sel) w.vf (leaf.phys pc) true false = true → ∃ v, s.fetch sel pc = .word v ∧
          (v = s.homeNat (leaf.phys pc) 8 ∨ (w.launch, v) ∈ s.oldWords.get [] (leaf.phys pc / 8))) ∧
      ∀ x, (match w.hold with
          | some h => h.word = x
          | none => s.fetch sel pc = .word x.toNat) →
        let u := { s with actor := sel, word := x }
        (∀ i, decodeWord x = some i → step s = andThen (exec i u) (finish sel s)) ∧
        (decodeWord x = none → u.early sel (opcodeOf x.toNat) = none →
          step s = .next (finish sel s (u.takeTrap sel ⟨0x02, s.lowest sel, 0, 0, 0⟩))) ∧
        ∀ t, s.stepping = none → (finish sel s t).turn = .choose ∧ (finish sel s t).tick = s.tick + 1 ∧ (finish sel s t).hbm = t.hbm ∧
          (finish sel s t).l2Bytes = t.l2Bytes ∧ (finish sel s t).scratch = t.scratch ∧ (finish sel s t).acc = t.acc

/-- R123, R130 to R135, R140: words written out bit by bit from the field tables decode to the instructions they stand for, and a word with a reserved
bit set decodes to none. -/
def Obligations.WordsDecode : Prop :=
  headerOk 0xD81FFE0000000000 = true ∧
  decodeWord 0xC040000000000005 = some (.bra ⟨1, 5⟩) ∧
  decodeWord 0x65C4040000000003 = some (.movi ⟨7, .s32, .v 1, 3⟩) ∧
  decodeWord 0x41D4101400180001 = some (.fadd ⟨7, .f32, .v 4, ⟨.v 5, 0, 0, false⟩, ⟨.v 6, 0, 0, false⟩, true⟩) ∧
  decodeWord 0x81C810080A800010 = some (.ld ⟨7, .n32, .v 4, .v 2, false, .v 5, false, 2, 0, 0, 16⟩) ∧
  decodeWord 0xC040000100000005 = none

/-- R130 to R135, R140: the decoder gives back every well-formed instruction from the word that encodes it, whatever its operands, and reads no other
word as that instruction. -/
def Obligations.DecodeInvertsEncode : Prop :=
  ∀ i : Instr, i.wellFormed = true → ∀ w : DWord, decodeWord w = some i ↔ w = encode i

/-- R25, R290 to R302, R374: after reset nothing is powered, no warp, workgroup, launch or request stands, memory reads 0, every system register holds
0 but the access-table entries of master 406, which grant everything, and nothing happens until the rails are up. It rests on the model's choices of
log 3 and 4. -/
def Obligations.ResetValues : Prop :=
  let s := State.reset
  s.powered = false ∧ s.live = false ∧ s.warps = [] ∧ s.fibres = [] ∧ s.wgs = [] ∧ s.launches = [] ∧ s.engines = [] ∧ s.flights = [] ∧ s.out = [] ∧
    (∀ pa, s.homeByte pa = 0) ∧ (∀ key, s.vCell key = Cell.zero ∧ s.kCell key = Cell.zero) ∧ (∀ g off, s.scrGet g off = 0) ∧ Memory.wf s.hbm = true ∧
    (∀ r sel, (∀ m, r ≠ .acctab m) → s.xval r sel = 0) ∧
    (∀ target m rd wr vf, vf < 64 → s.tableAllows target m vf rd wr = (decide (m = 406) || (!rd && !wr))) ∧
    (∀ i, i ≠ .powerGood → act (.act i) s = .next s) ∧ ∀ sel, act (.issue sel) s = .next s

/-- R7, R374, R379: whatever a step does from a state in which memory stands in its canonical form, every die's clock between 0.8 and 1.5 GHz and its
boot stage at most 7, they stand so in the next state. It rests on the model's choices of log 4. -/
def Obligations.StepKeepsInvariant : Prop :=
  ∀ s t : State, step s = .next t → Memory.wf s.hbm = true → (∀ d, 8 ≤ (s.die d).clock ∧ (s.die d).clock ≤ 15 ∧ (s.die d).stage ≤ 7) →
    Memory.wf t.hbm = true ∧ ∀ d, 8 ≤ (t.die d).clock ∧ (t.die d).clock ≤ 15 ∧ (t.die d).stage ≤ 7
end

