-- ==== Sys2Proof/Laws/Tab.lean ====
section
/-! SUPPORT. The laws of the sparse tables: a read after a write, and the canonical form that every operation keeps. -/

namespace Sys2Proof

variable {β : Type}

@[simp] theorem Tab.look_nil (k : Nat) : Tab.look ([] : Tab β) k = none := rfl

theorem Tab.look_cons (k' : Nat) (v : β) (t : Tab β) (k : Nat) :
    Tab.look ((k', v) :: t) k = if k = k' then some v else Tab.look t k := rfl

@[simp] theorem Tab.look_put_same (t : Tab β) (k : Nat) (v : β) : (Tab.put t k v).look k = some v := by
  induction t with
  | nil => simp [Tab.put, Tab.look]
  | cons p t ih =>
    obtain ⟨k', v'⟩ := p
    unfold Tab.put
    split
    · simp [Tab.look]
    · split
      · simp [Tab.look]
      · simp [Tab.look, *]

theorem Tab.look_put_ne (t : Tab β) {k j : Nat} (v : β) (h : j ≠ k) : (Tab.put t k v).look j = t.look j := by
  induction t with
  | nil => simp [Tab.put, Tab.look, h]
  | cons p t ih =>
    obtain ⟨k', v'⟩ := p
    unfold Tab.put
    split
    · simp [Tab.look, h]
    · split
      · subst k'; simp [Tab.look, h]
      · simp [Tab.look, ih]

@[simp] theorem Tab.look_del_same (t : Tab β) (k : Nat) : (Tab.del t k).look k = none := by
  induction t with
  | nil => rfl
  | cons p t ih =>
    obtain ⟨k', v'⟩ := p
    unfold Tab.del
    split
    · exact ih
    · simp [Tab.look, *]

theorem Tab.look_del_ne (t : Tab β) {k j : Nat} (h : j ≠ k) : (Tab.del t k).look j = t.look j := by
  induction t with
  | nil => rfl
  | cons p t ih =>
    obtain ⟨k', v'⟩ := p
    unfold Tab.del
    split
    · subst k'; simp [Tab.look, h, ih]
    · simp [Tab.look, ih]

@[simp] theorem Tab.get_set_same [DecidableEq β] (t : Tab β) (d : β) (k : Nat) (v : β) : (Tab.set t d k v).get d k = v := by
  unfold Tab.set Tab.get
  split
  · simp [*]
  · simp

theorem Tab.get_set_ne [DecidableEq β] (t : Tab β) (d : β) {k j : Nat} (v : β) (h : j ≠ k) :
    (Tab.set t d k v).get d j = t.get d j := by
  unfold Tab.set Tab.get
  split
  · rw [Tab.look_del_ne t h]
  · rw [Tab.look_put_ne t v h]

/-- A read after a write of a table with a default. -/
theorem Tab.get_set [DecidableEq β] (t : Tab β) (d : β) (k j : Nat) (v : β) :
    (Tab.set t d k v).get d j = if j = k then v else t.get d j := by
  split
  · subst j; simp
  · exact Tab.get_set_ne t d v ‹_›

theorem Tab.look_modify (t : Tab β) (k j : Nat) (f : β → β) :
    (Tab.modify t k f).look j = if j = k then (t.look k).map f else t.look j := by
  induction t with
  | nil => simp [Tab.modify, Tab.look]
  | cons p t ih =>
    obtain ⟨k', v'⟩ := p
    unfold Tab.modify
    split
    · subst k'; by_cases h : j = k <;> simp [Tab.look, h]
    · by_cases h : j = k
      · subst j; simp_all [Tab.look]
      · simp [Tab.look, ih, h]

@[simp] theorem Tab.look_modify_same (t : Tab β) (k : Nat) (f : β → β) : (Tab.modify t k f).look k = (t.look k).map f := by
  simp [Tab.look_modify]

theorem Tab.look_modify_ne (t : Tab β) {k j : Nat} (f : β → β) (h : j ≠ k) : (Tab.modify t k f).look j = t.look j := by
  simp [Tab.look_modify, h]

theorem Tab.look_mapv (t : Tab β) (f : Nat → β → β) (k : Nat) : (Tab.mapv t f).look k = (t.look k).map (f k) := by
  induction t with
  | nil => rfl
  | cons p t ih =>
    obtain ⟨k', v'⟩ := p
    simp only [Tab.mapv, List.map_cons] at ih ⊢
    simp only [Tab.look]
    split
    · subst k'; rfl
    · exact ih

/-! ### The canonical form -/

theorem Tab.above_mono {lo lo' : Nat} (h : lo' ≤ lo) : ∀ (t : Tab β), Tab.above lo t = true → Tab.above lo' t = true
  | [], _ => rfl
  | (k, v) :: t, hk => by
    simp only [Tab.above, Bool.and_eq_true, decide_eq_true_eq] at hk ⊢
    exact ⟨by omega, hk.2⟩

theorem Tab.above_put {lo k : Nat} (v : β) (hl : lo ≤ k) : ∀ (t : Tab β), Tab.above lo t = true → Tab.above lo (Tab.put t k v) = true
  | [], _ => by simp [Tab.put, Tab.above, hl]
  | (k', v') :: t, h => by
    simp only [Tab.above, Bool.and_eq_true, decide_eq_true_eq] at h
    unfold Tab.put
    split
    · simp only [Tab.above, Bool.and_eq_true, decide_eq_true_eq]; exact ⟨hl, by omega, h.2⟩
    · split
      · subst k'; simp only [Tab.above, Bool.and_eq_true, decide_eq_true_eq]; exact ⟨hl, h.2⟩
      · simp only [Tab.above, Bool.and_eq_true, decide_eq_true_eq]
        exact ⟨h.1, Tab.above_put v (by omega) t h.2⟩

theorem Tab.above_del (k : Nat) : ∀ {lo : Nat} (t : Tab β), Tab.above lo t = true → Tab.above lo (Tab.del t k) = true
  | _, [], _ => rfl
  | lo, (k', v') :: t, h => by
    simp only [Tab.above, Bool.and_eq_true, decide_eq_true_eq] at h
    unfold Tab.del
    split
    · exact Tab.above_mono (by omega) _ (Tab.above_del k t h.2)
    · simp only [Tab.above, Bool.and_eq_true, decide_eq_true_eq]; exact ⟨h.1, Tab.above_del k t h.2⟩

theorem Tab.above_filter (f : Nat × β → Bool) : ∀ {lo : Nat} (t : Tab β), Tab.above lo t = true → Tab.above lo (t.filter f) = true
  | _, [], _ => rfl
  | lo, (k', v') :: t, h => by
    simp only [Tab.above, Bool.and_eq_true, decide_eq_true_eq] at h
    simp only [List.filter]
    split
    · simp only [Tab.above, Bool.and_eq_true, decide_eq_true_eq]; exact ⟨h.1, Tab.above_filter f t h.2⟩
    · exact Tab.above_mono (by omega) _ (Tab.above_filter f t h.2)

theorem Tab.mem_put {t : Tab β} {k : Nat} {v : β} {p : Nat × β} : p ∈ Tab.put t k v → p = (k, v) ∨ p ∈ t := by
  induction t with
  | nil => simp [Tab.put]
  | cons q t ih =>
    obtain ⟨k', v'⟩ := q
    unfold Tab.put
    split
    · simp
    · split
      · simp only [List.mem_cons]; intro h; exact h.elim .inl fun h => .inr (.inr h)
      · simp only [List.mem_cons]; intro h; rcases h with h | h
        · exact .inr (.inl h)
        · rcases ih h with h | h
          · exact .inl h
          · exact .inr (.inr h)

theorem Tab.mem_del {t : Tab β} {k : Nat} {p : Nat × β} : p ∈ Tab.del t k → p ∈ t := by
  induction t with
  | nil => simp [Tab.del]
  | cons q t ih =>
    obtain ⟨k', v'⟩ := q
    unfold Tab.del
    split
    · intro h; exact List.mem_cons_of_mem _ (ih h)
    · simp only [List.mem_cons]; intro h; rcases h with h | h
      · exact .inl h
      · exact .inr (ih h)

theorem Tab.canon_iff [DecidableEq β] (t : Tab β) (d : β) :
    Tab.canon t d = true ↔ Tab.above 0 t = true ∧ ∀ p ∈ t, p.2 ≠ d := by
  simp [Tab.canon, Tab.wf, List.all_eq_true]

/-- Storing a value keeps a table in its canonical form; the default is stored by removing the key. -/
theorem Tab.canon_set [DecidableEq β] {t : Tab β} {d : β} (h : Tab.canon t d = true) (k : Nat) (v : β) : Tab.canon (Tab.set t d k v) d = true := by
  rw [Tab.canon_iff] at h ⊢
  unfold Tab.set
  split
  · exact ⟨Tab.above_del k t h.1, fun p hp => h.2 p (Tab.mem_del hp)⟩
  · refine ⟨Tab.above_put v (Nat.zero_le _) t h.1, fun p hp => ?_⟩
    rcases Tab.mem_put hp with rfl | hp
    · assumption
    · exact h.2 p hp

/-- Removing entries keeps the canonical form. -/
theorem Tab.canon_filter [DecidableEq β] {t : Tab β} {d : β} (h : Tab.canon t d = true) (f : Nat × β → Bool) : Tab.canon (t.filter f) d = true := by
  rw [Tab.canon_iff] at h ⊢
  exact ⟨Tab.above_filter f t h.1, fun p hp => h.2 p (List.mem_filter.mp hp).1⟩

theorem Tab.canon_keep [DecidableEq β] {t : Tab β} {d : β} (h : Tab.canon t d = true) (f : Nat → β → Bool) : Tab.canon (Tab.keep t f) d = true :=
  Tab.canon_filter h _

/-- Storing a list of values keeps the canonical form. -/
theorem Tab.canon_fold [DecidableEq β] {d : β} (bs : List (Nat × β)) : ∀ {t : Tab β}, Tab.canon t d = true →
    Tab.canon (bs.foldl (fun (t : Tab β) (p : Nat × β) => t.set d p.1 p.2) t) d = true := by
  induction bs with
  | nil => exact fun h => h
  | cons p bs ih => exact fun h => ih (Tab.canon_set h _ _)

end Sys2Proof
end

