-- ==== Sys2Proof/Laws/State.lean ====
section
/-! SUPPORT. The laws of the state's updates: what each named update leaves in each field, and what the accessors read after it. -/

namespace Sys2Proof.Machine

/-! ### Field by field -/

@[simp] theorem State.modCluster_tick (s : State) (c : Nat) (f : Cluster → Cluster) : (s.modCluster c f).tick = s.tick := rfl
@[simp] theorem State.modCluster_freeCount (s : State) (c : Nat) (f : Cluster → Cluster) : (s.modCluster c f).freeCount = s.freeCount := rfl
@[simp] theorem State.modCluster_turn (s : State) (c : Nat) (f : Cluster → Cluster) : (s.modCluster c f).turn = s.turn := rfl
@[simp] theorem State.modCluster_actor (s : State) (c : Nat) (f : Cluster → Cluster) : (s.modCluster c f).actor = s.actor := rfl
@[simp] theorem State.modCluster_word (s : State) (c : Nat) (f : Cluster → Cluster) : (s.modCluster c f).word = s.word := rfl
@[simp] theorem State.modCluster_nextId (s : State) (c : Nat) (f : Cluster → Cluster) : (s.modCluster c f).nextId = s.nextId := rfl
@[simp] theorem State.modCluster_package (s : State) (c : Nat) (f : Cluster → Cluster) : (s.modCluster c f).package = s.package := rfl
@[simp] theorem State.modCluster_powered (s : State) (c : Nat) (f : Cluster → Cluster) : (s.modCluster c f).powered = s.powered := rfl
@[simp] theorem State.modCluster_failed (s : State) (c : Nat) (f : Cluster → Cluster) : (s.modCluster c f).failed = s.failed := rfl
@[simp] theorem State.modCluster_measured (s : State) (c : Nat) (f : Cluster → Cluster) : (s.modCluster c f).measured = s.measured := rfl
@[simp] theorem State.modCluster_dies (s : State) (c : Nat) (f : Cluster → Cluster) : (s.modCluster c f).dies = s.dies := rfl
@[simp] theorem State.modCluster_fabricClock (s : State) (c : Nat) (f : Cluster → Cluster) : (s.modCluster c f).fabricClock = s.fabricClock := rfl
@[simp] theorem State.modCluster_warps (s : State) (c : Nat) (f : Cluster → Cluster) : (s.modCluster c f).warps = s.warps := rfl
@[simp] theorem State.modCluster_fibres (s : State) (c : Nat) (f : Cluster → Cluster) : (s.modCluster c f).fibres = s.fibres := rfl
@[simp] theorem State.modCluster_vRegs (s : State) (c : Nat) (f : Cluster → Cluster) : (s.modCluster c f).vRegs = s.vRegs := rfl
@[simp] theorem State.modCluster_kRegs (s : State) (c : Nat) (f : Cluster → Cluster) : (s.modCluster c f).kRegs = s.kRegs := rfl
@[simp] theorem State.modCluster_traps (s : State) (c : Nat) (f : Cluster → Cluster) : (s.modCluster c f).traps = s.traps := rfl
@[simp] theorem State.modCluster_clusters (s : State) (c : Nat) (f : Cluster → Cluster) : (s.modCluster c f).clusters = s.clusters.set Cluster.reset c (f (s.cluster c)) := rfl
@[simp] theorem State.modCluster_groups (s : State) (c : Nat) (f : Cluster → Cluster) : (s.modCluster c f).groups = s.groups := rfl
@[simp] theorem State.modCluster_locks (s : State) (c : Nat) (f : Cluster → Cluster) : (s.modCluster c f).locks = s.locks := rfl
@[simp] theorem State.modCluster_scratch (s : State) (c : Nat) (f : Cluster → Cluster) : (s.modCluster c f).scratch = s.scratch := rfl
@[simp] theorem State.modCluster_scratchBad (s : State) (c : Nat) (f : Cluster → Cluster) : (s.modCluster c f).scratchBad = s.scratchBad := rfl
@[simp] theorem State.modCluster_acc (s : State) (c : Nat) (f : Cluster → Cluster) : (s.modCluster c f).acc = s.acc := rfl
@[simp] theorem State.modCluster_accBad (s : State) (c : Nat) (f : Cluster → Cluster) : (s.modCluster c f).accBad = s.accBad := rfl
@[simp] theorem State.modCluster_veneer (s : State) (c : Nat) (f : Cluster → Cluster) : (s.modCluster c f).veneer = s.veneer := rfl
@[simp] theorem State.modCluster_veneerBad (s : State) (c : Nat) (f : Cluster → Cluster) : (s.modCluster c f).veneerBad = s.veneerBad := rfl
@[simp] theorem State.modCluster_oldVeneer (s : State) (c : Nat) (f : Cluster → Cluster) : (s.modCluster c f).oldVeneer = s.oldVeneer := rfl
@[simp] theorem State.modCluster_tlbs (s : State) (c : Nat) (f : Cluster → Cluster) : (s.modCluster c f).tlbs = s.tlbs := rfl
@[simp] theorem State.modCluster_wgs (s : State) (c : Nat) (f : Cluster → Cluster) : (s.modCluster c f).wgs = s.wgs := rfl
@[simp] theorem State.modCluster_barriers (s : State) (c : Nat) (f : Cluster → Cluster) : (s.modCluster c f).barriers = s.barriers := rfl
@[simp] theorem State.modCluster_layouts (s : State) (c : Nat) (f : Cluster → Cluster) : (s.modCluster c f).layouts = s.layouts := rfl
@[simp] theorem State.modCluster_versions (s : State) (c : Nat) (f : Cluster → Cluster) : (s.modCluster c f).versions = s.versions := rfl
@[simp] theorem State.modCluster_regions (s : State) (c : Nat) (f : Cluster → Cluster) : (s.modCluster c f).regions = s.regions := rfl
@[simp] theorem State.modCluster_pairs (s : State) (c : Nat) (f : Cluster → Cluster) : (s.modCluster c f).pairs = s.pairs := rfl
@[simp] theorem State.modCluster_checks (s : State) (c : Nat) (f : Cluster → Cluster) : (s.modCluster c f).checks = s.checks := rfl
@[simp] theorem State.modCluster_shadowCap (s : State) (c : Nat) (f : Cluster → Cluster) : (s.modCluster c f).shadowCap = s.shadowCap := rfl
@[simp] theorem State.modCluster_loads (s : State) (c : Nat) (f : Cluster → Cluster) : (s.modCluster c f).loads = s.loads := rfl
@[simp] theorem State.modCluster_flights (s : State) (c : Nat) (f : Cluster → Cluster) : (s.modCluster c f).flights = s.flights := rfl
@[simp] theorem State.modCluster_stores (s : State) (c : Nat) (f : Cluster → Cluster) : (s.modCluster c f).stores = s.stores := rfl
@[simp] theorem State.modCluster_engines (s : State) (c : Nat) (f : Cluster → Cluster) : (s.modCluster c f).engines = s.engines := rfl
@[simp] theorem State.modCluster_walks (s : State) (c : Nat) (f : Cluster → Cluster) : (s.modCluster c f).walks = s.walks := rfl
@[simp] theorem State.modCluster_walkCache (s : State) (c : Nat) (f : Cluster → Cluster) : (s.modCluster c f).walkCache = s.walkCache := rfl
@[simp] theorem State.modCluster_hbm (s : State) (c : Nat) (f : Cluster → Cluster) : (s.modCluster c f).hbm = s.hbm := rfl
@[simp] theorem State.modCluster_oldWords (s : State) (c : Nat) (f : Cluster → Cluster) : (s.modCluster c f).oldWords = s.oldWords := rfl
@[simp] theorem State.modCluster_memBad (s : State) (c : Nat) (f : Cluster → Cluster) : (s.modCluster c f).memBad = s.memBad := rfl
@[simp] theorem State.modCluster_l2 (s : State) (c : Nat) (f : Cluster → Cluster) : (s.modCluster c f).l2 = s.l2 := rfl
@[simp] theorem State.modCluster_l2Bytes (s : State) (c : Nat) (f : Cluster → Cluster) : (s.modCluster c f).l2Bytes = s.l2Bytes := rfl
@[simp] theorem State.modCluster_remotes (s : State) (c : Nat) (f : Cluster → Cluster) : (s.modCluster c f).remotes = s.remotes := rfl
@[simp] theorem State.modCluster_remoteBytes (s : State) (c : Nat) (f : Cluster → Cluster) : (s.modCluster c f).remoteBytes = s.remoteBytes := rfl
@[simp] theorem State.modCluster_l1 (s : State) (c : Nat) (f : Cluster → Cluster) : (s.modCluster c f).l1 = s.l1 := rfl
@[simp] theorem State.modCluster_l1Bytes (s : State) (c : Nat) (f : Cluster → Cluster) : (s.modCluster c f).l1Bytes = s.l1Bytes := rfl
@[simp] theorem State.modCluster_l1Parts (s : State) (c : Nat) (f : Cluster → Cluster) : (s.modCluster c f).l1Parts = s.l1Parts := rfl
@[simp] theorem State.modCluster_l2Parts (s : State) (c : Nat) (f : Cluster → Cluster) : (s.modCluster c f).l2Parts = s.l2Parts := rfl
@[simp] theorem State.modCluster_sliceTs (s : State) (c : Nat) (f : Cluster → Cluster) : (s.modCluster c f).sliceTs = s.sliceTs := rfl
@[simp] theorem State.modCluster_retired (s : State) (c : Nat) (f : Cluster → Cluster) : (s.modCluster c f).retired = s.retired := rfl
@[simp] theorem State.modCluster_quarantine (s : State) (c : Nat) (f : Cluster → Cluster) : (s.modCluster c f).quarantine = s.quarantine := rfl
@[simp] theorem State.modCluster_plants (s : State) (c : Nat) (f : Cluster → Cluster) : (s.modCluster c f).plants = s.plants := rfl
@[simp] theorem State.modCluster_sems (s : State) (c : Nat) (f : Cluster → Cluster) : (s.modCluster c f).sems = s.sems := rfl
@[simp] theorem State.modCluster_streams (s : State) (c : Nat) (f : Cluster → Cluster) : (s.modCluster c f).streams = s.streams := rfl
@[simp] theorem State.modCluster_seqBase (s : State) (c : Nat) (f : Cluster → Cluster) : (s.modCluster c f).seqBase = s.seqBase := rfl
@[simp] theorem State.modCluster_countBase (s : State) (c : Nat) (f : Cluster → Cluster) : (s.modCluster c f).countBase = s.countBase := rfl
@[simp] theorem State.modCluster_migrations (s : State) (c : Nat) (f : Cluster → Cluster) : (s.modCluster c f).migrations = s.migrations := rfl
@[simp] theorem State.modCluster_arms (s : State) (c : Nat) (f : Cluster → Cluster) : (s.modCluster c f).arms = s.arms := rfl
@[simp] theorem State.modCluster_lostWindows (s : State) (c : Nat) (f : Cluster → Cluster) : (s.modCluster c f).lostWindows = s.lostWindows := rfl
@[simp] theorem State.modCluster_faults (s : State) (c : Nat) (f : Cluster → Cluster) : (s.modCluster c f).faults = s.faults := rfl
@[simp] theorem State.modCluster_vfsel (s : State) (c : Nat) (f : Cluster → Cluster) : (s.modCluster c f).vfsel = s.vfsel := rfl
@[simp] theorem State.modCluster_slice (s : State) (c : Nat) (f : Cluster → Cluster) : (s.modCluster c f).slice = s.slice := rfl
@[simp] theorem State.modCluster_ptroot (s : State) (c : Nat) (f : Cluster → Cluster) : (s.modCluster c f).ptroot = s.ptroot := rfl
@[simp] theorem State.modCluster_vfcfg (s : State) (c : Nat) (f : Cluster → Cluster) : (s.modCluster c f).vfcfg = s.vfcfg := rfl
@[simp] theorem State.modCluster_vfmem (s : State) (c : Nat) (f : Cluster → Cluster) : (s.modCluster c f).vfmem = s.vfmem := rfl
@[simp] theorem State.modCluster_fmtwin (s : State) (c : Nat) (f : Cluster → Cluster) : (s.modCluster c f).fmtwin = s.fmtwin := rfl
@[simp] theorem State.modCluster_errinj (s : State) (c : Nat) (f : Cluster → Cluster) : (s.modCluster c f).errinj = s.errinj := rfl
@[simp] theorem State.modCluster_acctab (s : State) (c : Nat) (f : Cluster → Cluster) : (s.modCluster c f).acctab = s.acctab := rfl
@[simp] theorem State.modCluster_acclog (s : State) (c : Nat) (f : Cluster → Cluster) : (s.modCluster c f).acclog = s.acclog := rfl
@[simp] theorem State.modCluster_brkpt (s : State) (c : Nat) (f : Cluster → Cluster) : (s.modCluster c f).brkpt = s.brkpt := rfl
@[simp] theorem State.modCluster_dbg (s : State) (c : Nat) (f : Cluster → Cluster) : (s.modCluster c f).dbg = s.dbg := rfl
@[simp] theorem State.modCluster_vfHost (s : State) (c : Nat) (f : Cluster → Cluster) : (s.modCluster c f).vfHost = s.vfHost := rfl
@[simp] theorem State.modCluster_regQueue (s : State) (c : Nat) (f : Cluster → Cluster) : (s.modCluster c f).regQueue = s.regQueue := rfl
@[simp] theorem State.modCluster_queues (s : State) (c : Nat) (f : Cluster → Cluster) : (s.modCluster c f).queues = s.queues := rfl
@[simp] theorem State.modCluster_lastQueues (s : State) (c : Nat) (f : Cluster → Cluster) : (s.modCluster c f).lastQueues = s.lastQueues := rfl
@[simp] theorem State.modCluster_launches (s : State) (c : Nat) (f : Cluster → Cluster) : (s.modCluster c f).launches = s.launches := rfl
@[simp] theorem State.modCluster_nextLaunch (s : State) (c : Nat) (f : Cluster → Cluster) : (s.modCluster c f).nextLaunch = s.nextLaunch := rfl
@[simp] theorem State.modCluster_issuedLaunches (s : State) (c : Nat) (f : Cluster → Cluster) : (s.modCluster c f).issuedLaunches = s.issuedLaunches := rfl
@[simp] theorem State.modCluster_ports (s : State) (c : Nat) (f : Cluster → Cluster) : (s.modCluster c f).ports = s.ports := rfl
@[simp] theorem State.modCluster_linkSeen (s : State) (c : Nat) (f : Cluster → Cluster) : (s.modCluster c f).linkSeen = s.linkSeen := rfl
@[simp] theorem State.modCluster_linkNumber (s : State) (c : Nat) (f : Cluster → Cluster) : (s.modCluster c f).linkNumber = s.linkNumber := rfl
@[simp] theorem State.modCluster_drain (s : State) (c : Nat) (f : Cluster → Cluster) : (s.modCluster c f).drain = s.drain := rfl
@[simp] theorem State.modCluster_packets (s : State) (c : Nat) (f : Cluster → Cluster) : (s.modCluster c f).packets = s.packets := rfl
@[simp] theorem State.modCluster_experts (s : State) (c : Nat) (f : Cluster → Cluster) : (s.modCluster c f).experts = s.experts := rfl
@[simp] theorem State.modCluster_loadCounters (s : State) (c : Nat) (f : Cluster → Cluster) : (s.modCluster c f).loadCounters = s.loadCounters := rfl
@[simp] theorem State.modCluster_rowsWritten (s : State) (c : Nat) (f : Cluster → Cluster) : (s.modCluster c f).rowsWritten = s.rowsWritten := rfl
@[simp] theorem State.modCluster_dropped (s : State) (c : Nat) (f : Cluster → Cluster) : (s.modCluster c f).dropped = s.dropped := rfl
@[simp] theorem State.modCluster_out (s : State) (c : Nat) (f : Cluster → Cluster) : (s.modCluster c f).out = s.out := rfl
@[simp] theorem State.modCluster_halts (s : State) (c : Nat) (f : Cluster → Cluster) : (s.modCluster c f).halts = s.halts := rfl
@[simp] theorem State.modCluster_stopDue (s : State) (c : Nat) (f : Cluster → Cluster) : (s.modCluster c f).stopDue = s.stopDue := rfl
@[simp] theorem State.modCluster_stepping (s : State) (c : Nat) (f : Cluster → Cluster) : (s.modCluster c f).stepping = s.stepping := rfl
@[simp] theorem State.modCluster_signing (s : State) (c : Nat) (f : Cluster → Cluster) : (s.modCluster c f).signing = s.signing := rfl

@[simp] theorem State.modDie_tick (s : State) (d : Nat) (f : Die → Die) : (s.modDie d f).tick = s.tick := rfl
@[simp] theorem State.modDie_freeCount (s : State) (d : Nat) (f : Die → Die) : (s.modDie d f).freeCount = s.freeCount := rfl
@[simp] theorem State.modDie_turn (s : State) (d : Nat) (f : Die → Die) : (s.modDie d f).turn = s.turn := rfl
@[simp] theorem State.modDie_actor (s : State) (d : Nat) (f : Die → Die) : (s.modDie d f).actor = s.actor := rfl
@[simp] theorem State.modDie_word (s : State) (d : Nat) (f : Die → Die) : (s.modDie d f).word = s.word := rfl
@[simp] theorem State.modDie_nextId (s : State) (d : Nat) (f : Die → Die) : (s.modDie d f).nextId = s.nextId := rfl
@[simp] theorem State.modDie_package (s : State) (d : Nat) (f : Die → Die) : (s.modDie d f).package = s.package := rfl
@[simp] theorem State.modDie_powered (s : State) (d : Nat) (f : Die → Die) : (s.modDie d f).powered = s.powered := rfl
@[simp] theorem State.modDie_failed (s : State) (d : Nat) (f : Die → Die) : (s.modDie d f).failed = s.failed := rfl
@[simp] theorem State.modDie_measured (s : State) (d : Nat) (f : Die → Die) : (s.modDie d f).measured = s.measured := rfl
@[simp] theorem State.modDie_dies (s : State) (d : Nat) (f : Die → Die) : (s.modDie d f).dies = s.dies.set Die.off d (f (s.die d)) := rfl
@[simp] theorem State.modDie_fabricClock (s : State) (d : Nat) (f : Die → Die) : (s.modDie d f).fabricClock = s.fabricClock := rfl
@[simp] theorem State.modDie_warps (s : State) (d : Nat) (f : Die → Die) : (s.modDie d f).warps = s.warps := rfl
@[simp] theorem State.modDie_fibres (s : State) (d : Nat) (f : Die → Die) : (s.modDie d f).fibres = s.fibres := rfl
@[simp] theorem State.modDie_vRegs (s : State) (d : Nat) (f : Die → Die) : (s.modDie d f).vRegs = s.vRegs := rfl
@[simp] theorem State.modDie_kRegs (s : State) (d : Nat) (f : Die → Die) : (s.modDie d f).kRegs = s.kRegs := rfl
@[simp] theorem State.modDie_traps (s : State) (d : Nat) (f : Die → Die) : (s.modDie d f).traps = s.traps := rfl
@[simp] theorem State.modDie_clusters (s : State) (d : Nat) (f : Die → Die) : (s.modDie d f).clusters = s.clusters := rfl
@[simp] theorem State.modDie_groups (s : State) (d : Nat) (f : Die → Die) : (s.modDie d f).groups = s.groups := rfl
@[simp] theorem State.modDie_locks (s : State) (d : Nat) (f : Die → Die) : (s.modDie d f).locks = s.locks := rfl
@[simp] theorem State.modDie_scratch (s : State) (d : Nat) (f : Die → Die) : (s.modDie d f).scratch = s.scratch := rfl
@[simp] theorem State.modDie_scratchBad (s : State) (d : Nat) (f : Die → Die) : (s.modDie d f).scratchBad = s.scratchBad := rfl
@[simp] theorem State.modDie_acc (s : State) (d : Nat) (f : Die → Die) : (s.modDie d f).acc = s.acc := rfl
@[simp] theorem State.modDie_accBad (s : State) (d : Nat) (f : Die → Die) : (s.modDie d f).accBad = s.accBad := rfl
@[simp] theorem State.modDie_veneer (s : State) (d : Nat) (f : Die → Die) : (s.modDie d f).veneer = s.veneer := rfl
@[simp] theorem State.modDie_veneerBad (s : State) (d : Nat) (f : Die → Die) : (s.modDie d f).veneerBad = s.veneerBad := rfl
@[simp] theorem State.modDie_oldVeneer (s : State) (d : Nat) (f : Die → Die) : (s.modDie d f).oldVeneer = s.oldVeneer := rfl
@[simp] theorem State.modDie_tlbs (s : State) (d : Nat) (f : Die → Die) : (s.modDie d f).tlbs = s.tlbs := rfl
@[simp] theorem State.modDie_wgs (s : State) (d : Nat) (f : Die → Die) : (s.modDie d f).wgs = s.wgs := rfl
@[simp] theorem State.modDie_barriers (s : State) (d : Nat) (f : Die → Die) : (s.modDie d f).barriers = s.barriers := rfl
@[simp] theorem State.modDie_layouts (s : State) (d : Nat) (f : Die → Die) : (s.modDie d f).layouts = s.layouts := rfl
@[simp] theorem State.modDie_versions (s : State) (d : Nat) (f : Die → Die) : (s.modDie d f).versions = s.versions := rfl
@[simp] theorem State.modDie_regions (s : State) (d : Nat) (f : Die → Die) : (s.modDie d f).regions = s.regions := rfl
@[simp] theorem State.modDie_pairs (s : State) (d : Nat) (f : Die → Die) : (s.modDie d f).pairs = s.pairs := rfl
@[simp] theorem State.modDie_checks (s : State) (d : Nat) (f : Die → Die) : (s.modDie d f).checks = s.checks := rfl
@[simp] theorem State.modDie_shadowCap (s : State) (d : Nat) (f : Die → Die) : (s.modDie d f).shadowCap = s.shadowCap := rfl
@[simp] theorem State.modDie_loads (s : State) (d : Nat) (f : Die → Die) : (s.modDie d f).loads = s.loads := rfl
@[simp] theorem State.modDie_flights (s : State) (d : Nat) (f : Die → Die) : (s.modDie d f).flights = s.flights := rfl
@[simp] theorem State.modDie_stores (s : State) (d : Nat) (f : Die → Die) : (s.modDie d f).stores = s.stores := rfl
@[simp] theorem State.modDie_engines (s : State) (d : Nat) (f : Die → Die) : (s.modDie d f).engines = s.engines := rfl
@[simp] theorem State.modDie_walks (s : State) (d : Nat) (f : Die → Die) : (s.modDie d f).walks = s.walks := rfl
@[simp] theorem State.modDie_walkCache (s : State) (d : Nat) (f : Die → Die) : (s.modDie d f).walkCache = s.walkCache := rfl
@[simp] theorem State.modDie_hbm (s : State) (d : Nat) (f : Die → Die) : (s.modDie d f).hbm = s.hbm := rfl
@[simp] theorem State.modDie_oldWords (s : State) (d : Nat) (f : Die → Die) : (s.modDie d f).oldWords = s.oldWords := rfl
@[simp] theorem State.modDie_memBad (s : State) (d : Nat) (f : Die → Die) : (s.modDie d f).memBad = s.memBad := rfl
@[simp] theorem State.modDie_l2 (s : State) (d : Nat) (f : Die → Die) : (s.modDie d f).l2 = s.l2 := rfl
@[simp] theorem State.modDie_l2Bytes (s : State) (d : Nat) (f : Die → Die) : (s.modDie d f).l2Bytes = s.l2Bytes := rfl
@[simp] theorem State.modDie_remotes (s : State) (d : Nat) (f : Die → Die) : (s.modDie d f).remotes = s.remotes := rfl
@[simp] theorem State.modDie_remoteBytes (s : State) (d : Nat) (f : Die → Die) : (s.modDie d f).remoteBytes = s.remoteBytes := rfl
@[simp] theorem State.modDie_l1 (s : State) (d : Nat) (f : Die → Die) : (s.modDie d f).l1 = s.l1 := rfl
@[simp] theorem State.modDie_l1Bytes (s : State) (d : Nat) (f : Die → Die) : (s.modDie d f).l1Bytes = s.l1Bytes := rfl
@[simp] theorem State.modDie_l1Parts (s : State) (d : Nat) (f : Die → Die) : (s.modDie d f).l1Parts = s.l1Parts := rfl
@[simp] theorem State.modDie_l2Parts (s : State) (d : Nat) (f : Die → Die) : (s.modDie d f).l2Parts = s.l2Parts := rfl
@[simp] theorem State.modDie_sliceTs (s : State) (d : Nat) (f : Die → Die) : (s.modDie d f).sliceTs = s.sliceTs := rfl
@[simp] theorem State.modDie_retired (s : State) (d : Nat) (f : Die → Die) : (s.modDie d f).retired = s.retired := rfl
@[simp] theorem State.modDie_quarantine (s : State) (d : Nat) (f : Die → Die) : (s.modDie d f).quarantine = s.quarantine := rfl
@[simp] theorem State.modDie_plants (s : State) (d : Nat) (f : Die → Die) : (s.modDie d f).plants = s.plants := rfl
@[simp] theorem State.modDie_sems (s : State) (d : Nat) (f : Die → Die) : (s.modDie d f).sems = s.sems := rfl
@[simp] theorem State.modDie_streams (s : State) (d : Nat) (f : Die → Die) : (s.modDie d f).streams = s.streams := rfl
@[simp] theorem State.modDie_seqBase (s : State) (d : Nat) (f : Die → Die) : (s.modDie d f).seqBase = s.seqBase := rfl
@[simp] theorem State.modDie_countBase (s : State) (d : Nat) (f : Die → Die) : (s.modDie d f).countBase = s.countBase := rfl
@[simp] theorem State.modDie_migrations (s : State) (d : Nat) (f : Die → Die) : (s.modDie d f).migrations = s.migrations := rfl
@[simp] theorem State.modDie_arms (s : State) (d : Nat) (f : Die → Die) : (s.modDie d f).arms = s.arms := rfl
@[simp] theorem State.modDie_lostWindows (s : State) (d : Nat) (f : Die → Die) : (s.modDie d f).lostWindows = s.lostWindows := rfl
@[simp] theorem State.modDie_faults (s : State) (d : Nat) (f : Die → Die) : (s.modDie d f).faults = s.faults := rfl
@[simp] theorem State.modDie_vfsel (s : State) (d : Nat) (f : Die → Die) : (s.modDie d f).vfsel = s.vfsel := rfl
@[simp] theorem State.modDie_slice (s : State) (d : Nat) (f : Die → Die) : (s.modDie d f).slice = s.slice := rfl
@[simp] theorem State.modDie_ptroot (s : State) (d : Nat) (f : Die → Die) : (s.modDie d f).ptroot = s.ptroot := rfl
@[simp] theorem State.modDie_vfcfg (s : State) (d : Nat) (f : Die → Die) : (s.modDie d f).vfcfg = s.vfcfg := rfl
@[simp] theorem State.modDie_vfmem (s : State) (d : Nat) (f : Die → Die) : (s.modDie d f).vfmem = s.vfmem := rfl
@[simp] theorem State.modDie_fmtwin (s : State) (d : Nat) (f : Die → Die) : (s.modDie d f).fmtwin = s.fmtwin := rfl
@[simp] theorem State.modDie_errinj (s : State) (d : Nat) (f : Die → Die) : (s.modDie d f).errinj = s.errinj := rfl
@[simp] theorem State.modDie_acctab (s : State) (d : Nat) (f : Die → Die) : (s.modDie d f).acctab = s.acctab := rfl
@[simp] theorem State.modDie_acclog (s : State) (d : Nat) (f : Die → Die) : (s.modDie d f).acclog = s.acclog := rfl
@[simp] theorem State.modDie_brkpt (s : State) (d : Nat) (f : Die → Die) : (s.modDie d f).brkpt = s.brkpt := rfl
@[simp] theorem State.modDie_dbg (s : State) (d : Nat) (f : Die → Die) : (s.modDie d f).dbg = s.dbg := rfl
@[simp] theorem State.modDie_vfHost (s : State) (d : Nat) (f : Die → Die) : (s.modDie d f).vfHost = s.vfHost := rfl
@[simp] theorem State.modDie_regQueue (s : State) (d : Nat) (f : Die → Die) : (s.modDie d f).regQueue = s.regQueue := rfl
@[simp] theorem State.modDie_queues (s : State) (d : Nat) (f : Die → Die) : (s.modDie d f).queues = s.queues := rfl
@[simp] theorem State.modDie_lastQueues (s : State) (d : Nat) (f : Die → Die) : (s.modDie d f).lastQueues = s.lastQueues := rfl
@[simp] theorem State.modDie_launches (s : State) (d : Nat) (f : Die → Die) : (s.modDie d f).launches = s.launches := rfl
@[simp] theorem State.modDie_nextLaunch (s : State) (d : Nat) (f : Die → Die) : (s.modDie d f).nextLaunch = s.nextLaunch := rfl
@[simp] theorem State.modDie_issuedLaunches (s : State) (d : Nat) (f : Die → Die) : (s.modDie d f).issuedLaunches = s.issuedLaunches := rfl
@[simp] theorem State.modDie_ports (s : State) (d : Nat) (f : Die → Die) : (s.modDie d f).ports = s.ports := rfl
@[simp] theorem State.modDie_linkSeen (s : State) (d : Nat) (f : Die → Die) : (s.modDie d f).linkSeen = s.linkSeen := rfl
@[simp] theorem State.modDie_linkNumber (s : State) (d : Nat) (f : Die → Die) : (s.modDie d f).linkNumber = s.linkNumber := rfl
@[simp] theorem State.modDie_drain (s : State) (d : Nat) (f : Die → Die) : (s.modDie d f).drain = s.drain := rfl
@[simp] theorem State.modDie_packets (s : State) (d : Nat) (f : Die → Die) : (s.modDie d f).packets = s.packets := rfl
@[simp] theorem State.modDie_experts (s : State) (d : Nat) (f : Die → Die) : (s.modDie d f).experts = s.experts := rfl
@[simp] theorem State.modDie_loadCounters (s : State) (d : Nat) (f : Die → Die) : (s.modDie d f).loadCounters = s.loadCounters := rfl
@[simp] theorem State.modDie_rowsWritten (s : State) (d : Nat) (f : Die → Die) : (s.modDie d f).rowsWritten = s.rowsWritten := rfl
@[simp] theorem State.modDie_dropped (s : State) (d : Nat) (f : Die → Die) : (s.modDie d f).dropped = s.dropped := rfl
@[simp] theorem State.modDie_out (s : State) (d : Nat) (f : Die → Die) : (s.modDie d f).out = s.out := rfl
@[simp] theorem State.modDie_halts (s : State) (d : Nat) (f : Die → Die) : (s.modDie d f).halts = s.halts := rfl
@[simp] theorem State.modDie_stopDue (s : State) (d : Nat) (f : Die → Die) : (s.modDie d f).stopDue = s.stopDue := rfl
@[simp] theorem State.modDie_stepping (s : State) (d : Nat) (f : Die → Die) : (s.modDie d f).stepping = s.stepping := rfl
@[simp] theorem State.modDie_signing (s : State) (d : Nat) (f : Die → Die) : (s.modDie d f).signing = s.signing := rfl

@[simp] theorem State.modWarp_tick (s : State) (sel : Nat) (f : Warp → Warp) : (s.modWarp sel f).tick = s.tick := rfl
@[simp] theorem State.modWarp_freeCount (s : State) (sel : Nat) (f : Warp → Warp) : (s.modWarp sel f).freeCount = s.freeCount := rfl
@[simp] theorem State.modWarp_turn (s : State) (sel : Nat) (f : Warp → Warp) : (s.modWarp sel f).turn = s.turn := rfl
@[simp] theorem State.modWarp_actor (s : State) (sel : Nat) (f : Warp → Warp) : (s.modWarp sel f).actor = s.actor := rfl
@[simp] theorem State.modWarp_word (s : State) (sel : Nat) (f : Warp → Warp) : (s.modWarp sel f).word = s.word := rfl
@[simp] theorem State.modWarp_nextId (s : State) (sel : Nat) (f : Warp → Warp) : (s.modWarp sel f).nextId = s.nextId := rfl
@[simp] theorem State.modWarp_package (s : State) (sel : Nat) (f : Warp → Warp) : (s.modWarp sel f).package = s.package := rfl
@[simp] theorem State.modWarp_powered (s : State) (sel : Nat) (f : Warp → Warp) : (s.modWarp sel f).powered = s.powered := rfl
@[simp] theorem State.modWarp_failed (s : State) (sel : Nat) (f : Warp → Warp) : (s.modWarp sel f).failed = s.failed := rfl
@[simp] theorem State.modWarp_measured (s : State) (sel : Nat) (f : Warp → Warp) : (s.modWarp sel f).measured = s.measured := rfl
@[simp] theorem State.modWarp_dies (s : State) (sel : Nat) (f : Warp → Warp) : (s.modWarp sel f).dies = s.dies := rfl
@[simp] theorem State.modWarp_fabricClock (s : State) (sel : Nat) (f : Warp → Warp) : (s.modWarp sel f).fabricClock = s.fabricClock := rfl
@[simp] theorem State.modWarp_warps (s : State) (sel : Nat) (f : Warp → Warp) : (s.modWarp sel f).warps = s.warps.modify sel f := rfl
@[simp] theorem State.modWarp_fibres (s : State) (sel : Nat) (f : Warp → Warp) : (s.modWarp sel f).fibres = s.fibres := rfl
@[simp] theorem State.modWarp_vRegs (s : State) (sel : Nat) (f : Warp → Warp) : (s.modWarp sel f).vRegs = s.vRegs := rfl
@[simp] theorem State.modWarp_kRegs (s : State) (sel : Nat) (f : Warp → Warp) : (s.modWarp sel f).kRegs = s.kRegs := rfl
@[simp] theorem State.modWarp_traps (s : State) (sel : Nat) (f : Warp → Warp) : (s.modWarp sel f).traps = s.traps := rfl
@[simp] theorem State.modWarp_clusters (s : State) (sel : Nat) (f : Warp → Warp) : (s.modWarp sel f).clusters = s.clusters := rfl
@[simp] theorem State.modWarp_groups (s : State) (sel : Nat) (f : Warp → Warp) : (s.modWarp sel f).groups = s.groups := rfl
@[simp] theorem State.modWarp_locks (s : State) (sel : Nat) (f : Warp → Warp) : (s.modWarp sel f).locks = s.locks := rfl
@[simp] theorem State.modWarp_scratch (s : State) (sel : Nat) (f : Warp → Warp) : (s.modWarp sel f).scratch = s.scratch := rfl
@[simp] theorem State.modWarp_scratchBad (s : State) (sel : Nat) (f : Warp → Warp) : (s.modWarp sel f).scratchBad = s.scratchBad := rfl
@[simp] theorem State.modWarp_acc (s : State) (sel : Nat) (f : Warp → Warp) : (s.modWarp sel f).acc = s.acc := rfl
@[simp] theorem State.modWarp_accBad (s : State) (sel : Nat) (f : Warp → Warp) : (s.modWarp sel f).accBad = s.accBad := rfl
@[simp] theorem State.modWarp_veneer (s : State) (sel : Nat) (f : Warp → Warp) : (s.modWarp sel f).veneer = s.veneer := rfl
@[simp] theorem State.modWarp_veneerBad (s : State) (sel : Nat) (f : Warp → Warp) : (s.modWarp sel f).veneerBad = s.veneerBad := rfl
@[simp] theorem State.modWarp_oldVeneer (s : State) (sel : Nat) (f : Warp → Warp) : (s.modWarp sel f).oldVeneer = s.oldVeneer := rfl
@[simp] theorem State.modWarp_tlbs (s : State) (sel : Nat) (f : Warp → Warp) : (s.modWarp sel f).tlbs = s.tlbs := rfl
@[simp] theorem State.modWarp_wgs (s : State) (sel : Nat) (f : Warp → Warp) : (s.modWarp sel f).wgs = s.wgs := rfl
@[simp] theorem State.modWarp_barriers (s : State) (sel : Nat) (f : Warp → Warp) : (s.modWarp sel f).barriers = s.barriers := rfl
@[simp] theorem State.modWarp_layouts (s : State) (sel : Nat) (f : Warp → Warp) : (s.modWarp sel f).layouts = s.layouts := rfl
@[simp] theorem State.modWarp_versions (s : State) (sel : Nat) (f : Warp → Warp) : (s.modWarp sel f).versions = s.versions := rfl
@[simp] theorem State.modWarp_regions (s : State) (sel : Nat) (f : Warp → Warp) : (s.modWarp sel f).regions = s.regions := rfl
@[simp] theorem State.modWarp_pairs (s : State) (sel : Nat) (f : Warp → Warp) : (s.modWarp sel f).pairs = s.pairs := rfl
@[simp] theorem State.modWarp_checks (s : State) (sel : Nat) (f : Warp → Warp) : (s.modWarp sel f).checks = s.checks := rfl
@[simp] theorem State.modWarp_shadowCap (s : State) (sel : Nat) (f : Warp → Warp) : (s.modWarp sel f).shadowCap = s.shadowCap := rfl
@[simp] theorem State.modWarp_loads (s : State) (sel : Nat) (f : Warp → Warp) : (s.modWarp sel f).loads = s.loads := rfl
@[simp] theorem State.modWarp_flights (s : State) (sel : Nat) (f : Warp → Warp) : (s.modWarp sel f).flights = s.flights := rfl
@[simp] theorem State.modWarp_stores (s : State) (sel : Nat) (f : Warp → Warp) : (s.modWarp sel f).stores = s.stores := rfl
@[simp] theorem State.modWarp_engines (s : State) (sel : Nat) (f : Warp → Warp) : (s.modWarp sel f).engines = s.engines := rfl
@[simp] theorem State.modWarp_walks (s : State) (sel : Nat) (f : Warp → Warp) : (s.modWarp sel f).walks = s.walks := rfl
@[simp] theorem State.modWarp_walkCache (s : State) (sel : Nat) (f : Warp → Warp) : (s.modWarp sel f).walkCache = s.walkCache := rfl
@[simp] theorem State.modWarp_hbm (s : State) (sel : Nat) (f : Warp → Warp) : (s.modWarp sel f).hbm = s.hbm := rfl
@[simp] theorem State.modWarp_oldWords (s : State) (sel : Nat) (f : Warp → Warp) : (s.modWarp sel f).oldWords = s.oldWords := rfl
@[simp] theorem State.modWarp_memBad (s : State) (sel : Nat) (f : Warp → Warp) : (s.modWarp sel f).memBad = s.memBad := rfl
@[simp] theorem State.modWarp_l2 (s : State) (sel : Nat) (f : Warp → Warp) : (s.modWarp sel f).l2 = s.l2 := rfl
@[simp] theorem State.modWarp_l2Bytes (s : State) (sel : Nat) (f : Warp → Warp) : (s.modWarp sel f).l2Bytes = s.l2Bytes := rfl
@[simp] theorem State.modWarp_remotes (s : State) (sel : Nat) (f : Warp → Warp) : (s.modWarp sel f).remotes = s.remotes := rfl
@[simp] theorem State.modWarp_remoteBytes (s : State) (sel : Nat) (f : Warp → Warp) : (s.modWarp sel f).remoteBytes = s.remoteBytes := rfl
@[simp] theorem State.modWarp_l1 (s : State) (sel : Nat) (f : Warp → Warp) : (s.modWarp sel f).l1 = s.l1 := rfl
@[simp] theorem State.modWarp_l1Bytes (s : State) (sel : Nat) (f : Warp → Warp) : (s.modWarp sel f).l1Bytes = s.l1Bytes := rfl
@[simp] theorem State.modWarp_l1Parts (s : State) (sel : Nat) (f : Warp → Warp) : (s.modWarp sel f).l1Parts = s.l1Parts := rfl
@[simp] theorem State.modWarp_l2Parts (s : State) (sel : Nat) (f : Warp → Warp) : (s.modWarp sel f).l2Parts = s.l2Parts := rfl
@[simp] theorem State.modWarp_sliceTs (s : State) (sel : Nat) (f : Warp → Warp) : (s.modWarp sel f).sliceTs = s.sliceTs := rfl
@[simp] theorem State.modWarp_retired (s : State) (sel : Nat) (f : Warp → Warp) : (s.modWarp sel f).retired = s.retired := rfl
@[simp] theorem State.modWarp_quarantine (s : State) (sel : Nat) (f : Warp → Warp) : (s.modWarp sel f).quarantine = s.quarantine := rfl
@[simp] theorem State.modWarp_plants (s : State) (sel : Nat) (f : Warp → Warp) : (s.modWarp sel f).plants = s.plants := rfl
@[simp] theorem State.modWarp_sems (s : State) (sel : Nat) (f : Warp → Warp) : (s.modWarp sel f).sems = s.sems := rfl
@[simp] theorem State.modWarp_streams (s : State) (sel : Nat) (f : Warp → Warp) : (s.modWarp sel f).streams = s.streams := rfl
@[simp] theorem State.modWarp_seqBase (s : State) (sel : Nat) (f : Warp → Warp) : (s.modWarp sel f).seqBase = s.seqBase := rfl
@[simp] theorem State.modWarp_countBase (s : State) (sel : Nat) (f : Warp → Warp) : (s.modWarp sel f).countBase = s.countBase := rfl
@[simp] theorem State.modWarp_migrations (s : State) (sel : Nat) (f : Warp → Warp) : (s.modWarp sel f).migrations = s.migrations := rfl
@[simp] theorem State.modWarp_arms (s : State) (sel : Nat) (f : Warp → Warp) : (s.modWarp sel f).arms = s.arms := rfl
@[simp] theorem State.modWarp_lostWindows (s : State) (sel : Nat) (f : Warp → Warp) : (s.modWarp sel f).lostWindows = s.lostWindows := rfl
@[simp] theorem State.modWarp_faults (s : State) (sel : Nat) (f : Warp → Warp) : (s.modWarp sel f).faults = s.faults := rfl
@[simp] theorem State.modWarp_vfsel (s : State) (sel : Nat) (f : Warp → Warp) : (s.modWarp sel f).vfsel = s.vfsel := rfl
@[simp] theorem State.modWarp_slice (s : State) (sel : Nat) (f : Warp → Warp) : (s.modWarp sel f).slice = s.slice := rfl
@[simp] theorem State.modWarp_ptroot (s : State) (sel : Nat) (f : Warp → Warp) : (s.modWarp sel f).ptroot = s.ptroot := rfl
@[simp] theorem State.modWarp_vfcfg (s : State) (sel : Nat) (f : Warp → Warp) : (s.modWarp sel f).vfcfg = s.vfcfg := rfl
@[simp] theorem State.modWarp_vfmem (s : State) (sel : Nat) (f : Warp → Warp) : (s.modWarp sel f).vfmem = s.vfmem := rfl
@[simp] theorem State.modWarp_fmtwin (s : State) (sel : Nat) (f : Warp → Warp) : (s.modWarp sel f).fmtwin = s.fmtwin := rfl
@[simp] theorem State.modWarp_errinj (s : State) (sel : Nat) (f : Warp → Warp) : (s.modWarp sel f).errinj = s.errinj := rfl
@[simp] theorem State.modWarp_acctab (s : State) (sel : Nat) (f : Warp → Warp) : (s.modWarp sel f).acctab = s.acctab := rfl
@[simp] theorem State.modWarp_acclog (s : State) (sel : Nat) (f : Warp → Warp) : (s.modWarp sel f).acclog = s.acclog := rfl
@[simp] theorem State.modWarp_brkpt (s : State) (sel : Nat) (f : Warp → Warp) : (s.modWarp sel f).brkpt = s.brkpt := rfl
@[simp] theorem State.modWarp_dbg (s : State) (sel : Nat) (f : Warp → Warp) : (s.modWarp sel f).dbg = s.dbg := rfl
@[simp] theorem State.modWarp_vfHost (s : State) (sel : Nat) (f : Warp → Warp) : (s.modWarp sel f).vfHost = s.vfHost := rfl
@[simp] theorem State.modWarp_regQueue (s : State) (sel : Nat) (f : Warp → Warp) : (s.modWarp sel f).regQueue = s.regQueue := rfl
@[simp] theorem State.modWarp_queues (s : State) (sel : Nat) (f : Warp → Warp) : (s.modWarp sel f).queues = s.queues := rfl
@[simp] theorem State.modWarp_lastQueues (s : State) (sel : Nat) (f : Warp → Warp) : (s.modWarp sel f).lastQueues = s.lastQueues := rfl
@[simp] theorem State.modWarp_launches (s : State) (sel : Nat) (f : Warp → Warp) : (s.modWarp sel f).launches = s.launches := rfl
@[simp] theorem State.modWarp_nextLaunch (s : State) (sel : Nat) (f : Warp → Warp) : (s.modWarp sel f).nextLaunch = s.nextLaunch := rfl
@[simp] theorem State.modWarp_issuedLaunches (s : State) (sel : Nat) (f : Warp → Warp) : (s.modWarp sel f).issuedLaunches = s.issuedLaunches := rfl
@[simp] theorem State.modWarp_ports (s : State) (sel : Nat) (f : Warp → Warp) : (s.modWarp sel f).ports = s.ports := rfl
@[simp] theorem State.modWarp_linkSeen (s : State) (sel : Nat) (f : Warp → Warp) : (s.modWarp sel f).linkSeen = s.linkSeen := rfl
@[simp] theorem State.modWarp_linkNumber (s : State) (sel : Nat) (f : Warp → Warp) : (s.modWarp sel f).linkNumber = s.linkNumber := rfl
@[simp] theorem State.modWarp_drain (s : State) (sel : Nat) (f : Warp → Warp) : (s.modWarp sel f).drain = s.drain := rfl
@[simp] theorem State.modWarp_packets (s : State) (sel : Nat) (f : Warp → Warp) : (s.modWarp sel f).packets = s.packets := rfl
@[simp] theorem State.modWarp_experts (s : State) (sel : Nat) (f : Warp → Warp) : (s.modWarp sel f).experts = s.experts := rfl
@[simp] theorem State.modWarp_loadCounters (s : State) (sel : Nat) (f : Warp → Warp) : (s.modWarp sel f).loadCounters = s.loadCounters := rfl
@[simp] theorem State.modWarp_rowsWritten (s : State) (sel : Nat) (f : Warp → Warp) : (s.modWarp sel f).rowsWritten = s.rowsWritten := rfl
@[simp] theorem State.modWarp_dropped (s : State) (sel : Nat) (f : Warp → Warp) : (s.modWarp sel f).dropped = s.dropped := rfl
@[simp] theorem State.modWarp_out (s : State) (sel : Nat) (f : Warp → Warp) : (s.modWarp sel f).out = s.out := rfl
@[simp] theorem State.modWarp_halts (s : State) (sel : Nat) (f : Warp → Warp) : (s.modWarp sel f).halts = s.halts := rfl
@[simp] theorem State.modWarp_stopDue (s : State) (sel : Nat) (f : Warp → Warp) : (s.modWarp sel f).stopDue = s.stopDue := rfl
@[simp] theorem State.modWarp_stepping (s : State) (sel : Nat) (f : Warp → Warp) : (s.modWarp sel f).stepping = s.stepping := rfl
@[simp] theorem State.modWarp_signing (s : State) (sel : Nat) (f : Warp → Warp) : (s.modWarp sel f).signing = s.signing := rfl

@[simp] theorem State.modFibre_tick (s : State) (fib : Nat) (f : Fibre → Fibre) : (s.modFibre fib f).tick = s.tick := rfl
@[simp] theorem State.modFibre_freeCount (s : State) (fib : Nat) (f : Fibre → Fibre) : (s.modFibre fib f).freeCount = s.freeCount := rfl
@[simp] theorem State.modFibre_turn (s : State) (fib : Nat) (f : Fibre → Fibre) : (s.modFibre fib f).turn = s.turn := rfl
@[simp] theorem State.modFibre_actor (s : State) (fib : Nat) (f : Fibre → Fibre) : (s.modFibre fib f).actor = s.actor := rfl
@[simp] theorem State.modFibre_word (s : State) (fib : Nat) (f : Fibre → Fibre) : (s.modFibre fib f).word = s.word := rfl
@[simp] theorem State.modFibre_nextId (s : State) (fib : Nat) (f : Fibre → Fibre) : (s.modFibre fib f).nextId = s.nextId := rfl
@[simp] theorem State.modFibre_package (s : State) (fib : Nat) (f : Fibre → Fibre) : (s.modFibre fib f).package = s.package := rfl
@[simp] theorem State.modFibre_powered (s : State) (fib : Nat) (f : Fibre → Fibre) : (s.modFibre fib f).powered = s.powered := rfl
@[simp] theorem State.modFibre_failed (s : State) (fib : Nat) (f : Fibre → Fibre) : (s.modFibre fib f).failed = s.failed := rfl
@[simp] theorem State.modFibre_measured (s : State) (fib : Nat) (f : Fibre → Fibre) : (s.modFibre fib f).measured = s.measured := rfl
@[simp] theorem State.modFibre_dies (s : State) (fib : Nat) (f : Fibre → Fibre) : (s.modFibre fib f).dies = s.dies := rfl
@[simp] theorem State.modFibre_fabricClock (s : State) (fib : Nat) (f : Fibre → Fibre) : (s.modFibre fib f).fabricClock = s.fabricClock := rfl
@[simp] theorem State.modFibre_warps (s : State) (fib : Nat) (f : Fibre → Fibre) : (s.modFibre fib f).warps = s.warps := rfl
@[simp] theorem State.modFibre_fibres (s : State) (fib : Nat) (f : Fibre → Fibre) : (s.modFibre fib f).fibres = s.fibres.modify fib f := rfl
@[simp] theorem State.modFibre_vRegs (s : State) (fib : Nat) (f : Fibre → Fibre) : (s.modFibre fib f).vRegs = s.vRegs := rfl
@[simp] theorem State.modFibre_kRegs (s : State) (fib : Nat) (f : Fibre → Fibre) : (s.modFibre fib f).kRegs = s.kRegs := rfl
@[simp] theorem State.modFibre_traps (s : State) (fib : Nat) (f : Fibre → Fibre) : (s.modFibre fib f).traps = s.traps := rfl
@[simp] theorem State.modFibre_clusters (s : State) (fib : Nat) (f : Fibre → Fibre) : (s.modFibre fib f).clusters = s.clusters := rfl
@[simp] theorem State.modFibre_groups (s : State) (fib : Nat) (f : Fibre → Fibre) : (s.modFibre fib f).groups = s.groups := rfl
@[simp] theorem State.modFibre_locks (s : State) (fib : Nat) (f : Fibre → Fibre) : (s.modFibre fib f).locks = s.locks := rfl
@[simp] theorem State.modFibre_scratch (s : State) (fib : Nat) (f : Fibre → Fibre) : (s.modFibre fib f).scratch = s.scratch := rfl
@[simp] theorem State.modFibre_scratchBad (s : State) (fib : Nat) (f : Fibre → Fibre) : (s.modFibre fib f).scratchBad = s.scratchBad := rfl
@[simp] theorem State.modFibre_acc (s : State) (fib : Nat) (f : Fibre → Fibre) : (s.modFibre fib f).acc = s.acc := rfl
@[simp] theorem State.modFibre_accBad (s : State) (fib : Nat) (f : Fibre → Fibre) : (s.modFibre fib f).accBad = s.accBad := rfl
@[simp] theorem State.modFibre_veneer (s : State) (fib : Nat) (f : Fibre → Fibre) : (s.modFibre fib f).veneer = s.veneer := rfl
@[simp] theorem State.modFibre_veneerBad (s : State) (fib : Nat) (f : Fibre → Fibre) : (s.modFibre fib f).veneerBad = s.veneerBad := rfl
@[simp] theorem State.modFibre_oldVeneer (s : State) (fib : Nat) (f : Fibre → Fibre) : (s.modFibre fib f).oldVeneer = s.oldVeneer := rfl
@[simp] theorem State.modFibre_tlbs (s : State) (fib : Nat) (f : Fibre → Fibre) : (s.modFibre fib f).tlbs = s.tlbs := rfl
@[simp] theorem State.modFibre_wgs (s : State) (fib : Nat) (f : Fibre → Fibre) : (s.modFibre fib f).wgs = s.wgs := rfl
@[simp] theorem State.modFibre_barriers (s : State) (fib : Nat) (f : Fibre → Fibre) : (s.modFibre fib f).barriers = s.barriers := rfl
@[simp] theorem State.modFibre_layouts (s : State) (fib : Nat) (f : Fibre → Fibre) : (s.modFibre fib f).layouts = s.layouts := rfl
@[simp] theorem State.modFibre_versions (s : State) (fib : Nat) (f : Fibre → Fibre) : (s.modFibre fib f).versions = s.versions := rfl
@[simp] theorem State.modFibre_regions (s : State) (fib : Nat) (f : Fibre → Fibre) : (s.modFibre fib f).regions = s.regions := rfl
@[simp] theorem State.modFibre_pairs (s : State) (fib : Nat) (f : Fibre → Fibre) : (s.modFibre fib f).pairs = s.pairs := rfl
@[simp] theorem State.modFibre_checks (s : State) (fib : Nat) (f : Fibre → Fibre) : (s.modFibre fib f).checks = s.checks := rfl
@[simp] theorem State.modFibre_shadowCap (s : State) (fib : Nat) (f : Fibre → Fibre) : (s.modFibre fib f).shadowCap = s.shadowCap := rfl
@[simp] theorem State.modFibre_loads (s : State) (fib : Nat) (f : Fibre → Fibre) : (s.modFibre fib f).loads = s.loads := rfl
@[simp] theorem State.modFibre_flights (s : State) (fib : Nat) (f : Fibre → Fibre) : (s.modFibre fib f).flights = s.flights := rfl
@[simp] theorem State.modFibre_stores (s : State) (fib : Nat) (f : Fibre → Fibre) : (s.modFibre fib f).stores = s.stores := rfl
@[simp] theorem State.modFibre_engines (s : State) (fib : Nat) (f : Fibre → Fibre) : (s.modFibre fib f).engines = s.engines := rfl
@[simp] theorem State.modFibre_walks (s : State) (fib : Nat) (f : Fibre → Fibre) : (s.modFibre fib f).walks = s.walks := rfl
@[simp] theorem State.modFibre_walkCache (s : State) (fib : Nat) (f : Fibre → Fibre) : (s.modFibre fib f).walkCache = s.walkCache := rfl
@[simp] theorem State.modFibre_hbm (s : State) (fib : Nat) (f : Fibre → Fibre) : (s.modFibre fib f).hbm = s.hbm := rfl
@[simp] theorem State.modFibre_oldWords (s : State) (fib : Nat) (f : Fibre → Fibre) : (s.modFibre fib f).oldWords = s.oldWords := rfl
@[simp] theorem State.modFibre_memBad (s : State) (fib : Nat) (f : Fibre → Fibre) : (s.modFibre fib f).memBad = s.memBad := rfl
@[simp] theorem State.modFibre_l2 (s : State) (fib : Nat) (f : Fibre → Fibre) : (s.modFibre fib f).l2 = s.l2 := rfl
@[simp] theorem State.modFibre_l2Bytes (s : State) (fib : Nat) (f : Fibre → Fibre) : (s.modFibre fib f).l2Bytes = s.l2Bytes := rfl
@[simp] theorem State.modFibre_remotes (s : State) (fib : Nat) (f : Fibre → Fibre) : (s.modFibre fib f).remotes = s.remotes := rfl
@[simp] theorem State.modFibre_remoteBytes (s : State) (fib : Nat) (f : Fibre → Fibre) : (s.modFibre fib f).remoteBytes = s.remoteBytes := rfl
@[simp] theorem State.modFibre_l1 (s : State) (fib : Nat) (f : Fibre → Fibre) : (s.modFibre fib f).l1 = s.l1 := rfl
@[simp] theorem State.modFibre_l1Bytes (s : State) (fib : Nat) (f : Fibre → Fibre) : (s.modFibre fib f).l1Bytes = s.l1Bytes := rfl
@[simp] theorem State.modFibre_l1Parts (s : State) (fib : Nat) (f : Fibre → Fibre) : (s.modFibre fib f).l1Parts = s.l1Parts := rfl
@[simp] theorem State.modFibre_l2Parts (s : State) (fib : Nat) (f : Fibre → Fibre) : (s.modFibre fib f).l2Parts = s.l2Parts := rfl
@[simp] theorem State.modFibre_sliceTs (s : State) (fib : Nat) (f : Fibre → Fibre) : (s.modFibre fib f).sliceTs = s.sliceTs := rfl
@[simp] theorem State.modFibre_retired (s : State) (fib : Nat) (f : Fibre → Fibre) : (s.modFibre fib f).retired = s.retired := rfl
@[simp] theorem State.modFibre_quarantine (s : State) (fib : Nat) (f : Fibre → Fibre) : (s.modFibre fib f).quarantine = s.quarantine := rfl
@[simp] theorem State.modFibre_plants (s : State) (fib : Nat) (f : Fibre → Fibre) : (s.modFibre fib f).plants = s.plants := rfl
@[simp] theorem State.modFibre_sems (s : State) (fib : Nat) (f : Fibre → Fibre) : (s.modFibre fib f).sems = s.sems := rfl
@[simp] theorem State.modFibre_streams (s : State) (fib : Nat) (f : Fibre → Fibre) : (s.modFibre fib f).streams = s.streams := rfl
@[simp] theorem State.modFibre_seqBase (s : State) (fib : Nat) (f : Fibre → Fibre) : (s.modFibre fib f).seqBase = s.seqBase := rfl
@[simp] theorem State.modFibre_countBase (s : State) (fib : Nat) (f : Fibre → Fibre) : (s.modFibre fib f).countBase = s.countBase := rfl
@[simp] theorem State.modFibre_migrations (s : State) (fib : Nat) (f : Fibre → Fibre) : (s.modFibre fib f).migrations = s.migrations := rfl
@[simp] theorem State.modFibre_arms (s : State) (fib : Nat) (f : Fibre → Fibre) : (s.modFibre fib f).arms = s.arms := rfl
@[simp] theorem State.modFibre_lostWindows (s : State) (fib : Nat) (f : Fibre → Fibre) : (s.modFibre fib f).lostWindows = s.lostWindows := rfl
@[simp] theorem State.modFibre_faults (s : State) (fib : Nat) (f : Fibre → Fibre) : (s.modFibre fib f).faults = s.faults := rfl
@[simp] theorem State.modFibre_vfsel (s : State) (fib : Nat) (f : Fibre → Fibre) : (s.modFibre fib f).vfsel = s.vfsel := rfl
@[simp] theorem State.modFibre_slice (s : State) (fib : Nat) (f : Fibre → Fibre) : (s.modFibre fib f).slice = s.slice := rfl
@[simp] theorem State.modFibre_ptroot (s : State) (fib : Nat) (f : Fibre → Fibre) : (s.modFibre fib f).ptroot = s.ptroot := rfl
@[simp] theorem State.modFibre_vfcfg (s : State) (fib : Nat) (f : Fibre → Fibre) : (s.modFibre fib f).vfcfg = s.vfcfg := rfl
@[simp] theorem State.modFibre_vfmem (s : State) (fib : Nat) (f : Fibre → Fibre) : (s.modFibre fib f).vfmem = s.vfmem := rfl
@[simp] theorem State.modFibre_fmtwin (s : State) (fib : Nat) (f : Fibre → Fibre) : (s.modFibre fib f).fmtwin = s.fmtwin := rfl
@[simp] theorem State.modFibre_errinj (s : State) (fib : Nat) (f : Fibre → Fibre) : (s.modFibre fib f).errinj = s.errinj := rfl
@[simp] theorem State.modFibre_acctab (s : State) (fib : Nat) (f : Fibre → Fibre) : (s.modFibre fib f).acctab = s.acctab := rfl
@[simp] theorem State.modFibre_acclog (s : State) (fib : Nat) (f : Fibre → Fibre) : (s.modFibre fib f).acclog = s.acclog := rfl
@[simp] theorem State.modFibre_brkpt (s : State) (fib : Nat) (f : Fibre → Fibre) : (s.modFibre fib f).brkpt = s.brkpt := rfl
@[simp] theorem State.modFibre_dbg (s : State) (fib : Nat) (f : Fibre → Fibre) : (s.modFibre fib f).dbg = s.dbg := rfl
@[simp] theorem State.modFibre_vfHost (s : State) (fib : Nat) (f : Fibre → Fibre) : (s.modFibre fib f).vfHost = s.vfHost := rfl
@[simp] theorem State.modFibre_regQueue (s : State) (fib : Nat) (f : Fibre → Fibre) : (s.modFibre fib f).regQueue = s.regQueue := rfl
@[simp] theorem State.modFibre_queues (s : State) (fib : Nat) (f : Fibre → Fibre) : (s.modFibre fib f).queues = s.queues := rfl
@[simp] theorem State.modFibre_lastQueues (s : State) (fib : Nat) (f : Fibre → Fibre) : (s.modFibre fib f).lastQueues = s.lastQueues := rfl
@[simp] theorem State.modFibre_launches (s : State) (fib : Nat) (f : Fibre → Fibre) : (s.modFibre fib f).launches = s.launches := rfl
@[simp] theorem State.modFibre_nextLaunch (s : State) (fib : Nat) (f : Fibre → Fibre) : (s.modFibre fib f).nextLaunch = s.nextLaunch := rfl
@[simp] theorem State.modFibre_issuedLaunches (s : State) (fib : Nat) (f : Fibre → Fibre) : (s.modFibre fib f).issuedLaunches = s.issuedLaunches := rfl
@[simp] theorem State.modFibre_ports (s : State) (fib : Nat) (f : Fibre → Fibre) : (s.modFibre fib f).ports = s.ports := rfl
@[simp] theorem State.modFibre_linkSeen (s : State) (fib : Nat) (f : Fibre → Fibre) : (s.modFibre fib f).linkSeen = s.linkSeen := rfl
@[simp] theorem State.modFibre_linkNumber (s : State) (fib : Nat) (f : Fibre → Fibre) : (s.modFibre fib f).linkNumber = s.linkNumber := rfl
@[simp] theorem State.modFibre_drain (s : State) (fib : Nat) (f : Fibre → Fibre) : (s.modFibre fib f).drain = s.drain := rfl
@[simp] theorem State.modFibre_packets (s : State) (fib : Nat) (f : Fibre → Fibre) : (s.modFibre fib f).packets = s.packets := rfl
@[simp] theorem State.modFibre_experts (s : State) (fib : Nat) (f : Fibre → Fibre) : (s.modFibre fib f).experts = s.experts := rfl
@[simp] theorem State.modFibre_loadCounters (s : State) (fib : Nat) (f : Fibre → Fibre) : (s.modFibre fib f).loadCounters = s.loadCounters := rfl
@[simp] theorem State.modFibre_rowsWritten (s : State) (fib : Nat) (f : Fibre → Fibre) : (s.modFibre fib f).rowsWritten = s.rowsWritten := rfl
@[simp] theorem State.modFibre_dropped (s : State) (fib : Nat) (f : Fibre → Fibre) : (s.modFibre fib f).dropped = s.dropped := rfl
@[simp] theorem State.modFibre_out (s : State) (fib : Nat) (f : Fibre → Fibre) : (s.modFibre fib f).out = s.out := rfl
@[simp] theorem State.modFibre_halts (s : State) (fib : Nat) (f : Fibre → Fibre) : (s.modFibre fib f).halts = s.halts := rfl
@[simp] theorem State.modFibre_stopDue (s : State) (fib : Nat) (f : Fibre → Fibre) : (s.modFibre fib f).stopDue = s.stopDue := rfl
@[simp] theorem State.modFibre_stepping (s : State) (fib : Nat) (f : Fibre → Fibre) : (s.modFibre fib f).stepping = s.stepping := rfl
@[simp] theorem State.modFibre_signing (s : State) (fib : Nat) (f : Fibre → Fibre) : (s.modFibre fib f).signing = s.signing := rfl

@[simp] theorem State.modWg_tick (s : State) (g : Nat) (f : Wg → Wg) : (s.modWg g f).tick = s.tick := rfl
@[simp] theorem State.modWg_freeCount (s : State) (g : Nat) (f : Wg → Wg) : (s.modWg g f).freeCount = s.freeCount := rfl
@[simp] theorem State.modWg_turn (s : State) (g : Nat) (f : Wg → Wg) : (s.modWg g f).turn = s.turn := rfl
@[simp] theorem State.modWg_actor (s : State) (g : Nat) (f : Wg → Wg) : (s.modWg g f).actor = s.actor := rfl
@[simp] theorem State.modWg_word (s : State) (g : Nat) (f : Wg → Wg) : (s.modWg g f).word = s.word := rfl
@[simp] theorem State.modWg_nextId (s : State) (g : Nat) (f : Wg → Wg) : (s.modWg g f).nextId = s.nextId := rfl
@[simp] theorem State.modWg_package (s : State) (g : Nat) (f : Wg → Wg) : (s.modWg g f).package = s.package := rfl
@[simp] theorem State.modWg_powered (s : State) (g : Nat) (f : Wg → Wg) : (s.modWg g f).powered = s.powered := rfl
@[simp] theorem State.modWg_failed (s : State) (g : Nat) (f : Wg → Wg) : (s.modWg g f).failed = s.failed := rfl
@[simp] theorem State.modWg_measured (s : State) (g : Nat) (f : Wg → Wg) : (s.modWg g f).measured = s.measured := rfl
@[simp] theorem State.modWg_dies (s : State) (g : Nat) (f : Wg → Wg) : (s.modWg g f).dies = s.dies := rfl
@[simp] theorem State.modWg_fabricClock (s : State) (g : Nat) (f : Wg → Wg) : (s.modWg g f).fabricClock = s.fabricClock := rfl
@[simp] theorem State.modWg_warps (s : State) (g : Nat) (f : Wg → Wg) : (s.modWg g f).warps = s.warps := rfl
@[simp] theorem State.modWg_fibres (s : State) (g : Nat) (f : Wg → Wg) : (s.modWg g f).fibres = s.fibres := rfl
@[simp] theorem State.modWg_vRegs (s : State) (g : Nat) (f : Wg → Wg) : (s.modWg g f).vRegs = s.vRegs := rfl
@[simp] theorem State.modWg_kRegs (s : State) (g : Nat) (f : Wg → Wg) : (s.modWg g f).kRegs = s.kRegs := rfl
@[simp] theorem State.modWg_traps (s : State) (g : Nat) (f : Wg → Wg) : (s.modWg g f).traps = s.traps := rfl
@[simp] theorem State.modWg_clusters (s : State) (g : Nat) (f : Wg → Wg) : (s.modWg g f).clusters = s.clusters := rfl
@[simp] theorem State.modWg_groups (s : State) (g : Nat) (f : Wg → Wg) : (s.modWg g f).groups = s.groups := rfl
@[simp] theorem State.modWg_locks (s : State) (g : Nat) (f : Wg → Wg) : (s.modWg g f).locks = s.locks := rfl
@[simp] theorem State.modWg_scratch (s : State) (g : Nat) (f : Wg → Wg) : (s.modWg g f).scratch = s.scratch := rfl
@[simp] theorem State.modWg_scratchBad (s : State) (g : Nat) (f : Wg → Wg) : (s.modWg g f).scratchBad = s.scratchBad := rfl
@[simp] theorem State.modWg_acc (s : State) (g : Nat) (f : Wg → Wg) : (s.modWg g f).acc = s.acc := rfl
@[simp] theorem State.modWg_accBad (s : State) (g : Nat) (f : Wg → Wg) : (s.modWg g f).accBad = s.accBad := rfl
@[simp] theorem State.modWg_veneer (s : State) (g : Nat) (f : Wg → Wg) : (s.modWg g f).veneer = s.veneer := rfl
@[simp] theorem State.modWg_veneerBad (s : State) (g : Nat) (f : Wg → Wg) : (s.modWg g f).veneerBad = s.veneerBad := rfl
@[simp] theorem State.modWg_oldVeneer (s : State) (g : Nat) (f : Wg → Wg) : (s.modWg g f).oldVeneer = s.oldVeneer := rfl
@[simp] theorem State.modWg_tlbs (s : State) (g : Nat) (f : Wg → Wg) : (s.modWg g f).tlbs = s.tlbs := rfl
@[simp] theorem State.modWg_wgs (s : State) (g : Nat) (f : Wg → Wg) : (s.modWg g f).wgs = s.wgs.modify g f := rfl
@[simp] theorem State.modWg_barriers (s : State) (g : Nat) (f : Wg → Wg) : (s.modWg g f).barriers = s.barriers := rfl
@[simp] theorem State.modWg_layouts (s : State) (g : Nat) (f : Wg → Wg) : (s.modWg g f).layouts = s.layouts := rfl
@[simp] theorem State.modWg_versions (s : State) (g : Nat) (f : Wg → Wg) : (s.modWg g f).versions = s.versions := rfl
@[simp] theorem State.modWg_regions (s : State) (g : Nat) (f : Wg → Wg) : (s.modWg g f).regions = s.regions := rfl
@[simp] theorem State.modWg_pairs (s : State) (g : Nat) (f : Wg → Wg) : (s.modWg g f).pairs = s.pairs := rfl
@[simp] theorem State.modWg_checks (s : State) (g : Nat) (f : Wg → Wg) : (s.modWg g f).checks = s.checks := rfl
@[simp] theorem State.modWg_shadowCap (s : State) (g : Nat) (f : Wg → Wg) : (s.modWg g f).shadowCap = s.shadowCap := rfl
@[simp] theorem State.modWg_loads (s : State) (g : Nat) (f : Wg → Wg) : (s.modWg g f).loads = s.loads := rfl
@[simp] theorem State.modWg_flights (s : State) (g : Nat) (f : Wg → Wg) : (s.modWg g f).flights = s.flights := rfl
@[simp] theorem State.modWg_stores (s : State) (g : Nat) (f : Wg → Wg) : (s.modWg g f).stores = s.stores := rfl
@[simp] theorem State.modWg_engines (s : State) (g : Nat) (f : Wg → Wg) : (s.modWg g f).engines = s.engines := rfl
@[simp] theorem State.modWg_walks (s : State) (g : Nat) (f : Wg → Wg) : (s.modWg g f).walks = s.walks := rfl
@[simp] theorem State.modWg_walkCache (s : State) (g : Nat) (f : Wg → Wg) : (s.modWg g f).walkCache = s.walkCache := rfl
@[simp] theorem State.modWg_hbm (s : State) (g : Nat) (f : Wg → Wg) : (s.modWg g f).hbm = s.hbm := rfl
@[simp] theorem State.modWg_oldWords (s : State) (g : Nat) (f : Wg → Wg) : (s.modWg g f).oldWords = s.oldWords := rfl
@[simp] theorem State.modWg_memBad (s : State) (g : Nat) (f : Wg → Wg) : (s.modWg g f).memBad = s.memBad := rfl
@[simp] theorem State.modWg_l2 (s : State) (g : Nat) (f : Wg → Wg) : (s.modWg g f).l2 = s.l2 := rfl
@[simp] theorem State.modWg_l2Bytes (s : State) (g : Nat) (f : Wg → Wg) : (s.modWg g f).l2Bytes = s.l2Bytes := rfl
@[simp] theorem State.modWg_remotes (s : State) (g : Nat) (f : Wg → Wg) : (s.modWg g f).remotes = s.remotes := rfl
@[simp] theorem State.modWg_remoteBytes (s : State) (g : Nat) (f : Wg → Wg) : (s.modWg g f).remoteBytes = s.remoteBytes := rfl
@[simp] theorem State.modWg_l1 (s : State) (g : Nat) (f : Wg → Wg) : (s.modWg g f).l1 = s.l1 := rfl
@[simp] theorem State.modWg_l1Bytes (s : State) (g : Nat) (f : Wg → Wg) : (s.modWg g f).l1Bytes = s.l1Bytes := rfl
@[simp] theorem State.modWg_l1Parts (s : State) (g : Nat) (f : Wg → Wg) : (s.modWg g f).l1Parts = s.l1Parts := rfl
@[simp] theorem State.modWg_l2Parts (s : State) (g : Nat) (f : Wg → Wg) : (s.modWg g f).l2Parts = s.l2Parts := rfl
@[simp] theorem State.modWg_sliceTs (s : State) (g : Nat) (f : Wg → Wg) : (s.modWg g f).sliceTs = s.sliceTs := rfl
@[simp] theorem State.modWg_retired (s : State) (g : Nat) (f : Wg → Wg) : (s.modWg g f).retired = s.retired := rfl
@[simp] theorem State.modWg_quarantine (s : State) (g : Nat) (f : Wg → Wg) : (s.modWg g f).quarantine = s.quarantine := rfl
@[simp] theorem State.modWg_plants (s : State) (g : Nat) (f : Wg → Wg) : (s.modWg g f).plants = s.plants := rfl
@[simp] theorem State.modWg_sems (s : State) (g : Nat) (f : Wg → Wg) : (s.modWg g f).sems = s.sems := rfl
@[simp] theorem State.modWg_streams (s : State) (g : Nat) (f : Wg → Wg) : (s.modWg g f).streams = s.streams := rfl
@[simp] theorem State.modWg_seqBase (s : State) (g : Nat) (f : Wg → Wg) : (s.modWg g f).seqBase = s.seqBase := rfl
@[simp] theorem State.modWg_countBase (s : State) (g : Nat) (f : Wg → Wg) : (s.modWg g f).countBase = s.countBase := rfl
@[simp] theorem State.modWg_migrations (s : State) (g : Nat) (f : Wg → Wg) : (s.modWg g f).migrations = s.migrations := rfl
@[simp] theorem State.modWg_arms (s : State) (g : Nat) (f : Wg → Wg) : (s.modWg g f).arms = s.arms := rfl
@[simp] theorem State.modWg_lostWindows (s : State) (g : Nat) (f : Wg → Wg) : (s.modWg g f).lostWindows = s.lostWindows := rfl
@[simp] theorem State.modWg_faults (s : State) (g : Nat) (f : Wg → Wg) : (s.modWg g f).faults = s.faults := rfl
@[simp] theorem State.modWg_vfsel (s : State) (g : Nat) (f : Wg → Wg) : (s.modWg g f).vfsel = s.vfsel := rfl
@[simp] theorem State.modWg_slice (s : State) (g : Nat) (f : Wg → Wg) : (s.modWg g f).slice = s.slice := rfl
@[simp] theorem State.modWg_ptroot (s : State) (g : Nat) (f : Wg → Wg) : (s.modWg g f).ptroot = s.ptroot := rfl
@[simp] theorem State.modWg_vfcfg (s : State) (g : Nat) (f : Wg → Wg) : (s.modWg g f).vfcfg = s.vfcfg := rfl
@[simp] theorem State.modWg_vfmem (s : State) (g : Nat) (f : Wg → Wg) : (s.modWg g f).vfmem = s.vfmem := rfl
@[simp] theorem State.modWg_fmtwin (s : State) (g : Nat) (f : Wg → Wg) : (s.modWg g f).fmtwin = s.fmtwin := rfl
@[simp] theorem State.modWg_errinj (s : State) (g : Nat) (f : Wg → Wg) : (s.modWg g f).errinj = s.errinj := rfl
@[simp] theorem State.modWg_acctab (s : State) (g : Nat) (f : Wg → Wg) : (s.modWg g f).acctab = s.acctab := rfl
@[simp] theorem State.modWg_acclog (s : State) (g : Nat) (f : Wg → Wg) : (s.modWg g f).acclog = s.acclog := rfl
@[simp] theorem State.modWg_brkpt (s : State) (g : Nat) (f : Wg → Wg) : (s.modWg g f).brkpt = s.brkpt := rfl
@[simp] theorem State.modWg_dbg (s : State) (g : Nat) (f : Wg → Wg) : (s.modWg g f).dbg = s.dbg := rfl
@[simp] theorem State.modWg_vfHost (s : State) (g : Nat) (f : Wg → Wg) : (s.modWg g f).vfHost = s.vfHost := rfl
@[simp] theorem State.modWg_regQueue (s : State) (g : Nat) (f : Wg → Wg) : (s.modWg g f).regQueue = s.regQueue := rfl
@[simp] theorem State.modWg_queues (s : State) (g : Nat) (f : Wg → Wg) : (s.modWg g f).queues = s.queues := rfl
@[simp] theorem State.modWg_lastQueues (s : State) (g : Nat) (f : Wg → Wg) : (s.modWg g f).lastQueues = s.lastQueues := rfl
@[simp] theorem State.modWg_launches (s : State) (g : Nat) (f : Wg → Wg) : (s.modWg g f).launches = s.launches := rfl
@[simp] theorem State.modWg_nextLaunch (s : State) (g : Nat) (f : Wg → Wg) : (s.modWg g f).nextLaunch = s.nextLaunch := rfl
@[simp] theorem State.modWg_issuedLaunches (s : State) (g : Nat) (f : Wg → Wg) : (s.modWg g f).issuedLaunches = s.issuedLaunches := rfl
@[simp] theorem State.modWg_ports (s : State) (g : Nat) (f : Wg → Wg) : (s.modWg g f).ports = s.ports := rfl
@[simp] theorem State.modWg_linkSeen (s : State) (g : Nat) (f : Wg → Wg) : (s.modWg g f).linkSeen = s.linkSeen := rfl
@[simp] theorem State.modWg_linkNumber (s : State) (g : Nat) (f : Wg → Wg) : (s.modWg g f).linkNumber = s.linkNumber := rfl
@[simp] theorem State.modWg_drain (s : State) (g : Nat) (f : Wg → Wg) : (s.modWg g f).drain = s.drain := rfl
@[simp] theorem State.modWg_packets (s : State) (g : Nat) (f : Wg → Wg) : (s.modWg g f).packets = s.packets := rfl
@[simp] theorem State.modWg_experts (s : State) (g : Nat) (f : Wg → Wg) : (s.modWg g f).experts = s.experts := rfl
@[simp] theorem State.modWg_loadCounters (s : State) (g : Nat) (f : Wg → Wg) : (s.modWg g f).loadCounters = s.loadCounters := rfl
@[simp] theorem State.modWg_rowsWritten (s : State) (g : Nat) (f : Wg → Wg) : (s.modWg g f).rowsWritten = s.rowsWritten := rfl
@[simp] theorem State.modWg_dropped (s : State) (g : Nat) (f : Wg → Wg) : (s.modWg g f).dropped = s.dropped := rfl
@[simp] theorem State.modWg_out (s : State) (g : Nat) (f : Wg → Wg) : (s.modWg g f).out = s.out := rfl
@[simp] theorem State.modWg_halts (s : State) (g : Nat) (f : Wg → Wg) : (s.modWg g f).halts = s.halts := rfl
@[simp] theorem State.modWg_stopDue (s : State) (g : Nat) (f : Wg → Wg) : (s.modWg g f).stopDue = s.stopDue := rfl
@[simp] theorem State.modWg_stepping (s : State) (g : Nat) (f : Wg → Wg) : (s.modWg g f).stepping = s.stepping := rfl
@[simp] theorem State.modWg_signing (s : State) (g : Nat) (f : Wg → Wg) : (s.modWg g f).signing = s.signing := rfl

@[simp] theorem State.setV_tick (s : State) (key : Nat) (c : Cell) : (s.setV key c).tick = s.tick := rfl
@[simp] theorem State.setV_freeCount (s : State) (key : Nat) (c : Cell) : (s.setV key c).freeCount = s.freeCount := rfl
@[simp] theorem State.setV_turn (s : State) (key : Nat) (c : Cell) : (s.setV key c).turn = s.turn := rfl
@[simp] theorem State.setV_actor (s : State) (key : Nat) (c : Cell) : (s.setV key c).actor = s.actor := rfl
@[simp] theorem State.setV_word (s : State) (key : Nat) (c : Cell) : (s.setV key c).word = s.word := rfl
@[simp] theorem State.setV_nextId (s : State) (key : Nat) (c : Cell) : (s.setV key c).nextId = s.nextId := rfl
@[simp] theorem State.setV_package (s : State) (key : Nat) (c : Cell) : (s.setV key c).package = s.package := rfl
@[simp] theorem State.setV_powered (s : State) (key : Nat) (c : Cell) : (s.setV key c).powered = s.powered := rfl
@[simp] theorem State.setV_failed (s : State) (key : Nat) (c : Cell) : (s.setV key c).failed = s.failed := rfl
@[simp] theorem State.setV_measured (s : State) (key : Nat) (c : Cell) : (s.setV key c).measured = s.measured := rfl
@[simp] theorem State.setV_dies (s : State) (key : Nat) (c : Cell) : (s.setV key c).dies = s.dies := rfl
@[simp] theorem State.setV_fabricClock (s : State) (key : Nat) (c : Cell) : (s.setV key c).fabricClock = s.fabricClock := rfl
@[simp] theorem State.setV_warps (s : State) (key : Nat) (c : Cell) : (s.setV key c).warps = s.warps := rfl
@[simp] theorem State.setV_fibres (s : State) (key : Nat) (c : Cell) : (s.setV key c).fibres = s.fibres := rfl
@[simp] theorem State.setV_vRegs (s : State) (key : Nat) (c : Cell) : (s.setV key c).vRegs = s.vRegs.set Cell.zero key c := rfl
@[simp] theorem State.setV_kRegs (s : State) (key : Nat) (c : Cell) : (s.setV key c).kRegs = s.kRegs := rfl
@[simp] theorem State.setV_traps (s : State) (key : Nat) (c : Cell) : (s.setV key c).traps = s.traps := rfl
@[simp] theorem State.setV_clusters (s : State) (key : Nat) (c : Cell) : (s.setV key c).clusters = s.clusters := rfl
@[simp] theorem State.setV_groups (s : State) (key : Nat) (c : Cell) : (s.setV key c).groups = s.groups := rfl
@[simp] theorem State.setV_locks (s : State) (key : Nat) (c : Cell) : (s.setV key c).locks = s.locks := rfl
@[simp] theorem State.setV_scratch (s : State) (key : Nat) (c : Cell) : (s.setV key c).scratch = s.scratch := rfl
@[simp] theorem State.setV_scratchBad (s : State) (key : Nat) (c : Cell) : (s.setV key c).scratchBad = s.scratchBad := rfl
@[simp] theorem State.setV_acc (s : State) (key : Nat) (c : Cell) : (s.setV key c).acc = s.acc := rfl
@[simp] theorem State.setV_accBad (s : State) (key : Nat) (c : Cell) : (s.setV key c).accBad = s.accBad := rfl
@[simp] theorem State.setV_veneer (s : State) (key : Nat) (c : Cell) : (s.setV key c).veneer = s.veneer := rfl
@[simp] theorem State.setV_veneerBad (s : State) (key : Nat) (c : Cell) : (s.setV key c).veneerBad = s.veneerBad := rfl
@[simp] theorem State.setV_oldVeneer (s : State) (key : Nat) (c : Cell) : (s.setV key c).oldVeneer = s.oldVeneer := rfl
@[simp] theorem State.setV_tlbs (s : State) (key : Nat) (c : Cell) : (s.setV key c).tlbs = s.tlbs := rfl
@[simp] theorem State.setV_wgs (s : State) (key : Nat) (c : Cell) : (s.setV key c).wgs = s.wgs := rfl
@[simp] theorem State.setV_barriers (s : State) (key : Nat) (c : Cell) : (s.setV key c).barriers = s.barriers := rfl
@[simp] theorem State.setV_layouts (s : State) (key : Nat) (c : Cell) : (s.setV key c).layouts = s.layouts := rfl
@[simp] theorem State.setV_versions (s : State) (key : Nat) (c : Cell) : (s.setV key c).versions = s.versions := rfl
@[simp] theorem State.setV_regions (s : State) (key : Nat) (c : Cell) : (s.setV key c).regions = s.regions := rfl
@[simp] theorem State.setV_pairs (s : State) (key : Nat) (c : Cell) : (s.setV key c).pairs = s.pairs := rfl
@[simp] theorem State.setV_checks (s : State) (key : Nat) (c : Cell) : (s.setV key c).checks = s.checks := rfl
@[simp] theorem State.setV_shadowCap (s : State) (key : Nat) (c : Cell) : (s.setV key c).shadowCap = s.shadowCap := rfl
@[simp] theorem State.setV_loads (s : State) (key : Nat) (c : Cell) : (s.setV key c).loads = s.loads := rfl
@[simp] theorem State.setV_flights (s : State) (key : Nat) (c : Cell) : (s.setV key c).flights = s.flights := rfl
@[simp] theorem State.setV_stores (s : State) (key : Nat) (c : Cell) : (s.setV key c).stores = s.stores := rfl
@[simp] theorem State.setV_engines (s : State) (key : Nat) (c : Cell) : (s.setV key c).engines = s.engines := rfl
@[simp] theorem State.setV_walks (s : State) (key : Nat) (c : Cell) : (s.setV key c).walks = s.walks := rfl
@[simp] theorem State.setV_walkCache (s : State) (key : Nat) (c : Cell) : (s.setV key c).walkCache = s.walkCache := rfl
@[simp] theorem State.setV_hbm (s : State) (key : Nat) (c : Cell) : (s.setV key c).hbm = s.hbm := rfl
@[simp] theorem State.setV_oldWords (s : State) (key : Nat) (c : Cell) : (s.setV key c).oldWords = s.oldWords := rfl
@[simp] theorem State.setV_memBad (s : State) (key : Nat) (c : Cell) : (s.setV key c).memBad = s.memBad := rfl
@[simp] theorem State.setV_l2 (s : State) (key : Nat) (c : Cell) : (s.setV key c).l2 = s.l2 := rfl
@[simp] theorem State.setV_l2Bytes (s : State) (key : Nat) (c : Cell) : (s.setV key c).l2Bytes = s.l2Bytes := rfl
@[simp] theorem State.setV_remotes (s : State) (key : Nat) (c : Cell) : (s.setV key c).remotes = s.remotes := rfl
@[simp] theorem State.setV_remoteBytes (s : State) (key : Nat) (c : Cell) : (s.setV key c).remoteBytes = s.remoteBytes := rfl
@[simp] theorem State.setV_l1 (s : State) (key : Nat) (c : Cell) : (s.setV key c).l1 = s.l1 := rfl
@[simp] theorem State.setV_l1Bytes (s : State) (key : Nat) (c : Cell) : (s.setV key c).l1Bytes = s.l1Bytes := rfl
@[simp] theorem State.setV_l1Parts (s : State) (key : Nat) (c : Cell) : (s.setV key c).l1Parts = s.l1Parts := rfl
@[simp] theorem State.setV_l2Parts (s : State) (key : Nat) (c : Cell) : (s.setV key c).l2Parts = s.l2Parts := rfl
@[simp] theorem State.setV_sliceTs (s : State) (key : Nat) (c : Cell) : (s.setV key c).sliceTs = s.sliceTs := rfl
@[simp] theorem State.setV_retired (s : State) (key : Nat) (c : Cell) : (s.setV key c).retired = s.retired := rfl
@[simp] theorem State.setV_quarantine (s : State) (key : Nat) (c : Cell) : (s.setV key c).quarantine = s.quarantine := rfl
@[simp] theorem State.setV_plants (s : State) (key : Nat) (c : Cell) : (s.setV key c).plants = s.plants := rfl
@[simp] theorem State.setV_sems (s : State) (key : Nat) (c : Cell) : (s.setV key c).sems = s.sems := rfl
@[simp] theorem State.setV_streams (s : State) (key : Nat) (c : Cell) : (s.setV key c).streams = s.streams := rfl
@[simp] theorem State.setV_seqBase (s : State) (key : Nat) (c : Cell) : (s.setV key c).seqBase = s.seqBase := rfl
@[simp] theorem State.setV_countBase (s : State) (key : Nat) (c : Cell) : (s.setV key c).countBase = s.countBase := rfl
@[simp] theorem State.setV_migrations (s : State) (key : Nat) (c : Cell) : (s.setV key c).migrations = s.migrations := rfl
@[simp] theorem State.setV_arms (s : State) (key : Nat) (c : Cell) : (s.setV key c).arms = s.arms := rfl
@[simp] theorem State.setV_lostWindows (s : State) (key : Nat) (c : Cell) : (s.setV key c).lostWindows = s.lostWindows := rfl
@[simp] theorem State.setV_faults (s : State) (key : Nat) (c : Cell) : (s.setV key c).faults = s.faults := rfl
@[simp] theorem State.setV_vfsel (s : State) (key : Nat) (c : Cell) : (s.setV key c).vfsel = s.vfsel := rfl
@[simp] theorem State.setV_slice (s : State) (key : Nat) (c : Cell) : (s.setV key c).slice = s.slice := rfl
@[simp] theorem State.setV_ptroot (s : State) (key : Nat) (c : Cell) : (s.setV key c).ptroot = s.ptroot := rfl
@[simp] theorem State.setV_vfcfg (s : State) (key : Nat) (c : Cell) : (s.setV key c).vfcfg = s.vfcfg := rfl
@[simp] theorem State.setV_vfmem (s : State) (key : Nat) (c : Cell) : (s.setV key c).vfmem = s.vfmem := rfl
@[simp] theorem State.setV_fmtwin (s : State) (key : Nat) (c : Cell) : (s.setV key c).fmtwin = s.fmtwin := rfl
@[simp] theorem State.setV_errinj (s : State) (key : Nat) (c : Cell) : (s.setV key c).errinj = s.errinj := rfl
@[simp] theorem State.setV_acctab (s : State) (key : Nat) (c : Cell) : (s.setV key c).acctab = s.acctab := rfl
@[simp] theorem State.setV_acclog (s : State) (key : Nat) (c : Cell) : (s.setV key c).acclog = s.acclog := rfl
@[simp] theorem State.setV_brkpt (s : State) (key : Nat) (c : Cell) : (s.setV key c).brkpt = s.brkpt := rfl
@[simp] theorem State.setV_dbg (s : State) (key : Nat) (c : Cell) : (s.setV key c).dbg = s.dbg := rfl
@[simp] theorem State.setV_vfHost (s : State) (key : Nat) (c : Cell) : (s.setV key c).vfHost = s.vfHost := rfl
@[simp] theorem State.setV_regQueue (s : State) (key : Nat) (c : Cell) : (s.setV key c).regQueue = s.regQueue := rfl
@[simp] theorem State.setV_queues (s : State) (key : Nat) (c : Cell) : (s.setV key c).queues = s.queues := rfl
@[simp] theorem State.setV_lastQueues (s : State) (key : Nat) (c : Cell) : (s.setV key c).lastQueues = s.lastQueues := rfl
@[simp] theorem State.setV_launches (s : State) (key : Nat) (c : Cell) : (s.setV key c).launches = s.launches := rfl
@[simp] theorem State.setV_nextLaunch (s : State) (key : Nat) (c : Cell) : (s.setV key c).nextLaunch = s.nextLaunch := rfl
@[simp] theorem State.setV_issuedLaunches (s : State) (key : Nat) (c : Cell) : (s.setV key c).issuedLaunches = s.issuedLaunches := rfl
@[simp] theorem State.setV_ports (s : State) (key : Nat) (c : Cell) : (s.setV key c).ports = s.ports := rfl
@[simp] theorem State.setV_linkSeen (s : State) (key : Nat) (c : Cell) : (s.setV key c).linkSeen = s.linkSeen := rfl
@[simp] theorem State.setV_linkNumber (s : State) (key : Nat) (c : Cell) : (s.setV key c).linkNumber = s.linkNumber := rfl
@[simp] theorem State.setV_drain (s : State) (key : Nat) (c : Cell) : (s.setV key c).drain = s.drain := rfl
@[simp] theorem State.setV_packets (s : State) (key : Nat) (c : Cell) : (s.setV key c).packets = s.packets := rfl
@[simp] theorem State.setV_experts (s : State) (key : Nat) (c : Cell) : (s.setV key c).experts = s.experts := rfl
@[simp] theorem State.setV_loadCounters (s : State) (key : Nat) (c : Cell) : (s.setV key c).loadCounters = s.loadCounters := rfl
@[simp] theorem State.setV_rowsWritten (s : State) (key : Nat) (c : Cell) : (s.setV key c).rowsWritten = s.rowsWritten := rfl
@[simp] theorem State.setV_dropped (s : State) (key : Nat) (c : Cell) : (s.setV key c).dropped = s.dropped := rfl
@[simp] theorem State.setV_out (s : State) (key : Nat) (c : Cell) : (s.setV key c).out = s.out := rfl
@[simp] theorem State.setV_halts (s : State) (key : Nat) (c : Cell) : (s.setV key c).halts = s.halts := rfl
@[simp] theorem State.setV_stopDue (s : State) (key : Nat) (c : Cell) : (s.setV key c).stopDue = s.stopDue := rfl
@[simp] theorem State.setV_stepping (s : State) (key : Nat) (c : Cell) : (s.setV key c).stepping = s.stepping := rfl
@[simp] theorem State.setV_signing (s : State) (key : Nat) (c : Cell) : (s.setV key c).signing = s.signing := rfl

@[simp] theorem State.setK_tick (s : State) (key : Nat) (c : Cell) : (s.setK key c).tick = s.tick := rfl
@[simp] theorem State.setK_freeCount (s : State) (key : Nat) (c : Cell) : (s.setK key c).freeCount = s.freeCount := rfl
@[simp] theorem State.setK_turn (s : State) (key : Nat) (c : Cell) : (s.setK key c).turn = s.turn := rfl
@[simp] theorem State.setK_actor (s : State) (key : Nat) (c : Cell) : (s.setK key c).actor = s.actor := rfl
@[simp] theorem State.setK_word (s : State) (key : Nat) (c : Cell) : (s.setK key c).word = s.word := rfl
@[simp] theorem State.setK_nextId (s : State) (key : Nat) (c : Cell) : (s.setK key c).nextId = s.nextId := rfl
@[simp] theorem State.setK_package (s : State) (key : Nat) (c : Cell) : (s.setK key c).package = s.package := rfl
@[simp] theorem State.setK_powered (s : State) (key : Nat) (c : Cell) : (s.setK key c).powered = s.powered := rfl
@[simp] theorem State.setK_failed (s : State) (key : Nat) (c : Cell) : (s.setK key c).failed = s.failed := rfl
@[simp] theorem State.setK_measured (s : State) (key : Nat) (c : Cell) : (s.setK key c).measured = s.measured := rfl
@[simp] theorem State.setK_dies (s : State) (key : Nat) (c : Cell) : (s.setK key c).dies = s.dies := rfl
@[simp] theorem State.setK_fabricClock (s : State) (key : Nat) (c : Cell) : (s.setK key c).fabricClock = s.fabricClock := rfl
@[simp] theorem State.setK_warps (s : State) (key : Nat) (c : Cell) : (s.setK key c).warps = s.warps := rfl
@[simp] theorem State.setK_fibres (s : State) (key : Nat) (c : Cell) : (s.setK key c).fibres = s.fibres := rfl
@[simp] theorem State.setK_vRegs (s : State) (key : Nat) (c : Cell) : (s.setK key c).vRegs = s.vRegs := rfl
@[simp] theorem State.setK_kRegs (s : State) (key : Nat) (c : Cell) : (s.setK key c).kRegs = s.kRegs.set Cell.zero key c := rfl
@[simp] theorem State.setK_traps (s : State) (key : Nat) (c : Cell) : (s.setK key c).traps = s.traps := rfl
@[simp] theorem State.setK_clusters (s : State) (key : Nat) (c : Cell) : (s.setK key c).clusters = s.clusters := rfl
@[simp] theorem State.setK_groups (s : State) (key : Nat) (c : Cell) : (s.setK key c).groups = s.groups := rfl
@[simp] theorem State.setK_locks (s : State) (key : Nat) (c : Cell) : (s.setK key c).locks = s.locks := rfl
@[simp] theorem State.setK_scratch (s : State) (key : Nat) (c : Cell) : (s.setK key c).scratch = s.scratch := rfl
@[simp] theorem State.setK_scratchBad (s : State) (key : Nat) (c : Cell) : (s.setK key c).scratchBad = s.scratchBad := rfl
@[simp] theorem State.setK_acc (s : State) (key : Nat) (c : Cell) : (s.setK key c).acc = s.acc := rfl
@[simp] theorem State.setK_accBad (s : State) (key : Nat) (c : Cell) : (s.setK key c).accBad = s.accBad := rfl
@[simp] theorem State.setK_veneer (s : State) (key : Nat) (c : Cell) : (s.setK key c).veneer = s.veneer := rfl
@[simp] theorem State.setK_veneerBad (s : State) (key : Nat) (c : Cell) : (s.setK key c).veneerBad = s.veneerBad := rfl
@[simp] theorem State.setK_oldVeneer (s : State) (key : Nat) (c : Cell) : (s.setK key c).oldVeneer = s.oldVeneer := rfl
@[simp] theorem State.setK_tlbs (s : State) (key : Nat) (c : Cell) : (s.setK key c).tlbs = s.tlbs := rfl
@[simp] theorem State.setK_wgs (s : State) (key : Nat) (c : Cell) : (s.setK key c).wgs = s.wgs := rfl
@[simp] theorem State.setK_barriers (s : State) (key : Nat) (c : Cell) : (s.setK key c).barriers = s.barriers := rfl
@[simp] theorem State.setK_layouts (s : State) (key : Nat) (c : Cell) : (s.setK key c).layouts = s.layouts := rfl
@[simp] theorem State.setK_versions (s : State) (key : Nat) (c : Cell) : (s.setK key c).versions = s.versions := rfl
@[simp] theorem State.setK_regions (s : State) (key : Nat) (c : Cell) : (s.setK key c).regions = s.regions := rfl
@[simp] theorem State.setK_pairs (s : State) (key : Nat) (c : Cell) : (s.setK key c).pairs = s.pairs := rfl
@[simp] theorem State.setK_checks (s : State) (key : Nat) (c : Cell) : (s.setK key c).checks = s.checks := rfl
@[simp] theorem State.setK_shadowCap (s : State) (key : Nat) (c : Cell) : (s.setK key c).shadowCap = s.shadowCap := rfl
@[simp] theorem State.setK_loads (s : State) (key : Nat) (c : Cell) : (s.setK key c).loads = s.loads := rfl
@[simp] theorem State.setK_flights (s : State) (key : Nat) (c : Cell) : (s.setK key c).flights = s.flights := rfl
@[simp] theorem State.setK_stores (s : State) (key : Nat) (c : Cell) : (s.setK key c).stores = s.stores := rfl
@[simp] theorem State.setK_engines (s : State) (key : Nat) (c : Cell) : (s.setK key c).engines = s.engines := rfl
@[simp] theorem State.setK_walks (s : State) (key : Nat) (c : Cell) : (s.setK key c).walks = s.walks := rfl
@[simp] theorem State.setK_walkCache (s : State) (key : Nat) (c : Cell) : (s.setK key c).walkCache = s.walkCache := rfl
@[simp] theorem State.setK_hbm (s : State) (key : Nat) (c : Cell) : (s.setK key c).hbm = s.hbm := rfl
@[simp] theorem State.setK_oldWords (s : State) (key : Nat) (c : Cell) : (s.setK key c).oldWords = s.oldWords := rfl
@[simp] theorem State.setK_memBad (s : State) (key : Nat) (c : Cell) : (s.setK key c).memBad = s.memBad := rfl
@[simp] theorem State.setK_l2 (s : State) (key : Nat) (c : Cell) : (s.setK key c).l2 = s.l2 := rfl
@[simp] theorem State.setK_l2Bytes (s : State) (key : Nat) (c : Cell) : (s.setK key c).l2Bytes = s.l2Bytes := rfl
@[simp] theorem State.setK_remotes (s : State) (key : Nat) (c : Cell) : (s.setK key c).remotes = s.remotes := rfl
@[simp] theorem State.setK_remoteBytes (s : State) (key : Nat) (c : Cell) : (s.setK key c).remoteBytes = s.remoteBytes := rfl
@[simp] theorem State.setK_l1 (s : State) (key : Nat) (c : Cell) : (s.setK key c).l1 = s.l1 := rfl
@[simp] theorem State.setK_l1Bytes (s : State) (key : Nat) (c : Cell) : (s.setK key c).l1Bytes = s.l1Bytes := rfl
@[simp] theorem State.setK_l1Parts (s : State) (key : Nat) (c : Cell) : (s.setK key c).l1Parts = s.l1Parts := rfl
@[simp] theorem State.setK_l2Parts (s : State) (key : Nat) (c : Cell) : (s.setK key c).l2Parts = s.l2Parts := rfl
@[simp] theorem State.setK_sliceTs (s : State) (key : Nat) (c : Cell) : (s.setK key c).sliceTs = s.sliceTs := rfl
@[simp] theorem State.setK_retired (s : State) (key : Nat) (c : Cell) : (s.setK key c).retired = s.retired := rfl
@[simp] theorem State.setK_quarantine (s : State) (key : Nat) (c : Cell) : (s.setK key c).quarantine = s.quarantine := rfl
@[simp] theorem State.setK_plants (s : State) (key : Nat) (c : Cell) : (s.setK key c).plants = s.plants := rfl
@[simp] theorem State.setK_sems (s : State) (key : Nat) (c : Cell) : (s.setK key c).sems = s.sems := rfl
@[simp] theorem State.setK_streams (s : State) (key : Nat) (c : Cell) : (s.setK key c).streams = s.streams := rfl
@[simp] theorem State.setK_seqBase (s : State) (key : Nat) (c : Cell) : (s.setK key c).seqBase = s.seqBase := rfl
@[simp] theorem State.setK_countBase (s : State) (key : Nat) (c : Cell) : (s.setK key c).countBase = s.countBase := rfl
@[simp] theorem State.setK_migrations (s : State) (key : Nat) (c : Cell) : (s.setK key c).migrations = s.migrations := rfl
@[simp] theorem State.setK_arms (s : State) (key : Nat) (c : Cell) : (s.setK key c).arms = s.arms := rfl
@[simp] theorem State.setK_lostWindows (s : State) (key : Nat) (c : Cell) : (s.setK key c).lostWindows = s.lostWindows := rfl
@[simp] theorem State.setK_faults (s : State) (key : Nat) (c : Cell) : (s.setK key c).faults = s.faults := rfl
@[simp] theorem State.setK_vfsel (s : State) (key : Nat) (c : Cell) : (s.setK key c).vfsel = s.vfsel := rfl
@[simp] theorem State.setK_slice (s : State) (key : Nat) (c : Cell) : (s.setK key c).slice = s.slice := rfl
@[simp] theorem State.setK_ptroot (s : State) (key : Nat) (c : Cell) : (s.setK key c).ptroot = s.ptroot := rfl
@[simp] theorem State.setK_vfcfg (s : State) (key : Nat) (c : Cell) : (s.setK key c).vfcfg = s.vfcfg := rfl
@[simp] theorem State.setK_vfmem (s : State) (key : Nat) (c : Cell) : (s.setK key c).vfmem = s.vfmem := rfl
@[simp] theorem State.setK_fmtwin (s : State) (key : Nat) (c : Cell) : (s.setK key c).fmtwin = s.fmtwin := rfl
@[simp] theorem State.setK_errinj (s : State) (key : Nat) (c : Cell) : (s.setK key c).errinj = s.errinj := rfl
@[simp] theorem State.setK_acctab (s : State) (key : Nat) (c : Cell) : (s.setK key c).acctab = s.acctab := rfl
@[simp] theorem State.setK_acclog (s : State) (key : Nat) (c : Cell) : (s.setK key c).acclog = s.acclog := rfl
@[simp] theorem State.setK_brkpt (s : State) (key : Nat) (c : Cell) : (s.setK key c).brkpt = s.brkpt := rfl
@[simp] theorem State.setK_dbg (s : State) (key : Nat) (c : Cell) : (s.setK key c).dbg = s.dbg := rfl
@[simp] theorem State.setK_vfHost (s : State) (key : Nat) (c : Cell) : (s.setK key c).vfHost = s.vfHost := rfl
@[simp] theorem State.setK_regQueue (s : State) (key : Nat) (c : Cell) : (s.setK key c).regQueue = s.regQueue := rfl
@[simp] theorem State.setK_queues (s : State) (key : Nat) (c : Cell) : (s.setK key c).queues = s.queues := rfl
@[simp] theorem State.setK_lastQueues (s : State) (key : Nat) (c : Cell) : (s.setK key c).lastQueues = s.lastQueues := rfl
@[simp] theorem State.setK_launches (s : State) (key : Nat) (c : Cell) : (s.setK key c).launches = s.launches := rfl
@[simp] theorem State.setK_nextLaunch (s : State) (key : Nat) (c : Cell) : (s.setK key c).nextLaunch = s.nextLaunch := rfl
@[simp] theorem State.setK_issuedLaunches (s : State) (key : Nat) (c : Cell) : (s.setK key c).issuedLaunches = s.issuedLaunches := rfl
@[simp] theorem State.setK_ports (s : State) (key : Nat) (c : Cell) : (s.setK key c).ports = s.ports := rfl
@[simp] theorem State.setK_linkSeen (s : State) (key : Nat) (c : Cell) : (s.setK key c).linkSeen = s.linkSeen := rfl
@[simp] theorem State.setK_linkNumber (s : State) (key : Nat) (c : Cell) : (s.setK key c).linkNumber = s.linkNumber := rfl
@[simp] theorem State.setK_drain (s : State) (key : Nat) (c : Cell) : (s.setK key c).drain = s.drain := rfl
@[simp] theorem State.setK_packets (s : State) (key : Nat) (c : Cell) : (s.setK key c).packets = s.packets := rfl
@[simp] theorem State.setK_experts (s : State) (key : Nat) (c : Cell) : (s.setK key c).experts = s.experts := rfl
@[simp] theorem State.setK_loadCounters (s : State) (key : Nat) (c : Cell) : (s.setK key c).loadCounters = s.loadCounters := rfl
@[simp] theorem State.setK_rowsWritten (s : State) (key : Nat) (c : Cell) : (s.setK key c).rowsWritten = s.rowsWritten := rfl
@[simp] theorem State.setK_dropped (s : State) (key : Nat) (c : Cell) : (s.setK key c).dropped = s.dropped := rfl
@[simp] theorem State.setK_out (s : State) (key : Nat) (c : Cell) : (s.setK key c).out = s.out := rfl
@[simp] theorem State.setK_halts (s : State) (key : Nat) (c : Cell) : (s.setK key c).halts = s.halts := rfl
@[simp] theorem State.setK_stopDue (s : State) (key : Nat) (c : Cell) : (s.setK key c).stopDue = s.stopDue := rfl
@[simp] theorem State.setK_stepping (s : State) (key : Nat) (c : Cell) : (s.setK key c).stepping = s.stepping := rfl
@[simp] theorem State.setK_signing (s : State) (key : Nat) (c : Cell) : (s.setK key c).signing = s.signing := rfl

@[simp] theorem State.setTrap_tick (s : State) (sel : Nat) (r : TrapRec) : (s.setTrap sel r).tick = s.tick := rfl
@[simp] theorem State.setTrap_freeCount (s : State) (sel : Nat) (r : TrapRec) : (s.setTrap sel r).freeCount = s.freeCount := rfl
@[simp] theorem State.setTrap_turn (s : State) (sel : Nat) (r : TrapRec) : (s.setTrap sel r).turn = s.turn := rfl
@[simp] theorem State.setTrap_actor (s : State) (sel : Nat) (r : TrapRec) : (s.setTrap sel r).actor = s.actor := rfl
@[simp] theorem State.setTrap_word (s : State) (sel : Nat) (r : TrapRec) : (s.setTrap sel r).word = s.word := rfl
@[simp] theorem State.setTrap_nextId (s : State) (sel : Nat) (r : TrapRec) : (s.setTrap sel r).nextId = s.nextId := rfl
@[simp] theorem State.setTrap_package (s : State) (sel : Nat) (r : TrapRec) : (s.setTrap sel r).package = s.package := rfl
@[simp] theorem State.setTrap_powered (s : State) (sel : Nat) (r : TrapRec) : (s.setTrap sel r).powered = s.powered := rfl
@[simp] theorem State.setTrap_failed (s : State) (sel : Nat) (r : TrapRec) : (s.setTrap sel r).failed = s.failed := rfl
@[simp] theorem State.setTrap_measured (s : State) (sel : Nat) (r : TrapRec) : (s.setTrap sel r).measured = s.measured := rfl
@[simp] theorem State.setTrap_dies (s : State) (sel : Nat) (r : TrapRec) : (s.setTrap sel r).dies = s.dies := rfl
@[simp] theorem State.setTrap_fabricClock (s : State) (sel : Nat) (r : TrapRec) : (s.setTrap sel r).fabricClock = s.fabricClock := rfl
@[simp] theorem State.setTrap_warps (s : State) (sel : Nat) (r : TrapRec) : (s.setTrap sel r).warps = s.warps := rfl
@[simp] theorem State.setTrap_fibres (s : State) (sel : Nat) (r : TrapRec) : (s.setTrap sel r).fibres = s.fibres := rfl
@[simp] theorem State.setTrap_vRegs (s : State) (sel : Nat) (r : TrapRec) : (s.setTrap sel r).vRegs = s.vRegs := rfl
@[simp] theorem State.setTrap_kRegs (s : State) (sel : Nat) (r : TrapRec) : (s.setTrap sel r).kRegs = s.kRegs := rfl
@[simp] theorem State.setTrap_traps (s : State) (sel : Nat) (r : TrapRec) : (s.setTrap sel r).traps = s.traps.set TrapRec.zero sel r := rfl
@[simp] theorem State.setTrap_clusters (s : State) (sel : Nat) (r : TrapRec) : (s.setTrap sel r).clusters = s.clusters := rfl
@[simp] theorem State.setTrap_groups (s : State) (sel : Nat) (r : TrapRec) : (s.setTrap sel r).groups = s.groups := rfl
@[simp] theorem State.setTrap_locks (s : State) (sel : Nat) (r : TrapRec) : (s.setTrap sel r).locks = s.locks := rfl
@[simp] theorem State.setTrap_scratch (s : State) (sel : Nat) (r : TrapRec) : (s.setTrap sel r).scratch = s.scratch := rfl
@[simp] theorem State.setTrap_scratchBad (s : State) (sel : Nat) (r : TrapRec) : (s.setTrap sel r).scratchBad = s.scratchBad := rfl
@[simp] theorem State.setTrap_acc (s : State) (sel : Nat) (r : TrapRec) : (s.setTrap sel r).acc = s.acc := rfl
@[simp] theorem State.setTrap_accBad (s : State) (sel : Nat) (r : TrapRec) : (s.setTrap sel r).accBad = s.accBad := rfl
@[simp] theorem State.setTrap_veneer (s : State) (sel : Nat) (r : TrapRec) : (s.setTrap sel r).veneer = s.veneer := rfl
@[simp] theorem State.setTrap_veneerBad (s : State) (sel : Nat) (r : TrapRec) : (s.setTrap sel r).veneerBad = s.veneerBad := rfl
@[simp] theorem State.setTrap_oldVeneer (s : State) (sel : Nat) (r : TrapRec) : (s.setTrap sel r).oldVeneer = s.oldVeneer := rfl
@[simp] theorem State.setTrap_tlbs (s : State) (sel : Nat) (r : TrapRec) : (s.setTrap sel r).tlbs = s.tlbs := rfl
@[simp] theorem State.setTrap_wgs (s : State) (sel : Nat) (r : TrapRec) : (s.setTrap sel r).wgs = s.wgs := rfl
@[simp] theorem State.setTrap_barriers (s : State) (sel : Nat) (r : TrapRec) : (s.setTrap sel r).barriers = s.barriers := rfl
@[simp] theorem State.setTrap_layouts (s : State) (sel : Nat) (r : TrapRec) : (s.setTrap sel r).layouts = s.layouts := rfl
@[simp] theorem State.setTrap_versions (s : State) (sel : Nat) (r : TrapRec) : (s.setTrap sel r).versions = s.versions := rfl
@[simp] theorem State.setTrap_regions (s : State) (sel : Nat) (r : TrapRec) : (s.setTrap sel r).regions = s.regions := rfl
@[simp] theorem State.setTrap_pairs (s : State) (sel : Nat) (r : TrapRec) : (s.setTrap sel r).pairs = s.pairs := rfl
@[simp] theorem State.setTrap_checks (s : State) (sel : Nat) (r : TrapRec) : (s.setTrap sel r).checks = s.checks := rfl
@[simp] theorem State.setTrap_shadowCap (s : State) (sel : Nat) (r : TrapRec) : (s.setTrap sel r).shadowCap = s.shadowCap := rfl
@[simp] theorem State.setTrap_loads (s : State) (sel : Nat) (r : TrapRec) : (s.setTrap sel r).loads = s.loads := rfl
@[simp] theorem State.setTrap_flights (s : State) (sel : Nat) (r : TrapRec) : (s.setTrap sel r).flights = s.flights := rfl
@[simp] theorem State.setTrap_stores (s : State) (sel : Nat) (r : TrapRec) : (s.setTrap sel r).stores = s.stores := rfl
@[simp] theorem State.setTrap_engines (s : State) (sel : Nat) (r : TrapRec) : (s.setTrap sel r).engines = s.engines := rfl
@[simp] theorem State.setTrap_walks (s : State) (sel : Nat) (r : TrapRec) : (s.setTrap sel r).walks = s.walks := rfl
@[simp] theorem State.setTrap_walkCache (s : State) (sel : Nat) (r : TrapRec) : (s.setTrap sel r).walkCache = s.walkCache := rfl
@[simp] theorem State.setTrap_hbm (s : State) (sel : Nat) (r : TrapRec) : (s.setTrap sel r).hbm = s.hbm := rfl
@[simp] theorem State.setTrap_oldWords (s : State) (sel : Nat) (r : TrapRec) : (s.setTrap sel r).oldWords = s.oldWords := rfl
@[simp] theorem State.setTrap_memBad (s : State) (sel : Nat) (r : TrapRec) : (s.setTrap sel r).memBad = s.memBad := rfl
@[simp] theorem State.setTrap_l2 (s : State) (sel : Nat) (r : TrapRec) : (s.setTrap sel r).l2 = s.l2 := rfl
@[simp] theorem State.setTrap_l2Bytes (s : State) (sel : Nat) (r : TrapRec) : (s.setTrap sel r).l2Bytes = s.l2Bytes := rfl
@[simp] theorem State.setTrap_remotes (s : State) (sel : Nat) (r : TrapRec) : (s.setTrap sel r).remotes = s.remotes := rfl
@[simp] theorem State.setTrap_remoteBytes (s : State) (sel : Nat) (r : TrapRec) : (s.setTrap sel r).remoteBytes = s.remoteBytes := rfl
@[simp] theorem State.setTrap_l1 (s : State) (sel : Nat) (r : TrapRec) : (s.setTrap sel r).l1 = s.l1 := rfl
@[simp] theorem State.setTrap_l1Bytes (s : State) (sel : Nat) (r : TrapRec) : (s.setTrap sel r).l1Bytes = s.l1Bytes := rfl
@[simp] theorem State.setTrap_l1Parts (s : State) (sel : Nat) (r : TrapRec) : (s.setTrap sel r).l1Parts = s.l1Parts := rfl
@[simp] theorem State.setTrap_l2Parts (s : State) (sel : Nat) (r : TrapRec) : (s.setTrap sel r).l2Parts = s.l2Parts := rfl
@[simp] theorem State.setTrap_sliceTs (s : State) (sel : Nat) (r : TrapRec) : (s.setTrap sel r).sliceTs = s.sliceTs := rfl
@[simp] theorem State.setTrap_retired (s : State) (sel : Nat) (r : TrapRec) : (s.setTrap sel r).retired = s.retired := rfl
@[simp] theorem State.setTrap_quarantine (s : State) (sel : Nat) (r : TrapRec) : (s.setTrap sel r).quarantine = s.quarantine := rfl
@[simp] theorem State.setTrap_plants (s : State) (sel : Nat) (r : TrapRec) : (s.setTrap sel r).plants = s.plants := rfl
@[simp] theorem State.setTrap_sems (s : State) (sel : Nat) (r : TrapRec) : (s.setTrap sel r).sems = s.sems := rfl
@[simp] theorem State.setTrap_streams (s : State) (sel : Nat) (r : TrapRec) : (s.setTrap sel r).streams = s.streams := rfl
@[simp] theorem State.setTrap_seqBase (s : State) (sel : Nat) (r : TrapRec) : (s.setTrap sel r).seqBase = s.seqBase := rfl
@[simp] theorem State.setTrap_countBase (s : State) (sel : Nat) (r : TrapRec) : (s.setTrap sel r).countBase = s.countBase := rfl
@[simp] theorem State.setTrap_migrations (s : State) (sel : Nat) (r : TrapRec) : (s.setTrap sel r).migrations = s.migrations := rfl
@[simp] theorem State.setTrap_arms (s : State) (sel : Nat) (r : TrapRec) : (s.setTrap sel r).arms = s.arms := rfl
@[simp] theorem State.setTrap_lostWindows (s : State) (sel : Nat) (r : TrapRec) : (s.setTrap sel r).lostWindows = s.lostWindows := rfl
@[simp] theorem State.setTrap_faults (s : State) (sel : Nat) (r : TrapRec) : (s.setTrap sel r).faults = s.faults := rfl
@[simp] theorem State.setTrap_vfsel (s : State) (sel : Nat) (r : TrapRec) : (s.setTrap sel r).vfsel = s.vfsel := rfl
@[simp] theorem State.setTrap_slice (s : State) (sel : Nat) (r : TrapRec) : (s.setTrap sel r).slice = s.slice := rfl
@[simp] theorem State.setTrap_ptroot (s : State) (sel : Nat) (r : TrapRec) : (s.setTrap sel r).ptroot = s.ptroot := rfl
@[simp] theorem State.setTrap_vfcfg (s : State) (sel : Nat) (r : TrapRec) : (s.setTrap sel r).vfcfg = s.vfcfg := rfl
@[simp] theorem State.setTrap_vfmem (s : State) (sel : Nat) (r : TrapRec) : (s.setTrap sel r).vfmem = s.vfmem := rfl
@[simp] theorem State.setTrap_fmtwin (s : State) (sel : Nat) (r : TrapRec) : (s.setTrap sel r).fmtwin = s.fmtwin := rfl
@[simp] theorem State.setTrap_errinj (s : State) (sel : Nat) (r : TrapRec) : (s.setTrap sel r).errinj = s.errinj := rfl
@[simp] theorem State.setTrap_acctab (s : State) (sel : Nat) (r : TrapRec) : (s.setTrap sel r).acctab = s.acctab := rfl
@[simp] theorem State.setTrap_acclog (s : State) (sel : Nat) (r : TrapRec) : (s.setTrap sel r).acclog = s.acclog := rfl
@[simp] theorem State.setTrap_brkpt (s : State) (sel : Nat) (r : TrapRec) : (s.setTrap sel r).brkpt = s.brkpt := rfl
@[simp] theorem State.setTrap_dbg (s : State) (sel : Nat) (r : TrapRec) : (s.setTrap sel r).dbg = s.dbg := rfl
@[simp] theorem State.setTrap_vfHost (s : State) (sel : Nat) (r : TrapRec) : (s.setTrap sel r).vfHost = s.vfHost := rfl
@[simp] theorem State.setTrap_regQueue (s : State) (sel : Nat) (r : TrapRec) : (s.setTrap sel r).regQueue = s.regQueue := rfl
@[simp] theorem State.setTrap_queues (s : State) (sel : Nat) (r : TrapRec) : (s.setTrap sel r).queues = s.queues := rfl
@[simp] theorem State.setTrap_lastQueues (s : State) (sel : Nat) (r : TrapRec) : (s.setTrap sel r).lastQueues = s.lastQueues := rfl
@[simp] theorem State.setTrap_launches (s : State) (sel : Nat) (r : TrapRec) : (s.setTrap sel r).launches = s.launches := rfl
@[simp] theorem State.setTrap_nextLaunch (s : State) (sel : Nat) (r : TrapRec) : (s.setTrap sel r).nextLaunch = s.nextLaunch := rfl
@[simp] theorem State.setTrap_issuedLaunches (s : State) (sel : Nat) (r : TrapRec) : (s.setTrap sel r).issuedLaunches = s.issuedLaunches := rfl
@[simp] theorem State.setTrap_ports (s : State) (sel : Nat) (r : TrapRec) : (s.setTrap sel r).ports = s.ports := rfl
@[simp] theorem State.setTrap_linkSeen (s : State) (sel : Nat) (r : TrapRec) : (s.setTrap sel r).linkSeen = s.linkSeen := rfl
@[simp] theorem State.setTrap_linkNumber (s : State) (sel : Nat) (r : TrapRec) : (s.setTrap sel r).linkNumber = s.linkNumber := rfl
@[simp] theorem State.setTrap_drain (s : State) (sel : Nat) (r : TrapRec) : (s.setTrap sel r).drain = s.drain := rfl
@[simp] theorem State.setTrap_packets (s : State) (sel : Nat) (r : TrapRec) : (s.setTrap sel r).packets = s.packets := rfl
@[simp] theorem State.setTrap_experts (s : State) (sel : Nat) (r : TrapRec) : (s.setTrap sel r).experts = s.experts := rfl
@[simp] theorem State.setTrap_loadCounters (s : State) (sel : Nat) (r : TrapRec) : (s.setTrap sel r).loadCounters = s.loadCounters := rfl
@[simp] theorem State.setTrap_rowsWritten (s : State) (sel : Nat) (r : TrapRec) : (s.setTrap sel r).rowsWritten = s.rowsWritten := rfl
@[simp] theorem State.setTrap_dropped (s : State) (sel : Nat) (r : TrapRec) : (s.setTrap sel r).dropped = s.dropped := rfl
@[simp] theorem State.setTrap_out (s : State) (sel : Nat) (r : TrapRec) : (s.setTrap sel r).out = s.out := rfl
@[simp] theorem State.setTrap_halts (s : State) (sel : Nat) (r : TrapRec) : (s.setTrap sel r).halts = s.halts := rfl
@[simp] theorem State.setTrap_stopDue (s : State) (sel : Nat) (r : TrapRec) : (s.setTrap sel r).stopDue = s.stopDue := rfl
@[simp] theorem State.setTrap_stepping (s : State) (sel : Nat) (r : TrapRec) : (s.setTrap sel r).stepping = s.stepping := rfl
@[simp] theorem State.setTrap_signing (s : State) (sel : Nat) (r : TrapRec) : (s.setTrap sel r).signing = s.signing := rfl

@[simp] theorem State.setBarrier_tick (s : State) (wg b : Nat) (x : Barrier) : (s.setBarrier wg b x).tick = s.tick := rfl
@[simp] theorem State.setBarrier_freeCount (s : State) (wg b : Nat) (x : Barrier) : (s.setBarrier wg b x).freeCount = s.freeCount := rfl
@[simp] theorem State.setBarrier_turn (s : State) (wg b : Nat) (x : Barrier) : (s.setBarrier wg b x).turn = s.turn := rfl
@[simp] theorem State.setBarrier_actor (s : State) (wg b : Nat) (x : Barrier) : (s.setBarrier wg b x).actor = s.actor := rfl
@[simp] theorem State.setBarrier_word (s : State) (wg b : Nat) (x : Barrier) : (s.setBarrier wg b x).word = s.word := rfl
@[simp] theorem State.setBarrier_nextId (s : State) (wg b : Nat) (x : Barrier) : (s.setBarrier wg b x).nextId = s.nextId := rfl
@[simp] theorem State.setBarrier_package (s : State) (wg b : Nat) (x : Barrier) : (s.setBarrier wg b x).package = s.package := rfl
@[simp] theorem State.setBarrier_powered (s : State) (wg b : Nat) (x : Barrier) : (s.setBarrier wg b x).powered = s.powered := rfl
@[simp] theorem State.setBarrier_failed (s : State) (wg b : Nat) (x : Barrier) : (s.setBarrier wg b x).failed = s.failed := rfl
@[simp] theorem State.setBarrier_measured (s : State) (wg b : Nat) (x : Barrier) : (s.setBarrier wg b x).measured = s.measured := rfl
@[simp] theorem State.setBarrier_dies (s : State) (wg b : Nat) (x : Barrier) : (s.setBarrier wg b x).dies = s.dies := rfl
@[simp] theorem State.setBarrier_fabricClock (s : State) (wg b : Nat) (x : Barrier) : (s.setBarrier wg b x).fabricClock = s.fabricClock := rfl
@[simp] theorem State.setBarrier_warps (s : State) (wg b : Nat) (x : Barrier) : (s.setBarrier wg b x).warps = s.warps := rfl
@[simp] theorem State.setBarrier_fibres (s : State) (wg b : Nat) (x : Barrier) : (s.setBarrier wg b x).fibres = s.fibres := rfl
@[simp] theorem State.setBarrier_vRegs (s : State) (wg b : Nat) (x : Barrier) : (s.setBarrier wg b x).vRegs = s.vRegs := rfl
@[simp] theorem State.setBarrier_kRegs (s : State) (wg b : Nat) (x : Barrier) : (s.setBarrier wg b x).kRegs = s.kRegs := rfl
@[simp] theorem State.setBarrier_traps (s : State) (wg b : Nat) (x : Barrier) : (s.setBarrier wg b x).traps = s.traps := rfl
@[simp] theorem State.setBarrier_clusters (s : State) (wg b : Nat) (x : Barrier) : (s.setBarrier wg b x).clusters = s.clusters := rfl
@[simp] theorem State.setBarrier_groups (s : State) (wg b : Nat) (x : Barrier) : (s.setBarrier wg b x).groups = s.groups := rfl
@[simp] theorem State.setBarrier_locks (s : State) (wg b : Nat) (x : Barrier) : (s.setBarrier wg b x).locks = s.locks := rfl
@[simp] theorem State.setBarrier_scratch (s : State) (wg b : Nat) (x : Barrier) : (s.setBarrier wg b x).scratch = s.scratch := rfl
@[simp] theorem State.setBarrier_scratchBad (s : State) (wg b : Nat) (x : Barrier) : (s.setBarrier wg b x).scratchBad = s.scratchBad := rfl
@[simp] theorem State.setBarrier_acc (s : State) (wg b : Nat) (x : Barrier) : (s.setBarrier wg b x).acc = s.acc := rfl
@[simp] theorem State.setBarrier_accBad (s : State) (wg b : Nat) (x : Barrier) : (s.setBarrier wg b x).accBad = s.accBad := rfl
@[simp] theorem State.setBarrier_veneer (s : State) (wg b : Nat) (x : Barrier) : (s.setBarrier wg b x).veneer = s.veneer := rfl
@[simp] theorem State.setBarrier_veneerBad (s : State) (wg b : Nat) (x : Barrier) : (s.setBarrier wg b x).veneerBad = s.veneerBad := rfl
@[simp] theorem State.setBarrier_oldVeneer (s : State) (wg b : Nat) (x : Barrier) : (s.setBarrier wg b x).oldVeneer = s.oldVeneer := rfl
@[simp] theorem State.setBarrier_tlbs (s : State) (wg b : Nat) (x : Barrier) : (s.setBarrier wg b x).tlbs = s.tlbs := rfl
@[simp] theorem State.setBarrier_wgs (s : State) (wg b : Nat) (x : Barrier) : (s.setBarrier wg b x).wgs = s.wgs := rfl
@[simp] theorem State.setBarrier_barriers (s : State) (wg b : Nat) (x : Barrier) : (s.setBarrier wg b x).barriers = s.barriers.set Barrier.zero (barKey wg b) x := rfl
@[simp] theorem State.setBarrier_layouts (s : State) (wg b : Nat) (x : Barrier) : (s.setBarrier wg b x).layouts = s.layouts := rfl
@[simp] theorem State.setBarrier_versions (s : State) (wg b : Nat) (x : Barrier) : (s.setBarrier wg b x).versions = s.versions := rfl
@[simp] theorem State.setBarrier_regions (s : State) (wg b : Nat) (x : Barrier) : (s.setBarrier wg b x).regions = s.regions := rfl
@[simp] theorem State.setBarrier_pairs (s : State) (wg b : Nat) (x : Barrier) : (s.setBarrier wg b x).pairs = s.pairs := rfl
@[simp] theorem State.setBarrier_checks (s : State) (wg b : Nat) (x : Barrier) : (s.setBarrier wg b x).checks = s.checks := rfl
@[simp] theorem State.setBarrier_shadowCap (s : State) (wg b : Nat) (x : Barrier) : (s.setBarrier wg b x).shadowCap = s.shadowCap := rfl
@[simp] theorem State.setBarrier_loads (s : State) (wg b : Nat) (x : Barrier) : (s.setBarrier wg b x).loads = s.loads := rfl
@[simp] theorem State.setBarrier_flights (s : State) (wg b : Nat) (x : Barrier) : (s.setBarrier wg b x).flights = s.flights := rfl
@[simp] theorem State.setBarrier_stores (s : State) (wg b : Nat) (x : Barrier) : (s.setBarrier wg b x).stores = s.stores := rfl
@[simp] theorem State.setBarrier_engines (s : State) (wg b : Nat) (x : Barrier) : (s.setBarrier wg b x).engines = s.engines := rfl
@[simp] theorem State.setBarrier_walks (s : State) (wg b : Nat) (x : Barrier) : (s.setBarrier wg b x).walks = s.walks := rfl
@[simp] theorem State.setBarrier_walkCache (s : State) (wg b : Nat) (x : Barrier) : (s.setBarrier wg b x).walkCache = s.walkCache := rfl
@[simp] theorem State.setBarrier_hbm (s : State) (wg b : Nat) (x : Barrier) : (s.setBarrier wg b x).hbm = s.hbm := rfl
@[simp] theorem State.setBarrier_oldWords (s : State) (wg b : Nat) (x : Barrier) : (s.setBarrier wg b x).oldWords = s.oldWords := rfl
@[simp] theorem State.setBarrier_memBad (s : State) (wg b : Nat) (x : Barrier) : (s.setBarrier wg b x).memBad = s.memBad := rfl
@[simp] theorem State.setBarrier_l2 (s : State) (wg b : Nat) (x : Barrier) : (s.setBarrier wg b x).l2 = s.l2 := rfl
@[simp] theorem State.setBarrier_l2Bytes (s : State) (wg b : Nat) (x : Barrier) : (s.setBarrier wg b x).l2Bytes = s.l2Bytes := rfl
@[simp] theorem State.setBarrier_remotes (s : State) (wg b : Nat) (x : Barrier) : (s.setBarrier wg b x).remotes = s.remotes := rfl
@[simp] theorem State.setBarrier_remoteBytes (s : State) (wg b : Nat) (x : Barrier) : (s.setBarrier wg b x).remoteBytes = s.remoteBytes := rfl
@[simp] theorem State.setBarrier_l1 (s : State) (wg b : Nat) (x : Barrier) : (s.setBarrier wg b x).l1 = s.l1 := rfl
@[simp] theorem State.setBarrier_l1Bytes (s : State) (wg b : Nat) (x : Barrier) : (s.setBarrier wg b x).l1Bytes = s.l1Bytes := rfl
@[simp] theorem State.setBarrier_l1Parts (s : State) (wg b : Nat) (x : Barrier) : (s.setBarrier wg b x).l1Parts = s.l1Parts := rfl
@[simp] theorem State.setBarrier_l2Parts (s : State) (wg b : Nat) (x : Barrier) : (s.setBarrier wg b x).l2Parts = s.l2Parts := rfl
@[simp] theorem State.setBarrier_sliceTs (s : State) (wg b : Nat) (x : Barrier) : (s.setBarrier wg b x).sliceTs = s.sliceTs := rfl
@[simp] theorem State.setBarrier_retired (s : State) (wg b : Nat) (x : Barrier) : (s.setBarrier wg b x).retired = s.retired := rfl
@[simp] theorem State.setBarrier_quarantine (s : State) (wg b : Nat) (x : Barrier) : (s.setBarrier wg b x).quarantine = s.quarantine := rfl
@[simp] theorem State.setBarrier_plants (s : State) (wg b : Nat) (x : Barrier) : (s.setBarrier wg b x).plants = s.plants := rfl
@[simp] theorem State.setBarrier_sems (s : State) (wg b : Nat) (x : Barrier) : (s.setBarrier wg b x).sems = s.sems := rfl
@[simp] theorem State.setBarrier_streams (s : State) (wg b : Nat) (x : Barrier) : (s.setBarrier wg b x).streams = s.streams := rfl
@[simp] theorem State.setBarrier_seqBase (s : State) (wg b : Nat) (x : Barrier) : (s.setBarrier wg b x).seqBase = s.seqBase := rfl
@[simp] theorem State.setBarrier_countBase (s : State) (wg b : Nat) (x : Barrier) : (s.setBarrier wg b x).countBase = s.countBase := rfl
@[simp] theorem State.setBarrier_migrations (s : State) (wg b : Nat) (x : Barrier) : (s.setBarrier wg b x).migrations = s.migrations := rfl
@[simp] theorem State.setBarrier_arms (s : State) (wg b : Nat) (x : Barrier) : (s.setBarrier wg b x).arms = s.arms := rfl
@[simp] theorem State.setBarrier_lostWindows (s : State) (wg b : Nat) (x : Barrier) : (s.setBarrier wg b x).lostWindows = s.lostWindows := rfl
@[simp] theorem State.setBarrier_faults (s : State) (wg b : Nat) (x : Barrier) : (s.setBarrier wg b x).faults = s.faults := rfl
@[simp] theorem State.setBarrier_vfsel (s : State) (wg b : Nat) (x : Barrier) : (s.setBarrier wg b x).vfsel = s.vfsel := rfl
@[simp] theorem State.setBarrier_slice (s : State) (wg b : Nat) (x : Barrier) : (s.setBarrier wg b x).slice = s.slice := rfl
@[simp] theorem State.setBarrier_ptroot (s : State) (wg b : Nat) (x : Barrier) : (s.setBarrier wg b x).ptroot = s.ptroot := rfl
@[simp] theorem State.setBarrier_vfcfg (s : State) (wg b : Nat) (x : Barrier) : (s.setBarrier wg b x).vfcfg = s.vfcfg := rfl
@[simp] theorem State.setBarrier_vfmem (s : State) (wg b : Nat) (x : Barrier) : (s.setBarrier wg b x).vfmem = s.vfmem := rfl
@[simp] theorem State.setBarrier_fmtwin (s : State) (wg b : Nat) (x : Barrier) : (s.setBarrier wg b x).fmtwin = s.fmtwin := rfl
@[simp] theorem State.setBarrier_errinj (s : State) (wg b : Nat) (x : Barrier) : (s.setBarrier wg b x).errinj = s.errinj := rfl
@[simp] theorem State.setBarrier_acctab (s : State) (wg b : Nat) (x : Barrier) : (s.setBarrier wg b x).acctab = s.acctab := rfl
@[simp] theorem State.setBarrier_acclog (s : State) (wg b : Nat) (x : Barrier) : (s.setBarrier wg b x).acclog = s.acclog := rfl
@[simp] theorem State.setBarrier_brkpt (s : State) (wg b : Nat) (x : Barrier) : (s.setBarrier wg b x).brkpt = s.brkpt := rfl
@[simp] theorem State.setBarrier_dbg (s : State) (wg b : Nat) (x : Barrier) : (s.setBarrier wg b x).dbg = s.dbg := rfl
@[simp] theorem State.setBarrier_vfHost (s : State) (wg b : Nat) (x : Barrier) : (s.setBarrier wg b x).vfHost = s.vfHost := rfl
@[simp] theorem State.setBarrier_regQueue (s : State) (wg b : Nat) (x : Barrier) : (s.setBarrier wg b x).regQueue = s.regQueue := rfl
@[simp] theorem State.setBarrier_queues (s : State) (wg b : Nat) (x : Barrier) : (s.setBarrier wg b x).queues = s.queues := rfl
@[simp] theorem State.setBarrier_lastQueues (s : State) (wg b : Nat) (x : Barrier) : (s.setBarrier wg b x).lastQueues = s.lastQueues := rfl
@[simp] theorem State.setBarrier_launches (s : State) (wg b : Nat) (x : Barrier) : (s.setBarrier wg b x).launches = s.launches := rfl
@[simp] theorem State.setBarrier_nextLaunch (s : State) (wg b : Nat) (x : Barrier) : (s.setBarrier wg b x).nextLaunch = s.nextLaunch := rfl
@[simp] theorem State.setBarrier_issuedLaunches (s : State) (wg b : Nat) (x : Barrier) : (s.setBarrier wg b x).issuedLaunches = s.issuedLaunches := rfl
@[simp] theorem State.setBarrier_ports (s : State) (wg b : Nat) (x : Barrier) : (s.setBarrier wg b x).ports = s.ports := rfl
@[simp] theorem State.setBarrier_linkSeen (s : State) (wg b : Nat) (x : Barrier) : (s.setBarrier wg b x).linkSeen = s.linkSeen := rfl
@[simp] theorem State.setBarrier_linkNumber (s : State) (wg b : Nat) (x : Barrier) : (s.setBarrier wg b x).linkNumber = s.linkNumber := rfl
@[simp] theorem State.setBarrier_drain (s : State) (wg b : Nat) (x : Barrier) : (s.setBarrier wg b x).drain = s.drain := rfl
@[simp] theorem State.setBarrier_packets (s : State) (wg b : Nat) (x : Barrier) : (s.setBarrier wg b x).packets = s.packets := rfl
@[simp] theorem State.setBarrier_experts (s : State) (wg b : Nat) (x : Barrier) : (s.setBarrier wg b x).experts = s.experts := rfl
@[simp] theorem State.setBarrier_loadCounters (s : State) (wg b : Nat) (x : Barrier) : (s.setBarrier wg b x).loadCounters = s.loadCounters := rfl
@[simp] theorem State.setBarrier_rowsWritten (s : State) (wg b : Nat) (x : Barrier) : (s.setBarrier wg b x).rowsWritten = s.rowsWritten := rfl
@[simp] theorem State.setBarrier_dropped (s : State) (wg b : Nat) (x : Barrier) : (s.setBarrier wg b x).dropped = s.dropped := rfl
@[simp] theorem State.setBarrier_out (s : State) (wg b : Nat) (x : Barrier) : (s.setBarrier wg b x).out = s.out := rfl
@[simp] theorem State.setBarrier_halts (s : State) (wg b : Nat) (x : Barrier) : (s.setBarrier wg b x).halts = s.halts := rfl
@[simp] theorem State.setBarrier_stopDue (s : State) (wg b : Nat) (x : Barrier) : (s.setBarrier wg b x).stopDue = s.stopDue := rfl
@[simp] theorem State.setBarrier_stepping (s : State) (wg b : Nat) (x : Barrier) : (s.setBarrier wg b x).stepping = s.stepping := rfl
@[simp] theorem State.setBarrier_signing (s : State) (wg b : Nat) (x : Barrier) : (s.setBarrier wg b x).signing = s.signing := rfl

@[simp] theorem State.emit_tick (s : State) (o : Out) : (s.emit o).tick = s.tick := rfl
@[simp] theorem State.emit_freeCount (s : State) (o : Out) : (s.emit o).freeCount = s.freeCount := rfl
@[simp] theorem State.emit_turn (s : State) (o : Out) : (s.emit o).turn = s.turn := rfl
@[simp] theorem State.emit_actor (s : State) (o : Out) : (s.emit o).actor = s.actor := rfl
@[simp] theorem State.emit_word (s : State) (o : Out) : (s.emit o).word = s.word := rfl
@[simp] theorem State.emit_nextId (s : State) (o : Out) : (s.emit o).nextId = s.nextId := rfl
@[simp] theorem State.emit_package (s : State) (o : Out) : (s.emit o).package = s.package := rfl
@[simp] theorem State.emit_powered (s : State) (o : Out) : (s.emit o).powered = s.powered := rfl
@[simp] theorem State.emit_failed (s : State) (o : Out) : (s.emit o).failed = s.failed := rfl
@[simp] theorem State.emit_measured (s : State) (o : Out) : (s.emit o).measured = s.measured := rfl
@[simp] theorem State.emit_dies (s : State) (o : Out) : (s.emit o).dies = s.dies := rfl
@[simp] theorem State.emit_fabricClock (s : State) (o : Out) : (s.emit o).fabricClock = s.fabricClock := rfl
@[simp] theorem State.emit_warps (s : State) (o : Out) : (s.emit o).warps = s.warps := rfl
@[simp] theorem State.emit_fibres (s : State) (o : Out) : (s.emit o).fibres = s.fibres := rfl
@[simp] theorem State.emit_vRegs (s : State) (o : Out) : (s.emit o).vRegs = s.vRegs := rfl
@[simp] theorem State.emit_kRegs (s : State) (o : Out) : (s.emit o).kRegs = s.kRegs := rfl
@[simp] theorem State.emit_traps (s : State) (o : Out) : (s.emit o).traps = s.traps := rfl
@[simp] theorem State.emit_clusters (s : State) (o : Out) : (s.emit o).clusters = s.clusters := rfl
@[simp] theorem State.emit_groups (s : State) (o : Out) : (s.emit o).groups = s.groups := rfl
@[simp] theorem State.emit_locks (s : State) (o : Out) : (s.emit o).locks = s.locks := rfl
@[simp] theorem State.emit_scratch (s : State) (o : Out) : (s.emit o).scratch = s.scratch := rfl
@[simp] theorem State.emit_scratchBad (s : State) (o : Out) : (s.emit o).scratchBad = s.scratchBad := rfl
@[simp] theorem State.emit_acc (s : State) (o : Out) : (s.emit o).acc = s.acc := rfl
@[simp] theorem State.emit_accBad (s : State) (o : Out) : (s.emit o).accBad = s.accBad := rfl
@[simp] theorem State.emit_veneer (s : State) (o : Out) : (s.emit o).veneer = s.veneer := rfl
@[simp] theorem State.emit_veneerBad (s : State) (o : Out) : (s.emit o).veneerBad = s.veneerBad := rfl
@[simp] theorem State.emit_oldVeneer (s : State) (o : Out) : (s.emit o).oldVeneer = s.oldVeneer := rfl
@[simp] theorem State.emit_tlbs (s : State) (o : Out) : (s.emit o).tlbs = s.tlbs := rfl
@[simp] theorem State.emit_wgs (s : State) (o : Out) : (s.emit o).wgs = s.wgs := rfl
@[simp] theorem State.emit_barriers (s : State) (o : Out) : (s.emit o).barriers = s.barriers := rfl
@[simp] theorem State.emit_layouts (s : State) (o : Out) : (s.emit o).layouts = s.layouts := rfl
@[simp] theorem State.emit_versions (s : State) (o : Out) : (s.emit o).versions = s.versions := rfl
@[simp] theorem State.emit_regions (s : State) (o : Out) : (s.emit o).regions = s.regions := rfl
@[simp] theorem State.emit_pairs (s : State) (o : Out) : (s.emit o).pairs = s.pairs := rfl
@[simp] theorem State.emit_checks (s : State) (o : Out) : (s.emit o).checks = s.checks := rfl
@[simp] theorem State.emit_shadowCap (s : State) (o : Out) : (s.emit o).shadowCap = s.shadowCap := rfl
@[simp] theorem State.emit_loads (s : State) (o : Out) : (s.emit o).loads = s.loads := rfl
@[simp] theorem State.emit_flights (s : State) (o : Out) : (s.emit o).flights = s.flights := rfl
@[simp] theorem State.emit_stores (s : State) (o : Out) : (s.emit o).stores = s.stores := rfl
@[simp] theorem State.emit_engines (s : State) (o : Out) : (s.emit o).engines = s.engines := rfl
@[simp] theorem State.emit_walks (s : State) (o : Out) : (s.emit o).walks = s.walks := rfl
@[simp] theorem State.emit_walkCache (s : State) (o : Out) : (s.emit o).walkCache = s.walkCache := rfl
@[simp] theorem State.emit_hbm (s : State) (o : Out) : (s.emit o).hbm = s.hbm := rfl
@[simp] theorem State.emit_oldWords (s : State) (o : Out) : (s.emit o).oldWords = s.oldWords := rfl
@[simp] theorem State.emit_memBad (s : State) (o : Out) : (s.emit o).memBad = s.memBad := rfl
@[simp] theorem State.emit_l2 (s : State) (o : Out) : (s.emit o).l2 = s.l2 := rfl
@[simp] theorem State.emit_l2Bytes (s : State) (o : Out) : (s.emit o).l2Bytes = s.l2Bytes := rfl
@[simp] theorem State.emit_remotes (s : State) (o : Out) : (s.emit o).remotes = s.remotes := rfl
@[simp] theorem State.emit_remoteBytes (s : State) (o : Out) : (s.emit o).remoteBytes = s.remoteBytes := rfl
@[simp] theorem State.emit_l1 (s : State) (o : Out) : (s.emit o).l1 = s.l1 := rfl
@[simp] theorem State.emit_l1Bytes (s : State) (o : Out) : (s.emit o).l1Bytes = s.l1Bytes := rfl
@[simp] theorem State.emit_l1Parts (s : State) (o : Out) : (s.emit o).l1Parts = s.l1Parts := rfl
@[simp] theorem State.emit_l2Parts (s : State) (o : Out) : (s.emit o).l2Parts = s.l2Parts := rfl
@[simp] theorem State.emit_sliceTs (s : State) (o : Out) : (s.emit o).sliceTs = s.sliceTs := rfl
@[simp] theorem State.emit_retired (s : State) (o : Out) : (s.emit o).retired = s.retired := rfl
@[simp] theorem State.emit_quarantine (s : State) (o : Out) : (s.emit o).quarantine = s.quarantine := rfl
@[simp] theorem State.emit_plants (s : State) (o : Out) : (s.emit o).plants = s.plants := rfl
@[simp] theorem State.emit_sems (s : State) (o : Out) : (s.emit o).sems = s.sems := rfl
@[simp] theorem State.emit_streams (s : State) (o : Out) : (s.emit o).streams = s.streams := rfl
@[simp] theorem State.emit_seqBase (s : State) (o : Out) : (s.emit o).seqBase = s.seqBase := rfl
@[simp] theorem State.emit_countBase (s : State) (o : Out) : (s.emit o).countBase = s.countBase := rfl
@[simp] theorem State.emit_migrations (s : State) (o : Out) : (s.emit o).migrations = s.migrations := rfl
@[simp] theorem State.emit_arms (s : State) (o : Out) : (s.emit o).arms = s.arms := rfl
@[simp] theorem State.emit_lostWindows (s : State) (o : Out) : (s.emit o).lostWindows = s.lostWindows := rfl
@[simp] theorem State.emit_faults (s : State) (o : Out) : (s.emit o).faults = s.faults := rfl
@[simp] theorem State.emit_vfsel (s : State) (o : Out) : (s.emit o).vfsel = s.vfsel := rfl
@[simp] theorem State.emit_slice (s : State) (o : Out) : (s.emit o).slice = s.slice := rfl
@[simp] theorem State.emit_ptroot (s : State) (o : Out) : (s.emit o).ptroot = s.ptroot := rfl
@[simp] theorem State.emit_vfcfg (s : State) (o : Out) : (s.emit o).vfcfg = s.vfcfg := rfl
@[simp] theorem State.emit_vfmem (s : State) (o : Out) : (s.emit o).vfmem = s.vfmem := rfl
@[simp] theorem State.emit_fmtwin (s : State) (o : Out) : (s.emit o).fmtwin = s.fmtwin := rfl
@[simp] theorem State.emit_errinj (s : State) (o : Out) : (s.emit o).errinj = s.errinj := rfl
@[simp] theorem State.emit_acctab (s : State) (o : Out) : (s.emit o).acctab = s.acctab := rfl
@[simp] theorem State.emit_acclog (s : State) (o : Out) : (s.emit o).acclog = s.acclog := rfl
@[simp] theorem State.emit_brkpt (s : State) (o : Out) : (s.emit o).brkpt = s.brkpt := rfl
@[simp] theorem State.emit_dbg (s : State) (o : Out) : (s.emit o).dbg = s.dbg := rfl
@[simp] theorem State.emit_vfHost (s : State) (o : Out) : (s.emit o).vfHost = s.vfHost := rfl
@[simp] theorem State.emit_regQueue (s : State) (o : Out) : (s.emit o).regQueue = s.regQueue := rfl
@[simp] theorem State.emit_queues (s : State) (o : Out) : (s.emit o).queues = s.queues := rfl
@[simp] theorem State.emit_lastQueues (s : State) (o : Out) : (s.emit o).lastQueues = s.lastQueues := rfl
@[simp] theorem State.emit_launches (s : State) (o : Out) : (s.emit o).launches = s.launches := rfl
@[simp] theorem State.emit_nextLaunch (s : State) (o : Out) : (s.emit o).nextLaunch = s.nextLaunch := rfl
@[simp] theorem State.emit_issuedLaunches (s : State) (o : Out) : (s.emit o).issuedLaunches = s.issuedLaunches := rfl
@[simp] theorem State.emit_ports (s : State) (o : Out) : (s.emit o).ports = s.ports := rfl
@[simp] theorem State.emit_linkSeen (s : State) (o : Out) : (s.emit o).linkSeen = s.linkSeen := rfl
@[simp] theorem State.emit_linkNumber (s : State) (o : Out) : (s.emit o).linkNumber = s.linkNumber := rfl
@[simp] theorem State.emit_drain (s : State) (o : Out) : (s.emit o).drain = s.drain := rfl
@[simp] theorem State.emit_packets (s : State) (o : Out) : (s.emit o).packets = s.packets := rfl
@[simp] theorem State.emit_experts (s : State) (o : Out) : (s.emit o).experts = s.experts := rfl
@[simp] theorem State.emit_loadCounters (s : State) (o : Out) : (s.emit o).loadCounters = s.loadCounters := rfl
@[simp] theorem State.emit_rowsWritten (s : State) (o : Out) : (s.emit o).rowsWritten = s.rowsWritten := rfl
@[simp] theorem State.emit_dropped (s : State) (o : Out) : (s.emit o).dropped = s.dropped := rfl
@[simp] theorem State.emit_out (s : State) (o : Out) : (s.emit o).out = s.out ++ [o] := rfl
@[simp] theorem State.emit_halts (s : State) (o : Out) : (s.emit o).halts = s.halts := rfl
@[simp] theorem State.emit_stopDue (s : State) (o : Out) : (s.emit o).stopDue = s.stopDue := rfl
@[simp] theorem State.emit_stepping (s : State) (o : Out) : (s.emit o).stepping = s.stepping := rfl
@[simp] theorem State.emit_signing (s : State) (o : Out) : (s.emit o).signing = s.signing := rfl

/-! ### What the accessors read after an update -/

theorem State.vCell_setV (s : State) (key j : Nat) (c : Cell) : (s.setV key c).vCell j = if j = key then c else s.vCell j :=
  Tab.get_set ..

theorem State.kCell_setK (s : State) (key j : Nat) (c : Cell) : (s.setK key c).kCell j = if j = key then c else s.kCell j :=
  Tab.get_set ..

theorem State.cluster_modCluster (s : State) (c d : Nat) (f : Cluster → Cluster) :
    (s.modCluster c f).cluster d = if d = c then f (s.cluster c) else s.cluster d := Tab.get_set ..

theorem State.die_modDie (s : State) (d e : Nat) (f : Die → Die) : (s.modDie d f).die e = if e = d then f (s.die d) else s.die e :=
  Tab.get_set ..

theorem State.trapRec_setTrap (s : State) (sel j : Nat) (r : TrapRec) : (s.setTrap sel r).trapRec j = if j = sel then r else s.trapRec j :=
  Tab.get_set ..

theorem State.barrier_setBarrier (s : State) (wg b : Nat) (x : Barrier) : (s.setBarrier wg b x).barrier wg b = x := Tab.get_set_same ..

theorem State.look_modWarp (s : State) (sel j : Nat) (f : Warp → Warp) :
    (s.modWarp sel f).warps.look j = if j = sel then (s.warps.look sel).map f else s.warps.look j := Tab.look_modify ..

theorem State.look_modFibre (s : State) (fib j : Nat) (f : Fibre → Fibre) :
    (s.modFibre fib f).fibres.look j = if j = fib then (s.fibres.look fib).map f else s.fibres.look j := Tab.look_modify ..

theorem State.look_modWg (s : State) (g j : Nat) (f : Wg → Wg) :
    (s.modWg g f).wgs.look j = if j = g then (s.wgs.look g).map f else s.wgs.look j := Tab.look_modify ..

end Sys2Proof.Machine
end

