-- ==== Sys2Proof/Laws/Memory.lean ====
section
/-! SUPPORT. The laws of memory: a read after a write, and the canonical form, which every operation that writes HBM keeps. -/

namespace Sys2Proof.Machine

theorem State.reset_hbm_wf : Memory.wf State.reset.hbm = true := rfl

/-- A byte reads as what was stored in it last; every other byte reads as before. -/
theorem Memory.get_set (m : Tab Byte) (pa pb : Nat) (b : Byte) :
    (Tab.set m hbmFresh pa b).get hbmFresh pb = if pb = pa then b else m.get hbmFresh pb := Tab.get_set m hbmFresh pa pb b

theorem Memory.wf_set {m : Tab Byte} (h : Memory.wf m = true) (pa : Nat) (b : Byte) : Memory.wf (m.set hbmFresh pa b) = true := Tab.canon_set h pa b

theorem Memory.wf_store {m : Tab Byte} (h : Memory.wf m = true) (bs : List (Nat × Byte)) :
    Memory.wf (bs.foldl (fun (t : Tab Byte) (p : Nat × Byte) => t.set hbmFresh p.1 p.2) m) = true := Tab.canon_fold bs h

/-! ### Planted errors, marks and lines, which leave HBM alone -/

theorem State.foldl_hbm {α : Type} (f : State → α → State) (hf : ∀ s x, (f s x).hbm = s.hbm) : ∀ (xs : List α) (s : State), (xs.foldl f s).hbm = s.hbm
  | [], _ => rfl
  | x :: xs, s => (State.foldl_hbm f hf xs (f s x)).trans (hf s x)

@[simp] theorem State.spoil_hbm (s : State) (p : Plant) : (s.spoil p).hbm = s.hbm := by
  unfold State.spoil; split
  · rfl
  · split <;> rfl

@[simp] theorem State.noteFired_hbm (s : State) (p : Plant) : (s.noteFired p).hbm = s.hbm := by
  unfold State.noteFired; dsimp only; split <;> rfl

@[simp] theorem State.firePlants_hbm (s : State) (unit : Nat) (at' covered : Nat → Bool) : (s.firePlants unit at' covered).hbm = s.hbm := by
  unfold State.firePlants; split
  · rfl
  · exact State.foldl_hbm _ (by simp) _ _

@[simp] theorem State.cleanWords_hbm (s : State) (bs : List (Nat × Byte)) : (s.cleanWords bs).hbm = s.hbm := by
  unfold State.cleanWords; split <;> rfl

@[simp] theorem State.markBad_hbm (s : State) (pa : Nat) : (s.markBad pa).hbm = s.hbm := rfl

@[simp] theorem State.noteOld_hbm (s : State) (bs : List (Nat × Byte)) : (s.noteOld bs).hbm = s.hbm := by
  unfold State.noteOld; dsimp only; split <;> rfl

@[simp] theorem State.putL2_hbm (s : State) (bs : List (Nat × Byte)) : (s.putL2 bs).hbm = s.hbm := by simp [State.putL2]

@[simp] theorem State.modL2_hbm (s : State) (line : Nat) (f : L2Line → L2Line) : (s.modL2 line f).hbm = s.hbm := rfl

/-! ### The operations that write HBM -/

theorem State.dropL2_wf (s : State) (line : Nat) (writeBack : Bool) (h : Memory.wf s.hbm = true) : Memory.wf (s.dropL2 line writeBack).hbm = true := by
  cases writeBack
  · exact h
  · simpa [State.dropL2] using Memory.wf_store h _

theorem State.writeBlock_wf (s : State) (w : Win) (j : Nat) (codes : List Nat) (h : Memory.wf s.hbm = true) :
    Memory.wf (s.writeBlock w j codes).hbm = true := by
  simpa only [State.writeBlock, State.firePlants_hbm] using Memory.wf_store h _

theorem State.writeThrough_wf (s : State) (bs : List (Nat × Byte)) (h : Memory.wf s.hbm = true) : Memory.wf (s.writeThrough bs).hbm = true := by
  simpa only [State.writeThrough, State.firePlants_hbm] using Memory.wf_store h _

theorem State.clearHbm_wf (s : State) (die : Nat) (h : Memory.wf s.hbm = true) : Memory.wf (s.clearHbm die).hbm = true := by
  exact Tab.canon_keep h fun pa (_ : Byte) => !decide (s.ownDie pa = some die)

/-- Memory after a die's clearing: its own bytes read 0, every other byte as before. -/
theorem State.clearHbm_get (s : State) (die pa : Nat) :
    (s.clearHbm die).hbm.get hbmFresh pa = if s.ownDie pa = some die then 0 else s.hbm.get hbmFresh pa := by
  simp only [State.clearHbm, Tab.get]
  induction s.hbm with
  | nil => simp [Tab.keep, Tab.look, hbmFresh]
  | cons p t ih =>
    obtain ⟨k, b⟩ := p
    simp only [Tab.keep, List.filter] at ih ⊢
    by_cases hk : s.ownDie k = some die <;> by_cases hp : pa = k
    · subst hp; simp [hk] at ih ⊢; simpa using ih
    · simpa [hk, Tab.look, hp] using ih
    · subst hp; simp [hk, Tab.look]
    · simpa [hk, Tab.look, hp] using ih

theorem State.place_wf (s : State) (w : Nat) (h : Memory.wf s.hbm = true) : Memory.wf (s.place w).hbm = true := Memory.wf_store h _

/-- The invariant's memory half at a state whose memory is another's. -/
theorem Memory.wf_of_eq {s t : State} (h : t.hbm = s.hbm) (hs : Memory.wf s.hbm = true) : Memory.wf t.hbm = true := h ▸ hs

end Sys2Proof.Machine
end

