-- ==== Sys2Proof/Laws/Vec.lean ====
section
/-! SUPPORT. The laws of an instruction's end, of the operand reads and of the register writes (R126, R144). -/

namespace Sys2Proof.Machine

/-! ### Folds over fibres -/

/-- A fold that changes fibres changes nothing else. -/
theorem foldl_modFibre_only (ls : List Nat) (k : Nat → Nat) (f : Nat → Fibre → Fibre) : ∀ s : State,
    ls.foldl (fun s l => s.modFibre (k l) (f l)) s = { s with fibres := (ls.foldl (fun s l => s.modFibre (k l) (f l)) s).fibres } := by
  induction ls with
  | nil => intro s; rfl
  | cons l ls ih => intro s; rw [List.foldl_cons, ih]; rfl

/-- What a fold of changes to distinct fibres leaves in each. -/
theorem foldl_modFibre_look (ls : List Nat) (k : Nat → Nat) (hk : ∀ a b, k a = k b → a = b) (f : Nat → Fibre → Fibre) : ls.Nodup →
    ∀ (s : State) (l : Nat), l ∈ ls → (ls.foldl (fun s l => s.modFibre (k l) (f l)) s).fibres.look (k l) = (s.fibres.look (k l)).map (f l) := by
  induction ls with
  | nil => intro _ s l h; cases h
  | cons a ls ih =>
    intro hn s l h
    rw [List.nodup_cons] at hn
    rw [List.foldl_cons]
    by_cases hl : l ∈ ls
    · have hne : k l ≠ k a := fun e => hn.1 (hk _ _ e ▸ hl)
      rw [ih hn.2 _ l hl, State.look_modFibre, if_neg hne]
    · have e : l = a := by simpa [hl] using h
      subst e
      have : ∀ (ms : List Nat) (s : State), l ∉ ms →
          (ms.foldl (fun s l => s.modFibre (k l) (f l)) s).fibres.look (k l) = s.fibres.look (k l) := by
        intro ms
        induction ms with
        | nil => intro s _; rfl
        | cons m ms ihm =>
          intro s hm
          simp only [List.mem_cons, not_or] at hm
          rw [List.foldl_cons, ihm _ hm.2, State.look_modFibre, if_neg fun e => hm.1 (hk _ _ e)]
      rw [this ls _ hl, State.look_modFibre, if_pos rfl]

/-- A fold of changes that an erasing function does not see keeps what is left of every fibre. -/
theorem foldl_modFibre_keeps {α : Type} (ls : List Nat) (k : Nat → Nat) (f : Nat → Fibre → Fibre) (e : Nat → Fibre → α)
    (h : ∀ n l x, e n (f l x) = e n x) : ∀ (s : State) (n : Nat),
    ((ls.foldl (fun s l => s.modFibre (k l) (f l)) s).fibres.look n).map (e n) = (s.fibres.look n).map (e n) := by
  induction ls with
  | nil => intro s n; rfl
  | cons l ls ih =>
    intro s n
    rw [List.foldl_cons, ih, State.look_modFibre]
    split
    · subst n; cases s.fibres.look (k l) <;> simp [h]
    · rfl

theorem fibreKey_inj (sel : Nat) : ∀ a b, fibreKey sel a = fibreKey sel b → a = b := by
  intro a b h; simp only [fibreKey] at h; omega

/-! ### The end of an instruction (R126) -/

/-- What an instruction's end changes: positions and deferrals of fibres, the batch and marks of warps, port holders. -/
structure EndOnly (s t : State) : Prop where
  only : t = { s with fibres := t.fibres, warps := t.warps, clusters := t.clusters }
  fibres : ∀ n, (t.fibres.look n).map Fibre.still = (s.fibres.look n).map Fibre.still
  warps : ∀ n, (t.warps.look n).map Warp.still = (s.warps.look n).map Warp.still
  clusters : ∀ c, (t.cluster c).still = (s.cluster c).still

theorem EndOnly.refl (s : State) : EndOnly s s := ⟨rfl, fun _ => rfl, fun _ => rfl, fun _ => rfl⟩

theorem EndOnly.trans {s t u : State} (h : EndOnly s t) (h' : EndOnly t u) : EndOnly s u where
  only := by
    have a := h.only; have b := h'.only
    rw [b]; conv => lhs; rw [a]
  fibres n := (h'.fibres n).trans (h.fibres n)
  warps n := (h'.warps n).trans (h.warps n)
  clusters c := (h'.clusters c).trans (h.clusters c)

theorem endOnly_freePort (s : State) (sel : Nat) : EndOnly s (s.freePort sel) where
  only := rfl
  fibres _ := rfl
  warps _ := rfl
  clusters c := by
    simp only [State.freePort, State.cluster_modCluster]
    split
    · subst c; rfl
    · rfl

theorem endOnly_modWarp (s : State) (sel : Nat) (f : Warp → Warp) (h : ∀ w, (f w).still = w.still) : EndOnly s (s.modWarp sel f) where
  only := rfl
  fibres _ := rfl
  warps n := by
    rw [State.look_modWarp]
    split
    · subst n; cases s.warps.look sel <;> simp [h]
    · rfl
  clusters _ := rfl

theorem endOnly_fold (s : State) (ls : List Nat) (k : Nat → Nat) (f : Nat → Fibre → Fibre) (h : ∀ l x, (f l x).still = x.still) :
    EndOnly s (ls.foldl (fun s l => s.modFibre (k l) (f l)) s) := by
  have e := foldl_modFibre_only ls k f s
  refine ⟨?_, fun n => foldl_modFibre_keeps ls k f (fun _ => Fibre.still) (fun _ l x => h l x) s n, ?_, ?_⟩
  · rw [e]
  · intro n; rw [e]
  · intro c; rw [e]; rfl

theorem endOnly_endClause (s : State) (sel : Nat) (back : List Nat) : EndOnly s (s.endClause sel back) := by
  unfold State.endClause
  refine EndOnly.trans (endOnly_freePort s sel) (EndOnly.trans (endOnly_modWarp _ sel _ fun w => ?_) (endOnly_fold _ back _ _ fun l x => ?_))
  · rfl
  · split <;> rfl

theorem Fibre.still_next (f : Fibre) : f.next.still = f.still := by
  unfold Fibre.next; split <;> rfl

theorem endOnly_advance (s : State) (sel : Nat) (lanes : List Nat) : EndOnly s (s.advance sel lanes) := by
  unfold State.advance
  have h := endOnly_fold s lanes (fibreKey sel) (fun _ => Fibre.next) fun _ x => x.still_next
  dsimp only
  split
  · exact h.trans (endOnly_endClause _ _ _)
  · refine h.trans (endOnly_modWarp _ _ _ fun w => ?_)
    cases w; simp [Warp.still]

/-- The end of an instruction moves no pc but those it lists. -/
theorem pc_endClause (s : State) (sel : Nat) (back : List Nat) (n : Nat) :
    ((s.endClause sel back).fibres.look n).map Fibre.pc = (s.fibres.look n).map Fibre.pc := by
  unfold State.endClause
  exact foldl_modFibre_keeps back _ _ (fun _ => Fibre.pc) (fun _ l x => by split <;> rfl) _ n

theorem Fibre.pc_next (f : Fibre) : f.next.pc = f.pc + 8 := by
  unfold Fibre.next; split <;> rfl

/-- A batch of distinct lanes that goes on stands at the next word. -/
theorem advanced_advance (s : State) (sel : Nat) (lanes : List Nat) (h : lanes.Nodup) : ∀ l ∈ lanes,
    ((s.advance sel lanes).fibres.look (fibreKey sel l)).map Fibre.pc = (s.fibres.look (fibreKey sel l)).map fun f => f.pc + 8 := by
  intro l hl
  have e := foldl_modFibre_look lanes (fibreKey sel) (fibreKey_inj sel) (fun _ => Fibre.next) h s l hl
  unfold State.advance
  dsimp only
  have e' : (((lanes.foldl (fun s l => s.modFibre (fibreKey sel l) Fibre.next) s).fibres.look (fibreKey sel l)).map Fibre.pc) =
      (s.fibres.look (fibreKey sel l)).map fun f => f.pc + 8 := by
    rw [e]; cases s.fibres.look (fibreKey sel l) <;> simp [Fibre.pc_next]
  split
  · rw [pc_endClause, e']
  · exact e'

/-! ### What the register gate says (R142, steps 7 and 8) -/

theorem regGate_none {s : State} {sel : Nat} {lanes : List Nat} {ops : List Opnd} (h : s.regGate sel lanes ops = none) :
    (∀ l ∈ lanes, ∀ o ∈ ops, s.windowTrap sel l o = none) ∧ ∀ l ∈ lanes, ∀ o ∈ ops, s.stateStop sel l o = none := by
  unfold State.regGate State.regGateBy at h
  split at h
  · cases h
  · rename_i h1
    split at h
    · cases h
    · simp only [List.findSome?_eq_none_iff, List.mem_map, forall_exists_index, and_imp, forall_apply_eq_imp_iff₂] at h h1
      exact ⟨h1, h⟩

/-- The lanes whose guard is true are lanes of the batch, distinct if those are, and have fibres. -/
theorem guarded_mem {s : State} {sel : Nat} {lanes : List Nat} {g : Fin 8} {l : Nat} (h : l ∈ s.guarded sel lanes g) :
    l ∈ lanes ∧ ∃ f, s.fibres.look (fibreKey sel l) = some f := by
  simp only [State.guarded, List.mem_filter] at h
  refine ⟨h.1, ?_⟩
  cases e : s.fibres.look (fibreKey sel l) with
  | none => simp [e] at h
  | some f => exact ⟨f, rfl⟩

theorem guarded_nodup {s : State} {sel : Nat} {lanes : List Nat} (h : lanes.Nodup) (g : Fin 8) : (s.guarded sel lanes g).Nodup :=
  h.filter _

/-- A v register inside the window has a physical number below 128. -/
theorem window_lt {s : State} {sel l : Nat} {n : Fin 128} {wide : Bool} {f : Fibre} (hf : s.fibres.look (fibreKey sel l) = some f)
    (h : s.windowTrap sel l (dstOpnd (.v n) wide) = none) : ∀ i < (if wide then 2 else 1), f.wb.toNat + n + i < 128 := by
  intro i hi
  simp only [State.windowTrap, dstOpnd, Opnd.lane, hf, Opnd.words, List.findSome?_eq_none_iff, List.mem_range] at h
  have := h i hi
  by_cases hc : f.wb.toNat + n + i ≥ 128
  · rw [if_pos hc] at this; cases this
  · omega

/-! ### Register writes -/

/-- A list of writes of v registers. -/
def State.setVs (s : State) (ps : List (Nat × Cell)) : State := ps.foldl (fun s p => s.setV p.1 p.2) s

theorem State.setVs_only (ps : List (Nat × Cell)) : ∀ s : State, s.setVs ps = { s with vRegs := (s.setVs ps).vRegs } := by
  induction ps with
  | nil => intro s; rfl
  | cons p ps ih => intro s; unfold State.setVs at ih ⊢; rw [List.foldl_cons, ih]; rfl

theorem State.setVs_ne (ps : List (Nat × Cell)) (key : Nat) (h : ∀ p ∈ ps, p.1 ≠ key) : ∀ s : State, (s.setVs ps).vCell key = s.vCell key := by
  induction ps with
  | nil => intro s; rfl
  | cons p ps ih =>
    intro s
    have hp := h p (by simp)
    show ((s.setV p.1 p.2).setVs ps).vCell key = _
    rw [ih (fun q hq => h q (by simp [hq])), State.vCell_setV, if_neg (Ne.symm hp)]

theorem State.setVs_mem (ps : List (Nat × Cell)) : (ps.map Prod.fst).Nodup → ∀ (s : State), ∀ p ∈ ps, (s.setVs ps).vCell p.1 = p.2 := by
  induction ps with
  | nil => intro _ s p hp; cases hp
  | cons q ps ih =>
    intro hn s p hp
    simp only [List.map_cons, List.nodup_cons] at hn
    show ((s.setV q.1 q.2).setVs ps).vCell p.1 = _
    rcases List.mem_cons.mp hp with rfl | hp
    · rw [State.setVs_ne, State.vCell_setV, if_pos rfl]
      intro r hr e; exact hn.1 (e ▸ List.mem_map_of_mem hr)
    · exact ih hn.2 _ p hp

/-- The cells that a result of one lane stores. -/
def resultCells (key : Nat) (wide : Bool) (x : Nat) (fl : Option Nat) : List (Nat × Cell) :=
  (key, ⟨.full, BitVec.ofNat 32 x, fl⟩) :: if wide then [(key + 1, ⟨.full, BitVec.ofNat 32 (x / 2 ^ 32), fl⟩)] else []

theorem State.storeV_clean {s : State} (h : s.plants = []) (key : Nat) (c : Cell) : s.storeV key c = s.setV key c := by
  unfold State.storeV State.firePlants
  simp [h]

theorem State.inject_clean {s : State} (h : s.plants = []) (fib x : Nat) : s.inject fib x = (x, s) := by
  unfold State.inject; simp [h]

/-- A result of one lane in a v register. -/
theorem State.writeVec_v {s : State} (h : s.plants = []) {sel l : Nat} {f : Fibre} (hf : s.fibres.look (fibreKey sel l) = some f)
    (n : Fin 128) (wide : Bool) (x : Nat) (fl : Option Nat) :
    s.writeVec sel l (.v n) wide x fl = s.setVs (resultCells (vKey (fibreKey sel l) (f.wb.toNat + n)) wide x fl) := by
  have hk : vKey (fibreKey sel l) (f.wb.toNat + ↑n + 1) = vKey (fibreKey sel l) (f.wb.toNat + ↑n) + 1 := by simp only [vKey]; omega
  cases wide <;>
    simp [State.writeVec, State.inject_clean h, State.writeReg, State.writeWord, hf, State.storeV_clean h, State.setVs, resultCells, State.storeV_clean, h, hk]

/-- The results of several lanes in a v register. -/
theorem State.writeLanes_v (sel : Nat) (n : Fin 128) (wide : Bool) (wb : Nat → Nat) (rs : List (Nat × Nat × Option Nat)) :
    ∀ {s : State}, s.plants = [] → (∀ p ∈ rs, ∃ f, s.fibres.look (fibreKey sel p.1) = some f ∧ f.wb.toNat = wb p.1) →
    s.writeLanes sel (.v n) wide rs =
      s.setVs (rs.flatMap fun p => resultCells (vKey (fibreKey sel p.1) (wb p.1 + n)) wide p.2.1 p.2.2) := by
  unfold State.writeLanes
  dsimp only
  induction rs with
  | nil => intro s _ _; rfl
  | cons p rs ih =>
    intro s h hf
    obtain ⟨f, hf1, hw⟩ := hf p (by simp)
    rw [List.foldl_cons, State.writeVec_v h hf1, hw]
    have e := State.setVs_only (resultCells (vKey (fibreKey sel p.1) (wb p.1 + n)) wide p.2.1 p.2.2) s
    rw [ih (by rw [e]; exact h) (fun q hq => by rw [e]; exact hf q (by simp [hq]))]
    simp only [State.setVs, List.flatMap_cons, List.foldl_append]

/-! ### What is read after a write -/

/-- The value that the cells of a result stand for. -/
theorem peekCells_result (isK : Bool) (key : Nat) (wide : Bool) (x : Nat) (fl : Option Nat) :
    peekCells isK (resultCells key wide x fl) = .full (x % (if wide then 2 ^ 64 else 2 ^ 32)) := by
  cases wide
  · simp [resultCells, peekCells]
  · simp [resultCells, peekCells]
    omega

/-- A lane's v register after its cells were stored. -/
theorem peek_v {t : State} {sel l : Nat} {f : Fibre} (hf : t.fibres.look (fibreKey sel l) = some f) (n : Fin 128) (wide : Bool) (x : Nat)
    (fl : Option Nat) (h : ∀ p ∈ resultCells (vKey (fibreKey sel l) (f.wb.toNat + n)) wide x fl, t.vCell p.1 = p.2) :
    t.peek sel l (regOpnd (.v n) false wide) = .full (x % (if wide then 2 ^ 64 else 2 ^ 32)) := by
  have hk : vKey (fibreKey sel l) (f.wb.toNat + ↑n + 1) = vKey (fibreKey sel l) (f.wb.toNat + ↑n) + 1 := by simp only [vKey]; omega
  have hc : t.cells sel l (regOpnd (.v n) false wide) = resultCells (vKey (fibreKey sel l) (f.wb.toNat + n)) wide x fl := by
    cases wide <;>
      simp_all [State.cells, regOpnd, Opnd.lane, Opnd.words, resultCells, List.range_succ]
  simp only [State.peek, regOpnd] at hc ⊢
  rw [hc, peekCells_result]

/-- The keys that a write of a lane's v register stores. -/
theorem cells_v {s : State} {sel l : Nat} {f : Fibre} (hf : s.fibres.look (fibreKey sel l) = some f) (n : Fin 128) (wide : Bool) (x : Nat)
    (fl : Option Nat) : (s.cells sel l (dstOpnd (.v n) wide)).map Prod.fst =
      (resultCells (vKey (fibreKey sel l) (f.wb.toNat + n)) wide x fl).map Prod.fst := by
  have hk : vKey (fibreKey sel l) (f.wb.toNat + ↑n + 1) = vKey (fibreKey sel l) (f.wb.toNat + ↑n) + 1 := by simp only [vKey]; omega
  cases wide <;> simp [State.cells, dstOpnd, Opnd.lane, Opnd.words, resultCells, List.range_succ, hf, hk]

/-- The cells of distinct lanes have distinct keys. -/
theorem resultCells_nodup (sel : Nat) (n : Fin 128) (wide : Bool) (wb : Nat → Nat) (rs : List (Nat × Nat × Option Nat))
    (hn : (rs.map Prod.fst).Nodup) (hw : ∀ p ∈ rs, ∀ i < (if wide then 2 else 1), wb p.1 + n + i < 128) :
    ((rs.flatMap fun p => resultCells (vKey (fibreKey sel p.1) (wb p.1 + n)) wide p.2.1 p.2.2).map Prod.fst).Nodup := by
  have hlt : ∀ p ∈ rs, ∀ k ∈ (resultCells (vKey (fibreKey sel p.1) (wb p.1 + n)) wide p.2.1 p.2.2).map Prod.fst, k / 128 = fibreKey sel p.1 := by
    intro p hp k hk
    have h0 := hw p hp 0
    have h1 := hw p hp 1
    cases wide <;> simp [resultCells] at hk h0 h1
    · subst k; simp only [vKey]; omega
    · rcases hk with rfl | rfl <;> simp only [vKey] <;> omega
  clear hw
  induction rs with
  | nil => simp
  | cons p rs ih =>
    simp only [List.map_cons, List.nodup_cons] at hn
    simp only [List.flatMap_cons, List.map_append]
    rw [List.nodup_append]
    refine ⟨?_, ih hn.2 fun q hq => hlt q (by simp [hq]), ?_⟩
    · cases wide <;> simp [resultCells]
    · intro a ha b hb e
      subst e
      simp only [List.map_flatMap, List.mem_flatMap] at hb
      obtain ⟨q, hq, hb⟩ := hb
      have e1 := hlt p (by simp) a ha
      have e2 := hlt q (by simp [hq]) a hb
      have e3 : p.1 = q.1 := fibreKey_inj sel _ _ (e1.symm.trans e2)
      exact hn.1 (e3 ▸ List.mem_map_of_mem hq)

/-! ### The results of an instruction, whatever its destination -/

/-- What the writing of results leaves, before flags are raised and the batch goes on. -/
structure Stored (s u : State) (d : Reg) (wide : Bool) (lanes : List Nat) (x : Nat → Nat) : Prop where
  only : u = { s with vRegs := u.vRegs, kRegs := u.kRegs, warps := u.warps }
  warps : ∀ n, (u.warps.look n).map (lessSpecial s.actor d 0 n) = (s.warps.look n).map (lessSpecial s.actor d 0 n)
  batches : ∀ n, (u.warps.look n).map (fun w => (w.wg, w.batch)) = (s.warps.look n).map fun w => (w.wg, w.batch)
  fpc : d ≠ .sp 21 → (u.warps.look s.actor).map Warp.fpc = (s.warps.look s.actor).map Warp.fpc
  registers : RegsKept s u d wide lanes
  result : Delivers s u d wide lanes x 0

theorem State.writeVec_k {s : State} (h : s.plants = []) (sel l : Nat) (n : Fin 64) (wide : Bool) (x : Nat) (fl : Option Nat) :
    s.writeVec sel l (.k n) wide x fl =
      (fun u : State => if wide then u.setK (kKey sel (n + 1)) ⟨.full, BitVec.ofNat 32 (x / 2 ^ 32), fl⟩ else u)
        (if n = 0 then s else s.setK (kKey sel n) ⟨.full, BitVec.ofNat 32 x, fl⟩) := by
  by_cases hn : n = 0
  · subst hn; cases wide <;> simp [State.writeVec, State.inject_clean h, State.writeReg, State.writeWord]
  · have : n.val ≠ 0 := fun e => hn (Fin.ext e)
    cases wide <;> simp [State.writeVec, State.inject_clean h, State.writeReg, State.writeWord, hn, this]

theorem State.writeVec_sp {s : State} (h : s.plants = []) (sel l : Nat) (n : Fin 25) (x : Nat) (fl : Option Nat) :
    s.writeVec sel l (.sp n) false x fl =
      if n = 17 then s.modWarp sel fun w => { w with iter := BitVec.ofNat 32 x }
      else if n = 21 then s.modWarp sel fun w => { w with fpc := BitVec.ofNat 32 x &&& 0x1F3 }
      else s := by
  have e1 : (n.val = 17) = (n = 17) := by rw [Fin.ext_iff]; rfl
  have e2 : (n.val = 21) = (n = 21) := by rw [Fin.ext_iff]; rfl
  simp [State.writeVec, State.inject_clean h, State.writeReg, State.writeWord, e1, e2]

theorem stored_v {s : State} (h : s.plants = []) (n : Fin 128) (wide : Bool) (lanes : List Nat) (hn : lanes.Nodup)
    (hf : ∀ l ∈ lanes, ∃ f, s.fibres.look (fibreKey s.actor l) = some f)
    (hw : ∀ l ∈ lanes, s.windowTrap s.actor l (dstOpnd (.v n) wide) = none) (x : Nat → Nat) (fl : Nat → Option Nat) :
    Stored s (s.writeLanes s.actor (.v n) wide (lanes.map fun l => (l, x l, fl l))) (.v n) wide lanes x := by
  let wb : Nat → Nat := fun l => ((s.fibres.look (fibreKey s.actor l)).map fun f => f.wb.toNat).getD 0
  have hwb : ∀ l f, s.fibres.look (fibreKey s.actor l) = some f → f.wb.toNat = wb l := by intro l f e; simp [wb, e]
  have hrs : ∀ p ∈ lanes.map fun l => (l, x l, fl l), ∃ f, s.fibres.look (fibreKey s.actor p.1) = some f ∧ f.wb.toNat = wb p.1 := by
    intro p hp
    simp only [List.mem_map] at hp
    obtain ⟨l, hl, rfl⟩ := hp
    obtain ⟨f, e⟩ := hf l hl
    exact ⟨f, e, hwb l f e⟩
  have hwin : ∀ p ∈ lanes.map fun l => (l, x l, fl l), ∀ i < (if wide then 2 else 1), wb p.1 + n + i < 128 := by
    intro p hp
    simp only [List.mem_map] at hp
    obtain ⟨l, hl, rfl⟩ := hp
    obtain ⟨f, e⟩ := hf l hl
    dsimp only
    rw [← hwb l f e]
    exact window_lt e (hw l hl)
  have hnd : ((lanes.map fun l => (l, x l, fl l)).map Prod.fst).Nodup := by rw [List.map_map]; exact (List.map_id lanes).symm ▸ hn
  have hkeys := resultCells_nodup s.actor n wide wb _ hnd hwin
  rw [State.writeLanes_v s.actor n wide wb _ h hrs]
  let ps := (lanes.map fun l => (l, x l, fl l)).flatMap fun p => resultCells (vKey (fibreKey s.actor p.1) (wb p.1 + n)) wide p.2.1 p.2.2
  have hmem : ∀ l ∈ lanes, ∀ q ∈ resultCells (vKey (fibreKey s.actor l) (wb l + n)) wide (x l) (fl l), q ∈ ps := by
    intro l hl q hq
    exact List.mem_flatMap.mpr ⟨_, List.mem_map_of_mem hl, hq⟩
  show Stored s (s.setVs ps) _ _ _ _
  have e := State.setVs_only ps s
  have hsame : (s.setVs ps).fibres = s.fibres := by rw [e]
  have hwarps : (s.setVs ps).warps = s.warps := by rw [e]
  refine ⟨?_, ?_, ?_, ?_, ⟨?_, ?_⟩, ?_⟩
  · rw [e]
  · intro n; rw [hwarps]
  · intro n; rw [hwarps]
  · intro _; rw [hwarps]
  · intro key hk
    refine State.setVs_ne ps key ?_ s
    intro q hq e
    obtain ⟨p, hp, hq⟩ := List.mem_flatMap.mp hq
    simp only [List.mem_map] at hp
    obtain ⟨l, hl, rfl⟩ := hp
    obtain ⟨f, ef⟩ := hf l hl
    refine hk rfl l hl ?_
    rw [cells_v ef n wide (x l) (fl l), hwb l f ef]
    exact e ▸ List.mem_map_of_mem hq
  · intro key _
    rw [State.kCell, e]; rfl
  · intro l hl
    obtain ⟨f, ef⟩ := hf l hl
    refine peek_v (f := f) (by rw [hsame]; exact ef) n wide (x l) (fl l) ?_
    intro q hq
    rw [hwb l f ef] at hq
    exact State.setVs_mem ps hkeys s q (hmem l hl q hq)

theorem kKey_inj (sel a b : Nat) (h : kKey sel a = kKey sel b) : a = b := by simp only [kKey] at h; omega

theorem stored_k {s : State} (h : s.plants = []) (n : Fin 64) (wide : Bool) (lanes : List Nat) (x : Nat → Nat) (fl : Nat → Option Nat) :
    Stored s (s.writeLanes s.actor (.k n) wide (lanes.map fun l => (l, x l, fl l))) (.k n) wide lanes x := by
  cases lanes with
  | nil =>
    refine ⟨rfl, fun _ => rfl, fun _ => rfl, fun _ => rfl, ⟨fun _ _ => rfl, fun _ _ => rfl⟩, ?_⟩
    intro l hl; cases hl
  | cons l ls =>
    simp only [State.writeLanes, List.map_cons, State.writeVec_k h]
    have h1 : ∀ key, key ∉ (s.cells s.actor 0 (dstOpnd (.k n) wide)).map Prod.fst → (∀ i < (if wide then 2 else 1), key ≠ kKey s.actor (n + i)) := by
      intro key hk i hi e
      refine hk ?_
      simp only [State.cells, dstOpnd, Opnd.words, List.map_map, List.mem_map, List.mem_range]
      exact ⟨i, by cases wide <;> simpa using hi, e.symm⟩
    refine ⟨?_, ?_, ?_, ?_, ⟨?_, ?_⟩, ?_⟩
    · cases wide <;> simp <;> split <;> rfl
    · intro m; cases wide <;> simp <;> split <;> rfl
    · intro m; cases wide <;> simp <;> split <;> rfl
    · intro _; cases wide <;> simp <;> split <;> rfl
    · intro key _; cases wide <;> simp <;> split <;> rfl
    · intro key hk
      have hk := h1 key (hk rfl)
      have h0 := hk 0 (by cases wide <;> simp)
      cases wide
      · simp only [Bool.false_eq_true, if_false]
        split
        · rfl
        · rw [State.kCell_setK, if_neg (by simpa using h0)]
      · have h2 := hk 1 (by simp)
        simp only [if_true]
        rw [State.kCell_setK, if_neg h2]
        split
        · rfl
        · rw [State.kCell_setK, if_neg (by simpa using h0)]
    · intro l' hl'
      simp only [List.head?_cons, Option.mem_def, Option.some.injEq] at hl'
      subst hl'
      have hne : kKey s.actor ↑n ≠ kKey s.actor (↑n + 1) := fun e => by have := kKey_inj _ _ _ e; omega
      by_cases hn : n = 0
      · subst hn
        cases wide <;>
          simp [Holds, State.peek, regOpnd, State.cells, Opnd.words, List.range_succ, State.kRead, peekCells, Cell.zero, State.kCell_setK]
      · have hn' : n.val ≠ 0 := fun e => hn (Fin.ext e)
        cases wide
        · simp [Holds, State.peek, regOpnd, State.cells, Opnd.words, List.range_succ, State.kRead, peekCells, State.kCell_setK, hn, hn']
        · simp [Holds, State.peek, regOpnd, State.cells, Opnd.words, List.range_succ, State.kRead, peekCells, State.kCell_setK, hn, hn', hne]
          omega

theorem special_iter {s : State} {sel : Nat} {w : Warp} (h : s.warps.look sel = some w) (l : Nat) : s.special sel l 17 = w.iter.toNat := by
  simp [State.special, h]

theorem special_fpc {s : State} {sel : Nat} {w : Warp} (h : s.warps.look sel = some w) (l : Nat) : s.special sel l 21 = w.fpc.toNat := by
  simp [State.special, h]

theorem stored_sp {s : State} (h : s.plants = []) (hw : (s.warps.look s.actor).isSome = true) (n : Fin 25) (hd : (Reg.sp n).writable = true)
    (lanes : List Nat) (x : Nat → Nat) (fl : Nat → Option Nat) :
    Stored s (s.writeLanes s.actor (.sp n) false (lanes.map fun l => (l, x l, fl l))) (.sp n) false lanes x := by
  cases lanes with
  | nil =>
    refine ⟨rfl, fun _ => rfl, fun _ => rfl, fun _ => rfl, ⟨fun _ _ => rfl, fun _ _ => rfl⟩, ?_⟩
    intro l hl; cases hl
  | cons l ls =>
    obtain ⟨w, hw⟩ := Option.isSome_iff_exists.mp hw
    have hn : n = 17 ∨ n = 21 := by
      simp only [Reg.writable, Bool.or_eq_true, decide_eq_true_eq] at hd
      exact hd.imp (fun e => Fin.ext e) fun e => Fin.ext e
    simp only [State.writeLanes, List.map_cons, State.writeVec_sp h]
    rcases hn with rfl | rfl
    · simp only [if_true]
      refine ⟨rfl, ?_, ?_, ?_, ⟨fun _ _ => rfl, fun _ _ => rfl⟩, ?_⟩
      · intro m; rw [State.look_modWarp]
        split
        · subst m; simp [hw, lessSpecial]
        · rfl
      · intro m; rw [State.look_modWarp]
        split
        · subst m; simp [hw]
        · rfl
      · intro _; rw [State.look_modWarp, if_pos rfl, hw]; rfl
      · intro l' _
        refine (special_iter (w := { w with iter := BitVec.ofNat 32 (x l) }) (by rw [State.look_modWarp, if_pos rfl, hw]; rfl) l').trans ?_
        simp_all
    · have : ((21 : Fin 25) = 17) = False := by decide
      simp only [this, if_false, if_true]
      refine ⟨rfl, ?_, ?_, ?_, ⟨fun _ _ => rfl, fun _ _ => rfl⟩, ?_⟩
      · intro m; rw [State.look_modWarp]
        split
        · subst m; simp [hw, lessSpecial]
        · rfl
      · intro m; rw [State.look_modWarp]
        split
        · subst m; simp [hw]
        · rfl
      · intro e; exact absurd rfl e
      · intro l' hl
        refine (special_fpc (w := { w with fpc := BitVec.ofNat 32 (x l) &&& 0x1F3 }) (by rw [State.look_modWarp, if_pos rfl, hw]; rfl) l').trans ?_
        simp_all [BitVec.toNat_and]

/-- The results of an instruction that has passed its checks. -/
theorem stored {s : State} (h : s.plants = []) (hw : (s.warps.look s.actor).isSome = true) (d : Reg) (wide : Bool) (hd : d.dstOk wide = true)
    (lanes : List Nat) (hn : lanes.Nodup) (hf : ∀ l ∈ lanes, ∃ f, s.fibres.look (fibreKey s.actor l) = some f)
    (hwin : ∀ l ∈ lanes, s.windowTrap s.actor l (dstOpnd d wide) = none) (x : Nat → Nat) (fl : Nat → Option Nat) :
    Stored s (s.writeLanes s.actor d wide (lanes.map fun l => (l, x l, fl l))) d wide lanes x := by
  cases d with
  | v n => exact stored_v h n wide lanes hn hf hwin x fl
  | k n => exact stored_k h n wide lanes x fl
  | sp n =>
    cases wide with
    | false => exact stored_sp h hw n (by simpa [Reg.dstOk] using hd) lanes x fl
    | true => simp [Reg.dstOk, Reg.evenVK, Reg.isVK, Reg.isV, Reg.isK] at hd

theorem lessSpecial_still (sel : Nat) (d : Reg) (fl n : Nat) (w : Warp) : lessSpecial sel d fl n w.still = (lessSpecial sel d fl n w).still := by
  unfold lessSpecial
  repeat' split
  all_goals rfl

theorem lessSpecial_zero (sel : Nat) (d : Reg) (fl n : Nat) (w : Warp) : lessSpecial sel d fl n (lessSpecial sel d 0 n w) = lessSpecial sel d fl n w := by
  by_cases h1 : n = sel <;> by_cases h2 : d = .sp 17 <;> by_cases h3 : d = .sp 21 <;> by_cases h4 : fl = 0 <;>
    simp_all [lessSpecial]

theorem orFlags_eq (s : State) (sel m : Nat) : s.orFlags sel m = if m = 0 then s else s.modWarp sel fun w => { w with fpc := w.fpc ||| BitVec.ofNat 32 m } := rfl

/-- From the results to the state after the instruction: flags, then the end. -/
theorem writes_of_stored {s u : State} {op : Nat} (ha : Admitted s op) {g : Fin 8} {d : Reg} {wide : Bool} (hd : d.dstOk wide = true)
    {x : Nat → Nat} (m : Nat) (hm : m < 2 ^ 32) (h : Stored s u d wide (activeLanes s g) x) :
    Writes s ((u.orFlags s.actor m).advance s.actor (s.batchLanes s.actor)) g d wide x m := by
  have he := endOnly_advance (u.orFlags s.actor m) s.actor (s.batchLanes s.actor)
  obtain ⟨w, hw⟩ := Option.isSome_iff_exists.mp ha.warp
  have hv : (u.orFlags s.actor m) = { u with warps := (u.orFlags s.actor m).warps } := by
    rw [orFlags_eq]; split <;> rfl
  have hfib : (u.orFlags s.actor m).fibres = s.fibres := by rw [hv, h.only]
  have hclu : (u.orFlags s.actor m).clusters = s.clusters := by rw [hv, h.only]
  have hvr : ((u.orFlags s.actor m).advance s.actor (s.batchLanes s.actor)).vRegs = u.vRegs := by rw [he.only, hv]
  have hkr : ((u.orFlags s.actor m).advance s.actor (s.batchLanes s.actor)).kRegs = u.kRegs := by rw [he.only, hv]
  generalize ht : (u.orFlags s.actor m).advance s.actor (s.batchLanes s.actor) = t at *
  have hufib : u.fibres = s.fibres := by rw [h.only]
  have hwb : ∀ n, (t.fibres.look n).map Fibre.wb = (u.fibres.look n).map Fibre.wb := by
    intro n
    have e := he.fibres n
    rw [hfib, ← hufib] at e
    have e := congrArg (Option.map Fibre.wb) e
    rw [Option.map_map, Option.map_map] at e
    exact e
  have hcell : ∀ l o, (∃ n, o = regOpnd (.v n) false wide) ∨ (∃ n, o = regOpnd (.k n) false wide) →
      t.cells s.actor l o = u.cells s.actor l o := by
    rintro l o (⟨n, rfl⟩ | ⟨n, rfl⟩)
    · have e := hwb (fibreKey s.actor l)
      simp only [State.cells, regOpnd, Opnd.lane]
      have : t.vCell = u.vCell := by funext k; simp only [State.vCell, hvr]
      rw [this]
      revert e
      cases t.fibres.look (fibreKey s.actor l) <;> cases u.fibres.look (fibreKey s.actor l) <;> intro e
      · rfl
      · simp at e
      · simp at e
      · simp only [Option.map_some, Option.some.injEq] at e
        simp only [e]
    · have : t.kCell = u.kCell := by funext k; simp only [State.kCell, hkr]
      simp only [State.cells, regOpnd, State.kRead, this]
  obtain ⟨wu, hwu⟩ : ∃ wu, u.warps.look s.actor = some wu := by
    have e := h.warps s.actor
    rw [hw] at e
    cases h1 : u.warps.look s.actor with
    | none => rw [h1] at e; cases e
    | some wu => exact ⟨wu, rfl⟩
  obtain ⟨wt, hwt, hiter, hfpc⟩ : ∃ wt, t.warps.look s.actor = some wt ∧ wt.iter = wu.iter ∧ wt.fpc = wu.fpc ||| BitVec.ofNat 32 m := by
    have e := he.warps s.actor
    rw [orFlags_eq] at e
    have e0 : (if m = 0 then u else u.modWarp s.actor fun w => { w with fpc := w.fpc ||| BitVec.ofNat 32 m }).warps.look s.actor =
        some { wu with fpc := wu.fpc ||| BitVec.ofNat 32 m } := by
      by_cases h0 : m = 0
      · rw [if_pos h0, hwu]; subst h0; simp
      · rw [if_neg h0, State.look_modWarp, if_pos rfl, hwu]; rfl
    rw [e0] at e
    cases h1 : t.warps.look s.actor with
    | none => rw [h1] at e; cases e
    | some wt =>
      rw [h1] at e
      simp only [Option.map_some, Option.some.injEq] at e
      have e1 := congrArg Warp.iter e
      have e2 := congrArg Warp.fpc e
      exact ⟨wt, rfl, e1, e2⟩
  refine ⟨?_, ?_, ?_, ⟨?_, ?_⟩, ⟨?_, ?_, ?_⟩, ?_⟩
  · have hr := h.result
    cases d with
    | v n =>
      intro l hl
      have := hr l hl
      simp only [Holds, State.peek, regOpnd] at this ⊢
      rw [← this]
      exact congrArg _ (hcell l _ (.inl ⟨n, rfl⟩))
    | k n =>
      intro l hl
      have := hr l hl
      simp only [Holds, State.peek, regOpnd] at this ⊢
      rw [← this]
      exact congrArg _ (hcell l _ (.inr ⟨n, rfl⟩))
    | sp n =>
      intro l hl
      have hr := hr l hl
      have hn : n = 17 ∨ n = 21 := by
        cases wide
        · simp only [Reg.dstOk, Bool.false_eq_true, if_false, Reg.writable, Bool.or_eq_true, decide_eq_true_eq] at hd
          exact hd.imp (fun e => Fin.ext e) fun e => Fin.ext e
        · simp [Reg.dstOk, Reg.evenVK, Reg.isVK, Reg.isV, Reg.isK] at hd
      rcases hn with rfl | rfl
      · have e1 := special_iter hwu l
        have e2 := special_iter hwt l
        refine (e2.trans ?_).trans (e1.symm.trans hr)
        rw [hiter]
      · have e1 := special_fpc hwu l
        have e2 := special_fpc hwt l
        refine e2.trans ?_
        have e3 := e1.symm.trans hr
        simp only [if_true, Nat.or_zero] at e3 ⊢
        rw [hfpc, BitVec.toNat_or, e3, BitVec.toNat_ofNat, Nat.mod_eq_of_lt hm]
  · intro hd'
    have e := h.fpc hd'
    rw [hwu, hw] at e
    simp only [Option.map_some, Option.some.injEq] at e
    rw [hwt, hw]
    simp only [Option.map_some, Option.some.injEq]
    rw [hfpc, e]
  · intro l hl
    rw [← ht, advanced_advance _ _ _ ha.batch.1 l hl, hfib]
  · intro key hk
    have := h.registers.1 key hk
    simpa only [State.vCell, hvr] using this
  · intro key hk
    have := h.registers.2 key hk
    simpa only [State.kCell, hkr] using this
  · intro n
    rw [← hfib]; exact he.fibres n
  · intro n
    have e1 := congrArg (Option.map (lessSpecial s.actor d m n)) (he.warps n)
    rw [Option.map_map, Option.map_map] at e1
    refine e1.trans ?_
    have e2 := congrArg (Option.map fun w => lessSpecial s.actor d m n w.still) (h.warps n)
    have e3 : ∀ o : Option Warp, (o.map (lessSpecial s.actor d 0 n)).map (fun w => lessSpecial s.actor d m n w.still) =
        o.map fun w => lessSpecial s.actor d m n w.still := by
      intro o; cases o <;> simp [lessSpecial_still, lessSpecial_zero]
    rw [e3, e3] at e2
    refine Eq.trans ?_ e2
    rw [orFlags_eq]
    split
    · rfl
    · rename_i h0
      rw [State.look_modWarp]
      split
      · subst n; rw [hwu]
        simp only [Option.map_some, Function.comp, Option.some.injEq, lessSpecial_still]
        congr 1
        simp [lessSpecial, h0]
      · rfl
  · intro c
    have := he.clusters c
    simpa only [State.cluster, hclu] using this
  · show t = _
    rw [he.only, hv, h.only]

/-! ### Instructions that compute (R144) -/

theorem noteReads_clean {s : State} (h : s.plants = []) (sel : Nat) (lanes : List Nat) (ops : List Opnd) : s.noteReads sel lanes ops = s := by
  unfold State.noteReads; simp [h]

/-- A vector instruction that has passed its checks has its effect, and its batch goes on. -/
theorem vec_cleared {s : State} {op : Nat} {g : Fin 8} {ops : List Opnd} (h : Cleared s op g ops) (eff : List Nat → State → State) :
    s.vec op g ops eff = (eff (activeLanes s g) s).advance s.actor (s.batchLanes s.actor) := by
  have hg := h.gate
  unfold activeLanes at hg ⊢
  simp only [State.vec, h.admitted, noteReads_clean h.plants, hg]

/-- An instruction that computes a result and flags in every lane: the results are in the destination and nothing else has changed. -/
theorem compute_writes {s : State} {op : Nat} {g : Fin 8} {d : Reg} {wide : Bool} {srcs : List Opnd}
    (h : Cleared s op g (srcs ++ [dstOpnd d wide])) (hd : d.dstOk wide = true) (f : Nat → List Nat → Nat × Num.Flags)
    (hm : flagsOf ((activeLanes s g).map fun l => (f l (srcs.map (reads s l))).2) < 2 ^ 32) :
    Writes s (s.compute op g d wide srcs f) g d wide (fun l => (f l (srcs.map (reads s l))).1)
      (flagsOf ((activeLanes s g).map fun l => (f l (srcs.map (reads s l))).2)) := by
  have hw := (regGate_none h.gate).1
  have hs := stored h.plants h.warp d wide hd (activeLanes s g) (guarded_nodup h.batch.1 g) (fun l hl => (guarded_mem hl).2)
    (fun l hl => hw l hl _ (by simp)) (fun l => (f l (srcs.map (reads s l))).1) (fun l => s.floorOf s.actor l srcs)
  have := writes_of_stored h.toAdmitted hd _ hm hs
  unfold State.compute
  rw [vec_cleared h]
  simp only [List.map_map]
  exact this

end Sys2Proof.Machine
end

