-- ==== Sys2Proof/Tests/Slice0.lean ====
section
/-! SUPPORT. The model's own tests: for each opcode a word written out from the field tables and what it decodes to, terms that each check of
WellFormed refuses, results worked by hand, and for each statement a state and operands that meet its hypotheses together. -/

namespace Sys2Proof.Tests

open Sys2Proof.Machine Sys2Proof.Claims

set_option Elab.async false

/-- Integer arithmetic (R139, R150, R151): words written out from R130 to R134 and the entries, many of them the spec's own worked encodings. -/
theorem test_decode_integer : ∀ p ∈ ([
    (0x038428313A840400, .iadd ⟨6, .s32, .v 10, ⟨.v 12, 1, 7, false⟩, ⟨.k 33, 0, 0, true⟩, false⟩),
    (0x04D02833FD8802A2, .iaddc ⟨3, .n64, .v 10, ⟨.v 12, 3, 31, true⟩, ⟨.v 98, 0, 0, false⟩, .k 40, true, false⟩),
    (0x07AC28313A840400, .isub ⟨6, .n8, .v 10, ⟨.v 12, 1, 7, false⟩, ⟨.k 33, 0, 0, true⟩, false⟩),
    (0x08C82833FD8802A2, .isubb ⟨3, .n32, .v 10, ⟨.v 12, 3, 31, true⟩, ⟨.v 98, 0, 0, false⟩, .k 40, true, false⟩),
    (0x0BA028313A840400, .imul ⟨6, .s16, .v 10, ⟨.v 12, 1, 7, false⟩, ⟨.k 33, 0, 0, true⟩, false⟩),
    (0x0D8C28313A880400, .imulh ⟨6, .s64, .v 10, ⟨.v 12, 1, 7, false⟩, ⟨.k 34, 0, 0, true⟩, false⟩),
    (0x0EC42833FD8802A2, .imad ⟨3, .s32, .v 10, ⟨.v 12, 3, 31, true⟩, ⟨.v 98, 0, 0, false⟩, .k 40, true, false⟩),
    (0x11A428313A840400, .imin ⟨6, .n16, .v 10, ⟨.v 12, 1, 7, false⟩, ⟨.k 33, 0, 0, true⟩, false⟩),
    (0x13A828313A840400, .imax ⟨6, .s8, .v 10, ⟨.v 12, 1, 7, false⟩, ⟨.k 33, 0, 0, true⟩, false⟩),
    (0x154C20329C000000, .iabs ⟨5, .s64, .v 8, ⟨.v 12, 2, 19, true⟩, false⟩)] : List (DWord × Instr)), decodeWord p.1 = some p.2 := by decide +kernel

/-- Logic, fields, selection, predicates (R152 to R157): words written out from R130 to R134 and the entries, many of them the spec's own worked encodings. -/
theorem test_decode_logic : ∀ p ∈ ([
    (0x198028313A840400, .and ⟨6, .b32, .v 10, ⟨.v 12, 1, 7, false⟩, ⟨.k 33, 0, 0, true⟩, false⟩),
    (0x1BBC28313A800400, .or ⟨6, .b64, .v 10, ⟨.v 12, 1, 7, false⟩, ⟨.k 32, 0, 0, true⟩, false⟩),
    (0x1D8028313A840400, .xor ⟨6, .b32, .v 10, ⟨.v 12, 1, 7, false⟩, ⟨.k 33, 0, 0, true⟩, false⟩),
    (0x1F4024329C000000, .not ⟨5, .b32, .v 9, ⟨.v 12, 2, 19, true⟩, false⟩),
    (0x21BC28313A840400, .shl ⟨6, .b64, .v 10, ⟨.v 12, 1, 7, false⟩, ⟨.k 33, 0, 0, true⟩, false⟩),
    (0x238428313A840400, .shr ⟨6, .s32, .v 10, ⟨.v 12, 1, 7, false⟩, ⟨.k 33, 0, 0, true⟩, false⟩),
    (0x258028313A840400, .rotl ⟨6, .b32, .v 10, ⟨.v 12, 1, 7, false⟩, ⟨.k 33, 0, 0, true⟩, false⟩),
    (0x278828313A840400, .bfx ⟨6, .n32, .v 10, ⟨.v 12, 1, 7, false⟩, ⟨.k 33, 0, 0, true⟩, false⟩),
    (0x28C02833FD8802A2, .bfi ⟨3, .b32, .v 10, ⟨.v 12, 3, 31, true⟩, ⟨.v 98, 0, 0, false⟩, .k 40, true, false⟩),
    (0x2B7C24329C000000, .popc ⟨5, .b64, .v 9, ⟨.v 12, 2, 19, true⟩, false⟩),
    (0x2D4024329C000000, .clz ⟨5, .b32, .v 9, ⟨.v 12, 2, 19, true⟩, false⟩),
    (0x2F4024329C000000, .brev ⟨5, .b32, .v 9, ⟨.v 12, 2, 19, true⟩, false⟩),
    (0x32C02833FD8802A2, .prmt ⟨3, .b32, .v 10, ⟨.v 12, 3, 31, true⟩, ⟨.v 98, 0, 0, false⟩, .k 40, true, false⟩),
    (0x31C0383800280014, .sel ⟨7, .b32, .v 14, ⟨.v 14, 0, 0, false⟩, ⟨.v 10, 0, 0, false⟩, 5⟩),
    (0x35C8040802000004, .icmp ⟨7, .n32, 1, ⟨.v 2, 0, 0, false⟩, ⟨.k 0, 0, 0, false⟩, 1⟩),
    (0x3700081400180024, .plop ⟨4, 2, 5, 6, 9⟩)] : List (DWord × Instr)), decodeWord p.1 = some p.2 := by decide +kernel

/-- Floating point and conversion (R158 to R164): words written out from R130 to R134 and the entries, many of them the spec's own worked encodings. -/
theorem test_decode_floating : ∀ p ∈ ([
    (0x41D4101400180001, .fadd ⟨7, .f32, .v 4, ⟨.v 5, 0, 0, false⟩, ⟨.v 6, 0, 0, false⟩, true⟩),
    (0x439828313A840401, .fsub ⟨6, .f16, .v 10, ⟨.v 12, 1, 7, false⟩, ⟨.k 33, 0, 0, true⟩, true⟩),
    (0x459C28313A840400, .fmul ⟨6, .bf16, .v 10, ⟨.v 12, 1, 7, false⟩, ⟨.k 33, 0, 0, true⟩, false⟩),
    (0x46D42833FD8802A3, .ffma ⟨3, .f32, .v 10, ⟨.v 12, 3, 31, true⟩, ⟨.v 98, 0, 0, false⟩, .k 40, true, true⟩),
    (0x499428313A840400, .fmin ⟨6, .f32, .v 10, ⟨.v 12, 1, 7, false⟩, ⟨.k 33, 0, 0, true⟩, false⟩),
    (0x4B9828313A840400, .fmax ⟨6, .f16, .v 10, ⟨.v 12, 1, 7, false⟩, ⟨.k 33, 0, 0, true⟩, false⟩),
    (0x4D5C24329C000000, .fabs ⟨5, .bf16, .v 9, ⟨.v 12, 2, 19, true⟩, false⟩),
    (0x4F5424329C000000, .fneg ⟨5, .f32, .v 9, ⟨.v 12, 2, 19, true⟩, false⟩),
    (0x515424329C000001, .frcp ⟨5, .f32, .v 9, ⟨.v 12, 2, 19, true⟩, true⟩),
    (0x535824329C000000, .frsq ⟨5, .f16, .v 9, ⟨.v 12, 2, 19, true⟩, false⟩),
    (0x555424329C000001, .fsqrt ⟨5, .f32, .v 9, ⟨.v 12, 2, 19, true⟩, true⟩),
    (0x575424329C000000, .fexp2 ⟨5, .f32, .v 9, ⟨.v 12, 2, 19, true⟩, false⟩),
    (0x595C24329C000001, .flog2 ⟨5, .bf16, .v 9, ⟨.v 12, 2, 19, true⟩, true⟩),
    (0x5B5424329C000000, .ftanh ⟨5, .f32, .v 9, ⟨.v 12, 2, 19, true⟩, false⟩),
    (0x5C940C313E100418, .fcmp ⟨2, .f32, 3, ⟨.v 12, 1, 7, true⟩, ⟨.k 4, 0, 0, true⟩, 6⟩),
    (0x5FD40C0800000004, .cvt ⟨7, .f32, .s32, .v 3, ⟨.v 2, 0, 0, false⟩, false⟩),
    (0x605414313C1C0038, .cvtb ⟨1, .f32, .e2m1, .v 5, ⟨.v 12, 1, 7, true⟩, ⟨.v 7, 0, 0, false⟩⟩)] : List (DWord × Instr)), decodeWord p.1 = some p.2 := by decide +kernel

/-- Moves and cross-lane (R165 to R173): words written out from R130 to R134 and the entries, many of them the spec's own worked encodings. -/
theorem test_decode_moves : ∀ p ∈ ([
    (0x63C01F3000000000, .mov ⟨7, .b32, .v 7, ⟨.sp 12, 0, 0, false⟩, false⟩),
    (0x65C4040000000003, .movi ⟨7, .s32, .v 1, 3⟩),
    (0x67C0040000013FC0, .movk ⟨7, .b32, .v 1, 1, 0x3FC0⟩),
    (0x68C2240000000000, .movs ⟨3, false, .k 9, ⟨.v 0, 0, 0, false⟩⟩),
    (0x6BBC2830041E1800, .shfl ⟨6, .b64, .v 10, ⟨.v 12, 0, 0, true⟩, ⟨.v 7, 2, 3, false⟩, false⟩),
    (0x6C822C1800000014, .vote ⟨2, .k 11, 6, 5⟩),
    (0x6EC02833FD8802A2, .rngx ⟨3, .b32, .v 10, ⟨.v 12, 3, 31, true⟩, ⟨.v 98, 0, 0, false⟩, .k 40, true, false⟩)] : List (DWord × Instr)), decodeWord p.1 = some p.2 := by decide +kernel

/-- Memory (R174 to R190): words written out from R130 to R134 and the entries, many of them the spec's own worked encodings. -/
theorem test_decode_memory : ∀ p ∈ ([
    (0x81C810080A800010, .ld ⟨7, .n32, .v 4, .v 2, false, .v 5, false, 2, 0, 0, 16⟩),
    (0x83C0180900120000, .st ⟨7, .b32, .v 6, .v 2, false, .k 0, false, 0, 2, 2, 0⟩),
    (0x837C223A9B04FFFD, .stSpw ⟨5, .b64, .v 8, .k 14, true, .v 77, true, 0, 0, 4, 0xFFFD⟩),
    (0x859A24430AE98000, .ldk ⟨6, .f16, .k 9, .v 16, true, .k 5, false, 3, 5, 1, 0x8000⟩),
    (0x87C0100900000002, .lds ⟨7, .b32, .v 4, .v 2, false, .k 0, false, 0, 0, 0, 2⟩),
    (0x886A1C0C13627FFF, .sts ⟨1, .s8, .k 7, .v 3, false, .v 9, true, 1, 4, 2, 0x7FFF⟩),
    (0x8BC41C0810D80000, .atom ⟨7, .s32, .v 7, .v 2, false, .v 8, false, 3, 3, 0, 0⟩),
    (0x8CBC2A0E28550018, .atoms ⟨2, .b64, .v 10, .k 3, true, .v 20, false, 1, 2, 5, 0x0018⟩),
    (0x8ED400182BA2FFF8, .red ⟨3, .f32, .v 0, .v 6, false, .v 21, true, 2, 4, 2, 0xFFF8⟩),
    (0x91C0000000D00000, .fence ⟨7, 3, 2⟩),
    (0x930002520B850040, .pref ⟨4, .b32, .v 0, .k 20, true, .v 5, true, 2, 0, 5, 0x0040⟩),
    (0x954036590D000080, .smap ⟨5, .b32, .v 13, .k 22, false, .k 6, true, 0, 0, 0, 0x0080⟩),
    (0x96C0000000000000, .sflush ⟨3⟩),
    (0x980009010A000020, .pgal ⟨0, .bf16, 0, 4, .k 0, .k 5, 0, 32⟩),
    (0x9A8012505200FFFC, .pgfr ⟨2, .bf16, 0, 9, .v 40, .v 41, 0, 65532⟩),
    (0x9CC01F1204000004, .seqf ⟨3, .bf16, 0, 15, .k 9, .v 2, 0, 4⟩)] : List (DWord × Instr)), decodeWord p.1 = some p.2 := by decide +kernel

/-- Engines (R222 to R248): words written out from R130 to R134 and the entries, many of them the spec's own worked encodings. -/
theorem test_decode_engines : ∀ p ∈ ([
    (0xA000C50000000000, .mma ⟨0, .bf16, 6, 2, .k 0, .v 0, 0, 0⟩),
    (0xA210250000000000, .mmt ⟨0, .t2, 1, 2, .k 0, .v 0, 0, 0⟩),
    (0xA400070000000060, .accmv ⟨0, .bf16, 0, 3, .k 0, .v 0, 0, 96⟩),
    (0xA7000C0022000000, .accz ⟨4, .bf16, 0, 6, .v 0, .v 17, 0, 0⟩),
    (0xA84801060001012C, .sopen ⟨1, .e4m3, 0, 0, .k 3, .v 0, 1, 300⟩),
    (0xAA400F060000012C, .ssub ⟨1, .bf16, 0, 7, .k 3, .v 0, 0, 300⟩),
    (0xAC4011060000012C, .sclose ⟨1, .bf16, 0, 8, .k 3, .v 0, 0, 300⟩),
    (0xAE10030000010040, .vnld ⟨0, .t2, 0, 1, .k 0, .v 0, 1, 64⟩),
    (0xB080000958000280, .lrdef ⟨2, .bf16, 0, 0, .v 4, .k 44, 0, 640⟩),
    (0xB200010000000080, .cpy ⟨0, .bf16, 0, 0, .k 0, .v 0, 0, 128⟩),
    (0xB480140800000280, .cpyw ⟨2, .bf16, 0, 10, .v 4, .v 0, 0, 640⟩),
    (0xB480140800010280, .cpywExp ⟨2, .bf16, 0, 10, .v 4, .v 0, 1, 640⟩),
    (0xB680140800000280, .cpyz ⟨2, .bf16, 0, 10, .v 4, .v 0, 0, 640⟩),
    (0xB880140906000280, .cpym ⟨2, .bf16, 0, 10, .v 4, .k 3, 0, 640⟩),
    (0xBA80140800000280, .cpyg ⟨2, .bf16, 0, 10, .v 4, .v 0, 0, 640⟩)] : List (DWord × Instr)), decodeWord p.1 = some p.2 := by decide +kernel

/-- Control (R191 to R221): words written out from R130 to R134 and the entries, many of them the spec's own worked encodings. -/
theorem test_decode_control : ∀ p ∈ ([
    (0xC1000000FFFFFFE6, .bra ⟨4, 0xFFFFFFE6⟩),
    (0xC2BC022200000000, .brx ⟨2, true, .k 8, true, 0⟩),
    (0xC5C0000800000003, .call ⟨7, 2, 3⟩),
    (0xC7C0000000000000, .ret ⟨7, .v 0, false⟩),
    (0xC9C0041C00000004, .fork ⟨7, 1, .v 7, false, 4⟩),
    (0xCBC0000000000000, .quit ⟨7⟩),
    (0xCDC0040000000001, .elect ⟨7, 1, true⟩),
    (0xCF4000000000000C, .barArrive ⟨5, 0, 12, false⟩),
    (0xCFC0000000000052, .barWait ⟨7, 0, 2, true⟩),
    (0xCFC0000000000020, .barSync ⟨7, 0, 0, false⟩),
    (0xCFC0040000000073, .barTest ⟨7, 1, 3, true⟩),
    (0xD1C0000000000401, .barx ⟨7, 1, 64⟩),
    (0xD3C0021000030001, .semp ⟨7, .k 4, false, 1, 3⟩),
    (0xD5C0021000030001, .semw ⟨7, .k 4, false, 1, 3⟩),
    (0xD780000000000000, .yieldW ⟨6⟩),
    (0xD940000000000000, .nop ⟨5⟩),
    (0xDBC0080000000001, .xacq ⟨7, 2, true⟩),
    (0xDD00000000000000, .xrel ⟨4⟩),
    (0xDEC0002800000000, .assert ⟨3, .v 10, false⟩),
    (0xE1CC000000000002, .rgnb ⟨7, 3, 2⟩),
    (0xE3C0002800000002, .rgnk ⟨7, false, .v 10, 2⟩),
    (0xE4C0000000000000, .rgne ⟨3⟩)] : List (DWord × Instr)), decodeWord p.1 = some p.2 := by decide +kernel

/-- Launches and sequences (R212, R254): words written out from R130 to R134 and the entries, many of them the spec's own worked encodings. -/
theorem test_decode_sequences : ∀ p ∈ ([
    (0x700007010C010000, .launch ⟨0, .bf16, 0, 3, .k 0, .k 6, 1, 0⟩),
    (0xE6000D0000000020, .spwo ⟨0, .bf16, 0, 6, .k 0, .v 0, 0, 32⟩),
    (0xE8000B010C000040, .spwc ⟨0, .bf16, 0, 5, .k 0, .k 6, 0, 64⟩),
    (0xEB40050000000020, .seqw ⟨5, .bf16, 0, 2, .k 0, .v 0, 0, 32⟩),
    (0xEC0001130E020000, .seqv ⟨0, .bf16, 0, 0, .k 9, .k 7, 2, 0⟩),
    (0xEE000F0000000060, .bfqj ⟨0, .bf16, 0, 7, .k 0, .v 0, 0, 96⟩),
    (0xF000110000000080, .sampArm ⟨0, .bf16, 0, 8, .k 0, .v 0, 0, 128⟩),
    (0xF0001100000100A0, .sampRead ⟨0, .bf16, 0, 8, .k 0, .v 0, 1, 160⟩),
    (0xF20001010C0000C0, .acpt ⟨0, .bf16, 0, 0, .k 0, .k 6, 0, 192⟩)] : List (DWord × Instr)), decodeWord p.1 = some p.2 := by decide +kernel

/-- System and reserved opcodes (R141, R304): words written out from R130 to R134 and the entries, many of them the spec's own worked encodings. -/
theorem test_decode_system : ∀ p ∈ ([
    (0xF5C0000000000042, .trap ⟨7, 0x42⟩),
    (0xF7C2021400000001, .sret ⟨7, .k 0, .k 5, false, 1⟩),
    (0xF9FC120800000006, .mfsr ⟨7, true, .v 4, .k 2, false, 6⟩),
    (0xFBFC120800000006, .mtsr ⟨7, true, .v 4, .k 2, false, 6⟩),
    (0x73C0001800000000, .pgret ⟨7, .v 0, .v 6, false⟩),
    (0xFDC000090A010000, .tlbi ⟨7, .b32, .v 0, .v 2, false, .k 5, false, 0, 0, 1, 0⟩),
    (0x17FFFFFFFFFFFFFF, .reservedOpcode 0x17FFFFFFFFFFFFFF)] : List (DWord × Instr)), decodeWord p.1 = some p.2 := by decide +kernel

/-- Words of the spec's own listings and tables of encodings. -/
theorem test_decode_worked : ∀ p ∈ ([
    (0x0FC4080000040004, .imad ⟨7, .s32, .v 2, ⟨.v 0, 0, 0, false⟩, ⟨.v 1, 0, 0, false⟩, .v 1, false, false⟩),
    (0x980009010A000020, .pgal ⟨0, .bf16, 0, 4, .k 0, .k 5, 0, 32⟩),
    (0xCFC0000000000011, .barWait ⟨7, 0, 1, false⟩),
    (0xEC0000010E010000, .seqv ⟨0, .bf16, 0, 0, .v 0, .k 7, 1, 0⟩),
    (0x87E4402D00000002, .lds ⟨7, .n16, .v 16, .v 11, false, .k 0, false, 0, 0, 0, 2⟩),
    (0xC1000000FFFFFFCA, .bra ⟨4, 0xFFFFFFCA⟩),
    (0x8200185900120000, .st ⟨0, .b32, .v 6, .v 22, false, .k 0, false, 0, 2, 2, 0⟩),
    (0x81C0385900110000, .ld ⟨7, .b32, .v 14, .v 22, false, .k 0, false, 0, 2, 1, 0⟩),
    (0x27C8821C00200000, .bfx ⟨7, .n32, .v 32, ⟨.k 7, 0, 0, false⟩, ⟨.v 8, 0, 0, false⟩, false⟩),
    (0x83C03C0816800500, .st ⟨7, .b32, .v 15, .v 2, false, .v 11, false, 2, 0, 0, 0x500⟩),
    (0x8BC4600814000400, .atom ⟨7, .s32, .v 24, .v 2, false, .v 10, false, 0, 0, 0, 0x400⟩),
    (0x91C0000000A80000, .fence ⟨7, 2, 5⟩),
    (0x63C01F6000000000, .mov ⟨7, .b32, .v 7, ⟨.sp 24, 0, 0, false⟩, false⟩),
    (0x700007010C010000, .launch ⟨0, .bf16, 0, 3, .k 0, .k 6, 1, 0⟩)] : List (DWord × Instr)), decodeWord p.1 = some p.2 := by decide +kernel

/-- Words that R130 to R142 refuse with ILLEGAL_ENCODING. -/
theorem test_decode_refuses : (([
    0xC040000100000005,  -- format B, bit 32 (R134)
    0x65C4040C00000003,  -- MOVI with a source field (R135)
    0x03C4137400000000,  -- operand code 0xDD, which names nothing (R34)
    0x03D4101400000000,  -- a type that IADD does not accept (R136)
    0x03C4101418000000,  -- a parameter under the identity pattern (R46)
    0x03C4101400000001,  -- rm on an instruction that does not round (R130)
    0x03C4101400000004,  -- an unused source c (R135)
    0x03C7041400000000,  -- a special register as a destination (R37)
    0x03CC141000000000,  -- an odd register of a pair (R35)
    0x03C4121508000000,  -- a crossbar pattern on a k register (R46)
    0x5C94203000000000,  -- a predicate code above 7 (R130)
    0x3480043000000008,  -- an ordered comparison of raw bits (R155)
    0x3600000000000040,  -- a truth table above 15 (R156)
    0x5FD4040800000014,  -- CVT from a type to itself (R162)
    0x6DC0040800000018,  -- a vote mode above 5 (R170)
    0x67C0040000020000,  -- a half-word beyond the register (R167)
    0x81C8100900310000,  -- scope 6 (R137)
    0x81C8100900080000,  -- a scope without an ordering (R137)
    0x81C8100900020000,  -- an ord that LD does not accept (R137)
    0x81C8100D00000000,  -- an odd global base (R132)
    0x85CA000900000000,  -- LDK into k0 (R177)
    0x8FC4000810400000,  -- an acquire on RED (R137)
    0x8BC01C0810000000,  -- a sum of raw bits (R180)
    0x91C0000000000000,  -- FENCE without an ordering (R174)
    0xFDC000090A030000,  -- a reserved TLBI form (R304)
    0xA1E8010000000000,  -- engine type 10 (R138)
    0xA1C1010000000000,  -- a reserved shape (R133)
    0x99C0010000010000,  -- a flag that PGAL does not define (R133)
    0xB3C0018000000000,  -- a special register as pb (R133)
    0xB3C0010002000000,  -- an unused aux (R135)
    0xCFC0000000000080,  -- a reserved bit of BAR (R202)
    0xCFC0000000000040,  -- a phase on bar.arrive (R202)
    0xD1C0000000000001,  -- BARX of 0 (R203)
    0xD1C0000000100010,  -- a reserved bit of BARX (R203)
    0xD3C0021000030000,  -- a count of 0 (R206)
    0xD3C0021000080001,  -- a reserved bit of SEMP (R206)
    0xDBC0000000000002,  -- a reserved bit of XACQ (R210)
    0xCDC0000000000002,  -- a reserved bit of ELECT (R199)
    0xE3C0002802000001,  -- a reserved form of RGNK (R216)
    0xE3C001FC00000002,  -- registers beyond v127 (R216)
    0xC5C001FC00000001,  -- a shift above 126 (R195)
    0xC3C4000800000000,  -- a type that BRX does not accept (R194)
    0xC3FC000800000001,  -- a target in the 64-bit form of BRX (R194)
    0xF5C0000000010000,  -- a reserved bit of TRAP (R304)
    0xF7C2021400000003,  -- a reserved mode (R304)
    0xF9C0120800000002,  -- an unassigned word number (R304)
    0xF9FC120800000007,  -- a 64-bit access of an odd word (R290)
    0xFBC0120800000000] : List DWord).all fun w => (decodeWord w).isNone) = true := by decide +kernel  -- a write of XS_STATUS (R304)

/-! ### Well-formedness: a term for each check, which the check refuses -/

/-- A plain source. -/
def src (r : Reg) : Src := ⟨r, 0, 0, false⟩

/-- Types, pairs, crossbar fields, destinations and rm of format A (R130, R35, R37, R46, R136). -/
theorem test_illformed_format_a : (([
    .iadd ⟨7, .f32, .v 1, src (.v 2), src (.v 3), false⟩, .iaddc ⟨7, .s32, .v 1, src (.v 2), src (.v 3), .v 4, false, false⟩,
    .isub ⟨7, .b32, .v 1, src (.v 2), src (.v 3), false⟩, .isubb ⟨7, .n64, .v 2, src (.v 2), src (.v 4), .v 5, false, false⟩,
    .imul ⟨7, .s32, .sp 0, src (.v 2), src (.v 3), false⟩, .imulh ⟨7, .s16, .v 1, src (.v 2), src (.v 3), false⟩,
    .imad ⟨7, .s64, .v 2, src (.v 3), src (.v 4), .v 6, false, false⟩, .imin ⟨7, .s64, .v 1, src (.v 2), src (.v 4), false⟩,
    .imax ⟨7, .s32, .v 1, ⟨.v 2, 0, 1, false⟩, src (.v 3), false⟩, .iabs ⟨7, .n32, .v 1, src (.v 2), false⟩,
    .and ⟨7, .s32, .v 1, src (.v 2), src (.v 3), false⟩, .or ⟨7, .b32, .v 1, src (.v 2), ⟨.k 3, 1, 0, false⟩, false⟩,
    .xor ⟨7, .b32, .v 1, src (.v 2), src (.v 3), true⟩, .not ⟨7, .b64, .v 2, src (.v 3), false⟩,
    .shl ⟨7, .s32, .v 1, src (.v 2), src (.v 3), false⟩, .shr ⟨7, .b32, .v 1, src (.v 2), src (.v 3), false⟩,
    .rotl ⟨7, .b64, .v 3, src (.v 2), src (.v 3), false⟩, .bfx ⟨7, .s64, .v 2, src (.v 2), src (.v 3), false⟩,
    .bfi ⟨7, .b64, .v 2, src (.v 2), src (.v 4), .v 6, false, false⟩, .popc ⟨7, .n32, .v 1, src (.v 2), false⟩,
    .clz ⟨7, .b32, .sp 22, src (.v 2), false⟩, .brev ⟨7, .b64, .k 1, src (.v 2), false⟩,
    .sel ⟨7, .s32, .v 1, src (.v 2), src (.v 3), 0⟩, .prmt ⟨7, .b32, .v 1, src (.v 2), src (.v 3), .v 4, false, true⟩,
    .icmp ⟨7, .b32, 0, src (.v 2), src (.v 3), 2⟩, .icmp ⟨7, .s32, 0, src (.v 2), src (.v 3), 6⟩, .icmp ⟨7, .f32, 0, src (.v 2), src (.v 3), 0⟩,
    .fadd ⟨7, .s32, .v 1, src (.v 2), src (.v 3), false⟩, .fsub ⟨7, .e4m3, .v 1, src (.v 2), src (.v 3), false⟩,
    .fmul ⟨7, .f32, .sp 1, src (.v 2), src (.v 3), false⟩, .ffma ⟨7, .b32, .v 1, src (.v 2), src (.v 3), .v 4, false, false⟩,
    .fmin ⟨7, .f32, .v 1, src (.v 2), src (.v 3), true⟩, .fmax ⟨7, .f16, .v 1, src (.v 2), src (.v 3), true⟩,
    .fabs ⟨7, .f32, .v 1, src (.v 2), true⟩, .fneg ⟨7, .s32, .v 1, src (.v 2), false⟩, .frcp ⟨7, .b32, .v 1, src (.v 2), false⟩,
    .frsq ⟨7, .f32, .v 1, ⟨.sp 1, 2, 0, false⟩, false⟩, .fsqrt ⟨7, .n8, .v 1, src (.v 2), false⟩, .fexp2 ⟨7, .e5m2, .v 1, src (.v 2), false⟩,
    .flog2 ⟨7, .f32, .sp 2, src (.v 2), false⟩, .ftanh ⟨7, .e2m1, .v 1, src (.v 2), false⟩,
    .fcmp ⟨7, .f16, 0, src (.v 2), src (.v 3), 0⟩, .cvt ⟨7, .f32, .f32, .v 1, src (.v 2), false⟩, .cvt ⟨7, .b32, .f32, .v 1, src (.v 2), false⟩,
    .cvt ⟨7, .s32, .n32, .v 1, src (.v 2), true⟩, .cvtb ⟨7, .e4m3, .f32, .v 1, src (.v 2), src (.v 1)⟩,
    .cvtb ⟨7, .f32, .bf16, .v 1, src (.v 2), src (.v 0)⟩, .mov ⟨7, .s32, .v 1, src (.v 2), false⟩,
    .movs ⟨7, true, .v 1, src (.v 2)⟩, .movs ⟨7, false, .v 1, src (.v 2)⟩, .shfl ⟨7, .b32, .v 1, ⟨.v 2, 1, 0, false⟩, src (.v 3), false⟩,
    .vote ⟨7, .v 1, 0, 6⟩, .rngx ⟨7, .n32, .v 1, src (.v 2), src (.v 3), .v 4, false, false⟩,
    .rngx ⟨7, .s32, .v 1, src (.v 2), src (.v 3), .v 4, false, false⟩] : List Instr).all fun i => !i.wellFormed) = true := by decide +kernel

/-- Formats I and B (R131, R134, R194 to R216, R304). -/
theorem test_illformed_formats_i_and_b : (([
    .movi ⟨7, .f32, .v 1, 0⟩, .movi ⟨7, .s64, .v 1, 0⟩, .movk ⟨7, .b32, .v 1, 2, 0⟩, .movk ⟨7, .s32, .v 1, 0, 0⟩,
    .brx ⟨7, true, .v 3, false, 0⟩, .brx ⟨7, true, .v 2, false, 1⟩, .call ⟨7, 127, 0⟩, .ret ⟨7, .v 1, false⟩, .fork ⟨7, 1, .sp 0, false, 0⟩,
    .barArrive ⟨7, 0, 1, true⟩, .barArrive ⟨7, 1, 1, false⟩, .barWait ⟨7, 1, 1, false⟩, .barSync ⟨7, 0, 1, true⟩, .barx ⟨7, 1, 0⟩,
    .semp ⟨7, .k 4, false, 0, 3⟩, .semp ⟨7, .k 4, false, 1, 6⟩, .semw ⟨7, .sp 4, false, 1, 3⟩, .xacq ⟨7, 1, false⟩, .assert ⟨7, .v 3, false⟩,
    .rgnk ⟨7, false, .v 127, 2⟩, .rgnk ⟨7, false, .k 0, 1⟩, .rgnk ⟨7, false, .k 60, 5⟩, .rgnk ⟨7, false, .v 1, 65⟩, .rgnk ⟨7, false, .sp 0, 1⟩,
    .rgnk ⟨7, true, .v 1, 2⟩, .rgnk ⟨7, true, .v 1, 65540⟩, .sret ⟨7, .v 1, .k 5, false, 3⟩, .sret ⟨7, .sp 17, .k 5, false, 0⟩,
    .mfsr ⟨7, false, .v 1, .k 2, false, 0x002⟩, .mfsr ⟨7, true, .v 2, .k 2, false, 0x005⟩, .mfsr ⟨7, true, .v 1, .k 2, false, 0x006⟩,
    .mtsr ⟨7, false, .v 1, .k 2, false, 0x001⟩, .mtsr ⟨7, false, .v 1, .k 2, false, 0x011⟩, .pgret ⟨7, .v 1, .v 3, false⟩,
    .pgret ⟨7, .sp 17, .v 2, false⟩] : List Instr).all fun i => !i.wellFormed) = true := by decide +kernel

/-- A plain access, and a plain engine word. -/
def acc (ty : Ty) (d a b : Reg) (sh : Fin 4) (scope ord : Fin 8) : M := ⟨7, ty, d, a, false, b, false, sh, scope, ord, 0⟩
def xop (ety : ETy) (shape : Fin 32) (bar : Fin 16) (pb aux : Reg) (flags : Fin 512) : X := ⟨7, ety, shape, bar, pb, aux, flags, 0⟩

/-- Format M (R132, R137, R174 to R187, R304). -/
theorem test_illformed_format_m : (([
    .ld (acc .e4m3 (.v 4) (.v 2) (.k 0) 0 0 0), .ld (acc .b32 (.k 4) (.v 2) (.k 0) 0 0 0), .ld (acc .b32 (.v 4) (.v 3) (.k 0) 0 0 0),
    .ld (acc .b64 (.v 5) (.v 2) (.k 0) 0 0 0), .ld (acc .b32 (.v 4) (.v 2) (.k 0) 0 1 0), .ld (acc .b32 (.v 4) (.v 2) (.k 0) 0 6 1),
    .ld (acc .b32 (.v 4) (.v 2) (.k 0) 0 0 2), .st (acc .b32 (.v 4) (.v 2) (.k 0) 0 0 1), .st (acc .b64 (.v 5) (.v 2) (.k 0) 0 0 0),
    .stSpw (acc .b32 (.v 4) (.v 2) (.k 0) 1 0 4), .stSpw (acc .b32 (.v 4) (.v 2) (.k 0) 0 1 4), .ldk (acc .b32 (.k 0) (.v 2) (.k 0) 0 0 0),
    .ldk (acc .b32 (.v 4) (.v 2) (.k 0) 0 0 0), .lds (acc .b32 (.v 4) (.v 2) (.k 0) 0 0 3), .lds (acc .b32 (.sp 17) (.v 2) (.k 0) 0 0 0),
    .sts (acc .b32 (.v 4) (.v 2) (.k 0) 0 0 3), .sts (acc .s64 (.v 5) (.v 2) (.k 0) 0 0 0), .atom (acc .b32 (.v 7) (.v 2) (.v 8) 0 0 0),
    .atom (acc .s32 (.sp 17) (.v 2) (.v 8) 0 0 0), .atom (acc .s32 (.v 7) (.v 2) (.v 8) 0 0 6), .atom (acc .b32 (.v 7) (.v 2) (.v 9) 0 0 5),
    .atom (acc .b64 (.v 6) (.v 2) (.v 10) 0 0 5), .atoms (acc .bf16 (.v 7) (.v 2) (.v 8) 0 0 1), .atoms (acc .s32 (.v 7) (.v 2) (.v 8) 0 6 0),
    .red (acc .s32 (.v 1) (.v 2) (.v 8) 0 0 0), .red (acc .s32 (.v 0) (.v 2) (.v 8) 1 0 0), .red (acc .b32 (.v 0) (.v 2) (.v 8) 0 0 5),
    .fence ⟨7, 0, 2⟩, .fence ⟨7, 1, 6⟩, .pref (acc .s32 (.v 0) (.v 2) (.k 0) 0 0 0), .pref (acc .b32 (.v 1) (.v 2) (.k 0) 0 0 0),
    .pref (acc .b32 (.v 0) (.v 2) (.k 0) 0 0 3), .smap (acc .s32 (.v 1) (.v 2) (.v 4) 0 0 0), .smap (acc .b32 (.v 1) (.v 3) (.v 4) 0 0 0),
    .smap (acc .b32 (.v 1) (.v 2) (.v 4) 1 0 0), .tlbi (acc .b32 (.v 0) (.v 2) (.k 5) 0 0 3), .tlbi (acc .b32 (.v 0) (.v 2) (.k 5) 0 0 0),
    .tlbi (acc .b32 (.v 0) (.v 3) (.k 5) 0 0 1), .tlbi (acc .b32 (.v 0) (.v 0) (.k 5) 0 0 2)] : List Instr).all fun i => !i.wellFormed) = true := by decide +kernel

/-- Format X (R133, R222 to R268). -/
theorem test_illformed_format_x : (([
    .pgal (xop .f16 0 0 (.k 1) (.v 0) 0), .pgfr (xop .bf16 1 0 (.k 1) (.v 0) 0), .seqf (xop .bf16 0 0 (.k 1) (.v 0) 1),
    .mma (xop .s8 0 0 (.k 1) (.v 0) 0), .mma (xop .bf16 8 0 (.k 1) (.v 0) 0), .mma (xop .bf16 0 0 (.k 1) (.v 1) 0), .mma (xop .bf16 0 0 (.sp 0) (.v 0) 0),
    .mmt (xop .bf16 0 0 (.k 1) (.v 0) 0), .mmt (xop .t2 24 0 (.k 1) (.v 0) 0), .mmt (xop .t2 0 0 (.k 1) (.v 0) 4),
    .accmv (xop .e2m1 0 0 (.k 1) (.v 0) 0), .accmv (xop .f32 0 0 (.k 1) (.v 4) 3), .accmv (xop .f32 0 1 (.k 1) (.v 4) 1), .accmv (xop .f32 0 0 (.k 1) (.k 0) 1),
    .accmv (xop .f32 0 0 (.k 1) (.v 4) 0), .accz (xop .bf16 0 0 (.k 1) (.v 4) 0), .sopen (xop .t2 0 0 (.k 1) (.v 0) 0), .sopen (xop .s8 0 1 (.k 1) (.v 0) 0),
    .ssub (xop .bf16 0 0 (.k 1) (.v 1) 0), .sclose (xop .s8 0 0 (.k 1) (.v 0) 0), .vnld (xop .bf16 0 0 (.k 1) (.v 0) 0), .vnld (xop .t5 0 0 (.k 1) (.v 0) 2),
    .lrdef (xop .bf16 0 1 (.k 1) (.v 0) 0), .cpy (xop .bf16 0 0 (.k 1) (.v 1) 0), .cpyw (xop .bf16 0 0 (.k 1) (.v 0) 1), .cpywExp (xop .bf16 0 0 (.k 1) (.v 0) 0),
    .cpyz (xop .f16 0 0 (.k 1) (.v 0) 0), .cpym (xop .bf16 0 0 (.sp 1) (.v 0) 0), .cpyg (xop .bf16 1 0 (.k 1) (.v 0) 0),
    .launch (xop .bf16 0 1 (.k 1) (.v 2) 0), .launch (xop .bf16 0 0 (.k 1) (.k 0) 0), .spwo (xop .bf16 0 0 (.k 1) (.v 1) 0), .spwc (xop .bf16 0 0 (.k 1) (.v 1) 1),
    .seqw (xop .bf16 0 0 (.k 1) (.v 0) 1), .seqv (xop .bf16 0 0 (.k 9) (.k 7) 6), .seqv (xop .bf16 0 0 (.k 9) (.k 7) 1), .seqv (xop .bf16 0 1 (.v 0) (.k 7) 0),
    .bfqj (xop .bf16 0 0 (.k 1) (.v 1) 0), .sampArm (xop .bf16 0 0 (.k 1) (.v 0) 1), .sampRead (xop .bf16 0 0 (.k 1) (.v 0) 0),
    .acpt (xop .bf16 0 1 (.k 1) (.v 1) 0), .acpt (xop .bf16 0 0 (.k 1) (.sp 17) 0), .reservedOpcode 0x0200000000000000,
    .batchSelect 0, .storeAck 0, .powerGood] : List Instr).all fun i => !i.wellFormed) = true := by decide +kernel

/-- The same shapes with their fields in order are well-formed. -/
theorem test_wellformed : (([
    .iadd ⟨7, .s32, .v 1, src (.v 2), src (.v 3), false⟩, .movi ⟨7, .s64, .v 2, 0⟩, .ld (acc .b64 (.v 4) (.v 2) (.k 0) 0 5 1),
    .accmv (xop .f32 0 0 (.k 1) (.v 4) 1), .seqv (xop .bf16 0 0 (.k 9) (.k 7) 2), .tlbi (acc .b32 (.v 0) (.v 0) (.k 5) 0 0 0),
    .mtsr ⟨7, true, .v 2, .k 2, false, 0x010⟩, .reservedOpcode 0] : List Instr).all Instr.wellFormed) = true := by decide +kernel

/-! ### One step on a small state -/

/-- A package in which warp 0 of cluster 0 stands at an instruction of the opcode, its one fibre's registers 0. -/
def ready (op : Nat) : State := State.reset.place (op * 2 ^ 57)

/-- A v register of lane 0, a pair of them, and a k register of warp 0 are given a value. -/
def putV (r x : Nat) (s : State) : State := { s with vRegs := s.vRegs.set Cell.zero r ⟨.full, BitVec.ofNat 32 x, none⟩ }
def putPair (r x : Nat) (s : State) : State := putV (r + 1) (x / 2 ^ 32) (putV r x s)
def putK (r x : Nat) (s : State) : State := { s with kRegs := s.kRegs.set Cell.zero r ⟨.full, BitVec.ofNat 32 x, none⟩ }

/-- The state that an operation answers. -/
def after (i : Instr) (s : State) : State :=
  match exec i s with
  | .next t => t
  | _ => State.reset

/-- What stands in the pair v4, v5 of lane 0 after an instruction that finds three values in the pairs v10, v12 and v14. -/
def value (op : Nat) (i : Instr) (a b c : Nat) : Nat :=
  (((after i (putPair 10 a (putPair 12 b (putPair 14 c (ready op))))).peek 0 0 (regOpnd (.v 4) false true)).val)

def two' (ty : Ty) : A2 := ⟨7, ty, .v 4, src (.v 10), src (.v 12), false⟩
def one' (ty : Ty) : A1 := ⟨7, ty, .v 4, src (.v 10), false⟩
def three' (ty : Ty) : A3 := ⟨7, ty, .v 4, src (.v 10), src (.v 12), .v 14, false, false⟩

/-- R150, R151: wraps, extensions, carries and the most negative value, worked by hand. -/
theorem test_integer_results : (([
    (0x01, .iadd (two' .s32), 0x7FFFFFFF, 1, 0, 0x80000000), (0x01, .iadd (two' .s8), 0x7F, 1, 0, 0xFFFFFF80),
    (0x02, .iaddc (three' .n32), 0xFFFFFFFF, 0, 3, 1), (0x03, .isub (two' .n8), 0, 1, 0, 0xFF), (0x04, .isubb (three' .n32), 5, 5, 1, 1),
    (0x05, .imul (two' .s16), 0x100, 0x80, 0, 0xFFFF8000), (0x06, .imulh (two' .s32), 0x80000000, 2, 0, 0xFFFFFFFF),
    (0x06, .imulh (two' .n32), 0x80000000, 2, 0, 1), (0x07, .imad (three' .s32), 3, 5, 0xFFFFFFFF, 14), (0x08, .imin (two' .s32), 0xFFFFFFFF, 1, 0, 0xFFFFFFFF),
    (0x08, .imin (two' .n32), 0xFFFFFFFF, 1, 0, 1), (0x09, .imax (two' .s8), 0x80, 1, 0, 1), (0x0A, .iabs (one' .s32), 0x80000000, 0, 0, 0x80000000),
    (0x01, .iadd (two' .n64), 0xFFFFFFFFFFFFFFFF, 2, 0, 1)] : List (Nat × Instr × Nat × Nat × Nat × Nat)).all
    fun p => value p.1 p.2.1 p.2.2.1 p.2.2.2.1 p.2.2.2.2.1 = p.2.2.2.2.2) = true := by decide +kernel

/-- R152 to R154, R157: counts of a full width, empty and clipped fields, bytes and their signs. -/
theorem test_logic_results : (([
    (0x0C, .and (two' .b32), 0xF0F0, 0xFF00, 0, 0xF000), (0x0D, .or (two' .b64), 0x100000000, 1, 0, 0x100000001), (0x0E, .xor (two' .b32), 0xFF, 0x0F, 0, 0xF0),
    (0x0F, .not (one' .b32), 0, 0, 0, 0xFFFFFFFF), (0x10, .shl (two' .b32), 1, 32, 0, 0), (0x11, .shr (two' .s32), 0x80000000, 40, 0, 0xFFFFFFFF),
    (0x11, .shr (two' .n32), 0x80000000, 31, 0, 1), (0x12, .rotl (two' .b32), 0x80000001, 33, 0, 3), (0x13, .bfx (two' .n32), 0xABCDE, 0x0804, 0, 0xCD),
    (0x13, .bfx (two' .s32), 0xABCDE, 0x0804, 0, 0xFFFFFFCD), (0x14, .bfi (three' .b32), 0xFF, 0, 0x0818, 0xFF000000), (0x15, .popc (one' .b64), 0x8000000100000001, 0, 0, 3),
    (0x16, .clz (one' .b32), 0, 0, 0, 32), (0x17, .brev (one' .b32), 1, 0, 0, 0x80000000), (0x19, .prmt (three' .b32), 0x44332211, 0x88776655, 0x688, 0x44332211), (0x19, .prmt (three' .b32), 0x80112233, 0, 0x20003, 0x333333FF),
    (0x18, .sel ⟨7, .b32, .v 4, src (.v 10), src (.v 12), 7⟩, 1, 2, 0, 1)] : List (Nat × Instr × Nat × Nat × Nat × Nat)).all
    fun p => value p.1 p.2.1 p.2.2.1 p.2.2.2.1 p.2.2.2.2.1 = p.2.2.2.2.2 % 2 ^ 64) = true := by decide +kernel

/-- R55 to R60, R158 to R162: a tie to even, an exact fused sum, signed zeros, infinities and conversions. -/
theorem test_float_results : (([
    (0x20, .fadd (two' .f32), 0x3F800000, 0x33800000, 0, 0x3F800000), (0x21, .fsub (two' .f32), 0x3F800000, 0x3F800000, 0, 0),
    (0x22, .fmul (two' .f16), 0x3C004000, 0x40004000, 0, 0x40004400), (0x23, .ffma (three' .f32), 0x3F800001, 0x3F800001, 0xBF800002, 0x28800000),
    (0x24, .fmin (two' .f32), 0x80000000, 0, 0, 0x80000000), (0x25, .fmax (two' .f32), 0x7FC00000, 0x3F800000, 0, 0x3F800000),
    (0x26, .fabs (one' .bf16), 0xBF803F80, 0, 0, 0x3F803F80), (0x27, .fneg (one' .f32), 0, 0, 0, 0x80000000), (0x28, .frcp (one' .f32), 0, 0, 0, 0x7F800000),
    (0x29, .frsq (one' .f32), 0x40800000, 0, 0, 0x3F000000), (0x2A, .fsqrt (one' .f32), 0x40800000, 0, 0, 0x40000000), (0x2B, .fexp2 (one' .f32), 0x40400000, 0, 0, 0x41000000),
    (0x2C, .flog2 (one' .f32), 0x41000000, 0, 0, 0x40400000), (0x2D, .ftanh (one' .f32), 0, 0, 0, 0), (0x2F, .cvt ⟨7, .s32, .f32, .v 4, src (.v 10), false⟩, 0x40200000, 0, 0, 2),
    (0x2F, .cvt ⟨7, .f32, .s32, .v 4, src (.v 10), false⟩, 0xFFFFFFFF, 0, 0, 0xBF800000)] : List (Nat × Instr × Nat × Nat × Nat × Nat)).all
    fun p => value p.1 p.2.1 p.2.2.1 p.2.2.2.1 p.2.2.2.2.1 = p.2.2.2.2.2) = true := by decide +kernel

/-- R46, R165 to R168: immediates that extend, a half-word replaced, the predicate word. -/
theorem test_move_results : (([
    (0x31, .mov (one' .b64), 0x123456789, 0, 0, 0x123456789), (0x32, .movi ⟨7, .s32, .v 4, 0x2000000⟩, 0, 0, 0, 0xFE000000),
    (0x32, .movi ⟨7, .n32, .v 4, 0x2000000⟩, 0, 0, 0, 0x2000000), (0x33, .movk ⟨7, .b32, .v 4, 1, 0xABCD⟩, 0, 0, 0, 0xABCD0000),
    (0x34, .movs ⟨7, false, .v 4, src (.v 0)⟩, 0, 0, 0, 128)] : List (Nat × Instr × Nat × Nat × Nat × Nat)).all
    fun p => value p.1 p.2.1 p.2.2.1 p.2.2.2.1 p.2.2.2.2.1 = p.2.2.2.2.2) = true := by decide +kernel

/-! ### Checkers: the conditions of the statements as Bools -/

def orderly (s : State) (sel : Nat) : Bool :=
  decide (s.batchLanes sel).Nodup && (s.batchLanes sel).all fun l => decide (l < 32) && decide ((s.fibres.look (fibreKey sel l)).map Fibre.wait = some .none)

def admits (s : State) (op : Nat) : Bool :=
  (s.warps.look s.actor).isSome && orderly s s.actor && s.plants.isEmpty && (s.early s.actor op).isNone

def clears (s : State) (op : Nat) (g : Fin 8) (ops : List Opnd) : Bool := admits s op && (s.regGate s.actor (activeLanes s g) ops).isNone

def clearsOnce (s : State) (op : Nat) (g : Fin 8) (ops : List Opnd) : Bool :=
  admits s op && !(activeLanes s g).isEmpty && (s.regGate s.actor ((activeLanes s g).take 1) ops).isNone

theorem admitted_of {s : State} {op : Nat} (h : admits s op = true) : Admitted s op := by
  simp only [admits, orderly, Bool.and_eq_true, decide_eq_true_eq, List.all_eq_true, List.isEmpty_iff, Option.isNone_iff_eq_none] at h
  exact ⟨h.1.1.1, h.1.1.2, h.1.2, h.2⟩

theorem cleared_of {s : State} {op : Nat} {g : Fin 8} {ops : List Opnd} (h : clears s op g ops = true) : Cleared s op g ops := by
  simp only [clears, Bool.and_eq_true, Option.isNone_iff_eq_none] at h
  exact ⟨admitted_of h.1, h.2⟩

theorem clearedOnce_of {s : State} {op : Nat} {g : Fin 8} {ops : List Opnd} (h : clearsOnce s op g ops = true) : ClearedOnce s op g ops := by
  simp only [clearsOnce, Bool.and_eq_true, Bool.not_eq_true', List.isEmpty_eq_false_iff, Option.isNone_iff_eq_none] at h
  exact ⟨admitted_of h.1.1, h.1.2, h.2⟩

/-- What a statement of one instruction asks: it is well-formed and passes its checks with the operands listed. -/
theorem runs_of {xs : List (Instr × Nat × List Opnd)} (h : (xs.all fun p => p.1.wellFormed && clears (ready p.2.1) p.2.1 7 p.2.2) = true) :
    ∀ p ∈ xs, p.1.wellFormed = true ∧ Cleared (ready p.2.1) p.2.1 7 p.2.2 := by
  simp only [List.all_eq_true, Bool.and_eq_true] at h
  exact fun p hp => ⟨(h p hp).1, cleared_of (h p hp).2⟩

/-! ### Witnesses: a state and operands that meet each statement's hypotheses together -/

def d4 (wide : Bool) : Opnd := dstOpnd (.v 4) wide

theorem witness_IntegerArithmeticResults : ∀ p ∈ ([
    (.iadd (two' .s32), 0x01, two (two' .s32) ++ [d4 false]), (.isub (two' .n8), 0x03, two (two' .n8) ++ [d4 false]), (.imul (two' .s64), 0x05, two (two' .s64) ++ [d4 true]),
    (.imulh (two' .n64), 0x06, two (two' .n64) ++ [d4 true]), (.imin (two' .s16), 0x08, two (two' .s16) ++ [d4 false]), (.imax (two' .n16), 0x09, two (two' .n16) ++ [d4 false]),
    (.iabs (one' .s8), 0x0A, [srcOpnd (src (.v 10)) false, d4 false]), (.imad (three' .n32), 0x07, three (three' .n32) ++ [d4 false]),
    (.iaddc (three' .n64), 0x02, three (three' .n64) ++ [d4 true]), (.isubb (three' .n32), 0x04, three (three' .n32) ++ [d4 false])] : List (Instr × Nat × List Opnd)),
    p.1.wellFormed = true ∧ Cleared (ready p.2.1) p.2.1 7 p.2.2 := runs_of (by decide +kernel)

theorem witness_LogicAndShiftResults : ∀ p ∈ ([
    (.and (two' .b32), 0x0C, two (two' .b32) ++ [d4 false]), (.or (two' .b64), 0x0D, two (two' .b64) ++ [d4 true]), (.xor (two' .b32), 0x0E, two (two' .b32) ++ [d4 false]),
    (.not (one' .b64), 0x0F, [srcOpnd (src (.v 10)) true, d4 true]), (.shl (two' .b32), 0x10, [srcOpnd (src (.v 10)) false, srcOpnd (src (.v 12)) false, d4 false]),
    (.shr (two' .s64), 0x11, [srcOpnd (src (.v 10)) true, srcOpnd (src (.v 12)) false, d4 true]),
    (.rotl (two' .b32), 0x12, [srcOpnd (src (.v 10)) false, srcOpnd (src (.v 12)) false, d4 false]), (.popc (one' .b64), 0x15, [srcOpnd (src (.v 10)) true, d4 false]),
    (.clz (one' .b32), 0x16, [srcOpnd (src (.v 10)) false, d4 false]), (.brev (one' .b32), 0x17, [srcOpnd (src (.v 10)) false, d4 false])] : List (Instr × Nat × List Opnd)),
    p.1.wellFormed = true ∧ Cleared (ready p.2.1) p.2.1 7 p.2.2 := runs_of (by decide +kernel)

theorem witness_FieldAndByteResults : ∀ p ∈ ([
    (.bfx (two' .s32), 0x13, [srcOpnd (src (.v 10)) false, srcOpnd (src (.v 12)) false, d4 false]), (.bfi (three' .b32), 0x14, three (three' .b32) ++ [d4 false]),
    (.prmt (three' .b32), 0x19, three (three' .b32) ++ [d4 false])] : List (Instr × Nat × List Opnd)),
    p.1.wellFormed = true ∧ Cleared (ready p.2.1) p.2.1 7 p.2.2 := runs_of (by decide +kernel)

theorem witness_SelectAndMoveResults : (∀ p ∈ ([
    (.sel ⟨7, .b64, .v 4, src (.v 10), src (.v 12), 3⟩, 0x18, [srcOpnd (src (.v 10)) true, srcOpnd (src (.v 12)) true, d4 true]),
    (.mov (one' .b32), 0x31, [srcOpnd (src (.v 10)) false, d4 false]), (.movi ⟨7, .s64, .v 4, 0x3FFFFFF⟩, 0x32, [d4 true]),
    (.movk ⟨7, .b64, .v 4, 3, 0xFFFF⟩, 0x33, [regOpnd (.v 4) false true, d4 true]), (.movs ⟨7, false, .v 4, src (.v 0)⟩, 0x34, [d4 false])] : List (Instr × Nat × List Opnd)),
    p.1.wellFormed = true ∧ Cleared (ready p.2.1) p.2.1 7 p.2.2) := runs_of (by decide +kernel)

def cmp (ty : Ty) : ACmp := ⟨7, ty, 6, src (.v 10), src (.v 12), 5⟩

theorem witness_PredicateResults : ∀ p ∈ ([
    (.icmp (cmp .s16), 0x1A, [srcOpnd (src (.v 10)) false, srcOpnd (src (.v 12)) false]), (.fcmp (cmp .f32), 0x2E, [srcOpnd (src (.v 10)) false, srcOpnd (src (.v 12)) false]),
    (.plop ⟨7, 6, 5, 4, 9⟩, 0x1B, []), (.movs ⟨7, true, .v 0, src (.v 10)⟩, 0x34, [srcOpnd (src (.v 10)) false])] : List (Instr × Nat × List Opnd)),
    p.1.wellFormed = true ∧ Cleared (ready p.2.1) p.2.1 7 p.2.2 := runs_of (by decide +kernel)

def twoF (ty : Ty) : List Opnd := [srcOpnd (two' ty).a false, srcOpnd (two' ty).b false, d4 false]
def oneF (ty : Ty) : List Opnd := [srcOpnd (one' ty).a false, d4 false]

/-- With numbers and NaNs for the second part. -/
theorem witness_FloatResults : (∀ p ∈ ([
    (.fadd (two' .f32), 0x20, twoF .f32), (.fsub (two' .f16), 0x21, twoF .f16), (.fmul (two' .bf16), 0x22, twoF .bf16),
    (.ffma (three' .f32), 0x23, [srcOpnd (src (.v 10)) false, srcOpnd (src (.v 12)) false, regOpnd (.v 14) false false, d4 false]),
    (.fmin (two' .f32), 0x24, twoF .f32), (.fmax (two' .f16), 0x25, twoF .f16), (.fabs (one' .f32), 0x26, oneF .f32), (.fneg (one' .bf16), 0x27, oneF .bf16),
    (.frcp (one' .f32), 0x28, oneF .f32), (.frsq (one' .f32), 0x29, oneF .f32), (.fsqrt (one' .f16), 0x2A, oneF .f16), (.fexp2 (one' .f32), 0x2B, oneF .f32),
    (.flog2 (one' .f32), 0x2C, oneF .f32), (.ftanh (one' .bf16), 0x2D, oneF .bf16),
    (.cvt ⟨7, .s64, .e4m3, .v 4, src (.v 10), true⟩, 0x2F, [srcOpnd (src (.v 10)) false, d4 true])] : List (Instr × Nat × List Opnd)),
    p.1.wellFormed = true ∧ Cleared (ready p.2.1) p.2.1 7 p.2.2) ∧
    (Num.decode Num.f16 0x7E00).isNan = true ∧ (Num.decode Num.f16 0x7C00).isNan = false ∧ (0x7E00 : Nat) < 2 ^ Num.f16.width :=
  ⟨runs_of (by decide +kernel), by decide +kernel, by decide +kernel, by decide +kernel⟩

/-- Eight bytes or fewer of memory, a permission of cluster 0 at a target, and changes to warp 0 and fibre 0. -/
def poke (pa n x : Nat) (s : State) : State := { s with hbm := (bytesAt pa n x).foldl (fun (t : Tab Byte) (p : Nat × Byte) => t.set hbmFresh p.1 p.2) s.hbm }
def permit (target master : Nat) (s : State) : State := { s with acctab := s.acctab.put (target * 512 + master) (BitVec.allOnes 128) }
def warp0 (f : Warp → Warp) (s : State) : State := { s with warps := s.warps.modify 0 f }
def fibre0 (f : Fibre → Fibre) (s : State) : State := { s with fibres := s.fibres.modify 0 f }
def wg0 (f : Wg → Wg) (s : State) : State := { s with wgs := s.wgs.modify 0 f }

/-- Bound to sequence 5. -/
def bound5 (s : State) : State := warp0 (fun w => { w with seq := 5 }) s

theorem witness_LongLatencyVectorIssue :
    (∀ p ∈ ([(.shfl (two' .b64), 0x35, [srcOpnd (src (.v 12)) false, dstOpnd (.v 4) true]), (.vote ⟨7, .k 9, 3, 5⟩, 0x36, [dstOpnd (.k 9) false]),
      (.cvtb ⟨7, .f32, .e2m1, .v 4, src (.v 10), src (.v 12)⟩, 0x30, twoF .f32), (.cvtb ⟨7, .e4m3, .f32, .v 4, src (.v 10), src (.v 0)⟩, 0x30, oneF .f32),
      (.rngx ⟨7, .b64, .v 4, src (.v 10), src (.v 12), .v 14, false, false⟩, 0x37,
        [srcOpnd (src (.v 10)) false, srcOpnd (src (.v 12)) false, regOpnd (.v 14) false true, dstOpnd (.v 4) true])] : List (Instr × Nat × List Opnd)),
      p.1.wellFormed = true ∧ Cleared (ready p.2.1) p.2.1 7 p.2.2) ∧
    (ready 0x35).regGateBy 0 ((activeLanes (ready 0x35) 7).map fun l => (l, [(⟨.v 10, 2, shflLane l (reads (ready 0x35) l (srcOpnd (src (.v 12)) false)), false, true, false⟩ : Opnd)])) = none ∧
    (let i := Instr.rngx ⟨7, .n32, .v 4, src (.v 10), src (.v 12), .v 0, false, false⟩
     i.wellFormed = true ∧ Cleared (bound5 (ready 0x37)) 0x37 7 [srcOpnd (src (.v 10)) false, srcOpnd (src (.v 12)) false, d4 false] ∧
      (((bound5 (ready 0x37)).warps.look 0).bind Warp.bound).isSome = true) :=
  ⟨runs_of (by decide +kernel), rfl, by decide +kernel, cleared_of (by decide +kernel), rfl⟩

def validB (s : State) (a : Int) : Bool := decide (0 ≤ a) && decide (a < 2 ^ 48) && decide (s.headerAt s.actor a.toNat = .ok)

theorem valid_of {s : State} {lanes : List Nat} {tgt : Nat → Int} (h : (lanes.all fun l => validB s (tgt l)) = true) : ∀ l ∈ lanes, ValidTarget s (tgt l) := by
  simp only [List.all_eq_true, validB, Bool.and_eq_true, decide_eq_true_eq] at h
  exact fun l hl => ⟨(h l hl).1.1, (h l hl).1.2, (h l hl).2⟩

def plainB (s : State) (lanes : List Nat) : Bool := (s.copyOf s.actor).isNone && (s.wgOf s.actor).version.isNone &&
  lanes.all fun l => decide ((s.fibres.look (fibreKey s.actor l)).map Fibre.regions = some [])

theorem plain_of {s : State} {lanes : List Nat} (h : plainB s lanes = true) : Plain s lanes := by
  simp only [plainB, Bool.and_eq_true, Option.isNone_iff_eq_none, List.all_eq_true, decide_eq_true_eq] at h
  exact ⟨h.1.1, h.1.2, h.2⟩

/-- The clause's header stands in memory before the instruction. -/
def headed (op : Nat) : State := poke 0x10000 8 (placedHeader (op * 2 ^ 57)) (ready op)

theorem witness_BranchesTransfer :
    (let s := headed 0x60
     Cleared s 0x60 7 [] ∧ activeLanes s 7 ≠ [] ∧ ∀ l ∈ activeLanes s 7, ValidTarget s (relative s l (-1))) ∧
    (let s := putV 10 0x10000 (headed 0x61)
     let ox : BBrx := ⟨7, true, .v 10, false, 0⟩
     Cleared s 0x61 7 [regOpnd ox.a ox.pol ox.wide] ∧ activeLanes s 7 ≠ [] ∧
      (∀ l ∈ activeLanes s 7, ValidTarget s (reads s l (regOpnd ox.a ox.pol ox.wide) : Int)) ∧ ∀ l ∈ activeLanes s 7, (reads s l (regOpnd ox.a ox.pol ox.wide) : Int) % 8 = 0) ∧
    (let s := putV 10 1 (headed 0x61)
     let ox : BBrx := ⟨7, false, .v 10, false, -2⟩
     Cleared s 0x61 7 [regOpnd ox.a ox.pol ox.wide] ∧ ∀ l ∈ activeLanes s 7, ValidTarget s (relative s l ox.target + 8 * (reads s l (regOpnd ox.a ox.pol ox.wide) : Int))) :=
  ⟨⟨cleared_of (by decide +kernel), by decide +kernel, valid_of (by decide +kernel)⟩,
   ⟨cleared_of (by decide +kernel), by decide +kernel, valid_of (by decide +kernel), by decide +kernel⟩,
   ⟨cleared_of (by decide +kernel), valid_of (by decide +kernel)⟩⟩

/-- CALL by the largest shift that keeps a pair of the window, and RET of its link. -/
theorem witness_CallAndReturn :
    (let s := headed 0x62
     let o : BCall := ⟨7, 62, -1⟩
     (Instr.call o).wellFormed = true ∧ Cleared s 0x62 7 [dstOpnd (.v (Fin.ofNat 128 o.s.val)) true] ∧ activeLanes s 7 ≠ [] ∧
      (∀ l ∈ activeLanes s 7, ValidTarget s (relative s l o.target)) ∧ ∀ l ∈ activeLanes s 7, (s.fibres.look (fibreKey s.actor l)).map Fibre.atLast = some true) ∧
    (let s := fibre0 (fun f => { f with wb := 50 }) (putPair 60 (0x10000 + 50 * 2 ^ 48) (headed 0x63))
     let link := fun l => reads s l (regOpnd (.v 10) false true)
     Cleared s 0x63 7 [regOpnd (.v 10) false true] ∧ activeLanes s 7 ≠ [] ∧
      (∀ l ∈ activeLanes s 7, ValidTarget s ((link l / 2 ^ 32 % 2 ^ 16 * 2 ^ 32 + link l % 2 ^ 32 : Nat) : Int)) ∧
      (∀ l ∈ activeLanes s 7, ((link l / 2 ^ 32 % 2 ^ 16 * 2 ^ 32 + link l % 2 ^ 32 : Nat) : Int) % 8 = 0 ∧ link l < 2 ^ 55 ∧ link l / 2 ^ 48 % 2 ^ 7 = 50)) :=
  ⟨⟨by decide +kernel, cleared_of (by decide +kernel), by decide +kernel, valid_of (by decide +kernel), by decide +kernel⟩,
   ⟨cleared_of (by decide +kernel), by decide +kernel, valid_of (by decide +kernel), by decide +kernel⟩⟩

theorem witness_FibresCreatedEndedElected :
    (let s := headed 0x64
     let o : BFork := ⟨7, 1, .v 10, false, -1⟩
     (Instr.fork o).wellFormed = true ∧ Cleared s 0x64 7 [regOpnd o.a o.pol false] ∧ activeLanes s 7 ≠ [] ∧ Plain s (activeLanes s 7) ∧
      ∀ l ∈ activeLanes s 7, ValidTarget s (relative s l o.target)) ∧
    (let s := ready 0x65
     Cleared s 0x65 7 [] ∧ activeLanes s 7 ≠ [] ∧ Plain s (activeLanes s 7) ∧ ∀ l < 32, l ∉ activeLanes s 7 → s.fibres.look (fibreKey s.actor l) = none) ∧
    Cleared (ready 0x66) 0x66 7 [] :=
  ⟨⟨by decide +kernel, cleared_of (by decide +kernel), by decide +kernel, plain_of (by decide +kernel), valid_of (by decide +kernel)⟩,
   ⟨cleared_of (by decide +kernel), by decide +kernel, plain_of (by decide +kernel), by decide +kernel⟩, cleared_of (by decide +kernel)⟩

/-- Barrier 3 of workgroup 0 is configured, with an expected count, an extra count and a phase. -/
def barrier3 (expected extra : Nat) (phase : Bool) (s : State) : State :=
  { s with barriers := s.barriers.set Barrier.zero (barKey 0 3) ⟨true, false, phase, 0, expected, extra, false⟩ }

theorem witness_BarrierArrivalsAndWaits :
    (∀ p ∈ [(2, 0, false), (1, 0, false), (1, 0, true)],
      let s := barrier3 p.1 p.2.1 p.2.2 (ready 0x67)
      Cleared s 0x67 7 [] ∧ activeLanes s 7 ≠ [] ∧ (s.barrier (s.wgNo s.actor) 3).configured = true ∧ (s.barrier (s.wgNo s.actor) 3).poisoned = false) ∧
    (let s := barrier3 1 0 false (ready 0x67)
     (s.barrier 0 3).arrivals + (activeLanes s 7).length = (s.barrier 0 3).expected + (s.barrier 0 3).extra) ∧
    (let s := barrier3 2 0 false (ready 0x67)
     (s.barrier 0 3).arrivals + (activeLanes s 7).length < (s.barrier 0 3).expected + (s.barrier 0 3).extra ∧ (s.barrier 0 3).phase = false) ∧
    (let s := barrier3 1 65534 false (ready 0x68)
     Admitted s 0x68 ∧ activeLanes s 7 ≠ [] ∧ (s.barrier 0 3).configured = true ∧ (s.barrier 0 3).extra + 1 ≤ 65535) :=
  ⟨fun p hp => ⟨cleared_of (List.all_eq_true.mp (by decide +kernel :
      ([(2, 0, false), (1, 0, false), (1, 0, true)].all fun p => clears (barrier3 p.1 p.2.1 p.2.2 (ready 0x67)) 0x67 7 []) = true) p hp),
    List.all_eq_true.mp (by decide +kernel : ([(2, 0, false), (1, 0, false), (1, 0, true)].all fun p =>
      let s := barrier3 p.1 p.2.1 p.2.2 (ready 0x67)
      decide (activeLanes s 7 ≠ [] ∧ (s.barrier (s.wgNo s.actor) 3).configured = true ∧ (s.barrier (s.wgNo s.actor) 3).poisoned = false)) = true) p hp |> of_decide_eq_true⟩,
   by decide +kernel, by decide +kernel, admitted_of (by decide +kernel), by decide +kernel⟩

/-- Semaphore 7 of die 0, of cluster 0 both ways. -/
def sem7 (count : Nat) (s : State) : State :=
  permit 51 0 { s with sems := s.sems.put 7 ⟨false, 0, s.package, 0, s.package, 0, 0, count, 0, [], 0⟩ }

def sem7x (count : Nat) : Sem := ⟨false, 0, 0, 0, 0, 0, 0, count, 0, [], 0⟩

/-- What SEMW asks of a state with semaphore 7. -/
def SemwMet (s : State) (o : ISem) (count : Nat) : Prop :=
  activeLanes s o.g ≠ [] ∧ Plain s (activeLanes s o.g) ∧ Cleared s 0x6A o.g [regOpnd o.a o.pol false] ∧
    s.semTable s.actor (lowestActive s o.g) (reads s 0 (regOpnd o.a o.pol false)) true false = none ∧
    s.semOf s.actor (reads s 0 (regOpnd o.a o.pol false)) false = some (7, sem7x count) ∧ (s.warps.look s.actor).map Warp.state ≠ some .halted

/-- A post to a full count, a wait that the count meets exactly, one that it does not. -/
theorem witness_SemaphoreCounts :
    (let s := putK 9 7 (sem7 0xFFFFFFFE (ready 0x69))
     let o : ISem := ⟨7, .k 9, false, 1, 3⟩
     activeLanes s o.g ≠ [] ∧ Plain s (activeLanes s o.g) ∧ s.gangOf s.actor o.scope = none ∧ Cleared s 0x69 o.g [regOpnd o.a o.pol false] ∧
      s.holdOf s.actor = none ∧ s.semTable s.actor (lowestActive s o.g) 7 false true = none ∧ reads s 0 (regOpnd o.a o.pol false) = 7 ∧
      s.semOf s.actor 7 true = some (7, sem7x 0xFFFFFFFE) ∧ (0xFFFFFFFE : Nat) + 1 + s.reservedPosts 7 ≤ 2 ^ 32 - 1 ∧ s.storesFull s.actor = false ∧
      s.acquiring s.actor = false ∧ s.contributing s.actor = false ∧ s.releaseWork s.actor o.scope = ([], s)) ∧
    SemwMet (putK 9 7 (sem7 1 (ready 0x6A))) ⟨7, .k 9, false, 1, 2⟩ 1 ∧ SemwMet (putK 9 7 (sem7 1 (ready 0x6A))) ⟨7, .k 9, false, 2, 2⟩ 1 :=
  ⟨⟨by decide +kernel, plain_of (by decide +kernel), by decide +kernel, cleared_of (by decide +kernel), by decide +kernel, rfl, by decide +kernel,
     by decide +kernel, by decide +kernel, by decide +kernel, by decide +kernel, by decide +kernel, by decide +kernel⟩,
   ⟨by decide +kernel, plain_of (by decide +kernel), cleared_of (by decide +kernel), rfl, by decide +kernel, by decide +kernel⟩,
   ⟨by decide +kernel, plain_of (by decide +kernel), cleared_of (by decide +kernel), rfl, by decide +kernel, by decide +kernel⟩⟩

def pool (n : Nat) (s : State) : State := { s with clusters := s.clusters.set Cluster.reset 0 { s.cluster 0 with pool := n } }

/-- XACQ with a block held, one in the pool, one in the reserve, none; XREL of a quiet block and of one that is not. -/
theorem witness_NopYieldAndExtendedBlocks :
    Admitted (ready 0x6C) 0x6C ∧ Admitted (ready 0x6B) 0x6B ∧ activeLanes (ready 0x6B) 7 ≠ [] ∧
    (∀ s ∈ [warp0 (fun w => { w with ext := true }) (ready 0x6D), pool 1 (ready 0x6D), wg0 (fun g => { g with reserve := 1 }) (pool 0 (ready 0x6D)), pool 0 (ready 0x6D)],
      clears s 0x6D 7 [] = true ∧ activeLanes s 7 ≠ [] ∧ (s.cluster 0).xqueue = []) ∧
    (((pool 1 (ready 0x6D)).warps.look 0).map Warp.ext = some false ∧ ((pool 1 (ready 0x6D)).wgOf 0).reserve = 0 ∧ ((pool 1 (ready 0x6D)).cluster 0).pool > 0) ∧
    (let s := warp0 (fun w => { w with ext := true }) (ready 0x6E)
     Cleared s 0x6E 7 [] ∧ activeLanes s 7 ≠ [] ∧ (s.cluster 0).xqueue = [] ∧ s.extQuiet s.actor = true) ∧
    (let s := { warp0 (fun w => { w with ext := true }) (ready 0x6E) with loads := [(1, ⟨0, .value, [⟨0, some ⟨false, 64, false⟩, 0, 4, 0, .wait⟩], 0, false, 1, 0, false, 0⟩)] }
     Cleared s 0x6E 7 [] ∧ activeLanes s 7 ≠ [] ∧ s.extQuiet s.actor = false) :=
  ⟨admitted_of (by decide +kernel), admitted_of (by decide +kernel), by decide +kernel, by decide +kernel, by decide +kernel,
   ⟨cleared_of (by decide +kernel), by decide +kernel⟩, ⟨cleared_of (by decide +kernel), by decide +kernel⟩⟩

theorem witness_TrapAndAssertStop :
    (Resumable (ready 0x7A) ∧ Cleared (ready 0x7A) 0x7A 7 [] ∧ activeLanes (ready 0x7A) 7 ≠ []) ∧
    (let s := { ready 0x6F with warps := (ready 0x6F).warps.put 1 placedWarp }
     Resumable s ∧ ClearedOnce s 0x6F 7 [regOpnd (.v 10) false true] ∧ s.warps.look s.actor = some placedWarp ∧ s.warps.look 1 = some placedWarp ∧
      placedWarp.launch = placedWarp.launch ∧ placedWarp.state = .ready ∧ placedWarp.hold = none) :=
  ⟨⟨rfl, cleared_of (by decide +kernel), by decide +kernel⟩, ⟨rfl, clearedOnce_of (by decide +kernel), rfl, rfl, rfl, rfl, rfl⟩⟩

theorem witness_PrivilegedAndReservedTrap :
    (∀ op ∈ [0x7B, 0x7C, 0x7D, 0x7E], ((ready 0x01).warps.look 0).bind (fun w => ((ready 0x01).wgs.look w.wg).bind Wg.version) = none ∧
      (ready 0x01).warps.look (ready 0x01).actor = some placedWarp ∧ headerClass ((ready 0x01).headerWord (ready 0x01).actor) ≠ (opClass op).code) ∧
    (∀ op ∈ [0x7B, 0x7C, 0x7D, 0x7E],
      let s := warp0 (fun w => { w with priv := false }) (ready op)
      headerClass (s.headerWord s.actor) = (opClass op).code ∧ (s.warps.look s.actor).map Warp.priv = some false) ∧
    Resumable (ready 0x00) ∧ ((ready 0x00).warps.look (ready 0x00).actor).isSome = true :=
  ⟨by decide +kernel, by decide +kernel, rfl, rfl⟩

/-- A read of the warp's own function's table root, and one that names another function. -/
theorem witness_SystemRegisterReads :
    (∀ p ∈ [(0, true), (1, false)],
      let s := putK 2 p.1 (ready 0x7C)
      let o : ISr := ⟨7, true, .v 4, .k 2, false, 6⟩
      let selector := reads s (lowestActive s o.g) (regOpnd o.a o.pol false)
      (Instr.mfsr o).wellFormed = true ∧ clearsOnce s 0x7C o.g [regOpnd o.a o.pol false, dstOpnd o.d o.wide] = true ∧ xregOf o.word = some (.ptroot, 6) ∧
        XReg.ptroot.selOk selector = true ∧ s.reaches .ptroot selector 0 false = p.2) ∧
    Resumable (putK 2 1 (ready 0x7C)) :=
  ⟨by decide +kernel, rfl⟩

/-- Writes of XS_SLICE, XS_PTROOT, the last breakpoint of a cluster that has the whole of its function, and a trap record. -/
theorem witness_SystemRegisterWrites :
    ∀ p ∈ [(XReg.slice, 0x005, false, 0x005), (.ptroot, 0x006, true, 0x006), (.brkpt 15, 0x05E, true, 0x05E), (.traprec, 0x010, false, 0x010)],
      let s := { ready 0x7D with vfsel := (ready 0x7D).vfsel.set 0 0 0x80000000 }
      let o : ISr := ⟨7, p.2.2.1, .v 4, .k 2, false, p.2.1⟩
      let selector := reads s (lowestActive s o.g) (regOpnd o.a o.pol false)
      (Instr.mtsr o).wellFormed = true ∧ clearsOnce s 0x7D o.g [regOpnd o.a o.pol false, regOpnd o.d false o.wide] = true ∧
        xregOf o.word = some (p.1, p.2.2.2) ∧ p.1.selOk selector = true ∧ s.reaches p.1 selector 0 true = true := by decide +kernel

/-- Warp 33 of cluster 1 stands stopped; a handle of a warp that is not there. -/
theorem witness_ReturnFromTrap :
    (let s := { putK 5 33 (ready 0x7B) with warps := (ready 0x7B).warps.put 33 { placedWarp with state := .stopped, batch := none } }
     let o : ISret := ⟨7, .v 4, .k 5, false, 0⟩
     (Instr.sret o).wellFormed = true ∧ ClearedOnce s 0x7B o.g [regOpnd o.a o.pol false, dstOpnd o.d false] ∧ s.warps.look s.actor = some placedWarp ∧
      reads s (lowestActive s o.g) (regOpnd o.a o.pol false) = 33 ∧ s.warps.look 33 = some { placedWarp with state := .stopped, batch := none } ∧
      placedWarp.parks = []) ∧
    (let s := putK 5 0xFFFFFFFF (ready 0x7B)
     let o : ISret := ⟨7, .v 4, .k 5, false, 2⟩
     (Instr.sret o).wellFormed = true ∧ ClearedOnce s 0x7B o.g [regOpnd o.a o.pol false, dstOpnd o.d false] ∧ s.warps.look s.actor = some placedWarp ∧
      s.warps.look (reads s (lowestActive s o.g) (regOpnd o.a o.pol false)) = none) :=
  ⟨⟨by decide +kernel, clearedOnce_of (by decide +kernel), rfl, by decide +kernel, by decide +kernel, rfl⟩,
   ⟨by decide +kernel, clearedOnce_of (by decide +kernel), rfl, by decide +kernel⟩⟩

theorem witness_TranslationsAndPagesDropped :
    (let s := ready 0x7E
     let o : M := ⟨7, .b32, .v 0, .v 2, false, .k 5, false, 0, 0, 1, 0⟩
     (Instr.tlbi o).wellFormed = true ∧ s.warps.look s.actor = some placedWarp ∧ placedWarp.hold = none ∧ o.ord.val ≤ 1 ∧
      ClearedOnce s 0x7E o.g ([mBase o true] ++ [mSecond o false]) ∧ reads s (lowestActive s o.g) (regOpnd o.b o.bPol false) = placedWarp.vf ∧
      ∀ p ∈ s.flights, p.2.vf ≠ placedWarp.vf ∨ p.2.merged = true) ∧
    (let s := putK 5 64 (ready 0x7E)
     let o : M := ⟨7, .b32, .v 0, .v 0, false, .k 5, false, 0, 0, 0, 0⟩
     (Instr.tlbi o).wellFormed = true ∧ ClearedOnce s 0x7E o.g ([] ++ [mSecond o false]) ∧ Resumable s ∧
      reads s (lowestActive s o.g) (regOpnd o.b o.bPol false) ≠ placedWarp.vf) ∧
    (let s := putPair 6 0x10000 (ready 0x39)
     let o : IPgret := ⟨7, .v 4, .v 6, false⟩
     (Instr.pgret o).wellFormed = true ∧ ClearedOnce s 0x39 o.g [regOpnd o.a o.pol true, dstOpnd o.d false] ∧ s.vfmemAllows 0 0x10000 = true ∧
      populated 0x10000 = true ∧ s.ownDie 0x10000 = some 0) :=
  ⟨⟨by decide +kernel, rfl, rfl, by decide +kernel, clearedOnce_of (by decide +kernel), by decide +kernel, by decide +kernel⟩,
   ⟨by decide +kernel, clearedOnce_of (by decide +kernel), rfl, by decide +kernel⟩,
   ⟨by decide +kernel, clearedOnce_of (by decide +kernel), by decide +kernel, by decide +kernel, by decide +kernel⟩⟩

/-- Each under a guard that is false: p0 of a fibre whose predicates are 0. -/
theorem witness_GuardedOffInstructions :
    ∀ op ∈ [0x40, 0x41, 0x42, 0x43, 0x44, 0x45, 0x46, 0x47, 0x48, 0x49, 0x4A, 0x4C, 0x4D, 0x4E, 0x50, 0x51, 0x53, 0x59, 0x38, 0x60],
      Admitted (ready op) op ∧ activeLanes (ready op) 0 = [] := fun op hop =>
  have h := List.all_eq_true.mp (by decide +kernel : ([0x40, 0x41, 0x42, 0x43, 0x44, 0x45, 0x46, 0x47, 0x48, 0x49, 0x4A, 0x4C, 0x4D, 0x4E, 0x50, 0x51, 0x53,
    0x59, 0x38, 0x60].all fun op => admits (ready op) op && (activeLanes (ready op) 0).isEmpty) = true) op hop
  ⟨admitted_of (Bool.and_eq_true_iff.mp h).1, List.isEmpty_iff.mp (Bool.and_eq_true_iff.mp h).2⟩

def reachedB (s : State) (lanes : List Nat) (ea : Nat → Int) (n : Nat) (isGlobal wr : Bool) : Bool :=
  lanes.all fun l => decide (0 ≤ ea l ∧ ea l + n ≤ spaceEnd s isGlobal) && decide (ea l % n = 0) &&
    (let first := (ea l).toNat + (if isGlobal then 0 else (s.wgOf s.actor).rail * 148)
     (s.lockHit (clusterOf s.actor) isGlobal first (first + n - 1) wr).isNone)

theorem reached_of {s : State} {lanes : List Nat} {ea : Nat → Int} {n : Nat} {isGlobal wr : Bool} (h : reachedB s lanes ea n isGlobal wr = true) :
    Reached s lanes ea n isGlobal wr := by
  simp only [reachedB, List.all_eq_true, Bool.and_eq_true, decide_eq_true_eq, Option.isNone_iff_eq_none] at h
  exact ⟨fun l hl => (h l hl).1.1, fun l hl => (h l hl).1.2, fun l hl => (h l hl).2⟩

/-- Each lane's page is mapped by the one entry that the test's state holds. -/
theorem mapped_of {s : State} {lanes : List Nat} {ea : Nat → Int} {rd wr : Bool} {kind : Nat → Bool} (e : Tlb)
    (h : (decide ((s.warps.look s.actor).map Warp.fatal = some []) && lanes.all fun l =>
      decide (s.tlbLook (fibreTlb (clusterOf s.actor)) (ownVf s) ((ea l).toNat / 4096) = some e) && e.write && kind e.kind &&
        s.memAllows (clusterOf s.actor) (ownVf s) (e.phys (ea l).toNat) rd wr) = true) : Mapped s lanes ea rd wr kind := by
  simp only [List.all_eq_true, Bool.and_eq_true, decide_eq_true_eq] at h
  exact ⟨h.1, fun l hl => ⟨e, (h.2 l hl).1.1.1, fun _ => (h.2 l hl).1.1.2, (h.2 l hl).1.2, (h.2 l hl).2⟩⟩

theorem unordered_of {s : State} (h : s.loads = []) (isGlobal : Bool) (lanes : List Nat) (ea : Nat → Int) (n : Nat) : unordered s isGlobal lanes ea n := by
  simp [unordered, h]

theorem notDirty_of {s : State} (h : ∀ c line, s.l1Dirty c line = []) (lanes : List Nat) (pa : Nat → Nat) (n : Nat) : NotDirty s lanes pa n := by
  simp [NotDirty, h]

theorem l1Dirty_nil {s : State} (h : s.l1Bytes = []) (c line : Nat) : s.l1Dirty c line = [] := by simp [State.l1Dirty, h]

/-- The translation that the test's state holds: virtual page 0x10 at physical page 0x10, writable, of kind 0 or another. -/
def page16 (kind : Nat) : Tlb := ⟨0, 16, 1, 0x10000, true, false, kind, 10⟩

/-- An access through the pair v10 to 0x10040, of a page of a kind. -/
def access (op kind : Nat) : State := putPair 10 0x10040 { ready op with tlbs := [(0, [page16 kind])] }

def mop (ty : Ty) (d b : Reg) (sh : Fin 4) (scope ord : Fin 8) : M := ⟨7, ty, d, .v 10, false, b, false, sh, scope, ord, 8⟩

theorem unheld_access (op kind : Nat) : Unheld (access op kind) := ⟨rfl, rfl, rfl, rfl⟩

theorem witness_LoadsIssue :
    (let s := access 0x40 0
     let o := mop .s8 (.v 4) (.v 12) 3 5 1
     Unheld s ∧ (Instr.ld o).wellFormed = true ∧ Cleared s 0x40 o.g ([mBase o true, mSecond o false] ++ [dstOpnd o.d o.ty.wide]) ∧ activeLanes s o.g ≠ [] ∧
      Reached s (activeLanes s o.g) (address s o true true) (memSize o.ty) true false) ∧
    (let s := access 0x42 0
     let o := mop .b64 (.k 4) (.k 0) 0 0 5
     Unheld s ∧ (Instr.ldk o).wellFormed = true ∧ ClearedOnce s 0x42 o.g ([mBase o true, mSecond o false] ++ [dstOpnd o.d o.ty.wide]) ∧
      Reached s ((activeLanes s o.g).take 1) (address s o true true) (memSize o.ty) true false) ∧
    (let s := putV 10 2352 (ready 0x43)
     let o := mop .b64 (.v 4) (.k 0) 0 0 0
     Unheld s ∧ (Instr.lds o).wellFormed = true ∧ Cleared s 0x43 o.g ([mBase o false, mSecond o false] ++ [dstOpnd o.d o.ty.wide]) ∧ activeLanes s o.g ≠ [] ∧
      Reached s (activeLanes s o.g) (address s o false true) (memSize o.ty) false false ∧ (s.wgOf s.actor).stash = []) :=
  ⟨⟨unheld_access _ _, by decide +kernel, cleared_of (by decide +kernel), by decide +kernel, reached_of (by decide +kernel)⟩,
   ⟨unheld_access _ _, by decide +kernel, clearedOnce_of (by decide +kernel), reached_of (by decide +kernel)⟩,
   ⟨⟨rfl, rfl, rfl, rfl⟩, by decide +kernel, cleared_of (by decide +kernel), by decide +kernel, reached_of (by decide +kernel), rfl⟩⟩

theorem witness_StoresToL1AndScratchpad :
    (∀ present : Bool,
     let s := { access 0x41 2 with l1 := if present then [(l1Key 0 0x100, ⟨0, 0, false, 0, 0, 0, 0, 10, 0, none⟩)] else [] }
     let o := mop .n16 (.v 4) (.k 0) 0 0 0
     let lanes := activeLanes s o.g
     let ea := address s o true true
     Unheld s ∧ lanes ≠ [] ∧ (Instr.st o).wellFormed = true ∧ o.ord.val = 0 ∧ Cleared s 0x41 o.g [mBase o true, mSecond o false, regOpnd o.d false o.ty.wide] ∧
      Plain s lanes ∧ Reached s lanes ea (memSize o.ty) true true ∧ Mapped s lanes ea false true (fun k => k = 0 || k = 2) ∧ unordered s true lanes ea (memSize o.ty) ∧
      lanes = [0] ∧ (s.l1.look (l1Key 0 (lineOf (physical s ea 0)))).isSome = present ∧
      (s.l1.filter fun p => p.1 / 2 ^ 44 = 0 && p.1 % 2 ^ 44 % 128 = lineOf (physical s ea 0) % 128).length < 8) ∧
    (let s := putV 10 2356 (ready 0x44)
     let o := mop .b32 (.v 4) (.k 0) 0 0 0
     let lanes := activeLanes s o.g
     let ea := address s o false true
     Unheld s ∧ lanes ≠ [] ∧ (Instr.sts o).wellFormed = true ∧ Cleared s 0x44 o.g [mBase o false, mSecond o false, regOpnd o.d false o.ty.wide] ∧ Plain s lanes ∧
      Reached s lanes ea (memSize o.ty) false true ∧ unordered s false lanes ea (memSize o.ty) ∧ (s.wgOf s.actor).stash = []) :=
  ⟨fun present => by
    cases present <;> exact ⟨⟨rfl, rfl, rfl, rfl⟩, by decide +kernel, by decide +kernel, rfl, cleared_of (by decide +kernel), plain_of (by decide +kernel),
      reached_of (by decide +kernel), mapped_of (page16 2) (by decide +kernel), unordered_of rfl _ _ _ _, by decide +kernel, by decide +kernel, by decide +kernel⟩,
   ⟨⟨rfl, rfl, rfl, rfl⟩, by decide +kernel, by decide +kernel, cleared_of (by decide +kernel), plain_of (by decide +kernel), reached_of (by decide +kernel),
     unordered_of rfl _ _ _ _, rfl⟩⟩

/-- What ST past L1 asks, with an ord. -/
def StMet (s : State) (o : M) : Prop :=
  let lanes := activeLanes s o.g
  let ops := [mBase o true, mSecond o false, regOpnd o.d false o.ty.wide]
  let ea := address s o true true
  Unheld s ∧ lanes ≠ [] ∧ Cleared s 0x41 o.g ops ∧ Plain s lanes ∧ (Instr.st o).wellFormed = true ∧ o.ord.val ≠ 0 ∧ Reached s lanes ea (memSize o.ty) true true ∧
    Mapped s lanes ea false true (fun k => k = 0 || k = 2) ∧ unordered s true lanes ea (memSize o.ty) ∧ NotDirty s lanes (physical s ea) (memSize o.ty) ∧
    NothingToRelease (s.raiseFloors s.actor lanes ops) o.scope.val

/-- Sequence 5, to which warp 0 is bound, with the descriptor's fields: offset, bytes, value. -/
def desc5 (fs : List (Nat × Nat × Nat)) (s : State) : State := bound5 (fs.foldl (fun s f => poke (0x40000500 + f.1) f.2.1 f.2.2 s) s)

theorem witness_StoresPastL1_ordinary : StMet (access 0x41 0) (mop .b32 (.v 4) (.k 0) 0 0 3) ∧ StMet (access 0x41 0) (mop .b32 (.v 4) (.k 0) 0 0 5) ∧
    StMet (access 0x41 0) (mop .b64 (.v 4) (.k 0) 0 3 2) ∧ (((access 0x41 0).warps.look 0).bind Warp.bound) = none := by
  refine ⟨?_, ?_, ?_, rfl⟩ <;>
    exact ⟨unheld_access _ _, by decide +kernel, cleared_of (by decide +kernel), plain_of (by decide +kernel), by decide +kernel, by decide +kernel,
      reached_of (by decide +kernel), mapped_of (page16 0) (by decide +kernel), unordered_of rfl _ _ _ _, notDirty_of (l1Dirty_nil rfl) _ _ _,
      ⟨by decide +kernel, by decide +kernel⟩⟩

/-- A window is open over a KV range that takes in the page; the largest tag. -/
theorem witness_StoresPastL1_window :
    (let s := putV 12 63 (desc5 [(0, 1, 1), (1, 1, 16), (32, 8, 0x10000), (44, 4, 1)] (access 0x41 0))
     let o := mop .b32 (.v 4) (.v 12) 0 0 4
     let lanes := activeLanes s o.g
     let ea := address s o true false
     Unheld s ∧ lanes ≠ [] ∧ Cleared s 0x41 o.g [mBase o true, mSecond o false, regOpnd o.d false o.ty.wide] ∧ Plain s lanes ∧
      ((s.warps.look s.actor).bind Warp.bound) = some 5 ∧ (Instr.stSpw o).wellFormed = true ∧ Reached s lanes ea (memSize o.ty) true true ∧
      Mapped s lanes ea false true (fun _ => true) ∧ unordered s true lanes ea (memSize o.ty) ∧ s.seqFlag 5 4 = true ∧
      (∀ l ∈ lanes, s.inKv 5 (ea l).toNat (memSize o.ty) = true ∧ reads s l (mSecond o false) = 63)) :=
  ⟨⟨rfl, rfl, rfl, rfl⟩, by decide +kernel, cleared_of (by decide +kernel), plain_of (by decide +kernel), by decide +kernel, by decide +kernel,
   reached_of (by decide +kernel), mapped_of (page16 0) (by decide +kernel), unordered_of rfl _ _ _ _, by decide +kernel, by decide +kernel⟩

theorem witness_AtomicOperationValues : Ty.s64 ∈ [Ty.s32, .n32, .s64, .n64, .b32, .b64] ∧ (2 ^ 64 - 1 : Nat) < 2 ^ width .s64 ∧ Ty.s64.isInt = true := by decide

theorem witness_AtomicsIssue_atom : ∀ p ∈ [(mop .s32 (.v 4) (.v 12) 0 0 0, 0), (mop .b64 (.v 4) (.v 12) 3 5 5, 0), (mop .f32 (.v 4) (.v 12) 1 2 2, 6)],
    let s := access 0x45 p.2
    let o := p.1
    let ops := mBase o true :: mAtomOps o
    let lanes := activeLanes s o.g
    (Instr.atom o).wellFormed = true ∧ clears s 0x45 o.g (ops ++ [dstOpnd o.d o.ty.wide]) = true ∧ lanes ≠ [] ∧ plainB s lanes = true ∧
      reachedB s lanes (address s o true false) (memSize o.ty) true true = true ∧ s.loads = [] ∧ s.l1Bytes = [] ∧
      (s.raiseFloors s.actor lanes ops).releaseWork s.actor o.scope.val = ([], s.raiseFloors s.actor lanes ops) ∧
      (∀ l ∈ lanes, s.tlbLook (fibreTlb (clusterOf s.actor)) (ownVf s) ((address s o true false l).toNat / 4096) = some (page16 p.2)) := by decide +kernel

theorem witness_AtomicsIssue :
    (let s := access 0x45 0
     let o := mop .b64 (.v 4) (.v 12) 3 5 5
     let ops := mBase o true :: mAtomOps o
     let lanes := activeLanes s o.g
     let ea := address s o true false
     Unheld s ∧ lanes ≠ [] ∧ Plain s lanes ∧ (Instr.atom o).wellFormed = true ∧ Cleared s 0x45 o.g (ops ++ [dstOpnd o.d o.ty.wide]) ∧
      Reached s lanes ea (memSize o.ty) true true ∧ Mapped s lanes ea true true (fun k => k ≠ 1 && k ≠ 2) ∧ unordered s true lanes ea (memSize o.ty) ∧
      NotDirty s lanes (physical s ea) (memSize o.ty) ∧ NothingToRelease (s.raiseFloors s.actor lanes ops) o.scope.val) ∧
    (∀ kind ∈ [0, 6],
     let s := access 0x47 kind
     let o := mop .f32 (.v 0) (.v 12) 2 2 2
     let lanes := activeLanes s o.g
     lanes ≠ [] ∧ plainB s lanes = true ∧ (Instr.red o).wellFormed = true ∧ clears s 0x47 o.g [mBase o true, mSecond o o.ty.wide] = true ∧
      reachedB s lanes (address s o true false) (memSize o.ty) true true = true ∧ (kind = 0 || pageOp kind o.ord.val o.ty) = true ∧
      s.tlbLook (fibreTlb (clusterOf s.actor)) (ownVf s) 16 = some (page16 kind) ∧ s.memAllows (clusterOf s.actor) (ownVf s) 0x10048 true true = true) ∧
    (let s := putV 10 2352 (ready 0x46)
     let o := mop .b64 (.v 4) (.v 12) 0 0 3
     let lanes := activeLanes s o.g
     let ea := address s o false false
     Unheld s ∧ lanes ≠ [] ∧ Plain s lanes ∧ (Instr.atoms o).wellFormed = true ∧ Cleared s 0x46 o.g (mBase o false :: mAtomOps o ++ [dstOpnd o.d o.ty.wide]) ∧
      Reached s lanes ea (memSize o.ty) false true ∧ unordered s false lanes ea (memSize o.ty) ∧ (s.wgOf s.actor).stash = [] ∧
      ∀ l ∈ lanes, s.scrBad (s.wgOf s.actor) (ea l).toNat (memSize o.ty) = false) :=
  ⟨⟨unheld_access _ _, by decide +kernel, plain_of (by decide +kernel), by decide +kernel, cleared_of (by decide +kernel), reached_of (by decide +kernel),
     mapped_of (page16 0) (by decide +kernel), unordered_of rfl _ _ _ _, notDirty_of (l1Dirty_nil rfl) _ _ _, ⟨by decide +kernel, by decide +kernel⟩⟩,
   by decide +kernel,
   ⟨⟨rfl, rfl, rfl, rfl⟩, by decide +kernel, plain_of (by decide +kernel), by decide +kernel, cleared_of (by decide +kernel), reached_of (by decide +kernel),
     unordered_of rfl _ _ _ _, rfl, by decide +kernel⟩⟩

/-- A load of warp 0 that has not bound its data. -/
def unbound (s : State) : State := { s with loads := [(1, ⟨0, .mem, [⟨0, none, 0, 4, 0, .wait⟩], 0, false, 1, 0, false, 0⟩)] }

theorem witness_FenceAndPrefetch :
    (∀ p ∈ [((1 : Fin 4), false), (2, false), (3, true)],
     let s := if p.2 then unbound (ready 0x48) else ready 0x48
     let f : MFence := ⟨7, p.1, 5⟩
     (Instr.fence f).wellFormed = true ∧ clears s 0x48 f.g [] = true ∧ activeLanes s f.g ≠ [] ∧ s.holdOf s.actor = none ∧
      s.releaseWork s.actor f.scope.val = ([], s) ∧ s.contributing s.actor = false ∧ s.unboundLoads s.actor = p.2) ∧
    (let s := access 0x49 0
     let o := mop .b32 (.v 0) (.k 0) 0 0 5
     (Instr.pref o).wellFormed = true ∧ Cleared s 0x49 o.g [mBase o true, mSecond o false] ∧ activeLanes s o.g ≠ [] ∧ s.acquiring s.actor = false ∧
      ∀ l ∈ activeLanes s o.g, s.lockHit 0 true (address s o true true l).toNat ((address s o true true l).toNat + 4 - 1) false = none) :=
  ⟨by decide +kernel, by decide +kernel, cleared_of (by decide +kernel), by decide +kernel, by decide +kernel, by decide +kernel⟩

/-- A window over scratchpad bytes 64 to 127 and memory from 0x10040, with a clean byte, or with a dirty one. -/
def windowed (op : Nat) (dirty : Bool) : State :=
  wg0 (fun g => { g with stash := [⟨64, 0x10040, 64, [page16 0], [], [(0, ⟨dirty, none⟩)]⟩] }) (putV 13 64 (access op 0))

def smap (len : Reg) : M := ⟨7, .b32, .v 13, .v 10, false, len, false, 0, 0, 0, 0⟩

theorem witness_StashWindows :
    (let s := putV 13 128 (putV 12 64 (access 0x4A 0))
     let o := smap (.v 12)
     let ea := address s o true false
     s.wgs.look (s.wgNo s.actor) = some placedWg ∧ (s.warps.look s.actor).isSome = true ∧ (Instr.smap o).wellFormed = true ∧
      ClearedOnce s 0x4A o.g [regOpnd o.d false false, mBase o true, mSecond o false] ∧ reads s 0 (regOpnd o.d false false) = 128 ∧ reads s 0 (mSecond o false) = 64 ∧
      0 ≤ ea 0 ∧ ea 0 % 64 = 0 ∧ (ea 0).toNat + 64 ≤ 2 ^ 48 ∧ 128 + 64 ≤ placedWg.alloc ∧ placedWg.stash = [] ∧
      s.lockHit 0 false (placedWg.rail * 148 + 128) (placedWg.rail * 148 + 128 + 64 - 1) true = none ∧ (s.warps.look s.actor).map Warp.fatal = some [] ∧
      pagesOf (ea 0).toNat 64 = [16] ∧ s.tlbLook (fibreTlb (clusterOf s.actor)) (ownVf s) 16 = some (page16 0) ∧ (page16 0).write = true ∧
      s.memAllows (clusterOf s.actor) (ownVf s) ((page16 0).phys (max (ea 0).toNat (16 * 4096))) true true = true) ∧
    (let s := windowed 0x4A false
     let o := smap (.k 0)
     let x : Stash := ⟨64, 0x10040, 64, [page16 0], [], [(0, ⟨false, none⟩)]⟩
     (Instr.smap o).wellFormed = true ∧ ClearedOnce s 0x4A o.g [regOpnd o.d false false, mBase o true, mSecond o false] ∧ reads s 0 (mSecond o false) = 0 ∧
      reads s 0 (regOpnd o.d false false) % 4 = 0 ∧ ((s.wgs.look 0).map Wg.stash).bind (fun xs => xs.find? (fun x => x.scr = reads s 0 (regOpnd o.d false false))) = some x ∧
      (x.bytes.any fun p => p.2.dirty) = false ∧ s.storesFull s.actor = false ∧ s.windowBusy s.actor 64 = false ∧ s.plants = [] ∧ x.len % 64 = 0) ∧
    (∀ dirty, Admitted (windowed 0x4B dirty) 0x4B ∧ activeLanes (windowed 0x4B dirty) 7 ≠ [] ∧ (windowed 0x4B dirty).acquiring 0 = false ∧
      (windowed 0x4B dirty).storesFull 0 = false ∧ ∀ w, (windowed 0x4B dirty).wgs.look 0 = some w → w.version = none ∧ ∀ x ∈ w.stash, ∀ p ∈ x.bytes, p.2.region = none) :=
  ⟨⟨by decide +kernel, by decide +kernel, by decide +kernel, clearedOnce_of (by decide +kernel), by decide +kernel, by decide +kernel, by decide +kernel,
     by decide +kernel, by decide +kernel, by decide +kernel, rfl, by decide +kernel, by decide +kernel, by decide +kernel, by decide +kernel, rfl, by decide +kernel⟩,
   ⟨by decide +kernel, clearedOnce_of (by decide +kernel), by decide +kernel, by decide +kernel, by decide +kernel, by decide +kernel, by decide +kernel,
     by decide +kernel, by decide +kernel, by decide +kernel⟩,
   fun dirty => ⟨by cases dirty <;> exact admitted_of (by decide +kernel), by cases dirty <;> decide +kernel, by cases dirty <;> decide +kernel,
     by cases dirty <;> decide +kernel, by cases dirty <;> (intro w h; cases h; decide)⟩⟩

/-- A cluster whose lock table holds one destination range over the whole of a space. -/
def locked (isGlobal : Bool) (s : State) : State := { s with locks := [(0, ⟨isGlobal, true, 0, 0, 0, 2 ^ 48, 0, 9⟩)] }

/-- A lane beyond the space, one that is misaligned, one that meets a lock, for a global and for a scratchpad access. -/
theorem witness_MemoryAccessTraps :
    (∀ p ∈ [(0x40, Instr.ld (mop .b32 (.v 4) (.k 0) 0 0 0)), (0x41, .st (mop .b32 (.v 4) (.k 0) 0 0 0)), (0x41, .stSpw (mop .b32 (.v 4) (.k 0) 0 0 4)),
        (0x45, .atom (mop .b32 (.v 4) (.v 12) 0 0 3)), (0x47, .red (mop .b32 (.v 0) (.v 12) 0 0 3))],
     (∀ q ∈ [(2 ^ 48 - 8, 0), (0x10041, 1), (0x10040, 2)],
      let s := locked true (putPair 10 q.1 (ready p.1))
      let o := mop .b32 (.v 4) (.k 0) 0 0 0
      let ea := address s o true false
      Resumable s ∧ clears s p.1 o.g [mBase o true, mSecond o false, dstOpnd o.d o.ty.wide] = true ∧
        (q.2 = 0 → ((activeLanes s o.g).find? fun l => decide (ea l < 0 ∨ ea l + 4 > spaceEnd s true)) = some 0) ∧
        (q.2 = 1 → ((activeLanes s o.g).find? fun l => decide (ea l % 4 ≠ 0)) = some 0 ∧ ea 0 + 4 ≤ spaceEnd s true) ∧
        (q.2 = 2 → s.lockHit 0 true (ea 0).toNat ((ea 0).toNat + 3) false = some 0 ∧ ea 0 % 4 = 0))) ∧
    (∀ op ∈ [0x43, 0x44, 0x46], ∀ q ∈ [(2360, 0), (2341, 1), (2340, 2)],
      let s := locked false (putV 10 q.1 (ready op))
      let o := mop .b32 (.v 4) (.k 0) 0 0 0
      let ea := address s o false false
      Resumable s ∧ clears s op o.g [mBase o false, mSecond o false, dstOpnd o.d o.ty.wide] = true ∧
        (q.2 = 0 → ((activeLanes s o.g).find? fun l => decide (ea l < 0 ∨ ea l + 4 > spaceEnd s false)) = some 0) ∧
        (q.2 = 1 → ((activeLanes s o.g).find? fun l => decide (ea l % 4 ≠ 0)) = some 0 ∧ ea 0 + 4 ≤ spaceEnd s false) ∧
        (q.2 = 2 → s.lockHit 0 false (ea 0).toNat ((ea 0).toNat + 3) false = some 0 ∧ ea 0 % 4 = 0)) ∧
    (let s := putPair 10 (2 ^ 48 - 8) (ready 0x42)
     Resumable s ∧ ClearedOnce s 0x42 7 ([mBase (mop .b32 (.k 4) (.k 0) 0 0 0) true, mSecond (mop .b32 (.k 4) (.k 0) 0 0 0) false] ++ [dstOpnd (.k 4) false])) := by
  refine ⟨?_, ?_, rfl, clearedOnce_of (by decide +kernel)⟩ <;> unfold Resumable <;> decide +kernel

/-! ### Witnesses: regions and the memory system's events -/

/-- A region of fibre 0 with a version, inside another or outermost, with one retry left. -/
def region (version : Nat) (parent : Option Nat) : Region :=
  { warp := 0, wg := 0, members := [0], target := 0x10000, limit := 1, retry := 0, version, parent, undo := [⟨0, 5, 0, 0, 0⟩], vRegs := [(4, Cell.zero)], kRegs := [],
    ranges := [], bytes := [], arrived := [], error := none, cause := 0, opened := 1, inst := 1 }

/-- Fibre 0 in region 2 inside region 1, or in region 1 alone, the inner version with a shadow byte. -/
def nested (op : Nat) : State :=
  fibre0 (fun f => { f with regions := [2, 1] }) { ready op with
    nextId := 20, regions := [(1, region 11 none), (2, region 12 (some 1))]
    versions := [(11, Version.fresh 0 none (.region 1) 0 0 0), (12, { Version.fresh 0 (some 11) (.region 2) 0 0 0 with shadow := [(0x10040, 7)] })] }

def outermost (op : Nat) : State :=
  fibre0 (fun f => { f with regions := [1] }) { ready op with
    nextId := 20, regions := [(1, region 11 none)], versions := [(11, { Version.fresh 0 none (.region 1) 0 0 0 with shadow := [(0x10040, 7)] })] }

theorem witness_RecoveryRegions_opened :
    (∀ rs ∈ [[], [1, 2, 3, 4, 5, 6, 7]],
      let s := fibre0 (fun f => { f with regions := rs }) (headed 0x70)
      let o : BRgnb := ⟨7, 15, -1⟩
      clears s 0x70 o.g [] = true ∧ activeLanes s o.g ≠ [] ∧ (∀ l ∈ activeLanes s o.g, (s.fibres.look (fibreKey s.actor l)).map Fibre.regions = some rs) ∧ rs.length < 8 ∧
        ((activeLanes s o.g).all fun l => validB s (relative s l o.target)) = true ∧ s.versionsFree 0 ≥ 1 ∧ s.warps.look s.actor = some placedWarp) := by decide +kernel

theorem witness_RecoveryRegions_kept :
    (∀ k ∈ [(⟨7, false, .v 10, 2⟩ : IRgnk), ⟨7, false, .k 60, 4⟩],
      let s := outermost 0x71
      s.regions.look 1 = some (region 11 none) ∧ activeLanes s k.g ≠ [] ∧
        (∀ l ∈ activeLanes s k.g, ((s.fibres.look (fibreKey s.actor l)).map Fibre.regions).bind List.head? = some 1) ∧ (Instr.rgnk k).wellFormed = true ∧
        clears s 0x71 k.g (rgnkOps k) = true ∧ (∀ l ∈ activeLanes s k.g, s.vCount s.actor l 1 (rgnkOps k) ≤ 128) ∧
        (((region 11 none).kRegs.map Prod.fst) ++ (rgnkOps k).flatMap fun p => (s.cells s.actor (lowestActive s k.g) p).map Prod.fst).eraseDups.length ≤ 64) ∧
    (let s := putV 10 2364 (outermost 0x71)
     let k : IRgnk := ⟨7, true, .v 10, 4⟩
     (Instr.rgnk k).wellFormed = true ∧ ClearedOnce s 0x71 k.g [regOpnd k.a false false] ∧
      (let off := reads s (lowestActive s k.g) (regOpnd k.a false false)
       let g := s.wgOf s.actor
       off % 4 = 0 ∧ off + k.n.val ≤ g.alloc ∧ s.lockHit g.cluster false (g.rail * 148 + off) (g.rail * 148 + off + k.n.val - 1) false = none ∧
        (region 11 none).ranges.length < 4)) :=
  ⟨by decide +kernel, by decide +kernel, clearedOnce_of (by decide +kernel), by decide +kernel⟩

/-- The end of an inner region, and of an outermost one. -/
theorem witness_RecoveryRegions_ended :
    (let s := nested 0x72
     let x := region 12 (some 1)
     s.regions.look 2 = some x ∧ s.versions.look x.version = some { Version.fresh 0 (some 11) (.region 2) 0 0 0 with shadow := [(0x10040, 7)] } ∧
      x.members = (activeLanes s 7).map (fibreKey s.actor) ∧ (∀ l ∈ activeLanes s 7, (s.fibres.look (fibreKey s.actor l)).map (fun f => (f.regions, f.quitting)) = some (2 :: [1], false)) ∧
      x.error = none ∧ s.copyOf s.actor = none ∧ x.wg = placedWarp.wg ∧ Cleared s 0x72 7 [] ∧ x.parent = some 1 ∧ s.regions.look 1 = some (region 11 none) ∧
      (region 11 none).version ≠ x.version ∧ (s.versions.look 11).isSome = true) ∧
    (let s := outermost 0x72
     let x := region 11 none
     s.regions.look 1 = some x ∧ x.members = (activeLanes s 7).map (fibreKey s.actor) ∧
      (∀ l ∈ activeLanes s 7, (s.fibres.look (fibreKey s.actor l)).map (fun f => (f.regions, f.quitting)) = some ([1], false)) ∧ Cleared s 0x72 7 [] ∧ x.parent = none ∧
      (s.wgOf s.actor).version = none ∧ (∀ v, s.versions.look 11 = some v → v.bad = [] ∧ v.tagged = [])) :=
  ⟨⟨rfl, rfl, by decide +kernel, by decide +kernel, rfl, rfl, rfl, cleared_of (by decide +kernel), rfl, rfl, by decide, rfl⟩,
   ⟨rfl, by decide +kernel, by decide +kernel, cleared_of (by decide +kernel), rfl, rfl, by intro v h; cases h; exact ⟨rfl, rfl⟩⟩⟩

/-- One lane's access that has its data, or that has not. -/
def lane0 (size : Nat) (ty : Ty) (d : Option Dst) (p : LPhase) : Acc := ⟨0, d, 0x10040, size, ty.code, p⟩
def load1 (kind : LKind) (a : Acc) : Load := ⟨0, kind, [a], 0, false, 1, 0, false, 0⟩

theorem only_load1 (kind : LKind) (a : Acc) : Only (load1 kind a) a := ⟨List.mem_singleton.mpr rfl, fun _ h _ => List.mem_singleton.mp h⟩

theorem witness_LoadsFillRegisters :
    (∀ poison, ∀ d ∈ [(⟨false, 4, true⟩ : Dst), ⟨true, 9, false⟩],
      let a := lane0 1 .s8 (some d) (.bound 0x80 poison (some 3))
      let s := { ready 0x40 with loads := [(1, load1 .mem a)] }
      s.loads.look 1 = some (load1 .mem a) ∧ Only (load1 .mem a) a ∧ a.phase = .bound 0x80 poison (some 3) ∧ a.ty = Ty.s8.code ∧
        s.warps.look (load1 .mem a).warp = some placedWarp ∧ (load1 .mem a).warp < 6144 ∧ s.plants = []) :=
  fun _ _ _ => ⟨rfl, only_load1 _ _, rfl, rfl, rfl, by show 0 < 6144; decide, rfl⟩

/-- A line stands in L2 whole. -/
def present (line : Nat) (s : State) : State := { s with l2 := s.l2.put line ⟨3, 3, true, true, 0, 0, false, 0, 0, none, [], false⟩ }

theorem resting_of {s : State} {line : Nat} (h : ((s.l2Line line).resident && (s.l2Line line).filled && !(s.l2Line line).pending &&
    ((s.ownDie (line * 256)).all fun d => !tsLt (s.l2Line line).rts (((s.die d).maxTs + 65536 - 16384) % 65536))) = true) : Resting s line := by
  simp only [Bool.and_eq_true, Bool.not_eq_true'] at h
  refine ⟨h.1.1.1, h.1.1.2, h.1.2, fun d hd => ?_⟩
  have := h.2
  rw [hd] at this
  simpa using this

theorem witness_RenewalsReadTheHome :
    ∀ acquire : Bool,
      let a := lane0 8 .b64 (some ⟨false, 4, true⟩) .wait
      let ld : Load := ⟨0, .mem, [a], if acquire then 1 else 0, acquire, 1, 0, false, 0⟩
      let s := present 0x100 { access 0x40 0 with loads := [(1, ld)] }
      s.loads.look 1 = some ld ∧ Only ld a ∧ a.phase = .wait ∧ ld.kind = .mem ∧ ld.counted ≠ 0 ∧ s.warps.look ld.warp = some placedWarp ∧ placedWarp.bound = none ∧
        s.laneChain ld.warp a.lane = [] ∧ s.tlbLook (fibreTlb 0) 0 (a.va / 4096) = some (page16 0) ∧ (page16 0).phys a.va = 0x10040 ∧ 0x10040 % 64 + a.size ≤ 64 ∧
        s.olderLoad 1 ld a = false ∧ s.overtakes 0 0x10040 a.size = false ∧ s.memAllows 0 0 0x10040 true false = true ∧ s.ownDie 0x10040 = some 0 ∧
        s.remotes = [] ∧ (ld.throughL1 (page16 0) && s.l1Hit 0 0x10040 a.size) = false ∧ Resting s 0x100 ∧ s.hasPartials 0x100 = false ∧ s.plants = [] ∧
        Tab.wf s.l1Bytes = true ∧ ∀ i < a.size, s.badWord (0x10040 + i) = false := by
  intro acquire
  cases acquire <;> exact ⟨rfl, ⟨List.mem_singleton.mpr rfl, fun _ h _ => List.mem_singleton.mp h⟩, rfl, rfl, by decide, rfl, by decide +kernel, by decide +kernel,
    by decide +kernel, by decide +kernel, by decide, by decide +kernel, by decide +kernel, by decide +kernel, by decide +kernel, rfl, by decide +kernel,
    resting_of (by decide +kernel), by decide +kernel, rfl, rfl, by decide +kernel⟩

/-- A request of warp 0 for four bytes. -/
def flight (kind : FKind) (addr : Nat) (merged : Bool) : Flight :=
  ⟨kind, 0, 0, 0, 0, 0, 0, addr, addr, bytesAt addr 4 0x12345678, 5, 10, 0, none, [], merged, 9, some 2, []⟩

def flying (f : Flight) : State := present 0x100 { ready 0x41 with flights := [(1, f)], stores := [(2, ⟨0, [1]⟩)] }

theorem witness_StoresReachTheHome :
    (let f := flight .write 0x10040 false
     let s := flying f
     s.flights.look 1 = some f ∧ f.kind = .write ∧ f.window = none ∧ f.merged = false ∧ s.flightWaits 1 f = false ∧ f.bad = [] ∧
      s.memAllows f.master f.vf f.addr false true = true ∧ f.bytes ≠ [] ∧ f.bytes.head?.map Prod.fst = some f.addr ∧ (∀ b ∈ f.bytes, lineOf b.1 = lineOf f.addr) ∧
      (∀ b ∈ f.bytes, s.attestWritable b.1 = true) ∧ Resting s (lineOf f.addr) ∧ Quiet s) ∧
    (let f := flight .write 0x10140 false
     let s := flying f
     s.flights.look 1 = some f ∧ s.flightWaits 1 f = false ∧ s.memAllows f.master f.vf f.addr false true = false ∧
      (s.engines.first fun _ e => e.tried.contains 1 && f.master = engineMaster e.cluster) = none) ∧
    (let f := flight .write 0x10040 true
     let s := flying f
     s.flights.look 1 = some f ∧ f.kind = .write ∧ f.merged = true ∧ f.store = some 2 ∧ s.stores.look 2 = some ⟨0, [1]⟩) :=
  ⟨⟨rfl, rfl, rfl, rfl, by decide +kernel, rfl, by decide +kernel, by decide +kernel, by decide +kernel, by decide +kernel, by decide +kernel,
     resting_of (by decide +kernel), rfl, rfl⟩, ⟨rfl, by decide +kernel, by decide +kernel, by decide +kernel⟩, rfl, rfl, rfl, rfl, rfl⟩

theorem witness_AtomicsActAtTheHome :
    ∀ op ∈ [0, 5],
      let f := flight (.atomic op Ty.b32.code 7 1 (some 4) 0) 0x10040 false
      let s := flying f
      s.flights.look 1 = some f ∧ f.after = [] ∧ s.flightWaits 1 f = false ∧ s.memAllows f.master f.vf f.addr true true = true ∧ f.bytes.length > 0 ∧
        lineOf (f.addr + f.bytes.length - 1) = lineOf f.addr ∧ (∀ i < f.bytes.length, s.attestWritable (f.addr + i) = true) ∧ (s.ownDie f.addr).isSome = true ∧
        ((s.l2Line (lineOf f.addr)).resident && (s.l2Line (lineOf f.addr)).filled && !(s.l2Line (lineOf f.addr)).pending &&
          ((s.ownDie (lineOf f.addr * 256)).all fun d => !tsLt (s.l2Line (lineOf f.addr)).rts (((s.die d).maxTs + 65536 - 16384) % 65536))) = true ∧
        s.hasPartials (lineOf f.addr) = false ∧ s.plants = [] ∧ s.migrations = [] ∧ (∀ i < f.bytes.length, s.badWord (f.addr + i) = false) ∧
        ((s.wgs.look f.wg).map Wg.copy) ≠ some 1 := by decide +kernel

theorem witness_ReductionPartials :
    (∀ whole : Bool,
      let f := flight (.contribution 5 whole) 0x10040 false
      (flying f).flights.look 1 = some f ∧ (f.after.any fun i => ((flying f).flights.look i).isSome) = false) ∧
    (let p : Partial := ⟨6, 0x3F800000, 0⟩
     let s := present 0x100 { ready 0x47 with l1Parts := [(l1PartKey 0 0x10040, p)] }
     s.l1Parts.filter (fun q => lineOf (q.1 % 2 ^ 50 * 4) = 0x100) = [(l1PartKey 0 0x10040, p)] ∧ s.l2Parts.filter (fun q => lineOf (q.1 % 2 ^ 50 * 4) = 0x100) = [] ∧
      l1PartKey 0 0x10040 % 2 ^ 50 * 4 = 0x10040 ∧ Resting s 0x100 ∧ Quiet s ∧ ∀ i < 4, s.attestWritable (0x10040 + i) = true) :=
  ⟨by intro b; cases b <;> exact ⟨rfl, rfl⟩, by decide +kernel, by decide +kernel, by decide +kernel, resting_of (by decide +kernel), ⟨rfl, rfl⟩, by decide +kernel⟩

/-- 1,024 cycles after a tick, halted or not, at the largest timestamp. -/
def ticked (s : State) : State := { s with clusters := s.clusters.set Cluster.reset 0 { s.cluster 0 with cyc := 1024, pts := 0xFFFF } }

theorem witness_LogicalTimeTicks :
    (let s := { ticked (ready 0x40) with halts := [0] }
     ((s.cluster 0).cyc - (s.cluster 0).ticked).toNat ≥ 1024 ∧ s.tickHeld 0 = true) ∧
    (let s := ticked (ready 0x40)
     ((s.cluster 0).cyc - (s.cluster 0).ticked).toNat ≥ 1024 ∧ s.tickHeld 0 = false ∧ s.l1 = [] ∧
      ∀ p ∈ s.wgs, p.2.cluster = 0 → (s.wgs.look p.1).map Wg.stash = some []) := by
  refine ⟨by decide +kernel, by decide +kernel, by decide +kernel, rfl, by decide +kernel⟩

/-- Format window 2: E4M3 elements of 64 at 0x30000, scales at 0x40000, seen at 0x20000. -/
def win2 : Nat := 1 + 0x20 * 2 ^ 12 + 0x300 * 2 ^ 72 + 0x40000 * 2 ^ 128 + 64 * 2 ^ 192

def aliased : State :=
  { ready 0x41 with
    fmtwin := [(2, BitVec.ofNat 256 win2)], l2Bytes := [(0x20002, ⟨0x3F, true⟩), (0x20003, ⟨0x80, true⟩)]
    l2 := [(0x200, ⟨3, 3, true, true, 0, 0, true, 0, 0, some 2, [], false⟩)] }

theorem witness_LinesLeaveTheCaches :
    (let s := ready 0x41
     s.plants = [] ∧ Tab.wf s.l1Bytes = true ∧ s.l1.look (l1Key 0 0x100) = none) ∧
    (let s := { ready 0x41 with l1 := [(l1Key 0 0x100, ⟨0, 0, false, 0, 0, 0, 0, 10, 0, none⟩)], l1Bytes := [(l1ByteKey 0 0x10040, ⟨7, some 0⟩)] }
     s.plants = [] ∧ Tab.wf s.l1Bytes = true ∧ (s.l1.look (l1Key 0 0x100)).isSome = true ∧ s.l1Bytes.look (l1ByteKey 0 0x10040) = some ⟨7, some 0⟩) ∧
    (let s := aliased
     let w := s.win 2
     let j := (0x200 * 256 + 64 * 0 - w.base) / 64
     s.plants = [] ∧ Tab.wf s.l1Bytes = true ∧ s.ownDie (0x200 * 256) = some 0 ∧ (s.l2Line 0x200).pending = false ∧ (s.l2Line 0x200).fmt = some 2 ∧ s.memBad = [] ∧
      (s.l2Bytes.filter fun p => p.1 / 64 = 0x20000 / 64 && p.2.dirty) ≠ [] ∧ j * 32 < w.count ∧
      (∀ p ∈ s.l2Bytes, p.1 / 256 = 0x200 → p.2.dirty = true → p.1 / 64 = 0x20000 / 64) ∧ (w.scales + j < w.blockAt j ∨ w.blockAt j + w.blockLen ≤ w.scales + j)) := by
  decide +kernel

/-- A version that is being committed, and a region whose member has found an error at its last retry. -/
theorem witness_CommitAndRollback :
    (let x : Version := { Version.fresh 0 none (.region 1) 0 0 0 with state := .committing, shadow := [(0x10040, 7)] }
     let g := region 11 none
     let s := present 0x100 { outermost 0x72 with versions := [(11, x)] }
     s.versions.look 11 = some x ∧ s.regions.look 1 = some g ∧ Quiet s ∧ x.owner = .region 1 ∧ x.bad = [] ∧ x.held = [] ∧
      ((s.warps.look g.warp).map Warp.state) ≠ some .halted ∧ (∀ m ∈ g.members, (s.fibres.look m).map (fun f => (f.quitting, f.regions)) = some (false, [1])) ∧ g.members.Nodup ∧
      (∀ p ∈ x.shadow, s.attestWritable p.1 = true ∧ (s.l2Line (lineOf p.1)).resident = true ∧ (s.l2Line (lineOf p.1)).filled = true) ∧
      (∃ base < 65536, ((s.cluster x.cluster).pts.toNat + 65536 - base) % 65536 < 8192 ∧ (∀ d, ((s.die d).maxTs % 65536 + 65536 - base) % 65536 < 8192) ∧
        ∀ p ∈ x.shadow, (s.l2Line (lineOf p.1)).rts < 65536 ∧ ((s.l2Line (lineOf p.1)).rts + 65536 - base) % 65536 < 8192)) ∧
    (let g := { region 11 none with error := some 0 }
     let s := { outermost 0x72 with regions := [(1, g)] }
     (s.versions.look 11).isSome = true ∧ s.regions.look 1 = some g ∧ Quiet s ∧ g.error = some 0 ∧ g.version = 11 ∧ g.retry + 1 ≤ g.limit ∧ s.memberOps g = false ∧
      s.outerError g 8 = false ∧ ((s.warps.look g.warp).bind Warp.hold) = none ∧ (∀ p ∈ s.regions, p.2.parent ≠ some 1) ∧ g.members.Nodup ∧
      (∀ u ∈ g.undo, u.fibre ∈ g.members) ∧ ∀ m ∈ g.members, (s.fibres.look m).isSome = true) :=
  ⟨⟨rfl, rfl, ⟨rfl, rfl⟩, rfl, rfl, rfl, by decide +kernel, by decide +kernel, by decide +kernel, by decide +kernel,
     ⟨0, by decide, by decide +kernel, fun _ => by show (Die.off.maxTs % 65536 + 65536 - 0) % 65536 < 8192; decide, by decide +kernel⟩⟩,
   ⟨rfl, rfl, ⟨rfl, rfl⟩, rfl, rfl, by decide, by decide +kernel, by decide +kernel, rfl, by decide +kernel, by decide +kernel, by decide +kernel, by decide +kernel⟩⟩

/-! ### Witnesses: engine instructions -/

/-- Fields written into a bank of scratchpad, at the beginning of warp 0's allocation: offset, bytes, value. -/
def scr (fs : List (Nat × Nat × Nat)) (s : State) : State :=
  { s with scratch := fs.foldl (fun (m : Tab Byte) (f : Nat × Nat × Nat) => (bytesAt f.1 f.2.1 f.2.2).foldl (fun (t : Tab Byte) (p : Nat × Byte) => t.set 0 p.1 p.2) m) s.scratch }

/-- Warp 0 at an engine instruction whose block stands at offset 0, barrier 3 configured. -/
def work (op : Nat) (fs : List (Nat × Nat × Nat)) : State := scr fs (barrier3 1 0 false (ready op))

def electedB (s : State) (op : Nat) (g : Fin 8) (l : Nat) (ops : List Opnd) (locks : List (Nat × Lock)) : Bool :=
  clears s op g ops && activeLanes s g = [l] && !s.acquiring s.actor && !s.enginesFull s.actor && !s.engineBusy (clusterOf s.actor) op && s.locks = [] &&
    decide (locks.length ≤ 64) && !(s.die (dieOf (clusterOf s.actor))).governed

theorem elected_of {s : State} {op : Nat} {g : Fin 8} {l : Nat} {ops : List Opnd} {locks : List (Nat × Lock)} (h : electedB s op g l ops locks = true) :
    Elected s op g l ops locks := by
  simp only [electedB, Bool.and_eq_true, Bool.not_eq_true', decide_eq_true_eq] at h
  refine ⟨cleared_of h.1.1.1.1.1.1.1, h.1.1.1.1.1.1.2, h.1.1.1.1.1.2, h.1.1.1.1.2, h.1.1.1.2, fun k => ?_, fun _ => h.2⟩
  have e : s.locksFree k = 64 := by simp [State.locksFree, State.locksOf, h.1.1.2]
  rw [e]
  exact Nat.le_trans (List.length_filter_le _ _) h.1.2

/-- Streams 1 and 2, to which cluster 0 subscribes: of a scratchpad, and of a job with one window of one row. -/
def stream1 (ety h len : Nat) : Stream := ⟨ety, none, 1, h, len, 0, len, 2, 0, 0, 0, 0, [⟨0, 0, 1, 1024, 0, 0, 0⟩], 0, none, [], []⟩
def stream2 (len : Nat) : Stream := ⟨0, some 4, 1, 1, len, 0, 0, 0, 9, 0, 0, 0, [⟨0, 0, 1, 1024, 0, 1, 0⟩], 0, none, [[⟨7, 0, 512, 1024, 3, 0, false⟩]], []⟩

/-- bf16 16×64×16 over scratchpad ranges that end where they may, and 2 reads of one stream; MMT likewise. -/
theorem witness_MatrixOperationsIssue_products :
    (∀ streamed : Bool,
      let o := xop .bf16 6 3 (.k 0) (.v 0) (if streamed then 6 else 0)
      let s := { work 0x50 (if streamed then [(0, 4, 1), (8, 4, 2)] else [(0, 4, 32), (4, 4, 16), (8, 4, 256), (12, 4, 64)]) with
        streams := [(1, stream1 0 16 32), (2, stream1 0 16 128)] }
      let g := s.wgOf s.actor
      let b := s.scrBytes g (s.blockAt 0 0 o) 32
      let (m, n, k) := mmaDims o.ety o.shape.val
      let half := mmaHalf o.ety
      let sa := o.flag 1
      let sb := o.flag 2
      let ranges := (if sa then [] else [(fld b 0 4, spanOf half m (fld b 4 4) k)]) ++ if sb then [] else [(fld b 8 4, spanOf half k (fld b 12 4) n)]
      (Instr.mma o).wellFormed = true ∧ HasBlock s 0 o 32 ∧ electedB s 0x50 o.g 0 [xBase o] (ranges.map fun r => g.scrLock 0 3 false r.1 r.2) = true ∧ HasBarrier s o ∧
        (if sa then fld b 0 4 < 64 ∧ fld b 4 4 = 0 ∧ s.claimable 0 (fld b 0 4) o.ety.code m (k * half / 2) 0 = true else k ≤ fld b 4 4 ∧ fld b 4 4 * half % 8 = 0) ∧
        (if sb then fld b 8 4 < 64 ∧ fld b 12 4 = 0 ∧ s.claimable 0 (fld b 8 4) o.ety.code k (n * half / 2) 0 = true
          else n ≤ fld b 12 4 ∧ fld b 12 4 * half % 8 = 0) ∧
        (∀ r ∈ ranges, InScratch g r) ∧ fld b 16 2 + m * (n / 64) ≤ g.accRows ∧ fld b 18 14 = 0) ∧
    (∀ streamed : Bool,
      let o := xop .t2 0 3 (.k 0) (.v 0) (if streamed then 2 else 0)
      let s := { work 0x51 (if streamed then [(0, 4, 1)] else [(0, 4, 2240), (4, 4, 128), (8, 2, 65504), (10, 2, 65532), (12, 2, 12)]) with
        streams := [(1, stream1 ETy.s8.code 1 128)] }
      let g := s.wgOf s.actor
      let b := s.scrBytes g (s.blockAt 0 0 o) 32
      let (m, k) := mmtShape o.shape.val
      let sa := o.flag 1
      let ranges := if sa then [] else [(fld b 0 4, (m - 1) * fld b 4 4 + k)]
      (Instr.mmt o).wellFormed = true ∧ HasBlock s 0 o 32 ∧ electedB s 0x51 o.g 0 [xBase o] (ranges.map fun r => g.scrLock 0 3 false r.1 r.2) = true ∧ HasBarrier s o ∧
        (if sa then fld b 0 4 < 64 ∧ fld b 4 4 = 0 ∧ s.claimable 0 (fld b 0 4) ETy.s8.code m k 0 = true else k ≤ fld b 4 4 ∧ fld b 4 4 % 4 = 0) ∧
        (∀ r ∈ ranges, InScratch g r) ∧ fld b 8 2 + mmtRows o.ety k ≤ 65536 ∧ fld b 10 2 + k / 32 ≤ 65536 ∧ fld b 12 2 + 4 * m ≤ g.accRows ∧ fld b 14 18 = 0) := by
  decide +kernel

/-- ACCMV of two words with row scales, of one word into a register, and of one row to its contributor. -/
theorem witness_MatrixOperationsIssue_moves :
    ∀ p ∈ [(xop .f32 0 3 (.k 0) (.v 0) 0, [(0, 2, 0), (2, 2, 16), (4, 2, 15), (6, 2, 254), (8, 2, 1), (10, 2, 2), (12, 4, 64), (16, 4, 8), (24, 4, 128)]),
        (xop .s32 0 0 (.k 0) (.v 4) 1, [(2, 2, 1), (8, 2, 1), (10, 2, 1), (24, 4, 0xFFFFFFFF)]),
        (xop .f16 0 3 (.k 0) (.v 0) 2, [(2, 2, 1), (8, 2, 1), (10, 2, 4), (12, 4, 64), (24, 4, 0xFFFFFFFF), (28, 1, 2)])],
      let o := p.1
      let s := { work 0x52 p.2 with wgs := (work 0x52 p.2).wgs.modify 0 fun g => { g with accRows := 64 }, streams := [(2, stream2 8)] }
      let g := s.wgOf s.actor
      let b := s.scrBytes g (s.blockAt 0 0 o) 32
      let reg := o.flag 0
      let sc := o.flag 1
      let size := outSize o.ety
      let mc := fld b 8 2
      let nc := fld b 10 2
      let rs := if fld b 24 4 = 0xFFFFFFFF then [] else [(fld b 24 4 + 4 * fld b 4 2, 4 * mc)]
      let out := if reg || sc then [] else [(fld b 12 4, (mc - 1) * fld b 16 4 + nc * size)]
      let last := if sc then s.lastClaim 0 (fld b 28 1) else none
      let rows := (last.map fun p => scatterRows p.2 p.1 (fld b 4 2) mc).getD []
      let live := rows.filterMap fun r => (s.contributorOf r.2 (fld b 12 4) (nc * size)).map fun h => (r, h)
      let locks := rs.map (fun r => g.scrLock 0 o.bar.val false r.1 r.2) ++ out.map (fun r => g.scrLock 0 o.bar.val true r.1 r.2) ++
        (live.filter fun p => p.2.phase ≠ .saved).map fun p => p.2.scrLock p.1.2.wg p.1.2.bar true (p.1.2.result + fld b 12 4) (nc * size)
      (Instr.accmv o).wellFormed = true ∧ HasBlock s 0 o 32 ∧ electedB s 0x52 o.g 0 (xBase o :: if reg then [dstOpnd o.aux false] else []) locks = true ∧
        (reg = false → HasBarrier s o) ∧ (sc = true → last.isSome = true ∧ live.length = 1) ∧ 1 ≤ fld b 2 2 ∧ fld b 2 2 ≤ 128 ∧ fld b 4 2 + mc ≤ fld b 2 2 ∧
        (∀ p ∈ last, fld b 4 2 + mc ≤ p.2.h) ∧ fld b 6 2 + nc ≤ 256 ∧ 1 ≤ mc ∧ 1 ≤ nc ∧ (reg = true → mc = 1 ∧ nc = 1 ∧ fld b 12 4 = 0) ∧
        (if reg || sc then fld b 16 4 = 0 else nc * size ≤ fld b 16 4) ∧ fld b 16 4 % 4 = 0 ∧ fld b 12 4 % 4 = 0 ∧
        (fld b 24 4 ≠ 0xFFFFFFFF → fld b 24 4 % 4 = 0) ∧ (if sc then fld b 28 1 ≤ 63 else fld b 28 1 = 0) ∧ fld b 29 3 = 0 ∧ (∀ r ∈ rs ++ out, InScratch g r) ∧
        (∀ r ∈ accmvRows b, r < g.accRows) := by
  decide +kernel

theorem witness_MatrixOperationsIssue_others :
    (let s := putK 5 (15 + 1 * 1024) (work 0x53 [])
     let o := xop .bf16 0 3 (.v 0) (.k 5) 0
     let v := reads s 0 (xAux o)
     (Instr.accz o).wellFormed = true ∧ Elected s 0x53 o.g 0 [xAux o] [] ∧ HasBarrier s o ∧ v / 2 ^ 21 = 0 ∧ 1 ≤ v / 2 ^ 10 ∧ v / 2 ^ 10 ≤ 1024 ∧
      v % 2 ^ 10 + v / 2 ^ 10 ≤ (s.wgOf s.actor).accRows) ∧
    (let s := work 0x57 [(0, 8, 2 ^ 48 - 512), (8, 4, 2), (12, 2, 65534)]
     let o := xop .t2 0 3 (.k 0) (.v 0) 0
     let g := s.wgOf s.actor
     let b := s.scrBytes g (s.blockAt 0 0 o) 32
     (Instr.vnld o).wellFormed = true ∧ HasBlock s 0 o 32 ∧ Elected s 0x57 o.g 0 [xBase o] [g.memLock 0 3 false (fld b 0 8) (fld b 0 8 + 256 * fld b 8 4 - 1)] ∧
      HasBarrier s o ∧ fld b 0 8 % 64 = 0 ∧ fld b 0 8 + 256 * fld b 8 4 ≤ 2 ^ 48 ∧ 1 ≤ fld b 8 4 ∧ fld b 8 4 ≤ 65536 ∧ fld b 12 2 + fld b 8 4 ≤ 65536 ∧
      fld b 14 18 = 0) :=
  ⟨⟨by decide +kernel, elected_of (by decide +kernel), by decide +kernel, by decide +kernel, by decide +kernel, by decide +kernel, by decide +kernel⟩,
   by decide +kernel, by decide +kernel, elected_of (by decide +kernel), by decide +kernel, by decide +kernel, by decide +kernel, by decide +kernel,
   by decide +kernel, by decide +kernel, by decide +kernel⟩

/-- A dense record of 4 rows of 64 bf16 elements with a box of 2 rows of 16, that may be written, and a compressed one of tiles. -/
def dense : List (Nat × Nat × Nat) :=
  [(0, 8, 0x10000), (9, 1, 2), (10, 2, 1), (12, 4, 64), (16, 4, 4), (20, 4, 1), (24, 4, 1), (28, 4, 1), (32, 4, 1), (36, 4, 64), (52, 2, 16), (54, 2, 2), (56, 2, 1),
    (58, 2, 1), (60, 2, 1)]
def tiled : List (Nat × Nat × Nat) :=
  [(0, 8, 0x10000), (9, 1, 2), (10, 2, 64), (12, 4, 32), (16, 4, 4), (20, 4, 1), (24, 4, 1), (28, 4, 1), (32, 4, 64), (52, 2, 16), (54, 2, 2), (56, 2, 1), (58, 2, 1), (60, 2, 1)]

def slot0 (r : List (Nat × Nat × Nat)) (s : State) : State := { s with layouts := s.layouts.put 0 ((scr r (ready 0x58)).scrBytes placedWg 0 64) }

theorem witness_CopiesIssue_records :
    ∀ r ∈ [dense, tiled],
      let s := scr r (ready 0x58)
      let o := xop .bf16 0 0 (.k 0) (.k 0) 0
      (Instr.lrdef o).wellFormed = true ∧ clears s 0x58 o.g [xBase o, xAux o] = true ∧ activeLanes s o.g = [0] ∧ HasBlock s 0 o 64 ∧ reads s 0 (xAux o) ≤ 63 ∧
        reads s 0 (xAux o) < (s.wgOf s.actor).slots ∧ (∀ q ∈ (recOf (s.scrBytes (s.wgOf s.actor) (s.blockAt s.actor 0 o) 64)).checks, q.1 = false) ∧
        s.acquiring s.actor = false := by
  decide +kernel

/-- Boxes inside, across the lower edge, and outside; a tile at an origin outside. -/
theorem witness_CopiesIssue_boxes :
    ∀ p ∈ [(Instr.cpy (xop .bf16 0 3 (.k 0) (.v 0) 0), 0x59, dense, 0, 0), (.cpyw (xop .bf16 0 3 (.k 0) (.v 0) 0), 0x5A, dense, 0xFFFFFFF8, 36),
        (.cpy (xop .bf16 0 3 (.k 0) (.v 0) 0), 0x59, dense, 64, 0), (.cpyz (xop .bf16 0 3 (.k 0) (.v 0) 0), 0x5B, tiled, 1, 0),
        (.cpyz (xop .bf16 0 3 (.k 0) (.v 0) 0), 0x5B, tiled, 2, 0)],
      let o := xop .bf16 0 3 (.k 0) (.v 0) 0
      let s := slot0 p.2.2.1 (work p.2.1 [(4, 4, p.2.2.2.1), (24, 4, 2292), (28, 4, p.2.2.2.2)])
      let g := s.wgOf s.actor
      let b := s.scrBytes g (s.blockAt s.actor 0 o) 32
      let r := recOf ((s.layouts.look (fld b 0 1)).getD [])
      let wr := decide (p.2.1 = 0x5A)
      let range := (fld b 24 4, boxSpan r r.rows (pitchOf (fld b 28 4) r))
      let inside := fun (d : Nat) => decide (0 ≤ (origin b).getD d 0 ∧ (origin b).getD d 0 < (r.tiles d : Int))
      let first := r.base + (((origin b).getD 1 0).toNat * r.tiles 0 + ((origin b).getD 0 0).toNat) * r.stride 0
      let mem := if p.2.1 ≠ 0x5B then r.touched (boxCoords (origin b) r) else if inside 0 && inside 1 then some (first, first + r.stride 0 - 1) else none
      let locks := mem.toList.map (fun q => g.memLock 0 3 wr q.1 q.2) ++ [g.scrLock 0 3 (!wr) range.1 range.2]
      p.1.wellFormed = true ∧ HasBlock s 0 o 32 ∧ electedB s p.2.1 o.g 0 [xBase o] locks = true ∧ HasBarrier s o ∧ fld b 0 1 ≤ 63 ∧ fld b 0 1 < g.slots ∧
        (s.layouts.look (fld b 0 1)).isSome = true ∧ (wr = true → r.dest = true) ∧ r.sparse = decide (p.2.1 = 0x5B) ∧ fld b 1 3 = 0 ∧
        (∀ d < 5, r.rank ≤ d → fld b (4 + 4 * d) 4 = 0) ∧ fld b 28 4 % 4 = 0 ∧ (fld b 28 4 = 0 ∨ r.box 0 * r.size ≤ fld b 28 4) ∧ InScratch g range := by
  decide +kernel

theorem witness_CopiesIssue_gather :
    (let o := xop .bf16 0 3 (.k 0) (.v 0) 0
     let s := slot0 dense (work 0x5D [(2, 2, 2), (20, 4, 2360), (24, 4, 2292), (28, 4, 36), (2360, 4, 3), (2364, 4, 0xFFFFFFFF)])
     let g := s.wgOf s.actor
     let b := s.scrBytes g (s.blockAt s.actor 0 o) 32
     let r := recOf ((s.layouts.look (fld b 0 1)).getD [])
     let n := fld b 2 2
     let index := (fld b 20 4, 4 * n)
     let range := (fld b 24 4, boxSpan r n (pitchOf (fld b 28 4) r))
     let mem := r.touched [(List.range (r.box 0)).map fun i => Num.sgn 32 (fld b 4 4) + ((i : Nat) : Int),
       (List.range n).map fun j => Num.sgn 32 (s.scrNat g (fld b 20 4 + 4 * j) 4), [Num.sgn 32 (fld b 8 4)], [Num.sgn 32 (fld b 12 4)], [Num.sgn 32 (fld b 16 4)]]
     let locks := mem.toList.map (fun q => g.memLock 0 3 false q.1 q.2) ++ [g.scrLock 0 3 false index.1 index.2, g.scrLock 0 3 true range.1 range.2]
     mem.isSome = true ∧ (Instr.cpyg o).wellFormed = true ∧ HasBlock s 0 o 32 ∧ electedB s 0x5D o.g 0 [xBase o] locks = true ∧ HasBarrier s o ∧ fld b 0 1 < g.slots ∧
      (s.layouts.look (fld b 0 1)).isSome = true ∧ r.sparse = false ∧ fld b 1 1 = 0 ∧ 1 ≤ n ∧ n ≤ 4096 ∧ 2 ≤ r.rank ∧ (r.rank ≤ 2 → fld b 8 4 = 0) ∧
      (r.rank ≤ 3 → fld b 12 4 = 0) ∧ (r.rank ≤ 4 → fld b 16 4 = 0) ∧ fld b 28 4 % 4 = 0 ∧ r.box 0 * r.size ≤ fld b 28 4 ∧ InScratch g index ∧ InScratch g range) ∧
    (let o := xop .bf16 0 3 (.k 0) (.k 5) 0
     let s := slot0 dense (putK 5 128 (work 0x5C [(1, 1, 2), (24, 4, 2304), (128, 4, 0), (132, 4, 65535)]))
     let g := s.wgOf s.actor
     let b := s.scrBytes g (s.blockAt s.actor 0 o) 32
     let r := recOf ((s.layouts.look (fld b 0 1)).getD [])
     let count := fld b 1 1
     let table := reads s 0 (xAux o)
     let names := (List.range count).map fun i => s.scrNat g (table + 4 * i) 4
     let n := boxSpan r r.rows (r.box 0 * r.size)
     let got := names.map fun k => (s.receiver g k).filter fun p => (s.barrier p.1 3).configured && decide (fld b 24 4 + n ≤ p.2.alloc)
     let locks := (r.touched (boxCoords (origin b) r)).toList.map (fun q => g.memLock 0 3 false q.1 q.2) ++ [g.scrLock 0 3 true (s.blockAt s.actor 0 o + 28) 4] ++
       got.filterMap fun p => p.map fun q => q.2.scrLock q.1 3 true (fld b 24 4) n
     got.map Option.isSome = [true, false] ∧ (Instr.cpym o).wellFormed = true ∧ HasBlock s 0 o 32 ∧ electedB s 0x5C o.g 0 [xBase o, xAux o] locks = true ∧
      HasBarrier s o ∧ fld b 0 1 < g.slots ∧ (s.layouts.look (fld b 0 1)).isSome = true ∧ r.sparse = false ∧ 1 ≤ count ∧ count ≤ 16 ∧ (∀ k ∈ names, k ≤ 65535) ∧
      names.Nodup ∧ fld b 2 2 = 0 ∧ (∀ d < 5, r.rank ≤ d → fld b (4 + 4 * d) 4 = 0) ∧ InScratch g (table, 4 * count) ∧ fld b 24 4 % 4 = 0) := by
  decide +kernel

/-- The expert form with an expert that is enabled and one that is not. -/
theorem witness_CopiesIssue_expert :
    ∀ enabled : Bool,
      let o := xop .bf16 0 3 (.k 0) (.v 0) 1
      let s := { work 0x5A [(0, 2, 5), (2, 2, 2), (4, 4, 64), (8, 4, 2236), (12, 4, 68), (16, 4, 128)] with
        experts := if enabled then [(5, ⟨1 + 2 * 1, 0, [0x40, 0x80, 0, 0], 0⟩)] else [] }
      let g := s.wgOf s.actor
      let b := s.scrBytes g (s.blockAt s.actor 0 o) 32
      let rows := fld b 2 2
      let len := fld b 4 4
      let step := fld b 12 4
      let range := (fld b 8 4, (rows - 1) * (if step = 0 then len else step) + len)
      (Instr.cpywExp o).wellFormed = true ∧ HasBlock s 0 o 32 ∧
        electedB s 0x5A o.g 0 [xBase o] [g.scrLock 0 3 false range.1 range.2, g.scrLock 0 3 true (fld b 16 4) 8] = true ∧ HasBarrier s o ∧ 1 ≤ rows ∧ rows ≤ 256 ∧
        4 ≤ len ∧ len ≤ 16384 ∧ len % 4 = 0 ∧ (step ≠ 0 → step % 4 = 0 ∧ len ≤ step) ∧ fld b 20 12 = 0 ∧ InScratch g range ∧ InScratch g (fld b 16 4, 8) ∧
        decide ((s.experts.get Expert.zero (fld b 0 2)).control % 2 = 1 ∧ (s.experts.get Expert.zero (fld b 0 2)).vf % 64 = ownVf s) = enabled := by
  decide +kernel

/-! ### Witnesses: streams, sequences and launches -/

/-- Warp 0 at an instruction of a unit of die 0 that lets cluster 0 in, with its block. -/
def unitWork (unit op : Nat) (fs : List (Nat × Nat × Nat)) : State := permit unit 0 (work op fs)

/-- A stream with three windows to enter, from scratchpad or for a job. -/
def source (job : Option Nat) : Stream := ⟨0, job, 2, 2, 64, 0, 64, 3, 9, 0, 0, 0, [], 1, none, [], [⟨3, 0, 64, 128, 3, 0, false⟩]⟩

theorem witness_StreamsAndQueuesIssue_opened :
    ∀ p ∈ [(xop .e4m3 0 0 (.k 0) (.v 0) 0, [(0, 1, 63), (1, 1, 48), (2, 2, 2), (4, 4, 64), (8, 4, 1732), (12, 4, 100), (16, 4, 3)]),
        (xop .bf16 0 0 (.k 0) (.v 0) 1, [(1, 1, 1), (2, 2, 128), (4, 4, 8192), (8, 4, 31), (12, 4, 9)])],
      let o := p.1
      let s := unitWork 54 0x54 p.2
      let g := s.wgOf s.actor
      let b := s.scrBytes g (s.blockAt 0 0 o) 32
      let isJob := o.flag 0
      let h := fld b 2 2
      let len := fld b 4 4
      let org := fld b 8 4
      let pitch := fld b 12 4
      let n := fld b 16 4
      let range := (org, (n * h - 1) * pitch + len)
      (Instr.sopen o).wellFormed = true ∧ HasBlock s 0 o 32 ∧ electedB s 0x54 o.g 0 [xBase o] (if isJob then [] else [g.scrLock 0 0 false range.1 range.2]) = true ∧
        fld b 0 1 ≤ 63 ∧ 1 ≤ fld b 1 1 ∧ fld b 1 1 ≤ 48 ∧ 1 ≤ h ∧ h ≤ 128 ∧ len % 4 = 0 ∧ 4 ≤ len ∧ len ≤ 8192 ∧ fld b 20 12 = 0 ∧
        s.streams.look (fld b 0 1) = none ∧
        (if isJob then org ≤ 31 ∧ pitch ≠ 0 ∧ n = 0 ∧ s.jobStream 0 org = none
         else pitch % 4 = 0 ∧ len ≤ pitch ∧ 1 ≤ n ∧ n ≤ 1048576 ∧ InScratch g range) ∧ UnitAllows s 54 false true := by
  decide +kernel

/-- SSUB to, and SCLOSE of, stream 1; BFQJ of the row that makes a window, and of one that does not. -/
theorem witness_StreamsAndQueuesIssue_used :
    (let o := xop .bf16 0 3 (.k 0) (.v 0) 0
     let s := { unitWork 54 0x55 [(0, 1, 1), (1, 1, 1), (4, 4, 1024)] with streams := [(1, source none)] }
     let g := s.wgOf s.actor
     let b := s.scrBytes g (s.blockAt 0 0 o) 32
     s.streams.look (fld b 0 1) = some (source none) ∧ (Instr.ssub o).wellFormed = true ∧ HasBlock s 0 o 32 ∧
      electedB s 0x55 o.g 0 [xBase o] [g.scrLock 0 3 true (fld b 4 4) 256] = true ∧ HasBarrier s o ∧ fld b 0 1 ≤ 63 ∧ 1 ≤ fld b 1 1 ∧ fld b 2 2 = 0 ∧ fld b 8 24 = 0 ∧
      InScratch g (fld b 4 4, 256) ∧ (∀ m ∈ (source none).members, m.cluster ≠ 0) ∧ (source none).members.length < (source none).subs ∧ UnitAllows s 54 true false) ∧
    (let o := xop .bf16 0 3 (.k 0) (.v 0) 0
     let s := { unitWork 54 0x56 [(0, 1, 1)] with streams := [(1, source (some 4))] }
     let g := s.wgOf s.actor
     let b := s.scrBytes g (s.blockAt 0 0 o) 32
     s.streams.look (fld b 0 1) = some (source (some 4)) ∧ (Instr.sclose o).wellFormed = true ∧ HasBlock s 0 o 32 ∧ electedB s 0x56 o.g 0 [xBase o] [] = true ∧
      HasBarrier s o ∧ fld b 0 1 ≤ 63 ∧ fld b 1 31 = 0 ∧ (source (some 4)).cluster = 0 ∧ (source (some 4)).closing = none ∧ UnitAllows s 54 false true) ∧
    (∀ h ∈ [2, 3],
     let o := xop .bf16 0 3 (.k 0) (.v 0) 0
     let x := { source (some 4) with h := h }
     let s := { unitWork 54 0x77 [(0, 1, 4), (4, 4, 2304), (8, 4, 128)] with streams := [(1, x)] }
     let g := s.wgOf s.actor
     let b := s.scrBytes g (s.blockAt 0 0 o) 32
     s.jobStream 0 (fld b 0 1) = some (1, x) ∧ s.streams.look 1 = some x ∧ (Instr.bfqj o).wellFormed = true ∧ HasBlock s 0 o 32 ∧
      electedB s 0x77 o.g 0 [xBase o] [g.scrLock 0 3 false (fld b 4 4) x.len] = true ∧ HasBarrier s o ∧ plainB s [0] = true ∧ fld b 0 1 ≤ 31 ∧ fld b 1 3 = 0 ∧
      fld b 12 20 = 0 ∧ InScratch g (fld b 4 4, x.len) ∧ fld b 8 4 % 4 = 0 ∧ x.closing = none ∧ x.pending.length < 1024 ∧ UnitAllows s 54 false true) := by
  decide +kernel

/-- Sequence 5 is active on this die alone, at width 1, with some fields more. -/
def seq5 (fs : List (Nat × Nat × Nat)) (s : State) : State := desc5 ([(0, 1, 1), (2, 1, 1), (64, 2, s.package * 4), (66, 2, 0xFFFF)] ++ fs) s

/-- A page table of virtual function 0 whose lowest level stands at 0x11000, under a cached pointer, with the entry of page 0x10. -/
def tabled (e : Nat) (s : State) : State :=
  permit (sliceTarget 0 0x11080) (unitMaster 0) (poke 0x11080 8 e { s with ptroot := s.ptroot.set 0 0 1, walkCache := [⟨0, 0, 1, 0, 0x11000⟩] })

theorem witness_StreamsAndQueuesIssue_sequence :
    (∀ cancelled : Bool,
     let o := xop .bf16 0 3 (.k 0) (.k 5) 0
     let s := seq5 [(1, 1, if cancelled then 17 else 16), (6, 1, 4), (7, 1, 16)] (putK 5 (3 * 256 + 16) (unitWork 53 0x74 []))
     let b := s.scrBytes (s.wgOf s.actor) (s.blockAt 0 0 o) 32
     let a := reads s 0 (xAux o)
     (Instr.spwc o).wellFormed = true ∧ HasBlock s 0 o 32 ∧ electedB s 0x74 o.g 0 [xBase o, xAux o] [] = true ∧ HasBarrier s o ∧ plainB s [0] = true ∧
      fld b 9 23 = 0 ∧ ((s.warps.look s.actor).bind Warp.bound) = some 5 ∧ s.seqRank 5 (s.dieNumber 0) = some 0 ∧ s.seqFlag 5 4 = true ∧ a < 4096 ∧
      s.seqFlag 5 0 = cancelled ∧ a / 256 < s.seqPaths 5 ∧ a % 256 ≤ s.seqTokens 5 ∧ s.engines = [] ∧ UnitAllows s 53 false true) ∧
    (∀ p ∈ [(0x4C, 8), (0x4D, 8), (0x4E, 16)],
     let o := xop .bf16 0 3 (.k 0) (.k 5) 0
     let s := bound5 (unitWork 53 p.1 [])
     (Instr.pgal o).wellFormed = true ∧ (Instr.pgfr o).wellFormed = true ∧ (Instr.seqf o).wellFormed = true ∧ HasBlock s 0 o p.2 ∧
      electedB s p.1 o.g 0 [xBase o, xAux o] [] = true ∧ HasBarrier s o ∧ plainB s [0] = true ∧ ((s.warps.look s.actor).bind Warp.bound).isSome = true ∧
      UnitAllows s 53 false true) ∧
    (let o := xop .bf16 0 3 (.k 0) (.v 0) 0
     let s := tabled (0x10003 + 1 * 16) (seq5 [] (unitWork 53 0x78 [(0, 2, 5), (2, 1, 64), (4, 4, 16), (8, 8, 0x10FC0), (16, 4, 0x3F800000)]))
     let b := s.scrBytes (s.wgOf s.actor) (s.blockAt 0 0 o) 32
     (Instr.sampArm o).wellFormed = true ∧ HasBlock s 0 o 32 ∧ electedB s 0x78 o.g 0 [xBase o] [] = true ∧ HasBarrier s o ∧ plainB s [0] = true ∧ 1 ≤ fld b 2 1 ∧
      fld b 2 1 ≤ 64 ∧ fld b 3 1 = 0 ∧ 1 ≤ fld b 4 4 ∧ fld b 4 4 ≤ 16777216 ∧ goodTemp (fld b 16 4) = true ∧ fld b 28 4 = 0 ∧ fld b 8 8 % 4 = 0 ∧
      fld b 20 8 % 4 = 0 ∧ s.seqState (fld b 0 2) = 1 ∧ s.seqVf (fld b 0 2) = ownVf s ∧ fld b 8 8 + 4 * fld b 4 4 ≤ 2 ^ 48 ∧
      s.allSample 0 (ownVf s) (fld b 8 8) (4 * fld b 4 4) = true ∧ s.arms.length < 256 ∧ UnitAllows s 53 false true) ∧
    (∀ armed : Bool,
     let o := xop .bf16 0 3 (.k 0) (.v 0) 1
     let s := { seq5 [] (unitWork 53 0x78 [(0, 2, 5), (4, 4, 2340)]) with arms := if armed then [(5, ⟨0, 2, 16, 0x10FC0, 0x3F800000, 0, false, false, []⟩)] else [] }
     let g := s.wgOf s.actor
     let b := s.scrBytes g (s.blockAt 0 0 o) 32
     let span : Nat := ((s.arms.look (fld b 0 2)).map fun a => 8 * a.topk + 12).getD 0
     span = (if armed then 28 else 0) ∧ (Instr.sampRead o).wellFormed = true ∧ HasBlock s 0 o 32 ∧
      electedB s 0x78 o.g 0 [xBase o] (if span = 0 then [] else [g.scrLock 0 3 true (fld b 4 4) span]) = true ∧ HasBarrier s o ∧ plainB s [0] = true ∧
      fld b 2 2 = 0 ∧ fld b 8 24 = 0 ∧ InScratch g (fld b 4 4, span) ∧ s.seqState (fld b 0 2) = 1 ∧ s.seqVf (fld b 0 2) = ownVf s ∧ UnitAllows s 53 false true) := by
  refine ⟨?_, ?_, ?_, ?_⟩ <;> decide +kernel

/-- Warp 0 bound to sequence 5. -/
def warp5 : Warp := { placedWarp with seq := 5 }

/-- SEQV as it binds, as it tags, and as rank 0 steps. -/
theorem witness_SequencesAndLaunchesIssue_views :
    ∀ p ∈ [((2 : Fin 512), (Reg.k 5), placedWarp, 5), (4, .k 5, warp5, 63), (1, .v 0, warp5, 0)],
      let o := xop .bf16 0 0 p.2.1 (.v 4) p.1
      let s := seq5 [] (putK 5 p.2.2.2 (unitWork 53 0x76 []))
      let s := if p.1.val = 2 then warp0 (fun w => { w with seq := 0xFFFFFFFF }) s else s
      let v := reads s 0 (regOpnd o.pb false false)
      let z := if o.flag 1 then v % 65536 else 5
      s.warps.look s.actor = some p.2.2.1 ∧ s.wgs.look p.2.2.1.wg = some placedWg ∧ (Instr.seqv o).wellFormed = true ∧
        electedB s 0x76 o.g 0 ((if o.flag 1 || o.flag 2 then [regOpnd o.pb false false] else []) ++ [dstOpnd o.aux false]) [] = true ∧ s.copyOf s.actor = none ∧
        (if o.flag 1 then v < 65536 ∧ s.seqState z ≠ 0 ∧ s.seqVf z = 0 else p.2.2.1.bound.isSome = true) ∧ (o.flag 2 = true → v < 64) ∧
        s.seqRank z (s.dieNumber 0) = some 0 ∧ UnitAllows s 53 true false := by
  decide +kernel

/-- SEQW to the same width, which ends at once, and to another; SPWO cancelled, and not, with the largest path and token counts. -/
theorem witness_SequencesAndLaunchesIssue_windows :
    (∀ p ∈ [(1, 2), (32, 0)],
     let o := xop .bf16 0 3 (.k 0) (.v 0) 0
     let s := seq5 [(60, 1, 32)] (unitWork 53 0x75 [(0, 1, p.1)])
     let b := s.scrBytes placedWg (s.blockAt 0 0 o) 32
     let new := fld b 0 1
     s.warps.look s.actor = some warp5 ∧ s.wgs.look warp5.wg = some placedWg ∧ (Instr.seqw o).wellFormed = true ∧ HasBlock s 0 o 32 ∧
      electedB s 0x75 o.g 0 [xBase o] [] = true ∧ HasBarrier s o ∧ plainB s [0] = true ∧ warp5.hold = none ∧ warp5.bound = some 5 ∧
      s.seqRank 5 (s.dieNumber 0) = some 0 ∧ s.seqFlag 5 4 = false ∧ 1 ≤ new ∧ new ≤ 32 ∧ fld b 1 3 = 0 ∧ fld b 12 20 = 0 ∧ UnitAllows s 53 false true ∧
      (if s.seqFlag 5 0 then 4 else if s.seqFlag 5 2 then 3 else if new = s.seqWidth 5 then 2 else if new > s.seqPoolCount 5 then 1 else 0) = p.2) ∧
    (∀ cancelled : Bool,
     let o := xop .bf16 0 3 (.k 0) (.v 0) 0
     let s := present 0x400005 (seq5 [(1, 1, if cancelled then 1 else 0)] (unitWork 53 0x73 [(0, 1, 4), (1, 1, 16)]))
     let b := s.scrBytes placedWg (s.blockAt 0 0 o) 32
     s.warps.look s.actor = some warp5 ∧ (Instr.spwo o).wellFormed = true ∧ HasBlock s 0 o 32 ∧ electedB s 0x73 o.g 0 [xBase o] [] = true ∧ HasBarrier s o ∧
      plainB s [0] = true ∧ s.seqRank 5 (s.dieNumber 0) = some 0 ∧ s.seqBase % 256 = 0 ∧ Ready s (s.seqBase + 256 * 5) 256 ∧ s.plants = [] ∧ s.migrations = [] ∧
      s.seqFlag 5 4 = false ∧ 1 ≤ fld b 0 1 ∧ fld b 0 1 ≤ 4 ∧ 1 ≤ fld b 1 1 ∧ fld b 1 1 ≤ 16 ∧ fld b 2 2 = 0 ∧ fld b 16 16 = 0 ∧ UnitAllows s 53 false true ∧
      s.seqFlag 5 0 = cancelled ∧ ∀ d ∈ (s.seqListed 5).filterMap (fun d => if d / 4 = s.package then some (d % 4) else none), s.versionsFree d ≠ 0) ∧
    (∀ cancelled poisoned : Bool,
     let o := xop .bf16 0 0 (.k 0) (.v 4) 0
     let s := seq5 [(1, 1, if cancelled then 1 else 16), (6, 1, 4), (7, 1, 16)]
       (unitWork 53 0x79 [(0, 4, 2112), (4, 4, 2112), (8, 1, 4), (9, 1, 16), (10, 1, 16), (13, 1, 16)])
     let s := { s with scratchBad := if poisoned then [(264, true)] else [] }
     let g := placedWg
     let b := s.scrBytes g (s.blockAt 0 0 o) 32
     let span := 64 * fld b 8 1
     s.warps.look s.actor = some warp5 ∧ (Instr.acpt o).wellFormed = true ∧ HasBlock s 0 o 32 ∧
      electedB s 0x79 o.g 0 [xBase o, dstOpnd o.aux false] [g.scrLock 0 0 false (fld b 0 4) span, g.scrLock 0 0 false (fld b 4 4) span] = true ∧ s.copyOf s.actor = none ∧
      1 ≤ fld b 8 1 ∧ fld b 8 1 ≤ 4 ∧ fld b 9 1 ∈ [1, 2, 4, 8, 16] ∧ (∀ i < 4, fld b (10 + i) 1 ≤ 16) ∧ fld b 14 18 = 0 ∧ InScratch g (fld b 0 4, span) ∧
      s.seqFlag 5 0 = cancelled ∧ (cancelled = false → s.seqFlag 5 4 = true ∧ fld b 8 1 ≤ s.seqPaths 5 ∧ ∀ i < fld b 8 1, fld b (10 + i) 1 ≤ s.seqTokens 5) ∧
      s.scrBad g (fld b 0 4) span = poisoned ∧ UnitAllows s 53 false true) := by
  refine ⟨?_, ?_, ?_⟩ <;> decide +kernel

/-- A record of LAUNCH in the queue. -/
def queued (bytes : List Byte) : QRec := ⟨bytes, 0, 0, none, none, false, none, 0, 0, none, false⟩

/-- A misaligned record, one for a full queue, one for a queue with a place left; and a word that has come, and one that has not. -/
theorem witness_SequencesAndLaunchesIssue_launches :
    (∀ p ∈ [(0x10020, 0), (0x10100, 8), (0x10100, 7)],
     let o := xop .bf16 0 3 (.k 0) (.v 4) 1
     let s := [0x10100, 0x10140, 0x10180, 0x101C0].foldl (fun s a => permit (sliceTarget 0 a) (unitMaster 0) s)
       { unitWork 52 0x38 [(0, 8, p.1), (8, 2, 15)] with tlbs := [(0, [page16 0])], queues := [(queueKey 0 0 15, List.replicate p.2 (queued []))] }
     let b := s.scrBytes placedWg (s.blockAt 0 0 o) 32
     s.warps.look s.actor = some placedWarp ∧ s.wgs.look placedWarp.wg = some placedWg ∧ placedWarp.hold = none ∧ placedWarp.fatal = [] ∧
      (Instr.launch o).wellFormed = true ∧ electedB s 0x38 o.g 0 [xBase o, dstOpnd o.aux false] [] = true ∧ HasBlock s 0 o 32 ∧ HasBarrier s o ∧ plainB s [0] = true ∧
      decide (fld b 0 8 % 64 = 0 ∧ fld b 0 8 + 256 ≤ 2 ^ 48 ∧ fld b 8 2 ≤ 15 ∧ fld b 10 22 = 0) = decide (p.1 = 0x10100) ∧
      (p.1 = 0x10100 → (∀ k ∈ pagesOf (fld b 0 8) 256, (s.tlbLook (fibreTlb 0) 0 k).isSome = true) ∧ (s.queueOf (queueKey 0 0 (fld b 8 2))).length = p.2 ∧
        UnitAllows s 52 false true ∧ ∀ i < 4, s.memAllows (unitMaster 0) 0 (s.physOf s.actor (fld b 0 8 + 64 * i)) true false = true)) ∧
    (∀ xs ∈ [[], [2 ^ 28 + 3], [7]],
     let o := xop .bf16 0 3 (.k 0) (.v 4) 1
     let s := warp0 (fun w => { w with hold := some ⟨1, [9], 0, 0⟩ }) (work 0x38 [])
     let s := { s with engines := [(9, { s.newOp 0 0 0x38 o with note := xs })] }
     s.warps.look s.actor = some { placedWarp with hold := some ⟨1, [9], 0, 0⟩ } ∧ s.wgs.look placedWarp.wg = some placedWg ∧
      electedB s 0x38 o.g 0 [xBase o, dstOpnd o.aux false] [] = true ∧ s.copyOf s.actor = none ∧ (∀ word ∈ xs, word < 2 ^ 32) ∧
      (s.engines.look 9).map (fun y => (y.note, y.warp, y.wg)) = some (xs, s.actor, 0)) := by
  refine ⟨?_, ?_⟩ <;> decide +kernel

/-! ### Witnesses: engine operations at work, streams, sequences -/

/-- Operation 9 of warp 0, with a change, stands alone. -/
def operating (op : Nat) (o : X) (f : EngOp → EngOp) (s : State) : State :=
  { s with nextId := 20, engines := [(9, f { s.newOp 0 0 op o with blk := 0, block := s.scrBytes placedWg 0 32 })] }

def mayRunB (s : State) (id op : Nat) : Bool :=
  match s.engines.look id with
  | some e => (s.wgs.look e.wg = some placedWg) && e.phase = .running && !s.rowsBusy id e && s.plants = [] && e.opcode = op
  | none => false

theorem mayRun_of {s : State} {id op : Nat} (h : mayRunB s id op = true) : ∃ e, MayRun s id e placedWg ∧ e.opcode = op := by
  unfold mayRunB at h
  cases h' : s.engines.look id with
  | none => rw [h'] at h; cases h
  | some e =>
    rw [h'] at h
    simp only [Bool.and_eq_true, Bool.not_eq_true', decide_eq_true_eq] at h
    exact ⟨e, ⟨h', h.1.1.1.1, by decide, h.1.1.1.2, h.1.1.2, h.1.2⟩, h.2⟩

/-- MMA and MMT over scratchpad ranges, ACCZ and ACCMV, each running. -/
theorem witness_EngineArrivals :
    (∀ p ∈ [(0x50, xop .bf16 6 3 (.k 0) (.v 0) 1, [(0, 4, 32), (4, 4, 16), (8, 4, 256), (12, 4, 64)]), (0x51, xop .t2 0 3 (.k 0) (.v 0) 1, [(0, 4, 2240), (4, 4, 128)]),
        (0x53, xop .bf16 0 3 (.v 0) (.k 5) 0, []), (0x52, xop .f16 0 3 (.k 0) (.v 0) 4, [(2, 2, 1), (8, 2, 1), (10, 2, 4), (12, 4, 64), (16, 4, 8), (24, 4, 0xFFFFFFFF)]),
        (0x52, xop .s32 0 0 (.k 0) (.v 4) 1, [(2, 2, 1), (8, 2, 1), (10, 2, 1), (24, 4, 0xFFFFFFFF)])],
      let s := operating p.1 p.2.1 (fun e => { e with aux := 15 + 1024, bar := if p.2.1.flag 0 && p.1 = 0x52 then none else e.bar, dst := if p.1 = 0x52 then some ⟨false, 4, false⟩ else none }) (work p.1 p.2.2)
      mayRunB s 9 p.1 = true ∧ ∀ q ∈ s.engines, (p.1 = 0x50 ∨ p.1 = 0x51 → s.operLost q.2 false 0 0 = false ∧ (s.operOf q.2 false 0 0 4 16).isSome = true ∧
        (s.operOf q.2 false 0 8 12 64).isSome = true) ∧ (p.1 = 0x52 → Sys2Proof.Num.bit q.2.flags 1 = false ∧ (Sys2Proof.Num.bit q.2.flags 0 = false →
          fld q.2.block 10 2 * outSize (etyOf q.2.ety) ≤ fld q.2.block 16 4) ∧ (Sys2Proof.Num.bit q.2.flags 0 = true → q.2.bar = none ∧ q.2.dst = some ⟨false, 4, false⟩))) ∧
    (∀ phase ∈ [EPhase.suspended 16, .stopping 0x0A 2 16, .stopping 0x0B 2 16],
      let s := operating 0x59 (xop .bf16 0 3 (.k 0) (.v 0) 0) (fun e => { e with phase := phase }) (work 0x59 [])
      ∀ q ∈ s.engines, s.engines.look 9 = some q.2 ∧ q.2.phase = phase ∧ s.opAsks 9 16 q.2 = false ∧ s.wgs.look q.2.wg = some placedWg ∧ placedWg.copy ≠ 1 ∧
        q.2.opcode ≠ 0x5C ∧ q.2.opcode ≠ 0x76 ∧ q.2.dst = none) := by
  refine ⟨?_, ?_⟩ <;> decide +kernel

/-- A stream of one window to one subscriber; a job's row at, and before, its deadline; a row to scatter; a logit that lands. -/
theorem witness_StreamsAndFilters :
    (let x := { stream1 0 1 64 with windows := 1, origin := 64, pitch := 64, members := [⟨0, 0, 1, 1024, 0, 0, 0⟩] }
     let s := { work 0x55 [] with streams := [(1, x)] }
     s.plants = [] ∧ s.streams.look (0 * 64 + 1) = some x ∧ x.delivered < x.windows ∧ x.subs ≤ x.members.length ∧
      (∀ m ∈ x.members, (x.delivered - 1) * m.replay ≤ m.consumed ∧ s.wgs.look m.wg = some placedWg ∧ placedWg.cluster = m.cluster ∧ placedWg.phase ≠ .saved ∧
        placedWg.rail * 148 + (m.land + x.delivered % 2 * (x.h * x.len)) + x.h * x.len ≤ 2 ^ 21) ∧
      (x.members.map Sub.cluster).Nodup ∧ ∀ j < x.h, (s.streamRow x x.delivered j).isSome = true) ∧
    (∀ deadline ∈ ([0, 9] : List Nat),
     let x : Stream := { source (some 4) with deadline := deadline }
     let s := { work 0x55 [] with streams := [(1, x)] }
     s.jobStream 0 4 = some (1, x) ∧ x.pending = [⟨3, 0, 64, 128, 3, 0, false⟩] ∧ decide (x.deadline ≤ (s.die 0).queueClock) = decide (deadline = 0)) ∧
    (let x := { stream2 8 with members := [⟨0, 0, 1, 1024, 0, 1, 0⟩] }
     let s := operating 0x52 (xop .f16 0 3 (.k 0) (.v 0) 2) (fun e => { e with note := [1, 0], parts := [⟨0, 0⟩] })
       { work 0x52 [(2, 2, 1), (8, 2, 1), (10, 2, 4), (12, 4, 64), (24, 4, 0xFFFFFFFF), (28, 1, 2)] with streams := [(2, x)] }
     let s := { s with engines := (7, { s.newOp 0 0 0x77 (xop .bf16 0 3 (.k 0) (.v 0) 0) with bar := some 3 }) :: s.engines }
     ∀ q ∈ s.engines.drop 1, s.engines.look 9 = some q.2 ∧ s.wgs.look q.2.wg = some placedWg ∧ q.2.opcode = 0x52 ∧ Sys2Proof.Num.bit q.2.flags 1 = true ∧
      q.2.parts[0]? = some ⟨0, 0⟩ ∧ s.rowsBusy 9 q.2 = false ∧ s.streams.look (0 * 64 + fld q.2.block 28 1) = some x ∧
      (x.batches.getD 0 [])[0]? = some ⟨7, 0, 512, 1024, 3, 0, false⟩ ∧ 1024 + fld q.2.block 12 4 + 4 * outSize (etyOf q.2.ety) ≤ placedWg.alloc ∧
      (s.engines.look 7).map (fun y => (y.dst, y.opcode, y.wg, y.bar)) = some (none, 0x77, 0, some 3)) ∧
    (let a : Arm := ⟨0, 2, 16, 0x10FC0, 0x3F800000, 0, false, false, []⟩
     let f := flight .sample 0x10FC4 true
     let s := { work 0x55 [] with flights := [(1, f)], arms := [(5, a)] }
     s.flights.look 1 = some f ∧ f.kind = .sample ∧ f.merged = true ∧ f.words = [(0x10FC4, 0x10FC4, 0x12345678)] ∧
      (s.arms.filter fun p => decide (p.2.vf = f.vf ∧ p.2.logits ≤ 0x10FC4 ∧ 0x10FC4 < p.2.logits + 4 * p.2.vocab)) = [(5, a)] ∧ s.arms.look 5 = some a) := by
  refine ⟨?_, ?_, ?_, ?_⟩ <;> decide +kernel

/-- Virtual function 0 owns all of memory and has its fault area at 0x100000, and die 0's pool holds the page at 0x140000. -/
def pooled (s : State) : State :=
  let s := [(0x120040, 8, 0x130000), (0x120048, 4, 16), (0x120050, 4, 1), (0x130000, 8, 0x140000)].foldl (fun s (f : Nat × Nat × Nat) => poke f.1 f.2.1 f.2.2 s) s
  permit (sliceTarget 0 0x130000) (unitMaster 0) (permit (sliceTarget 0 0x120040) (unitMaster 0)
    { s with vfcfg := s.vfcfg.set 0 0 (BitVec.ofNat 128 (0x100000 * 2 ^ 64)), vfmem := s.vfmem.put 0 (BitVec.ofNat 128 (1 + (2 ^ 36 - 1) * 2 ^ 80)) })

/-- A line that stands in L2 whole, and lines of one kind from a number on. -/
def wholeL : L2Line := ⟨3, 3, true, true, 0, 0, false, 0, 0, none, [], false⟩
def run (lo n : Nat) : Tab L2Line := (List.range' lo n).map fun k => (k, wholeL)

theorem look_run : ∀ (n lo k : Nat), k < n → Tab.look (run lo n) (lo + k) = some wholeL
  | 0, _, _, h => by omega
  | n + 1, lo, k, h => by
    rw [run, List.range'_succ, List.map_cons, Tab.look]
    cases k with
    | zero => simp
    | succ k => rw [if_neg (by omega), show lo + (k + 1) = lo + 1 + k by omega]; exact look_run n (lo + 1) k (by omega)

theorem whole_run {s : State} {a b : Nat × L2Line} {lo n : Nat} (h : s.l2 = a :: b :: run lo n) (ha : a.1 < lo) (hb : b.1 < lo) {k : Nat} (hk : k < n) :
    WholeLine s (lo + k) := by
  have e : s.l2.look (lo + k) = some wholeL := by
    rw [h, Tab.look, if_neg (by omega), Tab.look, if_neg (by omega)]; exact look_run n lo k hk
  simp [WholeLine, State.l2Line, Tab.get, e, wholeL]

/-- A copy under way of page 2 of sequence 5, from 0x150000, both pages in L2. -/
def moving (s : State) : State :=
  { pooled (seq5 [(44, 4, 4)] s) with migrations := [(5, ⟨9, [⟨2, 0x150000, none, false, false⟩]⟩)], l2 := run 0x1400 512 }

/-- The page that the new owner's pool gives, and the state that its taking leaves. -/
def taken : Take × State := let s := moving (work 0x75 []); s.takePage (s.seqVf 5) (s.pageOwner 5 2)

theorem taken_l2 : taken.2.l2 = taken.2.l2.headD (0, wholeL) :: (taken.2.l2.drop 1).headD (0, wholeL) :: run 0x1400 512 ∧
    (taken.2.l2.headD (0, wholeL)).1 < 0x1400 ∧ ((taken.2.l2.drop 1).headD (0, wholeL)).1 < 0x1400 := by decide +kernel

theorem witness_ViewsAndPages_copied :
    (let s := moving (work 0x75 [])
     let m : Migration := ⟨9, [⟨2, 0x150000, none, false, false⟩]⟩
     s.migrations.look 5 = some m ∧ (m.moves.find? fun y => decide (y.page = 2)) = some ⟨2, 0x150000, none, false, false⟩ ∧ s.seqHalted 5 = false ∧
      s.moveFault 5 2 = false ∧ taken.1 = .page 0x140000 ∧ taken.2.migrations = s.migrations ∧ taken.2.plants = [] ∧ s.package * 2 ^ 40 + 4096 ≤ 0x140000 ∧
      ∀ z ∈ taken.2.migrations, ∀ y ∈ z.2.moves, y.copied = false) ∧
    ∀ k < 256, WholeLine taken.2 (0x150000 / 256 + k) ∧ WholeLine taken.2 (0x140000 / 256 + k) :=
  ⟨by decide +kernel, fun k hk =>
    ⟨by rw [show 0x150000 / 256 + k = 0x1400 + (k + 256) by omega]; exact whole_run taken_l2.1 taken_l2.2.1 taken_l2.2.2 (by omega),
     whole_run taken_l2.1 taken_l2.2.1 taken_l2.2.2 (by omega)⟩⟩

/-- SEQW to a width of 2 with its old view at rest, and with a store under way; a switch with every page copied; a write to a page of its own and to a shared one. -/
theorem witness_ViewsAndPages :
    (∀ busy : Bool,
     let s := operating 0x75 (xop .bf16 0 3 (.k 0) (.v 0) 0) (fun e => { e with seq := 5 }) (present 0x400005 (seq5 [] (work 0x75 [(0, 1, 2)])))
     let s := if busy then { s with flights := [(1, { flight .write 0x10040 true with view := 0 })] } else s
     (∀ q ∈ s.engines, q = (9, q.2) ∧ q.2.opcode = 0x75 ∧ q.2.seq = 5 ∧ q.2.phase = .running ∧ s.wgs.look q.2.wg = some placedWg ∧ q.2.blk + 12 ≤ placedWg.alloc) ∧
      s.viewBusy 5 (s.seqView 5) = busy ∧ s.seqBase % 256 = 0 ∧ Ready s (s.seqBase + 256 * 5) 256 ∧ s.plants = [] ∧ s.migrations = [] ∧ s.seqKvLimit 5 = 0) ∧
    (∀ opened : Bool,
     let s := operating 0x75 (xop .bf16 0 3 (.k 0) (.v 0) 0) (fun e => { e with seq := 5, phase := .sending })
       (present 0x400005 (seq5 [(1, 1, if opened then 16 else 0)] (work 0x75 [])))
     let s := { s with migrations := [(5, ⟨9, []⟩)] }
     s.migrations.look 5 = some ⟨9, []⟩ ∧ s.seqFlag 5 4 = opened ∧ s.seqHalted 5 = false ∧ s.seqBase % 256 = 0 ∧ Ready s (s.seqBase + 256 * 5) 256 ∧ s.plants = [] ∧
      ∀ q ∈ s.engines, s.engines.look 9 = some q.2 ∧ s.wgs.look q.2.wg = some placedWg ∧ q.2.dst = none ∧ q.2.opcode = 0x75) ∧
    (∀ shared : Bool,
     let s := poke 0x150000 8 (kvMake 0 1 0x160000 shared false) (pooled (seq5 [(32, 8, 0x200000), (40, 4, 64), (44, 4, 1), (248, 8, 0x150000)] (work 0x41 [])))
     let w : Walk := ⟨.cow 0, 0, 0, 0, 0x200, 2⟩
     let s := { s with walks := [(4, w)] }
     s.cowsOf 0 = [(4, w)] ∧ s.warps.look 0 = some warp5 ∧ warp5.bound = some 5 ∧ s.inKv 5 (w.page * 4096) 4096 = true ∧ kvShared (s.kvEntry 5 0) = shared ∧
      (shared = true → (s.takePage (s.seqVf 5) (s.pageOwner 5 0)).1 = .page 0x140000)) := by
  refine ⟨?_, ?_, ?_⟩ <;> decide +kernel

/-- A table whose lowest level has an absent, a read-only and a writable entry, and one of the next level down; requests for each. -/
theorem witness_TranslationEvents_walks :
    (∀ p ∈ [(0, 0, false), (0x10002, 0, true), (0x10003, 0, true), (0x12001, 1, false), (0x12001, 0, false)],
     let s := permit (sliceTarget 0 0x11000) (unitMaster 0) (permit (sliceTarget 0 0x11080) (unitMaster 0)
       (poke (if p.2.1 = 0 then 0x11080 else 0x11000) 8 p.1 (ready 0x40)))
     let pa := 0x11000 + 8 * (0x10040 / 2 ^ (12 + 9 * p.2.1) % 512)
     let e := s.homeNat pa 8
     let next := e / 2 ^ 12 % 2 ^ 40 * 4096
     s.memAllows (unitMaster 0) 0 pa true false = true ∧ e / 2 ^ 55 % 2 ^ 3 = 0 ∧ e / 2 ^ 58 = 0 ∧ e / 4 % 2 = 0 ∧ (e / 8 % 2 = 1 → e % 4 = 2) ∧ e % 4 = p.1 % 4 ∧
      (2 ≤ e % 4 → next % 2 ^ (12 + 9 * p.2.1) = 0 ∧ populated (next + 0x10040 % 2 ^ (12 + 9 * p.2.1)) = true ∧ e / 2 ^ 4 % 8 ≠ 2)) ∧
    (∀ p ∈ [(0x10003, 0), (0x10001, 1), (0, 2)],
     let s := tabled p.1 (pooled (ready 0x40))
     let w : Walk := ⟨.warp 0 1, 0, 0, 0, 0x10, 1⟩
     let s := { s with walks := [(4, w)] }
     s.warps.look 0 = some placedWarp ∧ s.faultArea 0 ≠ 0 ∧ s.pendingFault w.vf w.page = none ∧
      (match (s.walk w.die w.vf (w.page * 4096) (Sys2Proof.Num.bit w.access 1)).2 with
        | .found _ => 0
        | .fatal _ _ => 1
        | .absent _ => 2
        | _ => 3) = p.2) := by
  refine ⟨?_, ?_⟩ <;> decide +kernel

/-- An entry whose requesters are gone, a full queue, and the last entry of the ring; the pager's three answers. -/
theorem witness_TranslationEvents_faults :
    (∀ p ∈ [(0, 0), (1, 4096), (2, 4095)],
     let f : PageFault := ⟨0, 0x10, 0, 1, 0, 0, 0, 0, 0, 0, none, if p.1 = 0 then [] else [.warp 0 1]⟩
     let s := poke 0x120000 4 p.2 (pooled (ready 0x40))
     let s := permit (sliceTarget 0 0x120000) (unitMaster 0) (permit (sliceTarget 0 (0x100000 + 32 * (p.2 % 4096))) (unitMaster 0) { s with
       faults := [(4, f)], l2 := [(0x1000 + p.2 % 4096 / 8, ⟨3, 3, true, true, 0, 0, false, 0, 0, none, [], false⟩), (0x1200, ⟨3, 3, true, true, 0, 0, false, 0, 0, none, [], false⟩)] })
     let area := s.faultArea 0
     let n := s.homeNat (area + 131072) 4
     (s.faults.first fun _ f => f.vf = 0 && f.number.isNone) = some (4, f) ∧ area = 0x100000 ∧ n = p.2 ∧
      (p.1 = 1 → 4096 ≤ (n + 2 ^ 32 - s.homeNat (area + 131076) 4) % 2 ^ 32) ∧
      (p.1 = 2 → (n + 2 ^ 32 - s.homeNat (area + 131076) 4) % 2 ^ 32 < 4096 ∧ Quiet s ∧ area % 256 = 0 ∧ Ready s (area + 32 * (n % 4096)) 32 ∧
        Ready s (area + 131072) 4 ∧ s.memAllows (unitMaster f.die) 0 (area + 32 * (n % 4096)) false true = true ∧
        s.memAllows (unitMaster f.die) 0 (area + 131072) false true = true ∧ f.page < 2 ^ 52 ∧ f.master < 2 ^ 16)) ∧
    (∀ answer ∈ [0, 1, 2],
     let f : PageFault := ⟨0, 0x10, 0, 1, 0, 0, 0, 0, 0, 0, some 4097, [.warp 0 1]⟩
     let s := { poke 0x10003C 4 answer (pooled (ready 0x40)) with faults := [(4, f)] }
     (s.faults.first fun _ f => f.vf = 0 && f.number = some 4097) = some (4, f) ∧ s.warps.look 0 = some placedWarp ∧
      s.homeNat (s.faultArea 0 + 32 * (4097 % 4096) + 28) 4 = answer) := by
  refine ⟨?_, ?_⟩ <;> decide +kernel

/-! ### Witnesses: selection, clocks, launches, pre-emption -/

/-- Warp 0 between clauses, with lanes 0 and 1 at two positions, one passed over twice. -/
def waiting (passed : Nat) : State :=
  let s := warp0 (fun w => { w with batch := none, lanes := 2 }) (ready 0x01)
  { s with fibres := [(0, { placedFibre 0 with pc := 0x20000, hdr := 0x20000, passed := passed }), (1, { placedFibre 0 with pc := 0x10000, hdr := 0x10000 })] }

theorem witness_SelectionAndClauseStart_selected :
    (∀ s ∈ [{ waiting 0 with fibres := [] }, waiting 0, waiting 2],
      s.warps.look 0 = some { placedWarp with batch := none, lanes := 2 } ∧ s.stopsFor 0 = false ∧ ∀ p ∈ s.fibresOf 0, p.2.wait = .none) ∧
    (waiting 2).runnable 0 false ≠ [] ∧ { waiting 0 with fibres := [] }.runnable 0 false = [] := by
  decide +kernel

/-- Warp 0 with lane 0 selected, at a header, with so many stores under way. -/
def atHeader (header stores : Nat) : State :=
  poke 0x10000 8 header (warp0 (fun w => { w with batch := some ⟨[0], none⟩, stores }) (fibre0 (fun f => { f with pc := 0x10000, hdr := 0x10000 }) (ready 0x01)))

/-- A word that is no header, a header whose store threshold is exceeded, and one at its threshold. -/
theorem witness_SelectionAndClauseStart_begun :
    ∀ p ∈ [(0, 0), (placedHeader 0 - 2 ^ 45, 15), (placedHeader 0 - 2 ^ 45, 14)],
      let s := atHeader p.1 p.2
      let w := { placedWarp with batch := some ⟨[0], none⟩, stores := p.2 }
      let room := fun (n lo : Nat) => decide (p.1 / 2 ^ lo % 16 = 15) || decide (n ≤ p.1 / 2 ^ lo % 16)
      s.warps.look 0 = some w ∧ s.stopsFor 0 = false ∧ s.plants = [] ∧ s.lowest 0 = 0 ∧ (s.fibres.look 0).map (fun f => (f.pc, f.hdr)) = some (0x10000, 0x10000) ∧
        s.fetch 0 0x10000 = .word p.1 ∧ headerOk p.1 = decide (p.1 ≠ 0) ∧ ((s.wgs.look w.wg).bind Wg.version) = none ∧
        (p.1 ≠ 0 → (room w.loads 49 && room w.stores 45 && room w.engines 41) = decide (p.2 = 14)) ∧
        (p.2 = 14 → s.throttled 0 = false ∧ s.breakHit 0 0x10000 = none ∧ s.freePortOf 0 = some 1 ∧ s.portPick 0 1 = some 0) := by
  decide +kernel

theorem witness_SchedulingClocks :
    (∀ waited ∈ ([0, 1] : List Nat),
      let r : QRec := { queued [] with waited := waited }
      let s := { ready 0x01 with queues := [(queueKey 0 0 3, [r])], dies := (ready 0x01).dies.set Die.off 0 { (ready 0x01).die 0 with queueClock := 65536 } }
      s.queueOf (queueKey 0 0 3) = [r] ∧ decide ((s.die 0).queueClock < r.waited + 65536) = decide (waited = 1)) ∧
    (∀ cyc ∈ ([3071, 3072] : List Nat),
      let s := { ready 0x01 with clusters := (ready 0x01).clusters.set Cluster.reset 0 { (ready 0x01).cluster 0 with cyc := BitVec.ofNat 64 cyc, decayed := 2048 } }
      s.warps.look 0 = some placedWarp ∧ decide (placedWarp.lastCycle + 3072 ≤ (s.cluster 0).cyc.toNat) = decide (cyc = 3072) ∧
        decide ((s.cluster 0).decayed.toNat + 1024 ≤ (s.cluster 0).cyc.toNat) = decide (cyc = 3072)) ∧
    (∀ p ∈ ([(0, 0), (1, 1023), (1, 1024)] : List (Nat × Nat)),
      let s := { ready 0x01 with clusters := (ready 0x01).clusters.set Cluster.reset 0 { (ready 0x01).cluster 0 with cyc := BitVec.ofNat 64 p.2, sliceLen := p.1 } }
      (s.cluster 0).sliceLen = p.1 ∧ ((s.cluster 0).cyc - (s.cluster 0).sliceFrom).toNat = p.2 ∧ (∀ p ∈ s.warps, p.2.state ≠ .halted) ∧ s.wanted 0 = false) := by
  refine ⟨?_, ?_, ?_⟩ <;> decide +kernel

/-- A launch record of one workgroup of one warp with one lane, with fields of its own. -/
def record (fs : List (Nat × Nat × Nat)) : List Byte :=
  (scr ([(0, 8, 0x10000), (8, 4, 1), (12, 4, 1), (16, 4, 1), (20, 1, 1), (21, 1, 1), (22, 1, 64)] ++ fs) (ready 0x38)).scrBytes placedWg 0 256

def launched (bytes : List Byte) : Launch := ⟨bytes, 0, 0, 3, 0, none, [], [], [], [], [], [], [], 0, false, false, false, []⟩

/-- Cluster 0 is virtual function 0's, which may launch. -/
def granted (s : State) : State := { s with vfcfg := s.vfcfg.set 0 0 (BitVec.ofNat 128 (2 ^ 31 + 0x100000 * 2 ^ 64)), vfsel := s.vfsel.set 0 0 0x80000000 }

/-- A save in a frame is wanted: a saved workgroup of more warps than the cluster has free. -/
theorem witness_SchedulingClocks_wanted :
    let l := launched (record [(20, 1, 32), (29, 1, 1), (148, 8, 0x200000)])
    let s := granted { ready 0x01 with
      launches := [(0, launched (record [(148, 8, 0x200000)])), (5, l)], wgs := [(0, placedWg), (7, { placedWg with launch := 5, cluster := 199, phase := .saved })]
      clusters := (ready 0x01).clusters.set Cluster.reset 0 { (ready 0x01).cluster 0 with cyc := 1024, sliceLen := 1 } }
    (s.cluster 0).sliceLen = 1 ∧ ((s.cluster 0).cyc - (s.cluster 0).sliceFrom).toNat = 1024 ∧ (∀ p ∈ s.warps, p.2.state ≠ .halted) ∧ s.wanted 0 = true ∧
      (s.launches.look 0).map (fun l => recSave l.bytes) = some 0x200000 := by
  decide +kernel

/-- Records that are not permitted, invalid, too large, and accepted. -/
theorem witness_LaunchesRun_accepted :
    ∀ p ∈ [(false, record [], Verdict.refuse 4 0 none), (true, record [(21, 1, 33)], .refuse 3 0 none), (true, record [(20, 1, 33)], .refuse 1 1 none),
        (true, record [(20, 1, 32), (21, 1, 32), (22, 1, 64)], .accept [] [] [])],
      let r : QRec := ⟨p.2.1, 0, 0, none, none, true, none, 0, 0, none, false⟩
      let s := { ready 0x01 with queues := [(queueKey 0 0 3, [r])] }
      let s := if p.1 then granted s else s
      ((s.queueOf (queueKey 0 0 3)).findIdx? fun r => r.accepted.isNone) = some 0 ∧ (s.queueOf (queueKey 0 0 3))[0]? = some r ∧
        s.checkRecord 0 0 3 r = p.2.2 ∧ recCompletion r.bytes = 0 ∧ s.recordDenied 0 3 r.bytes = !p.1 ∧ recGroups r.bytes = 0 ∧ recSems r.bytes = 0 ∧
        recImageLen r.bytes = 0 ∧ recBound r.bytes = false ∧ recDepends r.bytes = false := by
  decide +kernel

theorem witness_LaunchesRun_placed :
    let l := launched (record [(8, 4, 2), (32, 4, 200), (36, 2, 16), (44, 4, 1), (48, 2, 1)])
    let r : QRec := ⟨l.bytes, 0, 0, none, none, true, some 5, 0, 0, none, false⟩
    let s := granted { ready 0x01 with nextId := 20, queues := [(queueKey 0 0 3, [r])], launches := [(5, l)] }
    (∀ r ∈ s.queueOf (queueKey 0 0 3), s.isTerminated r = false) ∧ s.servedVf 0 = some 0 ∧ s.servedQueue 0 0 = some 3 ∧
      ((s.queueOf (queueKey 0 0 3)).head?.bind QRec.accepted) = some 5 ∧ s.launches.look 5 = some l ∧ l.suspended = false ∧ l.terminated = false ∧ l.sems = [] ∧
      recBound l.bytes = false ∧ recRedundant l.bytes = false ∧ recVersioned l.bytes = false ∧ s.nextPlace l = some 0 ∧ s.target' l 0 = some [0] ∧ s.plants = [] := by
  decide +kernel

/-- The last workgroup of a launch, without a completion record and with one. -/
theorem witness_LaunchesRun_retired :
    ∀ base ∈ [0, 0x10100],
      let l := launched (record [(120, 8, base)])
      let s := permit (sliceTarget 0 0x10100) (unitMaster 0) (permit (sliceTarget 0 0x10140) (unitMaster 0)
        (present 0x101 (warp0 (fun w => { w with state := .ended }) { ready 0x01 with launches := [(0, l)] })))
      s.wgs.look 0 = some placedWg ∧ placedWg.copy = 0 ∧ placedWg.version = none ∧ placedWg.phase = .resident ∧ placedWg.cause = 0 ∧ s.wgIdle 0 = true ∧
        s.releaseWg 0 = s ∧ s.flights = [] ∧ s.launches.look 0 = some l ∧ l.op = none ∧ recCompletion l.bytes = base ∧
        (base ≠ 0 → base % 64 = 0 ∧ Quiet s ∧ Ready s base 64 ∧ Ready s (base + 64) 1 ∧ s.memAllows (unitMaster 0) 0 base false true = true ∧
          s.memAllows (unitMaster 0) 0 (base + 64) false true = true) := by
  decide +kernel

/-- Workgroup 0 of a launch with save frames from 0x200000, standing in a phase. -/
def framed (phase : WgPhase) (s : State) : State :=
  granted (wg0 (fun g => { g with phase := phase }) { s with launches := [(0, launched (record [(32, 4, 2368), (36, 2, 16), (28, 1, 1), (148, 8, 0x200000)]))] })

/-- Its frame's pages lie in a writable leaf of 2 MiB and in the next one, which cluster 0 may write. -/
def frames (s : State) : State :=
  let s := { pooled s with ptroot := s.ptroot.set 0 0 1, walkCache := [⟨0, 0, 2, 0, 0x11000⟩] }
  let s := poke 0x11008 8 0x200003 (poke 0x11010 8 0x400003 (permit (sliceTarget 0 0x11000) (unitMaster 0) s))
  (List.range 64).foldl (fun s k => permit k 0 s) s

theorem witness_PreemptionAndRelaunch_stop :
    ∀ p ∈ [(WgPhase.resident, none), (.stopping, some (⟨1, [9], 0, 0⟩ : Hold))],
      let s := framed p.1 (warp0 (fun w => { w with hold := p.2 }) (ready 0x01))
      (s.wgs.look 0).map (fun g => (g.phase, g.cause, g.launch)) = some (p.1, 0, 0) ∧ (s.launches.look 0).map (fun l => recSave l.bytes) = some 0x200000 ∧
        (p.1 = .stopping → s.drained 0 = false) := by
  decide +kernel

/-- Every page of the frame is found. -/
theorem witness_PreemptionAndRelaunch_saved :
    let s := frames (framed .stopping (ready 0x01))
    s.drained 0 = true ∧ s.faults = [] ∧ s.flights = [] ∧ ((s.releaseAll ((s.warpsOf 0).headD 0) 0).2).sendPartials 0 true = s ∧
      (∀ l ∈ s.launches, ∀ p ∈ framePages l.2.bytes 0, s.framePage 0 l.2.vf p = .ok) ∧ (∀ g ∈ s.wgs, g.2.warps.Nodup ∧ ∀ i ∈ g.2.warps, i < 32) ∧ (s.cluster 0).xqueue = [] := by
  decide +kernel

/-- A saved workgroup, which another cluster and the one it left could take. -/
theorem witness_PreemptionAndRelaunch_restored :
    let s := framed .saved (wg0 (fun g => { g with cluster := 192, rail := 0 }) { ready 0x01 with warps := [(6144, placedWarp)], groups := [] })
    ∀ g ∈ s.wgs, ∀ l ∈ s.launches, g.2.phase = .saved ∧ g.2.cluster = 192 ∧ g.2.warps = List.range (recWarps l.2.bytes) ∧ dieOf 0 = dieOf g.2.left ∧
      s.fits 0 l.2.vf (s.savedNeed 0 g.2 l.2.bytes) = true ∧ s.locks = [] ∧ s.outranked 0 l.2.vf (recPriority l.2.bytes) = false ∧ (s.cluster 0).xqueue = [] := by
  decide +kernel

/-- A pair whose copies stand at a checkpoint of a fibre, with regions or without, and with signatures of some difference. -/
def paired (kind missed : Nat) (there inside : Bool) (diff : Nat) : State :=
  let f := { placedFibre 0 with wait := if there then .check 8 else .none, regions := if inside then [1] else [] }
  { ready 0x01 with
    warps := [(0, placedWarp), (32, { placedWarp with wg := 1 })], fibres := [(0, f), (1024, { f with sigPart := BitVec.ofNat 64 diff, regions := if inside then [2] else [] })]
    wgs := [(0, { placedWg with copy := 1, pair := 5 }), (1, { placedWg with copy := 2, pair := 5, cluster := 1 })]
    pairs := [(5, ⟨0, 1, 16, [], if missed = 0 then [] else [(0x10008, 0, missed)]⟩)], checks := [(8, ⟨5, kind, 0x10008, 0, [0], [0], if there then [0] else [], false⟩)]
    regions := [(1, region 11 none), (2, { region 12 none with warp := 32, wg := 1, members := [1024] })] }

theorem witness_PreemptionAndRelaunch_compared :
    ∀ p ∈ ([(1, 0, false, false, 0), (1, 0, true, false, 0), (3, 0, true, false, 0), (1, 0, true, true, 1), (1, 1, true, true, 1), (1, 0, true, false, 1)] :
        List (Nat × Nat × Bool × Bool × Nat)),
      let s := paired p.1 p.2.1 p.2.2.1 p.2.2.2.1 p.2.2.2.2
      ∀ x ∈ s.checks, ∀ q ∈ s.pairs, ∀ a ∈ s.wgs.head?, ∀ b ∈ s.wgs.getLast?,
        s.checks.look 8 = some x.2 ∧ s.pairs.look x.2.pair = some q.2 ∧ s.wgs.look q.2.lead = some a.2 ∧ s.wgs.look q.2.trail = some b.2 ∧ q.2.lead ≠ q.2.trail ∧ a.2.copy = 1 ∧
          a.2.pair = x.2.pair ∧ x.2.done = false ∧ s.halts = [] ∧ a.2.phase ≠ .saved ∧ b.2.phase ≠ .saved ∧
          decide (∀ n ∈ x.2.fibres, (n ∈ x.2.lead ∧ s.standsThere a.2 8 x.2 n = true) ∧ (n ∈ x.2.trail ∧ s.standsThere b.2 8 x.2 n = true)) = p.2.2.1 ∧
          decide (s.signature a.2 x.2.fibres = s.signature b.2 x.2.fibres) = decide (p.2.2.2.2 = 0) ∧
          decide (∀ n ∈ x.2.fibres, (s.regionAt a.2 n).isSome = true ∧ (s.regionAt b.2 n).isSome = true) = p.2.2.2.1 ∧ q.2.missed x.2.pc x.2.region = p.2.1 := by
  decide +kernel

/-- A workgroup that failed by a memory error, at its fourth failure and at its first, with cluster 1 free. -/
theorem witness_PreemptionAndRelaunch_placed :
    ∀ n ∈ ([3, 2] : List Nat),
      let s := wg0 (fun g => { g with phase := .failed, cause := 0x08, relaunches := n }) (warp0 (fun w => { w with state := .ended })
        { granted (ready 0x01) with nextId := 20, launches := [(0, launched (record []))] })
      let s := { s with vfsel := s.vfsel.set 0 1 0x80000000 }
      ∀ g ∈ s.wgs, ∀ l ∈ s.launches, s.wgs.look 0 = some g.2 ∧ g.2.copy = 0 ∧ g.2.phase = .failed ∧ s.wgIdle 0 = true ∧ s.flights = [] ∧ s.launches.look g.2.launch = some l.2 ∧
        g.2.relaunches = n ∧ g.2.cause ≠ 0x12 ∧ (n = 2 → s.mayRelaunch [0] g.2 l.2 [0] = true ∧ l.2.suspended = false ∧
          (s.freeWg 0).bestFit ((clustersOf (s.dieFor l.2 g.2.lin % 4)).filter fun k => !([0] : List Nat).contains k) l.2.vf (recNeed l.2.bytes) = some 1) := by
  decide +kernel

/-! ### Witnesses: the debugger, register writes, the host, links, bring-up -/

/-- Cluster 0's debugger has a command running on warp 0, which stands in a state: command, lane, code, space, mode. -/
def debugged (cmd lane code space mode : Nat) (st : WState) : State :=
  warp0 (fun w => { w with state := st, batch := none })
    { ready 0x01 with dbg := (ready 0x01).dbg.set 0 0 (BitVec.ofNat 64 (cmd * 2 ^ 60 + 2 ^ 59 + lane * 2 ^ 46 + code * 2 ^ 38 + space * 2 ^ 36 + mode * 2 ^ 32 + 7)) }

def still' (st : WState) : Warp := { placedWarp with state := st, batch := none }

/-- A command that runs on a warp that is there, on one that is not, and none that runs. -/
theorem witness_DebuggerCommands_named :
    (∀ cmd ∈ [1, 2, 3, 4, 5, 6], Commanded (debugged cmd 0 0 0 0 .ready) 0 cmd ∧ named (debugged cmd 0 0 0 0 .ready) 0 = 0 ∧
      (debugged cmd 0 0 0 0 .ready).warps.look 0 = some (still' .ready) ∧ { debugged cmd 0 0 0 0 .ready with warps := [] }.warps.look 0 = none ∧
      ¬Commanded (ready 0x01) 0 cmd) ∧
    (∀ st ∈ [WState.ready, .stopped], ∀ v ∈ (debugged 1 0 0 0 0 st).warps, v.2.hold = none ∧ (debugged 1 0 0 0 0 st).halts.contains v.2.launch = false) := by
  refine ⟨?_, ?_⟩ <;> decide +kernel

/-- Each kind of register: the last v register and one past the block, k63, %iter, the predicates, and a lane that holds no fibre. -/
theorem witness_DebuggerCommands_registers :
    ∀ cmd ∈ [4, 5], ∀ p ∈ [(0, 127, 0, DbgReg.bad), (0, 63, 1, .v 0 63), (31, 0, 1, .v 31 0), (0, 191, 0, .k 63), (0, 209, 0, .sp 17), (0, 0, 2, .preds 0), (0, 0, 3, .bad)],
      let s := debugged cmd p.1 p.2.1 p.2.2.1 0 .halted
      Commanded s 0 cmd ∧ s.warps.look 0 = some (still' .halted) ∧ s.plants = [] ∧ s.loads = [] ∧
        s.dbgReg 0 (still' .halted) (s.dbg.get 0 0).toNat = p.2.2.2 ∧ (s.fibres.look (fibreKey 0 p.1)).isSome = decide (p.1 = 0) := by
  decide +kernel

/-- A warp resumed from its trap as it stands, past its instruction, and with a mode that is none. -/
theorem witness_DebuggerCommands_resumed :
    ∀ mode ∈ ([0, 1, 3] : List Nat),
      let s := debugged 6 0 0 0 mode .stopped
      let s := warp0 (fun w => { w with stop := { w.stop with lanes := [0], pc := 0x10008 } }) s
      Commanded s 0 6 ∧ (s.dbg.get 0 0).toNat / 2 ^ 32 % 4 = mode ∧ (s.warps.look 0).map Warp.state = some .stopped ∧
        (s.warps.look 0).map (fun w => (w.stop.lanes, w.stop.pc)) = some ([0], 0x10008) ∧ (s.fibres.look 0).map Fibre.pc = some 0x10008 := by
  decide +kernel

/-- A step under way, settled and not; a warp with nothing to run; a step in the midst of a clause, and at a header that is met or not. -/
theorem witness_DebuggerCommands_stepped :
    (∀ mark ∈ [1, 2],
      let s := warp0 (fun w => { w with hold := some ⟨200, [], mark, 0⟩ }) (unbound (debugged 3 0 0 0 0 .halted))
      Commanded s 0 3 ∧ s.stopsFor 0 = false ∧ (s.warps.look 0).map (fun w => (w.state, w.needs, w.hold)) = some (.halted, [], some ⟨200, [], mark, 0⟩) ∧
        s.stepSettled 0 mark = decide (mark = 2)) ∧
    (let s := { debugged 3 0 0 0 0 .halted with fibres := [] }
     Commanded s 0 3 ∧ s.warps.look 0 = some (still' .halted) ∧ s.runnable 0 true = []) ∧
    (let s := debugged 3 0 0 0 0 .halted
     Commanded s 0 3 ∧ (s.selectBatch 0 true).1 = [0] ∧ (s.fibres.look 0).map (fun f => (f.pc, f.hdr)) = some (0x10008, 0x10000) ∧ s.plants = []) ∧
    (∀ stores ∈ ([14, 15] : List Nat),
      let s := debugged 3 0 0 0 0 .halted
      let s := poke 0x10000 8 (placedHeader 0 - 2 ^ 45) (warp0 (fun w => { w with stores := stores }) (fibre0 (fun f => { f with pc := 0x10000, hdr := 0x10000 }) s))
      Commanded s 0 3 ∧ (s.selectBatch 0 true).1 = [0] ∧ s.fetch 0 0x10000 = .word (placedHeader 0 - 2 ^ 45) ∧ headerOk (placedHeader 0 - 2 ^ 45) = true ∧
        (s.warps.look 0).map (fun w => w.meets (placedHeader 0 - 2 ^ 45)) = some (decide (stores = 14)) ∧ s.breakHit 0 0x10000 = none ∧ s.plants = []) := by
  refine ⟨?_, ?_, ?_, ?_⟩ <;> decide +kernel

/-- A write of each kind at the head of the queue. -/
theorem witness_RegisterWritesLand :
    ∀ p ∈ [(⟨0, 0x010, 6143, 4, 0⟩, XReg.traprec, 0x010, XKind.trapClear, 0), (⟨0, 0x038, 1, 4, 0⟩, .acclog, 0x038, .logClear, 0),
        (⟨0, 0x110, 0, 32, win2⟩, .fmtwin 2, 0x110, .winEnable, 0), (⟨0, 0x110, 0, 32, win2 - 1⟩, .fmtwin 2, 0x110, .winDisable, win2),
        (⟨0, 0x030, 3, 16, 2 ^ 127 + 5 * 2 ^ 120 + 144 * 2 ^ 56⟩, .errinj, 0x030, .arm, 0), (⟨0, 0x030, 3, 16, 2 ^ 127⟩, .errinj, 0x030, .arm, 0),
        (⟨0, 0x006, 63, 8, 0x10001⟩, .ptroot, 0x006, .plain, 0), (⟨0, 0x05E, 191, 4, 5⟩, .brkpt 15, 0x05E, .plain, 0), (⟨0, 0x07C, 63, 16, 1⟩, .vfmem 7, 0x07C, .plain, 0),
        (⟨0, 0xFFC, 247, 16, 1⟩, .acctab 511, 0xFFC, .plain, 0), ((⟨0, 0x020, 191, 8, 6 * 2 ^ 60⟩ : RegWrite), .dbg, 0x020, .plain, 0), (⟨0, 0x020, 0, 8, 15 * 2 ^ 60⟩, .dbg, 0x020, .plain, 0)],
      let s := { ready 0x01 with regQueue := [p.1], fmtwin := if p.2.2.2.2 = 0 then [] else [(2, BitVec.ofNat 256 p.2.2.2.2)] }
      let old := s.xval p.2.1 p.1.sel
      let new := mergeWords old (32 * (p.1.word - p.2.2.1)) p.1.wide p.1.data
      s.regQueue = [p.1] ∧ xregOf p.1.word = some (p.2.1, p.2.2.1) ∧ p.2.1.selOk p.1.sel = true ∧ s.headKind = some p.2.2.2.1 ∧ s.plants = [] ∧
        (p.2.2.2.1 = .winEnable → old % 2 = 0 ∧ new % 2 = 1 ∧ s.fmtOk 2 (keepBits p.2.1.fields new) = true) ∧ (p.2.2.2.1 = .winDisable → old % 2 = 1 ∧ new % 2 = 0) ∧
        (p.2.2.2.1 = .arm → injectOk p.1.sel (keepBits p.2.1.fields new) = decide (p.1.data ≠ 2 ^ 127)) ∧ (p.2.1 = .dbg → old / 2 ^ 59 % 2 = 0) := by
  decide +kernel

/-- The package is up, port 0's link too. -/
def up (s : State) : State :=
  { s with powered := true, dies := (List.range 4).map (fun d => (d, { Die.off with stage := 7 })), ports := [(0, ⟨false, false, true, 0⟩), (18, ⟨false, false, true, 0⟩)] }

/-- A host's access at port 0 to memory from 0x10040. -/
def hostOp (kind addr size op compare : Nat) : HostAccess := ⟨9, 0, 0, kind, addr, size, 0xFF, 5, op, if op = 5 then .b32 else .n32, compare⟩

/-- A closed and an open port; reads and writes of the last words of each space; every kind of access to memory, and each way it is turned away. -/
theorem witness_HostPackets :
    (ready 0x01).accepts 0 = false ∧ (up (ready 0x01)).accepts 0 = true ∧
    (xregOf 0x020 = some (.dbg, 0x020) ∧ XReg.dbg.selOk 191 = true ∧ XReg.dbg.selOk 192 = false ∧ sysRegOf 0x020 = some (0x020, 2) ∧
      writeFits 8 0x020 0x020 2 = true ∧ writeFits 16 0x020 0x020 2 = false ∧ sysWordWritable 0x020 = true) ∧
    (∀ p ∈ [(hostOp 0 0x10000000000 4 0 0, 0), (hostOp 1 0x10040 4 0 0, 1), (hostOp 0 0x10040 8 0 0, 2), (hostOp 1 0x10040 8 0 0, 2), (hostOp 2 0x10040 4 0 0, 2),
        (hostOp 2 0x10040 4 5 1, 2)],
      let o := p.1
      let s := up (ready 0x01)
      let s := if p.2 = 1 then permit (egressTarget (portDie 0)) hostMaster { s with acctab := s.acctab.put (sliceTarget 0 0x10040 * 512 + 406) 0 } else present 0x100 s
      let here := (hostHeads o).all fun pa => (s.ownDie pa).isSome && populated pa
      s.accepts o.port = true ∧ hostOk o = true ∧ here = decide (p.2 ≠ 0) ∧
        (p.2 = 1 → s.hostRefused o (o.kind ≠ 1) (o.kind ≠ 0) = some (sliceTarget 0 0x10040, 0x10040)) ∧
        (p.2 = 2 → s.hostRefused o (o.kind ≠ 1) (o.kind ≠ 0) = none ∧ Quiet s ∧ Served s (hostRange o) ∧ s.hostBad o = false ∧
          (o.kind = 2 → atomFails o.op (s.homeNat o.addr o.size) o.compare = decide (o.compare = 1)))) ∧
    (∀ p ∈ [(8, true), (7, false), (7, true)],
      let s := { up (ready 0x01) with queues := [(queueKey 3 63 15, List.replicate p.1 (queued []))] }
      let s := if p.2 then s else { s with acctab := s.acctab.put ((3 * 64 + 52) * 512 + 406) 0 }
      (s.queueOf (queueKey 3 63 15)).length = p.1 ∧ s.tableAllows (egressTarget (portDie 0)) hostMaster 63 true false = true ∧
        s.tableAllows (3 * 64 + 52) hostMaster 63 false true = p.2 ∧ (List.replicate 256 0).length = 256) := by
  refine ⟨?_, ?_, ?_, ?_, ?_⟩ <;> decide +kernel

/-- An expert copy of two rows of 64 bytes to the descriptor at 0x10080, whose rows stand from 0x10000: capacity, rows claimed, phase, parts. -/
def expert (capacity claimed : Nat) (phase : EPhase) (parts : List Part) : State :=
  let s := operating 0x5A (xop .bf16 0 3 (.k 0) (.v 0) 1) (fun e => { e with phase, parts, window := 0, note := [1 + 2 * 1, 0x10080, 0x20080, 0, 0, 0] })
    (work 0x5A [(0, 2, 5), (2, 2, 2), (4, 4, 64), (8, 4, 64), (16, 4, 512)])
  let s := poke 0x10080 8 0x10000 (poke 0x10088 4 64 (poke 0x1008C 4 capacity (poke 0x10090 4 claimed s)))
  permit (sliceTarget 0 0x10000) 192 (permit (sliceTarget 0 0x10080) 192 (present 0x100 s))

theorem witness_ExpertCopies :
    (∀ p ∈ [(2, EPhase.claiming, []), (1, .claiming, []), (2, .granted 0, []), (2, .overflowed, []), (2, .sending, [⟨0, 0⟩, ⟨0, 0⟩]),
        (2, .sending, [⟨0, 1⟩, (⟨0, 1⟩ : Part)]), (2, .done, [])],
      let s := expert p.1 0 p.2.1 p.2.2
      (∀ q ∈ s.engines, s.engines.look 9 = some q.2 ∧ q.2.phase = p.2.1 ∧ q.2.parts = p.2.2 ∧ q.2.descriptor = 0x10080 ∧ fld q.2.block 2 2 = 2 ∧ fld q.2.block 4 4 = 64 ∧
        s.wgs.look q.2.wg = some placedWg ∧ q.2.opcode = 0x5A ∧ Sys2Proof.Num.bit q.2.flags 0 = true ∧ engineMaster q.2.cluster = 192 ∧ q.2.vf = 0) ∧
      s.homeNat 0x10080 8 = 0x10000 ∧ s.homeNat (0x10080 + 8) 4 = 64 ∧ s.homeNat (0x10080 + 12) 4 = p.1) ∧
    (let s := expert 2 0 .sending [⟨0, 0⟩]
     (s.ownDie 0x10080).isSome = true ∧ s.memAllows 192 0 0x10080 true true = true ∧ Quiet s ∧ WholeLine s (lineOf 0x10080) ∧ s.hasPartials (lineOf 0x10080) = false ∧
      Ready s (0x10080 + 16) 4 ∧ Ready s (0x10080 + 20) 4 ∧ Ready s 0x10000 64 ∧ ∀ i < 64, s.memAllows 192 0 (0x10000 + i) false true = true) := by
  refine ⟨?_, ?_⟩ <;> decide +kernel

/-- Packets of the first and last codes that are dropped, links up and down, an update that is newer and one that is not, a drain round that is due. -/
theorem witness_LinksAndErrors :
    (∀ p ∈ [(0, 13), (0, 255), (18, 256)], (up (ready 0x01)).accepts p.1 = true ∧ ((13 ≤ p.2 ∧ p.2 ≤ 255) ∨ (p.2 = 256 ∧ 18 ≤ p.1))) ∧
    ((up (ready 0x01)).accepts 0 = true ∧ ¬((13 ≤ 256 ∧ 256 ≤ 255) ∨ (256 = 256 ∧ 18 ≤ 0))) ∧
    (up (ready 0x01)).ports.look 0 = some ⟨false, false, true, 0⟩ ∧ (up (ready 0x01)).live = true ∧ (up (ready 0x01)).errinj = [] ∧
    { ready 0x01 with ports := [(0, Port.down)] }.ports.look 0 = some Port.down ∧ (up (ready 0x01)).linkSeen.get 0 (4095 * 64 + 63) < 2 ^ 32 - 1 ∧
    (∀ p ∈ [(4, 4095), (4, 4096), (1, 4096)],
      let s := { ready 0x01 with drain := some (p.1, 0), fabricClock := p.2, packets := [(3, ⟨4, 1, 0, 0, false⟩)] }
      s.drain = some (p.1, 0) ∧ s.fabricClock = p.2 ∧ s.packets.look 3 = some ⟨4, 1, 0, 0, false⟩) ∧
    (ready 0x01).drain = none ∧ (up (ready 0x01)).powered = true ∧
    (∀ p ∈ [(4, vKey 0 5), (5, scrKey 0 64), (6, 64), (7, 64)], (ready 0x01).wordPresent p.1 p.2 = true) ∧
    (present 0x100 (ready 0x01)).wordPresent 1 0x10008 = true ∧ (ready 0x01).wordPresent 1 0x20000 = false := by
  decide +kernel

/-- The package before power, at each stage, live, with its attestation page in L2, and hot. -/
theorem witness_PowerAndBoot :
    State.reset.powered = false ∧ (up (ready 0x01)).powered = true ∧ (up (ready 0x01)).failed = false ∧
    (∀ stage ∈ [1, 2, 3, 4, 5, 6], ∀ die < 4,
      let s := { State.reset with powered := true, dies := (List.range 4).map (fun d => (d, { Die.off with stage := stage })) }
      s.mayBoot die stage = true ∧ s.mayBoot 4 stage = false ∧ s.l2 = [] ∧ s.l2Bytes = [] ∧ s.plants = []) ∧
    (let s := poke 4 4 1 { up (ready 0x01) with l2 := (List.range 16).map fun i => (i, ⟨3, 3, true, true, 0, 0, false, 0, 0, none, [], false⟩) }
     s.live = true ∧ s.homeNat (s.attestPage + 4) 4 = 1 ∧ s.plants = [] ∧ ∀ i < 16, (s.l2Line (s.attestPage / 256 + i)).resident = true) ∧
    ((up (ready 0x01)).homeNat 4 4 ≠ 1 ∧ 1024 * ((up (ready 0x01)).die 3).sampled ≤ ((up (ready 0x01)).cluster 144).cyc.toNat) := by
  decide +kernel

/-! ### Witnesses: the step, the encoding, the invariant -/

/-- What the placed warp meets when it stands at a word that decodes or does not. -/
abbrev standsAtWord (x : DWord) (decodes : Bool) : Prop :=
  let s := State.reset.place x.toNat
  let w := placedWarp
  s.turn = .issue 0 ∧ s.warps.look 0 = some w ∧ w.mayIssue s.stepping.isSome = true ∧ s.stopsFor 0 = false ∧ s.plants = [] ∧
    (s.position 0 (s.lowest 0)).1.toNat = 0x10008 ∧ s.breakHit 0 0x10008 = none ∧ w.fatalOf [0x10] = none ∧
    (s.tlbLook (fibreTlb 0) w.vf 0x10).map (fun leaf => (leaf.phys 0x10008, s.memAllows 0 w.vf (leaf.phys 0x10008) true false)) = some (0x10008, true) ∧
    s.fetch 0 0x10008 = .word x.toNat ∧ (decodeWord x).isSome = decodes ∧ { s with actor := 0, word := x }.early 0 (opcodeOf x.toNat) = none

/-- A warp at an IADD, at a reserved opcode, and at an IADD with a reserved field set. -/
theorem witness_StepRunsDecoded :
    State.reset.turn = .choose ∧ standsAtWord 0x03C4102800300000 true ∧ standsAtWord 0 true ∧ standsAtWord 0x03C4102800300008 false := by
  refine ⟨rfl, ?_, ?_, ?_⟩ <;> decide +kernel

/-- A word overwritten while the launch runs is fetched as it stands or as it stood; a FENCE that waits at its port is not fetched again. -/
theorem witness_StepRunsDecoded_old :
    (let s := { State.reset.place 5 with oldWords := [(0x10008 / 8, [(0, 7), (3, 9)])] }
     s.wordsAt 0 0x10008 = [5, 7] ∧ s.wordsAt 3 0x10008 = [5, 9] ∧ s.wordsAt 1 0x10008 = [5] ∧ (0, 7) ∈ s.oldWords.get [] (0x10008 / 8)) ∧
    (let s := { State.reset.place 0 with warps := [(0, { placedWarp with hold := some ⟨1, [], 0, 0x91C0000000480000⟩ })] }
     (s.warps.look 0).bind Warp.hold = some ⟨1, [], 0, 0x91C0000000480000⟩ ∧ decodeWord 0x91C0000000480000 = some (.fence ⟨7, 1, 1⟩)) := by
  decide +kernel

/-- A state that meets the invariant and takes a step: the machine after reset. -/
theorem witness_StepKeepsInvariant :
    (∃ t, step { State.reset with turn := .issue 0 } = .next t) ∧ Memory.wf { State.reset with turn := .issue 0 }.hbm = true ∧
      ∀ d, 8 ≤ ({ State.reset with turn := .issue 0 }.die d).clock ∧ ({ State.reset with turn := .issue 0 }.die d).clock ≤ 15 ∧
        ({ State.reset with turn := .issue 0 }.die d).stage ≤ 7 :=
  ⟨⟨_, rfl⟩, rfl, fun _ => ⟨by show 8 ≤ 15; decide, by show 15 ≤ 15; decide, by show 0 ≤ 7; decide⟩⟩

/-- One well-formed instruction of each format, with the word that encodes it. -/
theorem witness_DecodeInvertsEncode : ∀ i ∈ [Instr.iadd (two' .s32), .movi ⟨7, .s32, .v 4, 5⟩, .bra ⟨7, -1⟩, .ld (mop .s8 (.v 4) (.v 12) 3 5 1), .accz (xop .bf16 0 3 (.v 0) (.k 5) 0)],
    i.wellFormed = true ∧ decodeWord (encode i) = some i := by
  decide +kernel

end Sys2Proof.Tests
end

section
/-! SUPPORT. A fact about every value of a sparse table. -/

namespace Sys2Proof

theorem Tab.get_of_forall {β : Type} {P : β → Prop} {t : Tab β} {d : β} (hd : P d) (ht : ∀ p ∈ t, P p.2) (k : Nat) : P (t.get d k) := by
  unfold Tab.get
  induction t with
  | nil => exact hd
  | cons p t ih =>
    rw [Tab.look_cons]
    split
    · exact ht p List.mem_cons_self
    · exact ih fun q hq => ht q (List.mem_cons_of_mem _ hq)

end Sys2Proof
end

section
/-! SUPPORT. The invariant of O60 on a state, and what it means on each kind of outcome that the model's functions return. -/

namespace Sys2Proof.Machine

/-- R374, R379: a die's arithmetic clock runs between 0.8 and 1.5 GHz and its boot stage is at most 7. -/
def Die.Legal (x : Die) : Prop := 8 ≤ x.clock ∧ x.clock ≤ 15 ∧ x.stage ≤ 7

theorem Die.legal_off : Die.off.Legal := by unfold Die.Legal; decide

/-- A die as the rails leave it when they come up. -/
theorem Die.legal_bootRom : Die.Legal { Die.off with stage := 1 } := by unfold Die.Legal; decide

/-- The invariant: memory stands in its canonical form and every die is legal. -/
def Sound (s : State) : Prop := Memory.wf s.hbm = true ∧ ∀ d, Die.Legal (s.dies.get Die.off d)

/-- A step keeps the invariant: its next state, where there is one, is sound. -/
def Keeps : Result → Prop
  | .next t => Sound t
  | _ => True

/-- A stop that has the next state already made has a sound one; the others make theirs in `State.halt`. -/
def StopSound : Stop → Prop
  | .done t => Sound t
  | _ => True

def StopsSound : Option Stop → Prop
  | some st => StopSound st
  | none => True

/-- Every check of a list of checks stops with a sound state. It unfolds to a conjunction, so that `⟨…, trivial⟩` proves it check by check. -/
abbrev ChecksSound : List (Unit → Option Stop) → Prop
  | [] => True
  | c :: cs => StopsSound (c ()) ∧ ChecksSound cs

def EngSound {α : Type} : Eng α → Prop
  | .wait t => Sound t
  | .ok _ t => Sound t

def OptSound : Option State → Prop
  | some t => Sound t
  | none => True

def PairSound {α : Type} : Option (α × State) → Prop
  | some p => Sound p.2
  | none => True

def SumSound {α : Type} : State ⊕ (α × State) → Prop
  | .inl t => Sound t
  | .inr p => Sound p.2

def FrontSound : Front → Prop
  | .stop t => Sound t
  | .run _ t => Sound t

def StartSound : Start → Prop
  | .bad t => Sound t
  | _ => True

variable {s t : State} {α β : Type}

/-! ### States: branches, folds, and fields that the invariant does not read -/

/-- A state that differs from a sound one outside memory and the dies. -/
theorem Sound.of_eq (h : Sound s) (hm : t.hbm = s.hbm) (hd : t.dies = s.dies) : Sound t := by
  rw [Sound, hm, hd]
  exact h

theorem Sound.ite {c : Prop} [Decidable c] (hs : Sound s) (ht : Sound t) : Sound (if c then s else t) := by
  split <;> assumption

theorem Sound.ite_snd {c : Prop} [Decidable c] {p q : α × State} (hp : Sound p.2) (hq : Sound q.2) : Sound (if c then p else q).2 := by
  split <;> assumption

theorem Sound.foldl {l : List α} {f : State → α → State} (hf : ∀ t x, Sound t → Sound (f t x)) (h : Sound s) : Sound (l.foldl f s) := by
  induction l generalizing s with
  | nil => exact h
  | cons x l ih => exact ih (hf _ _ h)

theorem Sound.foldl_snd {l : List α} {f : β × State → α → β × State} {p : β × State} (hf : ∀ q x, Sound q.2 → Sound (f q x).2)
    (h : Sound p.2) : Sound (l.foldl f p).2 := by
  induction l generalizing p with
  | nil => exact h
  | cons x l ih => exact ih (hf _ _ h)

theorem Sound.of_mk {p : α × State} {a : α} (e : p = (a, t)) (h : Sound p.2) : Sound t := by
  subst e
  exact h

/-! ### Results -/

theorem Keeps.next (h : Sound t) : Keeps (.next t) := h

theorem Keeps.ite {c : Prop} [Decidable c] {p q : Result} (hp : Keeps p) (hq : Keeps q) : Keeps (if c then p else q) := by
  split <;> assumption

theorem Sound.of_next {r : Result} (e : r = .next t) (h : Keeps r) : Sound t := by
  subst e
  exact h

/-! ### Stops and checks -/

theorem StopSound.done (h : Sound t) : StopSound (.done t) := h

theorem StopSound.ite {c : Prop} [Decidable c] {p q : Stop} (hp : StopSound p) (hq : StopSound q) : StopSound (if c then p else q) := by
  split <;> assumption

theorem StopSound.of_some {x : Option Stop} {st : Stop} (e : x = some st) (h : StopsSound x) : StopSound st := by
  subst e
  exact h

theorem StopsSound.none : StopsSound none := trivial

theorem StopsSound.some {st : Stop} (h : StopSound st) : StopsSound (some st) := h

theorem StopsSound.trap {r : Trap} : StopsSound (Option.some (.trap r)) := trivial

theorem StopsSound.ite {c : Prop} [Decidable c] {p q : Option Stop} (hp : StopsSound p) (hq : StopsSound q) :
    StopsSound (if c then p else q) := by
  split <;> assumption

theorem StopsSound.map {o : Option α} {f : α → Stop} (hf : ∀ x, StopSound (f x)) : StopsSound (o.map f) := by
  cases o with
  | none => trivial
  | some x => exact hf x

theorem StopsSound.bind {o : Option α} {f : α → Option Stop} (hf : ∀ x, StopsSound (f x)) : StopsSound (o.bind f) := by
  cases o with
  | none => trivial
  | some x => exact hf x

theorem StopsSound.findSome {l : List α} {f : α → Option Stop} (hf : ∀ x, StopsSound (f x)) : StopsSound (l.findSome? f) := by
  induction l with
  | nil => trivial
  | cons x l ih =>
    rw [List.findSome?_cons]
    split
    next e => exact .some (.of_some e (hf x))
    · exact ih

theorem ChecksSound.append {cs ds : List (Unit → Option Stop)} (hc : ChecksSound cs) (hd : ChecksSound ds) : ChecksSound (cs ++ ds) := by
  induction cs with
  | nil => exact hd
  | cons c cs ih =>
    obtain ⟨hfirst, hrest⟩ := hc
    exact ⟨hfirst, ih hrest⟩

theorem ChecksSound.map {l : List α} {f : α → Unit → Option Stop} (hf : ∀ x, StopsSound (f x ())) : ChecksSound (l.map f) := by
  induction l with
  | nil => trivial
  | cons x l ih => exact ⟨hf x, ih⟩

theorem StopsSound.firstStop {cs : List (Unit → Option Stop)} (h : ChecksSound cs) : StopsSound (firstStop cs) := by
  induction cs with
  | nil => trivial
  | cons c cs ih =>
    obtain ⟨hfirst, hrest⟩ := h
    unfold Machine.firstStop
    split
    next e => exact .some (.of_some e hfirst)
    · exact ih hrest

/-! ### Reads of the engines -/

theorem EngSound.wait (h : Sound t) : EngSound (.wait t : Eng α) := h

theorem EngSound.ok {x : α} (h : Sound t) : EngSound (.ok x t) := h

theorem EngSound.ite {c : Prop} [Decidable c] {p q : Eng α} (hp : EngSound p) (hq : EngSound q) : EngSound (if c then p else q) := by
  split <;> assumption

theorem Sound.of_wait {x : Eng α} (e : x = .wait t) (h : EngSound x) : Sound t := by
  subst e
  exact h

theorem Sound.of_ok {x : Eng α} {a : α} (e : x = .ok a t) (h : EngSound x) : Sound t := by
  subst e
  exact h

/-! ### States that an act may not have -/

theorem OptSound.some (h : Sound t) : OptSound (some t) := h

theorem OptSound.ite {c : Prop} [Decidable c] {p q : Option State} (hp : OptSound p) (hq : OptSound q) : OptSound (if c then p else q) := by
  split <;> assumption

theorem OptSound.map {o : Option α} {f : α → State} (hf : ∀ x, Sound (f x)) : OptSound (o.map f) := by
  cases o with
  | none => trivial
  | some x => exact hf x

theorem OptSound.bind {o : Option α} {f : α → Option State} (hf : ∀ x, OptSound (f x)) : OptSound (o.bind f) := by
  cases o with
  | none => trivial
  | some x => exact hf x

theorem OptSound.andThen {o : Option State} {f : State → Option State} (ho : OptSound o) (hf : ∀ t, Sound t → OptSound (f t)) :
    OptSound (o.bind f) := by
  cases o with
  | none => trivial
  | some t => exact hf t ho

theorem OptSound.foldl {l : List α} {f : Option State → α → Option State} {o : Option State} (hf : ∀ o x, OptSound o → OptSound (f o x))
    (ho : OptSound o) : OptSound (l.foldl f o) := by
  induction l generalizing o with
  | nil => exact ho
  | cons x l ih => exact ih (hf _ _ ho)

theorem Sound.of_some {x : Option State} (e : x = some t) (h : OptSound x) : Sound t := by
  subst e
  exact h

theorem Sound.getD {x : Option State} (h : OptSound x) (ht : Sound t) : Sound (x.getD t) := by
  cases x with
  | none => exact ht
  | some _ => exact h

theorem PairSound.ite {c : Prop} [Decidable c] {p q : Option (α × State)} (hp : PairSound p) (hq : PairSound q) :
    PairSound (if c then p else q) := by
  split <;> assumption

theorem PairSound.map {o : Option State} {f : State → α × State} (ho : OptSound o) (hf : ∀ t, Sound t → Sound (f t).2) :
    PairSound (o.map f) := by
  cases o with
  | none => trivial
  | some t => exact hf t ho

theorem PairSound.bind {o : Option β} {f : β → Option (α × State)} (hf : ∀ x, PairSound (f x)) : PairSound (o.bind f) := by
  cases o with
  | none => trivial
  | some x => exact hf x

theorem Sound.of_pair {x : Option (α × State)} {a : α} (e : x = some (a, t)) (h : PairSound x) : Sound t := by
  subst e
  exact h

/-! ### What comes before an instruction: an end, or a value and the state to go on from -/

theorem SumSound.inl (h : Sound t) : SumSound (.inl t : State ⊕ (α × State)) := h

theorem SumSound.inr {p : α × State} (h : Sound p.2) : SumSound (.inr p) := h

theorem SumSound.ite {c : Prop} [Decidable c] {p q : State ⊕ (α × State)} (hp : SumSound p) (hq : SumSound q) :
    SumSound (if c then p else q) := by
  split <;> assumption

theorem Sound.of_inl {x : State ⊕ (α × State)} (e : x = .inl t) (h : SumSound x) : Sound t := by
  subst e
  exact h

theorem Sound.of_inr {x : State ⊕ (α × State)} {a : α} (e : x = .inr (a, t)) (h : SumSound x) : Sound t := by
  subst e
  exact h

/-- The shape of most instructions: an end before the effect, or the effect for the lanes that act, from the state that the checks leave. -/
theorem Keeps.of_begin {x : State ⊕ (List Nat × State)} {f : List Nat → State → State} (hf : ∀ a t, Sound t → Sound (f a t)) : SumSound x →
    Keeps (.next (match x with
      | .inl t => t
      | .inr (a, t) => f a t)) := by
  intro hx
  split
  · exact hx
  · exact hf _ _ hx

/-- The same shape for the instructions that one lane issues to an engine. -/
theorem Keeps.of_elect {x : State ⊕ (Nat × State)} {f : Nat → State → State} (hf : ∀ a t, Sound t → Sound (f a t)) : SumSound x →
    Keeps (.next (match x with
      | .inl t => t
      | .inr (a, t) => f a t)) := by
  intro hx
  split
  · exact hx
  · exact hf _ _ hx

theorem FrontSound.stop (h : Sound t) : FrontSound (.stop t) := h

theorem FrontSound.run {i : Instr} (h : Sound t) : FrontSound (.run i t) := h

theorem FrontSound.ite {c : Prop} [Decidable c] {p q : Front} (hp : FrontSound p) (hq : FrontSound q) : FrontSound (if c then p else q) := by
  split <;> assumption

theorem Sound.of_stop {x : Front} (e : x = .stop t) (h : FrontSound x) : Sound t := by
  subst e
  exact h

theorem Sound.of_run {x : Front} {i : Instr} (e : x = .run i t) (h : FrontSound x) : Sound t := by
  subst e
  exact h

theorem StartSound.bad (h : Sound t) : StartSound (.bad t) := h

theorem StartSound.ite {c : Prop} [Decidable c] {p q : Start} (hp : StartSound p) (hq : StartSound q) : StartSound (if c then p else q) := by
  split <;> assumption

theorem Sound.of_bad {x : Start} (e : x = .bad t) (h : StartSound x) : Sound t := by
  subst e
  exact h

end Sys2Proof.Machine
end

section
/-! SUPPORT. The functions of Sys2Proof/Machine/Ops.lean keep the invariant. -/

namespace Sys2Proof.Machine

variable {s t : State} {α β : Type}

/-! ### Access to the records -/

theorem Sound.modCluster {c f} (h : Sound s) : Sound (s.modCluster c f) := h

/-- The one setter that reaches the dies: what it makes of a legal die has to be legal. -/
theorem Sound.modDie {d f} (hf : ∀ x : Die, x.Legal → (f x).Legal) (h : Sound s) : Sound (s.modDie d f) := by
  refine ⟨h.1, fun e => ?_⟩
  rw [State.modDie, Tab.get_set]
  split
  · exact hf _ (h.2 d)
  · exact h.2 e

theorem Sound.modWarp {sel f} (h : Sound s) : Sound (s.modWarp sel f) := h

theorem Sound.modFibre {fib f} (h : Sound s) : Sound (s.modFibre fib f) := h

theorem Sound.modWg {g f} (h : Sound s) : Sound (s.modWg g f) := h

theorem Sound.setV {key c} (h : Sound s) : Sound (s.setV key c) := h

theorem Sound.setK {key c} (h : Sound s) : Sound (s.setK key c) := h

theorem Sound.setTrap {sel r} (h : Sound s) : Sound (s.setTrap sel r) := h

theorem Sound.setBarrier {wg b x} (h : Sound s) : Sound (s.setBarrier wg b x) := h

theorem Sound.emit {o} (h : Sound s) : Sound (s.emit o) := h

theorem Sound.fresh (h : Sound s) : Sound s.fresh.2 := h

theorem Sound.freeValue (h : Sound s) : Sound s.freeValue.2 := h

/-! ### Timestamps (R80) -/

theorem Sound.raisePts {c t} (h : Sound s) : Sound (s.raisePts c t) := by
  unfold State.raisePts
  exact .modCluster h

/-! ### Runnable fibres and the selection of a batch (R13, R17) -/

theorem Sound.selectBatch {sel stepped} (h : Sound s) : Sound (s.selectBatch sel stepped).2 := by
  unfold State.selectBatch
  dsimp only
  split
  · exact h
  · exact .foldl (fun _ _ => .modFibre) h

/-! ### Clauses (R123, R126, R18, R125) -/

theorem Sound.freePort {sel} (h : Sound s) : Sound (s.freePort sel) := by
  unfold State.freePort
  exact .modCluster h

theorem Sound.endClause {sel back} (h : Sound s) : Sound (s.endClause sel back) := by
  unfold State.endClause
  exact .foldl (fun _ _ => .modFibre) (.modWarp (.freePort h))

theorem Sound.advance {sel lanes} (h : Sound s) : Sound (s.advance sel lanes) := by
  unfold State.advance
  exact .ite (.endClause (.foldl (fun _ _ => .modFibre) h)) (.modWarp (.foldl (fun _ _ => .modFibre) h))

theorem Sound.advanceEnd {sel lanes} (h : Sound s) : Sound (s.advanceEnd sel lanes) := by
  unfold State.advanceEnd
  exact .endClause (.foldl (fun _ _ => .modFibre) h)

theorem Sound.blockLanes {sel bs} (h : Sound s) : Sound (s.blockLanes sel bs) := by
  unfold State.blockLanes
  exact .endClause (.foldl (fun _ _ => .modFibre) h)

/-! ### Long-latency producers and their cancellation (R42, R45, R124) -/

theorem Sound.settleLoad {id} (h : Sound s) : Sound (s.settleLoad id) := by
  unfold State.settleLoad
  split
  · exact h
  · exact .ite (.modWarp h) h

theorem Sound.cancelAccs {id f} (h : Sound s) : Sound (s.cancelAccs id f) := by
  unfold State.cancelAccs
  exact .settleLoad h

theorem Sound.cancelLoads {sel f} (h : Sound s) : Sound (s.cancelLoads sel f) := by
  unfold State.cancelLoads
  exact .foldl (fun _ _ => .cancelAccs) h

theorem Sound.unparkIfFree {sel} (h : Sound s) : Sound (s.unparkIfFree sel) := by
  unfold State.unparkIfFree
  exact .modWarp h

/-! ### Ends of fibres, warps and workgroups (R16, R41, R306) -/

theorem Sound.grantBlocks {c fuel} (h : Sound s) : Sound (s.grantBlocks c fuel) := by
  induction fuel generalizing s with
  | zero => exact h
  | succ fuel ih =>
    unfold State.grantBlocks
    dsimp only
    split
    · exact h
    · refine ih (.foldl (fun _ _ => .modFibre) (.ite ?_ (.modWarp ?_))) <;>
        exact .ite (.modWg (.modCluster h)) (.modCluster h)

theorem Sound.dropExt {sel} (h : Sound s) : Sound (s.dropExt sel) := by
  unfold State.dropExt
  split
  · exact h
  · exact .ite h (.grantBlocks (.ite (.modWg h) (.modCluster h)))

theorem Sound.endWarpIfEmpty {sel} (h : Sound s) : Sound (s.endWarpIfEmpty sel) := by
  unfold State.endWarpIfEmpty
  exact .ite (.modWarp (.freePort (.dropExt (.cancelLoads h)))) h

theorem Sound.endFibre {sel lane} (h : Sound s) : Sound (s.endFibre sel lane) := by
  unfold State.endFibre
  extract_lets fib s₁ s₂
  have h₁ : Sound s₁ := .cancelLoads h
  have h₂ : Sound s₂ := by
    unfold s₂
    split
    · exact .ite h₁ (.modWg h₁)
    · exact h₁
  exact h₂

theorem Sound.withdraw {sel lane} (h : Sound s) : Sound (s.withdraw sel lane) := by
  unfold State.withdraw
  exact .modCluster h

theorem Sound.endCopy {g cause origin lane failed} (h : Sound s) : Sound (s.endCopy g cause origin lane failed) := by
  unfold State.endCopy
  exact .modWg (.of_eq (.foldl (fun _ _ h₁ => .endWarpIfEmpty (.foldl (fun _ _ h₂ => .endFibre (.withdraw h₂)) h₁)) h) rfl rfl)

theorem Sound.endWg {g cause origin lane failed} (h : Sound s) : Sound (s.endWg g cause origin lane failed) := by
  unfold State.endWg
  split
  · exact .endCopy h
  · exact .endCopy (.endCopy h)

/-! ### Named barriers (R201, R204) -/

theorem Sound.takeTrap {sel t} (h : Sound s) : Sound (s.takeTrap sel t) := by
  unfold State.takeTrap
  split
  · exact h
  · exact .ite (.endWg (.emit (.modWarp (.setTrap (.endClause h))))) (.emit (.modWarp (.setTrap (.endClause h))))

theorem Sound.barrierReturn {sel lane b poisoned} (h : Sound s) : Sound (s.barrierReturn sel lane b poisoned) := by
  unfold State.barrierReturn
  exact .ite (.modFibre h) (.modFibre h)

theorem Sound.returnWaits {sel} (h : Sound s) : Sound (s.returnWaits sel) := by
  unfold State.returnWaits
  split
  · exact h
  · refine .foldl (fun _ _ h₁ => ?_) h
    split
    · exact .ite (.barrierReturn h₁) h₁
    · exact h₁

theorem Sound.arrive {wg b faulted} (h : Sound s) : Sound (s.arrive wg b faulted) := by
  unfold State.arrive
  exact .ite (.setBarrier h) (.foldl (fun _ _ => .returnWaits) (.setBarrier h))

/-! ### Return from a trap (R306, R340, R342) -/

theorem Sound.setSkip {sel on} (h : Sound s) : Sound (s.setSkip sel on) := by
  unfold State.setSkip
  exact .setTrap h

theorem Sound.resumeStopped {sel mode} (h : Sound s) : Sound (s.resumeStopped sel mode) := by
  unfold State.resumeStopped
  split
  · exact h
  · dsimp only
    split
    · exact .modWarp (.setSkip (.setTrap h))
    · exact .modWarp (.foldl (fun _ _ => .modFibre) (.setTrap h))
    · exact .endWg (.setTrap h)

/-! ### Detected errors (R218) -/

theorem Sound.detect {region fib cause} (h : Sound s) : Sound (s.detect region fib cause) := by
  unfold State.detect
  split
  · exact h
  · exact .foldl (fun _ _ h₁ => .modFibre (.withdraw h₁)) (.ite (.endClause h) h)

end Sys2Proof.Machine
end

section
/-! SUPPORT. The functions of Sys2Proof/Machine/Mem.lean keep the invariant. -/

namespace Sys2Proof.Machine

variable {s t : State} {α β : Type}

/-! ### Access tables (R296, R298 to R303) -/

theorem Sound.logRefusal {target master vf pa rd wr} (h : Sound s) : Sound (s.logRefusal target master vf pa rd wr) := h

theorem Sound.logMem {master vf pa rd wr} (h : Sound s) : Sound (s.logMem master vf pa rd wr) := by
  unfold State.logMem
  split <;> exact .logRefusal h

/-! ### Errors (R345, R356) -/

theorem Sound.disarm {die} (h : Sound s) : Sound (s.disarm die) := h

theorem Sound.findPlants {unit at'} (h : Sound s) : Sound (s.findPlants unit at') := by
  unfold State.findPlants
  exact .ite h (.foldl (fun _ _ h₁ => .ite (.disarm h₁) h₁) h)

theorem Sound.spoil {p} (h : Sound s) : Sound (s.spoil p) := by
  unfold State.spoil
  refine .ite h ?_
  split <;> exact h

theorem Sound.noteFired {p} (h : Sound s) : Sound (s.noteFired p) := by
  unfold State.noteFired
  exact .ite h h

theorem Sound.firePlants {unit at' whole} (h : Sound s) : Sound (s.firePlants unit at' whole) := by
  unfold State.firePlants
  exact .ite h (.foldl (fun _ _ h₁ => .noteFired (.spoil h₁)) h)

/-! ### Bytes at the home -/

theorem Sound.modL2 {line f} (h : Sound s) : Sound (s.modL2 line f) := h

theorem Sound.cleanWords {bs} (h : Sound s) : Sound (s.cleanWords bs) := by
  unfold State.cleanWords
  exact .ite h h

theorem Sound.memFresh {pa va n cov} (h : Sound s) : Sound (s.memFresh pa va n cov) := by
  unfold State.memFresh
  exact .ite h h

theorem Sound.markBad {pa} (h : Sound s) : Sound (s.markBad pa) := h

theorem Sound.noteOld {bs} (h : Sound s) : Sound (s.noteOld bs) := by
  unfold State.noteOld
  exact .ite h h

theorem Sound.dropOld {launch} (h : Sound s) : Sound (s.dropOld launch) := h

theorem Sound.putL2 {bs} (h : Sound s) : Sound (s.putL2 bs) := by
  unfold State.putL2
  exact .firePlants (.of_eq (.cleanWords (.noteOld h)) rfl rfl)

theorem Sound.noteTs {pa t} (h : Sound s) : Sound (s.noteTs pa t) := by
  unfold State.noteTs
  split
  · exact h
  · exact .modDie (fun _ h => h) h

/-- The form in which the model writes bytes to memory: the table of bytes stays canonical (`Memory.wf_store`). -/
theorem Sound.store {bs : List (Nat × Byte)} (h : Sound s) :
    Sound { s with hbm := bs.foldl (fun (t : Tab Byte) (p : Nat × Byte) => t.set hbmFresh p.1 p.2) s.hbm } := ⟨Memory.wf_store h.1 bs, h.2⟩

theorem Sound.shareTs {pa cluster} (h : Sound s) : Sound (s.shareTs pa cluster) := by
  unfold State.shareTs
  split
  · exact h
  · exact .modDie (fun _ h => h) h

theorem Sound.allocWay {line} (h : Sound s) : Sound (s.allocWay line).2 := by
  unfold State.allocWay
  dsimp only
  split <;> exact h

theorem Sound.dropL2 {line writeBack} (h : Sound s) : Sound (s.dropL2 line writeBack) :=
  .modL2 (.ite (.firePlants (.store h)) h)

theorem Sound.enterL2 {line streaming} (h : Sound s) : Sound (s.enterL2 line streaming) := by
  unfold State.enterL2
  refine .ite h (.modL2 ?_)
  split
  · exact .dropL2 (.allocWay h)
  · exact .allocWay h

theorem Sound.sweepLine {line} (h : Sound s) : Sound (s.sweepLine line) := by
  unfold State.sweepLine
  split
  · exact h
  · exact .modL2 h

theorem Sound.writeHome {bs sent vf context} (h : Sound s) : Sound (s.writeHome bs sent vf context).2 := by
  unfold State.writeHome
  split
  · exact h
  · exact .noteTs (.modL2 (.putL2 (.enterL2 (.sweepLine h))))

theorem Sound.renewHome {pa pts lease streaming} (h : Sound s) : Sound (s.renewHome pa pts lease streaming).2 := by
  unfold State.renewHome
  exact .noteTs (.modL2 (.enterL2 (.sweepLine h)))

/-! ### L1 (R76, R82) -/

theorem Sound.dropClean {c line} (h : Sound s) : Sound (s.dropClean c line) := h

theorem Sound.noteReader {c line idx} (h : Sound s) : Sound (s.noteReader c line idx) := h

theorem Sound.l1Store {c bs idx vf lease kind} (h : Sound s) : Sound (s.l1Store c bs idx vf lease kind) := by
  unfold State.l1Store
  refine .foldl (fun t b ht => ?_) (.firePlants h)
  extract_lets k t₁
  have h₁ : Sound t₁ := by unfold t₁; split <;> exact ht
  exact h₁

theorem Sound.l1Take {c line bs} (h : Sound s) : Sound (s.l1Take c line bs) := by
  unfold State.l1Take
  exact .ite h (.ite h h)

/-! ### Requests to a home -/

theorem Sound.send {f} (h : Sound s) : Sound (s.send f).2 := by
  unfold State.send
  exact .ite (.of_eq (.fresh h) rfl rfl) (.of_eq (.of_eq (.fresh h) rfl rfl) rfl rfl)

theorem Sound.sendLine {sel wg c line bs} (h : Sound s) : Sound (s.sendLine sel wg c line bs).2 := by
  unfold State.sendLine
  exact .send (.l1Take h)

theorem Sound.sendRelease {sel wg} (h : Sound s) : Sound (s.sendRelease sel wg).2 := by
  unfold State.sendRelease
  split
  · exact h
  · exact .foldl_snd (fun _ _ => .sendLine) h

/-! ### Shadows (R85, R86, R179, R262) -/

theorem Sound.findShadow {chain pa n} (h : Sound s) : Sound (s.findShadow chain pa n) := by
  unfold State.findShadow
  exact .ite h (.findPlants h)

theorem Sound.findVersion {v} (h : Sound s) : Sound (s.findVersion v) := by
  unfold State.findVersion
  exact .ite h (.findPlants h)

theorem Sound.shadowStore {v bs} (h : Sound s) : Sound (s.shadowStore v bs) := by
  unfold State.shadowStore
  exact .firePlants h

/-! ### Retired pages and quarantine (R307, R348, R349) -/

theorem Sound.dropPage {page} (h : Sound s) : Sound (s.dropPage page) := by
  unfold State.dropPage
  exact .of_eq (.foldl (fun _ _ => .dropL2) h) rfl rfl

theorem Sound.retirePage {pa} (h : Sound s) : Sound (s.retirePage pa).2 := by
  unfold State.retirePage
  exact .ite_snd h (.ite_snd h (.ite_snd h (.of_eq (.dropPage h) rfl rfl)))

theorem Sound.quarantineWay {die slice set way} (h : Sound s) : Sound (s.quarantineWay die slice set way).2 := by
  unfold State.quarantineWay
  exact .ite_snd h h

/-! ### Uncorrectable errors (R345, R348, R350) -/

theorem Sound.endLaunch {launch} (h : Sound s) : Sound (s.endLaunch launch) := by
  unfold State.endLaunch
  refine .of_eq (.foldl (fun _ _ h₁ => ?_) h) rfl rfl
  split
  · exact h₁
  · exact .of_eq (.ite (.endWg (.modWg (.ite h₁ (.foldl (fun _ _ => .l1Take) h₁)))) (.modWg (.ite h₁ (.foldl (fun _ _ => .l1Take) h₁)))) rfl rfl

theorem Sound.dirtyError {pa} (h : Sound s) : Sound (s.dirtyError pa) := by
  unfold State.dirtyError
  split
  · exact h
  · exact .emit (.quarantineWay (.retirePage (.foldl (fun _ _ => .endLaunch) (.dropL2 h))))

theorem Sound.checkHbm {at'} (h : Sound s) : Sound (s.checkHbm at') := by
  unfold State.checkHbm
  exact .ite h (.foldl (fun _ _ h₁ => .foldl (fun _ _ => .markBad) h₁) (.findPlants h))

theorem Sound.fillL2 {line} (h : Sound s) : Sound (s.fillL2 line) := by
  unfold State.fillL2
  exact .ite h (.firePlants (.modL2 (.checkHbm (.enterL2 h))))

theorem Sound.checkMem {pa n} (h : Sound s) : Sound (s.checkMem pa n) := by
  unfold State.checkMem
  exact .ite h (.foldl (fun _ _ h₁ => .ite (.dirtyError h₁) (.dropL2 h₁)) (.findPlants h))

theorem Sound.checkRead {pa n} (h : Sound s) : Sound (s.checkRead pa n) := by
  unfold State.checkRead
  exact .fillL2 (.checkMem (.fillL2 h))

theorem Sound.mergeOne {bs sent vf context} (h : Sound s) : Sound (s.mergeOne bs sent vf context).2 := by
  unfold State.mergeOne
  dsimp only
  split
  · exact h
  · split
    · exact .ite_snd (.dirtyError (.findPlants (.modL2 h))) (.writeHome (.checkMem h))
    · exact .writeHome (.checkMem h)

theorem Sound.mergeHome {bs sent vf context} (h : Sound s) : Sound (s.mergeHome bs sent vf context).2 := by
  unfold State.mergeHome
  dsimp only
  refine .ite_snd (.mergeOne h) ?_
  split
  next new _ =>
    dsimp only
    exact .mergeOne (.mergeOne h)
  · exact .mergeOne h

theorem Sound.unitWrite {die vf bs} (h : Sound s) : Sound (s.unitWrite die vf bs) := by
  unfold State.unitWrite
  refine .foldl (fun _ _ h₁ => ?_) h
  split
  · exact h₁
  · exact .ite (.mergeHome h₁) (.logMem h₁)

theorem Sound.seqWrite {vf bs} (h : Sound s) : Sound (s.seqWrite vf bs) := by
  unfold State.seqWrite
  exact .foldl (fun _ _ => .mergeHome) h

/-! ### Partials of reduction pages (R68, R92) -/

theorem Sound.noteHolder {pa holder} (h : Sound s) : Sound (s.noteHolder pa holder) := by
  unfold State.noteHolder
  exact .modL2 h

theorem Sound.mergeL1Part {c pa kind word vf} (h : Sound s) : Sound (s.mergeL1Part c pa kind word vf) := by
  unfold State.mergeL1Part
  exact .noteHolder h

theorem Sound.mergeL2Part {die pa kind word vf} (h : Sound s) : Sound (s.mergeL2Part die pa kind word vf) := by
  unfold State.mergeL2Part
  exact .noteHolder h

theorem Sound.sendPartials {c toHome} (h : Sound s) : Sound (s.sendPartials c toHome) := by
  unfold State.sendPartials
  extract_lets mine s₁ s₂ d die s₃
  have h₂ : Sound s₂ := Sound.foldl (fun _ _ => .mergeL2Part) h
  have h₃ : Sound s₃ := .foldl (fun _ _ => .mergeHome) h₂
  exact .ite h₂ h₃

theorem Sound.mergePartials {line} (h : Sound s) : Sound (s.mergePartials line) := by
  unfold State.mergePartials
  exact .modL2 (.of_eq (.foldl (fun _ _ => .mergeHome) h) rfl rfl)

/-! ### The scratchpad (R71) -/

theorem Sound.noteScr {g off n} (h : Sound s) : Sound (s.noteScr g off n) := by
  unfold State.noteScr
  exact .ite h (.findPlants h)

theorem Sound.scrPut {g off bs} (h : Sound s) : Sound (s.scrPut g off bs) := by
  unfold State.scrPut
  exact .firePlants (.ite h h)

theorem Sound.scrFresh {g off n cov} (h : Sound s) : Sound (s.scrFresh g off n cov) := by
  unfold State.scrFresh
  exact .ite h h

theorem Sound.scrPutNat {g off n x} (h : Sound s) : Sound (s.scrPutNat g off n x) := by
  unfold State.scrPutNat
  exact .scrPut h

theorem Sound.scrMark {g off n} (h : Sound s) : Sound (s.scrMark g off n) := by
  unfold State.scrMark
  exact .foldl (fun _ _ h₁ => h₁) h

/-! ### Range locks (R89 to R91) -/

theorem Sound.takeLocks {c ls} (h : Sound s) : Sound (s.takeLocks c ls) := by
  unfold State.takeLocks
  refine .foldl (fun _ _ h₁ => ?_) h
  split <;> exact h₁

theorem Sound.dropLocks {op} (h : Sound s) : Sound (s.dropLocks op) := h

end Sys2Proof.Machine
end

section
/-! SUPPORT. The functions of Sys2Proof/Machine/Trans.lean keep the invariant. -/

namespace Sys2Proof.Machine

variable {s t : State} {α β : Type}

/-! ### The table (R322 to R325) -/

theorem Sound.cachePtrs {die ps} (h : Sound s) : Sound (s.cachePtrs die ps) := by
  unfold State.cachePtrs
  exact .foldl (fun _ _ h₁ => .of_eq (.ite_snd h₁ h₁) rfl rfl) h

/-! ### Translation caches (R326, R327) -/

theorem Sound.tlbFill {unit t} (h : Sound s) : Sound (s.tlbFill unit t) := by
  unfold State.tlbFill
  exact .ite h (.of_eq (.ite_snd h h) rfl rfl)

theorem Sound.tlbDrop {f g} (h : Sound s) : Sound (s.tlbDrop f g) := h

theorem Sound.tlbDropVa {vf va} (h : Sound s) : Sound (s.tlbDropVa vf va) := by
  unfold State.tlbDropVa
  exact .tlbDrop h

/-! ### Asking for a walk -/

theorem Sound.askWalk {w} (h : Sound s) : Sound (s.askWalk w) := by
  unfold State.askWalk
  exact .ite h (.of_eq (.fresh h) rfl rfl)

theorem Sound.needPages {sel access pages} (h : Sound s) : Sound (s.needPages sel access pages) := by
  unfold State.needPages
  split
  · exact h
  · exact .modWarp (.foldl (fun _ _ => .askWalk) h)

/-! ### The fault queue (R329 to R332) -/

theorem Sound.informFault {vf page master access cause detail level warp launch die} (h : Sound s) :
    Sound (s.informFault vf page master access cause detail level warp launch die) := by
  unfold State.informFault
  exact .ite h (.of_eq (.fresh h) rfl rfl)

theorem Sound.raiseFault {f} (h : Sound s) : Sound (s.raiseFault f) := by
  unfold State.raiseFault
  split
  · refine .of_eq ?_ rfl rfl
    split
    · exact .ite h (.unitWrite h)
    · exact h
  · exact .of_eq (.fresh h) rfl rfl

theorem Sound.parkWarp {sel p} (h : Sound s) : Sound (s.parkWarp sel p) := by
  unfold State.parkWarp
  exact .modWarp (.ite (.endClause h) h)

theorem Sound.unpark {sel p} (h : Sound s) : Sound (s.unpark sel p) := by
  unfold State.unpark
  exact .unparkIfFree (.modWarp h)

theorem Sound.setAcc {id lane ph} (h : Sound s) : Sound (s.setAcc id lane ph) := h

theorem Sound.refuseAcc {id lane origin} (h : Sound s) : Sound (s.refuseAcc id lane origin) := by
  unfold State.refuseAcc
  exact .ite (.cancelAccs h) (.setAcc h)

theorem Sound.failAsker {a vf page access die detail level} (h : Sound s) : Sound (s.failAsker a vf page access die detail level) := by
  unfold State.failAsker
  dsimp only
  split
  · exact .modWarp (.unpark h)
  · exact .modWarp (.unpark h)
  next id lane =>
    cases s.loads.look id with
    | none => exact .ite (.refuseAcc h) (.ite (.informFault (.refuseAcc h)) (.informFault (.refuseAcc h)))
    | some ld =>
      exact .ite (.refuseAcc (.unpark h)) (.ite (.informFault (.refuseAcc (.unpark h))) (.informFault (.refuseAcc (.unpark h))))
  · exact .ite h (.informFault h)
  · refine .endWg ?_
    split
    · exact .modCluster h
    · exact h
  · exact h
  · exact h

theorem Sound.faultAsker {w cause level} (h : Sound s) : Sound (s.faultAsker w cause level) := by
  unfold State.faultAsker
  refine .ite (.failAsker h) (.raiseFault ?_)
  split
  · exact .parkWarp h
  · exact .parkWarp h
  · split
    · exact .parkWarp (.setAcc h)
    · exact h
  · exact h
  · exact h
  · exact h
  · exact h

theorem Sound.foundAsker {w t} (h : Sound s) : Sound (s.foundAsker w t) := by
  unfold State.foundAsker
  dsimp only
  split
  · exact .modWarp (.unpark (.tlbFill h))
  · exact .modWarp (.unpark (.tlbFill h))
  · split
    · exact .unpark (.setAcc (.tlbFill h))
    · exact .tlbFill h
  · exact .tlbFill h
  · exact .tlbFill h
  · exact .tlbFill h
  · exact .tlbFill h

end Sys2Proof.Machine
end

section
/-! SUPPORT. The functions of Sys2Proof/Machine/Home.lean keep the invariant. -/

namespace Sys2Proof.Machine

variable {s t : State} {α β : Type}

/-! ### Format windows (R65 to R67, R297) -/

theorem Sound.mxCheck {w j} (h : Sound s) : Sound (s.mxCheck w j) := by
  unfold State.mxCheck
  exact .checkHbm h

theorem Sound.fillAlias {n pa} (h : Sound s) : Sound (s.fillAlias n pa) := by
  unfold State.fillAlias
  exact .ite (.mxCheck h) (.modL2 (.ite (.foldl (fun _ _ => .markBad) (.of_eq (.mxCheck h) rfl rfl)) (.of_eq (.mxCheck h) rfl rfl)))

theorem Sound.writeBlock {w j codes} (h : Sound s) : Sound (s.writeBlock w j codes) := by
  unfold State.writeBlock
  extract_lets e es bs out
  have hclean : Sound ((s.noteOld out).cleanWords out) := .cleanWords (.noteOld h)
  exact .firePlants ⟨Memory.wf_store h.1 out, hclean.2⟩

theorem Sound.encodeSector {w at'} (h : Sound s) : Sound (s.encodeSector w at') := by
  unfold State.encodeSector
  exact .ite h (.ite (.foldl (fun _ _ => .markBad) (.writeBlock (.mxCheck h))) (.writeBlock (.mxCheck h)))

theorem Sound.evictAlias {line} (h : Sound s) : Sound (s.evictAlias line) := by
  unfold State.evictAlias
  split
  · exact h
  · exact .dropL2 (.foldl (fun _ _ => .encodeSector) h)

/-! ### Reads at a home (R79, R82, R93) -/

theorem Sound.keepRemote {c at' r} (h : Sound s) : Sound (s.keepRemote c at' r) := by
  unfold State.keepRemote
  extract_lets d k old s₁
  have h₁ : Sound s₁ := .ite h h
  exact h₁

theorem Sound.readSector {c at' lease kind streaming} (h : Sound s) : Sound (s.readSector c at' lease kind streaming).2 := by
  unfold State.readSector
  extract_lets line s₁ before s₂ lost s₃
  split
  · exact h
  have h₂ : Sound s₂ := .checkRead (.enterL2 (.ite (.mergePartials h) h))
  have h₃ : Sound s₃ := by
    unfold s₃
    split
    · exact .fillAlias h₂
    · exact h₂
  exact .ite (.shareTs (.renewHome h₃)) (.keepRemote (.shareTs (.renewHome h₃)))

/-! ### L1 fills and evictions (R76, R317, R345, R381) -/

theorem Sound.noteVictim {sel line} (h : Sound s) : Sound (s.noteVictim sel line) := by
  unfold State.noteVictim
  exact .modWarp h

theorem Sound.l1Out {c line} (h : Sound s) : Sound (s.l1Out c line) := by
  unfold State.l1Out
  split
  · exact h
  extract_lets bad s₁ writer dirty owners s₂ s₃ s₄
  have h₂ : Sound s₂ := .foldl (fun _ _ ht => (Sound.sendLine ht : _)) (.findPlants h)
  have h₃ : Sound s₃ := .dropClean h₂
  have h₄ : Sound s₄ := h₃
  split
  · exact .ite (.noteVictim h₄) h₄
  · exact h₄

theorem Sound.l1Room {c line} (h : Sound s) : Sound (s.l1Room c line) := by
  unfold State.l1Room
  exact .ite h (.ite h (.l1Out h))

theorem Sound.l1Fill {sel c at' r vf lease kind} (h : Sound s) : Sound (s.l1Fill sel c at' r vf lease kind) := by
  unfold State.l1Fill
  exact .firePlants (.of_eq (.ite (.l1Room h) (.dropClean (.l1Room h))) rfl rfl)

theorem Sound.sweepL1 {c} (h : Sound s) : Sound (s.sweepL1 c) := by
  unfold State.sweepL1
  exact .foldl (fun _ _ => .l1Out) h

theorem Sound.noteMiss {sel line} (h : Sound s) : Sound (s.noteMiss sel line) := by
  unfold State.noteMiss
  exact .modWarp h

/-! ### Writes by mask at L2 -/

theorem Sound.mergeFlight {f} (h : Sound s) : Sound (s.mergeFlight f).2 := by
  unfold State.mergeFlight
  dsimp only
  split
  · exact .modL2 (.foldl (fun _ _ => .markBad) (.mergeHome h))
  · exact .foldl (fun _ _ => .markBad) (.mergeHome h)

end Sys2Proof.Machine
end

section
/-! SUPPORT. The functions of Sys2Proof/Machine/Operands.lean keep the invariant. -/

namespace Sys2Proof.Machine

variable {s t : State} {α β : Type}

/-! ### Steps 7 and 8 of R142 -/

theorem StopSound.poisonStop {sel lane code origin} : StopSound (s.poisonStop sel lane code origin) := by
  unfold State.poisonStop
  split <;> trivial

theorem StopsSound.stateStop {sel lane o} : StopsSound (s.stateStop sel lane o) := by
  unfold State.stateStop
  refine .ite trivial ?_
  split
  · trivial
  · exact .ite (.some trivial) trivial
  · exact .some .poisonStop

theorem StopsSound.regGateBy {sel items} : StopsSound (s.regGateBy sel items) := by
  unfold State.regGateBy
  split
  · exact .some trivial
  · split
    · exact .some trivial
    · exact .findSome fun _ => .findSome fun _ => .stateStop

theorem StopsSound.regGate {sel lanes ops} : StopsSound (s.regGate sel lanes ops) := by
  unfold State.regGate
  exact .regGateBy

theorem Sound.halt {sel} {st : Stop} (h : Sound s) (hst : StopSound st) : Sound (s.halt sel st) := by
  cases st with
  | trap _ => exact .takeTrap h
  | block _ => exact .blockLanes h
  | rollback _ _ => exact .detect h
  | done _ => exact hst

theorem Sound.noteReads {sel lanes ops} (h : Sound s) : Sound (s.noteReads sel lanes ops) := by
  unfold State.noteReads
  exact .ite h (.findPlants h)

/-! ### Writing results -/

theorem Sound.storeV {key c} (h : Sound s) : Sound (s.storeV key c) := by
  unfold State.storeV
  exact .ite (.setV h) (.firePlants (.setV h))

theorem Sound.writeWord {sel lane r i c} (h : Sound s) : Sound (s.writeWord sel lane r i c) := by
  unfold State.writeWord
  split
  · split
    · exact h
    · exact .storeV h
  · exact .ite h (.setK h)
  · exact .ite (.modWarp h) (.ite (.modWarp h) h)

theorem Sound.writeReg {sel lane r wide x floor} (h : Sound s) : Sound (s.writeReg sel lane r wide x floor) := by
  unfold State.writeReg
  exact .ite (.writeWord (.writeWord h)) (.writeWord h)

theorem Sound.markEmpty {sel lane r wide} (h : Sound s) : Sound (s.markEmpty sel lane r wide) := by
  unfold State.markEmpty
  exact .ite (.writeWord (.writeWord h)) (.writeWord h)

theorem Sound.storeDst {d i c} (h : Sound s) : Sound (s.storeDst d i c) := by
  unfold State.storeDst
  exact .ite (.ite h (.setK h)) (.storeV h)

theorem Sound.fillDst {d x poison floor} (h : Sound s) : Sound (s.fillDst d x poison floor) := by
  unfold State.fillDst
  exact .ite (.storeDst (.storeDst h)) (.storeDst h)

theorem Sound.inject {fib x} (h : Sound s) : Sound (s.inject fib x).2 := by
  unfold State.inject
  split
  · exact h
  · exact .ite_snd (.disarm (.noteFired h)) h

theorem Sound.writeVec {sel lane r wide x floor} (h : Sound s) : Sound (s.writeVec sel lane r wide x floor) := by
  unfold State.writeVec
  exact .writeReg (.inject h)

theorem Sound.writeLanes {sel r wide rs} (h : Sound s) : Sound (s.writeLanes sel r wide rs) := by
  unfold State.writeLanes
  split
  · exact .foldl (fun _ _ => .writeVec) h
  · split
    · exact .writeVec h
    · exact h

/-! ### The effect that vector instructions share (R144) -/

theorem Sound.vec {op g ops eff} (h : Sound s) (heff : ∀ x y, Sound y → Sound (eff x y)) : Sound (s.vec op g ops eff) := by
  unfold State.vec
  dsimp only
  split
  · exact .takeTrap h
  · split
    next e₁ => exact .halt (.noteReads h) (.of_some e₁ .regGate)
    · exact .advance (heff _ _ (.noteReads h))

end Sys2Proof.Machine
end

section
/-! SUPPORT. The functions of Sys2Proof/Machine/Issue.lean keep the invariant. -/

namespace Sys2Proof.Machine

variable {s t : State} {α β : Type}

/-! ### Fetch (R129, R328) -/

theorem Sound.lateTrap {sel t} (h : Sound s) : Sound (s.lateTrap sel t) := by
  unfold State.lateTrap
  exact .takeTrap h

theorem Sound.noteFetch {sel va} (h : Sound s) : Sound (s.noteFetch sel va) := by
  unfold State.noteFetch
  refine .ite h ?_
  split
  · exact .checkRead h
  · exact h

theorem Sound.fetchTrap {sel va f} (h : Sound s) : Sound (s.fetchTrap sel va f) := by
  unfold State.fetchTrap
  dsimp only
  split
  · exact .takeTrap (.modWarp h)
  · refine .takeTrap ?_
    split
    · exact .logMem h
    · exact h
  · exact .needPages h

/-! ### Up to the instruction -/

theorem Sound.illegal {sel w} (h : Sound s) : Sound (s.illegal sel w) := by
  unfold State.illegal
  split <;> exact .takeTrap h

theorem FrontSound.decoded {sel x} (h : Sound s) : FrontSound (s.decoded sel x) := by
  unfold State.decoded
  dsimp only
  split
  · exact .run h
  · exact .stop (.illegal h)

theorem FrontSound.front {sel stepping} (h : Sound s) : FrontSound (s.front sel stepping) := by
  unfold State.front
  dsimp only
  split
  · exact .stop h
  · refine .ite (.stop h) ?_
    split
    · exact .decoded h
    · split
      · exact .stop (.takeTrap h)
      · split
        · exact .decoded (.noteFetch h)
        · exact .stop (.fetchTrap (.of_eq (.noteFetch h) rfl rfl))

/-! ### Stops between instructions (R204, R341, R343) -/

theorem Sound.raiseBarFault {sel} (h : Sound s) : Sound (s.raiseBarFault sel) := by
  unfold State.raiseBarFault
  split
  · exact h
  · refine .ite h ?_
    split
    · split
      · exact .modWarp (.lateTrap (.foldl (fun _ _ => .modFibre) h))
      · exact h
    · exact h

theorem Sound.haltRecord {sel assertStop} (h : Sound s) : Sound (s.haltRecord sel assertStop) := by
  unfold State.haltRecord
  split
  · exact h
  · exact .ite h (.setTrap h)

theorem Sound.haltWarp {sel assertStop} (h : Sound s) : Sound (s.haltWarp sel assertStop) := by
  unfold State.haltWarp
  split
  · exact h
  · exact .ite h (.ite h (.modWarp (.ite (.endClause (.haltRecord h)) (.haltRecord h))))

theorem Sound.haltLaunch {launch assertStop} (h : Sound s) : Sound (s.haltLaunch launch assertStop) := by
  unfold State.haltLaunch
  exact .of_eq (.foldl (fun _ _ => .haltWarp) h) rfl rfl

theorem Sound.stopIfDue {sel} (h : Sound s) : Sound (s.stopIfDue sel) := by
  unfold State.stopIfDue
  split
  · exact h
  · exact .ite h (.haltWarp h)

theorem Sound.endIfStopped {sel} (h : Sound s) : Sound (s.endIfStopped sel) := by
  unfold State.endIfStopped
  split
  · exact h
  · exact .ite (.endClause h) h

theorem Sound.afterIssue {sel} (h : Sound t) : Sound (t.afterIssue s sel) := by
  unfold State.afterIssue
  exact .of_eq (.raiseBarFault (.endIfStopped (.ite h (.stopIfDue (.modWarp (.modCluster (.ite (.setSkip h) h))))))) rfl rfl

end Sys2Proof.Machine
end

section
/-! SUPPORT. The functions of Sys2Proof/Machine/Desc.lean keep the invariant. -/

namespace Sys2Proof.Machine

variable {s t : State} {α β : Type}

/-! ### Descriptors (R250) -/

theorem Sound.seqSet {q off n x} (h : Sound s) : Sound (s.seqSet q off n x) := by
  unfold State.seqSet
  exact .seqWrite h

theorem Sound.seqSetFlag {q i v} (h : Sound s) : Sound (s.seqSetFlag q i v) := by
  unfold State.seqSetFlag
  exact .seqSet h

/-! ### The KV page list (R252) -/

theorem Sound.setKv {q i e} (h : Sound s) : Sound (s.setKv q i e) := by
  unfold State.setKv
  exact .seqWrite h

theorem Sound.setPageCount {vf page n} (h : Sound s) : Sound (s.setPageCount vf page n) := by
  unfold State.setPageCount
  exact .seqWrite h

end Sys2Proof.Machine
end

section
/-! SUPPORT. The functions of Sys2Proof/Machine/Regions.lean keep the invariant. -/

namespace Sys2Proof.Machine

variable {s t : State} {α β : Type}

/-! ### Versions (R85 to R88) -/

theorem Sound.openVersion {v} (h : Sound s) : Sound (s.openVersion v).2 := by
  unfold State.openVersion
  exact .of_eq (.fresh h) rfl rfl

theorem Sound.commitInto {v p} (h : Sound s) : Sound (s.commitInto v p) := by
  unfold State.commitInto
  split <;> exact h

theorem Sound.moveTagged {v seq} (h : Sound s) : Sound (s.moveTagged v seq) := by
  unfold State.moveTagged
  split
  · exact h
  · split <;> exact h

theorem Sound.beginCommit {v after} (h : Sound s) : Sound (s.beginCommit v after) := by
  unfold State.beginCommit
  split
  · exact h
  · exact .foldl (fun _ _ => .modL2) h

theorem Sound.sendHeld {x} (h : Sound s) : Sound (s.sendHeld x) := by
  unfold State.sendHeld
  exact .foldl (fun _ _ h₁ => .ite (.send h₁) (.mergeL2Part h₁)) h

theorem Sound.publish {vs c} (h : Sound s) : Sound (s.publish vs c) := by
  unfold State.publish
  exact .of_eq
      (.foldl (fun _ _ => .modL2)
        (.foldl (fun _ _ h₁ => .sendHeld (.foldl (fun _ _ => .mergeHome) h₁)) (.foldl (fun _ _ => .sweepLine) (.foldl (fun _ _ => .findVersion) h))))
      rfl rfl

theorem Sound.abortVersion {v} (h : Sound s) : Sound (s.abortVersion v) := by
  unfold State.abortVersion
  split
  · exact h
  · exact .of_eq (.ite (.foldl (fun _ _ => .modL2) h) h) rfl rfl

/-! ### Snapshots (R214, R216, R219, R360) -/

theorem Sound.snapshot {r} (h : Sound s) : Sound (s.snapshot r) := h

theorem Sound.noteFilled {d} (h : Sound s) : Sound (s.noteFilled d) := h

/-! ### Points of no return (R176, R219) -/

theorem StopsSound.commitStop {sel lanes} : StopsSound (s.commitStop sel lanes) := by
  unfold State.commitStop
  exact .map fun _ => trivial

theorem Sound.commitNow {r} (h : Sound s) : Sound (s.commitNow r) := by
  unfold State.commitNow
  split
  · exact h
  · dsimp only
    split
    · exact .commitInto (.ite (.moveTagged h) h)
    · exact .publish (.ite (.moveTagged h) h)

theorem Sound.reopen {r} (h : Sound s) : Sound (s.reopen r) := by
  unfold State.reopen
  dsimp only
  split
  · exact h
  · exact .snapshot h

theorem Sound.noReturn {sel lanes eff} (h : Sound s) (heff : ∀ t, Sound t → Sound (eff t)) : Sound (s.noReturn sel lanes eff) := by
  unfold State.noReturn
  extract_lets s₁ rs s₂ s₃ owed v k
  have h₁ : Sound s₁ := by
    unfold s₁
    split
    · exact .modWg h
    · exact h
  have h₂ : Sound s₂ := heff _ (.foldl (fun _ _ => .commitNow) h₁)
  have h₃ : Sound s₃ := .foldl (fun _ _ => .reopen) h₂
  exact .ite h₃ (.foldl (fun _ _ => .modFibre) h₃)

/-! ### Checkpoints of a redundant pair (R354) -/

theorem Sound.checkArrive {wg kind pc inst fibres} (h : Sound s) : Sound (s.checkArrive wg kind pc inst fibres).2 := by
  unfold State.checkArrive
  split
  · exact h
  extract_lets mine open' add stand old new s₁
  have hstand (t id f) (ht : Sound t) : Sound (stand t id f) := ht
  have h₁ : Sound s₁ := .foldl (fun t p => hstand t p.2 p.1) h
  exact .ite_snd h₁ (.foldl (fun t f => hstand t _ f) h₁)

/-! ### RGNE and QUIT (R198, R217) -/

theorem Sound.dropRegion {r} (h : Sound s) : Sound (s.dropRegion r) := by
  unfold State.dropRegion
  split
  · exact h
  · exact .of_eq (.foldl (fun _ _ => .modFibre) h) rfl rfl

theorem Sound.regionReady {r checked} (h : Sound s) : Sound (s.regionReady r checked).2 := by
  unfold State.regionReady
  split
  · exact h
  · refine .ite_snd h (.ite_snd (.detect h) (.ite_snd (.checkArrive h) ?_))
    dsimp only
    split
    · exact .commitInto (.ite (.moveTagged h) h)
    · exact .beginCommit (.ite (.moveTagged h) h)

theorem Sound.standAtEnd {fib} (h : Sound s) : Sound (s.standAtEnd fib).2 := by
  unfold State.standAtEnd
  split <;> exact h

theorem Sound.closeCommitted {r} (h : Sound s) : Sound (s.closeCommitted r).2 := by
  unfold State.closeCommitted
  split
  · exact h
  · refine .foldl_snd (fun _ _ h₁ => ?_) (.dropRegion h)
    split
    · exact h₁
    · exact .ite_snd (.modFibre h₁) (.ite_snd (.endWarpIfEmpty (.endFibre h₁)) (.standAtEnd h₁))

theorem Sound.settleRegions {checked fuel rs} (h : Sound s) : Sound (s.settleRegions checked fuel rs) := by
  induction fuel generalizing s checked rs with
  | zero => exact h
  | succ fuel ih =>
    cases rs with
    | nil => exact h
    | cons r rs =>
      exact .ite (.ite (ih (.closeCommitted (.regionReady h))) (ih (.regionReady h))) (ih h)

theorem Sound.arriveEnd {fibs} (h : Sound s) : Sound (s.arriveEnd fibs) := by
  unfold State.arriveEnd
  exact .settleRegions (.foldl_snd (fun _ _ => .standAtEnd) h)

theorem Sound.regionPublished {r} (h : Sound s) : Sound (s.regionPublished r) := by
  unfold State.regionPublished
  exact .settleRegions (.closeCommitted h)

end Sys2Proof.Machine
end

section
/-! SUPPORT. The functions of Sys2Proof/Machine/Dual.lean keep the invariant. -/

namespace Sys2Proof.Machine

variable {s t : State} {α β : Type}

/-! ### Terms (R353) -/

theorem Sound.addTerms {fib ts} (h : Sound s) : Sound (s.addTerms fib ts) := by
  unfold State.addTerms
  exact .ite h (.modFibre h)

/-! ### A fibre and its double -/

theorem Sound.clearSigs {wg nos} (h : Sound s) : Sound (s.clearSigs wg nos) := by
  unfold State.clearSigs
  split
  · exact h
  · exact .modWg (.foldl (fun _ _ => .modFibre) h)

/-! ### The slack (R354) -/

theorem Sound.slackOf {sel lane n} (h : Sound s) : Sound (s.slackOf sel lane n).2 := by
  unfold State.slackOf
  dsimp only
  split
  · exact h
  · split
    · exact h
    · split
      · exact .ite_snd h (.ite_snd h h)
      · exact .ite_snd (.checkArrive h) h

theorem StopsSound.slackGate {sel lanes} (h : Sound s) : StopsSound (s.slackGate sel lanes) := by
  unfold State.slackGate
  refine .ite trivial (.ite trivial (.some (.done (.blockLanes (.foldl_snd (fun _ _ h₁ => ?_) h)))))
  dsimp only
  split <;> exact .slackOf h₁

/-! ### The atomic checkpoint (R354, R355) -/

theorem Sound.leave {copy id no} (h : Sound s) : Sound (s.leave copy id no) := h

theorem StopsSound.atomicGate {sel lanes} (h : Sound s) : StopsSound (s.atomicGate sel lanes) := by
  unfold State.atomicGate
  split
  · trivial
  · refine .ite trivial (.ite (.some (.done h)) ?_)
    dsimp only
    split
    · trivial
    · exact .some (.done (.blockLanes (.checkArrive (.foldl (fun _ _ => .addTerms) h))))

theorem Sound.leaveAtomic {sel lanes} (h : Sound s) : Sound (s.leaveAtomic sel lanes) := by
  unfold State.leaveAtomic
  split
  · exact h
  · refine .foldl (fun _ _ h₁ => ?_) h
    dsimp only
    split
    · exact .leave h₁
    · exact h₁

/-! ### Forwarded results (R355) -/

theorem Sound.forward {sel lane vals ready op} (h : Sound s) : Sound (s.forward sel lane vals ready op) := by
  unfold State.forward
  split
  · exact h
  · exact .ite h h

theorem Sound.forwarded {pair pick vals} (h : Sound s) : Sound (s.forwarded pair pick vals) := h

theorem Sound.takeForward {g no} (h : Sound s) : Sound (s.takeForward g no) := h

theorem StopsSound.forwardGate {sel lanes} : StopsSound (s.forwardGate sel lanes) := by
  unfold State.forwardGate
  split
  · trivial
  · exact .ite trivial (.some trivial)

theorem StopsSound.roomGate {sel n} (h : Sound s) : StopsSound (s.roomGate sel n) := by
  unfold State.roomGate
  split
  · trivial
  · exact .ite (.some (.done h)) trivial

end Sys2Proof.Machine
end

section
/-! SUPPORT. The functions of Sys2Proof/Machine/Access.lean keep the invariant. -/

namespace Sys2Proof.Machine

variable {s t : State} {α β : Type}

/-! ### Before the effect -/

theorem SumSound.begin {op g once ops} (h : Sound s) : SumSound (s.begin op g once ops) := by
  unfold State.begin
  dsimp only
  split
  · exact .inl (.takeTrap h)
  · refine .ite (.inl (.advance h)) ?_
    split
    next e₁ => exact .inl (.halt (.noteReads h) (.of_some e₁ .regGate))
    · exact .inr (.noteReads h)

theorem Sound.go (h : Sound s) : Sound s.go := by
  unfold State.go
  exact .advance h

/-! ### Addresses (R70, R132) -/

theorem StopsSound.eaDenied {eas n limit} : StopsSound (eaDenied eas n limit) := by
  unfold Machine.eaDenied
  exact .map fun _ => trivial

theorem StopsSound.eaMisaligned {eas n} : StopsSound (eaMisaligned eas n) := by
  unfold Machine.eaMisaligned
  exact .map fun _ => trivial

theorem StopsSound.eaLocked {sel eas n isGlobal wr} : StopsSound (s.eaLocked sel eas n isGlobal wr) := by
  unfold State.eaLocked
  exact .findSome fun _ => .map fun _ => trivial

/-! ### Translation at issue (R175, R328) -/

theorem StopsSound.needAll {sel access eas n wr} (h : Sound s) : StopsSound (s.needAll sel access eas n wr) := by
  unfold State.needAll
  split
  · trivial
  · dsimp only
    split
    · exact .some (.done (.takeTrap (.modWarp h)))
    · exact .ite trivial (.some (.done (.needPages h)))

theorem StopsSound.tableStop {sel eas rd wr} (h : Sound s) : StopsSound (s.tableStop sel eas rd wr) := by
  unfold State.tableStop
  exact .map fun _ => .done (.takeTrap (.logMem h))

theorem StopsSound.unitStop {sel lane die unit rd wr} (h : Sound s) : StopsSound (s.unitStop sel lane die unit rd wr) := by
  unfold State.unitStop
  exact .ite trivial (.some (.done (.takeTrap (.logRefusal h))))

theorem StopsSound.kindStop {sel eas bad cause} : StopsSound (s.kindStop sel eas bad cause) := by
  unfold State.kindStop
  exact .map fun _ => trivial

/-! ### What holds an instruction at issue -/

theorem StopsSound.stallIf {b} (h : Sound s) : StopsSound (s.stallIf b) := by
  unfold State.stallIf
  exact .ite (.some (.done h)) trivial

theorem Sound.raiseFloors {sel lanes ops} (h : Sound s) : Sound (s.raiseFloors sel lanes ops) := by
  unfold State.raiseFloors
  refine .foldl (fun _ _ h₁ => ?_) h
  split
  · exact .raisePts h₁
  · exact h₁

/-! ### Issuing a load -/

theorem Sound.issueLoad {sel kind accs ord acquire} (h : Sound s) : Sound (s.issueLoad sel kind accs ord acquire).2 := by
  unfold State.issueLoad
  exact .modWarp (.of_eq (.fresh h) rfl rfl)

/-! ### Stores past L1 (R78, R103) -/

theorem Sound.sendOverlap {sel c bs} (h : Sound s) : Sound (s.sendOverlap sel c bs).2 := by
  unfold State.sendOverlap
  exact .foldl_snd (fun _ _ h₁ => .foldl_snd (fun _ _ => .sendLine) h₁) h

theorem Sound.openStore {sel ids} (h : Sound s) : Sound (s.openStore sel ids) := by
  unfold State.openStore
  exact .ite h (.modWarp (.foldl (fun _ _ h₁ => h₁) (.of_eq (.fresh h) rfl rfl)))

theorem Sound.sendBytes {sel bs lease after} (h : Sound s) : Sound (s.sendBytes sel bs lease after).2 := by
  unfold State.sendBytes
  exact .foldl_snd (fun _ _ => .send) h

/-! ### Stores under a version (R88, R176) -/

theorem Sound.noteSpill {v} (h : Sound s) : Sound (s.noteSpill v) := h

theorem Sound.storeUnder {v bs} (h : Sound s) : Sound (s.storeUnder v bs) := by
  unfold State.storeUnder
  exact .noteSpill (.shadowStore h)

/-! ### Stash windows (R75, R186, R187) -/

theorem Sound.modStash {wg scr f} (h : Sound s) : Sound (s.modStash wg scr f) := by
  unfold State.modStash
  exact .modWg h

theorem Sound.flushWindow {sel wg g w} (h : Sound s) : Sound (s.flushWindow sel wg g w).2 := by
  unfold State.flushWindow
  refine .ite_snd h (.modStash ?_)
  split
  · refine .storeUnder (.foldl (fun _ _ h₁ => ?_) h)
    split
    · exact .storeUnder h₁
    · exact h₁
  · refine .foldl_snd (fun _ _ => .send) (.foldl (fun _ _ h₁ => ?_) h)
    split
    · exact .storeUnder h₁
    · exact h₁

theorem Sound.flushStash {sel wg} (h : Sound s) : Sound (s.flushStash sel wg).2 := by
  unfold State.flushStash
  split
  · exact h
  · exact .foldl_snd (fun _ _ => .flushWindow) h

theorem Sound.releaseAll {sel wg} (h : Sound s) : Sound (s.releaseAll sel wg).2 := by
  unfold State.releaseAll
  exact .flushStash (.sendRelease h)

theorem Sound.fillStash {wg chain scr sector} (h : Sound s) : Sound (s.fillStash wg chain scr sector) := by
  unfold State.fillStash
  split
  · exact h
  · split
    · exact h
    · exact .modStash (.raisePts (.foldl (fun _ _ h₁ => .ite (.scrMark h₁) h₁) (.foldl (fun _ _ => .scrPut) (.readSector h))))

theorem Sound.dirtyStash {wg off n region} (h : Sound s) : Sound (s.dirtyStash wg off n region) := by
  unfold State.dirtyStash
  split
  · exact h
  · exact .ite h (.foldl (fun _ _ => .modStash) h)

theorem Sound.unmapWindow {wg scr} (h : Sound s) : Sound (s.unmapWindow wg scr) := by
  unfold State.unmapWindow
  split
  · exact h
  · split
    · exact h
    · exact .modWg (.foldl (fun _ _ => .scrPut) h)

end Sys2Proof.Machine
end

section
/-! SUPPORT. The functions of Sys2Proof/Machine/Memory.lean keep the invariant. -/

namespace Sys2Proof.Machine

variable {s t : State} {α β : Type}

theorem StopsSound.addressStop {sel eas n isGlobal wr} : StopsSound (s.addressStop sel eas n isGlobal wr) := by
  unfold State.addressStop
  exact .firstStop ⟨.eaDenied, .eaMisaligned, .eaLocked, trivial⟩

/-! ### LD and LDK (R177) -/

theorem Sound.loadGlobal {lanes o} (h : Sound s) : Sound (s.loadGlobal lanes o) := by
  unfold State.loadGlobal
  dsimp only
  split
  next e₁ => exact .halt h (.of_some e₁ (.firstStop ⟨.addressStop, .stallIf h, trivial⟩))
  · exact .go (.issueLoad (.foldl (fun _ _ => .markEmpty) (.raiseFloors h)))

theorem Keeps.execLd {o} (h : Sound s) : Keeps (execLd o s) := by
  unfold Machine.execLd
  exact .of_begin (fun _ _ => .loadGlobal) (.begin h)

theorem Keeps.execLdk {o} (h : Sound s) : Keeps (execLdk o s) := by
  unfold Machine.execLdk
  exact .of_begin (fun _ _ => .loadGlobal) (.begin h)

/-! ### Scratchpad loads and stores (R71, R177, R178) -/

theorem Keeps.execLds {o} (h : Sound s) : Keeps (execLds o s) := by
  unfold Machine.execLds
  refine .of_begin (fun _ _ h₁ => ?_) (.begin h)
  dsimp only
  split
  next e₂ => exact .halt h₁ (.of_some e₂ (.firstStop ⟨.addressStop, .stallIf h₁, trivial⟩))
  · exact .go (.issueLoad (.foldl (fun _ _ => .markEmpty) (.foldl (fun _ _ => .noteScr) (.raiseFloors h₁))))

theorem Keeps.execSts {o} (h : Sound s) : Keeps (execSts o s) := by
  unfold Machine.execSts
  refine .of_begin (fun _ _ h₁ => ?_) (.begin h)
  dsimp only
  split
  next e₂ => exact .halt h₁ (.of_some e₂ (.firstStop ⟨.addressStop, .stallIf h₁, .slackGate h₁, trivial⟩))
  · exact .go (.foldl (fun _ _ h₂ => .addTerms (.dirtyStash (.scrPutNat h₂))) (.raiseFloors h₁))

/-! ### ST (R76, R92, R97, R176, R178) -/

theorem Sound.storeVersioned {p v} (h : Sound s) : Sound (s.storeVersioned p v) := by
  unfold State.storeVersioned
  exact .ite (.of_eq (.ite h (.storeUnder h)) rfl rfl) (.ite h (.storeUnder h))

theorem Sound.contribute {sel p whole after} (h : Sound s) : Sound (s.contribute sel p whole after).2 := by
  unfold State.contribute
  exact .foldl_snd (fun _ _ => .send) h

theorem Sound.sendSamples {sel ps after} (h : Sound s) : Sound (s.sendSamples sel ps after).2 := by
  unfold State.sendSamples
  exact .foldl_snd (fun _ _ => .send) h

theorem Sound.storeL1 {sel p} (h : Sound s) : Sound (s.storeL1 sel p) := by
  unfold State.storeL1
  exact .l1Store (.l1Room h)

theorem Sound.releaseWork {sel scope} (h : Sound s) : Sound (s.releaseWork sel scope).2 := by
  unfold State.releaseWork
  exact .ite_snd h (.releaseAll (.sendPartials h))

theorem Sound.storeLanes {sel ps ord scope} (h : Sound s) : Sound (s.storeLanes sel ps ord scope) := by
  unfold State.storeLanes
  extract_lets c s₁ plain
  have h₁ : Sound s₁ := by
    refine .foldl (fun t p ht => ?_) h
    split
    · exact .storeVersioned ht
    · exact ht
  split
  next before s₂ e =>
  have h₂ : Sound s₂ := .of_mk e (.ite_snd (.releaseWork h₁) h₁)
  split
  next ids₁ s₃ e =>
  have h₃ : Sound s₃ := .of_mk e (.foldl_snd (fun _ _ => .contribute) h₂)
  have h₄ {ps} : Sound (s₃.sendSamples sel ps before).2 := .sendSamples h₃
  exact .ite (.openStore (.foldl (fun _ _ => .storeL1) h₄)) (.openStore (.sendBytes (.sendOverlap h₄)))

theorem StopsSound.viewStop {sel lane o} : StopsSound (s.viewStop sel lane o) := by
  unfold State.viewStop
  split
  · trivial
  · split
    · trivial
    · exact .ite (.some trivial) trivial

theorem Keeps.execSt {o} (h : Sound s) : Keeps (execSt o s) := by
  unfold Machine.execSt
  refine .of_begin (fun _ _ h₁ => ?_) (.begin h)
  dsimp only
  split
  next e₂ =>
    exact .halt h₁ (.of_some e₂ (.firstStop ⟨.viewStop, .addressStop, .needAll h₁, .kindStop, .tableStop h₁, .stallIf h₁, .slackGate h₁, trivial⟩))
  · exact .go (.storeLanes (.foldl (fun _ _ => .addTerms) (.raiseFloors h₁)))

/-! ### ST.spw (R179, R262) -/

theorem StopsSound.spwStop {sel o eas n} : StopsSound (s.spwStop sel o eas n) := by
  unfold State.spwStop
  split <;> exact .map fun _ => trivial

theorem Sound.storeSpw {sel q p tag} (h : Sound s) : Sound (s.storeSpw sel q p tag).2 := by
  unfold State.storeSpw
  split
  · dsimp only
    split <;> exact h
  · exact .send h

theorem Keeps.execStSpw {o} (h : Sound s) : Keeps (execStSpw o s) := by
  unfold Machine.execStSpw
  refine .of_begin (fun _ _ h₁ => ?_) (.begin h)
  dsimp only
  split
  next e₂ => exact .halt h₁ (.of_some e₂ (.firstStop ⟨.addressStop, .spwStop, .needAll h₁, .tableStop h₁, .stallIf h₁, .slackGate h₁, trivial⟩))
  · exact .go (.modWarp (.openStore (.foldl_snd (fun _ _ => .storeSpw) (.foldl (fun _ _ => .addTerms) (.raiseFloors h₁)))))

/-! ### ATOM and RED (R180, R181, R183) -/

theorem StopsSound.atomStop {sel o eas isRed} (h : Sound s) : StopsSound (s.atomStop sel o eas isRed) := by
  unfold State.atomStop
  exact .firstStop ⟨.addressStop, .needAll h, .kindStop, .tableStop h, .stallIf h, .atomicGate h, .commitStop, trivial⟩

theorem Sound.sendAtoms {sel o eas vals load after} (h : Sound s) : Sound (s.sendAtoms sel o eas vals load after).2 := by
  unfold State.sendAtoms
  exact .foldl_snd (fun _ _ h₁ => .send (.sendOverlap h₁)) h

theorem Keeps.execAtom {o} (h : Sound s) : Keeps (execAtom o s) := by
  unfold Machine.execAtom
  dsimp only
  refine .of_begin (fun _ _ h₁ => ?_) (.begin h)
  split
  next e₂ => exact .halt h₁ (.of_some e₂ (.atomStop h₁))
  · refine .ite ?_
        (.go (.noReturn (.leaveAtomic (.raiseFloors h₁))
          fun _ h₂ => .sendAtoms (.foldl (fun _ _ => .forward)
            (.issueLoad (.ite (.foldl (fun _ _ => .markEmpty) (.ite_snd (.releaseWork h₂) h₂)) (.ite_snd (.releaseWork h₂) h₂))))))
    split
    next e₂ => exact .halt h₁ (.of_some e₂ .forwardGate)
    · refine .go (.noReturn (.leaveAtomic h₁) fun _ h₂ => .foldl (fun _ _ h₃ => ?_) h₂)
      split
      · exact .fillDst (.takeForward h₃)
      · exact .takeForward h₃

theorem Keeps.execRed {o} (h : Sound s) : Keeps (execRed o s) := by
  unfold Machine.execRed
  refine .of_begin (fun _ _ h₁ => ?_) (.begin h)
  dsimp only
  split
  next e₂ => exact .halt h₁ (.of_some e₂ (.atomStop h₁))
  · exact .ite (.go (.noReturn (.leaveAtomic h₁) fun _ h₂ => h₂))
        (.go (.noReturn (.leaveAtomic (.raiseFloors h₁))
          fun _ h₂ => .openStore (.sendAtoms (.foldl_snd (fun _ _ => .contribute) (.ite_snd (.releaseWork h₂) h₂)))))

/-! ### ATOMS (R182) -/

theorem Sound.atomsFill {sel eas n} (h : Sound s) : Sound (s.atomsFill sel eas n) := by
  unfold State.atomsFill
  exact .foldl (fun _ _ h₁ => .foldl (fun _ _ => .fillStash) h₁) h

theorem Sound.atomsLane {sel o lane off v} (h : Sound s) : Sound (s.atomsLane sel o lane off v).2 := by
  unfold State.atomsLane
  exact .ite_snd (.noteScr h) (.ite_snd (.noteScr h) (.dirtyStash (.scrPutNat (.noteScr h))))

theorem Keeps.execAtoms {o} (h : Sound s) : Keeps (execAtoms o s) := by
  unfold Machine.execAtoms
  refine .of_begin (fun _ _ h₁ => ?_) (.begin h)
  dsimp only
  split
  next e₂ => exact .halt h₁ (.of_some e₂ (.firstStop ⟨.addressStop, .stallIf h₁, trivial⟩))
  · exact .go (.issueLoad (.ite (.foldl (fun _ _ => .markEmpty) (.foldl_snd (fun _ _ => .atomsLane) (.atomsFill (.raiseFloors h₁))))
        (.foldl_snd (fun _ _ => .atomsLane) (.atomsFill (.raiseFloors h₁)))))

/-! ### FENCE (R110, R113, R184) -/

theorem Sound.retireReplies {sel} (h : Sound s) : Sound (s.retireReplies sel) := by
  unfold State.retireReplies
  exact .modCluster (.foldl (fun _ _ => .raisePts) h)

theorem Sound.holdAt {sel phase arg ids} (h : Sound s) : Sound (s.holdAt sel phase arg ids) := by
  unfold State.holdAt
  exact .modWarp h

theorem Sound.fenceEnd {sel o hold} (h : Sound s) : Sound (s.fenceEnd sel o hold) := by
  unfold State.fenceEnd
  exact .ite h (.ite (.go h) (.ite h (.go (.retireReplies h))))

theorem Keeps.execFence {o} (h : Sound s) : Keeps (execFence o s) := by
  unfold Machine.execFence
  refine .of_begin (fun _ _ h₁ => ?_) (.begin h)
  dsimp only
  split
  · exact .fenceEnd h₁
  · exact .ite h₁ (.fenceEnd (.holdAt (.ite_snd (.releaseWork h₁) h₁)))

/-! ### PREF (R185) -/

theorem Keeps.execPref {o} (h : Sound s) : Keeps (execPref o s) := by
  unfold Machine.execPref
  refine .of_begin (fun _ _ h₁ => ?_) (.begin h)
  dsimp only
  split
  next e₂ => exact .halt h₁ (.of_some e₂ (.firstStop ⟨.eaLocked, .stallIf h₁, trivial⟩))
  · exact .ite (.go (.raiseFloors h₁)) (.go (.of_eq (.fresh (.raiseFloors h₁)) rfl rfl))

/-! ### SMAP and SFLUSH (R74, R186, R187) -/

theorem StopsSound.smapStop {sel lane vs va vl} : StopsSound (s.smapStop sel lane vs va vl) := by
  unfold State.smapStop
  exact .ite (.some trivial)
      (.ite (.some trivial)
        (.ite (.ite trivial (.some trivial)) (.ite (.some trivial) (.ite (.some trivial) (.ite (.some trivial) (.map fun _ => trivial))))))

theorem StopsSound.smapPages {sel lane va vl} (h : Sound s) : StopsSound (s.smapPages sel lane va vl) := by
  unfold State.smapPages
  dsimp only
  split
  · exact .some trivial
  · exact .tableStop h

theorem Keeps.execSmap {o} (h : Sound s) : Keeps (execSmap o s) := by
  unfold Machine.execSmap
  refine .of_begin (fun _ _ h₁ => ?_) (.begin h)
  dsimp only
  split
  next e₂ => exact .halt h₁ (.of_some e₂ (.firstStop ⟨.eaDenied, .smapStop, .ite (.stallIf h₁) (.needAll h₁), .ite trivial (.smapPages h₁), trivial⟩))
  · refine .ite ?_ (.go (.modWg (.raiseFloors h₁)))
    split
    · exact .go (.unmapWindow (.openStore (.flushWindow (.raiseFloors h₁))))
    · exact .go (.raiseFloors h₁)

theorem Keeps.execSflush {o} (h : Sound s) : Keeps (execSflush o s) := by
  unfold Machine.execSflush
  refine .of_begin (fun _ _ h₁ => ?_) (.begin h)
  dsimp only
  split
  next e₂ => exact .halt h₁ (.of_some e₂ (.stallIf h₁))
  · exact .go (.openStore (.flushStash h₁))

end Sys2Proof.Machine
end

section
/-! SUPPORT. The functions of Sys2Proof/Machine/Control.lean keep the invariant. -/

namespace Sys2Proof.Machine

variable {s t : State} {α β : Type}

/-! ### After an instruction that some lanes may wait at -/

theorem Sound.settle {sel acted last} (h : Sound s) : Sound (s.settle sel acted last) := by
  unfold State.settle
  split
  · exact h
  · exact .ite (.endClause (.foldl (fun _ _ => .modFibre) h)) (.modWarp (.foldl (fun _ _ => .modFibre) h))

/-! ### Branches (R127, R134, R193 to R196) -/

theorem StopsSound.targetStop {sel lane target} (h : Sound s) : StopsSound (s.targetStop sel lane target) := by
  unfold State.targetStop
  refine .ite (.some trivial) ?_
  split
  · trivial
  · exact .some trivial
  · exact .some (.done (.needPages h))

theorem Sound.jump {sel ts} (h : Sound s) : Sound (s.jump sel ts) := by
  unfold State.jump
  exact .endClause (.foldl (fun _ _ => .modFibre) (.foldl (fun _ _ => .modFibre) h))

theorem Keeps.execBra {o} (h : Sound s) : Keeps (execBra o s) := by
  unfold Machine.execBra
  refine .of_begin (fun _ _ h₁ => ?_) (.begin h)
  dsimp only
  split
  next e₂ => exact .halt h₁ (.of_some e₂ (.findSome fun _ => .targetStop h₁))
  · exact .jump h₁

theorem Keeps.execBrx {o} (h : Sound s) : Keeps (execBrx o s) := by
  unfold Machine.execBrx
  refine .of_begin (fun _ _ h₁ => ?_) (.begin h)
  dsimp only
  split
  next e₂ => exact .halt h₁ (.of_some e₂ (.findSome fun _ => .ite (.some trivial) (.targetStop h₁)))
  · exact .jump h₁

theorem Keeps.execCall {o} (h : Sound s) : Keeps (execCall o s) := by
  unfold Machine.execCall
  refine .of_begin (fun _ _ h₁ => ?_) (.begin h)
  dsimp only
  split
  next e₂ =>
    refine .halt h₁ (.of_some e₂ (.findSome fun _ => ?_))
    split
    · exact .ite (.targetStop h₁) (.some trivial)
    · trivial
  · exact .jump (.foldl (fun _ _ h₂ => .modFibre (.writeReg h₂)) h₁)

theorem Keeps.execRet {o} (h : Sound s) : Keeps (execRet o s) := by
  unfold Machine.execRet
  refine .of_begin (fun _ _ h₁ => ?_) (.begin h)
  dsimp only
  split
  next e₂ => exact .halt h₁ (.of_some e₂ (.findSome fun _ => .ite (.some trivial) (.ite (.some trivial) (.ite (.some trivial) (.targetStop h₁)))))
  · exact .jump (.foldl (fun _ _ => .modFibre) h₁)

/-! ### Fibres (R197 to R199) -/

theorem Sound.forkLanes {sel p kids} (h : Sound s) : Sound (s.forkLanes sel p kids) := by
  unfold State.forkLanes
  refine .foldl (fun _ _ h₁ => ?_) h
  dsimp only
  split
  · exact .modFibre h₁
  · exact .modFibre (.storeV h₁)

theorem Keeps.execFork {o} (h : Sound s) : Keeps (execFork o s) := by
  unfold Machine.execFork
  refine .of_begin (fun _ _ h₁ => ?_) (.begin h)
  dsimp only
  split
  next e₂ => exact .halt h₁ (.of_some e₂ (.firstStop ⟨.findSome fun _ => .targetStop h₁, .commitStop, trivial⟩))
  · exact .go (.noReturn h₁ fun _ => .forkLanes)

theorem Keeps.execQuit {o} (h : Sound s) : Keeps (execQuit o s) := by
  unfold Machine.execQuit
  exact .of_begin (fun _ _ h₁ => .endWarpIfEmpty (.settle (.arriveEnd (.foldl (fun _ _ => .modFibre) (.foldl (fun _ _ => .endFibre) h₁))))) (.begin h)

theorem Keeps.execElect {o} (h : Sound s) : Keeps (execElect o s) := by
  unfold Machine.execElect
  exact .of_begin (fun _ _ h₁ => .go (.foldl (fun _ _ => .modFibre) h₁)) (.begin h)

/-! ### Named barriers (R201 to R204) -/

theorem StopsSound.barStop {sel lane b} : StopsSound (s.barStop sel lane b) := by
  unfold State.barStop
  exact .ite trivial (.some trivial)

theorem Keeps.execBarArrive {o} (h : Sound s) : Keeps (execBarArrive o s) := by
  unfold Machine.execBarArrive
  refine .of_begin (fun _ _ h₁ => ?_) (.begin h)
  dsimp only
  split
  next e₂ => exact .halt h₁ (.of_some e₂ .barStop)
  · exact .settle (.foldl (fun _ _ => .arrive) (.foldl (fun _ _ => .modFibre) h₁))

theorem Keeps.execBarWait {o} (h : Sound s) : Keeps (execBarWait o s) := by
  unfold Machine.execBarWait
  refine .of_begin (fun _ _ h₁ => ?_) (.begin h)
  dsimp only
  split
  next e₂ => exact .halt h₁ (.of_some e₂ .barStop)
  · exact .ite (.blockLanes h₁) (.ite (.takeTrap h₁) (.go h₁))

theorem Keeps.execBarSync {o} (h : Sound s) : Keeps (execBarSync o s) := by
  unfold Machine.execBarSync
  refine .of_begin (fun _ _ h₁ => ?_) (.begin h)
  dsimp only
  split
  next e₂ => exact .halt h₁ (.of_some e₂ .barStop)
  · exact .settle (.foldl (fun _ _ h₂ => .arrive (.modFibre h₂)) h₁)

theorem Keeps.execBarTest {o} (h : Sound s) : Keeps (execBarTest o s) := by
  unfold Machine.execBarTest
  refine .of_begin (fun _ _ h₁ => ?_) (.begin h)
  dsimp only
  split
  next e₂ => exact .halt h₁ (.of_some e₂ .barStop)
  · exact .ite (.takeTrap h₁) (.go (.foldl (fun _ _ => .modFibre) h₁))

theorem Keeps.execBarx {o} (h : Sound s) : Keeps (execBarx o s) := by
  unfold Machine.execBarx
  refine .of_begin (fun _ _ h₁ => ?_) (.begin h)
  dsimp only
  split
  next e₂ => exact .halt h₁ (.of_some e₂ .barStop)
  · exact .ite (.takeTrap h₁) (.go (.setBarrier h₁))

/-! ### Semaphores (R205 to R208) -/

theorem Sound.serveSem {k fuel} (h : Sound s) : Sound (s.serveSem k fuel) := by
  induction fuel generalizing s with
  | zero => exact h
  | succ fuel ih =>
    unfold State.serveSem
    split
    · exact h
    · split
      · exact h
      · exact .ite h (ih (.foldl (fun _ _ h => .modFibre (.forward h)) (by
          split
          · exact .modWg (.raisePts h)
          · exact .raisePts h)))

theorem StopsSound.semTable {sel lane handle rd wr} (h : Sound s) : StopsSound (s.semTable sel lane handle rd wr) := by
  unfold State.semTable
  exact .bind fun _ => .unitStop h

theorem StopsSound.sempStop {sel lane handle n scope} : StopsSound (s.sempStop sel lane handle n scope) := by
  unfold State.sempStop
  split
  · exact .some trivial
  · exact .ite (.some trivial) (.ite (.some trivial) trivial)

theorem Sound.sempPost {sel lanes handle n scope} (h : Sound s) : Sound (s.sempPost sel lanes handle n scope) := by
  unfold State.sempPost
  refine .go (.noReturn h fun _ h₁ => ?_)
  split
  · exact h₁
  · exact .serveSem (.foldl (fun _ _ => .forward) h₁)

theorem Keeps.execSemp {o} (h : Sound s) : Keeps (execSemp o s) := by
  unfold Machine.execSemp
  refine .of_begin (fun _ _ h₁ => .ite ?_ ?_) (.begin h)
  · split
    next e₂ => exact .halt h₁ (.of_some e₂ .forwardGate)
    · exact .go (.foldl (fun _ _ => .takeForward) h₁)
  · split
    · exact .ite h₁ (.sempPost h₁)
    · split
      next e₂ => exact .halt h₁ (.of_some e₂ (.firstStop ⟨.roomGate h₁, .semTable h₁, .sempStop, .commitStop, .stallIf h₁, trivial⟩))
      · exact .ite (.sempPost (.releaseWork h₁)) (.holdAt (.releaseWork h₁))

theorem Keeps.execSemw {o} (h : Sound s) : Keeps (execSemw o s) := by
  unfold Machine.execSemw
  refine .of_begin (fun _ _ h₁ => .ite ?_ ?_) (.begin h)
  · split
    next e₂ => exact .halt h₁ (.of_some e₂ .forwardGate)
    · exact .go (.foldl (fun _ _ => .takeForward) h₁)
  · split
    next e₂ => exact .halt h₁ (.of_some e₂ (.firstStop ⟨.roomGate h₁, .semTable h₁, trivial⟩))
    · split
      · exact .takeTrap h₁
      · dsimp only
        split
        · exact .takeTrap h₁
        · exact .settle (.serveSem (.of_eq (.foldl (fun _ _ => .modFibre) h₁) rfl rfl))

/-! ### Issue and register blocks (R209, R210) -/

theorem Keeps.execYieldW {o} (h : Sound s) : Keeps (execYieldW o s) := by
  unfold Machine.execYieldW
  exact .of_begin (fun _ _ h₁ => .go (.modWarp h₁)) (.begin h)

theorem Keeps.execNop {o} (h : Sound s) : Keeps (execNop o s) := by
  unfold Machine.execNop
  exact .of_begin (fun _ _ => .go) (.begin h)

theorem OptSound.takeBlock {sel} (h : Sound s) : OptSound (s.takeBlock sel) := by
  unfold State.takeBlock
  exact .ite (.some (.modWarp (.modWg h))) (.ite (.some (.modWarp (.modCluster h))) trivial)

theorem Keeps.execXacq {o} (h : Sound s) : Keeps (execXacq o s) := by
  unfold Machine.execXacq
  refine .of_begin (fun _ _ h₁ => .ite (.go (.ite (.foldl (fun _ _ => .modFibre) h₁) h₁)) ?_) (.begin h)
  split
  next e₂ =>
    have h₂ := Sound.of_some e₂ (.takeBlock h₁)
    exact .go (.ite (.foldl (fun _ _ => .modFibre) h₂) h₂)
  · exact .ite (.go (.ite (.foldl (fun _ _ => .modFibre) h₁) h₁)) (.blockLanes (.modCluster h₁))

theorem Keeps.execXrel {o} (h : Sound s) : Keeps (execXrel o s) := by
  unfold Machine.execXrel
  exact .of_begin (fun _ _ h₁ => .ite (.go (.dropExt h₁)) (.blockLanes h₁)) (.begin h)

theorem Keeps.execAssert {o} (h : Sound s) : Keeps (execAssert o s) := by
  unfold Machine.execAssert
  exact .of_begin (fun _ _ h₁ => .haltLaunch (.takeTrap h₁)) (.begin h)

/-! ### Recovery regions (R214 to R220) -/

theorem Sound.openRegion {sel lanes parent target limit} (h : Sound s) : Sound (s.openRegion sel lanes parent target limit) := by
  unfold State.openRegion
  exact .of_eq (.foldl (fun _ _ => .modFibre) (.openVersion (.fresh h))) rfl rfl

theorem Keeps.execRgnb {o} (h : Sound s) : Keeps (execRgnb o s) := by
  unfold Machine.execRgnb
  refine .of_begin (fun _ _ h₁ => ?_) (.begin h)
  dsimp only
  split
  next e₂ => exact .halt h₁ (.of_some e₂ (.firstStop ⟨.findSome fun _ => .targetStop h₁, .map fun _ => trivial, .stallIf h₁, trivial⟩))
  · exact .go (.foldl (fun _ _ => .openRegion) h₁)

theorem Sound.preserveV {sel lane ops} (h : Sound s) : Sound (s.preserveV sel lane ops) := by
  unfold State.preserveV
  split <;> exact h

theorem Sound.rgnkRegs {sel lanes o} (h : Sound s) : Sound (s.rgnkRegs sel lanes o) := by
  unfold State.rgnkRegs
  dsimp only
  split
  next e₁ => exact .halt h (.of_some e₁ .regGate)
  · refine .ite ?_ ?_
    · split
      · exact .takeTrap h
      · exact .go (.foldl (fun _ _ => .preserveV) h)
    · split
      · exact .takeTrap h
      · refine .go (.foldl (fun _ _ h₁ => ?_) h)
        split <;> exact h₁

theorem Sound.rgnkRange {sel lanes o} (h : Sound s) : Sound (s.rgnkRange sel lanes o) := by
  unfold State.rgnkRange
  dsimp only
  split
  next e₁ => exact .halt h (.of_some e₁ .regGate)
  · refine .ite (.takeTrap h) (.ite (.takeTrap h) ?_)
    split
    · exact .takeTrap h
    · split
      · exact .takeTrap h
      · refine .go (.foldl (fun _ _ h₁ => ?_) h)
        split <;> exact h₁

theorem Keeps.execRgnk {o} (h : Sound s) : Keeps (execRgnk o s) := by
  unfold Machine.execRgnk
  exact .of_begin (fun _ _ h₁ => .ite (.go h₁) (.ite (.rgnkRange h₁) (.rgnkRegs h₁))) (.begin h)

theorem Keeps.execRgne {o} (h : Sound s) : Keeps (execRgne o s) := by
  unfold Machine.execRgne
  refine .of_begin (fun _ _ h₁ => ?_) (.begin h)
  dsimp only
  split
  · exact .takeTrap h₁
  · exact .settle (.arriveEnd h₁)

end Sys2Proof.Machine
end

section
/-! SUPPORT. The functions of Sys2Proof/Machine/SysReg.lean keep the invariant. -/

namespace Sys2Proof.Machine

variable {s t : State} {α β : Type}

/-! ### Writes (R293 to R297, R302, R303, R305) -/

theorem Sound.xstore {r sel x} (h : Sound s) : Sound (s.xstore r sel x) := by
  unfold State.xstore
  split <;> exact h

theorem Sound.clearTrap {sel} (h : Sound s) : Sound (s.clearTrap sel) := by
  unfold State.clearTrap
  exact .setTrap h

theorem Sound.clearLog {target} (h : Sound s) : Sound (s.clearLog target) := by
  unfold State.clearLog
  exact .xstore h

/-! ### Format windows (R297) -/

theorem Sound.enableWindow {n x} (h : Sound s) : Sound (s.enableWindow n x) := by
  unfold State.enableWindow
  exact .xstore h

theorem Sound.disableWindow {n} (h : Sound s) : Sound (s.disableWindow n) := by
  unfold State.disableWindow
  exact .xstore (.of_eq (.foldl (fun _ _ => .evictAlias) h) rfl rfl)

/-! ### XS_ERRINJ (R356) -/

theorem Sound.plantError {die x} (h : Sound s) : Sound (s.plantError die x) := by
  unfold State.plantError
  exact .ite (.ite h (.noteFired h)) (.ite (.noteFired (.spoil h)) h)

theorem Sound.dropInjection {die} (h : Sound s) : Sound (s.dropInjection die) := by
  unfold State.dropInjection
  exact .ite h h

theorem Sound.armErrinj {die x} (h : Sound s) : Sound (s.armErrinj die x) := by
  unfold State.armErrinj
  exact .ite (.plantError (.xstore (.dropInjection h))) (.xstore (.dropInjection h))

/-! ### XS_DBG (R343) -/

theorem Sound.dbgDone {c status} (h : Sound s) : Sound (s.dbgDone c status) := by
  unfold State.dbgDone
  exact .xstore h

theorem Sound.dbgWrite {c x whole vf} (h : Sound s) : Sound (s.dbgWrite c x whole vf) := by
  unfold State.dbgWrite
  exact .ite h (.ite (.xstore h) (.ite (.xstore h) (.ite (.xstore h) (.ite (.xstore h) (.xstore h)))))

/-! ### One write -/

theorem Sound.xwrite {word sel n data vf} (h : Sound s) : Sound (s.xwrite word sel n data vf) := by
  unfold State.xwrite
  split
  · exact h
  · dsimp only
    split
    · exact h
    · exact .ite (.clearTrap h) h
    · exact .clearLog h
    · exact .armErrinj h
    · exact .dbgWrite h
    · exact .ite (.ite h (.disableWindow h)) (.ite (.enableWindow h) (.xstore h))
    · exact .xstore h

end Sys2Proof.Machine
end

section
/-! SUPPORT. The functions of Sys2Proof/Machine/System.lean keep the invariant. -/

namespace Sys2Proof.Machine

variable {s t : State} {α β : Type}

theorem Keeps.execTrap {o} (h : Sound s) : Keeps (execTrap o s) := by
  unfold Machine.execTrap
  exact .of_begin (fun _ _ => .takeTrap) (.begin h)

theorem Sound.sret {handle mode vf} (h : Sound s) : Sound (s.sret handle mode vf).2 := by
  unfold State.sret
  refine .ite_snd h ?_
  split
  · exact h
  · exact .ite_snd h (.resumeStopped h)

theorem Keeps.execSret {o} (h : Sound s) : Keeps (execSret o s) := by
  unfold Machine.execSret
  exact .of_begin (fun _ _ h₁ => .sret (.go (.writeReg h₁))) (.begin h)

theorem StopsSound.sysStop {sel lane word selector wr} : StopsSound (s.sysStop sel lane word selector wr) := by
  unfold State.sysStop
  dsimp only
  split
  · trivial
  · exact .ite trivial (.some trivial)

theorem Keeps.execMfsr {o} (h : Sound s) : Keeps (execMfsr o s) := by
  unfold Machine.execMfsr
  refine .of_begin (fun _ _ h₁ => ?_) (.begin h)
  dsimp only
  split
  next e₂ => exact .halt h₁ (.of_some e₂ .sysStop)
  · exact .go (.writeReg h₁)

theorem Keeps.execMtsr {o} (h : Sound s) : Keeps (execMtsr o s) := by
  unfold Machine.execMtsr
  refine .of_begin (fun _ _ h₁ => ?_) (.begin h)
  dsimp only
  split
  next e₂ => exact .halt h₁ (.of_some e₂ .sysStop)
  · exact .xwrite (.go h₁)

theorem Sound.pgret {pa vf} (h : Sound s) : Sound (s.pgret pa vf).2 := by
  unfold State.pgret
  exact .ite_snd h (.retirePage h)

theorem Keeps.execPgret {o} (h : Sound s) : Keeps (execPgret o s) := by
  unfold Machine.execPgret
  exact .of_begin (fun _ _ h₁ => .go (.writeReg (.pgret h₁))) (.begin h)

theorem Sound.tlbi {form vf va} (h : Sound s) : Sound (s.tlbi form vf va) := by
  unfold State.tlbi
  split
  · exact .tlbDrop h
  · exact .tlbDropVa h
  · exact .tlbDrop h

theorem Keeps.execTlbi {o} (h : Sound s) : Keeps (execTlbi o s) := by
  unfold Machine.execTlbi
  refine .of_begin (fun _ _ h₁ => ?_) (.begin h)
  dsimp only
  split
  · exact .ite h₁ (.go h₁)
  · exact .ite (.takeTrap h₁) (.ite (.go (.tlbi h₁)) (.holdAt (.tlbi h₁)))

end Sys2Proof.Machine
end

section
/-! SUPPORT. The functions of Sys2Proof/Machine/Clause.lean keep the invariant. -/

namespace Sys2Proof.Machine

variable {s t : State} {α β : Type}

theorem Keeps.execBatchSelect {sel} (h : Sound s) : Keeps (execBatchSelect sel s) := by
  unfold Machine.execBatchSelect
  refine .next ?_
  split
  · exact h
  · refine .ite h ?_
    split
    next e₁ => exact .of_mk e₁ (.selectBatch (.raiseBarFault h))
    next e₁ => exact .modWarp (.of_mk e₁ (.selectBatch (.raiseBarFault h)))

/-! ### The header (R19, R123) -/

theorem StartSound.startOf {sel} (h : Sound s) : StartSound (s.startOf sel) := by
  unfold State.startOf
  split
  · trivial
  · refine .ite trivial ?_
    split
    · trivial
    · refine .ite trivial ?_
      split
      · trivial
      · split
        · exact .ite (.bad (.takeTrap h)) (.ite trivial trivial)
        · exact .bad (.fetchTrap h)

theorem Sound.enterClause {sel hdr} (h : Sound s) : Sound (s.enterClause sel hdr) := by
  unfold State.enterClause
  exact .modWarp (.foldl (fun _ _ => .modFibre) h)

theorem Sound.takePort {sel port} (h : Sound s) : Sound (s.takePort sel port) := by
  unfold State.takePort
  exact .modWarp h

theorem OptSound.headerBreak {sel hdr pc} (h : Sound s) : OptSound (s.headerBreak sel hdr pc) := by
  unfold State.headerBreak
  exact .map fun _ => .takeTrap h

theorem Keeps.execClauseStart {sel} (h : Sound s) : Keeps (execClauseStart sel s) := by
  unfold Machine.execClauseStart
  extract_lets c
  refine .next ?_
  split
  next e => exact .of_bad e (.startOf h)
  · exact h
  split
  · exact h
  refine .ite h ?_
  split
  · split
    next e => exact .of_some e (.headerBreak h)
    · exact .enterClause (.takePort (.setSkip (.noteFetch h)))
  · exact .takePort h

theorem Keeps.execLocalityDecay {c} (h : Sound s) : Keeps (execLocalityDecay c s) := by
  unfold Machine.execLocalityDecay
  exact .next (.ite h h)

theorem Keeps.execThrottleExempt {sel} (h : Sound s) : Keeps (execThrottleExempt sel s) := by
  unfold Machine.execThrottleExempt
  refine .next ?_
  split
  · exact h
  · exact .ite h (.modWarp h)

end Sys2Proof.Machine
end

section
/-! SUPPORT. The functions of Sys2Proof/Machine/Debug.lean keep the invariant. -/

namespace Sys2Proof.Machine

variable {s t : State} {α β : Type}

/-! ### The write at the head of the register queue (R305) -/

theorem Sound.popWrite (h : Sound s) : Sound s.popWrite := by
  unfold State.popWrite
  split
  · exact h
  extract_lets s₁ s₂
  have h₁ : Sound s₁ := Sound.xwrite h
  have h₂ : Sound s₂ := by unfold s₂; split <;> exact h₁
  exact .emit h₂

theorem Sound.popIf {k} (h : Sound s) : Sound (s.popIf k) := by
  unfold State.popIf
  exact .ite (.popWrite h) h

theorem Keeps.execTraprecClear (h : Sound s) : Keeps (execTraprecClear s) := by
  unfold Machine.execTraprecClear
  exact .next (.popIf h)

theorem Keeps.execAcclogClear (h : Sound s) : Keeps (execAcclogClear s) := by
  unfold Machine.execAcclogClear
  exact .next (.popIf h)

theorem Keeps.execFmtwinEnable (h : Sound s) : Keeps (execFmtwinEnable s) := by
  unfold Machine.execFmtwinEnable
  exact .next (.popIf h)

theorem Keeps.execFmtwinDisable (h : Sound s) : Keeps (execFmtwinDisable s) := by
  unfold Machine.execFmtwinDisable
  exact .next (.popIf h)

theorem Keeps.execErrinjArm (h : Sound s) : Keeps (execErrinjArm s) := by
  unfold Machine.execErrinjArm
  exact .next (.popIf h)

theorem Keeps.execSysregWrite (h : Sound s) : Keeps (execSysregWrite s) := by
  unfold Machine.execSysregWrite
  exact .next (.popIf h)

/-! ### The command that XS_DBG holds (R343) -/

theorem Sound.dbgData {c data st} (h : Sound s) : Sound (s.dbgData c data st) := by
  unfold State.dbgData
  exact .xstore (.dbgDone h)

theorem Keeps.execDbgHalt {c} (h : Sound s) : Keeps (execDbgHalt c s) := by
  unfold Machine.execDbgHalt
  refine .next ?_
  split
  · exact h
  · split
    · exact .dbgDone h
    · exact .ite (.dbgDone (.ite h (.haltLaunch h))) (.ite h (.haltLaunch h))

theorem Sound.beginSlice {c} (h : Sound s) : Sound (s.beginSlice c) := by
  unfold State.beginSlice
  exact .modCluster h

theorem Sound.resumeLaunch {launch} (h : Sound s) : Sound (s.resumeLaunch launch) := by
  unfold State.resumeLaunch
  exact .foldl (fun _ _ h₁ => .ite (.beginSlice (.grantBlocks h₁)) (.grantBlocks h₁))
      (.foldl (fun _ _ h₁ => .ite h₁ (.serveSem h₁)) (.foldl (fun _ _ => .returnWaits) (.foldl (fun _ _ => .modWarp) h)))

theorem Keeps.execDbgResume {c} (h : Sound s) : Keeps (execDbgResume c s) := by
  unfold Machine.execDbgResume
  refine .next ?_
  split
  · exact h
  · split
    · exact .dbgDone h
    · exact .dbgDone (.resumeLaunch h)

theorem Keeps.execDbgReadRegister {c} (h : Sound s) : Keeps (execDbgReadRegister c s) := by
  unfold Machine.execDbgReadRegister
  refine .next ?_
  split
  · exact h
  · dsimp only
    split
    · exact .dbgDone h
    · split
      · exact .dbgDone h
      · exact .ite (.dbgData h) (.dbgData (.findPlants h))
      · exact .dbgData h
      · exact .dbgData h
      · exact .dbgData h

theorem Sound.cancelFill {isK key} (h : Sound s) : Sound (s.cancelFill isK key) := by
  unfold State.cancelFill
  refine .of_eq (.foldl (fun _ _ h₁ => ?_) h) rfl rfl
  split
  · exact h₁
  · refine .foldl (fun _ _ => .unpark) (.cancelAccs (.foldl (fun _ _ h₂ => ?_) h₁))
    split
    · exact .fillDst h₂
    · exact h₂

theorem Keeps.execDbgWriteRegister {c} (h : Sound s) : Keeps (execDbgWriteRegister c s) := by
  unfold Machine.execDbgWriteRegister
  refine .next ?_
  split
  · exact h
  · dsimp only
    split
    · exact .dbgDone h
    · split
      · exact .dbgDone h
      · exact .ite (.dbgDone h) (.dbgDone (.noteFilled (.storeV (.cancelFill h))))
      · exact .ite (.dbgDone h) (.dbgDone (.noteFilled (.setK (.cancelFill h))))
      · exact .ite (.dbgDone (.writeWord h)) (.dbgDone h)
      · exact .ite (.dbgDone h) (.dbgDone (.modFibre h))

theorem Keeps.execDbgResumeWarp {c} (h : Sound s) : Keeps (execDbgResumeWarp c s) := by
  unfold Machine.execDbgResumeWarp
  refine .next ?_
  split
  · exact h
  · dsimp only
    split
    · exact .dbgDone h
    · exact .ite (.dbgDone h) (.ite (.dbgDone h) (.dbgDone (.resumeStopped h)))

/-! ### Stepping -/

theorem Sound.stepEnd {c sel status} (h : Sound s) : Sound (s.stepEnd c sel status) := by
  unfold State.stepEnd
  exact .dbgDone (.modWarp h)

theorem Sound.stepBatch {sel w} (h : Sound s) : Sound (s.stepBatch sel w) := by
  unfold State.stepBatch
  split
  · exact h
  · exact .modWarp (.selectBatch h)

theorem Sound.stepFront {c sel} (h : Sound s) : Sound (s.stepFront c sel) := by
  unfold State.stepFront
  dsimp only
  split
  · exact .dbgDone h
  · split
    · exact .dbgDone h
    · refine .ite h ?_
      split
      · exact h
      · split
        · refine .ite (.dbgDone (.takeTrap h)) (.ite (.dbgDone (.modWarp h)) ?_)
          split
          next e₁ => exact .dbgDone (.of_some e₁ (.headerBreak h))
          · exact .of_eq (.enterClause (.setSkip h)) rfl rfl
        · exact .fetchTrap h
        · exact .dbgDone (.fetchTrap h)

theorem Keeps.execDbgStep {c} (h : Sound s) : Keeps (execDbgStep c s) := by
  unfold Machine.execDbgStep
  refine .next ?_
  split
  · exact h
  · dsimp only
    split
    · exact .dbgDone h
    · split
      · exact .ite (.ite (.stepEnd h) h) h
      · exact .ite h (.stepFront (.stepBatch (.ite (.setSkip h) h)))

theorem Sound.stepDone {c sel} (ht : Sound t) (hs : Sound s) : Sound (t.stepDone s c sel) := by
  unfold State.stepDone
  extract_lets lanes trapped blocked moved back waits rolls
  have hback (u) (hu : Sound u) : Sound (back u) := hu
  refine .ite (hback _ (.stepEnd ht)) (.ite (hback _ (.dbgDone (.modWarp hs))) (.ite (hback _ ht) (hback _ (.modWarp (.ite (.setSkip ht) ht)))))

end Sys2Proof.Machine
end

section
/-! SUPPORT. The functions of Sys2Proof/Machine/Engine.lean keep the invariant. -/

namespace Sys2Proof.Machine

variable {s t : State} {α β : Type}

/-! ### Issue (R30, R142, R223) -/

theorem SumSound.elect {op g ops} (h : Sound s) : SumSound (s.elect op g ops) := by
  unfold State.elect
  dsimp only
  split
  · exact .inl (.takeTrap h)
  · split
    · exact .inl (.go h)
    · split
      next e₁ => exact .inl (.halt (.noteReads h) (.of_some e₁ .regGate))
      · exact .inr (.noteReads h)
    · exact .inl (.takeTrap h)

theorem StopsSound.blockStop {sel lane off n} : StopsSound (s.blockStop sel lane off n) := by
  unfold State.blockStop
  exact .ite (.some trivial) (.ite (.some trivial) trivial)

theorem StopsSound.layoutStop {lane blk cs} : StopsSound (layoutStop lane blk cs) := by
  unfold Machine.layoutStop
  exact .map fun _ => trivial

theorem StopsSound.deniedStop {lane g rs} : StopsSound (deniedStop lane g rs) := by
  unfold Machine.deniedStop
  exact .map fun _ => trivial

theorem StopsSound.alignStop {lane xs} : StopsSound (alignStop lane xs) := by
  unfold Machine.alignStop
  exact .map fun _ => trivial

theorem StopsSound.streamStop {lane stream bad} : StopsSound (streamStop lane stream bad) := by
  unfold Machine.streamStop
  exact .ite (.some trivial) trivial

/-! ### Engines and their capacity (R223, R326) -/

theorem StopsSound.issueStall {sel op locks} (h : Sound s) : StopsSound (s.issueStall sel op locks) := by
  unfold State.issueStall
  exact .stallIf h

theorem Sound.issueOp {e locks} (h : Sound s) : Sound (s.issueOp e locks).2 := by
  unfold State.issueOp
  exact .modWarp (.foldl (fun _ _ => .takeLocks) (.of_eq (.fresh h) rfl rfl))

theorem Sound.dropOp {id} (h : Sound s) : Sound (s.dropOp id) := by
  unfold State.dropOp
  split
  · exact h
  · exact .modWarp (.dropLocks h)

theorem Sound.arriveAt {wg bar faulted} (h : Sound s) : Sound (s.arriveAt wg bar faulted) := by
  unfold State.arriveAt
  exact .ite (.arrive h) h

theorem Sound.finishOp {id faulted} (h : Sound s) : Sound (s.finishOp id faulted) := by
  unfold State.finishOp
  split
  · exact h
  · split
    · exact .arriveAt (.dropOp h)
    · exact .dropOp h

theorem Sound.modOp {id f} (h : Sound s) : Sound (s.modOp id f) := h

/-! ### An engine's reads and writes of memory (R225) -/

theorem EngSound.engLeaf {id e va wr} (h : Sound s) : EngSound (s.engLeaf id e va wr) := by
  unfold State.engLeaf
  split
  · exact .ite (.wait (.askWalk h)) (.ok h)
  · exact .wait (.askWalk h)

theorem Sound.stopOp {id cause access va} (h : Sound s) : Sound (s.stopOp id cause access va) := by
  unfold State.stopOp
  exact .modOp h

theorem Sound.shadowError {v} (h : Sound s) : Sound (s.shadowError v) := by
  unfold State.shadowError
  dsimp only
  split
  · exact .findVersion h
  · split
    · exact .detect (.findVersion h)
    · exact .of_eq (.findVersion h) rfl rfl
    · split
      · exact .detect (.findVersion h)
      · exact .endWg (.findVersion h)
      · exact .endWg (.emit (.setTrap (.findVersion h)))

theorem EngSound.engRead {id e va n} (h : Sound s) : EngSound (s.engRead id e va n) := by
  unfold State.engRead
  split
  next e₁ => exact .wait (.of_wait e₁ (.engLeaf h))
  next e₁ =>
    have h₁ := Sound.of_ok e₁ (.engLeaf h)
    refine .ite (.wait (.stopOp (.logMem h₁))) (.ite (.wait h₁) ?_)
    dsimp only
    split
    · exact .wait (.shadowError h₁)
    · exact .ok (.findShadow (.raisePts (.readSector h₁)))

theorem EngSound.engWrite {id e va bs bad cov} (h : Sound s) : EngSound (s.engWrite id e va bs bad cov) := by
  unfold State.engWrite
  split
  next e₁ => exact .wait (.of_wait e₁ (.engLeaf h))
  next e₁ =>
    have h₁ := Sound.of_ok e₁ (.engLeaf h)
    refine .ite (.wait (.stopOp (.logMem h₁))) (.ite (.wait (.stopOp h₁)) ?_)
    split
    · exact .ok (.storeVersioned h₁)
    · refine .ite (.ok (.foldl (fun _ _ => .mergeL2Part) h₁)) (.ite (.ok (.modOp (.send h₁))) (.ok ?_))
      split
      · exact .raisePts (.mergeFlight (.memFresh h₁))
      · exact .mergeFlight (.memFresh h₁)

theorem Sound.chargeTerms {e ts} (h : Sound s) : Sound (s.chargeTerms e ts) := by
  unfold State.chargeTerms
  split
  · exact h
  · exact .ite h (.ite (.addTerms h) (.modWg h))

/-! ### Accumulator memory (R94, R346) -/

theorem Sound.noteAcc {g rows} (h : Sound s) : Sound (s.noteAcc g rows) := by
  unfold State.noteAcc
  exact .ite h (.findPlants h)

theorem Sound.accPut {g ws} (h : Sound s) : Sound (s.accPut g ws) := by
  unfold State.accPut
  exact .firePlants (.foldl (fun _ _ h₁ => h₁) (.ite h h))

/-! ### Streams as operands (R238) -/

theorem Sound.claim {c stream} (h : Sound s) : Sound (s.claim c stream).2 := by
  unfold State.claim
  dsimp only
  split <;> exact h

theorem Sound.consumed {c stream} (h : Sound s) : Sound (s.consumed c stream) := h

end Sys2Proof.Machine
end

section
/-! SUPPORT. The functions of Sys2Proof/Machine/Matrix.lean keep the invariant. -/

namespace Sys2Proof.Machine

variable {s t : State} {α β : Type}

/-! ### Issuing (R222, R223) -/

theorem Sound.issueOr {sel op checks locks claim e eff} (h : Sound s) (hchecks : ChecksSound checks) (hclaim : ∀ x, Sound x → Sound (claim x).2)
    (heff : ∀ x y, Sound y → Sound (eff x y)) :
    Sound (s.issueOr sel op checks locks claim e eff) := by
  unfold State.issueOr
  split
  next e₁ => exact .halt h (.of_some e₁ (.firstStop (.append hchecks ⟨.issueStall h, trivial⟩)))
  · exact .go (heff _ _ (.issueOp (hclaim _ h)))

theorem Sound.claimAll {c ops} (h : Sound s) : Sound (s.claimAll c ops).2 := by
  unfold State.claimAll
  exact .foldl_snd (fun _ _ h₁ => .ite_snd (.claim h₁) h₁) h

theorem Keeps.execMma {o} (h : Sound s) : Keeps (execMma o s) := by
  unfold Machine.execMma
  exact .of_elect
      (fun _ _ h₁ => .issueOr h₁
        ⟨.blockStop, .layoutStop, .deniedStop, .ite (.some trivial) trivial, .alignStop, .map fun _ => trivial, .barStop, .streamStop, .streamStop,
         trivial⟩
        (fun _ => .claimAll) fun _ _ h₂ => h₂)
      (.elect h)

theorem Keeps.execMmt {o} (h : Sound s) : Keeps (execMmt o s) := by
  unfold Machine.execMmt
  exact .of_elect
      (fun _ _ h₁ => .issueOr h₁ ⟨.blockStop, .layoutStop, .deniedStop, .ite (.some trivial) trivial, .alignStop, .barStop, .streamStop, trivial⟩
        (fun _ => .claimAll) fun _ _ h₂ => h₂)
      (.elect h)

theorem Keeps.execAccmv {o} (h : Sound s) : Keeps (execAccmv o s) := by
  unfold Machine.execAccmv
  exact .of_elect
      (fun _ _ h₁ => .issueOr h₁
        ⟨.blockStop, .layoutStop, .deniedStop, .map fun _ => trivial, .alignStop, .ite trivial .barStop, .streamStop, trivial⟩ (fun _ h₂ => h₂)
        fun _ _ h₂ => .ite (.markEmpty h₂) h₂)
      (.elect h)

theorem Keeps.execAccz {o} (h : Sound s) : Keeps (execAccz o s) := by
  unfold Machine.execAccz
  exact .of_elect (fun _ _ h₁ => .issueOr h₁ ⟨.layoutStop, .ite (.some trivial) trivial, .barStop, trivial⟩ (fun _ h₂ => h₂) fun _ _ h₂ => h₂)
      (.elect h)

theorem Keeps.execVnld {o} (h : Sound s) : Keeps (execVnld o s) := by
  unfold Machine.execVnld
  refine .of_elect (fun l t h₁ => ?_) (.elect h)
  extract_lets sel g blk b va rows
  refine .issueOr h₁ ?_ (fun _ ht => ht) fun _ _ ht => .ite ht (.modWarp ht)
  with_reducible exact ⟨.blockStop, .layoutStop, .barStop, trivial⟩

/-! ### Operands in scratchpad -/

theorem Sound.noteOper {p half r n} (h : Sound s) : Sound (s.noteOper p half r n) := by
  unfold State.noteOper
  exact .noteScr h

/-! ### MMA (R62, R229) -/

theorem Sound.consumeAll {e ops} (h : Sound s) : Sound (s.consumeAll e ops) := by
  unfold State.consumeAll
  exact .foldl (fun _ _ h₁ => .ite (.consumed h₁) h₁) h

theorem Sound.runMma {id e} (h : Sound s) : Sound (s.runMma id e) := by
  unfold State.runMma
  refine .ite (.finishOp h) ?_
  split
  · exact .finishOp (.consumeAll (.accPut (.ite (.noteAcc (.noteOper (.noteOper h))) (.noteOper (.noteOper h)))))
  · exact .finishOp h
  · exact h

/-! ### MMT (R63, R231, R233) -/

theorem Sound.veneerFor {id e} (h : Sound s) : Sound (s.veneerFor id e) := h

theorem Sound.noteVen {c row rows} (h : Sound s) : Sound (s.noteVen c row rows) := by
  unfold State.noteVen
  exact .ite h (.findPlants h)

theorem Sound.runMmt {id e} (h : Sound s) : Sound (s.runMmt id e) := by
  unfold State.runMmt
  refine .ite (.finishOp h) ?_
  split
  · exact .finishOp (.consumeAll (.accPut (.ite (.noteAcc (.noteVen (.noteVen (.noteOper h)))) (.noteVen (.noteVen (.noteOper h))))))
  · exact .finishOp h
  · exact h

/-! ### ACCMV and ACCZ (R64, R234 to R236, R240) -/

theorem Sound.putOuts {g off size xs} (h : Sound s) : Sound (s.putOuts g off size xs) := by
  unfold State.putOuts
  exact .foldl (fun _ _ h₁ => .ite (.scrMark h₁) h₁) (.scrPut h)

theorem Sound.accClear {g b} (h : Sound s) : Sound (s.accClear g b) := by
  unfold State.accClear
  exact .accPut h

theorem Sound.runAccmv {id e} (h : Sound s) : Sound (s.runAccmv id e) := by
  unfold State.runAccmv
  split
  · exact .finishOp h
  extract_lets b size m0 n0 cells found clear x s₁ rows s₂
  have hdone (t) (ht : Sound t) : Sound ((clear (found t)).finishOp id false) :=
    have hfound : Sound (found t) := .ite (.noteAcc ht) (.noteScr (.noteAcc ht))
    .finishOp (.ite (.accClear hfound) hfound)
  have h₁ : Sound s₁ := by
    unfold s₁
    split
    · exact .noteFilled (.fillDst h)
    · exact h
  have h₂ : Sound s₂ := .foldl (fun _ _ => .putOuts) h
  exact .ite (hdone s₁ h₁) (.ite (.ite h (hdone s h)) (hdone s₂ h₂))

theorem Sound.runAccz {id e} (h : Sound s) : Sound (s.runAccz id e) := by
  unfold State.runAccz
  split
  · exact .finishOp h
  · exact .finishOp (.accPut h)

/-! ### VNLD (R232) -/

theorem Sound.runVnld {id e fuel} (h : Sound s) : Sound (s.runVnld id e fuel) := by
  induction fuel generalizing s e with
  | zero => exact h
  | succ fuel ih =>
    unfold State.runVnld
    extract_lets rows s₁ t raw
    have h₁ : Sound s₁ := .ite (.modWarp h) h
    split
    · exact .finishOp h₁
    split
    next hr => exact .of_wait hr (.engRead h)
    next hr =>
      have hread := Sound.of_ok hr (.engRead h)
      exact ih (.modOp (.firePlants (.foldl (fun _ _ ht => .ite ht ht) (by exact hread))))

end Sys2Proof.Machine
end

section
/-! SUPPORT. The functions of Sys2Proof/Machine/Copy.lean keep the invariant. -/

namespace Sys2Proof.Machine

variable {s t : State} {α β : Type}

/-! ### Layout records (R241 to R243) -/

theorem Keeps.execLrdef {o} (h : Sound s) : Keeps (execLrdef o s) := by
  unfold Machine.execLrdef
  refine .of_elect (fun _ _ h₁ => ?_) (.elect h)
  dsimp only
  split
  next e₂ => exact .halt h₁ (.of_some e₂ (.firstStop ⟨.blockStop, .layoutStop, .stallIf h₁, trivial⟩))
  · exact .go h₁

/-! ### Blocks of copies (R244, R246 to R248) -/

theorem Sound.issueCopy {op l o} (h : Sound s) : Sound (s.issueCopy op l o) := by
  unfold State.issueCopy
  exact .issueOr h ⟨.blockStop, .layoutStop, .deniedStop, .alignStop, .barStop, trivial⟩ (fun _ h₁ => h₁) fun _ _ h₁ => h₁

theorem Keeps.execCpy {o} (h : Sound s) : Keeps (execCpy o s) := by
  unfold Machine.execCpy
  exact .of_elect (fun _ _ => .issueCopy) (.elect h)

theorem Keeps.execCpyw {o} (h : Sound s) : Keeps (execCpyw o s) := by
  unfold Machine.execCpyw
  exact .of_elect (fun _ _ => .issueCopy) (.elect h)

theorem Keeps.execCpyz {o} (h : Sound s) : Keeps (execCpyz o s) := by
  unfold Machine.execCpyz
  exact .of_elect (fun _ _ => .issueCopy) (.elect h)

theorem Keeps.execCpyg {o} (h : Sound s) : Keeps (execCpyg o s) := by
  unfold Machine.execCpyg
  exact .of_elect (fun _ _ h₁ => .issueOr h₁ ⟨.blockStop, .layoutStop, .deniedStop, .alignStop, .barStop, trivial⟩ (fun _ h₂ => h₂) fun _ _ h₂ => h₂)
      (.elect h)

theorem Keeps.execCpym {o} (h : Sound s) : Keeps (execCpym o s) := by
  unfold Machine.execCpym
  exact .of_elect (fun _ _ h₁ => .issueOr h₁ ⟨.blockStop, .layoutStop, .deniedStop, .alignStop, .barStop, trivial⟩ (fun _ h₂ => h₂) fun _ _ h₂ => h₂)
      (.elect h)

/-! ### Moving elements -/

theorem Sound.copyLoop {id e total} {item : Nat → State → Eng Unit} {fuel} (h : Sound s) (hitem : ∀ p t, Sound t → EngSound (item p t)) :
    Sound (s.copyLoop id e total item fuel).2 := by
  induction fuel generalizing s e with
  | zero => exact h
  | succ fuel ih =>
    refine .ite_snd h ?_
    split
    next e' => exact .modOp (.of_wait e' (hitem _ _ h))
    next e' => exact ih (.of_ok e' (hitem _ _ h))

theorem Sound.putElem {g cov off bs bad} (h : Sound s) : Sound (s.putElem g cov off bs bad) := by
  unfold State.putElem
  exact .ite (.scrMark (.scrFresh (.scrPut h))) (.scrFresh (.scrPut h))

theorem EngSound.inElem {id e g cov size off va} (h : Sound s) : EngSound (s.inElem id e g cov size off va) := by
  unfold State.inElem
  split
  · exact .ok (.putElem h)
  · split
    next e₁ => exact .wait (.of_wait e₁ (.engRead h))
    next e₁ => exact .ok (.putElem (.of_ok e₁ (.engRead h)))

theorem Sound.runCpy {id e} (h : Sound s) : Sound (s.runCpy id e) := by
  unfold State.runCpy
  dsimp only
  split
  · exact .finishOp h
  · exact .ite (.finishOp (.copyLoop h fun _ _ => .inElem)) (.copyLoop h fun _ _ => .inElem)

theorem Sound.runCpyw {id e} (h : Sound s) : Sound (s.runCpyw id e) := by
  unfold State.runCpyw
  split
  · exact .finishOp h
  extract_lets r pitch total cov item
  have hitem (p t) (ht : Sound t) : EngSound (item p t) := by
    unfold item
    dsimp only
    split
    · exact .ok ht
    · exact .engWrite (.noteScr ht)
  split
  next e =>
  have h₁ := Sound.of_mk e (.copyLoop h hitem)
  exact .ite h₁ (.finishOp (.ite h₁ (.chargeTerms h₁)))

theorem Sound.runCpyg {id e} (h : Sound s) : Sound (s.runCpyg id e) := by
  unfold State.runCpyg
  dsimp only
  split
  · exact .finishOp h
  · exact .ite (.finishOp (.copyLoop h fun _ _ => .inElem)) (.copyLoop h fun _ _ => .inElem)

theorem EngSound.readMask {id e slot} (h : Sound s) : EngSound (s.readMask id e slot) := by
  unfold State.readMask
  split
  next e₁ => exact .wait (.of_wait e₁ (.engRead h))
  next e₁ =>
    have h₁ := Sound.of_ok e₁ (.engRead h)
    split
    next e₂ => exact .wait (.of_wait e₂ (.engRead h₁))
    next e₂ => exact .ok (.of_ok e₂ (.engRead h₁))

theorem Sound.tileElems {id e g r slot mask} (h : Sound s) : Sound (s.tileElems id e g r slot mask) := by
  unfold State.tileElems
  dsimp only
  exact .ite (.finishOp h) (.ite (.finishOp (.copyLoop h fun _ _ => .inElem)) (.copyLoop h fun _ _ => .inElem))

theorem Sound.runCpyz {id e} (h : Sound s) : Sound (s.runCpyz id e) := by
  unfold State.runCpyz
  split
  · exact .finishOp h
  · dsimp only
    split
    · exact .finishOp (.foldl (fun _ _ => .putElem) h)
    · split
      · exact .tileElems h
      · split
        next e₁ => exact .of_wait e₁ (.readMask h)
        next e₁ => exact .tileElems (.modOp (.of_ok e₁ (.readMask h)))

/-! ### Multicast -/

theorem Sound.endPart {id part e faulted arrives} (h : Sound s) : Sound (s.endPart id part e faulted arrives) := by
  unfold State.endPart
  split
  · exact h
  · exact .ite (.arriveAt (.modOp h)) (.modOp h)

theorem Sound.closeParts {id} (h : Sound s) : Sound (s.closeParts id) := by
  unfold State.closeParts
  split
  · exact h
  · refine .ite h (.dropOp ?_)
    split
    · exact .scrPutNat h
    · exact h

theorem Sound.runPart {id e part} (h : Sound s) : Sound (s.runPart id e part) := by
  unfold State.runPart
  split
  · exact .closeParts h
  · refine .ite (.closeParts h) (.ite h ?_)
    dsimp only
    split
    · exact .closeParts (.endPart h)
    · exact .ite (.closeParts (.endPart h))
          (.ite (.closeParts (.endPart (.copyLoop (.modOp h) fun _ _ => .inElem))) (.copyLoop (.modOp h) fun _ _ => .inElem))

/-! ### The expert form (R245, R370 to R372) -/

theorem Sound.claimExpert {id} (h : Sound s) : Sound (s.claimExpert id) := by
  unfold State.claimExpert
  exact .modOp h

theorem Keeps.execCpywExp {o} (h : Sound s) : Keeps (execCpywExp o s) := by
  unfold Machine.execCpywExp
  exact .of_elect
      (fun _ _ h₁ => .issueOr h₁ ⟨.blockStop, .layoutStop, .deniedStop, .alignStop, .barStop, trivial⟩ (fun _ h₂ => h₂)
        fun _ _ h₂ => .ite (.claimExpert h₂) h₂)
      (.elect h)

theorem Keeps.execExpertClaim {id} (h : Sound s) : Keeps (execExpertClaim id s) := by
  unfold Machine.execExpertClaim
  refine .next ?_
  split
  · exact h
  · exact .ite h
        (.ite (.modOp (.freeValue h))
          (.ite (.stopOp (.logMem h))
            (.ite (.modOp (.mergeHome (.checkRead (.ite (.mergePartials h) h)))) (.modOp (.checkRead (.ite (.mergePartials h) h))))))

theorem Keeps.execGrant {id} (h : Sound s) : Keeps (execGrant id s) := by
  unfold Machine.execGrant
  refine .next ?_
  split
  · exact h
  · split
    · exact .ite h (.modOp h)
    · exact h

theorem Keeps.execOverflowReply {id} (h : Sound s) : Keeps (execOverflowReply id s) := by
  unfold Machine.execOverflowReply
  refine .next ?_
  split
  · exact h
  · exact .ite (.claimExpert (.modOp h)) h

theorem Keeps.execFilledAdvance {id row} (h : Sound s) : Keeps (execFilledAdvance id row s) := by
  unfold Machine.execFilledAdvance
  refine .next ?_
  split
  · exact h
  split
  · extract_lets d len pitch off done at' bs marks s₁ s₂ rows filled s₃
    have hdone (t) (ht : Sound t) : Sound (done t) := .ite ht ht
    have h₁ : Sound s₁ := by
      refine .foldl (fun t grp ht => ?_) (.noteScr h)
      dsimp only
      split
      · exact .raisePts (.mergeHome ht)
      · exact .mergeHome ht
    have h₂ : Sound s₂ := .foldl (fun _ _ => .markBad) h₁
    have h₃ : Sound s₃ := .of_eq h₂ rfl rfl
    exact .ite h (.ite (hdone _ h) (.ite (.stopOp (.logMem h)) (hdone _ (.mergeHome h₃))))
  · exact h

theorem Sound.runExpert {id e} (h : Sound s) : Sound (s.runExpert id e) := by
  unfold State.runExpert
  refine .ite h (.finishOp ?_)
  split
  · exact .scrPut h
  · exact h

end Sys2Proof.Machine
end

section
/-! SUPPORT. The functions of Sys2Proof/Machine/Forward.lean keep the invariant. -/

namespace Sys2Proof.Machine

variable {s t : State} {α β : Type}

/-! ### Result records -/

theorem Sound.putScr {wg off bs} (h : Sound s) : Sound (s.putScr wg off bs) := by
  unfold State.putScr
  split
  · exact h
  · exact .scrPut h

theorem Sound.putResult {e off bs} (h : Sound s) : Sound (s.putResult e off bs) := by
  unfold State.putResult
  dsimp only
  split
  · exact .putScr (.putScr h)
  · exact .putScr h

theorem Sound.putWord {e off x} (h : Sound s) : Sound (s.putWord e off x) := by
  unfold State.putWord
  exact .putResult h

/-! ### Results in registers -/

theorem Sound.fillOp {e x poison} (h : Sound s) : Sound (s.fillOp e x poison) := by
  unfold State.fillOp
  split
  · exact .noteFilled (.fillDst h)
  · exact h

theorem Sound.setView {sel wg xs} (h : Sound s) : Sound (s.setView sel wg xs) := by
  unfold State.setView
  exact .modWarp h

theorem Sound.takeResult {e xs} (h : Sound s) : Sound (s.takeResult e xs) := by
  unfold State.takeResult
  exact .ite (.setView (.fillOp h)) (.fillOp h)

theorem Sound.finishPair {id xs} (h : Sound s) : Sound (s.finishPair id xs) := by
  unfold State.finishPair
  split
  · exact h
  · dsimp only
    split
    · exact .finishOp (.takeResult h)
    · split
      · exact .finishOp (.takeResult (.finishOp (.takeResult h)))
      · exact .forwarded (.finishOp (.takeResult h))

/-! ### Issue -/

theorem Sound.issueShared {sel l op final checks locks e eff} (h : Sound s) (hchecks : ChecksSound checks) (heff : ∀ x y, Sound y → Sound (eff x y)) :
    Sound (s.issueShared sel l op final checks locks e eff) := by
  unfold State.issueShared
  split
  next e₁ => exact .halt h (.of_some e₁ (.firstStop (.append ⟨.roomGate h, hchecks⟩ ⟨.ite .commitStop trivial, .issueStall h, trivial⟩)))
  · exact .go (.ite (.noReturn h fun _ h₁ => heff _ _ (.forward (.issueOp h₁))) (heff _ _ (.forward (.issueOp h))))

theorem Sound.issueTrailing {sel l final e mark} (h : Sound s) (hmark : ∀ x, Sound x → Sound (mark x)) :
    Sound (s.issueTrailing sel l final e mark) := by
  unfold State.issueTrailing
  dsimp only
  split
  · exact .halt h trivial
  · split
    next e₁ => exact .halt h (.of_some e₁ (.stallIf h))
    · exact .go (.ite
          (.noReturn h fun _ h₁ => .ite (.finishOp (.takeResult (.issueOp (hmark _ (.takeForward h₁))))) (.issueOp (hmark _ (.takeForward h₁))))
          (.ite (.finishOp (.takeResult (.issueOp (hmark _ (.takeForward h))))) (.issueOp (hmark _ (.takeForward h)))))

end Sys2Proof.Machine
end

section
/-! SUPPORT. The functions of Sys2Proof/Machine/Stream.lean keep the invariant. -/

namespace Sys2Proof.Machine

variable {s t : State} {α β : Type}

/-! ### SOPEN, SSUB and SCLOSE -/

theorem Keeps.execSopen {o} (h : Sound s) : Keeps (execSopen o s) := by
  unfold Machine.execSopen
  refine .of_elect (fun _ _ h₁ => ?_) (.elect h)
  dsimp only
  split
  next e₂ =>
    exact .halt h₁
        (.of_some e₂
          (.firstStop ⟨.blockStop, .layoutStop, .ite trivial .deniedStop, .ite trivial .alignStop, .streamStop, .unitStop h₁, .issueStall h₁,
           trivial⟩))
  · exact .go (.issueOp (.of_eq (.foldl (fun _ _ => .takeLocks) h₁) rfl rfl))

theorem Keeps.execSsub {o} (h : Sound s) : Keeps (execSsub o s) := by
  unfold Machine.execSsub
  exact .of_elect
      (fun _ _ h₁ => .issueOr h₁ ⟨.blockStop, .layoutStop, .deniedStop, .alignStop, .barStop, .streamStop, .unitStop h₁, trivial⟩ (fun _ h₂ => h₂)
        fun _ _ h₂ => h₂)
      (.elect h)

theorem Keeps.execSclose {o} (h : Sound s) : Keeps (execSclose o s) := by
  unfold Machine.execSclose
  exact .of_elect
      (fun _ _ h₁ => .issueOr h₁ ⟨.blockStop, .layoutStop, .barStop, .streamStop, .unitStop h₁, trivial⟩ (fun _ h₂ => h₂) fun _ _ h₂ => h₂) (.elect h)

/-! ### Completion -/

theorem Sound.runSopen {id} (h : Sound s) : Sound (s.runSopen id) := by
  unfold State.runSopen
  exact .finishOp h

theorem Sound.runSsub {id e} (h : Sound s) : Sound (s.runSsub id e) := by
  unfold State.runSsub
  split
  · exact .finishOp h
  · exact .ite (.finishOp h) h

theorem Sound.runSclose {id e} (h : Sound s) : Sound (s.runSclose id e) := by
  unfold State.runSclose
  dsimp only
  split
  · exact .finishOp h
  · exact .ite h (.finishOp (.foldl (fun _ _ => .finishPair) (.dropLocks h)))

/-! ### Distribution (R238) -/

theorem Sound.landWindow {x w m rows} (h : Sound s) : Sound (s.landWindow x w m rows) := by
  unfold State.landWindow
  split
  · exact h
  · exact .foldl (fun _ _ h₁ => .foldl (fun _ _ h₂ => .ite (.scrMark h₂) h₂) (.scrPut h₁)) h

theorem Keeps.execStreamWindowDeliver {die stream} (h : Sound s) : Keeps (execStreamWindowDeliver die stream s) := by
  unfold Machine.execStreamWindowDeliver
  refine .next ?_
  split
  · exact h
  · refine .ite h (.of_eq (.foldl (fun _ _ => .landWindow) ?_) rfl rfl)
    split
    · exact .noteScr h
    · refine .foldl (fun _ _ h₁ => ?_) h
      split
      · exact .noteScr h₁
      · exact h₁

/-! ### The batch-forming queues (R264) -/

theorem Keeps.execBatchDeadline {die job} (h : Sound s) : Keeps (execBatchDeadline die job s) := by
  unfold Machine.execBatchDeadline
  refine .next ?_
  split
  · exact h
  · split
    · exact h
    · exact .ite h h

theorem Keeps.execBfqj {o} (h : Sound s) : Keeps (execBfqj o s) := by
  unfold Machine.execBfqj
  refine .of_elect
      (fun _ _ h₁ => .ite (.issueTrailing h₁ fun _ h₂ => h₂)
        (.issueShared h₁ ⟨.blockStop, .layoutStop, .deniedStop, .alignStop, .barStop, .streamStop, .unitStop h₁, .stallIf h₁, trivial⟩
          fun _ _ h₂ => ?_))
      (.elect h)
  split <;> exact h₂

/-! ### Scatter (R240) -/

theorem Sound.scatterDone {k win m r} (h : Sound s) : Sound (s.scatterDone k win m r) := by
  unfold State.scatterDone
  exact .ite (.arriveAt h) (.finishPair h)

theorem Sound.scatterRow {wg off size xs} (h : Sound s) : Sound (s.scatterRow wg off size xs) := by
  unfold State.scatterRow
  dsimp only
  split
  · split
    · split
      · exact h
      · exact .putOuts h
    · refine .putOuts ?_
      split
      · exact h
      · exact .putOuts h
  · split
    · exact h
    · exact .putOuts h

theorem Keeps.execScatterArrival {id row} (h : Sound s) : Keeps (execScatterArrival id row s) := by
  unfold Machine.execScatterArrival
  refine .next ?_
  split
  · exact h
  · split
    · exact h
    · refine .ite h ?_
      dsimp only
      split
      · split
        · exact .modOp (.scatterDone (.of_eq (.scatterRow h) rfl rfl))
        · exact .modOp h
      · exact .modOp h

end Sys2Proof.Machine
end

section
/-! SUPPORT. The functions of Sys2Proof/Machine/Pool.lean keep the invariant. -/

namespace Sys2Proof.Machine

variable {s t : State} {α β : Type}

/-! ### Pools (R333, R334) -/

theorem Sound.poolTake {vf d fuel} (h : Sound s) : Sound (s.poolTake vf d fuel).2 := by
  induction fuel generalizing s with
  | zero => exact h
  | succ fuel ih =>
    unfold State.poolTake
    split
    · exact h
    · have hgive {die vf bs ds} : Sound ((s.unitWrite die vf bs).unitWrite die vf ds) := .unitWrite (.unitWrite h)
      exact .ite_snd h (.ite_snd h (.ite_snd (.logMem h) (.ite_snd (.logMem h) (.ite_snd (ih hgive) hgive))))

theorem Sound.poolGive {vf page} (h : Sound s) : Sound (s.poolGive vf page) := by
  unfold State.poolGive
  extract_lets d a tail s₁
  have h₁ : Sound s₁ := by
    unfold s₁
    split
    · exact h
    · exact .unitWrite (.unitWrite h)
  exact .ite h h₁

theorem Sound.takePage {vf die} (h : Sound s) : Sound (s.takePage vf die).2 := by
  unfold State.takePage
  exact .ite_snd (.poolTake h) (.freeValue h)

/-! ### Level-0 entries (R334) -/

theorem Sound.writeLeaves {vf va entry} (h : Sound s) : Sound (s.writeLeaves vf va entry) := by
  unfold State.writeLeaves
  split
  · exact h
  · exact .foldl (fun _ _ => .tlbDropVa) (.foldl (fun _ _ => .seqWrite) h)

theorem Sound.mapKv {q i page shared} (h : Sound s) : Sound (s.mapKv q i page shared) := by
  unfold State.mapKv
  exact .writeLeaves h

theorem Sound.unmapKv {q i} (h : Sound s) : Sound (s.unmapKv q i) := by
  unfold State.unmapKv
  exact .writeLeaves h

/-! ### Pages of a sequence -/

theorem Sound.dropRef {vf page shared} (h : Sound s) : Sound (s.dropRef vf page shared) := by
  unfold State.dropRef
  exact .ite (.poolGive h) (.ite (.poolGive (.setPageCount h)) (.setPageCount h))

theorem Sound.freeKv {q i} (h : Sound s) : Sound (s.freeKv q i) := by
  unfold State.freeKv
  refine .dropRef ?_
  split
  · exact .poolGive (.of_eq (.setKv (.unmapKv h)) rfl rfl)
  · exact .of_eq (.setKv (.unmapKv h)) rfl rfl

theorem Sound.copyPage {vf old new} (h : Sound s) : Sound (s.copyPage vf old new) := by
  unfold State.copyPage
  exact .foldl (fun _ _ h₁ => .foldl (fun _ _ => .markBad) (.mergeHome (.checkRead h₁))) h

/-! ### PGAL and PGFR (R188, R189) -/

theorem Sound.pageDone {id e status window} (h : Sound s) : Sound (s.pageDone id e status window) := by
  unfold State.pageDone
  exact .finishPair (.putWord (.putWord h))

theorem Sound.runPgal {id e} (h : Sound s) : Sound (s.runPgal id e) := by
  unfold State.runPgal
  refine .ite (.pageDone h) (.ite (.pageDone h) (.ite (.pageDone h) ?_))
  split
  · exact h
  next e₁ => exact .pageDone (.of_mk e₁ (.takePage h))
  next e₁ => exact .pageDone (.setKv (.mapKv (.of_mk e₁ (.takePage h))))

theorem Sound.runPgfr {id e} (h : Sound s) : Sound (s.runPgfr id e) := by
  unfold State.runPgfr
  refine .ite (.pageDone h) ?_
  dsimp only
  split
  · exact .pageDone (.freeKv h)
  · exact .ite (.pageDone (.setKv h)) (.pageDone (.freeKv h))
  · exact .ite (.pageDone (.setKv h)) (.pageDone (.freeKv h))
  · exact .pageDone h

theorem StopsSound.boundStop {sel l} : StopsSound (s.boundStop sel l) := by
  unfold State.boundStop
  exact .ite trivial (.some trivial)

theorem Sound.issuePage {l op o} (h : Sound s) : Sound (s.issuePage l op o) := by
  unfold State.issuePage
  exact .ite (.issueTrailing h fun _ h₁ => h₁) (.issueShared h ⟨.blockStop, .barStop, .boundStop, .unitStop h, trivial⟩ fun _ _ h₁ => h₁)

theorem Keeps.execPgal {o} (h : Sound s) : Keeps (execPgal o s) := by
  unfold Machine.execPgal
  exact .of_elect (fun _ _ => .issuePage) (.elect h)

theorem Keeps.execPgfr {o} (h : Sound s) : Keeps (execPgfr o s) := by
  unfold Machine.execPgfr
  exact .of_elect (fun _ _ => .issuePage) (.elect h)

/-! ### SEQF (R190) -/

theorem Sound.freeSeq (h : Sound s) : Sound s.freeSeq.2 := h

theorem Sound.addRef {vf page shared} (h : Sound s) : Sound (s.addRef vf page shared) := by
  unfold State.addRef
  exact .setPageCount h

theorem Sound.sharePage {p c i} (h : Sound s) : Sound (s.sharePage p c i) := by
  unfold State.sharePage
  exact .ite (.setKv (.mapKv (.setKv (.mapKv (.addRef h))))) (.setKv h)

theorem Sound.forkSeq {p c salt} (h : Sound s) : Sound (s.forkSeq p c salt) := by
  unfold State.forkSeq
  exact .foldl (fun _ _ => .sharePage)
      (.seqSet (.seqSet (.foldl (fun _ _ => .seqSet)
        (.seqSet (.seqSet (.seqSet (.seqSet (.foldl (fun _ _ => .seqSet) (.foldl (fun _ _ => .seqSet) (.seqWrite h))))))))))

theorem Sound.runSeqf {id e} (h : Sound s) : Sound (s.runSeqf id e) := by
  unfold State.runSeqf
  refine .ite (.finishPair (.putWord (.putWord h))) (.ite (.finishPair (.putWord (.putWord h))) (.ite (.finishPair (.putWord (.putWord h))) ?_))
  split
  next e₁ => exact .finishPair (.putWord (.putWord (.of_mk e₁ (.freeSeq h))))
  next e₁ => exact .finishPair (.putWord (.putWord (.forkSeq (.of_mk e₁ (.freeSeq h)))))

theorem Keeps.execSeqf {o} (h : Sound s) : Keeps (execSeqf o s) := by
  unfold Machine.execSeqf
  exact .of_elect
      (fun _ _ h₁ => .ite (.issueTrailing h₁ fun _ h₂ => h₂) (.issueShared h₁ ⟨.blockStop, .barStop, .unitStop h₁, trivial⟩ fun _ _ h₂ => h₂))
      (.elect h)

/-! ### Copy on write (R269) -/

theorem Sound.cowDone {id w sel} (h : Sound s) : Sound (s.cowDone id w sel) := by
  unfold State.cowDone
  exact .modWarp (.unpark h)

theorem Keeps.execCowResolve {warp} (h : Sound s) : Keeps (execCowResolve warp s) := by
  unfold Machine.execCowResolve
  refine .next ?_
  split
  · refine .ite (.cowDone h) ?_
    split
    · exact h
    next e₁ =>
      have h₁ := Sound.of_mk e₁ (.takePage h)
      exact .ite (.failAsker h₁) (.raiseFault h₁)
    next e₁ => exact .cowDone (.dropRef (.setKv (.mapKv (.copyPage (.of_mk e₁ (.takePage h))))))
  · exact .cowDone h
  · exact h

end Sys2Proof.Machine
end

section
/-! SUPPORT. The functions of Sys2Proof/Machine/Sequence.lean keep the invariant. -/

namespace Sys2Proof.Machine

variable {s t : State} {α β : Type}

/-! ### Checks -/

theorem StopsSound.rankStop {sel l} : StopsSound (s.rankStop sel l) := by
  unfold State.rankStop
  exact .ite trivial (.some trivial)

theorem StopsSound.windowStop {sel l wanted} : StopsSound (s.windowStop sel l wanted) := by
  unfold State.windowStop
  exact .ite trivial (.some trivial)

theorem StopsSound.engineStop {sel l rd wr} (h : Sound s) : StopsSound (s.engineStop sel l rd wr) := by
  unfold State.engineStop
  exact .unitStop h

/-! ### SEQV (R255, R256) -/

theorem Sound.dropDeputies {q} (h : Sound s) : Sound (s.dropDeputies q) := by
  unfold State.dropDeputies
  exact .foldl (fun _ _ h₁ => .ite h₁ (.seqSet h₁)) h

theorem Sound.stepSeq {q} (h : Sound s) : Sound (s.stepSeq q) := by
  unfold State.stepSeq
  exact .ite (.seqSetFlag (.seqSet h)) (.dropDeputies (.seqSetFlag (.seqSet h)))

theorem Sound.runSeqv {id e} (h : Sound s) : Sound (s.runSeqv id e) := by
  unfold State.runSeqv
  exact .finishPair (.ite (.stepSeq h) h)

theorem Keeps.execSeqv {o} (h : Sound s) : Keeps (execSeqv o s) := by
  unfold Machine.execSeqv
  exact .of_elect
      (fun _ _ h₁ => .ite (.issueTrailing h₁ fun _ h₂ => .markEmpty (.ite (.modWarp h₂) h₂))
        (.issueShared h₁
          ⟨.ite (.some trivial) trivial, .ite (.some trivial) trivial, .ite trivial .boundStop, .ite (.some trivial) trivial,
           .ite (.some trivial) trivial, .ite (.some trivial) trivial, .engineStop h₁, trivial⟩
          fun _ _ h₂ => .markEmpty (.ite (.modWarp (.ite (.modWarp h₂) h₂)) (.ite (.modWarp h₂) h₂))))
      (.elect h)

/-! ### SEQW (R257) -/

theorem Keeps.execSeqw {o} (h : Sound s) : Keeps (execSeqw o s) := by
  unfold Machine.execSeqw
  refine .of_elect (fun l t h₁ => ?_) (.elect h)
  dsimp only
  split
  · exact .ite h₁ (.go h₁)
  refine .ite (.issueTrailing h₁ fun _ ht => ht) ?_
  split
  next e =>
    refine .halt h₁ (.of_some e (.firstStop ?_))
    exact ⟨.roomGate h₁, .blockStop, .layoutStop, .barStop, .boundStop, .rankStop, .windowStop, .engineStop h₁, .commitStop, .issueStall h₁,
      trivial⟩
  · refine Sound.ite (.go (.noReturn h₁ ?_)) (.noReturn h₁ ?_) <;>
      exact fun _ ht => .ite (.finishPair (.putWord (.putWord (.forward (.issueOp ht))))) (.holdAt (.forward (.issueOp ht)))

theorem Sound.publishView {id e} (h : Sound s) : Sound (s.publishView id e) := by
  unfold State.publishView
  exact .modOp (.putWord (.putWord (.of_eq
      (.foldl (fun _ _ => .setKv) (.seqSetFlag (.seqSet (.seqSetFlag (.seqSet (.seqSet (.seqSet (.foldl (fun _ _ => .seqSet) h)))))))) rfl rfl)))

theorem Keeps.execSeqwPublish {seq} (h : Sound s) : Keeps (execSeqwPublish seq s) := by
  unfold Machine.execSeqwPublish
  refine .next ?_
  split
  · exact h
  · exact .ite h (.publishView h)

/-! ### Migration (R258) -/

theorem Sound.moveCopied {q i page} (h : Sound s) : Sound (s.moveCopied q i page) := h

theorem Keeps.execMigrationPageCopy {seq page} (h : Sound s) : Keeps (execMigrationPageCopy seq page s) := by
  unfold Machine.execMigrationPageCopy
  refine .next ?_
  split
  · exact h
  · refine .ite h ?_
    dsimp only
    split
    · exact h
    next e₁ =>
      have h₁ := Sound.of_mk e₁ (.takePage h)
      exact .ite h₁ (.raiseFault h₁)
    next e₁ => exact .moveCopied (.copyPage (.of_mk e₁ (.takePage h)))

theorem Sound.switchPage {q x} (h : Sound s) : Sound (s.switchPage q x) := by
  unfold State.switchPage
  exact .dropRef (.setKv (.mapKv h))

theorem Keeps.execMigrationSwitch {seq} (h : Sound s) : Keeps (execMigrationSwitch seq s) := by
  unfold Machine.execMigrationSwitch
  refine .next ?_
  split
  · exact h
  · exact .ite h
        (.finishPair (.ite (.seqSetFlag (.foldl (fun _ _ => .switchPage) h)) (.dropDeputies (.seqSetFlag (.foldl (fun _ _ => .switchPage) h)))))

/-! ### SPWO (R261) -/

theorem Sound.openWindow {q paths tokens cluster launch} (h : Sound s) : Sound (s.openWindow q paths tokens cluster launch) := by
  unfold State.openWindow
  exact .of_eq (.foldl (fun _ _ => .openVersion) (.seqSetFlag (.seqSet (.seqSet (.seqSet (.seqSet h)))))) rfl rfl

theorem Keeps.execSpwo {o} (h : Sound s) : Keeps (execSpwo o s) := by
  unfold Machine.execSpwo
  exact .of_elect
      (fun _ _ h₁ => .ite (.issueTrailing h₁ fun _ h₂ => h₂)
        (.issueShared h₁ ⟨.blockStop, .layoutStop, .barStop, .boundStop, .rankStop, .windowStop, .engineStop h₁, .stallIf h₁, trivial⟩
          fun _ _ h₂ => .ite (.modOp (.seqSet h₂)) (.modOp (.openWindow h₂))))
      (.elect h)

theorem Sound.runSpwo {id e} (h : Sound s) : Sound (s.runSpwo id e) := by
  unfold State.runSpwo
  exact .finishPair (.putWord (.putWord (.putWord (.freeValue (.freeValue h)))))

/-! ### SPWC (R263) -/

theorem Keeps.execSpwc {o} (h : Sound s) : Keeps (execSpwc o s) := by
  unfold Machine.execSpwc
  refine .of_elect (fun l t h₁ => ?_) (.elect h)
  extract_lets sel blk b q a op bad
  refine .ite (.issueTrailing h₁ fun _ ht => ht) (.issueShared h₁ ?_ fun _ _ ht => ht)
  with_reducible exact ⟨.blockStop, .layoutStop, .barStop, .boundStop, .rankStop, .windowStop, .ite .trap .none, .engineStop h₁, .stallIf h₁,
    trivial⟩

theorem Sound.closeWindow {id e} (h : Sound s) : Sound (s.closeWindow id e) := by
  unfold State.closeWindow
  extract_lets q a status lost base per window s₁ s₂ s₃ s₄ target s₅ s₆ s₇
  have h₁ : Sound s₁ := by
    refine .foldl (fun t i ht => ?_) h
    dsimp only
    split
    · exact .ite (.setKv ht) (.freeKv ht)
    · exact .freeKv ht
    · exact ht
  have h₂ : Sound s₂ := .ite h₁ (.seqSet h₁)
  have h₃ : Sound s₃ := .seqSetFlag h₂
  have h₄ : Sound s₄ := .ite (.seqSet h₃) h₃
  have h₅ : Sound s₅ := .ite (.seqSetFlag (.seqSet h₄)) h₄
  have h₆ : Sound s₆ := .of_eq h₅ rfl rfl
  exact .finishPair (.putResult (.putWord (.putWord h₆)))

theorem Sound.runSpwc {id e} (h : Sound s) : Sound (s.runSpwc id e) := by
  unfold State.runSpwc
  exact .ite (.closeWindow (.foldl (fun _ _ => .beginCommit) h)) (.modOp (.foldl (fun _ _ => .beginCommit) h))

theorem Sound.publishWindow {id e} (h : Sound s) : Sound (s.publishWindow id e) := by
  unfold State.publishWindow
  exact .closeWindow (.publish h)

end Sys2Proof.Machine
end

section
/-! SUPPORT. The functions of Sys2Proof/Machine/Sample.lean keep the invariant. -/

namespace Sys2Proof.Machine

variable {s t : State} {α β : Type}

/-! ### ACPT (R268) -/

theorem Keeps.execAcpt {o} (h : Sound s) : Keeps (execAcpt o s) := by
  unfold Machine.execAcpt
  dsimp only
  refine .of_elect (fun _ _ h₁ => .ite ?_ ?_) (.elect h)
  · split
    next e₂ => exact .halt h₁ (.of_some e₂ .forwardGate)
    · refine .go ?_
      split
      · exact .noteFilled (.fillDst (.takeForward h₁))
      · exact .takeForward h₁
  · split
    next e₂ =>
      exact .halt h₁
          (.of_some e₂
            (.firstStop ⟨.roomGate h₁, .blockStop, .layoutStop, .deniedStop, .alignStop, .boundStop, .ite (.some trivial) trivial, .engineStop h₁,
             .issueStall h₁, trivial⟩))
    · refine .go ?_
      split
      · exact .noteFilled (.fillDst (.forward (.ite h₁ (.noteScr (.noteScr h₁)))))
      · exact .forward (.ite h₁ (.noteScr (.noteScr h₁)))

/-! ### Arming (R265) -/

theorem StopsSound.activeStop {sel l q} : StopsSound (s.activeStop sel l q) := by
  unfold State.activeStop
  exact .ite trivial (.some trivial)

theorem Sound.filtersOk {d vf rd wr} (h : Sound s) : Sound (s.filtersOk d vf rd wr).2 := by
  unfold State.filtersOk
  exact .foldl_snd (fun _ _ h₁ => .ite_snd h₁ (.logRefusal h₁)) h

theorem Keeps.execSampArm {o} (h : Sound s) : Keeps (execSampArm o s) := by
  unfold Machine.execSampArm
  refine .of_elect (fun l t h₁ => ?_) (.elect h)
  extract_lets sel blk b q vocab op
  refine .ite (.issueTrailing h₁ fun _ ht => ht) (.issueShared h₁ ?_ fun _ _ ht => ht)
  with_reducible exact ⟨.blockStop, .layoutStop, .alignStop, .barStop, .activeStop, .ite .trap .none, .engineStop h₁, .stallIf h₁, trivial⟩

theorem Sound.runArm {id e} (h : Sound s) : Sound (s.runArm id e) := by
  unfold State.runArm
  dsimp only
  split
  next e₁ => exact .finishPair (.of_mk e₁ (.filtersOk h))
  next e₁ =>
    have h₁ := Sound.of_mk e₁ (.filtersOk h)
    exact .finishPair h₁

/-! ### Landing (R266) -/

theorem Sound.penaltyOf {a die t} (h : Sound s) : Sound (s.penaltyOf a die t).2 := by
  unfold State.penaltyOf
  refine .ite_snd h ?_
  dsimp only
  split
  · exact h
  · exact .freeValue h

theorem Sound.landWord {q a pa va x bad} (h : Sound s) : Sound (s.landWord q a pa va x bad) := by
  unfold State.landWord
  exact .of_eq (.penaltyOf h) rfl rfl

theorem Keeps.execLogitLand {id} (h : Sound s) : Keeps (execLogitLand id s) := by
  unfold Machine.execLogitLand
  refine .next ?_
  split
  · exact h
  · exact .ite h (.foldl (fun _ _ h₁ => .foldl (fun _ _ => .landWord) h₁) h)

/-! ### Reading (R267) -/

theorem Keeps.execSampRead {o} (h : Sound s) : Keeps (execSampRead o s) := by
  unfold Machine.execSampRead
  exact .of_elect
      (fun _ _ h₁ => .ite (.issueTrailing h₁ fun _ h₂ => h₂)
        (.issueShared h₁ ⟨.blockStop, .layoutStop, .deniedStop, .alignStop, .barStop, .activeStop, .engineStop h₁, trivial⟩ fun _ _ h₂ => h₂))
      (.elect h)

theorem Sound.runRead {id e} (h : Sound s) : Sound (s.runRead id e) := by
  unfold State.runRead
  split
  · exact h
  · refine .ite h ?_
    split
    next e₁ => exact .finishPair (.of_mk e₁ (.filtersOk h))
    next e₁ =>
      have h₁ := Sound.of_mk e₁ (.filtersOk h)
      dsimp only
      split
      · exact .finishPair h₁
      · exact .ite (.finishPair h₁) (.finishPair (.of_eq (.ite (.scrMark (.putResult h₁)) (.putResult h₁)) rfl rfl))

end Sys2Proof.Machine
end

section
/-! SUPPORT. The functions of Sys2Proof/Machine/EngineEvents.lean keep the invariant. -/

namespace Sys2Proof.Machine

variable {s t : State} {α β : Type}

theorem Sound.runOp {id part e} (h : Sound s) : Sound (s.runOp id part e) := by
  unfold State.runOp
  split
  · exact .runPgal h
  · exact .runPgfr h
  · exact .runSeqf h
  · exact .runMma h
  · exact .runMmt h
  · exact .runAccmv h
  · exact .runAccz h
  · exact .runSopen h
  · exact .runSsub h
  · exact .runSclose h
  · exact .runVnld h
  · exact .runCpy h
  · exact .runCpyw h
  · exact .runCpyz h
  · exact .runPart h
  · exact .runCpyg h
  · exact .runSpwo h
  · exact .runSpwc h
  · exact .runSeqv h
  · exact .ite (.runRead h) (.runArm h)
  · exact h

theorem Keeps.execEngineArrival {id part} (h : Sound s) : Keeps (execEngineArrival id part s) := by
  unfold Machine.execEngineArrival
  refine .next ?_
  split
  · exact h
  · exact .ite h (.ite (.runExpert h) (.ite h (.runOp h)))

theorem Keeps.execEngineFaultResume {id} (h : Sound s) : Keeps (execEngineFaultResume id s) := by
  unfold Machine.execEngineFaultResume
  refine .next ?_
  split
  · exact h
  · split
    · exact .ite h (.modOp h)
    · exact h

theorem Keeps.execEngineFaultStop {id} (h : Sound s) : Keeps (execEngineFaultStop id s) := by
  unfold Machine.execEngineFaultStop
  refine .next ?_
  split
  · exact h
  · split
    · exact .ite (.closeParts (.endPart (.ite h (.informFault h)))) (.finishPair (.ite h (.informFault h)))
    · exact h

end Sys2Proof.Machine
end

section
/-! SUPPORT. The functions of Sys2Proof/Machine/CacheEvents.lean keep the invariant. -/

namespace Sys2Proof.Machine

variable {s t : State} {α β : Type}

/-! ### Filling a register (R42, R108, R124, R163) -/

theorem Sound.fillAcc {id ld a x poison wts} (h : Sound s) : Sound (s.fillAcc id ld a x poison wts) := by
  unfold State.fillAcc
  extract_lets y
  split
  next y₁ s₁ e =>
  have h₁ : Sound s₁ := .of_mk e (.ite_snd (.inject h) h)
  extract_lets s₂
  have h₂ : Sound s₂ := by
    unfold s₂
    split
    · exact .noteFilled (.fillDst h₁)
    · exact h₁
  exact .cancelAccs (.ite h₂ (.modWarp h₂))

/-! ### What a load finds (R82, R86, R106, R177, R179, R262) -/

theorem Sound.bindAcc {id ld a pa base wts} (h : Sound s) : Sound (s.bindAcc id ld a pa base wts) := by
  unfold State.bindAcc
  refine .ite (.cancelAccs h) ?_
  dsimp only
  split
  · exact .setAcc h
  · exact .ite (.raisePts (.setAcc h)) (.modCluster (.setAcc h))

theorem Sound.loadLeaf {id ld a} (h : Sound s) : Sound (s.loadLeaf id ld a).2 := by
  unfold State.loadLeaf
  split
  · exact h
  · dsimp only
    split
    · exact .askWalk h
    · refine .ite_snd h (.ite_snd (.refuseAcc (.ite (.logMem h) (.informFault (.logMem h)))) ?_)
      split
      · exact .shadowError h
      · exact .findShadow h

theorem Sound.bindHit {id ld a pa} (h : Sound s) : Sound (s.bindHit id ld a pa) := by
  unfold State.bindHit
  exact .ite (.noteReader (.findPlants (.bindAcc h))) (.findPlants (.bindAcc h))

theorem Sound.bindMiss {id ld a t pa} (h : Sound s) : Sound (s.bindMiss id ld a t pa) := by
  unfold State.bindMiss
  extract_lets c at' through s₁
  have h₁ : Sound s₁ := .ite (.noteMiss h) h
  split
  next r s₂ e =>
  have h₂ : Sound s₂ := .of_mk e (.readSector h₁)
  exact .ite (.noteReader (.bindAcc (.ite (.l1Fill h₂) h₂))) (.bindAcc (.ite (.l1Fill h₂) h₂))

theorem Sound.bindStash {id ld a} (h : Sound s) : Sound (s.bindStash id ld a) := by
  unfold State.bindStash
  refine .ite h ?_
  split
  · exact .shadowError h
  · exact .setAcc (.foldl (fun _ _ h₁ => .fillStash (.findShadow h₁)) h)

theorem Keeps.execReadRenew {id lane} (h : Sound s) : Keeps (execReadRenew id lane s) := by
  unfold Machine.execReadRenew
  refine .next ?_
  split
  · exact h
  · split
    · exact .bindStash h
    · split
      next e₁ => exact .of_mk e₁ (.loadLeaf h)
      next e₁ =>
        have h₁ := Sound.of_mk e₁ (.loadLeaf h)
        exact .ite (.l1Out h₁) (.ite h₁ (.ite h₁ (.bindMiss h₁)))
    · exact h

theorem Sound.bindNear {id lane} (h : Sound s) : Sound (s.bindNear id lane) := by
  unfold State.bindNear
  split
  · exact h
  · split
    · exact .ite (.setAcc h) h
    · split
      next e₁ => exact .of_mk e₁ (.loadLeaf h)
      next e₁ =>
        have h₁ := Sound.of_mk e₁ (.loadLeaf h)
        exact .ite (.bindHit h₁) h₁
    · exact h

theorem Keeps.execLoadFill {id lane} (h : Sound s) : Keeps (execLoadFill id lane s) := by
  unfold Machine.execLoadFill
  refine .next ?_
  split
  · exact .bindNear h
  · refine .ite (.bindNear h) ?_
    split
    · exact .fillAcc (.bindNear h)
    · exact .fillAcc (.bindNear h)
    · exact .bindNear h

/-! ### Stores at their homes (R82, R103, R124) -/

theorem Sound.ackFlight {id f} (h : Sound s) : Sound (s.ackFlight id f) := by
  unfold State.ackFlight
  dsimp only
  split
  · exact h
  · exact .ite (.modWarp h) h

theorem Sound.stopSender {id f} (h : Sound s) : Sound (s.stopSender id f) := by
  unfold State.stopSender
  split
  · exact .stopOp h
  · exact h

theorem Sound.mergeWindow {f q number tag} (h : Sound s) : Sound (s.mergeWindow f q number tag) := by
  unfold State.mergeWindow
  dsimp only
  split
  · exact h
  · exact .firePlants h

theorem Sound.writeThrough {bs} (h : Sound s) : Sound (s.writeThrough bs) := .firePlants (.store h)

theorem Sound.mergeStore {id f} (h : Sound s) : Sound (s.mergeStore id f) := by
  unfold State.mergeStore
  exact .of_eq (.ite (.writeThrough (.mergeFlight h)) (.mergeFlight h)) rfl rfl

theorem Keeps.execWriteMerge {id} (h : Sound s) : Keeps (execWriteMerge id s) := by
  unfold Machine.execWriteMerge
  refine .next ?_
  split
  · exact h
  · refine .ite h (.ite (.of_eq (.stopSender (.logMem h)) rfl rfl) ?_)
    split
    · exact .of_eq (.mergeWindow h) rfl rfl
    · exact .mergeStore h

theorem Keeps.execStoreAck {id} (h : Sound s) : Keeps (execStoreAck id s) := by
  unfold Machine.execStoreAck
  refine .next ?_
  split
  · exact h
  · exact .ite h (.ackFlight (.ite h (.raisePts h)))

/-! ### Atomics (R82, R93, R181) -/

theorem Sound.atomReply {f load lane old ph poisoned wts} (h : Sound s) : Sound (s.atomReply f load lane old ph poisoned wts) := by
  unfold State.atomReply
  dsimp only
  split
  · exact .raisePts h
  · refine .setAcc ?_
    split
    · exact .forwarded (.raisePts h)
    · exact .raisePts h

theorem Sound.atomHome {f op ty value compare load lane} (h : Sound s) : Sound (s.atomHome f op ty value compare load lane) := by
  unfold State.atomHome
  dsimp only
  exact .ite (.atomReply (.renewHome (.checkRead (.ite (.mergePartials h) h)))) (.atomReply (.mergeHome (.checkRead (.ite (.mergePartials h) h))))

theorem Keeps.execAtomicAtHome {id} (h : Sound s) : Keeps (execAtomicAtHome id s) := by
  unfold Machine.execAtomicAtHome
  refine .next ?_
  split
  · exact h
  · split
    · exact .ite h (.ite (.ackFlight (.atomReply (.informFault (.logMem h)))) (.ackFlight (.atomHome h)))
    · exact h

/-! ### Reduction pages (R92, R93) -/

theorem Keeps.execReductionContribution {id} (h : Sound s) : Keeps (execReductionContribution id s) := by
  unfold Machine.execReductionContribution
  refine .next ?_
  split
  · exact h
  · split
    · exact .ite h (.ackFlight (.ite (.mergeL2Part h) (.mergeL1Part h)))
    · exact h

theorem Keeps.execReductionMerge {line} (h : Sound s) : Keeps (execReductionMerge line s) := by
  unfold Machine.execReductionMerge
  exact .next (.ite (.mergePartials h) h)

/-! ### Ticks, sweeps and evictions (R66, R76, R82, R84, R285) -/

theorem Sound.sweepStash {wg} (h : Sound s) : Sound (s.sweepStash wg) := by
  unfold State.sweepStash
  split
  · exact h
  · exact .foldl (fun _ _ h₁ => .ite h₁ (.modStash (.flushWindow h₁))) h

theorem Keeps.execPtsTick {c} (h : Sound s) : Keeps (execPtsTick c s) := by
  unfold Machine.execPtsTick
  exact .next (.ite h (.ite (.modCluster h) (.foldl (fun _ _ => .sweepStash) (.sweepL1 (.raisePts (.modCluster (.modCluster h)))))))

theorem Keeps.execL1Evict {cluster line} (h : Sound s) : Keeps (execL1Evict cluster line s) := by
  unfold Machine.execL1Evict
  exact .next (.l1Out h)

theorem Keeps.execAliasEvict {die line} (h : Sound s) : Keeps (execAliasEvict die line s) := by
  unfold Machine.execAliasEvict
  exact .next (.ite (.evictAlias h) h)

/-! ### Commits (R87, R263, R350) -/

theorem Sound.abandonCommit {v x} (h : Sound s) : Sound (s.abandonCommit v x) := by
  unfold State.abandonCommit
  exact .shadowError (.of_eq (.foldl (fun _ _ => .modL2) h) rfl rfl)

theorem Keeps.execCommitPublish {v} (h : Sound s) : Keeps (execCommitPublish v s) := by
  unfold Machine.execCommitPublish
  refine .next ?_
  split
  · exact h
  · refine .ite h ?_
    split
    · exact .ite h (.ite (.abandonCommit h) (.regionPublished (.publish h)))
    · split
      · exact h
      · exact .ite (.closeWindow (.of_eq (.foldl (fun _ _ => .abortVersion) h) rfl rfl)) (.publishWindow h)
    · exact .ite (.abandonCommit h) (.modWg (.publish h))

/-! ### Rollback (R218, R221) -/

theorem Sound.cancelMembers {x} (h : Sound s) : Sound (s.cancelMembers x) := by
  unfold State.cancelMembers
  refine .unparkIfFree (.modWarp (.foldl (fun _ _ h₁ => .cancelAccs (.foldl (fun _ _ h₂ => ?_) h₁)) h))
  split
  · exact .fillDst h₂
  · exact h₂

theorem Sound.dropStashOf {wg rs} (h : Sound s) : Sound (s.dropStashOf wg rs) := by
  unfold State.dropStashOf
  exact .modWg h

theorem Sound.restoreRegion {x} (h : Sound s) : Sound (s.restoreRegion x) := by
  unfold State.restoreRegion
  exact .foldl (fun _ _ => .modFibre)
      (.foldl (fun _ _ h₁ => .ite h₁ (.setK h₁)) (.foldl (fun _ _ h₁ => .ite h₁ (.storeV h₁)) (.foldl (fun _ _ h₁ => .dirtyStash (.scrPut h₁)) h)))

theorem Sound.resumeMembers {x} (h : Sound s) : Sound (s.resumeMembers x) := by
  unfold State.resumeMembers
  exact .foldl (fun _ _ => .modFibre) h

theorem Sound.exhaust {r x fib} (h : Sound s) : Sound (s.exhaust r x fib) := by
  unfold State.exhaust
  dsimp only
  split
  · exact .detect (.foldl (fun _ _ => .modFibre) (.dropRegion h))
  · exact .modWarp (.lateTrap (.foldl (fun _ _ => .modFibre) (.dropRegion h)))

theorem Keeps.execRollback {r} (h : Sound s) : Keeps (execRollback r s) := by
  unfold Machine.execRollback
  refine .next ?_
  split
  · exact h
  split
  · exact h
  extract_lets spent held inner s₁ s₂ s₃ s₄ w
  have h₁ : Sound s₁ := by
    refine .foldl (fun t i ht => ?_) h
    split
    · exact .dropRegion (.abortVersion ht)
    · exact ht
  have h₄ : Sound s₄ := .restoreRegion (.dropStashOf (.cancelMembers (.abortVersion h₁)))
  exact .ite h (.ite h (.ite (.exhaust h₄) (.resumeMembers (by exact h₄))))

end Sys2Proof.Machine
end

section
/-! SUPPORT. The functions of Sys2Proof/Machine/TransEvents.lean keep the invariant. -/

namespace Sys2Proof.Machine

variable {s t : State} {α β : Type}

/-! ### Walks (R325, R326, R328) -/

theorem Sound.askCow {w sel} (h : Sound s) : Sound (s.askCow w sel) := by
  unfold State.askCow
  refine .askWalk ?_
  split
  · exact .modOp h
  · exact .parkWarp h

theorem Sound.walkEnd {w o} (h : Sound s) : Sound (s.walkEnd w o) := by
  unfold State.walkEnd
  refine .ite h ?_
  split
  · exact .foundAsker h
  · exact .faultAsker h
  · split
    · exact .askCow h
    · exact .faultAsker h
  · exact .failAsker h
  · exact .failAsker (.logMem h)

theorem Keeps.execPageWalk {id} (h : Sound s) : Keeps (execPageWalk id s) := by
  unfold Machine.execPageWalk
  refine .next ?_
  split
  · exact h
  · exact .ite h (.foldl (fun _ _ => .walkEnd) (.cachePtrs h))

/-! ### The fault queue (R329 to R331) -/

theorem Keeps.execFaultEntryWrite {vf} (h : Sound s) : Keeps (execFaultEntryWrite vf s) := by
  unfold Machine.execFaultEntryWrite
  refine .next ?_
  split
  · exact h
  · exact .ite h (.ite h (.ite (.of_eq (.unitWrite (.unitWrite h)) rfl rfl) (.of_eq (.unitWrite (.unitWrite h)) rfl rfl)))

theorem Sound.retryAsker {f a} (h : Sound s) : Sound (s.retryAsker f a) := by
  unfold State.retryAsker
  split
  · exact .askWalk h
  · exact .unpark h
  · split
    · exact .askWalk h
    · exact h
  · exact h
  · exact h
  · exact h
  · exact h

theorem Keeps.execPagerResponse {vf entry} (h : Sound s) : Keeps (execPagerResponse vf entry s) := by
  unfold Machine.execPagerResponse
  refine .next ?_
  split
  · exact h
  · exact .ite h (.ite (.foldl (fun _ _ => .retryAsker) h) (.foldl (fun _ _ => .failAsker) h))

end Sys2Proof.Machine
end

section
/-! SUPPORT. The functions of Sys2Proof/Machine/LaunchUnit.lean keep the invariant. -/

namespace Sys2Proof.Machine

variable {s t : State} {α β : Type}

/-! ### Words, queues and completion records (R213, R311, R315) -/

theorem Sound.setQueue {k l} (h : Sound s) : Sound (s.setQueue k l) := h

theorem Sound.enqueue {die queue r} (h : Sound s) : Sound (s.enqueue die queue r) := by
  unfold State.enqueue
  exact .setQueue h

theorem Sound.dequeue {die vf queue i} (h : Sound s) : Sound (s.dequeue die vf queue i) := by
  unfold State.dequeue
  exact .setQueue h

theorem Sound.writeCompletion {die vf base word code retired firstFailed} (h : Sound s) :
    Sound (s.writeCompletion die vf base word code retired firstFailed) := by
  unfold State.writeCompletion
  exact .ite h (.unitWrite h)

/-! ### What a record's issuer learns -/

theorem Sound.answerOp {id word} (h : Sound s) : Sound (s.answerOp id word) := by
  unfold State.answerOp
  split
  · exact h
  extract_lets s₁ s₂ held
  have h₁ : Sound s₁ := .modOp h
  have h₂ : Sound s₂ := by
    unfold s₂
    split
    · exact .forwarded h₁
    · exact h₁
  exact .ite (.dropOp h₂) h₂

theorem Sound.answer {r word} (h : Sound s) : Sound (s.answer r word) := by
  unfold State.answer
  dsimp only
  split
  · exact .answerOp (.ite (.emit h) h)
  · exact .ite (.emit h) h

/-! ### LAUNCH (R212, R213, R355) -/

theorem Sound.launchDst {sel l o word} (h : Sound s) : Sound (s.launchDst sel l o word) := by
  unfold State.launchDst
  exact .writeReg h

theorem Sound.launchRefused {sel l o word} (h : Sound s) : Sound (s.launchRefused sel l o word) := by
  unfold State.launchRefused
  exact .go (.noReturn h fun _ h₁ => .forward (.launchDst h₁))

theorem Sound.launchQueue {sel l queue e rec} (h : Sound s) : Sound (s.launchQueue sel l queue e rec) := by
  unfold State.launchQueue
  exact .noReturn h fun _ h₁ => .holdAt (.enqueue (.forward (.issueOp h₁)))

theorem Sound.launchIssue {sel l o} (h : Sound s) : Sound (s.launchIssue sel l o) := by
  unfold State.launchIssue
  extract_lets blk b pa queue arrives bad die vf c
  split
  next e =>
    refine .halt h (.of_some e (.firstStop ?_))
    with_reducible exact ⟨.roomGate h, .blockStop, .ite .barStop .none, .ite .none (.needAll h), .commitStop, .issueStall h, trivial⟩
  · refine .ite (.launchRefused h) (.ite (.launchRefused h) (.ite (.launchRefused (.logRefusal h)) ?_))
    split
    · exact .launchRefused (.logMem h)
    · exact .launchQueue h

theorem Sound.launchWait {sel l o hold} (h : Sound s) : Sound (s.launchWait sel l o hold) := by
  unfold State.launchWait
  dsimp only
  split
  · exact .go h
  · split
    · exact h
    · exact .go (.ite (.dropOp (.launchDst h)) (.launchDst h))

theorem Sound.launchTrailing {sel l o} (h : Sound s) : Sound (s.launchTrailing sel l o) := by
  unfold State.launchTrailing
  split
  next e₁ => exact .halt h (.of_some e₁ (.firstStop ⟨.forwardGate, .stallIf h, trivial⟩))
  · dsimp only
    split
    · exact h
    · exact .go (.noReturn h
          fun _ h₁ => .ite (.launchDst (.takeForward h₁)) (.ite (.issueOp (.launchDst (.takeForward h₁))) (.arriveAt (.launchDst (.takeForward h₁)))))

theorem Keeps.execLaunch {o} (h : Sound s) : Keeps (execLaunch o s) := by
  unfold Machine.execLaunch
  refine .of_elect (fun _ _ h₁ => .ite (.launchTrailing h₁) ?_) (.elect h)
  split
  · exact .launchWait h₁
  · exact .launchIssue h₁

/-! ### Acceptance (R288, R294, R309 to R311) -/

theorem Sound.refuseRecord {die vf queue i r word} (h : Sound s) : Sound (s.refuseRecord die vf queue i r word) := by
  unfold State.refuseRecord
  exact .answer (.writeCompletion (.dequeue h))

theorem Sound.acceptRecord {die vf queue i r groups sems image} (h : Sound s) : Sound (s.acceptRecord die vf queue i r groups sems image) := by
  unfold State.acceptRecord
  exact .answer h

theorem Keeps.execLaunchAccept {die vf queue} (h : Sound s) : Keeps (execLaunchAccept die vf queue s) := by
  unfold Machine.execLaunchAccept
  refine .next ?_
  split
  · exact h
  · split
    · exact h
    · refine .ite h ?_
      split
      · exact .acceptRecord h
      · refine .refuseRecord ?_
        split
        · exact .logMem h
        · exact h
      · exact .raiseFault (.setQueue h)

/-! ### Priority (R312) -/

theorem Keeps.execPriorityAge {die vf queue} (h : Sound s) : Keeps (execPriorityAge die vf queue s) := by
  unfold Machine.execPriorityAge
  refine .next ?_
  split
  · exact h
  · exact .ite h (.setQueue h)

end Sys2Proof.Machine
end

section
/-! SUPPORT. The functions of Sys2Proof/Machine/Place.lean keep the invariant. -/

namespace Sys2Proof.Machine

variable {s t : State} {α β : Type}

/-! ### Placing one workgroup -/

theorem Sound.putWarp {sel w code} (h : Sound s) : Sound (s.putWarp sel w code) := by
  unfold State.putWarp
  exact .foldl (fun _ _ h₁ => h₁) (.setTrap h)

theorem Sound.putGroups {c wg slots gs} (h : Sound s) : Sound (s.putGroups c wg slots gs) := by
  unfold State.putGroups
  exact .foldl (fun _ _ h₁ => h₁) h

theorem Sound.putBarriers {wg b} (h : Sound s) : Sound (s.putBarriers wg b) := by
  unfold State.putBarriers
  exact .foldl (fun _ _ => .setBarrier) h

theorem Sound.clearWg {g image} (h : Sound s) : Sound (s.clearWg g image) := by
  unfold State.clearWg
  exact .scrPut h

theorem Sound.takeBlocks {c n} (h : Sound s) : Sound (s.takeBlocks c n) := by
  unfold State.takeBlocks
  exact .modCluster h

theorem Sound.settleWg {l no g image} (h : Sound s) : Sound (s.settleWg l no g image) := by
  unfold State.settleWg
  extract_lets b c
  split
  next e =>
    have h₁ := Sound.of_mk e (.ite_snd (.openVersion h) h)
    exact .foldl (fun _ _ => .putWarp) (.clearWg (.putBarriers (.putGroups (.takeBlocks (by exact h₁)))))

theorem Sound.placeOn {l launch lin copy pair c} (h : Sound s) : Sound (s.placeOn l launch lin copy pair c).2 := by
  unfold State.placeOn
  exact .settleWg (.fresh h)

/-! ### Where a workgroup goes (R253, R313, R352) -/

theorem OptSound.placeWg {launch lin} (h : Sound s) : OptSound (s.placeWg launch lin) := by
  unfold State.placeWg
  refine .bind fun l => .map fun cs => ?_
  extract_lets s₁
  have h₁ : Sound s₁ := by
    unfold s₁
    split
    · exact Sound.placeOn (.placeOn (.fresh h))
    · exact .placeOn h
    · exact h
  exact h₁

theorem Sound.placeAway {launch lin} (h : Sound s) : Sound (s.placeAway launch lin) := h

/-! ### Semaphores at placement (R205, R313) -/

theorem Sound.standsAt {launch lin} (h : Sound s) : Sound (s.standsAt launch lin).2 := by
  unfold State.standsAt
  split
  · exact h
  · exact .freeValue h

theorem Sound.writeHandle {launch off handle} (h : Sound s) : Sound (s.writeHandle launch off handle) := by
  unfold State.writeHandle
  exact .foldl (fun _ _ => .scrPutNat) h

theorem OptSound.bindSem {launch vf r} (h : Sound s) : OptSound (s.bindSem launch vf r) := by
  unfold State.bindSem
  exact .ite (.map fun _ => .writeHandle (.of_eq (.standsAt (.standsAt h)) rfl rfl))
      (.some (.writeHandle (.of_eq (.freeValue (.standsAt (.standsAt h))) rfl rfl)))

theorem OptSound.placeWhole {launch l} (h : Sound s) : OptSound (s.placeWhole launch l) := by
  unfold State.placeWhole
  refine .foldl (fun _ _ ho => .andThen ho fun _ => .bindSem) (.foldl (fun _ c ho => .andThen ho fun t ht => ?_) (.some h))
  exact .ite (.some (.placeAway ht)) (.placeWg ht)

/-! ### The launch unit's choice (R312) -/

theorem PairSound.placeHead {die vf queue} (h : Sound s) : PairSound (s.placeHead die vf queue) := by
  unfold State.placeHead
  split
  · trivial
  split
  · trivial
  next id _ l _ =>
  refine .ite trivial (.ite (.map (.ite (.placeWhole h) trivial) fun _ ht => ht) (.bind fun c => .map ?_ fun _ ht => ht))
  exact .ite (.some (.placeAway h)) (.placeWg h)

theorem Sound.noteServed {die vf queue n} (h : Sound s) : Sound (s.noteServed die vf queue n) := by
  unfold State.noteServed
  exact .setQueue (.modDie (fun _ h => h) h)

theorem Sound.popPlaced {die vf queue} (h : Sound s) : Sound (s.popPlaced die vf queue) := by
  unfold State.popPlaced
  split
  · exact h
  · split
    · exact .dequeue h
    · exact .ite (.dequeue h) h

end Sys2Proof.Machine
end

section
/-! SUPPORT. The functions of Sys2Proof/Machine/Retire.lean keep the invariant. -/

namespace Sys2Proof.Machine

variable {s t : State} {α β : Type}

/-! ### Completion (R213, R315, R368) -/

theorem Sound.unbindSems {launch} (h : Sound s) : Sound (s.unbindSems launch) := h

theorem Sound.completeLaunch {launch} (h : Sound s) : Sound (s.completeLaunch launch) := by
  unfold State.completeLaunch
  split
  · exact h
  extract_lets b first word s₁ s₂ s₃ s₄
  have h₂ : Sound s₂ := .of_eq (.writeCompletion h) rfl rfl
  have h₄ : Sound s₄ := .dropOld (.unbindSems (.ite h₂ (.emit h₂)))
  split
  · exact .finishPair h₄
  · exact h₄

theorem Sound.setDoneBit {l lin} (h : Sound s) : Sound (s.setDoneBit l lin) := by
  unfold State.setDoneBit
  exact .ite h (.unitWrite h)

theorem Sound.recordEnd {launch lin cause} (h : Sound s) : Sound (s.recordEnd launch lin cause) := by
  unfold State.recordEnd
  split
  · exact h
  · exact .ite (.completeLaunch (.of_eq (.ite (.setDoneBit h) h) rfl rfl)) (.of_eq (.ite (.setDoneBit h) h) rfl rfl)

/-! ### WORKGROUP_PLACE (R312, R313, R348) -/

theorem Sound.endUnplaced {launch} (h : Sound s) : Sound (s.endUnplaced launch) := by
  unfold State.endUnplaced
  split
  · exact h
  · exact .foldl (fun _ _ => .recordEnd) h

theorem Keeps.execWorkgroupPlace {die vf queue} (h : Sound s) : Keeps (execWorkgroupPlace die vf queue s) := by
  unfold Machine.execWorkgroupPlace
  refine .next ?_
  split
  · exact .endUnplaced (.dequeue h)
  · refine .ite h ?_
    split
    · exact h
    next e => exact .popPlaced (.noteServed (.of_pair e (.placeHead h)))

/-! ### What a workgroup leaves behind -/

theorem Sound.dropVirtual {c} (h : Sound s) : Sound (s.dropVirtual c) := by
  unfold State.dropVirtual
  exact .ite h h

theorem Sound.freeWg {no} (h : Sound s) : Sound (s.freeWg no) := by
  unfold State.freeWg
  split
  · exact h
  · exact .ite (.modCluster h) (.grantBlocks (.dropVirtual (.modCluster h)))

theorem Sound.releaseWg {no} (h : Sound s) : Sound (s.releaseWg no) := by
  unfold State.releaseWg
  split
  · exact h
  · exact .foldl (fun _ _ => .unmapWindow) (.ite (.sendPartials (.releaseAll h)) h)

/-! ### The exit of a redundant pair (R352, R354) -/

theorem Sound.commitExit {ws} (h : Sound s) : Sound (s.commitExit ws) := by
  unfold State.commitExit
  split
  · exact h
  · refine .foldl (fun _ _ => .modWg) (.foldl (fun _ _ h₁ => ?_) ?_)
    · split
      · exact .modWg (.abortVersion h₁)
      · exact h₁
    · split
      · exact .beginCommit h
      · exact h

theorem Sound.exitCheck {pair lead trail} (h : Sound s) : Sound (s.exitCheck pair lead trail) := by
  unfold State.exitCheck
  split
  · exact .ite h (.ite (.commitExit h) (.of_eq (.fresh h) rfl rfl))
  · exact h

/-! ### WORKGROUP_RETIRE (R26) -/

theorem Sound.retireWgs {ws} (h : Sound s) : Sound (s.retireWgs ws) := by
  unfold State.retireWgs
  split
  · exact h
  split
  · exact h
  extract_lets s₁ s₂ s₃
  have h₁ : Sound s₁ := .foldl (fun _ _ => .releaseWg) h
  have h₂ : Sound s₂ := .foldl (fun _ _ => .freeWg) h₁
  have h₃ : Sound s₃ := .ite h₂ (.of_eq h₂ rfl rfl)
  refine .ite h₁ (.ite (.recordEnd h₃) (.ite h₁ ?_))
  split
  · exact .exitCheck h₁
  · exact .commitExit h₁

theorem Keeps.execWorkgroupRetire {wg} (h : Sound s) : Keeps (execWorkgroupRetire wg s) := by
  unfold Machine.execWorkgroupRetire
  exact .next (.ite h (.retireWgs h))

/-! ### CHECKPOINT_COMPARE (R354) -/

theorem Sound.checkPassed {id x lead trail a b} (h : Sound s) : Sound (s.checkPassed id x lead trail a b) := by
  unfold State.checkPassed
  dsimp only
  split
  · exact .foldl (fun _ _ => .settleRegions) (.of_eq (.clearSigs (.clearSigs h)) rfl rfl)
  · exact .of_eq (.clearSigs (.clearSigs h)) rfl rfl
  · exact .commitExit (.of_eq (.clearSigs (.clearSigs h)) rfl rfl)
  · exact .of_eq (.clearSigs (.clearSigs h)) rfl rfl

theorem Sound.endPair {lead no} (h : Sound s) : Sound (s.endPair lead no) := by
  unfold State.endPair
  exact .endWg h

theorem Sound.checkFailed {id x p a b} (h : Sound s) : Sound (s.checkFailed id x p a b) := by
  unfold State.checkFailed
  refine .ite (.foldl (fun _ _ h₁ => .foldl (fun _ _ h₂ => ?_) h₁) h) (.ite (.endPair h) (.lateTrap h))
  split
  · exact .detect h₂
  · exact h₂

theorem Keeps.execCheckpointCompare {id} (h : Sound s) : Keeps (execCheckpointCompare id s) := by
  unfold Machine.execCheckpointCompare
  refine .next ?_
  split
  · exact h
  · split
    · exact h
    · split
      · exact .ite h (.ite h (.ite (.checkPassed h) (.checkFailed h)))
      · exact h

/-! ### WORKGROUP_RELAUNCH (R351, R354) -/

theorem Sound.rebind {l lin c ws} (h : Sound s) : Sound (s.rebind l lin c ws) := by
  unfold State.rebind
  refine .foldl (fun _ _ h₁ => .foldl (fun _ _ h₂ => ?_) h₁) h
  split
  · exact .scrPutNat h₂
  · exact h₂

theorem OptSound.relaunch {ws old l out} (h : Sound s) : OptSound (s.relaunch ws old l out) := by
  unfold State.relaunch
  extract_lets misses s₁ s₂ d n
  have h₁ : Sound s₁ := .foldl (fun _ _ => .freeWg) h
  have h₂ : Sound s₂ := .ite h₁ (.of_eq h₁ rfl rfl)
  refine .ite (.map fun c => .rebind (.modWg (.placeOn h₂))) (.map fun cs => ?_)
  exact .rebind (.modWg (.modWg (by exact Sound.placeOn (.placeOn (.fresh h₂)))))

theorem Sound.failPair {g} (h : Sound s) : Sound (s.failPair g) := by
  unfold State.failPair
  exact .ite h (.emit (.setTrap h))

theorem Keeps.execWorkgroupRelaunch {wg} (h : Sound s) : Keeps (execWorkgroupRelaunch wg s) := by
  unfold Machine.execWorkgroupRelaunch
  refine .next ?_
  split
  · exact h
  · refine .ite h ?_
    split
    · exact h
    · exact .ite (.ite h (.getD (.relaunch h) h)) (.foldl (fun _ _ => .modWg) (.failPair h))

end Sys2Proof.Machine
end

section
/-! SUPPORT. The functions of Sys2Proof/Machine/Preempt.lean keep the invariant. -/

namespace Sys2Proof.Machine

variable {s t : State} {α β : Type}

/-! ### Renaming what a workgroup's warps own -/

theorem Sound.renameWarps {ren} (h : Sound s) : Sound (s.renameWarps ren) := h

/-! ### Moving a workgroup between clusters -/

theorem Sound.moveData {g hold} (h : Sound s) : Sound (s.moveData g hold) := by
  unfold State.moveData
  exact .of_eq (.clearWg (.clearWg h)) rfl rfl

theorem Sound.moveWg {no g hold} (h : Sound s) : Sound (s.moveWg no g hold) := by
  unfold State.moveWg
  extract_lets ren gs locks s₁ s₂
  have h₁ : Sound s₁ := .renameWarps (.moveData h)
  exact .takeLocks (.putGroups (by exact h₁))

/-! ### The stop (R319, steps 1 to 4) -/

theorem Sound.beginStop {no} (h : Sound s) : Sound (s.beginStop no) := by
  unfold State.beginStop
  exact .of_eq (.foldl (fun _ _ => .endIfStopped) (.foldl (fun _ _ => .cancelAccs) (.modWg h))) rfl rfl

/-! ### The frame (R319, step 5) -/

theorem Sound.saveWg {no g} (h : Sound s) : Sound (s.saveWg no g) := by
  unfold State.saveWg
  exact .grantBlocks (.modCluster (.moveWg (.modCluster (.foldl (fun _ _ h₁ => .ite (.raisePts h₁) h₁) h))))

theorem Sound.trySave {no g l} (h : Sound s) : Sound (s.trySave no g l) := by
  unfold State.trySave
  dsimp only
  split
  · exact .raiseFault (.modCluster h)
  · exact .endWg (.modCluster h)
  · exact .saveWg h

theorem Keeps.execPreempt {wg} (h : Sound s) : Keeps (execPreempt wg s) := by
  unfold Machine.execPreempt
  refine .next ?_
  split
  · exact h
  · split
    · exact h
    · refine .ite h ?_
      split
      · exact .beginStop h
      · exact .ite h (.ite (.sendPartials (.releaseAll h)) (.trySave (.sendPartials (.releaseAll h))))
      · exact h

/-! ### RESTORE (R320) -/

theorem Sound.followWg {no c} (h : Sound s) : Sound (s.followWg no c) := h

theorem Sound.requeueBlocks {no c} (h : Sound s) : Sound (s.requeueBlocks no c) := by
  unfold State.requeueBlocks
  exact .foldl (fun _ _ h₁ => .ite h₁ (.modCluster h₁)) h

theorem Sound.restoreWg {no c g b} (h : Sound s) : Sound (s.restoreWg no c g b) := by
  unfold State.restoreWg
  exact .grantBlocks (.foldl (fun _ _ => .returnWaits)
      (.beginSlice (.requeueBlocks (.followWg (.raisePts (.of_eq (.moveWg (.takeBlocks h)) rfl rfl))))))

theorem Keeps.execRestore {wg cluster} (h : Sound s) : Keeps (execRestore wg cluster s) := by
  unfold Machine.execRestore
  refine .next ?_
  split
  · exact h
  · split
    · exact h
    · exact .ite h (.restoreWg h)

/-! ### The time slice (R318, R321) -/

theorem Keeps.execTimeSliceExpiry {c} (h : Sound s) : Keeps (execTimeSliceExpiry c s) := by
  unfold Machine.execTimeSliceExpiry
  exact .next (.ite h (.ite (.beginSlice h) (.ite h (.ite (.beginSlice h) (.foldl (fun _ _ h₁ => .ite (.beginStop h₁) h₁) (.beginSlice h))))))

end Sys2Proof.Machine
end

section
/-! SUPPORT. The functions of Sys2Proof/Machine/Host.lean keep the invariant. -/

namespace Sys2Proof.Machine

variable {s t : State} {α β : Type}

theorem Sound.turnAway {host} (h : Sound s) : Sound (s.turnAway host) := by
  unfold State.turnAway
  exact .emit h

/-! ### Register access (R290, R367, R370) -/

theorem Keeps.execManagementRead {host port space word sel} (h : Sound s) : Keeps (execManagementRead host port space word sel s) := by
  unfold Machine.execManagementRead
  refine .next (.ite h ?_)
  split
  · split
    · exact .ite (.emit h) (.turnAway h)
    · exact .turnAway h
  · exact .ite (.emit h) (.turnAway h)
  · exact .turnAway h

theorem Keeps.execManagementWrite {host port space word sel wide data} (h : Sound s) :
    Keeps (execManagementWrite host port space word sel wide data s) := by
  unfold Machine.execManagementWrite
  refine .next (.ite h ?_)
  split
  · split
    · exact .ite (.of_eq h rfl rfl) (.turnAway h)
    · exact .turnAway h
  · extract_lets old
    exact .ite (.emit (.of_eq h rfl rfl)) (.turnAway h)
  · exact .turnAway h

/-! ### Memory access (R346, R348, R367) -/

theorem Sound.hostMeets {pa n rd} (h : Sound s) : Sound (s.hostMeets pa n rd) := by
  unfold State.hostMeets
  dsimp only
  split
  · exact .foldl (fun _ _ => .fillAlias) (.ite (.checkRead (.ite (.mergePartials h) h)) (.ite (.mergePartials h) h))
  · exact .ite (.checkRead (.ite (.mergePartials h) h)) (.ite (.mergePartials h) h)

theorem Sound.hostRead {o} (h : Sound s) : Sound (s.hostRead o) := by
  unfold State.hostRead
  exact .emit (.foldl (fun _ _ => .hostMeets) h)

theorem Sound.hostMerge {vf bs} (h : Sound s) : Sound (s.hostMerge vf bs).2 := by
  -- The home's merge stands under a variable: the kernel would run it to compare two forms of the match on its outcome.
  obtain ⟨merge, hdef⟩ : ∃ f, f = State.mergeHome := ⟨_, rfl⟩
  have hmerge {t bs sent vf context} (ht : Sound t) : Sound (merge t bs sent vf context).2 := hdef ▸ .mergeHome ht
  unfold State.hostMerge
  rw [← hdef]
  dsimp only
  split
  · exact h
  split
  · exact .modL2 (hmerge (.hostMeets h))
  · exact hmerge (.hostMeets h)

theorem Sound.hostWrite {o} (h : Sound s) : Sound (s.hostWrite o) := by
  unfold State.hostWrite
  exact .ite (.emit (.foldl_snd (fun _ _ => .hostMerge) h)) (.turnAway (.foldl_snd (fun _ _ => .hostMerge) h))

theorem Sound.hostAtomic {o} (h : Sound s) : Sound (s.hostAtomic o) := by
  unfold State.hostAtomic
  exact .ite (.emit (.hostMeets h)) (.ite (.emit (.hostMerge (.hostMeets h))) (.turnAway (.hostMerge (.hostMeets h))))

theorem Keeps.execHostMemoryAccess {o} (h : Sound s) : Keeps (execHostMemoryAccess o s) := by
  unfold Machine.execHostMemoryAccess
  refine .next (.ite h (.ite (.turnAway h) ?_))
  split
  · exact .turnAway (.logRefusal h)
  · refine .ite h ?_
    split
    · exact .hostRead h
    · exact .hostWrite h
    · exact .hostAtomic h

/-! ### Launches (R311, R367) -/

theorem Keeps.execHostLaunchEnqueue {host port die vf queue record} (h : Sound s) :
    Keeps (execHostLaunchEnqueue host port die vf queue record s) := by
  unfold Machine.execHostLaunchEnqueue
  exact .next (.ite h (.ite (.turnAway h) (.ite (.turnAway (.logRefusal h)) (.ite (.emit h) (.ite (.emit (.logRefusal h)) (.enqueue h))))))

end Sys2Proof.Machine
end

section
/-! SUPPORT. The functions of Sys2Proof/Machine/Fabric.lean keep the invariant. -/

namespace Sys2Proof.Machine

variable {s t : State} {α β : Type}

/-! ### Reserved opcodes (R141) -/

theorem Keeps.execReservedOpcode {w} (h : Sound s) : Keeps (execReservedOpcode w s) := by
  unfold Machine.execReservedOpcode
  exact .next (.takeTrap h)

/-! ### Packets that are dropped (R366, R373) -/

theorem Keeps.execPacketDrop {port kind} (h : Sound s) : Keeps (execPacketDrop port kind s) := by
  unfold Machine.execPacketDrop
  exact .next (.ite (.logRefusal h) h)

/-! ### Links (R356, R357, R365) -/

theorem Sound.endPortInjection {port kind} (h : Sound s) : Sound (s.endPortInjection port kind) := by
  unfold State.endPortInjection
  exact .foldl (fun _ _ h₁ => .ite (.disarm (.noteFired h₁)) h₁) h

theorem Sound.flood {pkg link number} (h : Sound s) : Sound (s.flood pkg link number) := by
  unfold State.flood
  exact .foldl (fun _ _ => .emit) h

theorem Sound.announce {link} (h : Sound s) : Sound (s.announce link) := by
  unfold State.announce
  exact .flood h

theorem Sound.beginDrain (h : Sound s) : Sound s.beginDrain := h

theorem Keeps.execLinkDead {port} (h : Sound s) : Keeps (execLinkDead port s) := by
  unfold Machine.execLinkDead
  refine .next ?_
  split
  · exact h
  · exact .ite h (.beginDrain (.announce (.endPortInjection h)))

theorem Keeps.execLinkStateUpdate {port pkg link number} (h : Sound s) : Keeps (execLinkStateUpdate port pkg link number s) := by
  unfold Machine.execLinkStateUpdate
  exact .next (.ite h (.beginDrain (.flood h)))

theorem Keeps.execLinkBeatError {port} (h : Sound s) : Keeps (execLinkBeatError port s) := by
  unfold Machine.execLinkBeatError
  refine .next ?_
  split
  · exact h
  · exact .ite h (.endPortInjection h)

theorem Keeps.execDieToDieLaneLoss {d e} (h : Sound s) : Keeps (execDieToDieLaneLoss d e s) := by
  unfold Machine.execDieToDieLaneLoss
  exact .next (.ite h h)

/-! ### Draining (R358) -/

theorem Keeps.execDrainRound (h : Sound s) : Keeps (execDrainRound s) := by
  unfold Machine.execDrainRound
  refine .next ?_
  split
  · exact h
  · exact .ite h h

theorem Keeps.execUndelivered {id} (h : Sound s) : Keeps (execUndelivered id s) := by
  unfold Machine.execUndelivered
  refine .next ?_
  split
  · exact h
  · exact .ite h h

/-! ### Errors that arise of themselves (R345) -/

theorem Keeps.execStorageError {unit loc bit double} (h : Sound s) : Keeps (execStorageError unit loc bit double s) := by
  unfold Machine.execStorageError
  exact .next (.ite h (.ite (.ite (.setK h) h) (.ite (.spoil h) h)))

end Sys2Proof.Machine
end

section
/-! SUPPORT. The functions of Sys2Proof/Machine/Boot.lean keep the invariant. -/

namespace Sys2Proof.Machine

variable {s t : State} {α β : Type}

/-! ### Power (R374, R379) -/

theorem Sound.powerOff : Sound s.powerOff := ⟨rfl, fun _ => Die.legal_off⟩

theorem Keeps.execPowerGood (h : Sound s) : Keeps (execPowerGood s) := by
  unfold Machine.execPowerGood
  refine .next (.ite h ⟨(Sound.powerOff : Sound s.powerOff).1, Tab.get_of_forall Die.legal_off fun p hp => ?_⟩)
  obtain ⟨d, -, rfl⟩ := List.mem_map.mp hp
  exact Die.legal_bootRom

/-! ### The boot stages (R374, R375) -/

theorem Sound.booted {die stage} (hstage : stage < 7) (h : Sound s) : Sound (s.booted die stage) :=
  .modDie (fun _ ⟨hlo, hhi, _⟩ => ⟨hlo, hhi, hstage⟩) h

theorem Sound.load {die firmware stage run} (hstage : stage < 7) (h : Sound s) (hrun : ∀ t, Sound t → Sound (run t)) :
    Sound (s.load die firmware stage run) := by
  unfold State.load
  split
  · exact .modDie (fun _ h => h) h
  · exact .booted hstage (hrun _ h)

theorem Keeps.execBootStage1 {die} (h : Sound s) : Keeps (execBootStage1 die s) := by
  unfold Machine.execBootStage1
  exact .next (.ite (.load (by decide) h fun _ h => h) h)

theorem Sound.clearHbm {die} (h : Sound s) : Sound (s.clearHbm die) := ⟨State.clearHbm_wf s die h.1, h.2⟩

theorem Keeps.execBootStage2 {die} (h : Sound s) : Keeps (execBootStage2 die s) := by
  unfold Machine.execBootStage2
  exact .next (.ite (.load (by decide) h fun _ => .clearHbm) h)

theorem Sound.clearDie {die} (h : Sound s) : Sound (s.clearDie die) := h

theorem Keeps.execBootStage3 {die} (h : Sound s) : Keeps (execBootStage3 die s) := by
  unfold Machine.execBootStage3
  exact .next (.ite (.booted (by decide) (.clearDie h)) h)

theorem Keeps.execBootStage4 {die} (h : Sound s) : Keeps (execBootStage4 die s) := by
  unfold Machine.execBootStage4
  exact .next (.ite (.load (by decide) h fun _ h => h) h)

theorem Sound.resetRegs {die} (h : Sound s) : Sound (s.resetRegs die) := h

theorem Keeps.execBootStage5 {die} (h : Sound s) : Keeps (execBootStage5 die s) := by
  unfold Machine.execBootStage5
  exact .next (.ite (.booted (by decide) (.resetRegs h)) h)

/-! ### The attestation page (R376, R377) -/

theorem Sound.firmWrite {bs} (h : Sound s) : Sound (s.firmWrite bs) := by
  unfold State.firmWrite
  exact .foldl (fun _ _ => .writeHome) h

theorem Sound.sign (h : Sound s) : Sound s.sign := by
  unfold State.sign
  exact .firmWrite h

theorem Sound.reported (h : Sound s) : Sound s.reported := by
  unfold State.reported
  exact .firmWrite (.firmWrite h)

theorem Sound.measure (h : Sound s) : Sound s.measure := by
  unfold State.measure
  exact .firmWrite (.foldl (fun _ _ => .firmWrite) h)

theorem Keeps.execBootStage6 (h : Sound s) : Keeps (execBootStage6 s) := by
  unfold Machine.execBootStage6
  exact .next (.ite (.foldl (fun _ _ => .booted (by decide)) (.reported (.sign (.measure (.announce h))))) h)

theorem Keeps.execAttestSign (h : Sound s) : Keeps (execAttestSign s) := by
  unfold Machine.execAttestSign
  exact .next (.ite (.reported (.sign h)) h)

/-! ### Power and heat (R378, R379) -/

theorem Keeps.execGovernorSample {die} (h : Sound s) : Keeps (execGovernorSample die s) := by
  unfold Machine.execGovernorSample
  exact .next (.ite h (.foldl (fun _ _ h₁ => .modDie (fun _ h => h) h₁) (.modDie (fun _ h => h) h)))

theorem Keeps.execThermalStep {die lower} (h : Sound s) : Keeps (execThermalStep die lower s) := by
  unfold Machine.execThermalStep
  refine .next (.ite h (.modDie (fun x hx => ?_) h))
  obtain ⟨hlo, hhi, hst⟩ := hx
  refine ⟨?_, ?_, hst⟩ <;> dsimp only <;> split <;> omega

theorem Keeps.execThermalShutdown {die} (h : Sound s) : Keeps (execThermalShutdown die s) := by
  unfold Machine.execThermalShutdown
  exact .next (.ite .powerOff h)

end Sys2Proof.Machine
end

section
/-! SUPPORT. The functions of Sys2Proof/Machine/Flags.lean keep the invariant. -/

namespace Sys2Proof.Machine

variable {s t : State} {α β : Type}

theorem Sound.orFlags {sel mask} (h : Sound s) : Sound (s.orFlags sel mask) := by
  unfold State.orFlags
  exact .ite h (.modWarp h)

theorem Sound.compute {op g d wide srcs f} (h : Sound s) : Sound (s.compute op g d wide srcs f) := by
  unfold State.compute
  exact .vec h fun _ _ h₁ => .orFlags (.writeLanes h₁)

theorem Sound.computePred {op g p srcs f} (h : Sound s) : Sound (s.computePred op g p srcs f) := by
  unfold State.computePred
  exact .vec h fun _ _ h₁ => .orFlags (.foldl (fun _ _ => .modFibre) h₁)

end Sys2Proof.Machine
end

section
/-! SUPPORT. The functions of Sys2Proof/Machine/Int.lean keep the invariant. -/

namespace Sys2Proof.Machine

variable {s t : State} {α β : Type}

/-! ### Types (R136, R146) -/

theorem Sound.int2 {op o f} (h : Sound s) : Sound (s.int2 op o f) := by
  unfold State.int2
  exact .compute h

theorem Keeps.execIadd {o} (h : Sound s) : Keeps (execIadd o s) := by
  unfold Machine.execIadd
  exact .next (.int2 h)

theorem Keeps.execIsub {o} (h : Sound s) : Keeps (execIsub o s) := by
  unfold Machine.execIsub
  exact .next (.int2 h)

theorem Keeps.execImul {o} (h : Sound s) : Keeps (execImul o s) := by
  unfold Machine.execImul
  exact .next (.int2 h)

theorem Keeps.execImulh {o} (h : Sound s) : Keeps (execImulh o s) := by
  unfold Machine.execImulh
  exact .next (.int2 h)

theorem Keeps.execImin {o} (h : Sound s) : Keeps (execImin o s) := by
  unfold Machine.execImin
  exact .next (.int2 h)

theorem Keeps.execImax {o} (h : Sound s) : Keeps (execImax o s) := by
  unfold Machine.execImax
  exact .next (.int2 h)

theorem Keeps.execImad {o} (h : Sound s) : Keeps (execImad o s) := by
  unfold Machine.execImad
  exact .next (.compute h)

theorem Keeps.execIabs {o} (h : Sound s) : Keeps (execIabs o s) := by
  unfold Machine.execIabs
  exact .next (.compute h)

theorem Keeps.execIaddc {o} (h : Sound s) : Keeps (execIaddc o s) := by
  unfold Machine.execIaddc
  exact .next (.compute h)

theorem Keeps.execIsubb {o} (h : Sound s) : Keeps (execIsubb o s) := by
  unfold Machine.execIsubb
  exact .next (.compute h)

/-! ### Logic and shifts (R152) -/

theorem Sound.logic2 {op o f} (h : Sound s) : Sound (s.logic2 op o f) := by
  unfold State.logic2
  exact .compute h

theorem Sound.shift {op o f} (h : Sound s) : Sound (s.shift op o f) := by
  unfold State.shift
  exact .compute h

theorem Keeps.execAnd {o} (h : Sound s) : Keeps (execAnd o s) := by
  unfold Machine.execAnd
  exact .next (.logic2 h)

theorem Keeps.execOr {o} (h : Sound s) : Keeps (execOr o s) := by
  unfold Machine.execOr
  exact .next (.logic2 h)

theorem Keeps.execXor {o} (h : Sound s) : Keeps (execXor o s) := by
  unfold Machine.execXor
  exact .next (.logic2 h)

theorem Keeps.execNot {o} (h : Sound s) : Keeps (execNot o s) := by
  unfold Machine.execNot
  exact .next (.compute h)

theorem Keeps.execShl {o} (h : Sound s) : Keeps (execShl o s) := by
  unfold Machine.execShl
  exact .next (.shift h)

theorem Keeps.execShr {o} (h : Sound s) : Keeps (execShr o s) := by
  unfold Machine.execShr
  exact .next (.shift h)

theorem Keeps.execRotl {o} (h : Sound s) : Keeps (execRotl o s) := by
  unfold Machine.execRotl
  exact .next (.shift h)

theorem Keeps.execPopc {o} (h : Sound s) : Keeps (execPopc o s) := by
  unfold Machine.execPopc
  exact .next (.compute h)

theorem Keeps.execClz {o} (h : Sound s) : Keeps (execClz o s) := by
  unfold Machine.execClz
  exact .next (.compute h)

theorem Keeps.execBrev {o} (h : Sound s) : Keeps (execBrev o s) := by
  unfold Machine.execBrev
  exact .next (.compute h)

/-! ### Bit fields and bytes (R153, R154) -/

theorem Keeps.execBfx {o} (h : Sound s) : Keeps (execBfx o s) := by
  unfold Machine.execBfx
  exact .next (.compute h)

theorem Keeps.execBfi {o} (h : Sound s) : Keeps (execBfi o s) := by
  unfold Machine.execBfi
  exact .next (.compute h)

theorem Keeps.execPrmt {o} (h : Sound s) : Keeps (execPrmt o s) := by
  unfold Machine.execPrmt
  exact .next (.compute h)

/-! ### Comparisons and predicates (R155 to R157) -/

theorem Keeps.execIcmp {o} (h : Sound s) : Keeps (execIcmp o s) := by
  unfold Machine.execIcmp
  exact .next (.computePred h)

theorem Keeps.execPlop {o} (h : Sound s) : Keeps (execPlop o s) := by
  unfold Machine.execPlop
  exact .next (.vec h fun _ _ h₁ => .foldl (fun _ _ => .modFibre) h₁)

theorem Keeps.execSel {o} (h : Sound s) : Keeps (execSel o s) := by
  unfold Machine.execSel
  exact .next (.compute h)

end Sys2Proof.Machine
end

section
/-! SUPPORT. The functions of Sys2Proof/Machine/Float.lean keep the invariant. -/

namespace Sys2Proof.Machine

variable {s t : State} {α β : Type}

/-! ### Arithmetic (R158 to R160) -/

theorem Sound.fp {op g ty d srcs f} (h : Sound s) : Sound (s.fp op g ty d srcs f) := by
  unfold State.fp
  exact .compute h

theorem Keeps.execFadd {o} (h : Sound s) : Keeps (execFadd o s) := by
  unfold Machine.execFadd
  exact .next (.fp h)

theorem Keeps.execFsub {o} (h : Sound s) : Keeps (execFsub o s) := by
  unfold Machine.execFsub
  exact .next (.fp h)

theorem Keeps.execFmul {o} (h : Sound s) : Keeps (execFmul o s) := by
  unfold Machine.execFmul
  exact .next (.fp h)

theorem Keeps.execFfma {o} (h : Sound s) : Keeps (execFfma o s) := by
  unfold Machine.execFfma
  exact .next (.fp h)

theorem Keeps.execFmin {o} (h : Sound s) : Keeps (execFmin o s) := by
  unfold Machine.execFmin
  exact .next (.fp h)

theorem Keeps.execFmax {o} (h : Sound s) : Keeps (execFmax o s) := by
  unfold Machine.execFmax
  exact .next (.fp h)

theorem Keeps.execFabs {o} (h : Sound s) : Keeps (execFabs o s) := by
  unfold Machine.execFabs
  exact .next (.fp h)

theorem Keeps.execFneg {o} (h : Sound s) : Keeps (execFneg o s) := by
  unfold Machine.execFneg
  exact .next (.fp h)

theorem Keeps.execFrcp {o} (h : Sound s) : Keeps (execFrcp o s) := by
  unfold Machine.execFrcp
  exact .next (.fp h)

theorem Keeps.execFrsq {o} (h : Sound s) : Keeps (execFrsq o s) := by
  unfold Machine.execFrsq
  exact .next (.fp h)

theorem Keeps.execFsqrt {o} (h : Sound s) : Keeps (execFsqrt o s) := by
  unfold Machine.execFsqrt
  exact .next (.fp h)

theorem Keeps.execFexp2 {o} (h : Sound s) : Keeps (execFexp2 o s) := by
  unfold Machine.execFexp2
  exact .next (.fp h)

theorem Keeps.execFlog2 {o} (h : Sound s) : Keeps (execFlog2 o s) := by
  unfold Machine.execFlog2
  exact .next (.fp h)

theorem Keeps.execFtanh {o} (h : Sound s) : Keeps (execFtanh o s) := by
  unfold Machine.execFtanh
  exact .next (.fp h)

/-! ### Comparison (R161) -/

theorem Keeps.execFcmp {o} (h : Sound s) : Keeps (execFcmp o s) := by
  unfold Machine.execFcmp
  exact .next (.computePred h)

/-! ### Conversion (R162) -/

theorem Keeps.execCvt {o} (h : Sound s) : Keeps (execCvt o s) := by
  unfold Machine.execCvt
  exact .next (.compute h)

/-! ### Long-latency producers of the vector class (R42) -/

theorem Sound.recordValue {sel accs flags due vecResult} (h : Sound s) : Sound (s.recordValue sel accs flags due vecResult) := by
  unfold State.recordValue
  exact .ite (.modWarp (.of_eq (.fresh h) rfl rfl)) (.of_eq (.fresh h) rfl rfl)

theorem Sound.produce {sel r wide rs flags due} (h : Sound s) : Sound (s.produce sel r wide rs flags due) := by
  unfold State.produce
  exact .ite h (.ite (.recordValue (.foldl (fun _ _ => .markEmpty) h)) (.ite (.recordValue (.writeLanes h)) (.writeLanes h)))

theorem Sound.execCvtbDecode {o} (h : Sound s) : Sound (execCvtbDecode o s) := by
  unfold Machine.execCvtbDecode
  exact .vec h fun _ _ => .produce

theorem Sound.execCvtbEncode {o} (h : Sound s) : Sound (execCvtbEncode o s) := by
  unfold Machine.execCvtbEncode
  exact .vec h fun _ _ => .produce

theorem Keeps.execCvtb {o} (h : Sound s) : Keeps (execCvtb o s) := by
  unfold Machine.execCvtb
  exact .next (.ite (.execCvtbDecode h) (.execCvtbEncode h))

end Sys2Proof.Machine
end

section
/-! SUPPORT. The functions of Sys2Proof/Machine/Move.lean keep the invariant. -/

namespace Sys2Proof.Machine

variable {s t : State} {α β : Type}

/-! ### Moves (R165 to R168) -/

theorem Keeps.execMov {o} (h : Sound s) : Keeps (execMov o s) := by
  unfold Machine.execMov
  exact .next (.compute h)

theorem Keeps.execMovi {o} (h : Sound s) : Keeps (execMovi o s) := by
  unfold Machine.execMovi
  exact .next (.compute h)

theorem Keeps.execMovk {o} (h : Sound s) : Keeps (execMovk o s) := by
  unfold Machine.execMovk
  exact .next (.compute h)

theorem Keeps.execMovs {o} (h : Sound s) : Keeps (execMovs o s) := by
  unfold Machine.execMovs
  exact .ite (.next (.vec h fun _ _ h₁ => .foldl (fun _ _ => .modFibre) h₁)) (.next (.compute h))

/-! ### Cross-lane (R169, R170) -/

theorem Keeps.execShfl {o} (h : Sound s) : Keeps (execShfl o s) := by
  unfold Machine.execShfl
  dsimp only
  split
  · exact .next (.takeTrap h)
  · split
    next e₁ => exact .next (.halt (.noteReads h) (.of_some e₁ .regGate))
    · split
      next e₁ => exact .next (.halt (.noteReads h) (.of_some e₁ .regGateBy))
      · exact .next (.advance (.produce (.noteReads h)))

theorem Keeps.execVote {o} (h : Sound s) : Keeps (execVote o s) := by
  unfold Machine.execVote
  exact .next (.vec h fun _ _ => .produce)

/-! ### Random numbers (R172, R173) -/

theorem Keeps.execRngx {o} (h : Sound s) : Keeps (execRngx o s) := by
  unfold Machine.execRngx
  dsimp only
  split
  · exact .next (.takeTrap h)
  · split
    next e₁ => exact .next (.halt (.noteReads h) (.of_some e₁ .regGate))
    · exact .ite (.next (.takeTrap (.noteReads h))) (.next (.advance (.produce (.noteReads h))))

end Sys2Proof.Machine
end

section
/-! SUPPORT. The functions of Sys2Proof/Machine/Dispatch.lean keep the invariant. -/

namespace Sys2Proof.Machine

variable {s t : State} {α β : Type}

theorem Keeps.exec {i} (h : Sound s) : Keeps (exec i s) := by
  unfold Machine.exec
  split
  · exact .execIadd h
  · exact .execIaddc h
  · exact .execIsub h
  · exact .execIsubb h
  · exact .execImul h
  · exact .execImulh h
  · exact .execImad h
  · exact .execImin h
  · exact .execImax h
  · exact .execIabs h
  · exact .execAnd h
  · exact .execOr h
  · exact .execXor h
  · exact .execNot h
  · exact .execShl h
  · exact .execShr h
  · exact .execRotl h
  · exact .execBfx h
  · exact .execBfi h
  · exact .execPopc h
  · exact .execClz h
  · exact .execBrev h
  · exact .execSel h
  · exact .execPrmt h
  · exact .execIcmp h
  · exact .execPlop h
  · exact .execFadd h
  · exact .execFsub h
  · exact .execFmul h
  · exact .execFfma h
  · exact .execFmin h
  · exact .execFmax h
  · exact .execFabs h
  · exact .execFneg h
  · exact .execFrcp h
  · exact .execFrsq h
  · exact .execFsqrt h
  · exact .execFexp2 h
  · exact .execFlog2 h
  · exact .execFtanh h
  · exact .execFcmp h
  · exact .execCvt h
  · exact .execCvtb h
  · exact .execMov h
  · exact .execMovi h
  · exact .execMovk h
  · exact .execMovs h
  · exact .execShfl h
  · exact .execVote h
  · exact .execRngx h
  · exact .execLaunch h
  · exact .execPgret h
  · exact .execLd h
  · exact .execSt h
  · exact .execStSpw h
  · exact .execLdk h
  · exact .execLds h
  · exact .execSts h
  · exact .execAtom h
  · exact .execAtoms h
  · exact .execRed h
  · exact .execFence h
  · exact .execPref h
  · exact .execSmap h
  · exact .execSflush h
  · exact .execPgal h
  · exact .execPgfr h
  · exact .execSeqf h
  · exact .execMma h
  · exact .execMmt h
  · exact .execAccmv h
  · exact .execAccz h
  · exact .execSopen h
  · exact .execSsub h
  · exact .execSclose h
  · exact .execVnld h
  · exact .execLrdef h
  · exact .execCpy h
  · exact .execCpyw h
  · exact .execCpywExp h
  · exact .execCpyz h
  · exact .execCpym h
  · exact .execCpyg h
  · exact .execBra h
  · exact .execBrx h
  · exact .execCall h
  · exact .execRet h
  · exact .execFork h
  · exact .execQuit h
  · exact .execElect h
  · exact .execBarArrive h
  · exact .execBarWait h
  · exact .execBarSync h
  · exact .execBarTest h
  · exact .execBarx h
  · exact .execSemp h
  · exact .execSemw h
  · exact .execYieldW h
  · exact .execNop h
  · exact .execXacq h
  · exact .execXrel h
  · exact .execAssert h
  · exact .execRgnb h
  · exact .execRgnk h
  · exact .execRgne h
  · exact .execSpwo h
  · exact .execSpwc h
  · exact .execSeqw h
  · exact .execSeqv h
  · exact .execBfqj h
  · exact .execSampArm h
  · exact .execSampRead h
  · exact .execAcpt h
  · exact .execTrap h
  · exact .execSret h
  · exact .execMfsr h
  · exact .execMtsr h
  · exact .execTlbi h
  · exact .execBatchSelect h
  · exact .execClauseStart h
  · exact .execLoadFill h
  · exact .execStoreAck h
  · exact .execReadRenew h
  · exact .execWriteMerge h
  · exact .execAtomicAtHome h
  · exact .execReductionContribution h
  · exact .execReductionMerge h
  · exact .execPtsTick h
  · exact .execL1Evict h
  · exact .execAliasEvict h
  · exact .execCommitPublish h
  · exact .execRollback h
  · exact .execEngineArrival h
  · exact .execEngineFaultResume h
  · exact .execEngineFaultStop h
  · exact .execStreamWindowDeliver h
  · exact .execBatchDeadline h
  · exact .execScatterArrival h
  · exact .execLogitLand h
  · exact .execSeqwPublish h
  · exact .execMigrationPageCopy h
  · exact .execMigrationSwitch h
  · exact .execCowResolve h
  · exact .execPageWalk h
  · exact .execFaultEntryWrite h
  · exact .execPagerResponse h
  · exact .execLaunchAccept h
  · exact .execWorkgroupPlace h
  · exact .execWorkgroupRetire h
  · exact .execPriorityAge h
  · exact .execLocalityDecay h
  · exact .execThrottleExempt h
  · exact .execTimeSliceExpiry h
  · exact .execPreempt h
  · exact .execRestore h
  · exact .execCheckpointCompare h
  · exact .execWorkgroupRelaunch h
  · exact .execDbgHalt h
  · exact .execDbgResume h
  · exact .execDbgStep h
  · exact .execDbgReadRegister h
  · exact .execDbgWriteRegister h
  · exact .execDbgResumeWarp h
  · exact .execTraprecClear h
  · exact .execAcclogClear h
  · exact .execFmtwinEnable h
  · exact .execFmtwinDisable h
  · exact .execErrinjArm h
  · exact .execSysregWrite h
  · exact .execManagementRead h
  · exact .execManagementWrite h
  · exact .execHostMemoryAccess h
  · exact .execHostLaunchEnqueue h
  · exact .execExpertClaim h
  · exact .execGrant h
  · exact .execOverflowReply h
  · exact .execFilledAdvance h
  · exact .execPacketDrop h
  · exact .execLinkDead h
  · exact .execLinkStateUpdate h
  · exact .execDrainRound h
  · exact .execUndelivered h
  · exact .execPowerGood h
  · exact .execBootStage1 h
  · exact .execBootStage2 h
  · exact .execBootStage3 h
  · exact .execBootStage4 h
  · exact .execBootStage5 h
  · exact .execBootStage6 h
  · exact .execAttestSign h
  · exact .execGovernorSample h
  · exact .execThermalStep h
  · exact .execThermalShutdown h
  · exact .execReservedOpcode h
  · exact .execStorageError h
  · exact .execLinkBeatError h
  · exact .execDieToDieLaneLoss h

end Sys2Proof.Machine
end

section
/-! SUPPORT. The functions of Sys2Proof/Machine/Elapse.lean keep the invariant. -/

namespace Sys2Proof.Machine

variable {s t : State} {α β : Type}

theorem Sound.elapse {c n} (h : Sound s) : Sound (s.elapse c n) := by
  unfold State.elapse
  exact .ite (.modCluster h) h

theorem Sound.fabricElapse {n} (h : Sound s) : Sound (s.fabricElapse n) := h

theorem Sound.queueElapse {die n} (h : Sound s) : Sound (s.queueElapse die n) := by
  unfold State.queueElapse
  exact .ite (.modDie (fun _ h => h) h) h

theorem Sound.retireReply {c} (h : Sound s) : Sound (s.retireReply c) := by
  unfold State.retireReply
  split
  · exact h
  · exact .modCluster (.raisePts h)

theorem Sound.evictTlb {unit n} (h : Sound s) : Sound (s.evictTlb unit n) := h

theorem Sound.evictL2 {die line} (h : Sound s) : Sound (s.evictL2 die line) := by
  unfold State.evictL2
  exact .ite (.dropL2 (.checkMem h)) h

end Sys2Proof.Machine
end

section
/-! SUPPORT. The functions of Sys2Proof/Machine/Step.lean keep the invariant. -/

namespace Sys2Proof.Machine

variable {s t : State} {α β : Type}

theorem Keeps.andThen {r f} (hr : Keeps r) (hf : ∀ t, Sound t → Sound (f t)) : Keeps (andThen r f) := by
  cases r with
  | next _ => exact hf _ hr
  | fault _ => trivial
  | refused _ => trivial

theorem Sound.finish {sel} (h : Sound s) (ht : Sound t) : Sound (finish sel s t) := by
  unfold Machine.finish
  split
  · exact .stepDone ht h
  · exact .afterIssue ht

theorem Keeps.issue {sel} (h : Sound s) : Keeps (issue sel s) := by
  unfold Machine.issue
  split
  next e₁ => exact .next (.finish h (.of_stop e₁ (.front h)))
  next e₁ => exact .andThen (.exec (.of_run e₁ (.front h))) fun _ h₂ => .finish h h₂

theorem Keeps.act {x} (h : Sound s) : Keeps (act x s) := by
  unfold Machine.act
  split
  · exact .ite (.issue h) (.next h)
  · exact .ite (.exec h) (.next h)
  · exact .next (.elapse h)
  · exact .next (.fabricElapse h)
  · exact .next (.queueElapse h)
  · exact .next (.retireReply h)
  · exact .next (.evictTlb h)
  · exact .next (.evictL2 h)

theorem Keeps.step (h : Sound s) : Keeps (step s) := by
  unfold Machine.step
  split
  · exact .issue h
  · exact .act h

end Sys2Proof.Machine
end

section
/-! SUPPORT. The settling of O60. -/

namespace Sys2Proof.Claims

open Sys2Proof.Machine

/-- Settles O60: the invariant is kept by every function of the model that makes a state, from the setters of its records up to `step`. -/
theorem stepKeepsInvariant : Obligations.StepKeepsInvariant :=
  fun _ _ hstep hmem hdies => Sound.of_next hstep (.step ⟨hmem, hdies⟩)

end Sys2Proof.Claims
end

section
/-! SUPPORT. The laws of a memory instruction up to its effect, once it has passed its checks (R70, R91, R142), and of the issue of a load (R42). -/

namespace Sys2Proof.Machine

open Sys2Proof.Num (sgn wrap)

/-! ### Steps 2 to 8 of R142 -/

/-- An instruction that has passed its checks goes on with its active lanes. -/
theorem begin_cleared {s : State} {op : Nat} {g : Fin 8} {ops : List Opnd} (h : Cleared s op g ops) (hne : activeLanes s g ≠ []) :
    s.begin op g false ops = .inr (activeLanes s g, s) := by
  have hg := h.gate
  unfold activeLanes at *
  simp [State.begin, h.admitted, noteReads_clean h.plants, hg, hne]

/-- An instruction that acts once per batch goes on with its lowest active lane. -/
theorem begin_clearedOnce {s : State} {op : Nat} {g : Fin 8} {ops : List Opnd} (h : ClearedOnce s op g ops) :
    s.begin op g true ops = .inr ((activeLanes s g).take 1, s) := by
  have hg := h.gate
  have hne := h.some
  unfold activeLanes at *
  simp [State.begin, h.admitted, noteReads_clean h.plants, hg, hne]

/-- An access that nothing holds at issue does not stall as a load. -/
theorem Unheld.loadGoes {s : State} (h : Unheld s) : s.stallIf (s.acquiring s.actor || s.loadsFull s.actor) = none := by
  simp [State.stallIf, h.acquired, h.loads]

/-! ### Addresses (R70, R132) -/

theorem sgn_eq_toInt (w x : Nat) : sgn w x = (BitVec.ofNat w x).toInt := by
  simp only [sgn, BitVec.toInt, BitVec.toNat_ofNat, ← Nat.not_lt, ite_not]

theorem wrap_of_lt {w : Nat} {x : Int} (h0 : 0 ≤ x) (h : x < 2 ^ w) : wrap w x = x.toNat := by
  rw [wrap, Int.emod_eq_of_lt h0 (by exact_mod_cast h)]

/-- The model's effective address is the one that the statements speak of. -/
theorem eaOf_eq_address (s : State) (l : Nat) (o : M) (isGlobal indexed : Bool) :
    s.eaOf s.actor l o isGlobal indexed = address s o isGlobal indexed l := by
  simp [State.eaOf, address, reads, sgn_eq_toInt]

theorem easOf_eq_address (s : State) (lanes : List Nat) (o : M) (isGlobal indexed : Bool) :
    s.easOf s.actor lanes o isGlobal indexed = lanes.map fun l => (l, address s o isGlobal indexed l) := by
  simp only [State.easOf, eaOf_eq_address]

/-- A single register holds 32 bits. -/
theorem peekCells_val_lt (isK : Bool) {cs : List (Nat × Cell)} (h : cs.length ≤ 1) : (peekCells isK cs).val < 2 ^ 32 := by
  match cs, h with
  | [], _ => simp [peekCells, Peek.val]
  | [(k, ⟨st, x, _⟩)], _ =>
    have := x.isLt
    cases st <;> cases isK <;> simp [peekCells, Peek.val] <;> omega

theorem cells_length_le (s : State) (sel l : Nat) (o : Opnd) : (s.cells sel l o).length ≤ o.words := by
  unfold State.cells
  split
  · simp
  · split <;> simp
  · simp

/-- A 32-bit operand reads as a 32-bit value. -/
theorem reads_lt_of_narrow (s : State) (l : Nat) {o : Opnd} (h : o.wide = false) : reads s l o < 2 ^ 32 := by
  have hlen : (s.cells s.actor l o).length ≤ 1 := by simpa [Opnd.words, h] using cells_length_le s s.actor l o
  unfold reads State.peek
  split
  · simp only [h, Bool.false_eq_true, if_false]
    split
    · exact Nat.mod_lt _ (by decide)
    · split
      · exact Nat.mod_lt _ (by decide)
      · simp [Peek.val]
  · exact peekCells_val_lt true hlen
  · exact peekCells_val_lt false hlen

/-- An address from a 32-bit base, a scaled index and a 16-bit offset is far below 2^64. -/
theorem address_lt_of_narrow (s : State) (o : M) (l : Nat) : address s o false true l < 2 ^ 64 := by
  have ha := reads_lt_of_narrow s l (o := mBase o false) rfl
  have hx : (BitVec.ofNat 32 (reads s l (mSecond o false))).toInt < 2 ^ 31 := BitVec.toInt_lt
  have hoff : o.off.toInt < 2 ^ 15 := BitVec.toInt_lt
  have hsh : o.sh.val = 0 ∨ o.sh.val = 1 ∨ o.sh.val = 2 ∨ o.sh.val = 3 := by omega
  have hidx : (BitVec.ofNat 32 (reads s l (mSecond o false))).toInt * 2 ^ o.sh.val < 2 ^ 34 := by
    rcases hsh with e | e | e | e <;> rw [e] <;> omega
  simp only [address, if_true]
  omega

section

variable {s : State} {lanes : List Nat} {o : M} {isGlobal wr : Bool}
  (h : Reached s lanes (address s o isGlobal true) (memSize o.ty) isGlobal wr)

include h

/-- An address inside its space is one of 64 bits. -/
theorem Reached.eaNat_eq {l : Nat} (hl : l ∈ lanes) : eaNat (address s o isGlobal true l) = (address s o isGlobal true l).toNat := by
  obtain ⟨hpos, hend⟩ := h.inside l hl
  refine wrap_of_lt hpos ?_
  cases isGlobal with
  | false => exact address_lt_of_narrow s o l
  | true => simp only [spaceEnd, if_true] at hend; omega

/-- Accesses that lie in their space, aligned and unlocked, pass the address checks of R175. -/
theorem Reached.addressStop_none : s.addressStop s.actor (s.easOf s.actor lanes o isGlobal true) (memSize o.ty) isGlobal wr = none := by
  have hden : eaDenied (s.easOf s.actor lanes o isGlobal true) (memSize o.ty) (if isGlobal then globalEnd else (s.wgOf s.actor).alloc) = none := by
    have hin := h.inside
    simp only [spaceEnd] at hin
    simp only [eaDenied, easOf_eq_address, Option.map_eq_none_iff, List.find?_eq_none, List.forall_mem_map, globalEnd]
    intro l hl
    simpa [Int.not_lt] using hin l hl
  have hmis : eaMisaligned (s.easOf s.actor lanes o isGlobal true) (memSize o.ty) = none := by
    simpa [eaMisaligned, easOf_eq_address] using h.aligned
  have hlock : s.eaLocked s.actor (s.easOf s.actor lanes o isGlobal true) (memSize o.ty) isGlobal wr = none := by
    simp only [State.eaLocked, easOf_eq_address, List.findSome?_eq_none_iff, List.forall_mem_map, Option.map_eq_none_iff]
    intro l hl
    rw [h.eaNat_eq hl]
    exact h.free l hl
  simp only [State.addressStop, firstStop, hden, hmis, hlock]

end

/-! ### The floors of the operands (R108) -/

/-- Raising the floors changes the clusters alone. -/
theorem raiseFloors_clusters (sel : Nat) (lanes : List Nat) (ops : List Opnd) : ∀ s : State,
    ∃ c, s.raiseFloors sel lanes ops = { s with clusters := c } := by
  unfold State.raiseFloors
  induction lanes with
  | nil => exact fun s => ⟨s.clusters, rfl⟩
  | cons l ls ih =>
    intro s
    rw [List.foldl_cons]
    split
    next t _ =>
      obtain ⟨c, e⟩ := ih (s.raisePts (clusterOf sel) t)
      exact ⟨c, e⟩
    next => exact ih s

/-! ### Destinations that go empty (R42) -/

/-- What a destination of a long-latency producer holds until it fills. -/
def Cell.emptied : Cell := ⟨.empty, 0, none⟩

/-- The keys of the registers that a lane's destination names. -/
abbrev State.dstKeys (s : State) (sel lane : Nat) (d : Reg) (wide : Bool) : List Nat := (s.cells sel lane (dstOpnd d wide)).map Prod.fst

theorem dstKeys_congr {s t : State} (h : t.fibres = s.fibres) (sel l : Nat) (d : Reg) (wide : Bool) : t.dstKeys sel l d wide = s.dstKeys sel l d wide := by
  cases d with
  | v n => simp only [State.dstKeys, State.cells, dstOpnd, h]; split <;> simp
  | k n => simp [State.dstKeys, State.cells, dstOpnd]
  | sp n => rfl

/-- Every lane's destination in k registers is the warp's. -/
theorem dstKeys_of_isK {d : Reg} (hd : d.isK = true) (s : State) (sel l l' : Nat) (wide : Bool) : s.dstKeys sel l d wide = s.dstKeys sel l' d wide := by
  cases d with
  | k n => rfl
  | v n => cases hd
  | sp n => cases hd

/-- Raising floors leaves the destinations where they were. -/
theorem dstOf_raiseFloors (s : State) (sel : Nat) (lanes : List Nat) (ops : List Opnd) (l : Nat) (d : Reg) (wide : Bool) :
    (s.raiseFloors sel lanes ops).dstOf sel l d wide = s.dstOf sel l d wide := by
  obtain ⟨c, e⟩ := raiseFloors_clusters sel lanes ops s
  rw [e]
  rfl

/-- Marking a register empty changes registers alone. -/
theorem markEmpty_registers (s : State) (sel l : Nat) {d : Reg} (hd : d.isVK = true) (wide : Bool) :
    ∃ v k, s.markEmpty sel l d wide = { s with vRegs := v, kRegs := k } := by
  cases d with
  | v n =>
    cases hf : s.fibres.look (fibreKey sel l) <;> cases wide <;> simp [State.markEmpty, State.writeWord, State.storeV, hf] <;> exact ⟨_, _, rfl⟩
  | k n =>
    cases wide <;> simp only [State.markEmpty, State.writeWord] <;> repeat' split
    all_goals exact ⟨_, _, rfl⟩
  | sp n => cases hd

theorem vCell_markEmpty (s : State) (sel l : Nat) (d : Reg) (wide : Bool) (key : Nat) :
    (s.markEmpty sel l d wide).vCell key = if d.isV = true ∧ key ∈ s.dstKeys sel l d wide then Cell.emptied else s.vCell key := by
  cases d with
  | v n =>
    cases hf : s.fibres.look (fibreKey sel l) with
    | none => cases wide <;> simp [State.markEmpty, State.writeWord, State.cells, dstOpnd, Opnd.lane, hf]
    | some f =>
      cases wide <;>
        simp [State.markEmpty, State.writeWord, State.storeV, State.cells, dstOpnd, Opnd.lane, Opnd.words, List.range_succ, hf, State.vCell_setV,
          Reg.isV, Cell.emptied, eq_comm (a := key)]
      grind
  | k n => cases wide <;> simp only [State.markEmpty, State.writeWord, Reg.isV] <;> grind [State.vCell, State.setK]
  | sp n => cases wide <;> simp only [State.markEmpty, State.writeWord, Reg.isV] <;> grind [State.vCell, State.modWarp]

/-- A k register after a write of one of the warp's; a write of k0 is discarded (R36). -/
theorem kCell_writeWord (s : State) (sel l : Nat) (n : Fin 64) (i : Nat) (c : Cell) (key : Nat) :
    (s.writeWord sel l (.k n) i c).kCell key = if key = kKey sel (n + i) ∧ key ≠ kKey sel 0 then c else s.kCell key := by
  have hkey : n.val + i = 0 ↔ kKey sel (n + i) = kKey sel 0 := ⟨fun e => by rw [e], fun e => kKey_inj sel _ _ e⟩
  unfold State.writeWord
  dsimp only
  split
  next h => rw [if_neg fun e => e.2 (e.1.trans (hkey.mp h))]
  next h =>
    rw [State.kCell_setK]
    have hiff : key = kKey sel (n + i) ↔ key = kKey sel (n + i) ∧ key ≠ kKey sel 0 :=
      ⟨fun e => ⟨e, fun e' => h (hkey.mpr (e.symm.trans e'))⟩, And.left⟩
    simp only [← hiff]

theorem kCell_markEmpty (s : State) (sel l : Nat) (d : Reg) (wide : Bool) (key : Nat) :
    (s.markEmpty sel l d wide).kCell key =
      if d.isK = true ∧ key ∈ s.dstKeys sel l d wide ∧ key ≠ kKey sel 0 then Cell.emptied else s.kCell key := by
  cases d with
  | v n =>
    cases hf : s.fibres.look (fibreKey sel l) <;> cases wide <;> simp [State.markEmpty, State.writeWord, State.storeV, Reg.isK, hf] <;> rfl
  | k n =>
    cases wide <;>
      simp [State.markEmpty, kCell_writeWord, State.cells, dstOpnd, Opnd.words, List.range_succ, Reg.isK, Cell.emptied] <;> grind
  | sp n => cases wide <;> simp only [State.markEmpty, State.writeWord, Reg.isK] <;> grind [State.kCell, State.modWarp]

/-- Marking the destinations of several lanes empty changes registers alone. -/
theorem markLanes_registers (sel : Nat) {d : Reg} (hd : d.isVK = true) (wide : Bool) (lanes : List Nat) : ∀ s : State,
    ∃ v k, lanes.foldl (fun s l => s.markEmpty sel l d wide) s = { s with vRegs := v, kRegs := k } := by
  induction lanes with
  | nil => exact fun s => ⟨s.vRegs, s.kRegs, rfl⟩
  | cons l ls ih =>
    intro s
    obtain ⟨v, k, e⟩ := markEmpty_registers s sel l hd wide
    obtain ⟨v', k', e'⟩ := ih { s with vRegs := v, kRegs := k }
    exact ⟨v', k', by rw [List.foldl_cons, e, e']⟩

theorem dstKeys_markEmpty (s : State) (sel l : Nat) {d : Reg} (hd : d.isVK = true) (wide : Bool) (l' : Nat) :
    (s.markEmpty sel l d wide).dstKeys sel l' d wide = s.dstKeys sel l' d wide := by
  obtain ⟨v, k, e⟩ := markEmpty_registers s sel l hd wide
  exact dstKeys_congr (by rw [e]) ..

/-- Two tests that choose the same value are one. -/
theorem ite_ite_of_or {α : Type} (c x : α) {p q r : Prop} [Decidable p] [Decidable q] [Decidable r] (h : r ↔ p ∨ q) :
    (if p then c else if q then c else x) = if r then c else x := by
  by_cases hp : p
  · rw [if_pos hp, if_pos (h.mpr (.inl hp))]
  · by_cases hq : q
    · rw [if_neg hp, if_pos hq, if_pos (h.mpr (.inr hq))]
    · rw [if_neg hp, if_neg hq, if_neg fun hr => (h.mp hr).elim hp hq]

/-- The v registers after the destinations of several lanes have gone empty. -/
theorem vCell_markLanes (sel : Nat) {d : Reg} (hd : d.isVK = true) (wide : Bool) (key : Nat) (lanes : List Nat) : ∀ s : State,
    (lanes.foldl (fun s l => s.markEmpty sel l d wide) s).vCell key =
      if d.isV = true ∧ key ∈ (lanes.flatMap fun l => s.dstKeys sel l d wide) then Cell.emptied else s.vCell key := by
  induction lanes with
  | nil => intro s; simp
  | cons l ls ih =>
    intro s
    simp only [List.foldl_cons, ih, vCell_markEmpty, dstKeys_markEmpty s sel l hd wide, List.flatMap_cons, List.mem_append]
    exact ite_ite_of_or _ _ (by rw [and_or_left, or_comm])

/-- The k registers after the destinations of several lanes have gone empty; k0 stays (R36). -/
theorem kCell_markLanes (sel : Nat) {d : Reg} (hd : d.isVK = true) (wide : Bool) (key : Nat) (lanes : List Nat) : ∀ s : State,
    (lanes.foldl (fun s l => s.markEmpty sel l d wide) s).kCell key =
      if d.isK = true ∧ key ∈ (lanes.flatMap fun l => s.dstKeys sel l d wide) ∧ key ≠ kKey sel 0 then Cell.emptied else s.kCell key := by
  induction lanes with
  | nil => intro s; simp
  | cons l ls ih =>
    intro s
    simp only [List.foldl_cons, ih, kCell_markEmpty, dstKeys_markEmpty s sel l hd wide, List.flatMap_cons, List.mem_append]
    exact ite_ite_of_or _ _ (by rw [or_and_right, and_or_left, or_comm])

/-! ### The issue of a load (R42, R124) -/

/-- What an instruction's end keeps, after an effect that keeps fibres and clusters, and warps but for what a function erases. -/
theorem EndOnly.contextsKept {s u t : State} (h : EndOnly u t) {fw : Nat → Warp → Warp} (hf : u.fibres = s.fibres)
    (hw : ∀ n, (u.warps.look n).map (fun w => fw n w.still) = (s.warps.look n).map fun w => fw n w.still) (hc : u.clusters = s.clusters) :
    ContextsKept s t whole fw := by
  refine ⟨fun n => hf ▸ h.fibres n, fun n => ?_, fun c => ?_⟩
  · have e := congrArg (Option.map (fw n)) (h.warps n)
    simp only [Option.map_map] at e
    exact e.trans (hw n)
  · simpa only [State.cluster, hc] using h.clusters c

/-- The record of a load of the acting warp as it is issued. -/
def loadRecord (s : State) (o : M) (kind : LKind) (lanes : List Nat) (ea : Nat → Int) (phase : Nat → LPhase) : Load :=
  ⟨s.actor, kind, lanes.map (loadLane o ea phase fun l => s.dstOf s.actor l o.d o.ty.wide), o.ord.val, decide (o.ord.val = 1), 1, 0, false,
    ((s.warps.look s.actor).map Warp.tag).getD 0⟩

/-- The state in which a load's destinations are empty, before its record. -/
def State.loadMarked (s : State) (o : M) (lanes : List Nat) (ops : List Opnd) : State :=
  lanes.foldl (fun t l => t.markEmpty s.actor l o.d o.ty.wide) (s.raiseFloors s.actor lanes ops)

/-- The state in which a load is recorded and counted, before the batch goes on. -/
def State.loadRecorded (s : State) (o : M) (lanes : List Nat) (ops : List Opnd) (ld : Load) : State :=
  ((s.loadMarked o lanes ops).issueLoad ld.warp ld.kind ld.accs ld.ord ld.acquire).2

section

variable (s : State) {o : M} (hd : o.d.isVK = true) (lanes : List Nat) (ops : List Opnd)

include hd

theorem vCell_loadMarked (key : Nat) : (s.loadMarked o lanes ops).vCell key =
    if o.d.isV = true ∧ key ∈ (lanes.flatMap fun l => s.dstKeys s.actor l o.d o.ty.wide) then Cell.emptied else s.vCell key := by
  obtain ⟨c, e⟩ := raiseFloors_clusters s.actor lanes ops s
  rw [State.loadMarked, vCell_markLanes s.actor hd, e]
  rfl

theorem kCell_loadMarked (key : Nat) : (s.loadMarked o lanes ops).kCell key =
    if o.d.isK = true ∧ key ∈ (lanes.flatMap fun l => s.dstKeys s.actor l o.d o.ty.wide) ∧ key ≠ kKey s.actor 0 then Cell.emptied else s.kCell key := by
  obtain ⟨c, e⟩ := raiseFloors_clusters s.actor lanes ops s
  rw [State.loadMarked, kCell_markLanes s.actor hd, e]
  rfl

/-- The registers that a load names as its destination are empty (R42). -/
theorem loadMarked_empty : ∀ l ∈ lanes, ∀ key ∈ s.dstKeys s.actor l o.d o.ty.wide,
    (o.d.isV = true → ((s.loadMarked o lanes ops).vCell key).st = .empty) ∧
      (o.d.isK = true → key % 64 ≠ 0 → ((s.loadMarked o lanes ops).kCell key).st = .empty) := by
  intro l hl key hkey
  constructor
  · intro hv
    rw [vCell_loadMarked s hd, if_pos ⟨hv, List.mem_flatMap.mpr ⟨l, hl, hkey⟩⟩]
    rfl
  · intro hk h0
    have hne : key ≠ kKey s.actor 0 := by rintro rfl; simp [kKey] at h0
    rw [kCell_loadMarked s hd, if_pos ⟨hk, List.mem_flatMap.mpr ⟨l, hl, hkey⟩, hne⟩]
    rfl

/-- Every other register is as it was. -/
theorem loadMarked_regsKept : RegsKept s (s.loadMarked o lanes ops) o.d o.ty.wide lanes := by
  constructor
  · intro key hkey
    rw [vCell_loadMarked s hd, if_neg]
    rintro ⟨hv, h⟩
    obtain ⟨l, hl, h⟩ := List.mem_flatMap.mp h
    exact hkey hv l hl h
  · intro key hkey
    rw [kCell_loadMarked s hd, if_neg]
    rintro ⟨hk, h, _⟩
    obtain ⟨l, -, h⟩ := List.mem_flatMap.mp h
    rw [dstKeys_of_isK hk s s.actor l 0] at h
    exact hkey hk h

/-- What the issue of a load changes, field by field. -/
theorem loadRecorded_eq (kind : LKind) (ea : Nat → Int) (phase : Nat → LPhase) :
    s.loadRecorded o lanes ops (loadRecord s o kind lanes ea phase) =
      { s with
        vRegs := (s.loadMarked o lanes ops).vRegs
        kRegs := (s.loadMarked o lanes ops).kRegs
        clusters := (s.raiseFloors s.actor lanes ops).clusters
        loads := s.loads.put s.nextId (loadRecord s o kind lanes ea phase)
        nextId := s.nextId + 1
        warps := s.warps.modify s.actor fun w => { w with loads := w.loads + 1 } } := by
  obtain ⟨c, ec⟩ := raiseFloors_clusters s.actor lanes ops s
  obtain ⟨v, k, e⟩ := markLanes_registers s.actor hd o.ty.wide lanes { s with clusters := c }
  unfold State.loadRecorded State.loadMarked
  rw [ec, e]
  rfl

/-- A load that has passed its checks has been issued, and nothing else has changed. -/
theorem loadRecorded_issued {op : Nat} (ha : Admitted s op) (kind : LKind) (ea : Nat → Int) (phase : Nat → LPhase) :
    let t := (s.loadRecorded o lanes ops (loadRecord s o kind lanes ea phase)).go
    LoadIssued s t o lanes ops (loadRecord s o kind lanes ea phase) ∧
      t = { s with
        vRegs := t.vRegs, kRegs := t.kRegs, fibres := t.fibres, warps := t.warps, clusters := t.clusters, loads := t.loads, nextId := t.nextId } := by
  intro t
  obtain ⟨w, hw⟩ := Option.isSome_iff_exists.mp ha.warp
  obtain ⟨c, hc⟩ := raiseFloors_clusters s.actor lanes ops s
  have hu := loadRecorded_eq s hd lanes ops kind ea phase
  generalize hug : s.loadRecorded o lanes ops (loadRecord s o kind lanes ea phase) = u at hu
  have hactor : u.actor = s.actor := by rw [hu]
  have hwarps : u.warps = s.warps.modify s.actor fun w => { w with loads := w.loads + 1 } := by rw [hu]
  have hbatch : u.batchLanes s.actor = s.batchLanes s.actor := by
    simp [State.batchLanes, hwarps, hw]
  have ht : t = u.advance s.actor (s.batchLanes s.actor) := by
    show State.go _ = _
    rw [hug, State.go, hactor, hbatch]
  have hend := endOnly_advance u s.actor (s.batchLanes s.actor)
  rw [← ht] at hend
  have hloads : t.loads = s.loads.put s.nextId (loadRecord s o kind lanes ea phase) := by rw [hend.only, hu]
  have hfib : u.fibres = s.fibres := by rw [hu]
  have hregs : t.vCell = (s.loadMarked o lanes ops).vCell ∧ t.kCell = (s.loadMarked o lanes ops).kCell := by
    constructor <;> funext key
    · simp only [State.vCell]; rw [hend.only, hu]
    · simp only [State.kCell]; rw [hend.only, hu]
  refine ⟨⟨?record, ?others, ?counted, ?empty, ?moved, ?registers, ?contexts⟩, ?rest⟩
  case record => rw [hloads, Tab.look_put_same]
  case others => intro id hid; rw [hloads, Tab.look_put_ne _ _ hid]
  case counted =>
    have e := congrArg (Option.map Warp.loads) (hend.warps s.actor)
    simpa [Option.map_map, Function.comp_def, Warp.still, hwarps, hw] using e
  case empty => intro _; rw [hregs.1, hregs.2]; exact loadMarked_empty s hd lanes ops
  case moved =>
    intro l hl
    rw [ht, advanced_advance u s.actor _ ha.batch.1 l hl, hfib]
  case registers =>
    have := loadMarked_regsKept s hd lanes ops
    unfold RegsKept at *
    rwa [hregs.1, hregs.2]
  case contexts =>
    refine hend.contextsKept (by rw [hfib, hc]) (fun n => ?_) (by rw [hu])
    rw [hc, hwarps, Tab.look_modify]
    split
    · subst n; simp [hw, Warp.still]
    · rfl
  case rest => rw [hend.only, hu]

end

/-! ### LD, LDK and LDS (R75, R177) -/

/-- LD and LDS load into a v register, LDK into a k register. -/
theorem isVK_of_ld {o : M} (h : (Instr.ld o).wellFormed = true) : o.d.isVK = true := by
  simp only [Instr.wellFormed, Bool.and_eq_true] at h
  simp [Reg.isVK, h.1.2]

theorem isVK_of_lds {o : M} (h : (Instr.lds o).wellFormed = true) : o.d.isVK = true := by
  simp only [Instr.wellFormed, Bool.and_eq_true] at h
  simp [Reg.isVK, h.1.2]

theorem isVK_of_ldk {o : M} (h : (Instr.ldk o).wellFormed = true) : o.d.isVK = true := by
  simp only [Instr.wellFormed, Bool.and_eq_true] at h
  obtain ⟨⟨-, hd⟩, -⟩ := h
  cases e : o.d with
  | v n => rfl
  | k n => rfl
  | sp n => rw [e] at hd; cases hd

/-- Where no stash window lies, an access needs no sector (R75). -/
theorem stashNeeds_nil (s : State) {g : Wg} (h : g.stash = []) (regions : List Nat) (off n : Nat) : s.stashNeeds g regions off n = [] := by
  have hnone : ∀ i, g.stashAt i = none := fun i => by rw [Wg.stashAt, h, List.find?_nil]
  unfold State.stashNeeds
  rw [List.filterMap_eq_nil_iff.mpr fun i _ => by rw [hnone, Option.bind_none], List.eraseDups_nil]

/-- Without planted errors, reads of the scratchpad find none. -/
theorem foldl_noteScr_clean {s : State} (h : s.plants = []) (g : Wg) (n : Nat) (eas : List Ea) :
    eas.foldl (fun (s : State) (p : Nat × Int) => s.noteScr g (eaNat p.2) n) s = s := by
  induction eas with
  | nil => rfl
  | cons p ps ih =>
    have e : s.noteScr g (eaNat p.2) n = s := by simp [State.noteScr, h]
    rw [List.foldl_cons, e, ih]

section

variable {s : State} {o : M} {lanes : List Nat} (hu : Unheld s)

include hu

/-- A global load of lanes that pass the checks of R175 is recorded, and its batch goes on. -/
theorem loadGlobal_reached (h : Reached s lanes (address s o true true) (memSize o.ty) true false) :
    s.loadGlobal lanes o =
      (s.loadRecorded o lanes [mBase o true, mSecond o false] (loadRecord s o .mem lanes (address s o true true) fun _ => .wait)).go := by
  have haccs : ((s.easOf s.actor lanes o true true).map fun (p : Nat × Int) => (⟨p.1,
      (s.raiseFloors s.actor lanes [mBase o true, mSecond o false]).dstOf s.actor p.1 o.d o.ty.wide, eaNat p.2, memSize o.ty, o.ty.code, .wait⟩ : Acc)) =
      (loadRecord s o .mem lanes (address s o true true) fun _ => .wait).accs := by
    rw [easOf_eq_address, List.map_map]
    refine List.map_congr_left fun l hl => ?_
    simp only [Function.comp_apply, dstOf_raiseFloors, h.eaNat_eq hl, loadLane]
  simp only [State.loadGlobal, firstStop, h.addressStop_none, hu.loadGoes, haccs]
  rfl

theorem execLd_cleared (hc : Cleared s 0x40 o.g [mBase o true, mSecond o false, dstOpnd o.d o.ty.wide]) (hne : activeLanes s o.g ≠ [])
    (h : Reached s (activeLanes s o.g) (address s o true true) (memSize o.ty) true false) :
    execLd o s = .next (s.loadRecorded o (activeLanes s o.g) [mBase o true, mSecond o false]
      (loadRecord s o .mem (activeLanes s o.g) (address s o true true) fun _ => .wait)).go := by
  rw [execLd, begin_cleared hc hne]
  exact congrArg _ (loadGlobal_reached hu h)

theorem execLdk_cleared (hc : ClearedOnce s 0x42 o.g [mBase o true, mSecond o false, dstOpnd o.d o.ty.wide])
    (h : Reached s ((activeLanes s o.g).take 1) (address s o true true) (memSize o.ty) true false) :
    execLdk o s = .next (s.loadRecorded o ((activeLanes s o.g).take 1) [mBase o true, mSecond o false]
      (loadRecord s o .mem ((activeLanes s o.g).take 1) (address s o true true) fun _ => .wait)).go := by
  rw [execLdk, begin_clearedOnce hc]
  exact congrArg _ (loadGlobal_reached hu h)

/-- LDS of lanes that pass the checks of R175, outside every stash window, takes its bytes at once. -/
theorem execLds_cleared (hc : Cleared s 0x43 o.g [mBase o false, mSecond o false, dstOpnd o.d o.ty.wide]) (hne : activeLanes s o.g ≠ [])
    (h : Reached s (activeLanes s o.g) (address s o false true) (memSize o.ty) false false) (hstash : (s.wgOf s.actor).stash = []) :
    execLds o s = .next (s.loadRecorded o (activeLanes s o.g) [mBase o false, mSecond o false]
      (loadRecord s o .scratch (activeLanes s o.g) (address s o false true) fun l =>
        s.scrLoad (s.wgOf s.actor) (address s o false true l).toNat (memSize o.ty))).go := by
  obtain ⟨c, hraise⟩ := raiseFloors_clusters s.actor (activeLanes s o.g) [mBase o false, mSecond o false] s
  have hplants : (s.raiseFloors s.actor (activeLanes s o.g) [mBase o false, mSecond o false]).plants = [] := by rw [hraise]; exact hc.plants
  have hscr : (s.raiseFloors s.actor (activeLanes s o.g) [mBase o false, mSecond o false]).scrLoad = s.scrLoad := by rw [hraise]; rfl
  have haccs : ((s.easOf s.actor (activeLanes s o.g) o false true).map fun (p : Nat × Int) => (⟨p.1,
      s.dstOf s.actor p.1 o.d o.ty.wide, eaNat p.2, memSize o.ty, o.ty.code, s.scrLoad (s.wgOf s.actor) (eaNat p.2) (memSize o.ty)⟩ : Acc)) =
      (loadRecord s o .scratch (activeLanes s o.g) (address s o false true) fun l =>
        s.scrLoad (s.wgOf s.actor) (address s o false true l).toNat (memSize o.ty)).accs := by
    rw [easOf_eq_address, List.map_map]
    refine List.map_congr_left fun l hl => ?_
    simp only [Function.comp_apply, h.eaNat_eq hl, loadLane]
  simp only [execLds, begin_cleared hc hne, firstStop, h.addressStop_none, hu.loadGoes, stashNeeds_nil _ hstash, List.isEmpty_nil, if_true,
    foldl_noteScr_clean hplants, hscr, dstOf_raiseFloors, haccs]
  rfl

end

end Sys2Proof.Machine
end

section
/-! SUPPORT. The settling of O21. -/

namespace Sys2Proof.Claims

open Sys2Proof.Machine

/-- Settles O21: each of the three passes its checks, and its effect is then the issue of one record. -/
theorem loadsIssue : Obligations.LoadsIssue := by
  unfold Obligations.LoadsIssue
  intro s o n tag dst record rest hu
  refine ⟨?ld, ?ldk, ?lds⟩
  case ld =>
    intro ops ea lanes hwf hc hne h
    exact ⟨_, execLd_cleared hu hc hne h, loadRecorded_issued s (isVK_of_ld hwf) lanes ops hc.toAdmitted .mem ea fun _ => .wait⟩
  case ldk =>
    intro ops ea lanes hwf hc h
    exact ⟨_, execLdk_cleared hu hc h, loadRecorded_issued s (isVK_of_ldk hwf) lanes ops hc.toAdmitted .mem ea fun _ => .wait⟩
  case lds =>
    intro ops ea lanes g hwf hc hne h hstash
    exact ⟨_, execLds_cleared hu hc hne h hstash,
      loadRecorded_issued s (isVK_of_lds hwf) lanes ops hc.toAdmitted .scratch ea fun l => s.scrLoad g (ea l).toNat n⟩

end Sys2Proof.Claims
end

section
/-! SUPPORT. The laws of a load's end: the filling of a destination, the settling of its record, and LOAD_FILL (R42, R124, R136). -/

namespace Sys2Proof.Machine

open Sys2Proof.Num (sgn wrap)

/-! ### The extension of a loaded value (R136) -/

theorem tyOf_code (ty : Ty) : tyOf ty.code = ty := by cases ty <;> rfl

theorem wrap_sgn (v w x : Nat) : wrap v (sgn w x) = ((BitVec.ofNat w x).signExtend v).toNat := by
  rw [sgn_eq_toInt, wrap, BitVec.signExtend, BitVec.toNat_ofInt]

/-! ### Filling a destination (R42) -/

/-- What word i of a destination holds once a value, or poison, has filled it. -/
def fillCell (y : Nat) (poison wts : Option Nat) (i : Nat) : Cell :=
  ⟨match poison with
    | some o => .poisoned o
    | none => .full, BitVec.ofNat 32 (y / 2 ^ (32 * i)), wts⟩

/-- A destination has been filled, the regions that owe its snapshot have taken it, and every other register is as it was. -/
structure Filled (s u : State) (dst : Option Dst) (cell : Nat → Cell) : Prop where
  filled : ∀ d, dst = some d → ∀ i < (if d.wide then 2 else 1),
    (d.isK = false → u.vCell (d.key + i) = cell i) ∧ (d.isK = true → (d.key + i) % 64 ≠ 0 → u.kCell (d.key + i) = cell i)
  vKept : ∀ key, (∀ d, dst = some d → d.isK = false → key ≠ d.key ∧ (d.wide = true → key ≠ d.key + 1)) → u.vCell key = s.vCell key
  kKept : ∀ key, (∀ d, dst = some d → d.isK = true → key ≠ d.key ∧ (d.wide = true → key ≠ d.key + 1)) → u.kCell key = s.kCell key
  only : u = { s with vRegs := u.vRegs, kRegs := u.kRegs, regions := u.regions }

theorem filled_none (s : State) (cell : Nat → Cell) : Filled s s none cell :=
  ⟨fun _ h => by (cases h), fun _ _ => rfl, fun _ _ => rfl, rfl⟩

/-- Filling a destination stores its words, the second after the first. -/
theorem fillDst_eq (s : State) (d : Dst) (y : Nat) (poison wts : Option Nat) : s.fillDst d y poison wts =
    (fun u : State => if d.wide then u.storeDst d 1 (fillCell y poison wts 1) else u) (s.storeDst d 0 (fillCell y poison wts 0)) := by
  simp only [State.fillDst, fillCell, Nat.mul_zero, Nat.pow_zero, Nat.div_one, Nat.mul_one] <;> rfl

section

variable {s : State} (hp : s.plants = []) (d : Dst)

include hp

theorem storeDst_registers (i : Nat) (c : Cell) : ∃ v k, s.storeDst d i c = { s with vRegs := v, kRegs := k } := by
  unfold State.storeDst
  rw [State.storeV_clean hp]
  repeat' split
  all_goals exact ⟨_, _, rfl⟩

theorem vCell_storeDst (i : Nat) (c : Cell) (key : Nat) :
    (s.storeDst d i c).vCell key = if d.isK = false ∧ key = d.key + i then c else s.vCell key := by
  unfold State.storeDst
  rw [State.storeV_clean hp]
  cases hk : d.isK with
  | false => simp [State.vCell_setV]
  | true => simp; split <;> rfl

theorem kCell_storeDst (i : Nat) (c : Cell) (key : Nat) :
    (s.storeDst d i c).kCell key = if d.isK = true ∧ key = d.key + i ∧ key % 64 ≠ 0 then c else s.kCell key := by
  unfold State.storeDst
  rw [State.storeV_clean hp]
  cases hk : d.isK with
  | false => simp; rfl
  | true =>
    by_cases h0 : (d.key + i) % 64 = 0
    · simp [h0]; grind
    · simp [h0, State.kCell_setK]; grind

theorem fillDst_registers (y : Nat) (poison wts : Option Nat) : ∃ v k, s.fillDst d y poison wts = { s with vRegs := v, kRegs := k } := by
  obtain ⟨v, k, e⟩ := storeDst_registers hp d 0 (fillCell y poison wts 0)
  rw [fillDst_eq, e]
  dsimp only
  split
  · obtain ⟨v', k', e'⟩ := storeDst_registers (s := { s with vRegs := v, kRegs := k }) hp d 1 (fillCell y poison wts 1)
    exact ⟨v', k', e'⟩
  · exact ⟨v, k, rfl⟩

theorem vCell_fillDst (y : Nat) (poison wts : Option Nat) (key : Nat) : (s.fillDst d y poison wts).vCell key =
    if d.isK = false ∧ d.wide = true ∧ key = d.key + 1 then fillCell y poison wts 1
    else if d.isK = false ∧ key = d.key then fillCell y poison wts 0 else s.vCell key := by
  obtain ⟨v, k, e⟩ := storeDst_registers hp d 0 (fillCell y poison wts 0)
  have hp' : (s.storeDst d 0 (fillCell y poison wts 0)).plants = [] := by rw [e]; exact hp
  cases hw : d.wide with
  | false => simp [fillDst_eq, hw, vCell_storeDst hp]
  | true => simp [fillDst_eq, hw, vCell_storeDst hp', vCell_storeDst hp]

theorem kCell_fillDst (y : Nat) (poison wts : Option Nat) (key : Nat) : (s.fillDst d y poison wts).kCell key =
    if d.isK = true ∧ d.wide = true ∧ key = d.key + 1 ∧ key % 64 ≠ 0 then fillCell y poison wts 1
    else if d.isK = true ∧ key = d.key ∧ key % 64 ≠ 0 then fillCell y poison wts 0 else s.kCell key := by
  obtain ⟨v, k, e⟩ := storeDst_registers hp d 0 (fillCell y poison wts 0)
  have hp' : (s.storeDst d 0 (fillCell y poison wts 0)).plants = [] := by rw [e]; exact hp
  cases hw : d.wide with
  | false => simp [fillDst_eq, hw, kCell_storeDst hp]
  | true => simp [fillDst_eq, hw, kCell_storeDst hp', kCell_storeDst hp]

theorem filled_some (y : Nat) (poison wts : Option Nat) :
    Filled s ((s.fillDst d y poison wts).noteFilled d) (some d) (fillCell y poison wts) := by
  have hv : ∀ key, ((s.fillDst d y poison wts).noteFilled d).vCell key = _ := vCell_fillDst hp d y poison wts
  have hk : ∀ key, ((s.fillDst d y poison wts).noteFilled d).kCell key = _ := kCell_fillDst hp d y poison wts
  refine ⟨?filled, ?vKept, ?kKept, ?only⟩
  case filled =>
    rintro _ ⟨⟩ i hi
    rw [hv, hk]
    have hi' : i = 0 ∨ i = 1 ∧ d.wide = true := by split at hi <;> grind
    rcases hi' with rfl | ⟨rfl, hw⟩ <;> grind
  case vKept =>
    intro key h
    rw [hv]
    have := h d rfl
    grind
  case kKept =>
    intro key h
    rw [hk]
    have := h d rfl
    grind
  case only =>
    obtain ⟨v, k, e⟩ := fillDst_registers hp d y poison wts
    rw [e]
    rfl

end

/-! ### A load's lanes come to their end (R124) -/

/-- With the lanes that a test picks, every lane of the load has come to its end. -/
def Load.endsWith (ld : Load) (f : Acc → Bool) : Bool := ld.accs.all fun b => f b || decide (b.phase = .done)

/-- The record with the lanes that a test picks at their end. -/
def Load.ended (ld : Load) (f : Acc → Bool) : Load := { ld with accs := ld.accs.map fun b => if f b then { b with phase := .done } else b }

/-- The warp's counters without a load. -/
def Warp.settled (w : Warp) (id : Nat) (ld : Load) : Warp :=
  { w with
    loads := if ld.counted = 1 then w.loads - 1 else w.loads
    engines := if ld.counted = 2 then w.engines - 1 else w.engines
    flagsDue := w.flagsDue.filter fun i => i ≠ id }

theorem Load.all_ended (ld : Load) (f : Acc → Bool) : ((ld.ended f).accs.all fun a => a.phase = .done) = ld.endsWith f := by
  simp only [Load.ended, Load.endsWith, List.all_map]
  congr 1
  funext b
  cases hb : f b <;> simp [hb]

section

variable {s : State} {id : Nat} {ld : Load} (h : s.loads.look id = some ld) (f : Acc → Bool)

include h

/-- A load with lanes left stays. -/
theorem cancelAccs_stays (hl : ld.endsWith f = false) : s.cancelAccs id f = { s with loads := s.loads.modify id fun x => x.ended f } := by
  have e : (s.loads.modify id fun x => x.ended f).look id = some (ld.ended f) := by simp [h]
  show State.settleLoad { s with loads := s.loads.modify id fun x => x.ended f } id = _
  simp only [State.settleLoad, e, Load.all_ended, hl, Bool.false_eq_true, if_false]

/-- A load whose last lanes have come to their end leaves the warp's counters. -/
theorem cancelAccs_settles (hl : ld.endsWith f = true) : s.cancelAccs id f =
    { s with loads := (s.loads.modify id fun x => x.ended f).del id, warps := s.warps.modify ld.warp fun w => w.settled id ld } := by
  have e : (s.loads.modify id fun x => x.ended f).look id = some (ld.ended f) := by simp [h]
  show State.settleLoad { s with loads := s.loads.modify id fun x => x.ended f } id = _
  simp only [State.settleLoad, e, Load.all_ended, hl, if_true]
  rfl

end

/-- The lanes of a load that a test picks have come to their end: its record, and its place in the warp's counters (R124). -/
structure LanesEnded (s t : State) (id : Nat) (ld : Load) (w : Warp) (f : Acc → Bool) : Prop where
  gone : ld.endsWith f = true → t.loads.look id = none
  stays : ld.endsWith f = false → t.loads.look id = some (ld.ended f)
  warp : t.warps.look ld.warp = some (if ld.endsWith f then w.settled id ld else w)
  otherWarps : ∀ n, n ≠ ld.warp → t.warps.look n = s.warps.look n
  otherLoads : ∀ j, j ≠ id → t.loads.look j = s.loads.look j
  only : t = { s with loads := t.loads, warps := t.warps }

theorem cancelAccs_lanesEnded {s : State} {id : Nat} {ld : Load} {w : Warp} (h : s.loads.look id = some ld) (hw : s.warps.look ld.warp = some w)
    (f : Acc → Bool) : LanesEnded s (s.cancelAccs id f) id ld w f := by
  cases hl : ld.endsWith f with
  | true =>
    rw [cancelAccs_settles h f hl]
    refine ⟨fun _ => Tab.look_del_same .., fun e => (nomatch hl.symm.trans e), ?_, fun n hn => Tab.look_modify_ne _ _ hn, fun j hj => ?_, rfl⟩
    · rw [if_pos hl, Tab.look_modify_same, hw]; rfl
    · rw [Tab.look_del_ne _ hj, Tab.look_modify_ne _ _ hj]
  | false =>
    rw [cancelAccs_stays h f hl]
    refine ⟨fun e => (nomatch hl.symm.trans e), fun _ => ?_, ?_, fun _ _ => rfl, fun j hj => Tab.look_modify_ne _ _ hj, rfl⟩
    · rw [Tab.look_modify_same, h]; rfl
    · rw [hl, hw]; rfl

/-! ### LOAD_FILL (R42) -/

theorem orFlags_warps (s : State) (sel m : Nat) : ∃ x, s.orFlags sel m = { s with warps := x } := by
  rw [orFlags_eq]
  split <;> exact ⟨_, rfl⟩

theorem look_orFlags (s : State) (sel m n : Nat) : (s.orFlags sel m).warps.look n =
    if n = sel then (s.warps.look sel).map fun w => { w with fpc := w.fpc ||| BitVec.ofNat 32 m } else s.warps.look n := by
  rw [orFlags_eq]
  split
  next h =>
    subst h
    split
    next h => subst h; cases s.warps.look n <;> simp
    next => rfl
  next => exact State.look_modWarp ..

/-- The filling of a lane's register, then the flags, then the record. -/
theorem fillAcc_filled {s : State} (hp : s.plants = []) (id : Nat) (ld : Load) (a : Acc) (x : Nat) (poison wts : Option Nat) :
    ∃ u, Filled s u a.dst (fillCell (extendLoad (tyOf a.ty) x) poison wts) ∧
      s.fillAcc id ld a x poison wts = (u.orFlags ld.warp ld.flags).cancelAccs id fun b => b.lane = a.lane := by
  have hinj : (if ld.vecResult then s.inject (fibreKey ld.warp a.lane) (extendLoad (tyOf a.ty) x) else (extendLoad (tyOf a.ty) x, s)) =
      (extendLoad (tyOf a.ty) x, s) := by rw [State.inject_clean hp, ite_self]
  simp only [State.fillAcc, hinj]
  cases a.dst with
  | none => exact ⟨s, filled_none s _, rfl⟩
  | some d => exact ⟨_, filled_some hp d _ poison wts, rfl⟩

/-- The record of a lane that has one is found. -/
theorem find_only {ld : Load} {a : Acc} (ho : Only ld a) : ld.accs.find? (fun b => b.lane = a.lane) = some a := by
  obtain ⟨hmem, huniq⟩ := ho
  cases e : ld.accs.find? (fun b => b.lane = a.lane) with
  | none => exact absurd (List.find?_eq_none.mp e a hmem) (by simp)
  | some b => rw [huniq b (List.mem_of_find?_eq_some e) (by simpa using List.find?_some e)]

section

variable {s : State} {id : Nat} {ld : Load} {a : Acc} (h : s.loads.look id = some ld) (ho : Only ld a)

include h ho

/-- A lane that is bound waits for nothing that L1 or the scratchpad could serve. -/
theorem bindNear_bound (hw : a.phase ≠ .wait) : s.bindNear id a.lane = s := by
  have e : s.waitingAcc id a.lane = none := by
    simp only [State.waitingAcc, h, Option.bind_some, ite_eq_left_iff, Option.map_eq_none_iff, List.find?_eq_none, decide_eq_true_eq]
    rintro _ b hb ⟨hlane, hwait⟩
    exact hw (ho.2 b hb hlane ▸ hwait)
  rw [State.bindNear, e]

/-- LOAD_FILL of a lane whose data have come fills its register. -/
theorem execLoadFill_bound {x : Nat} {poison wts : Option Nat} (hb : a.phase = .bound x poison wts) {w : Warp} (hw : s.warps.look ld.warp = some w)
    (hlt : ld.warp < 6144) : execLoadFill id a.lane s = .next (s.fillAcc id ld a x poison wts) := by
  have hlt' : ¬ld.warp ≥ 6144 := by omega
  simp [execLoadFill, bindNear_bound h ho (by rw [hb]; exact nofun), h, find_only ho, hw, hlt', hb]

end

end Sys2Proof.Machine
end

section
/-! SUPPORT. The settling of O30. -/

namespace Sys2Proof.Claims

open Sys2Proof.Machine

/-- A loaded value as its type extends it (R136), in words of bit vectors. -/
theorem extendLoad_eq (ty : Ty) (x : Nat) : extendLoad ty x = match ty with
    | .s8 => ((BitVec.ofNat 8 x).signExtend 32).toNat
    | .s16 => ((BitVec.ofNat 16 x).signExtend 32).toNat
    | _ => x := by
  cases ty with
  | s8 | s16 => exact wrap_sgn ..
  | _ => rfl

/-- Settles O30: the register's filling, the flags and the record's end follow one another, each on fields of its own. -/
theorem loadsFillRegisters : Obligations.LoadsFillRegisters := by
  unfold Obligations.LoadsFillRegisters
  intro s id ld a ty x poison wts w h ho hb hty hw hlt hp y cell last
  obtain ⟨u, hfill, heq⟩ := fillAcc_filled hp id ld a x poison wts
  have hcell : fillCell (extendLoad (tyOf a.ty) x) poison wts = cell := by
    rw [hty, tyOf_code, extendLoad_eq]; rfl
  rw [hcell] at hfill
  obtain ⟨ws, hws⟩ := orFlags_warps u ld.warp ld.flags
  have hlook := look_orFlags u ld.warp ld.flags
  have huw : u.warps = s.warps := by rw [hfill.only]
  have hul : u.loads = s.loads := by rw [hfill.only]
  have hend := cancelAccs_lanesEnded (s := u.orFlags ld.warp ld.flags) (w := { w with fpc := w.fpc ||| BitVec.ofNat 32 ld.flags })
    (by rw [hws]; exact hul ▸ h) (by rw [hlook, if_pos rfl, huw, hw]; rfl) fun b => b.lane = a.lane
  rw [← heq] at hend
  have hlast : last = ld.endsWith fun b => b.lane = a.lane := by
    rw [Bool.eq_iff_iff]
    simp [last, Load.endsWith]
  have honly : s.fillAcc id ld a x poison wts =
      { u with loads := (s.fillAcc id ld a x poison wts).loads, warps := (s.fillAcc id ld a x poison wts).warps } := by
    rw [hend.only, hws]
  refine ⟨_, execLoadFill_bound h ho hb hw hlt, ?_⟩
  generalize s.fillAcc id ld a x poison wts = t at hend honly
  have hv : t.vCell = u.vCell := by funext key; simp only [State.vCell]; rw [honly]
  have hk : t.kCell = u.kCell := by funext key; simp only [State.kCell]; rw [honly]
  rw [hv, hk, hlast]
  refine ⟨hfill.filled, hfill.vKept, hfill.kKept, ?gone, ?stays, ?warp, ?otherWarps, ?otherLoads, ?only⟩
  case gone => exact hend.gone
  case stays =>
    intro e
    rw [hend.stays e]
    simp [Load.ended]
  case warp =>
    rw [hend.warp]
    cases ld.endsWith fun b => b.lane = a.lane <;> simp [Warp.settled]
  case otherWarps =>
    intro n hn
    rw [hend.otherWarps n hn, hlook, if_neg hn, huw]
  case otherLoads =>
    intro j hj
    rw [hend.otherLoads j hj, hws, ← hul]
  case only => rw [honly, hfill.only]

end Sys2Proof.Claims
end

section
/-! SUPPORT. The laws of FENCE and PREF once they have passed their checks: the end of an instruction after an effect, the retirement of renewal
replies (R108, R110), and the lanes of a prefetch (R185). -/

namespace Sys2Proof.Machine

/-! ### An effect that leaves the batch where it stands, and the end of its instruction -/

theorem endOnly_go (s : State) : EndOnly s s.go := endOnly_advance ..

/-- After an effect that leaves fibres and batches, the batch goes on to the next word. -/
theorem advanced_go {s u : State} {op : Nat} (ha : Admitted s op) (hactor : u.actor = s.actor) (hf : u.fibres = s.fibres)
    (hb : u.batchLanes s.actor = s.batchLanes s.actor) : Advanced s u.go := by
  intro l hl
  rw [State.go, hactor, hb, advanced_advance u s.actor _ ha.batch.1 l hl, hf]

/-! ### Timestamps (R80, R108) -/

/-- The later of two timestamps depends on the first one's 16 bits alone. -/
theorem tsMax_congr_left {a a' : Nat} (h : a % 65536 = a' % 65536) (b : Nat) : tsMax a b % 65536 = tsMax a' b % 65536 := by
  unfold tsMax tsLt
  rw [h]
  dsimp only
  split
  · rfl
  · exact h

theorem foldl_tsMax_congr (rs : List (Nat × Nat)) : ∀ {a a' : Nat}, a % 65536 = a' % 65536 →
    rs.foldl (fun a r => tsMax a r.2) a % 65536 = rs.foldl (fun a r => tsMax a r.2) a' % 65536 := by
  induction rs with
  | nil => exact fun h => h
  | cons r rs ih => exact fun h => ih (tsMax_congr_left h r.2)

/-- pts raised to each of some timestamps. -/
def Cluster.raisedTo (k : Cluster) (rs : List (Nat × Nat)) : Cluster :=
  { k with pts := BitVec.ofNat 16 (rs.foldl (fun a r => tsMax a r.2) k.pts.toNat) }

theorem Cluster.raisedTo_nil (k : Cluster) : k.raisedTo [] = k := by simp [Cluster.raisedTo]

theorem Cluster.raisedTo_cons (k : Cluster) (r : Nat × Nat) (rs : List (Nat × Nat)) :
    Cluster.raisedTo { k with pts := BitVec.ofNat 16 (tsMax k.pts.toNat r.2) } rs = k.raisedTo (r :: rs) := by
  have h := foldl_tsMax_congr rs (Nat.mod_mod (tsMax k.pts.toNat r.2) 65536)
  simp only [Cluster.raisedTo, List.foldl_cons, BitVec.toNat_ofNat, Nat.reducePow]
  congr 1
  exact BitVec.eq_of_toNat_eq (by simpa using h)

theorem cluster_foldl_raisePts (c d : Nat) (rs : List (Nat × Nat)) : ∀ s : State,
    (rs.foldl (fun s r => s.raisePts c r.2) s).cluster d = if d = c then (s.cluster c).raisedTo rs else s.cluster d := by
  induction rs with
  | nil =>
    intro s
    rw [Cluster.raisedTo_nil]
    split
    next h => rw [h]; rfl
    next => rfl
  | cons r rs ih =>
    intro s
    rw [List.foldl_cons, ih, State.raisePts, State.cluster_modCluster, State.cluster_modCluster, if_pos rfl, Cluster.raisedTo_cons]
    split <;> rfl

/-- Raising a cluster's pts changes the clusters alone. -/
theorem foldl_raisePts_clusters (c : Nat) (rs : List (Nat × Nat)) : ∀ s : State,
    ∃ t, rs.foldl (fun s r => s.raisePts c r.2) s = { s with clusters := t } := by
  induction rs with
  | nil => exact fun s => ⟨s.clusters, rfl⟩
  | cons r rs ih =>
    intro s
    obtain ⟨t, h⟩ := ih (s.raisePts c r.2)
    exact ⟨t, h⟩

/-! ### Renewal replies retire (R110) -/

/-- A cluster after the renewal replies of a warp have retired: pts is raised to each of their timestamps, and they are gone. -/
def Cluster.retired (k : Cluster) (sel : Nat) : Cluster :=
  { k.raisedTo (k.unretired.filter fun r => r.1 = sel) with unretired := k.unretired.filter fun r => r.1 ≠ sel }

theorem cluster_retireReplies (s : State) (sel d : Nat) :
    (s.retireReplies sel).cluster d = if d = clusterOf sel then (s.cluster (clusterOf sel)).retired sel else s.cluster d := by
  rw [State.retireReplies, State.cluster_modCluster, cluster_foldl_raisePts, cluster_foldl_raisePts, if_pos rfl]
  split <;> rfl

theorem retireReplies_clusters (s : State) (sel : Nat) : ∃ t, s.retireReplies sel = { s with clusters := t } := by
  obtain ⟨t, h⟩ := foldl_raisePts_clusters (clusterOf sel) ((s.cluster (clusterOf sel)).unretired.filter fun r => r.1 = sel) s
  unfold State.retireReplies
  dsimp only
  rw [h]
  exact ⟨_, rfl⟩

/-- Replies retire alike whether or not the batch holds its port. -/
theorem retireReplies_holdAt (s : State) (sel phase arg : Nat) (ids : List Nat) :
    (s.holdAt sel phase arg ids).retireReplies sel = (s.retireReplies sel).holdAt sel phase arg ids := by
  have hraise : ∀ rs : List (Nat × Nat), rs.foldl (fun s r => s.raisePts (clusterOf sel) r.2) (s.holdAt sel phase arg ids) =
      (rs.foldl (fun s r => s.raisePts (clusterOf sel) r.2) s).holdAt sel phase arg ids :=
    fun rs => List.foldl_hom (fun s : State => s.holdAt sel phase arg ids) fun _ _ => rfl
  unfold State.retireReplies
  dsimp only
  rw [hraise]
  rfl

/-! ### FENCE (R184) -/

theorem endOnly_holdAt (s : State) (sel phase arg : Nat) (ids : List Nat) : EndOnly s (s.holdAt sel phase arg ids) :=
  endOnly_modWarp s sel _ fun _ => rfl

theorem batchLanes_holdAt (s : State) (sel phase arg : Nat) (ids : List Nat) (n : Nat) :
    (s.holdAt sel phase arg ids).batchLanes n = s.batchLanes n := by
  unfold State.batchLanes State.holdAt
  rw [State.look_modWarp]
  split
  next h => subst h; cases s.warps.look n <;> rfl
  next => rfl

/-- A fence that finds nothing to release holds its port and turns to its acquire side. -/
theorem execFence_cleared {s : State} {f : MFence} (hc : Cleared s 0x48 f.g []) (hne : activeLanes s f.g ≠ [])
    (hh : s.holdOf s.actor = none) (hr : f.order.val ≥ 2 → NothingToRelease s f.scope.val) :
    execFence f s = .next ((s.holdAt s.actor 1 0 []).fenceEnd s.actor f ⟨1, [], 0, s.word⟩) := by
  simp only [execFence, begin_cleared hc hne, hh]
  by_cases h2 : f.order.val ≥ 2
  · obtain ⟨hrel, hcon⟩ := hr h2
    simp [h2, hrel, hcon]
  · simp [h2]

section

variable (s : State) (sel : Nat) {f : MFence} {h : Hold} (hids : h.ids = [])

include hids

/-- A fence without an acquire side goes on. -/
theorem fenceEnd_release (ho : f.order.val % 2 = 0) : s.fenceEnd sel f h = s.go := by simp [State.fenceEnd, hids, ho]

/-- An acquire stands while a load of the warp is not bound. -/
theorem fenceEnd_waits (ho : f.order.val % 2 = 1) (hl : s.unboundLoads sel = true) : s.fenceEnd sel f h = s := by
  simp [State.fenceEnd, hids, ho, hl]

/-- An acquire whose loads are all bound retires the warp's renewal replies and goes on. -/
theorem fenceEnd_acquire (ho : f.order.val % 2 = 1) (hl : s.unboundLoads sel = false) :
    s.fenceEnd sel f h = (s.retireReplies sel).go := by
  simp [State.fenceEnd, hids, ho, hl]

end

/-- An acquire that has retired the warp's renewal replies has changed their cluster, and its batch goes on. -/
theorem acquired_go {s : State} {op : Nat} (ha : Admitted s op) :
    let c := clusterOf s.actor
    let t := ((s.retireReplies s.actor).holdAt s.actor 1 0 []).go
    Advanced s t ∧ (t.cluster c).pts = ((s.cluster c).retired s.actor).pts ∧
      (t.cluster c).unretired = ((s.cluster c).retired s.actor).unretired ∧
      ContextsKept (s.modCluster c fun k => { k with pts := (t.cluster c).pts, unretired := (t.cluster c).unretired }) t whole whole ∧
      t = { s with fibres := t.fibres, warps := t.warps, clusters := t.clusters } := by
  intro c t
  obtain ⟨cs, hu⟩ := retireReplies_clusters s s.actor
  have hend : EndOnly (s.retireReplies s.actor) t := (endOnly_holdAt ..).trans (endOnly_go _)
  have hmoved : Advanced s t := advanced_go ha (by rw [hu]; rfl) (by rw [hu]; rfl) (by rw [batchLanes_holdAt, hu]; rfl)
  clear_value t
  have hstill := hend.clusters c
  rw [cluster_retireReplies, if_pos rfl] at hstill
  have hpts : (t.cluster c).pts = ((s.cluster c).retired s.actor).pts := (congrArg Cluster.pts hstill :)
  have hunretired : (t.cluster c).unretired = ((s.cluster c).retired s.actor).unretired := (congrArg Cluster.unretired hstill :)
  refine ⟨hmoved, hpts, hunretired, ⟨?fibres, ?warps, ?clusters⟩, by rw [hend.only, hu]⟩
  case fibres => rw [hu] at hend; exact hend.fibres
  case warps => rw [hu] at hend; exact hend.warps
  case clusters =>
    intro d
    rw [hend.clusters d, cluster_retireReplies, State.cluster_modCluster]
    split
    · rw [hpts, hunretired]; rfl
    · rfl

/-- A fence carries at least one of release and acquire: it acquires unless it is a release alone. -/
theorem fence_acquires_iff {f : MFence} (h : (Instr.fence f).wellFormed = true) : f.order.val % 2 = 1 ↔ f.order.val ≠ 2 := by
  simp only [Instr.wellFormed, Bool.and_eq_true, decide_eq_true_eq] at h
  obtain ⟨h0, -⟩ := h
  have hv : f.order.val ≠ 0 := fun e => h0 (Fin.ext e)
  omega

/-! ### PREF (R185) -/

/-- A lane's four bytes lie in the global space, aligned. -/
theorem prefetchable_iff (l : Nat) (e : Int) : ((eaDenied [(l, e)] 4 globalEnd).isNone && (eaMisaligned [(l, e)] 4).isNone) =
    decide (0 ≤ e ∧ e + 4 ≤ 2 ^ 48 ∧ e % 4 = 0) := by
  rw [Bool.eq_iff_iff]
  simp [eaDenied, eaMisaligned, globalEnd, and_assoc]

/-- A list of checks passes when each of them does. -/
theorem firstStop_eq_none_iff {cs : List (Unit → Option Stop)} : firstStop cs = none ↔ ∀ c ∈ cs, c () = none := by
  induction cs with
  | nil => simp [firstStop]
  | cons c cs ih => cases h : c () <;> simp [firstStop, h, ih]

/-- Accesses that lie in their space, aligned and unlocked, meet no lock (R91). -/
theorem Reached.eaLocked_none {s : State} {lanes : List Nat} {o : M} {isGlobal wr : Bool}
    (h : Reached s lanes (address s o isGlobal true) (memSize o.ty) isGlobal wr) :
    s.eaLocked s.actor (s.easOf s.actor lanes o isGlobal true) (memSize o.ty) isGlobal wr = none := by
  have hstop := firstStop_eq_none_iff.mp h.addressStop_none
  exact hstop (fun _ => s.eaLocked s.actor (s.easOf s.actor lanes o isGlobal true) (memSize o.ty) isGlobal wr) (by simp)

/-- The lanes of a prefetch whose four bytes lie in the global space, aligned. -/
def prefLanes (s : State) (o : M) : List Nat :=
  (activeLanes s o.g).filter fun l =>
    decide (0 ≤ address s o true true l ∧ address s o true true l + 4 ≤ 2 ^ 48 ∧ address s o true true l % 4 = 0)

theorem easOf_prefLanes (s : State) (o : M) : ((s.easOf s.actor (activeLanes s o.g) o true true).filter fun (p : Nat × Int) =>
    (eaDenied [p] 4 globalEnd).isNone && (eaMisaligned [p] 4).isNone) = s.easOf s.actor (prefLanes s o) o true true := by
  simp only [easOf_eq_address, List.filter_map, Function.comp_def, prefetchable_iff]
  rfl

/-- The lanes that a prefetch keeps pass the checks of R175, unless a lock holds their bytes. -/
theorem reached_prefLanes {s : State} {o : M} (hty : o.ty = .b32)
    (hl : ∀ l ∈ prefLanes s o, unlocked s (address s o true true l) 4 true false) :
    Reached s (prefLanes s o) (address s o true true) (memSize o.ty) true false := by
  have hmem : ∀ l ∈ prefLanes s o,
      0 ≤ address s o true true l ∧ address s o true true l + 4 ≤ 2 ^ 48 ∧ address s o true true l % 4 = 0 := by
    intro l h
    simpa using (List.mem_filter.mp h).2
  rw [hty]
  exact ⟨fun l h => ⟨(hmem l h).1, (hmem l h).2.1⟩, fun l h => (hmem l h).2.2, hl⟩

/-- What a prefetch fills: a record without destinations, of the lanes that it keeps. -/
def prefRecord (s : State) (o : M) : Load :=
  ⟨s.actor, .mem, (prefLanes s o).map (loadLane o (address s o true true) (fun _ => .wait) fun _ => none), o.ord.val, false, 0, 0, false, 0⟩

/-- The state in which the floors of a prefetch's operands have raised pts (R108). -/
def State.prefFloors (s : State) (o : M) : State := s.raiseFloors s.actor (activeLanes s o.g) [mBase o true, mSecond o false]

theorem prefFloors_clusters (s : State) (o : M) : ∃ c, s.prefFloors o = { s with clusters := c } := raiseFloors_clusters ..

/-- The state in which a prefetch is recorded, if it keeps a lane, before the batch goes on. -/
def State.prefRecorded (s : State) (o : M) : State :=
  if prefLanes s o = [] then s.prefFloors o else { s.prefFloors o with loads := s.loads.put s.nextId (prefRecord s o), nextId := s.nextId + 1 }

/-- A prefetch changes clusters by the floors of its operands, and the loads by its record. -/
theorem prefRecorded_eq (s : State) (o : M) : s.prefRecorded o =
    { s with
      clusters := (s.prefFloors o).clusters
      loads := (s.prefRecorded o).loads
      nextId := (s.prefRecorded o).nextId } := by
  obtain ⟨c, h⟩ := prefFloors_clusters s o
  by_cases hg : prefLanes s o = []
  · rw [State.prefRecorded, if_pos hg, h]
  · rw [State.prefRecorded, if_neg hg, h]

theorem prefRecorded_of_nil {s : State} {o : M} (h : prefLanes s o = []) :
    (s.prefRecorded o).loads = s.loads ∧ (s.prefRecorded o).nextId = s.nextId := by
  obtain ⟨c, hc⟩ := prefFloors_clusters s o
  rw [State.prefRecorded, if_pos h, hc]
  exact ⟨rfl, rfl⟩

theorem prefRecorded_loads_of_ne_nil {s : State} {o : M} (h : prefLanes s o ≠ []) :
    (s.prefRecorded o).loads = s.loads.put s.nextId (prefRecord s o) := by
  rw [State.prefRecorded, if_neg h]

/-- The model's record of the lanes that a prefetch keeps is the one that the statement speaks of. -/
theorem prefRecord_accs {s : State} {o : M} (hty : o.ty = .b32)
    (hr : Reached s (prefLanes s o) (address s o true true) (memSize o.ty) true false) :
    ((s.easOf s.actor (prefLanes s o) o true true).map fun (p : Nat × Int) => (⟨p.1, none, eaNat p.2, 4, 0, .wait⟩ : Acc)) =
      (prefRecord s o).accs := by
  rw [easOf_eq_address, List.map_map]
  refine List.map_congr_left fun l h => ?_
  simp only [Function.comp_apply, loadLane, hr.eaNat_eq h, hty]
  rfl

/-- A prefetch that has passed its checks drops the lanes that it may not fill, and records the others. -/
theorem execPref_cleared {s : State} {o : M} (hwf : (Instr.pref o).wellFormed = true)
    (hc : Cleared s 0x49 o.g [mBase o true, mSecond o false]) (hne : activeLanes s o.g ≠ []) (hacq : s.acquiring s.actor = false)
    (hl : ∀ l ∈ prefLanes s o, unlocked s (address s o true true l) 4 true false) : execPref o s = .next (s.prefRecorded o).go := by
  have hty : o.ty = .b32 := by
    simp only [Instr.wellFormed, Bool.and_eq_true, decide_eq_true_eq] at hwf
    obtain ⟨⟨-, hty⟩, -⟩ := hwf
    exact hty
  have hr := reached_prefLanes hty hl
  have hlock : s.eaLocked s.actor (s.easOf s.actor (prefLanes s o) o true true) 4 true false = none := by
    have h := hr.eaLocked_none
    rwa [hty] at h
  have hempty : (s.easOf s.actor (prefLanes s o) o true true).isEmpty = (prefLanes s o).isEmpty := by simp [easOf_eq_address]
  have hfloors : s.raiseFloors s.actor (activeLanes s o.g) [mBase o true, mSecond o false] = s.prefFloors o := rfl
  obtain ⟨c, hclusters⟩ := prefFloors_clusters s o
  simp only [execPref, begin_cleared hc hne, easOf_prefLanes, firstStop, hlock, State.stallIf, hacq, prefRecord_accs hty hr, hempty, hfloors,
    Bool.false_eq_true, if_false, State.prefRecorded, List.isEmpty_iff]
  by_cases hg : prefLanes s o = []
  · rw [if_pos hg, if_pos hg]
  · rw [if_neg hg, if_neg hg, hclusters]
    rfl

/-- A prefetch that has been recorded and gone on, field by field. -/
theorem prefRecorded_go {s : State} {o : M} {op : Nat} (ha : Admitted s op) :
    let t := (s.prefRecorded o).go
    (t.loads = (s.prefRecorded o).loads ∧ t.nextId = (s.prefRecorded o).nextId) ∧ Advanced s t ∧
      ContextsKept (s.prefFloors o) t whole whole ∧
      t = { s with loads := t.loads, nextId := t.nextId, fibres := t.fibres, warps := t.warps, clusters := t.clusters } := by
  intro t
  have hu := prefRecorded_eq s o
  have hend : EndOnly (s.prefRecorded o) t := endOnly_go _
  have hmoved : Advanced s t := advanced_go ha (by rw [hu]) (by rw [hu]) (by rw [hu]; rfl)
  obtain ⟨c, hfloors⟩ := prefFloors_clusters s o
  have hkept := hend.contextsKept (s := s.prefFloors o) (fw := whole)
    (by rw [hu, hfloors]) (fun n => by rw [hu, hfloors]) (by rw [hu])
  clear_value t
  exact ⟨⟨by rw [hend.only], by rw [hend.only]⟩, hmoved, hkept, by rw [hend.only, hu]⟩

end Sys2Proof.Machine
end

section
/-! SUPPORT. The settling of O26. -/

namespace Sys2Proof.Claims

open Sys2Proof.Machine

/-- Settles O26: the fence's hold is erased with its clause, and what remains is the retirement of its warp's replies; the prefetch's lanes
that are kept pass every check of a load. -/
theorem fenceAndPrefetch : Obligations.FenceAndPrefetch := by
  unfold Obligations.FenceAndPrefetch
  intro s f o
  refine ⟨?fence, ?pref⟩
  case fence =>
    intro c mine hwf hc hne hh hr
    have hexec := execFence_cleared hc hne hh hr
    have hacq := fence_acquires_iff hwf
    refine ⟨fun h2 => ?release, fun h2 hl => ?acquire, fun h2 hl => ?waits⟩
    case release =>
      rw [fenceEnd_release _ _ rfl (by omega)] at hexec
      have hend := (endOnly_holdAt s s.actor 1 0 []).trans (endOnly_go _)
      exact ⟨_, hexec, advanced_go hc.toAdmitted rfl rfl (batchLanes_holdAt ..),
        hend.contextsKept rfl (fun _ => rfl) rfl, hend.only⟩
    case acquire =>
      rw [fenceEnd_acquire (s.holdAt s.actor 1 0 []) _ rfl (hacq.mpr h2) hl, retireReplies_holdAt] at hexec
      exact ⟨_, hexec, acquired_go hc.toAdmitted⟩
    case waits =>
      exact ⟨_, hexec, fenceEnd_waits (s.holdAt ..) _ rfl (hacq.mpr h2) hl⟩
  case pref =>
    intro lanes ea ops good hwf hc hne hacq hl
    obtain ⟨⟨hloads, hids⟩, hmoved, hkept, hrest⟩ := prefRecorded_go (o := o) hc.toAdmitted
    refine ⟨_, execPref_cleared hwf hc hne hacq hl, fun hg => ?none, fun hg => ?some, hmoved, hkept, hrest⟩
    case none =>
      rw [hloads, hids]
      exact prefRecorded_of_nil hg
    case some =>
      rw [hloads, prefRecorded_loads_of_ne_nil hg]
      exact ⟨Tab.look_put_same .., fun id hid => Tab.look_put_ne _ _ hid⟩

end Sys2Proof.Claims
end
